-- ==== Sys2Proof/Word.lean ====
section
/-! DEFINITION. The word types of the Walok-9 and the plainest data shapes built from them (R4, R44). -/
namespace Sys2Proof

abbrev W8 := BitVec 8
abbrev W16 := BitVec 16
abbrev W32 := BitVec 32
abbrev W64 := BitVec 64

/-- A finite map from numbers, kept as a list sorted by key. -/
abbrev Tbl (α : Type) := List (Nat × α)

/-- Bytes by address (Host.Cell pairs); an address that is not listed reads as 0. -/
abbrev Cells := List (Nat × BitVec 8)

/-- One vector register row: 64 lanes of 32 bits (R14). -/
abbrev Row := List W32

/-- A set of lanes, bit `l` for lane `l` (R18). -/
abbrev Lanes := BitVec 64

end Sys2Proof
end

