-- ==== Sys2Proof/Machine/Table.lean ====
section
/-! DEFINITION. Finite maps, byte memories, lane sets and rows: the data operations that every other file uses. -/
namespace Sys2Proof.Machine
open Sys2Proof

/-! ### Finite maps sorted by key -/

def tget {α : Type} : Tbl α → Nat → Option α
  | [], _ => none
  | (k, a) :: t, n => if k = n then some a else tget t n

def tput {α : Type} : Tbl α → Nat → α → Tbl α
  | [], n, a => [(n, a)]
  | (k, b) :: t, n, a =>
    if n < k then (n, a) :: (k, b) :: t else if n = k then (n, a) :: t else (k, b) :: tput t n a

def tdel {α : Type} (t : Tbl α) (n : Nat) : Tbl α := t.filter (fun e => e.1 != n)

def tgetD {α : Type} (t : Tbl α) (n : Nat) (d : α) : α := (tget t n).getD d

def thas {α : Type} (t : Tbl α) (n : Nat) : Bool := (tget t n).isSome

/-- Change the entry of `n`, if there is one. -/
def tmod {α : Type} (t : Tbl α) (n : Nat) (f : α → α) : Tbl α :=
  match tget t n with
  | some a => tput t n (f a)
  | none => t

/-- Keys strictly rising. -/
def tsorted {α : Type} : Tbl α → Bool
  | [] => true
  | [_] => true
  | (k, _) :: (l, b) :: t => decide (k < l) && tsorted ((l, b) :: t)

/-- Before in the order of keys compared one after another. -/
def lexBefore : List Nat → List Nat → Bool
  | a :: s, b :: t => decide (a < b) || (a == b && lexBefore s t)
  | _, _ => false

/-! ### Byte memories: an unlisted address reads 0 -/

def bget (m : Cells) (a : Nat) : W8 := (tget m a).getD 0

/-- Writing what an unlisted address reads as removes the entry, so equal memories are equal lists. -/
def bput (m : Cells) (a : Nat) (b : W8) : Cells := if b = 0 then tdel m a else tput m a b

/-- The canonical form: addresses strictly rising and no entry equal to 0. -/
def Memory.wf (m : Cells) : Bool := tsorted m && m.all (fun e => e.2 != 0)

def bgets (m : Cells) (a : Nat) : Nat → List W8
  | 0 => []
  | n + 1 => bget m a :: bgets m (a + 1) n

def bputs (m : Cells) (a : Nat) : List W8 → Cells
  | [] => m
  | b :: bs => bputs (bput m a b) (a + 1) bs

/-- Clears every byte of `[lo, hi)`. -/
def bclear (m : Cells) (lo hi : Nat) : Cells := m.filter (fun e => decide (e.1 < lo) || decide (hi ≤ e.1))

/-! ### Little-endian numbers (R4) -/

def leNat : List W8 → Nat
  | [] => 0
  | b :: bs => b.toNat + 256 * leNat bs

def leBytes : Nat → Nat → List W8
  | 0, _ => []
  | n + 1, v => BitVec.ofNat 8 v :: leBytes n (v / 256)

/-! ### Lanes and rows -/

/-- The set of the lanes below `n` for which `p` holds. -/
def maskUpTo (p : Nat → Bool) : Nat → Lanes
  | 0 => 0
  | n + 1 => if p n then maskUpTo p n ||| BitVec.twoPow 64 n else maskUpTo p n

def maskOf (p : Nat → Bool) : Lanes := maskUpTo p 64

def allLanes : Lanes := BitVec.allOnes 64

def laneList (m : Lanes) : List Nat := (List.range 64).filter (fun l => m.getLsbD l)

def rowOf (f : Nat → W32) : Row := (List.range 64).map f

def rget (r : Row) (l : Nat) : W32 := r.getD l 0

def zeroRow : Row := rowOf (fun _ => 0)

/-- `new` in the lanes of `m`, `old` elsewhere. -/
def rowMerge (m : Lanes) (new old : Row) : Row := rowOf (fun l => if m.getLsbD l then rget new l else rget old l)

def popc (m : Lanes) : Nat := (laneList m).length

/-- The lowest element at or after a start, if any. -/
def firstFrom (p : Nat → Bool) (start : Nat) : Nat → Option Nat
  | 0 => none
  | n + 1 => if p start then some start else firstFrom p (start + 1) n

def lowest (m : Lanes) : Option Nat := firstFrom (fun l => m.getLsbD l) 0 64

def listSet {α : Type} : List α → Nat → α → List α
  | [], _, _ => []
  | _ :: t, 0, a => a :: t
  | b :: t, n + 1, a => b :: listSet t n a

/-- Insert into a rising list of numbers without repeats. -/
def nput (l : List Nat) (n : Nat) : List Nat :=
  match l with
  | [] => [n]
  | k :: t => if n < k then n :: k :: t else if n = k then k :: t else k :: nput t n

def ndel (l : List Nat) (n : Nat) : List Nat := l.filter (fun k => k != n)

/-! ### Mix and CRC-32C -/

/-- Mix of R143. -/
def mix (x : W64) : W64 :=
  let x := x ^^^ (x >>> 33)
  let x := x * 0xA54F2C917B3DE86B
  let x := x ^^^ (x >>> 29)
  let x := x * 0x6C1D93F50E27B4A5
  x ^^^ (x >>> 32)

def crcBits : Nat → W32 → W32
  | 0, c => c
  | n + 1, c => crcBits n (if c.getLsbD 0 then (c >>> 1) ^^^ 0x82F63B78 else c >>> 1)

/-- CRC-32C of R314. -/
def crc32c (bs : List W8) : W32 :=
  (bs.foldl (fun c b => crcBits 8 (c ^^^ b.setWidth 32)) 0xFFFFFFFF) ^^^ 0xFFFFFFFF

end Sys2Proof.Machine
end

