-- ==== Sys2Proof/Syntax.lean ====
section
/-! DEFINITION. The instruction set as syntax: one constructor per row of the table of operations and events (R63 and the events of
"What each step holds"). Register numbers, modes and types are typed here, so the machine never sees a raw field. -/
namespace Sys2Proof

abbrev VReg := BitVec 8
abbrev SReg := BitVec 6
abbrev PReg := BitVec 3
abbrev CReg := BitVec 4
abbrev HReg := BitVec 4
abbrev QReg := BitVec 3
abbrev Lab := BitVec 16

/-- The header fields other than major and mod, with the live-mask word when S is set (R45, R60, R61). -/
structure Hdr where
  safe : Bool
  psel : PReg
  neg  : Bool
  mask : W64
deriving DecidableEq, Repr

/-- Type codes of R47. -/
inductive Ty
  | s8 | s16 | s32 | s64 | n8 | n16 | n32 | n64 | f32 | f16 | bf16 | e4m3 | e5m2 | q4 | i4 | i2
deriving DecidableEq, Repr

/-- Scope codes of R47. -/
inductive Scope
  | lane | group | block | core | cluster | die | pkg | host | fabric | pool | sys
deriving DecidableEq, Repr

/-- Width codes of R47. -/
inductive Width
  | w8 | w16 | w32 | w64 | w128 | wcap
deriving DecidableEq, Repr

/-- Integer conditions of R108. -/
inductive Cond
  | eq | ne | lt | le | gt | ge
deriving DecidableEq, Repr

/-- Float conditions of R135. -/
inductive FCond
  | eq | ne | lt | le | gt | ge | un | ord
deriving DecidableEq, Repr

/-- The rm field of R131. -/
inductive Rm
  | dyn | rn | rz | rp | rm | rs
deriving DecidableEq, Repr

/-- Operations of REDUCE and SCAN (R122). -/
inductive RedOp
  | add | min | max | and | or | xor
deriving DecidableEq, Repr

/-- Modes of SHFL (R119); a native distance is 0..63. -/
inductive ShflMode
  | idx (b : VReg) | up (n : BitVec 6) | down (n : BitVec 6) | xor (n : BitVec 6)
deriving DecidableEq, Repr

/-- Modes of VOTE (R121). -/
inductive VoteMode
  | ballot | any | all
deriving DecidableEq, Repr

/-- Types of a 4-bit block code (R128). -/
inductive CodeTy
  | int | e2m1 | pow2 | hyb
deriving DecidableEq, Repr

/-- Offset operand of a format M instruction (R50). -/
inductive MemOff
  | v (x : VReg) | s (x : SReg) | none
deriving DecidableEq, Repr

/-- Offset operand of CAPLD and CAPST (R159). -/
inductive CapOff
  | s (x : SReg) | none
deriving DecidableEq, Repr

/-- Second operand of major 0x11 (R49). -/
inductive VImm
  | imm (i : BitVec 23) | s (x : SReg)
deriving DecidableEq, Repr

/-- Count operand of BARINIT and BARARR (R99). -/
inductive BarCount
  | imm (n : BitVec 14) | s (x : SReg)
deriving DecidableEq, Repr

/-- A register of the scalar or of the vector file (GETS, VMOV). -/
inductive SVReg
  | s (x : SReg) | v (x : VReg)
deriving DecidableEq, Repr

/-- The two forms of TAGLK (R168). -/
inductive TagForm
  | s (d x : SReg) | v (d x : VReg)
deriving DecidableEq, Repr

/-- The two forms of PAGEREQ (R184). -/
inductive PageForm
  | range (c : CReg) (o l : SReg) | copy (d : SReg) (n : HReg)
deriving DecidableEq, Repr

/-- Modes of BATON (R217). -/
inductive BatonMode
  | take | pass | test (d : SReg)
deriving DecidableEq, Repr

/-- Modes of SUBN (R231). -/
inductive SubMode
  | restart | follow | final | unsub
deriving DecidableEq, Repr

/-- Modes of WCTR (R239). -/
inductive WctrMode
  | rdIn | rdOut | waitIn | waitOut | subIn | subOut
deriving DecidableEq, Repr

/-- Modes of FENCE (R188). -/
inductive FenceMode
  | acq | rel | acqrel
deriving DecidableEq, Repr

/-- Modes of ERET (R340). -/
inductive EretMode
  | resume | retire (a : SReg) | refire | emulate
deriving DecidableEq, Repr

/-- Selections of WAITCNT (R97). -/
inductive WaitSel
  | copies | stores | queue (k : QReg)
deriving DecidableEq, Repr

/-- Names an entry of the wait table: by token or by page number (R275, R276). -/
inductive WaitName
  | token (t : Nat) | vpn (n : Nat)
deriving DecidableEq, Repr

/-- Where a check word failed (R316). -/
inductive CheckSite
  | transit (flit : Nat) | cleanLine (part addr : Nat) | provisional (blk : Nat) | cacheShelf (stop part name : Nat)
  | homeShelf (part name : Nat) | dirtyLine (part addr : Nat)
  | trunkCopies (blk : Nat)
deriving DecidableEq, Repr

/-- What the reading ahead of a load queue does next: it begins an entry, or reads one lane of an entry in its buffer (R177, R256). -/
structure ReadAhead where
  queue : Nat
  pick  : Option (Nat × Nat)
deriving DecidableEq, Repr

/-- One element of an A2AV transfer to a rank, or the end of that transfer (R242). -/
structure Transfer where
  rank : Nat
  elem : Option Nat
deriving DecidableEq, Repr

/-- One element event of an operation, by its number among the elements that the operation reads and then writes, or its end; for a range entry the
number of the entry stands for the operation (R256). -/
structure OpElem where
  op   : Nat
  elem : Option Nat
deriving DecidableEq, Repr

/-- An offset in one of a function's BARs (R322). -/
structure BarOff where
  bar : Nat
  off : Nat
deriving DecidableEq, Repr

/-- A configuration record as the bytes that R386 lays out. -/
structure CfgRecord where
  bytes : List W8
deriving DecidableEq, Repr

/-- A firmware image as the bytes that R385 lays out. -/
structure FwImage where
  bytes : List W8
deriving DecidableEq, Repr

/-- Instructions and device events. -/
inductive Instr
  -- sequencer (R79)
  | nop (h : Hdr)
  | want (h : Hdr) (l : Lab)
  | wantVector (h : Hdr) (a : VReg)
  | wants (h : Hdr) (neg : Bool) (a : SReg) (l : Lab)
  | wanth (h : Hdr) (n : HReg) (l : Lab)
  | exit (h : Hdr)
  | call (h : Hdr) (f : Lab)
  | ret (h : Hdr)
  | yield (h : Hdr)
  -- sequencer system (R87)
  | spawn (h : Hdr) (d : HReg) (f e a : SReg) (c : CReg) (n m : BitVec 4)
  | launch (h : Hdr) (d : HReg) (c : CReg) (o : SReg)
  | trap (h : Hdr) (code : BitVec 14)
  | brk (h : Hdr) (code : BitVec 14)
  -- handles (R92)
  | hwait (h : Hdr) (d : SReg) (n : HReg)
  | htest (h : Hdr) (d : SReg) (n : HReg)
  | hcancel (h : Hdr) (n : HReg)
  | hmov (h : Hdr) (d n : HReg)
  | waitcnt (h : Hdr) (sel : WaitSel) (n : BitVec 8)
  -- barriers (R99)
  | barinit (h : Hdr) (b : BitVec 9) (n : BarCount)
  | bararr (h : Hdr) (d : SReg) (b : BitVec 9) (n : BarCount)
  | barwt (h : Hdr) (t : SReg)
  | bartry (h : Hdr) (d t : SReg)
  | phase (h : Hdr) (d : SReg)
  -- scalar (R107 to R112)
  | sadd (h : Hdr) (t : Ty) (d a b : SReg)
  | ssub (h : Hdr) (t : Ty) (d a b : SReg)
  | smul (h : Hdr) (t : Ty) (d a b : SReg)
  | smulh (h : Hdr) (t : Ty) (d a b : SReg)
  | sand (h : Hdr) (t : Ty) (d a b : SReg)
  | sor (h : Hdr) (t : Ty) (d a b : SReg)
  | sxor (h : Hdr) (t : Ty) (d a b : SReg)
  | sshl (h : Hdr) (t : Ty) (d a b : SReg)
  | sshr (h : Hdr) (t : Ty) (d a b : SReg)
  | ssra (h : Hdr) (t : Ty) (d a b : SReg)
  | smin (h : Hdr) (t : Ty) (d a b : SReg)
  | smax (h : Hdr) (t : Ty) (d a b : SReg)
  | ssel (h : Hdr) (t : Ty) (d a b c : SReg)
  | scmp (h : Hdr) (t : Ty) (d a b : SReg) (cond : Cond)
  | saddi (h : Hdr) (t : Ty) (d a : SReg) (i : BitVec 24)
  | sandi (h : Hdr) (t : Ty) (d a : SReg) (i : BitVec 24)
  | sori (h : Hdr) (t : Ty) (d a : SReg) (i : BitVec 24)
  | sxori (h : Hdr) (t : Ty) (d a : SReg) (i : BitVec 24)
  | sshli (h : Hdr) (t : Ty) (d a : SReg) (n : BitVec 6)
  | sshri (h : Hdr) (t : Ty) (d a : SReg) (n : BitVec 6) (arith : Bool)
  | scmpi (h : Hdr) (t : Ty) (d a : SReg) (cond : Cond) (i : BitVec 20)
  | smovi (h : Hdr) (t : Ty) (d : SReg) (k : Option (BitVec 2)) (i : BitVec 24)
  | smov (h : Hdr) (d a : SReg)
  | gets (h : Hdr) (d : SVReg) (sr : BitVec 10)
  | sets (h : Hdr) (sr : BitVec 10) (a : SReg)
  | sldk (h : Hdr) (d : SReg) (k : BitVec 9)
  -- vector integer (R113)
  | vadd (h : Hdr) (t : Ty) (d a b : VReg)
  | vsub (h : Hdr) (t : Ty) (d a b : VReg)
  | vmul (h : Hdr) (t : Ty) (d a b : VReg)
  | vmulh (h : Hdr) (t : Ty) (d a b : VReg)
  | vmad (h : Hdr) (t : Ty) (d a b c : VReg)
  | vand (h : Hdr) (t : Ty) (d a b : VReg)
  | vor (h : Hdr) (t : Ty) (d a b : VReg)
  | vxor (h : Hdr) (t : Ty) (d a b : VReg)
  | vnot (h : Hdr) (t : Ty) (d a : VReg)
  | vshl (h : Hdr) (t : Ty) (d a b : VReg)
  | vshr (h : Hdr) (t : Ty) (d a b : VReg)
  | vsra (h : Hdr) (t : Ty) (d a b : VReg)
  | vmin (h : Hdr) (t : Ty) (d a b : VReg)
  | vmax (h : Hdr) (t : Ty) (d a b : VReg)
  | vabs (h : Hdr) (t : Ty) (d a : VReg)
  | vclz (h : Hdr) (t : Ty) (d a : VReg)
  | vpopc (h : Hdr) (t : Ty) (d a : VReg)
  | vadds (h : Hdr) (t : Ty) (d a b : VReg)
  | vsubs (h : Hdr) (t : Ty) (d a b : VReg)
  -- vector integer with a scalar or immediate operand (R115)
  | vaddX (h : Hdr) (t : Ty) (d a : VReg) (b : VImm)
  | vsubX (h : Hdr) (t : Ty) (d a : VReg) (b : VImm)
  | vmulX (h : Hdr) (t : Ty) (d a : VReg) (b : VImm)
  | vmulhX (h : Hdr) (t : Ty) (d a : VReg) (b : VImm)
  | vandX (h : Hdr) (t : Ty) (d a : VReg) (b : VImm)
  | vorX (h : Hdr) (t : Ty) (d a : VReg) (b : VImm)
  | vxorX (h : Hdr) (t : Ty) (d a : VReg) (b : VImm)
  | vshlX (h : Hdr) (t : Ty) (d a : VReg) (b : VImm)
  | vshrX (h : Hdr) (t : Ty) (d a : VReg) (b : VImm)
  | vsraX (h : Hdr) (t : Ty) (d a : VReg) (b : VImm)
  | vminX (h : Hdr) (t : Ty) (d a : VReg) (b : VImm)
  | vmaxX (h : Hdr) (t : Ty) (d a : VReg) (b : VImm)
  | vaddsX (h : Hdr) (t : Ty) (d a : VReg) (b : VImm)
  | vsubsX (h : Hdr) (t : Ty) (d a : VReg) (b : VImm)
  -- compare and select (R116), predicates (R117), cross-lane (R118 to R123)
  | vcmp (h : Hdr) (t : Ty) (d : PReg) (a b : VReg) (cond : Cond)
  | vsel (h : Hdr) (t : Ty) (d a b : VReg) (c : PReg)
  | vmov (h : Hdr) (t : Ty) (d : VReg) (a : SVReg)
  | pand (h : Hdr) (d a b : PReg)
  | por (h : Hdr) (d a b : PReg)
  | pxor (h : Hdr) (d a b : PReg)
  | pnot (h : Hdr) (d a : PReg)
  | pmov (h : Hdr) (d a : PReg)
  | pset (h : Hdr) (d : PReg) (a : SReg)
  | pcnt (h : Hdr) (d : SReg) (a : PReg)
  | shfl (h : Hdr) (t : Ty) (d a : VReg) (m : ShflMode)
  | rdfl (h : Hdr) (t : Ty) (d : SReg) (a : VReg)
  | vote (h : Hdr) (d : SReg) (a : PReg) (m : VoteMode)
  | reduce (h : Hdr) (t : Ty) (d : SReg) (a : VReg) (op : RedOp)
  | scan (h : Hdr) (t : Ty) (d a : VReg) (op : RedOp) (excl : Bool)
  | sample (h : Hdr) (d : SReg) (a : VReg) (b : SReg)
  -- float (R133 to R139)
  | fadd (h : Hdr) (t : Ty) (r : Rm) (d a b : VReg)
  | fsub (h : Hdr) (t : Ty) (r : Rm) (d a b : VReg)
  | fmul (h : Hdr) (t : Ty) (r : Rm) (d a b : VReg)
  | ffma (h : Hdr) (t : Ty) (r : Rm) (d a b c : VReg)
  | fmin (h : Hdr) (t : Ty) (d a b : VReg)
  | fmax (h : Hdr) (t : Ty) (d a b : VReg)
  | fabs (h : Hdr) (t : Ty) (d a : VReg)
  | fneg (h : Hdr) (t : Ty) (d a : VReg)
  | fcmp (h : Hdr) (t : Ty) (d : PReg) (a b : VReg) (cond : FCond) (slot : Bool)
  | fclass (h : Hdr) (t : Ty) (d a : VReg)
  | frcp (h : Hdr) (t : Ty) (d a : VReg)
  | frsq (h : Hdr) (t : Ty) (d a : VReg)
  | fsqrt (h : Hdr) (t : Ty) (r : Rm) (d a : VReg)
  | fexp2 (h : Hdr) (t : Ty) (d a : VReg)
  | flog2 (h : Hdr) (t : Ty) (d a : VReg)
  | fsin (h : Hdr) (t : Ty) (d a : VReg)
  | fcos (h : Hdr) (t : Ty) (d a : VReg)
  | ftanh (h : Hdr) (t : Ty) (d a : VReg)
  | fstat (h : Hdr) (d : SReg) (mask : BitVec 6)
  | fmode (h : Hdr) (d : SReg) (mode : BitVec 3)
  -- conversions and block formats (R140 to R149)
  | cvt (h : Hdr) (src dst : Ty) (r : Rm) (d a : VReg) (ss ds : BitVec 2)
  | cvtsr (h : Hdr) (src dst : Ty) (d a : VReg) (ss ds : BitVec 2)
  | qscale (h : Hdr) (t : Ty) (d a : VReg) (bs : BitVec 2) (ct : CodeTy)
  | qpack (h : Hdr) (t : Ty) (r : Rm) (d a b : VReg) (bs : BitVec 2)
  | qunpk (h : Hdr) (t : Ty) (d a b : VReg) (bs : BitVec 2)
  | plane (h : Hdr) (t : Ty) (d a : VReg)
  -- scratchpad, tag table, capabilities (R159 to R168)
  | lds (h : Hdr) (w : Width) (d : VReg) (c : CReg) (x : MemOff) (disp : W16)
  | sts (h : Hdr) (w : Width) (d : VReg) (c : CReg) (x : MemOff) (disp : W16)
  | atomsAdd (h : Hdr) (sc : Scope) (d : VReg) (c : CReg) (x : MemOff) (disp : W16)
  | atomsAnd (h : Hdr) (sc : Scope) (d : VReg) (c : CReg) (x : MemOff) (disp : W16)
  | atomsOr (h : Hdr) (sc : Scope) (d : VReg) (c : CReg) (x : MemOff) (disp : W16)
  | atomsXor (h : Hdr) (sc : Scope) (d : VReg) (c : CReg) (x : MemOff) (disp : W16)
  | atomsMin (h : Hdr) (sc : Scope) (d : VReg) (c : CReg) (x : MemOff) (disp : W16)
  | atomsMax (h : Hdr) (sc : Scope) (d : VReg) (c : CReg) (x : MemOff) (disp : W16)
  | atomsExch (h : Hdr) (sc : Scope) (d : VReg) (c : CReg) (x : MemOff) (disp : W16)
  | atomsCas (h : Hdr) (sc : Scope) (d : VReg) (c : CReg) (x : MemOff) (disp : W16)
  | atomsFadd (h : Hdr) (sc : Scope) (d : VReg) (c : CReg) (x : MemOff) (disp : W16)
  | taglk (h : Hdr) (f : TagForm)
  | tagset (h : Hdr) (d x : SReg)
  | taginv (h : Hdr) (d : SReg)
  | capld (h : Hdr) (d c : CReg) (x : CapOff) (disp : W16)
  | capst (h : Hdr) (d c : CReg) (x : CapOff) (disp : W16)
  | capsub (h : Hdr) (d c : CReg) (x : SReg)
  | capperm (h : Hdr) (d c : CReg) (m : BitVec 8)
  | capget (h : Hdr) (d : SReg) (c : CReg) (f : BitVec 3)
  | capoff (h : Hdr) (d : SReg) (c : CReg) (x : SReg)
  -- engines (R169 to R194)
  | copy (h : Hdr) (t : Ty) (d : HReg) (g s : CReg) (a b c : SReg) (out plane : Bool)
  | gather (h : Hdr) (t : Ty) (d : HReg) (g s : CReg) (a b c : SReg) (i : VReg)
  | scatter (h : Hdr) (t : Ty) (d : HReg) (g s : CReg) (a b c : SReg) (i : VReg)
  | qld (h : Hdr) (t : Ty) (k : QReg) (c : CReg) (o s n : SReg)
  | qst (h : Hdr) (t : Ty) (k : QReg) (c : CReg) (o s n : SReg)
  | qclose (h : Hdr) (k : QReg)
  | qres (h : Hdr) (d : PReg) (k : QReg)
  | pagereq (h : Hdr) (d : HReg) (f : PageForm)
  | atomgAdd (h : Hdr) (sc : Scope) (d : HReg) (b : SReg) (c : CReg) (o : SReg) (big sg acq : Bool)
  | atomgAnd (h : Hdr) (sc : Scope) (d : HReg) (b : SReg) (c : CReg) (o : SReg) (big sg acq : Bool)
  | atomgOr (h : Hdr) (sc : Scope) (d : HReg) (b : SReg) (c : CReg) (o : SReg) (big sg acq : Bool)
  | atomgXor (h : Hdr) (sc : Scope) (d : HReg) (b : SReg) (c : CReg) (o : SReg) (big sg acq : Bool)
  | atomgMin (h : Hdr) (sc : Scope) (d : HReg) (b : SReg) (c : CReg) (o : SReg) (big sg acq : Bool)
  | atomgMax (h : Hdr) (sc : Scope) (d : HReg) (b : SReg) (c : CReg) (o : SReg) (big sg acq : Bool)
  | atomgExch (h : Hdr) (sc : Scope) (d : HReg) (b : SReg) (c : CReg) (o : SReg) (big sg acq : Bool)
  | atomgCas (h : Hdr) (sc : Scope) (d : HReg) (b : SReg) (c : CReg) (o sw : SReg) (big sg acq : Bool)
  | atomgFadd (h : Hdr) (sc : Scope) (d : HReg) (b : SReg) (c : CReg) (o : SReg) (acq : Bool)
  | fence (h : Hdr) (sc : Scope) (m : FenceMode)
  | commit (h : Hdr) (sc : Scope)
  | enq (h : Hdr) (d : HReg) (a b : SReg) (n : BitVec 3)
  | deq (h : Hdr) (a b : SReg)
  -- matrix engine (R199 to R217)
  | mma (h : Hdr) (t : Ty) (d : HReg) (v : BitVec 3) (c : CReg) (s w o : SReg) (bsa bsb : BitVec 2)
  | mtbl (h : Hdr) (a : VReg) (q : SReg)
  | mtblsw (h : Hdr)
  | baton (h : Hdr) (m : BatonMode)
  -- names, windows, collectives, routing engine (R219 to R245)
  | fetchn (h : Hdr) (d : HReg) (c : CReg) (n o l : SReg)
  | pubn (h : Hdr) (d : HReg) (c : CReg) (n o l : SReg)
  | sealn (h : Hdr) (d : HReg) (c : CReg) (n o l : SReg)
  | stopref (h : Hdr) (d : HReg) (n : SReg)
  | subn (h : Hdr) (d : HReg) (n : SReg) (st : BitVec 3) (m : SubMode)
  | put (h : Hdr) (t : Ty) (d : HReg) (c : CReg) (o w tg : SReg)
  | wctr (h : Hdr) (d w v : SReg) (m : WctrMode)
  | ared (h : Hdr) (d : HReg) (c : CReg) (w s : SReg) (ct : CodeTy)
  | a2av (h : Hdr) (t : Ty) (d : HReg) (ca cb : CReg) (w p q : SReg)
  | xchg (h : Hdr) (t : Ty) (v : VReg) (p : SReg)
  | sortk (h : Hdr) (d : HReg) (c : CReg) (k cn n : SReg)
  -- system and debug (R338, R358)
  | trace (h : Hdr) (a : SReg) (tag : BitVec 14)
  | rdctr (h : Hdr) (d : SReg) (n : BitVec 8) (seat : Option (BitVec 4))
  | icinv (h : Hdr) (sc : Scope) (d : HReg)
  | tlbinv (h : Hdr) (sc : Scope) (d : HReg) (a : Option SReg)
  | prd (h : Hdr) (d a : SReg) (seat : BitVec 4)
  | pwr (h : Hdr) (d a : SReg) (seat : BitVec 4)
  | eret (h : Hdr) (m : EretMode)
  | haltb (h : Hdr) (d : HReg) (k : Bool)
  -- device events: sequencer and asynchronous completions
  | endBlock
  | idleWake (b g : Nat)
  | brokenChain
  | asyncComplete (op : Nat)
  | copyComplete (op : Nat) (elem : Option Nat)
  | rangeEntryRelease (x : OpElem)
  | loadQueueReadahead (b g : Nat) (k : ReadAhead)
  | storeQueueWrite (op : Nat) (lane : Option Nat)
  | atomgApply (op : Nat)
  | mmaComplete (x : OpElem)
  | commitTakeEffect (b : Nat)
  | finalCommit (b : Nat)
  | xchgSwap (b g : Nat)
  | enqAccept (op : Nat)
  -- scheduler and command processor
  | blockPlacement (part : Nat)
  | idleBlockPreempt (part : Nat)
  | stageRetire (l n : Nat)
  | affinityReassign (l : Nat)
  | graphNodeStart (g n : Nat)
  | loopIteration (g n : Nat)
  | graphNodeComplete (g n : Nat)
  | settleEvent (l pset : Nat)
  -- names and the mesh
  | publishApply (op : Nat)
  | stoprefApply (op : Nat)
  | subnRecord (op : Nat)
  | interestArrival (i : Nat)
  | tileArrival (i : Nat)
  | waiterExpiry (stop name dir : Nat)
  | fetchnLifetimeExpiry (op : Nat)
  | fetchnDelivery (x : OpElem)
  | removalNotice (part stop tid : Nat)
  | putLanding (op : Nat) (elem : Option Nat)
  | a2avTransferLanding (op : Nat) (j : Transfer)
  | collectiveComplete (x : OpElem)
  | sortkComplete (x : OpElem)
  -- residency, lumber room, links, rates
  | pageResident (part token : Nat)
  | eviction (page : Nat)
  | lumberSpill (part : Nat)
  | checkWordFailure (site : CheckSite)
  | flitRetry (link plane : Nat)
  | linkRetrain (link : Nat)
  | echoedMark (core part cls : Nat)
  | rateQuietExpiry (core part cls : Nat)
  -- traps, pre-emption, recovery
  | trapDelivery (b : Nat)
  | handlerRunStart (core : Nat)
  | sliceEnd (fn : Nat)
  | preemptStop (b g : Nat)
  | quiesce (b : Nat)
  | savedHandleUpdate (op : Nat)
  | restore (b : Nat)
  | hangWatchdog (b g : Nat)
  | hardwareErrorRefire (b : Nat)
  | handlerErrorRestart (core : Nat)
  -- debug and trace
  | traceSample (part : Nat)
  | traceDrain (cluster : Nat)
  | clusterPowerGate (cluster : Nat)
  | holdSlotWrite (part slot : Nat) (v : W64)
  | traceAreaSet (part : Nat) (len : Bool) (v : W64)
  | blockRingSet (part : Nat) (v : W64)
  -- mailbox commands
  | status (fn : Nat)
  | fwload (fn : Nat) (img : FwImage)
  | cfgwrite (fn : Nat) (rec : CfgRecord)
  | attest (fn : Nat) (nonce : List W64)
  | partset (fn part : Nat) (regs : List (Nat × W64))
  | bindfn (fn target part : Nat)
  | handler (fn part addr : Nat) (args : List W64) (caps : List (BitVec 128))
  | evring (fn addr len : Nat)
  | resetfn (fn target : Nat)
  | loadimg (fn addr : Nat)
  | graphstart (fn addr : Nat)
  | replay (fn : Nat) (w : WaitName)
  | fltcancel (fn : Nat) (w : WaitName)
  | winreg (fn wid base length nranks myrank : Nat)
  | rankmap (fn i : Nat) (v : W64)
  | bar2base (fn base : Nat)
  | syncsum (fn cursor : Nat)
  -- host accesses, power and function migration
  | doorbellWhileBusy (fn : Nat)
  | mbstatDoneClear (fn : Nat)
  | hostWrite (fn : Nat) (off : BarOff) (bytes : List W8)
  | hostRead (fn : Nat) (off : BarOff) (n : Nat)
  | powerOnReset
  | powerCap (on : Bool)
  | thermalSlowdown (on : Bool)
  | thermalStop
  | interestDropped (i : Nat)
  | functionMigrationPause (fn : Nat)
  | functionMigrationResume (fn : Nat)
deriving DecidableEq, Repr

end Sys2Proof
end

