-- ==== Sys2Proof/WellFormed.lean ====
section
/-! DEFINITION. Well-formed encoded instructions: the checks of step 3 of R54 that the types of the syntax leave open. A device event
has no encoding and is not a well-formed instruction. -/
namespace Sys2Proof

/-- Element width in bits of a type code (R103, R124, R126 to R128). -/
def tyWidth : Ty → Nat
  | .s8 | .n8 | .e4m3 | .e5m2 => 8
  | .s16 | .n16 | .f16 | .bf16 => 16
  | .s32 | .n32 | .f32 => 32
  | .s64 | .n64 => 64
  | .q4 | .i4 => 4
  | .i2 => 2

def tySigned : Ty → Bool
  | .s8 | .s16 | .s32 | .s64 => true
  | _ => false

/-- The eight integer codes (R103). -/
def tyInt : Ty → Bool
  | .s8 | .s16 | .s32 | .s64 | .n8 | .n16 | .n32 | .n64 => true
  | _ => false

/-- Codes of R133: .f32, .f16, .bf16. -/
def tyFloat : Ty → Bool
  | .f32 | .f16 | .bf16 => true
  | _ => false

/-- Codes of R138: .f32 and .f16. -/
def tySpecial : Ty → Bool
  | .f32 | .f16 => true
  | _ => false

/-- Codes that VSEL, VMOV, SHFL and RDFL accept (R116, R119, R120). -/
def tySel : Ty → Bool
  | .s32 | .n32 | .f32 | .s64 | .n64 => true
  | _ => false

/-- Element types of the copy engine, PUT and A2AV (R169, R237). -/
def tyUns : Ty → Bool
  | .n8 | .n16 | .n32 | .n64 => true
  | _ => false

/-- Matrix formats (R195). -/
def tyMat : Ty → Bool
  | .e4m3 | .e5m2 | .bf16 | .q4 | .i4 | .i2 => true
  | _ => false

/-- Element types of queue streams (R175). -/
def tyQueue : Ty → Bool
  | .s8 | .s16 | .s32 | .n8 | .n16 | .n32 | .f32 | .f16 | .bf16 | .e4m3 | .e5m2 => true
  | _ => false

/-- Block-format float types (R146). -/
def tyBlk : Ty → Bool
  | .f32 | .bf16 => true
  | _ => false

def tyBig (t : Ty) : Bool := tyWidth t == 64

/-- A vector operand under type `t`: even when it names a pair (R28, R53). -/
def pairOk (t : Ty) (r : VReg) : Bool := !tyBig t || !r.getLsbD 0

def Hdr.ok (h : Hdr) : Bool :=
  !(h.psel == 0 && h.neg) && (if h.safe then h.mask >>> 56 == 0 else h.mask == 0)

def scopeCode : Scope → Nat
  | .lane => 0 | .group => 1 | .block => 2 | .core => 3 | .cluster => 4 | .die => 5
  | .pkg => 6 | .host => 7 | .fabric => 8 | .pool => 9 | .sys => 10

def labOk (l : Lab) : Bool := l != 0xFFFE

/-- A slot under type `t` (R140). -/
def slotOk (t : Ty) (s : BitVec 2) : Bool :=
  if tyWidth t < 32 then decide (s.toNat < 32 / tyWidth t) else s == 0

def cvtTy : Ty → Bool
  | .q4 | .i4 | .i2 => false
  | _ => true

def mult (k : Nat) (r : VReg) : Bool := r.toNat % k == 0

/-- Source registers of a block of 32 elements (R146). -/
def blkRegs : Ty → Nat
  | .f32 => 32
  | _ => 16

def cvtOk (src dst : Ty) (d a : VReg) (ss ds : BitVec 2) : Bool :=
  cvtTy src && cvtTy dst && src != dst && slotOk src ss && slotOk dst ds && pairOk src a && pairOk dst d

def ldsOk (w : Width) (d : VReg) : Bool :=
  match w with
  | .w64 => mult 2 d
  | .w128 => mult 4 d
  | .wcap => decide (d.toNat < 8)
  | _ => true

def stsOk (w : Width) (d : VReg) : Bool :=
  match w with
  | .wcap => false
  | w => ldsOk w d

def atomsScope : Scope → Bool
  | .group | .block => true
  | _ => false

def redOk (t : Ty) (op : RedOp) : Bool :=
  tyInt t || (t == .f32 && (op == .add || op == .min || op == .max))

def barOk : BarCount → Bool
  | .imm n => n != 0
  | .s _ => true

def invScope (sc : Scope) : Bool := decide (3 ≤ scopeCode sc) && decide (scopeCode sc ≤ 6)

def fenceOk (sc : Scope) : FenceMode → Bool
  | .acq => true
  | _ => decide (scopeCode sc ≤ 2)

def tagOk : TagForm → Bool
  | .s _ _ => true
  | .v _ x => mult 2 x

def shflOk (t : Ty) : ShflMode → Bool
  | .idx b => pairOk t b
  | _ => true

def vmovOk (t : Ty) : SVReg → Bool
  | .v a => pairOk t a
  | .s _ => true

def vec3Ok (t : Ty) (d a b : VReg) : Bool := tyInt t && pairOk t d && pairOk t a && pairOk t b
def vec2Ok (t : Ty) (d a : VReg) : Bool := tyInt t && pairOk t d && pairOk t a
def atomgOk (sc : Scope) : Bool := decide (2 ≤ scopeCode sc)

/-- The operand checks of step 3 of R54, the header apart. -/
def operandsOk : Instr → Bool
  | .nop _ | .exit _ | .ret _ | .yield _ | .wantVector _ _ => true
  | .want _ l => labOk l
  | .wants _ _ _ l => labOk l
  | .wanth _ _ l => labOk l
  | .call _ f => labOk f
  | .spawn _ _ _ _ a c n m =>
      decide (a.toNat + n.toNat ≤ 64) && decide (c.toNat + m.toNat ≤ 16) && decide (m.toNat ≤ 8)
        && (n != 0 || a == 0) && (m != 0 || c == 0)
  | .launch .. | .trap .. | .brk .. | .hwait .. | .htest .. | .hcancel .. | .hmov .. | .waitcnt .. => true
  | .barinit _ _ n => barOk n
  | .bararr _ _ _ n => barOk n
  | .barwt .. | .bartry .. | .phase .. => true
  | .sadd _ t _ _ _ | .ssub _ t _ _ _ | .smul _ t _ _ _ | .smulh _ t _ _ _ | .sand _ t _ _ _ | .sor _ t _ _ _
  | .sxor _ t _ _ _ | .sshl _ t _ _ _ | .sshr _ t _ _ _ | .ssra _ t _ _ _ | .smin _ t _ _ _ | .smax _ t _ _ _ => tyInt t
  | .ssel _ t _ _ _ _ => tyInt t
  | .scmp _ t _ _ _ _ => tyInt t
  | .saddi _ t _ _ _ | .sandi _ t _ _ _ | .sori _ t _ _ _ | .sxori _ t _ _ _ => tyInt t
  | .sshli _ t _ _ _ => tyInt t
  | .sshri _ t _ _ _ _ => tyInt t
  | .scmpi _ t _ _ _ _ => tyInt t
  | .smovi _ t _ k i =>
      match k with
      | none => tyInt t
      | some _ => t == .n64 && i.extractLsb' 16 8 == 0
  | .smov .. | .gets .. | .sets .. | .sldk .. => true
  | .vadd _ t d a b | .vsub _ t d a b | .vmul _ t d a b | .vmulh _ t d a b | .vand _ t d a b | .vor _ t d a b
  | .vxor _ t d a b | .vshl _ t d a b | .vshr _ t d a b | .vsra _ t d a b | .vmin _ t d a b | .vmax _ t d a b
  | .vadds _ t d a b | .vsubs _ t d a b => vec3Ok t d a b
  | .vmad _ t d a b c => vec3Ok t d a b && pairOk t c
  | .vnot _ t d a | .vclz _ t d a | .vpopc _ t d a => vec2Ok t d a
  | .vabs _ t d a => vec2Ok t d a && tySigned t
  | .vaddX _ t d a _ | .vsubX _ t d a _ | .vmulX _ t d a _ | .vmulhX _ t d a _ | .vandX _ t d a _ | .vorX _ t d a _
  | .vxorX _ t d a _ | .vshlX _ t d a _ | .vshrX _ t d a _ | .vsraX _ t d a _ | .vminX _ t d a _ | .vmaxX _ t d a _
  | .vaddsX _ t d a _ | .vsubsX _ t d a _ => vec2Ok t d a
  | .vcmp _ t _ a b _ => tyInt t && pairOk t a && pairOk t b
  | .vsel _ t d a b _ => tySel t && pairOk t d && pairOk t a && pairOk t b
  | .vmov _ t d a => tySel t && pairOk t d && vmovOk t a
  | .pand .. | .por .. | .pxor .. | .pnot .. | .pmov .. | .pset .. | .pcnt .. => true
  | .shfl _ t d a m => tySel t && pairOk t d && pairOk t a && shflOk t m
  | .rdfl _ t _ a => tySel t && pairOk t a
  | .vote .. => true
  | .reduce _ t _ a op => redOk t op && pairOk t a
  | .scan _ t d a op _ => redOk t op && pairOk t d && pairOk t a
  | .sample .. => true
  | .fadd _ t _ _ _ _ | .fsub _ t _ _ _ _ | .fmul _ t _ _ _ _ => tyFloat t
  | .ffma _ t _ _ _ _ _ => tyFloat t
  | .fmin _ t _ _ _ | .fmax _ t _ _ _ => tyFloat t
  | .fabs _ t _ _ | .fneg _ t _ _ => tyFloat t
  | .fcmp _ t _ _ _ _ s => tyFloat t && (t != .f32 || !s)
  | .fclass _ t _ _ => tyFloat t
  | .frcp _ t _ _ | .frsq _ t _ _ | .fexp2 _ t _ _ | .flog2 _ t _ _ | .fsin _ t _ _ | .fcos _ t _ _
  | .ftanh _ t _ _ => tySpecial t
  | .fsqrt _ t _ _ _ => tySpecial t
  | .fstat .. => true
  | .fmode _ _ m => decide (m.toNat ≤ 4)
  | .cvt _ src dst _ d a ss ds => cvtOk src dst d a ss ds
  | .cvtsr _ src dst d a ss ds => cvtOk src dst d a ss ds
  | .qscale _ t _ a _ _ => tyBlk t && mult 8 a && decide (a.toNat + blkRegs t ≤ 256)
  | .qpack _ t _ d a _ _ =>
      tyBlk t && mult 4 d && mult 8 a && decide (d.toNat + 4 ≤ 256) && decide (a.toNat + blkRegs t ≤ 256)
  | .qunpk _ t d a _ _ =>
      tyBlk t && mult 8 d && mult 4 a && decide (a.toNat + 4 ≤ 256) && decide (d.toNat + blkRegs t ≤ 256)
  | .plane _ t d a =>
      tyMat t && mult (tyWidth t) d && mult (tyWidth t) a
        && decide (d.toNat + tyWidth t ≤ 256) && decide (a.toNat + tyWidth t ≤ 256)
  | .lds _ w d _ _ _ => ldsOk w d
  | .sts _ w d _ _ _ => stsOk w d
  | .atomsAdd _ sc _ _ _ _ | .atomsAnd _ sc _ _ _ _ | .atomsOr _ sc _ _ _ _ | .atomsXor _ sc _ _ _ _
  | .atomsMin _ sc _ _ _ _ | .atomsMax _ sc _ _ _ _ | .atomsExch _ sc _ _ _ _ | .atomsFadd _ sc _ _ _ _ => atomsScope sc
  | .atomsCas _ sc d _ _ _ => atomsScope sc && mult 2 d
  | .taglk _ f => tagOk f
  | .tagset .. | .taginv .. | .capld .. | .capst .. => true
  | .capsub _ _ _ x => decide (x.toNat ≤ 62)
  | .capperm .. => true
  | .capget _ _ _ f => decide (f.toNat ≤ 5)
  | .capoff .. => true
  | .copy _ t _ _ _ _ _ _ out pl => if pl then tyMat t && !out else tyUns t
  | .gather _ t _ _ _ _ _ _ _ | .scatter _ t _ _ _ _ _ _ _ => tyUns t
  | .qld _ t _ _ _ _ _ | .qst _ t _ _ _ _ _ => tyQueue t
  | .qclose .. | .qres .. | .pagereq .. => true
  | .atomgAdd _ sc _ _ _ _ _ _ _ | .atomgAnd _ sc _ _ _ _ _ _ _ | .atomgOr _ sc _ _ _ _ _ _ _ | .atomgXor _ sc _ _ _ _ _ _ _
  | .atomgMin _ sc _ _ _ _ _ _ _ | .atomgMax _ sc _ _ _ _ _ _ _ | .atomgExch _ sc _ _ _ _ _ _ _ => atomgOk sc
  | .atomgCas _ sc _ _ _ _ _ _ _ _ => atomgOk sc
  | .atomgFadd _ sc _ _ _ _ _ => atomgOk sc
  | .fence _ sc m => fenceOk sc m
  | .commit _ sc => atomgOk sc
  | .enq .. | .deq .. => true
  | .mma _ t _ v _ _ _ o _ _ => tyMat t && v != 7 && o != 63
  | .mtbl .. | .mtblsw .. | .baton .. | .fetchn .. | .pubn .. | .sealn .. | .stopref .. | .subn .. => true
  | .put _ t _ _ _ _ tg => tyUns t && decide (tg.toNat ≤ 62)
  | .wctr .. => true
  | .ared _ _ _ _ s _ => decide (s.toNat ≤ 61)
  | .a2av _ t _ _ _ _ _ q => tyUns t && decide (q.toNat ≤ 62)
  | .xchg _ t _ _ => t == .n32 || t == .n64
  | .sortk _ _ _ k c _ => decide (k.toNat ≤ 62) && decide (c.toNat ≤ 62)
  | .trace .. | .rdctr .. => true
  | .icinv _ sc _ => invScope sc
  | .tlbinv _ sc _ _ => invScope sc
  | .prd .. | .pwr .. | .eret .. | .haltb .. => true
  | _ => false

/-- The header of an encoded instruction; a device event has none. -/
def Instr.hdr? : Instr → Option Hdr
  | .nop h | .want h _ | .wantVector h _ | .wants h _ _ _ | .wanth h _ _ | .exit h | .call h _ | .ret h | .yield h
  | .spawn h _ _ _ _ _ _ _ | .launch h _ _ _ | .trap h _ | .brk h _ | .hwait h _ _ | .htest h _ _ | .hcancel h _
  | .hmov h _ _ | .waitcnt h _ _ | .barinit h _ _ | .bararr h _ _ _ | .barwt h _ | .bartry h _ _ | .phase h _
  | .sadd h _ _ _ _ | .ssub h _ _ _ _ | .smul h _ _ _ _ | .smulh h _ _ _ _ | .sand h _ _ _ _ | .sor h _ _ _ _
  | .sxor h _ _ _ _ | .sshl h _ _ _ _ | .sshr h _ _ _ _ | .ssra h _ _ _ _ | .smin h _ _ _ _ | .smax h _ _ _ _
  | .ssel h _ _ _ _ _ | .scmp h _ _ _ _ _ | .saddi h _ _ _ _ | .sandi h _ _ _ _ | .sori h _ _ _ _ | .sxori h _ _ _ _
  | .sshli h _ _ _ _ | .sshri h _ _ _ _ _ | .scmpi h _ _ _ _ _ | .smovi h _ _ _ _ | .smov h _ _ | .gets h _ _
  | .sets h _ _ | .sldk h _ _
  | .vadd h _ _ _ _ | .vsub h _ _ _ _ | .vmul h _ _ _ _ | .vmulh h _ _ _ _ | .vmad h _ _ _ _ _ | .vand h _ _ _ _
  | .vor h _ _ _ _ | .vxor h _ _ _ _ | .vnot h _ _ _ | .vshl h _ _ _ _ | .vshr h _ _ _ _ | .vsra h _ _ _ _
  | .vmin h _ _ _ _ | .vmax h _ _ _ _ | .vabs h _ _ _ | .vclz h _ _ _ | .vpopc h _ _ _ | .vadds h _ _ _ _
  | .vsubs h _ _ _ _ | .vaddX h _ _ _ _ | .vsubX h _ _ _ _ | .vmulX h _ _ _ _ | .vmulhX h _ _ _ _ | .vandX h _ _ _ _
  | .vorX h _ _ _ _ | .vxorX h _ _ _ _ | .vshlX h _ _ _ _ | .vshrX h _ _ _ _ | .vsraX h _ _ _ _ | .vminX h _ _ _ _
  | .vmaxX h _ _ _ _ | .vaddsX h _ _ _ _ | .vsubsX h _ _ _ _ | .vcmp h _ _ _ _ _ | .vsel h _ _ _ _ _ | .vmov h _ _ _
  | .pand h _ _ _ | .por h _ _ _ | .pxor h _ _ _ | .pnot h _ _ | .pmov h _ _ | .pset h _ _ | .pcnt h _ _
  | .shfl h _ _ _ _ | .rdfl h _ _ _ | .vote h _ _ _ | .reduce h _ _ _ _ | .scan h _ _ _ _ _ | .sample h _ _ _
  | .fadd h _ _ _ _ _ | .fsub h _ _ _ _ _ | .fmul h _ _ _ _ _ | .ffma h _ _ _ _ _ _ | .fmin h _ _ _ _ | .fmax h _ _ _ _
  | .fabs h _ _ _ | .fneg h _ _ _ | .fcmp h _ _ _ _ _ _ | .fclass h _ _ _ | .frcp h _ _ _ | .frsq h _ _ _
  | .fsqrt h _ _ _ _ | .fexp2 h _ _ _ | .flog2 h _ _ _ | .fsin h _ _ _ | .fcos h _ _ _ | .ftanh h _ _ _
  | .fstat h _ _ | .fmode h _ _ | .cvt h _ _ _ _ _ _ _ | .cvtsr h _ _ _ _ _ _ | .qscale h _ _ _ _ _
  | .qpack h _ _ _ _ _ _ | .qunpk h _ _ _ _ _ | .plane h _ _ _ | .lds h _ _ _ _ _ | .sts h _ _ _ _ _
  | .atomsAdd h _ _ _ _ _ | .atomsAnd h _ _ _ _ _ | .atomsOr h _ _ _ _ _ | .atomsXor h _ _ _ _ _ | .atomsMin h _ _ _ _ _
  | .atomsMax h _ _ _ _ _ | .atomsExch h _ _ _ _ _ | .atomsCas h _ _ _ _ _ | .atomsFadd h _ _ _ _ _ | .taglk h _
  | .tagset h _ _ | .taginv h _ | .capld h _ _ _ _ | .capst h _ _ _ _ | .capsub h _ _ _ | .capperm h _ _ _ | .capget h _ _ _
  | .capoff h _ _ _ | .copy h _ _ _ _ _ _ _ _ _ | .gather h _ _ _ _ _ _ _ _ | .scatter h _ _ _ _ _ _ _ _
  | .qld h _ _ _ _ _ _ | .qst h _ _ _ _ _ _ | .qclose h _ | .qres h _ _ | .pagereq h _ _
  | .atomgAdd h _ _ _ _ _ _ _ _ | .atomgAnd h _ _ _ _ _ _ _ _ | .atomgOr h _ _ _ _ _ _ _ _ | .atomgXor h _ _ _ _ _ _ _ _
  | .atomgMin h _ _ _ _ _ _ _ _ | .atomgMax h _ _ _ _ _ _ _ _ | .atomgExch h _ _ _ _ _ _ _ _ | .atomgCas h _ _ _ _ _ _ _ _ _
  | .atomgFadd h _ _ _ _ _ _ | .fence h _ _ | .commit h _ | .enq h _ _ _ _ | .deq h _ _ | .mma h _ _ _ _ _ _ _ _ _
  | .mtbl h _ _ | .mtblsw h | .baton h _ | .fetchn h _ _ _ _ _ | .pubn h _ _ _ _ _ | .sealn h _ _ _ _ _ | .stopref h _ _
  | .subn h _ _ _ _ | .put h _ _ _ _ _ _ | .wctr h _ _ _ _ | .ared h _ _ _ _ _ | .a2av h _ _ _ _ _ _ _ | .xchg h _ _ _
  | .sortk h _ _ _ _ _ | .trace h _ _ | .rdctr h _ _ _ | .icinv h _ _ | .tlbinv h _ _ _ | .prd h _ _ _ | .pwr h _ _ _
  | .eret h _ | .haltb h _ _ => some h
  | _ => none

/-- Well-formed: an encoded instruction that passes step 3 of R54. -/
def WellFormed (i : Instr) : Bool :=
  match i.hdr? with
  | some h => h.ok && operandsOk i
  | none => false

end Sys2Proof
end

