-- ==== Sys2Proof/Machine/Arith.lean ====
section
/-! DEFINITION. Integer arithmetic under a type: Val, Uns, Sgn, Fit, Sat of R103 and the operations of R107, R108, R113 and R122. -/
namespace Sys2Proof.Machine
open Sys2Proof

def uns (t : Ty) (x : W64) : Int := ((x.setWidth (tyWidth t)).toNat : Int)
def sgn (t : Ty) (x : W64) : Int := (x.setWidth (tyWidth t)).toInt
def val (t : Ty) (x : W64) : Int := if tySigned t then sgn t x else uns t x

/-- Fit of R103, extended to 64 bits (its low 32 bits are the 32-bit extension). -/
def fit (t : Ty) (y : Int) : W64 :=
  if tySigned t then (BitVec.ofInt (tyWidth t) y).signExtend 64 else (BitVec.ofInt (tyWidth t) y).setWidth 64

def loOf (t : Ty) : Int := if tySigned t then -(2 ^ (tyWidth t - 1)) else 0
def hiOf (t : Ty) : Int := if tySigned t then 2 ^ (tyWidth t - 1) - 1 else 2 ^ tyWidth t - 1
def clampTo (t : Ty) (y : Int) : Int := min (max y (loOf t)) (hiOf t)
def sat (t : Ty) (y : Int) : W64 := fit t (clampTo t y)

/-- A shift amount: bits 7..0, unsigned (R107). -/
def shAmt (x : W64) : Nat := (x.setWidth 8).toNat

def opAdd (t : Ty) (a b : W64) : W64 := fit t (val t a + val t b)
def opSub (t : Ty) (a b : W64) : W64 := fit t (val t a - val t b)
def opMul (t : Ty) (a b : W64) : W64 := fit t (val t a * val t b)
def opMulh (t : Ty) (a b : W64) : W64 := fit t (val t a * val t b / 2 ^ tyWidth t)
def opAnd (t : Ty) (a b : W64) : W64 := fit t ((a &&& b).toNat : Int)
def opOr (t : Ty) (a b : W64) : W64 := fit t ((a ||| b).toNat : Int)
def opXor (t : Ty) (a b : W64) : W64 := fit t ((a ^^^ b).toNat : Int)
def opShlN (t : Ty) (a : W64) (n : Nat) : W64 := if tyWidth t ≤ n then 0 else fit t (uns t a * 2 ^ n)
def opShrN (t : Ty) (a : W64) (n : Nat) : W64 := if tyWidth t ≤ n then 0 else fit t (uns t a / 2 ^ n)
def opSraN (t : Ty) (a : W64) (n : Nat) : W64 := fit t (sgn t a / 2 ^ (min n (tyWidth t - 1)))
def opShl (t : Ty) (a b : W64) : W64 := opShlN t a (shAmt b)
def opShr (t : Ty) (a b : W64) : W64 := opShrN t a (shAmt b)
def opSra (t : Ty) (a b : W64) : W64 := opSraN t a (shAmt b)
def opMin (t : Ty) (a b : W64) : W64 := fit t (min (val t a) (val t b))
def opMax (t : Ty) (a b : W64) : W64 := fit t (max (val t a) (val t b))
def opNot (t : Ty) (a : W64) : W64 := fit t ((~~~a).toNat : Int)
def opAbs (t : Ty) (a : W64) : W64 := fit t (((val t a).natAbs : Nat) : Int)
def opMad (t : Ty) (a b c : W64) : W64 := fit t (val t a * val t b + val t c)

/-- Ones among the low `n` bits. -/
def popBits (x : W64) : Nat → Nat
  | 0 => 0
  | n + 1 => (if x.getLsbD n then 1 else 0) + popBits x n

/-- Leading zeros among the low `n` bits. -/
def clzBits (x : W64) : Nat → Nat
  | 0 => 0
  | n + 1 => if x.getLsbD n then 0 else 1 + clzBits x n

def opClz (t : Ty) (a : W64) : W64 := fit t (clzBits a (tyWidth t) : Int)
def opPopc (t : Ty) (a : W64) : W64 := fit t (popBits a (tyWidth t) : Int)
def opAdds (t : Ty) (a b : W64) : W64 := sat t (val t a + val t b)
def opSubs (t : Ty) (a b : W64) : W64 := sat t (val t a - val t b)

/-- A condition of R108 on two numbers. -/
def condHolds (c : Cond) (a b : Int) : Bool :=
  match c with
  | .eq => a == b
  | .ne => a != b
  | .lt => decide (a < b)
  | .le => decide (a ≤ b)
  | .gt => decide (b < a)
  | .ge => decide (b ≤ a)

def opCmp (t : Ty) (c : Cond) (a b : W64) : Bool := condHolds c (val t a) (val t b)

/-- The identity of a reduction (R122), on integer types. -/
def redIdent (t : Ty) : RedOp → W64
  | .add | .or | .xor => 0
  | .min => fit t (hiOf t)
  | .max => fit t (loOf t)
  | .and => fit t (2 ^ tyWidth t - 1)

def redInt (t : Ty) (o : RedOp) (a b : W64) : W64 :=
  match o with
  | .add => opAdd t a b
  | .min => opMin t a b
  | .max => opMax t a b
  | .and => opAnd t a b
  | .or => opOr t a b
  | .xor => opXor t a b

end Sys2Proof.Machine
end

