-- ==== Sys2Proof/Machine/Flags.lean ====
section
/-! DEFINITION. Flags (R35, R114, R132): the flag bits and the integer saturation flag. -/
namespace Sys2Proof.Machine
open Sys2Proof

abbrev Flg := BitVec 6
def fNV : Flg := 1
def fDZ : Flg := 2
def fOF : Flg := 4
def fUF : Flg := 8
def fNX : Flg := 16
def fSA : Flg := 32

/-- SA when the clamp of Sat changes an exact value (R114). -/
def satFlag (t : Ty) (y : Int) : Flg := if clampTo t y = y then 0 else fSA

/-- Flags are the OR over the lanes of EXEC (R35). -/
def orFlags (m : Lanes) (f : Nat → Flg) : Flg := (laneList m).foldl (fun a l => a ||| f l) 0

end Sys2Proof.Machine
end

