-- ==== Sys2Proof/Config.lean ====
section
/-! DEFINITION. What an implementation fixes and the manual does not state: opaque constants without a body. Nothing in Lean can
evaluate one of them, so every claim holds whatever they are. Each is named in the assumption log. -/
namespace Sys2Proof.Config

/-- The n-th free 64-bit value: whatever the manual leaves open at that moment (log 3). -/
opaque freeWord : Nat → BitVec 64

/-- FRCP, FRSQ, FEXP2, FLOG2, FSIN, FCOS and FTANH on ordinary inputs: fixed functions of the input bits that the manual bounds and does
not state (R138; log 4). A value outside the bound is not used. The first argument is the minor code, the second tells FP16 from FP32. -/
opaque special : Nat → Bool → BitVec 32 → BitVec 32

/-- SHA-384 of a string of bytes (R385 to R392; log 5). -/
opaque sha384 : List (BitVec 8) → BitVec 384

/-- The boot ROM's bytes, which M0 measures (R388; log 5). -/
opaque bootRom : List (BitVec 8)

/-- The root keys in the boot ROM (R386; log 5). -/
opaque rootKeys : List (BitVec 8)

/-- Whether a pair of signatures verifies over a digest under a pair of public keys (R385, R386; log 5). -/
opaque verify : List (BitVec 8) → BitVec 384 → List (BitVec 8) → Bool

/-- Whether the identity key unlocks on this part (R387; log 5). -/
opaque keyUnlocks : Nat → Bool

/-- The two signatures made by the identity keys over a digest (R392; log 5). -/
opaque sign : Nat → BitVec 384 → List (BitVec 8)

/-- The certificate of the identity keys (R387; log 5). -/
opaque certificate : Nat → List (BitVec 8)

/-- The object that the payload of FWLOAD or CFGWRITE supplies: the window of 3,840 bytes does not hold a record (R386, R389; log 15). -/
opaque payloadObject : List (BitVec 8) → List (BitVec 8)

/-- Bytes that an entry of the lumber room for a 128-byte line takes beyond the line, its owner and its mask (R282 gives the entry's parts
and the room's size, not the entry's; log 6). -/
opaque lumberExtra : BitVec 16

/-- Which entry a full micro-TLB or TLB gives up for a new one (R271 states no order; log 7). -/
opaque tlbVictim : Nat → Nat

/-- Whether an access uses a cached translation or walks again, where both are allowed (R271; log 7). -/
opaque tlbUsesOld : Nat → Bool

end Sys2Proof.Config
end

