-- ==== Sys2Proof/Decode.lean ====
section
/-! DEFINITION. Decoding a word (and its live-mask word) to an instruction, total and refusing by the step of R54, and the encoder
written from the same encoding tables (R45 to R53, R63). -/
namespace Sys2Proof

/-- Why a word is no instruction: the step of R54 that fails. -/
inductive Reject
  | major | minor | field
deriving DecidableEq, Repr

/-- The step number of R54 (FCAUSE detail, R336). -/
def rejectStep : Reject → Nat
  | .major => 1
  | .minor => 2
  | .field => 3

/-! ### Code tables of R47 and of the instruction entries -/

def tyCode : Ty → BitVec 5
  | .s8 => 0 | .s16 => 1 | .s32 => 2 | .s64 => 3 | .n8 => 4 | .n16 => 5 | .n32 => 6 | .n64 => 7
  | .f32 => 8 | .f16 => 9 | .bf16 => 10 | .e4m3 => 11 | .e5m2 => 12 | .q4 => 13 | .i4 => 14 | .i2 => 15

def tyOf (m : BitVec 5) : Option Ty :=
  match m.toNat with
  | 0 => some .s8 | 1 => some .s16 | 2 => some .s32 | 3 => some .s64 | 4 => some .n8 | 5 => some .n16 | 6 => some .n32
  | 7 => some .n64 | 8 => some .f32 | 9 => some .f16 | 10 => some .bf16 | 11 => some .e4m3 | 12 => some .e5m2
  | 13 => some .q4 | 14 => some .i4 | 15 => some .i2 | _ => none

def scopeBits (s : Scope) : BitVec 5 := BitVec.ofNat 5 (scopeCode s)

def scopeOf (m : BitVec 5) : Option Scope :=
  match m.toNat with
  | 0 => some .lane | 1 => some .group | 2 => some .block | 3 => some .core | 4 => some .cluster | 5 => some .die
  | 6 => some .pkg | 7 => some .host | 8 => some .fabric | 9 => some .pool | 10 => some .sys | _ => none

def widthCode : Width → BitVec 5
  | .w8 => 0 | .w16 => 1 | .w32 => 2 | .w64 => 3 | .w128 => 4 | .wcap => 5

def widthOf (m : BitVec 5) : Option Width :=
  match m.toNat with
  | 0 => some .w8 | 1 => some .w16 | 2 => some .w32 | 3 => some .w64 | 4 => some .w128 | 5 => some .wcap | _ => none

def condCode : Cond → Nat
  | .eq => 0 | .ne => 1 | .lt => 2 | .le => 3 | .gt => 4 | .ge => 5

def condOf (n : Nat) : Option Cond :=
  match n with
  | 0 => some .eq | 1 => some .ne | 2 => some .lt | 3 => some .le | 4 => some .gt | 5 => some .ge | _ => none

def fcondCode : FCond → BitVec 4
  | .eq => 0 | .ne => 1 | .lt => 2 | .le => 3 | .gt => 4 | .ge => 5 | .un => 6 | .ord => 7

def fcondOf (n : BitVec 4) : Option FCond :=
  match n.toNat with
  | 0 => some .eq | 1 => some .ne | 2 => some .lt | 3 => some .le | 4 => some .gt | 5 => some .ge | 6 => some .un
  | 7 => some .ord | _ => none

def rmCode : Rm → BitVec 3
  | .dyn => 0 | .rn => 1 | .rz => 2 | .rp => 3 | .rm => 4 | .rs => 5

def rmOf (n : BitVec 3) : Option Rm :=
  match n.toNat with
  | 0 => some .dyn | 1 => some .rn | 2 => some .rz | 3 => some .rp | 4 => some .rm | 5 => some .rs | _ => none

def redCode : RedOp → BitVec 3
  | .add => 0 | .min => 1 | .max => 2 | .and => 3 | .or => 4 | .xor => 5

def redOf (n : BitVec 3) : Option RedOp :=
  match n.toNat with
  | 0 => some .add | 1 => some .min | 2 => some .max | 3 => some .and | 4 => some .or | 5 => some .xor | _ => none

def voteCode : VoteMode → BitVec 8
  | .ballot => 0 | .any => 1 | .all => 2

def voteOf (n : BitVec 8) : Option VoteMode :=
  match n.toNat with
  | 0 => some .ballot | 1 => some .any | 2 => some .all | _ => none

def ctCode : CodeTy → BitVec 2
  | .int => 0 | .e2m1 => 1 | .pow2 => 2 | .hyb => 3

def ctOf (n : BitVec 2) : CodeTy :=
  match n.toNat with
  | 0 => .int | 1 => .e2m1 | 2 => .pow2 | _ => .hyb

def subCode : SubMode → BitVec 2
  | .restart => 0 | .follow => 1 | .final => 2 | .unsub => 3

def subOf (n : BitVec 2) : SubMode :=
  match n.toNat with
  | 0 => .restart | 1 => .follow | 2 => .final | _ => .unsub

def wctrCode : WctrMode → BitVec 3
  | .rdIn => 0 | .rdOut => 1 | .waitIn => 2 | .waitOut => 3 | .subIn => 4 | .subOut => 5

def wctrOf (n : BitVec 3) : Option WctrMode :=
  match n.toNat with
  | 0 => some .rdIn | 1 => some .rdOut | 2 => some .waitIn | 3 => some .waitOut | 4 => some .subIn | 5 => some .subOut
  | _ => none

def fenceCode : FenceMode → BitVec 2
  | .acq => 1 | .rel => 2 | .acqrel => 3

def fenceOf (n : BitVec 2) : Option FenceMode :=
  match n.toNat with
  | 1 => some .acq | 2 => some .rel | 3 => some .acqrel | _ => none

/-! ### Fields of a word (R45, R48 to R52) -/

def fld (w : W64) (lo n : Nat) : BitVec n := w.extractLsb' lo n
def wMajor (w : W64) : Nat := (fld w 58 6).toNat
def wSafe (w : W64) : Bool := w.getLsbD 57
def wMod (w : W64) : BitVec 5 := fld w 48 5
def wMinor (w : W64) : Nat := (fld w 40 8).toNat
def wD (w : W64) : BitVec 8 := fld w 32 8
def wA (w : W64) : BitVec 8 := fld w 24 8
def wB (w : W64) : BitVec 8 := fld w 16 8
def wC (w : W64) : BitVec 8 := fld w 8 8
def wX (w : W64) : BitVec 8 := fld w 0 8
def wImm (w : W64) : BitVec 24 := fld w 0 24

/-- The header of `w`; `nx` is the word that follows it (R45, R60). -/
def hdrOf (w nx : W64) : Hdr :=
  { safe := wSafe w, psel := fld w 54 3, neg := w.getLsbD 53, mask := if wSafe w then nx else 0 }

def zf {n : Nat} (b : BitVec n) : Option Unit := if b = 0 then some () else none
def mod0 (w : W64) : Option Unit := zf (wMod w)
def sr8 (b : BitVec 8) : Option SReg := if b.extractLsb' 6 2 = 0 then some (b.extractLsb' 0 6) else none
def pr8 (b : BitVec 8) : Option PReg := if b.extractLsb' 3 5 = 0 then some (b.extractLsb' 0 3) else none
def cr8 (b : BitVec 8) : Option CReg := if b.extractLsb' 4 4 = 0 then some (b.extractLsb' 0 4) else none

/-! ### Decoding by class -/

def waitSelOf (n : BitVec 4) : Option WaitSel :=
  match n.toNat with
  | 0 => some .copies
  | 1 => some .stores
  | _ => if n.getLsbD 3 then some (.queue (n.extractLsb' 0 3)) else none

def waitSelCode : WaitSel → BitVec 4
  | .copies => 0
  | .stores => 1
  | .queue k => BitVec.ofNat 4 (8 + k.toNat)

def barCountOf (w : W64) : Option BarCount :=
  if w.getLsbD 9 then do
    let a ← sr8 (wA w)
    zf (fld w 10 14)
    return .s a
  else do
    zf (wA w)
    return .imm (fld w 10 14)

/-- The three scalar registers and the type of a format A word of major 0x08. -/
def sABT (w : W64) : Option (Ty × SReg × SReg × SReg) := do
  let t ← tyOf (wMod w)
  let d ← sr8 (wD w)
  let a ← sr8 (wA w)
  let b ← sr8 (wB w)
  return (t, d, a, b)

def s3 (k : Ty → SReg → SReg → SReg → Instr) (w : W64) : Option Instr := do
  let r ← sABT w
  zf (fld w 0 16)
  return k r.1 r.2.1 r.2.2.1 r.2.2.2

def v3 (k : Ty → VReg → VReg → VReg → Instr) (w : W64) : Option Instr := do
  let t ← tyOf (wMod w)
  zf (fld w 0 16)
  return k t (wD w) (wA w) (wB w)

def v2 (k : Ty → VReg → VReg → Instr) (w : W64) : Option Instr := do
  let t ← tyOf (wMod w)
  zf (fld w 0 24)
  return k t (wD w) (wA w)

/-- Float three-register forms with rm in x (R131, R133). -/
def fr3 (k : Ty → Rm → VReg → VReg → VReg → Instr) (w : W64) : Option Instr := do
  let t ← tyOf (wMod w)
  zf (fld w 3 13)
  let r ← rmOf (fld w 0 3)
  return k t r (wD w) (wA w) (wB w)

/-- The second operand of major 0x11 (R49). -/
def vimmOf (w : W64) : Option VImm :=
  if w.getLsbD 23 then do
    zf (fld w 6 17)
    return .s (fld w 0 6)
  else return .imm (fld w 0 23)

def vX (k : Ty → VReg → VReg → VImm → Instr) (w : W64) : Option Instr := do
  let t ← tyOf (wMod w)
  let b ← vimmOf w
  return k t (wD w) (wA w) b

/-- Register-immediate scalar forms of R109. -/
def sI (k : Ty → SReg → SReg → BitVec 24 → Instr) (w : W64) : Option Instr := do
  let t ← tyOf (wMod w)
  let d ← sr8 (wD w)
  let a ← sr8 (wA w)
  return k t d a (wImm w)

/-- The offset operand of format M (R50). -/
def memOffOf (w : W64) : Option MemOff :=
  if w.getLsbD 18 then do
    zf (fld w 19 9)
    return .none
  else if w.getLsbD 19 then do
    let x ← sr8 (fld w 20 8)
    return .s x
  else return .v (fld w 20 8)

def capOffOf (w : W64) : Option CapOff := do
  let o ← memOffOf w
  match o with
  | .v _ => none
  | .s x => return .s x
  | .none => return .none

def lsF (k : Width → VReg → CReg → MemOff → W16 → Instr) (w : W64) : Option Instr := do
  let wd ← widthOf (wMod w)
  let o ← memOffOf w
  zf (fld w 16 2)
  return k wd (wD w) (fld w 28 4) o (fld w 0 16)

def atS (k : Scope → VReg → CReg → MemOff → W16 → Instr) (w : W64) : Option Instr := do
  let sc ← scopeOf (wMod w)
  let o ← memOffOf w
  zf (fld w 16 2)
  return k sc (wD w) (fld w 28 4) o (fld w 0 16)

/-- ATOMG fields (R185): `cas` tells whether sc may name a register. -/
def atG (k : Scope → HReg → SReg → CReg → SReg → Bool → Bool → Bool → Instr) (w : W64) : Option Instr := do
  let sc ← scopeOf (wMod w)
  zf (fld w 28 4)
  zf (fld w 10 6)
  zf (fld w 8 2)
  zf (fld w 4 4)
  zf (fld w 1 1)
  return k sc (fld w 36 4) (fld w 16 6) (fld w 32 4) (fld w 22 6) (w.getLsbD 0) (w.getLsbD 2) (w.getLsbD 3)

def smoviMode (a : BitVec 8) : Option (Option (BitVec 2)) :=
  match a.toNat with
  | 0 => some none
  | 1 => some (some 0)
  | 2 => some (some 1)
  | 3 => some (some 2)
  | 4 => some (some 3)
  | _ => none

def smoviBits : Option (BitVec 2) → BitVec 8
  | none => 0
  | some k => BitVec.ofNat 8 (k.toNat + 1)

/-- Mode and distance of SHFL (R119); a native distance is below 64. -/
def shflOf (w : W64) : Option ShflMode :=
  match (wC w).toNat with
  | 0 => do
    zf (wX w)
    return .idx (wB w)
  | 1 => do
    zf (wB w)
    zf (fld w 6 2)
    return .up (fld w 0 6)
  | 2 => do
    zf (wB w)
    zf (fld w 6 2)
    return .down (fld w 0 6)
  | 3 => do
    zf (wB w)
    zf (fld w 6 2)
    return .xor (fld w 0 6)
  | _ => none

/-- Major 0x02. -/
def decSeq (h : Hdr) (w : W64) (m : Nat) : Option Instr :=
  match m with
  | 0x00 => do
    mod0 w
    zf (fld w 0 40)
    return .nop h
  | 0x01 => do
    mod0 w
    zf (wD w)
    zf (wA w)
    zf (fld w 16 8)
    return .want h (fld w 0 16)
  | 0x02 => do
    mod0 w
    zf (wD w)
    zf (wImm w)
    return .wantVector h (wA w)
  | 0x03 => do
    mod0 w
    zf (fld w 33 7)
    let a ← sr8 (wA w)
    zf (fld w 16 8)
    return .wants h (w.getLsbD 32) a (fld w 0 16)
  | 0x04 => do
    mod0 w
    zf (wD w)
    zf (wA w)
    zf (fld w 16 4)
    return .wanth h (fld w 20 4) (fld w 0 16)
  | 0x05 => do
    mod0 w
    zf (fld w 0 40)
    return .exit h
  | 0x06 => do
    mod0 w
    zf (wD w)
    zf (wA w)
    zf (fld w 16 8)
    return .call h (fld w 0 16)
  | 0x07 => do
    mod0 w
    zf (fld w 0 40)
    return .ret h
  | 0x08 => do
    mod0 w
    zf (fld w 0 40)
    return .yield h
  | _ => none

/-- Major 0x03. -/
def decSys3 (h : Hdr) (w : W64) (m : Nat) : Option Instr :=
  match m with
  | 0x00 => do
    mod0 w
    zf (fld w 8 2)
    zf (fld w 28 4)
    return .spawn h (fld w 36 4) (fld w 22 6) (fld w 16 6) (fld w 10 6) (fld w 32 4) (fld w 0 4) (fld w 4 4)
  | 0x01 => do
    mod0 w
    zf (fld w 8 2)
    zf (fld w 28 4)
    zf (fld w 16 6)
    zf (fld w 10 6)
    zf (wX w)
    return .launch h (fld w 36 4) (fld w 32 4) (fld w 22 6)
  | 0x02 => do
    mod0 w
    zf (fld w 14 26)
    return .trap h (fld w 0 14)
  | 0x03 => do
    mod0 w
    zf (fld w 14 26)
    return .brk h (fld w 0 14)
  | _ => none

/-- Major 0x04. -/
def decHnd (h : Hdr) (w : W64) (m : Nat) : Option Instr :=
  match m with
  | 0x00 => do
    mod0 w
    zf (fld w 8 2)
    zf (fld w 32 4)
    zf (fld w 28 4)
    zf (fld w 16 6)
    zf (fld w 10 6)
    zf (wX w)
    return .hwait h (fld w 22 6) (fld w 36 4)
  | 0x01 => do
    mod0 w
    zf (fld w 8 2)
    zf (fld w 32 4)
    zf (fld w 28 4)
    zf (fld w 16 6)
    zf (fld w 10 6)
    zf (wX w)
    return .htest h (fld w 22 6) (fld w 36 4)
  | 0x02 => do
    mod0 w
    zf (fld w 8 2)
    zf (fld w 32 4)
    zf (fld w 28 4)
    zf (fld w 22 6)
    zf (fld w 16 6)
    zf (fld w 10 6)
    zf (wX w)
    return .hcancel h (fld w 36 4)
  | 0x03 => do
    mod0 w
    zf (fld w 8 2)
    zf (fld w 32 4)
    zf (fld w 28 4)
    zf (fld w 22 6)
    zf (fld w 16 6)
    zf (fld w 10 6)
    zf (fld w 4 4)
    return .hmov h (fld w 36 4) (fld w 0 4)
  | 0x04 => do
    mod0 w
    zf (fld w 8 2)
    zf (fld w 32 4)
    zf (fld w 28 4)
    zf (fld w 22 6)
    zf (fld w 16 6)
    zf (fld w 10 6)
    let s ← waitSelOf (fld w 36 4)
    return .waitcnt h s (wX w)
  | _ => none

/-- Major 0x05. -/
def decBar (h : Hdr) (w : W64) (m : Nat) : Option Instr :=
  match m with
  | 0x00 => do
    mod0 w
    zf (wD w)
    let n ← barCountOf w
    return .barinit h (fld w 0 9) n
  | 0x01 => do
    mod0 w
    let d ← sr8 (wD w)
    let n ← barCountOf w
    return .bararr h d (fld w 0 9) n
  | 0x02 => do
    mod0 w
    zf (wD w)
    let a ← sr8 (wA w)
    zf (wImm w)
    return .barwt h a
  | 0x03 => do
    mod0 w
    let d ← sr8 (wD w)
    let a ← sr8 (wA w)
    zf (wImm w)
    return .bartry h d a
  | 0x04 => do
    mod0 w
    let d ← sr8 (wD w)
    zf (wA w)
    zf (wImm w)
    return .phase h d
  | _ => none

/-- Major 0x08. -/
def decSca (h : Hdr) (w : W64) (m : Nat) : Option Instr :=
  match m with
  | 0x00 => do
    s3 (fun t d a b => .sadd h t d a b) w
  | 0x01 => do
    s3 (fun t d a b => .ssub h t d a b) w
  | 0x02 => do
    s3 (fun t d a b => .smul h t d a b) w
  | 0x03 => do
    s3 (fun t d a b => .smulh h t d a b) w
  | 0x04 => do
    s3 (fun t d a b => .sand h t d a b) w
  | 0x05 => do
    s3 (fun t d a b => .sor h t d a b) w
  | 0x06 => do
    s3 (fun t d a b => .sxor h t d a b) w
  | 0x07 => do
    s3 (fun t d a b => .sshl h t d a b) w
  | 0x08 => do
    s3 (fun t d a b => .sshr h t d a b) w
  | 0x09 => do
    s3 (fun t d a b => .ssra h t d a b) w
  | 0x0A => do
    s3 (fun t d a b => .smin h t d a b) w
  | 0x0B => do
    s3 (fun t d a b => .smax h t d a b) w
  | 0x0C => do
    let r ← sABT w
    let c ← sr8 (wC w)
    zf (wX w)
    return .ssel h r.1 r.2.1 r.2.2.1 r.2.2.2 c
  | 0x0D => do
    let r ← sABT w
    zf (wC w)
    let k ← condOf (wX w).toNat
    return .scmp h r.1 r.2.1 r.2.2.1 r.2.2.2 k
  | _ => none

/-- Major 0x09. -/
def decScaI (h : Hdr) (w : W64) (m : Nat) : Option Instr :=
  match m with
  | 0x00 => do
    sI (fun t d a i => .saddi h t d a i) w
  | 0x04 => do
    sI (fun t d a i => .sandi h t d a i) w
  | 0x05 => do
    sI (fun t d a i => .sori h t d a i) w
  | 0x06 => do
    sI (fun t d a i => .sxori h t d a i) w
  | 0x07 => do
    let t ← tyOf (wMod w)
    let d ← sr8 (wD w)
    let a ← sr8 (wA w)
    zf (fld w 6 18)
    return .sshli h t d a (fld w 0 6)
  | 0x08 => do
    let t ← tyOf (wMod w)
    let d ← sr8 (wD w)
    let a ← sr8 (wA w)
    zf (fld w 7 17)
    return .sshri h t d a (fld w 0 6) (w.getLsbD 6)
  | 0x0D => do
    let t ← tyOf (wMod w)
    let d ← sr8 (wD w)
    let a ← sr8 (wA w)
    let k ← condOf (fld w 20 4).toNat
    return .scmpi h t d a k (fld w 0 20)
  | 0x0E => do
    let t ← tyOf (wMod w)
    let d ← sr8 (wD w)
    let k ← smoviMode (wA w)
    return .smovi h t d k (wImm w)
  | _ => none

/-- Major 0x0A. -/
def decMov (h : Hdr) (w : W64) (m : Nat) : Option Instr :=
  match m with
  | 0x00 => do
    mod0 w
    let d ← sr8 (wD w)
    let a ← sr8 (wA w)
    zf (wImm w)
    return .smov h d a
  | 0x01 => do
    mod0 w
    zf (wA w)
    zf (fld w 1 13)
    let d ← if w.getLsbD 0 then some (SVReg.v (wD w)) else (sr8 (wD w)).map SVReg.s
    return .gets h d (fld w 14 10)
  | 0x02 => do
    mod0 w
    zf (wD w)
    zf (fld w 0 14)
    let a ← sr8 (wA w)
    return .sets h (fld w 14 10) a
  | 0x03 => do
    mod0 w
    zf (wA w)
    zf (fld w 9 15)
    let d ← sr8 (wD w)
    return .sldk h d (fld w 0 9)
  | _ => none

/-- Major 0x10. -/
def decVec (h : Hdr) (w : W64) (m : Nat) : Option Instr :=
  match m with
  | 0x00 => do
    v3 (fun t d a b => .vadd h t d a b) w
  | 0x01 => do
    v3 (fun t d a b => .vsub h t d a b) w
  | 0x02 => do
    v3 (fun t d a b => .vmul h t d a b) w
  | 0x03 => do
    v3 (fun t d a b => .vmulh h t d a b) w
  | 0x04 => do
    let t ← tyOf (wMod w)
    zf (wX w)
    return .vmad h t (wD w) (wA w) (wB w) (wC w)
  | 0x05 => do
    v3 (fun t d a b => .vand h t d a b) w
  | 0x06 => do
    v3 (fun t d a b => .vor h t d a b) w
  | 0x07 => do
    v3 (fun t d a b => .vxor h t d a b) w
  | 0x08 => do
    v2 (fun t d a => .vnot h t d a) w
  | 0x09 => do
    v3 (fun t d a b => .vshl h t d a b) w
  | 0x0A => do
    v3 (fun t d a b => .vshr h t d a b) w
  | 0x0B => do
    v3 (fun t d a b => .vsra h t d a b) w
  | 0x0C => do
    v3 (fun t d a b => .vmin h t d a b) w
  | 0x0D => do
    v3 (fun t d a b => .vmax h t d a b) w
  | 0x0E => do
    v2 (fun t d a => .vabs h t d a) w
  | 0x0F => do
    v2 (fun t d a => .vclz h t d a) w
  | 0x10 => do
    v2 (fun t d a => .vpopc h t d a) w
  | 0x11 => do
    v3 (fun t d a b => .vadds h t d a b) w
  | 0x12 => do
    v3 (fun t d a b => .vsubs h t d a b) w
  | _ => none

/-- Major 0x11. -/
def decVecX (h : Hdr) (w : W64) (m : Nat) : Option Instr :=
  match m with
  | 0x00 => do
    vX (fun t d a b => .vaddX h t d a b) w
  | 0x01 => do
    vX (fun t d a b => .vsubX h t d a b) w
  | 0x02 => do
    vX (fun t d a b => .vmulX h t d a b) w
  | 0x03 => do
    vX (fun t d a b => .vmulhX h t d a b) w
  | 0x05 => do
    vX (fun t d a b => .vandX h t d a b) w
  | 0x06 => do
    vX (fun t d a b => .vorX h t d a b) w
  | 0x07 => do
    vX (fun t d a b => .vxorX h t d a b) w
  | 0x09 => do
    vX (fun t d a b => .vshlX h t d a b) w
  | 0x0A => do
    vX (fun t d a b => .vshrX h t d a b) w
  | 0x0B => do
    vX (fun t d a b => .vsraX h t d a b) w
  | 0x0C => do
    vX (fun t d a b => .vminX h t d a b) w
  | 0x0D => do
    vX (fun t d a b => .vmaxX h t d a b) w
  | 0x11 => do
    vX (fun t d a b => .vaddsX h t d a b) w
  | 0x12 => do
    vX (fun t d a b => .vsubsX h t d a b) w
  | _ => none

/-- Major 0x12. -/
def decCmp (h : Hdr) (w : W64) (m : Nat) : Option Instr :=
  match m with
  | 0x00 => do
    let t ← tyOf (wMod w)
    let d ← pr8 (wD w)
    zf (wC w)
    let k ← condOf (wX w).toNat
    return .vcmp h t d (wA w) (wB w) k
  | 0x01 => do
    let t ← tyOf (wMod w)
    let c ← pr8 (wC w)
    zf (wX w)
    return .vsel h t (wD w) (wA w) (wB w) c
  | 0x02 => do
    let t ← tyOf (wMod w)
    zf (fld w 8 16)
    zf (fld w 1 7)
    let a ← if w.getLsbD 0 then (sr8 (wA w)).map SVReg.s else some (SVReg.v (wA w))
    return .vmov h t (wD w) a
  | _ => none

/-- Major 0x13. -/
def decPrd (h : Hdr) (w : W64) (m : Nat) : Option Instr :=
  match m with
  | 0x00 => do
    mod0 w
    let d ← pr8 (wD w)
    let a ← pr8 (wA w)
    let b ← pr8 (wB w)
    zf (fld w 0 16)
    return .pand h d a b
  | 0x01 => do
    mod0 w
    let d ← pr8 (wD w)
    let a ← pr8 (wA w)
    let b ← pr8 (wB w)
    zf (fld w 0 16)
    return .por h d a b
  | 0x02 => do
    mod0 w
    let d ← pr8 (wD w)
    let a ← pr8 (wA w)
    let b ← pr8 (wB w)
    zf (fld w 0 16)
    return .pxor h d a b
  | 0x03 => do
    mod0 w
    let d ← pr8 (wD w)
    let a ← pr8 (wA w)
    zf (wImm w)
    return .pnot h d a
  | 0x04 => do
    mod0 w
    let d ← pr8 (wD w)
    let a ← pr8 (wA w)
    zf (wImm w)
    return .pmov h d a
  | 0x05 => do
    mod0 w
    let d ← pr8 (wD w)
    let a ← sr8 (wA w)
    zf (wImm w)
    return .pset h d a
  | 0x06 => do
    mod0 w
    let d ← sr8 (wD w)
    let a ← pr8 (wA w)
    zf (wImm w)
    return .pcnt h d a
  | _ => none

/-- Major 0x14. -/
def decXln (h : Hdr) (w : W64) (m : Nat) : Option Instr :=
  match m with
  | 0x00 => do
    let t ← tyOf (wMod w)
    let m ← shflOf w
    return .shfl h t (wD w) (wA w) m
  | 0x01 => do
    let t ← tyOf (wMod w)
    let d ← sr8 (wD w)
    zf (wImm w)
    return .rdfl h t d (wA w)
  | 0x02 => do
    zf (wMod w ^^^ 7)
    let d ← sr8 (wD w)
    let a ← pr8 (wA w)
    zf (fld w 8 16)
    let m ← voteOf (wX w)
    return .vote h d a m
  | 0x03 => do
    let t ← tyOf (wMod w)
    let d ← sr8 (wD w)
    zf (fld w 3 21)
    let o ← redOf (fld w 0 3)
    return .reduce h t d (wA w) o
  | 0x04 => do
    let t ← tyOf (wMod w)
    zf (fld w 4 20)
    let o ← redOf (fld w 0 3)
    return .scan h t (wD w) (wA w) o (w.getLsbD 3)
  | 0x05 => do
    zf (wMod w ^^^ 8)
    let d ← sr8 (wD w)
    let b ← sr8 (wB w)
    zf (fld w 0 16)
    return .sample h d (wA w) b
  | _ => none

/-- Major 0x18. -/
def decFlt (h : Hdr) (w : W64) (m : Nat) : Option Instr :=
  match m with
  | 0x00 => do
    fr3 (fun t r d a b => .fadd h t r d a b) w
  | 0x01 => do
    fr3 (fun t r d a b => .fsub h t r d a b) w
  | 0x02 => do
    fr3 (fun t r d a b => .fmul h t r d a b) w
  | 0x03 => do
    let t ← tyOf (wMod w)
    zf (fld w 3 5)
    let r ← rmOf (fld w 0 3)
    return .ffma h t r (wD w) (wA w) (wB w) (wC w)
  | 0x04 => do
    v3 (fun t d a b => .fmin h t d a b) w
  | 0x05 => do
    v3 (fun t d a b => .fmax h t d a b) w
  | 0x06 => do
    v2 (fun t d a => .fabs h t d a) w
  | 0x07 => do
    v2 (fun t d a => .fneg h t d a) w
  | _ => none

/-- Major 0x19. -/
def decFCm (h : Hdr) (w : W64) (m : Nat) : Option Instr :=
  match m with
  | 0x00 => do
    let t ← tyOf (wMod w)
    let d ← pr8 (wD w)
    zf (wC w)
    zf (fld w 5 3)
    let k ← fcondOf (fld w 0 4)
    return .fcmp h t d (wA w) (wB w) k (w.getLsbD 4)
  | 0x01 => do
    v2 (fun t d a => .fclass h t d a) w
  | _ => none

/-- Major 0x1A. -/
def decSpc (h : Hdr) (w : W64) (m : Nat) : Option Instr :=
  match m with
  | 0x00 => do
    v2 (fun t d a => .frcp h t d a) w
  | 0x01 => do
    v2 (fun t d a => .frsq h t d a) w
  | 0x02 => do
    let t ← tyOf (wMod w)
    zf (fld w 3 21)
    let r ← rmOf (fld w 0 3)
    return .fsqrt h t r (wD w) (wA w)
  | 0x03 => do
    v2 (fun t d a => .fexp2 h t d a) w
  | 0x04 => do
    v2 (fun t d a => .flog2 h t d a) w
  | 0x05 => do
    v2 (fun t d a => .fsin h t d a) w
  | 0x06 => do
    v2 (fun t d a => .fcos h t d a) w
  | 0x07 => do
    v2 (fun t d a => .ftanh h t d a) w
  | _ => none

/-- Major 0x1B. -/
def decFSt (h : Hdr) (w : W64) (m : Nat) : Option Instr :=
  match m with
  | 0x00 => do
    mod0 w
    let d ← sr8 (wD w)
    zf (fld w 6 26)
    return .fstat h d (fld w 0 6)
  | 0x01 => do
    mod0 w
    let d ← sr8 (wD w)
    zf (fld w 3 29)
    return .fmode h d (fld w 0 3)
  | _ => none

/-- Major 0x20. -/
def decCvt (h : Hdr) (w : W64) (m : Nat) : Option Instr :=
  match m with
  | 0x00 => do
    let t ← tyOf (wMod w)
    zf (wB w)
    zf (fld w 15 1)
    zf (fld w 5 3)
    let u ← tyOf (fld w 0 5)
    let r ← rmOf (fld w 8 3)
    return .cvt h t u r (wD w) (wA w) (fld w 11 2) (fld w 13 2)
  | 0x01 => do
    let t ← tyOf (wMod w)
    zf (wB w)
    zf (fld w 15 1)
    zf (fld w 5 3)
    let u ← tyOf (fld w 0 5)
    zf (fld w 8 3)
    return .cvtsr h t u (wD w) (wA w) (fld w 11 2) (fld w 13 2)
  | _ => none

/-- Major 0x21. -/
def decQfm (h : Hdr) (w : W64) (m : Nat) : Option Instr :=
  match m with
  | 0x00 => do
    let t ← tyOf (wMod w)
    zf (fld w 8 16)
    zf (fld w 4 4)
    return .qscale h t (wD w) (wA w) (fld w 0 2) (ctOf (fld w 2 2))
  | 0x01 => do
    let t ← tyOf (wMod w)
    zf (fld w 13 3)
    zf (wX w ^^^ 13)
    let r ← rmOf (fld w 10 3)
    return .qpack h t r (wD w) (wA w) (wB w) (fld w 8 2)
  | 0x02 => do
    zf (wMod w ^^^ 13)
    zf (fld w 10 6)
    zf (fld w 5 3)
    let t ← tyOf (fld w 0 5)
    return .qunpk h t (wD w) (wA w) (wB w) (fld w 8 2)
  | 0x03 => do
    v2 (fun t d a => .plane h t d a) w
  | _ => none

/-- Major 0x28. -/
def decScr (h : Hdr) (w : W64) (m : Nat) : Option Instr :=
  match m with
  | 0x00 => do
    lsF (fun wd d c o i => .lds h wd d c o i) w
  | 0x01 => do
    lsF (fun wd d c o i => .sts h wd d c o i) w
  | _ => none

/-- Major 0x29. -/
def decAts (h : Hdr) (w : W64) (m : Nat) : Option Instr :=
  match m with
  | 0x00 => do
    atS (fun sc d c o i => .atomsAdd h sc d c o i) w
  | 0x01 => do
    atS (fun sc d c o i => .atomsAnd h sc d c o i) w
  | 0x02 => do
    atS (fun sc d c o i => .atomsOr h sc d c o i) w
  | 0x03 => do
    atS (fun sc d c o i => .atomsXor h sc d c o i) w
  | 0x04 => do
    atS (fun sc d c o i => .atomsMin h sc d c o i) w
  | 0x05 => do
    atS (fun sc d c o i => .atomsMax h sc d c o i) w
  | 0x06 => do
    atS (fun sc d c o i => .atomsExch h sc d c o i) w
  | 0x07 => do
    atS (fun sc d c o i => .atomsCas h sc d c o i) w
  | 0x08 => do
    atS (fun sc d c o i => .atomsFadd h sc d c o i) w
  | _ => none

/-- Major 0x2A. -/
def decTag (h : Hdr) (w : W64) (m : Nat) : Option Instr :=
  match m with
  | 0x00 => do
    mod0 w
    zf (fld w 28 4)
    zf (fld w 0 18)
    zf (fld w 18 1)
    if w.getLsbD 19 then do
      let d ← sr8 (wD w)
      let x ← sr8 (fld w 20 8)
      return .taglk h (.s d x)
    else return .taglk h (.v (wD w) (fld w 20 8))
  | 0x01 => do
    mod0 w
    zf (fld w 28 4)
    zf (fld w 0 18)
    zf (fld w 18 2 ^^^ 2)
    let d ← sr8 (wD w)
    let x ← sr8 (fld w 20 8)
    return .tagset h d x
  | 0x02 => do
    mod0 w
    zf (fld w 19 13)
    zf (fld w 0 18)
    zf (fld w 18 1 ^^^ 1)
    let d ← sr8 (wD w)
    return .taginv h d
  | _ => none

/-- Major 0x2C. -/
def decCap (h : Hdr) (w : W64) (m : Nat) : Option Instr :=
  match m with
  | 0x00 => do
    mod0 w
    let d ← cr8 (wD w)
    let o ← capOffOf w
    zf (fld w 16 2)
    return .capld h d (fld w 28 4) o (fld w 0 16)
  | 0x01 => do
    mod0 w
    let d ← cr8 (wD w)
    let o ← capOffOf w
    zf (fld w 16 2)
    return .capst h d (fld w 28 4) o (fld w 0 16)
  | 0x02 => do
    mod0 w
    let d ← cr8 (wD w)
    zf (fld w 0 18)
    zf (fld w 18 2 ^^^ 2)
    let x ← sr8 (fld w 20 8)
    return .capsub h d (fld w 28 4) x
  | 0x03 => do
    mod0 w
    let d ← cr8 (wD w)
    zf (fld w 18 10 ^^^ 1)
    zf (fld w 8 10)
    return .capperm h d (fld w 28 4) (fld w 0 8)
  | 0x04 => do
    mod0 w
    let d ← sr8 (wD w)
    zf (fld w 18 10 ^^^ 1)
    zf (fld w 3 15)
    return .capget h d (fld w 28 4) (fld w 0 3)
  | 0x05 => do
    mod0 w
    let d ← sr8 (wD w)
    zf (fld w 0 18)
    zf (fld w 18 2 ^^^ 2)
    let x ← sr8 (fld w 20 8)
    return .capoff h d (fld w 28 4) x
  | _ => none

/-- Major 0x30. -/
def decCpy (h : Hdr) (w : W64) (m : Nat) : Option Instr :=
  match m with
  | 0x00 => do
    let t ← tyOf (wMod w)
    zf (fld w 8 2)
    zf (fld w 2 6)
    return .copy h t (fld w 36 4) (fld w 32 4) (fld w 28 4) (fld w 22 6) (fld w 16 6) (fld w 10 6) (w.getLsbD 0) (w.getLsbD 1)
  | 0x01 => do
    let t ← tyOf (wMod w)
    zf (fld w 8 2)
    return .gather h t (fld w 36 4) (fld w 32 4) (fld w 28 4) (fld w 22 6) (fld w 16 6) (fld w 10 6) (wX w)
  | 0x02 => do
    let t ← tyOf (wMod w)
    zf (fld w 8 2)
    return .scatter h t (fld w 36 4) (fld w 32 4) (fld w 28 4) (fld w 22 6) (fld w 16 6) (fld w 10 6) (wX w)
  | _ => none

/-- Major 0x31. -/
def decQue (h : Hdr) (w : W64) (m : Nat) : Option Instr :=
  match m with
  | 0x00 => do
    let t ← tyOf (wMod w)
    zf (fld w 36 4)
    zf (fld w 28 4)
    zf (fld w 8 2)
    zf (fld w 3 5)
    return .qld h t (fld w 0 3) (fld w 32 4) (fld w 22 6) (fld w 16 6) (fld w 10 6)
  | 0x01 => do
    let t ← tyOf (wMod w)
    zf (fld w 36 4)
    zf (fld w 28 4)
    zf (fld w 8 2)
    zf (fld w 3 5)
    return .qst h t (fld w 0 3) (fld w 32 4) (fld w 22 6) (fld w 16 6) (fld w 10 6)
  | 0x02 => do
    mod0 w
    zf (fld w 3 37)
    return .qclose h (fld w 0 3)
  | 0x03 => do
    mod0 w
    zf (fld w 7 33)
    zf (fld w 3 1)
    return .qres h (fld w 4 3) (fld w 0 3)
  | _ => none

/-- Major 0x32. -/
def decPag (h : Hdr) (w : W64) (m : Nat) : Option Instr :=
  match m with
  | 0x00 => do
    mod0 w
    zf (fld w 8 2)
    zf (fld w 28 4)
    zf (fld w 10 6)
    match (fld w 0 2).toNat with
    | 0 => do
      zf (fld w 2 6)
      return .pagereq h (fld w 36 4) (.range (fld w 32 4) (fld w 22 6) (fld w 16 6))
    | 1 => do
      zf (fld w 2 2)
      zf (fld w 32 4)
      zf (fld w 16 6)
      return .pagereq h (fld w 36 4) (.copy (fld w 22 6) (fld w 4 4))
    | _ => none
  | _ => none

/-- Major 0x33. -/
def decAtg (h : Hdr) (w : W64) (m : Nat) : Option Instr :=
  match m with
  | 0x00 => do
    atG (fun sc d b c o big sg q => .atomgAdd h sc d b c o big sg q) w
  | 0x01 => do
    atG (fun sc d b c o big sg q => .atomgAnd h sc d b c o big sg q) w
  | 0x02 => do
    atG (fun sc d b c o big sg q => .atomgOr h sc d b c o big sg q) w
  | 0x03 => do
    atG (fun sc d b c o big sg q => .atomgXor h sc d b c o big sg q) w
  | 0x04 => do
    atG (fun sc d b c o big sg q => .atomgMin h sc d b c o big sg q) w
  | 0x05 => do
    atG (fun sc d b c o big sg q => .atomgMax h sc d b c o big sg q) w
  | 0x06 => do
    atG (fun sc d b c o big sg q => .atomgExch h sc d b c o big sg q) w
  | 0x07 => do
    let sc ← scopeOf (wMod w)
    zf (fld w 28 4)
    zf (fld w 8 2)
    zf (fld w 4 4)
    zf (fld w 1 1)
    return .atomgCas h sc (fld w 36 4) (fld w 16 6) (fld w 32 4) (fld w 22 6) (fld w 10 6) (w.getLsbD 0) (w.getLsbD 2) (w.getLsbD 3)
  | 0x08 => do
    let sc ← scopeOf (wMod w)
    zf (fld w 28 4)
    zf (fld w 10 6)
    zf (fld w 8 2)
    zf (fld w 4 4)
    zf (fld w 0 3)
    return .atomgFadd h sc (fld w 36 4) (fld w 16 6) (fld w 32 4) (fld w 22 6) (w.getLsbD 3)
  | _ => none

/-- Major 0x34. -/
def decOrd (h : Hdr) (w : W64) (m : Nat) : Option Instr :=
  match m with
  | 0x00 => do
    let sc ← scopeOf (wMod w)
    zf (fld w 2 38)
    let m ← fenceOf (fld w 0 2)
    return .fence h sc m
  | 0x01 => do
    let sc ← scopeOf (wMod w)
    zf (fld w 0 40)
    return .commit h sc
  | _ => none

/-- Major 0x35. -/
def decStq (h : Hdr) (w : W64) (m : Nat) : Option Instr :=
  match m with
  | 0x00 => do
    mod0 w
    zf (fld w 8 2)
    zf (fld w 32 4)
    zf (fld w 28 4)
    zf (fld w 10 6)
    zf (fld w 3 5)
    return .enq h (fld w 36 4) (fld w 22 6) (fld w 16 6) (fld w 0 3)
  | 0x01 => do
    mod0 w
    zf (fld w 36 4)
    zf (fld w 32 4)
    zf (fld w 28 4)
    zf (fld w 0 16)
    return .deq h (fld w 22 6) (fld w 16 6)
  | _ => none

/-- Major 0x38. -/
def decMat (h : Hdr) (w : W64) (m : Nat) : Option Instr :=
  match m with
  | 0x00 => do
    let t ← tyOf (wMod w)
    zf (fld w 8 2)
    zf (fld w 28 4)
    zf (fld w 7 1)
    return .mma h t (fld w 36 4) (fld w 0 3) (fld w 32 4) (fld w 22 6) (fld w 16 6) (fld w 10 6) (fld w 3 2) (fld w 5 2)
  | 0x01 => do
    mod0 w
    zf (fld w 36 4)
    zf (fld w 32 4)
    zf (fld w 28 4)
    zf (fld w 8 14)
    return .mtbl h (wX w) (fld w 22 6)
  | 0x02 => do
    mod0 w
    zf (fld w 0 40)
    return .mtblsw h
  | 0x03 => do
    mod0 w
    zf (fld w 28 12)
    zf (fld w 2 20)
    match (fld w 0 2).toNat with
    | 0 => do
      zf (fld w 22 6)
      return .baton h .take
    | 1 => do
      zf (fld w 22 6)
      return .baton h .pass
    | 2 => return .baton h (.test (fld w 22 6))
    | _ => none
  | _ => none

/-- Major 0x3C. -/
def decNam (h : Hdr) (w : W64) (m : Nat) : Option Instr :=
  match m with
  | 0x00 => do
    mod0 w
    zf (fld w 8 2)
    zf (fld w 28 4)
    zf (wX w)
    return .fetchn h (fld w 36 4) (fld w 32 4) (fld w 22 6) (fld w 16 6) (fld w 10 6)
  | 0x01 => do
    mod0 w
    zf (fld w 8 2)
    zf (fld w 28 4)
    zf (wX w)
    return .pubn h (fld w 36 4) (fld w 32 4) (fld w 22 6) (fld w 16 6) (fld w 10 6)
  | 0x02 => do
    mod0 w
    zf (fld w 8 2)
    zf (fld w 28 4)
    zf (wX w)
    return .sealn h (fld w 36 4) (fld w 32 4) (fld w 22 6) (fld w 16 6) (fld w 10 6)
  | 0x03 => do
    mod0 w
    zf (fld w 32 4)
    zf (fld w 28 4)
    zf (fld w 0 22)
    return .stopref h (fld w 36 4) (fld w 22 6)
  | 0x04 => do
    mod0 w
    zf (fld w 32 4)
    zf (fld w 28 4)
    zf (fld w 5 17)
    return .subn h (fld w 36 4) (fld w 22 6) (fld w 0 3) (subOf (fld w 3 2))
  | _ => none

/-- Major 0x3D. -/
def decWin (h : Hdr) (w : W64) (m : Nat) : Option Instr :=
  match m with
  | 0x00 => do
    let t ← tyOf (wMod w)
    zf (fld w 28 4)
    zf (fld w 0 10)
    return .put h t (fld w 36 4) (fld w 32 4) (fld w 22 6) (fld w 16 6) (fld w 10 6)
  | 0x01 => do
    mod0 w
    zf (fld w 28 12)
    zf (fld w 3 7)
    let m ← wctrOf (fld w 0 3)
    return .wctr h (fld w 22 6) (fld w 16 6) (fld w 10 6) m
  | 0x02 => do
    zf (wMod w ^^^ 13)
    zf (fld w 28 4)
    zf (fld w 2 14)
    return .ared h (fld w 36 4) (fld w 32 4) (fld w 22 6) (fld w 16 6) (ctOf (fld w 0 2))
  | 0x03 => do
    let t ← tyOf (wMod w)
    zf (fld w 0 10)
    return .a2av h t (fld w 36 4) (fld w 32 4) (fld w 28 4) (fld w 22 6) (fld w 16 6) (fld w 10 6)
  | 0x04 => do
    let t ← tyOf (wMod w)
    zf (fld w 28 12)
    zf (fld w 8 14)
    return .xchg h t (wX w) (fld w 22 6)
  | _ => none

/-- Major 0x3E. -/
def decSrt (h : Hdr) (w : W64) (m : Nat) : Option Instr :=
  match m with
  | 0x00 => do
    mod0 w
    zf (fld w 28 4)
    zf (fld w 0 10)
    return .sortk h (fld w 36 4) (fld w 32 4) (fld w 22 6) (fld w 16 6) (fld w 10 6)
  | _ => none

/-- Major 0x3F. -/
def decDbg (h : Hdr) (w : W64) (m : Nat) : Option Instr :=
  match m with
  | 0x00 => do
    mod0 w
    zf (wD w)
    zf (fld w 14 10)
    let a ← sr8 (wA w)
    return .trace h a (fld w 0 14)
  | 0x01 => do
    mod0 w
    let d ← sr8 (wD w)
    zf (wA w)
    zf (fld w 13 11)
    return .rdctr h d (fld w 0 8) (if w.getLsbD 12 then some (fld w 8 4) else none)
  | 0x02 => do
    let sc ← scopeOf (wMod w)
    let d ← cr8 (wD w)
    zf (fld w 0 32)
    return .icinv h sc d
  | 0x03 => do
    let sc ← scopeOf (wMod w)
    let d ← cr8 (wD w)
    zf (fld w 1 23)
    if w.getLsbD 0 then do
      zf (wA w)
      return .tlbinv h sc d none
    else do
      let a ← sr8 (wA w)
      return .tlbinv h sc d (some a)
  | 0x04 => do
    mod0 w
    let d ← sr8 (wD w)
    let a ← sr8 (wA w)
    zf (fld w 4 20)
    return .prd h d a (fld w 0 4)
  | 0x05 => do
    mod0 w
    let d ← sr8 (wD w)
    let a ← sr8 (wA w)
    zf (fld w 4 20)
    return .pwr h d a (fld w 0 4)
  | 0x06 => do
    mod0 w
    zf (wD w)
    zf (fld w 2 22)
    match (fld w 0 2).toNat with
    | 0 => do
      zf (wA w)
      return .eret h .resume
    | 1 => do
      let a ← sr8 (wA w)
      return .eret h (.retire a)
    | 2 => do
      zf (wA w)
      return .eret h .refire
    | _ => do
      zf (wA w)
      return .eret h .emulate
  | 0x07 => do
    mod0 w
    let d ← cr8 (wD w)
    zf (fld w 1 31)
    return .haltb h d (w.getLsbD 0)
  | _ => none

/-- The minors assigned under each assigned major (R63); `none` for an unassigned major, for 0x00 and for the marker's 0x01. -/
def minorsOf (maj : Nat) : Option (List Nat) :=
  match maj with
  | 0x02 => some [0, 1, 2, 3, 4, 5, 6, 7, 8]
  | 0x03 => some [0, 1, 2, 3]
  | 0x04 => some [0, 1, 2, 3, 4]
  | 0x05 => some [0, 1, 2, 3, 4]
  | 0x08 => some [0, 1, 2, 3, 4, 5, 6, 7, 8, 9, 10, 11, 12, 13]
  | 0x09 => some [0, 4, 5, 6, 7, 8, 13, 14]
  | 0x0A => some [0, 1, 2, 3]
  | 0x10 => some [0, 1, 2, 3, 4, 5, 6, 7, 8, 9, 10, 11, 12, 13, 14, 15, 16, 17, 18]
  | 0x11 => some [0, 1, 2, 3, 5, 6, 7, 9, 10, 11, 12, 13, 17, 18]
  | 0x12 => some [0, 1, 2]
  | 0x13 => some [0, 1, 2, 3, 4, 5, 6]
  | 0x14 => some [0, 1, 2, 3, 4, 5]
  | 0x18 => some [0, 1, 2, 3, 4, 5, 6, 7]
  | 0x19 => some [0, 1]
  | 0x1A => some [0, 1, 2, 3, 4, 5, 6, 7]
  | 0x1B => some [0, 1]
  | 0x20 => some [0, 1]
  | 0x21 => some [0, 1, 2, 3]
  | 0x28 => some [0, 1]
  | 0x29 => some [0, 1, 2, 3, 4, 5, 6, 7, 8]
  | 0x2A => some [0, 1, 2]
  | 0x2C => some [0, 1, 2, 3, 4, 5]
  | 0x30 => some [0, 1, 2]
  | 0x31 => some [0, 1, 2, 3]
  | 0x32 => some [0]
  | 0x33 => some [0, 1, 2, 3, 4, 5, 6, 7, 8]
  | 0x34 => some [0, 1]
  | 0x35 => some [0, 1]
  | 0x38 => some [0, 1, 2, 3]
  | 0x3C => some [0, 1, 2, 3, 4]
  | 0x3D => some [0, 1, 2, 3, 4]
  | 0x3E => some [0]
  | 0x3F => some [0, 1, 2, 3, 4, 5, 6, 7]
  | _ => none

/-- The fields of a word of an assigned major and minor; `none` when a reserved field or a mode is refused (step 3 of R54). -/
def decodeFields (w nx : W64) : Option Instr :=
  match wMajor w with
  | 0x02 => decSeq (hdrOf w nx) w (wMinor w)
  | 0x03 => decSys3 (hdrOf w nx) w (wMinor w)
  | 0x04 => decHnd (hdrOf w nx) w (wMinor w)
  | 0x05 => decBar (hdrOf w nx) w (wMinor w)
  | 0x08 => decSca (hdrOf w nx) w (wMinor w)
  | 0x09 => decScaI (hdrOf w nx) w (wMinor w)
  | 0x0A => decMov (hdrOf w nx) w (wMinor w)
  | 0x10 => decVec (hdrOf w nx) w (wMinor w)
  | 0x11 => decVecX (hdrOf w nx) w (wMinor w)
  | 0x12 => decCmp (hdrOf w nx) w (wMinor w)
  | 0x13 => decPrd (hdrOf w nx) w (wMinor w)
  | 0x14 => decXln (hdrOf w nx) w (wMinor w)
  | 0x18 => decFlt (hdrOf w nx) w (wMinor w)
  | 0x19 => decFCm (hdrOf w nx) w (wMinor w)
  | 0x1A => decSpc (hdrOf w nx) w (wMinor w)
  | 0x1B => decFSt (hdrOf w nx) w (wMinor w)
  | 0x20 => decCvt (hdrOf w nx) w (wMinor w)
  | 0x21 => decQfm (hdrOf w nx) w (wMinor w)
  | 0x28 => decScr (hdrOf w nx) w (wMinor w)
  | 0x29 => decAts (hdrOf w nx) w (wMinor w)
  | 0x2A => decTag (hdrOf w nx) w (wMinor w)
  | 0x2C => decCap (hdrOf w nx) w (wMinor w)
  | 0x30 => decCpy (hdrOf w nx) w (wMinor w)
  | 0x31 => decQue (hdrOf w nx) w (wMinor w)
  | 0x32 => decPag (hdrOf w nx) w (wMinor w)
  | 0x33 => decAtg (hdrOf w nx) w (wMinor w)
  | 0x34 => decOrd (hdrOf w nx) w (wMinor w)
  | 0x35 => decStq (hdrOf w nx) w (wMinor w)
  | 0x38 => decMat (hdrOf w nx) w (wMinor w)
  | 0x3C => decNam (hdrOf w nx) w (wMinor w)
  | 0x3D => decWin (hdrOf w nx) w (wMinor w)
  | 0x3E => decSrt (hdrOf w nx) w (wMinor w)
  | 0x3F => decDbg (hdrOf w nx) w (wMinor w)
  | _ => none

/-- Steps 1 to 3 of R54 on the word `w`, followed by the word `nx`. -/
def decode (w nx : W64) : Except Reject Instr :=
  match minorsOf (wMajor w) with
  | none => .error .major
  | some ms =>
    if ms.contains (wMinor w) then
      match decodeFields w nx with
      | none => .error .field
      | some i => if WellFormed i then .ok i else .error .field
    else .error .minor

/-- Decoding total on any bytes: little-endian words (R44), the first at the lowest address; a missing byte reads as 0. -/
def wordOfBytes (bs : List W8) : W64 :=
  bs.getD 7 0 ++ bs.getD 6 0 ++ bs.getD 5 0 ++ bs.getD 4 0 ++ bs.getD 3 0 ++ bs.getD 2 0 ++ bs.getD 1 0 ++ bs.getD 0 0

/-- The eight bytes of a word, lowest address first. -/
def bytesOfWord (w : W64) : List W8 :=
  [fld w 0 8, fld w 8 8, fld w 16 8, fld w 24 8, fld w 32 8, fld w 40 8, fld w 48 8, fld w 56 8]

/-- An instruction with the bytes that follow it, or the failing step of R54. -/
def decodeBytes (bs : List W8) : Except Reject (Instr × List W8) :=
  let w := wordOfBytes bs
  match decode w (wordOfBytes (bs.drop 8)) with
  | .ok i => .ok (i, if wSafe w then bs.drop 16 else bs.drop 8)
  | .error e => .error e

/-- The host's numbering: bit 0 of `w` is bit 0 of the first word; every bit from `nbits` on is 0. -/
def decodeTableWord (nbits w : Nat) : Option Instr :=
  let v := w % 2 ^ nbits
  match decodeBytes (bytesOfWord (BitVec.ofNat 64 v) ++ bytesOfWord (BitVec.ofNat 64 (v / 2 ^ 64))) with
  | .ok (i, _) => some i
  | .error _ => none

/-! ### Encoding -/

/-- Header over a 40-bit body (R45, R48 to R52). -/
def packWord (maj : BitVec 6) (h : Hdr) (mod : BitVec 5) (min : BitVec 8) (body : BitVec 40) : W64 :=
  maj ++ BitVec.ofBool h.safe ++ h.psel ++ BitVec.ofBool h.neg ++ mod ++ min ++ body

/-- Format A body. -/
def bodyA (d a b c x : BitVec 8) : BitVec 40 := d ++ a ++ b ++ c ++ x
/-- Format I body. -/
def bodyI (d a : BitVec 8) (i : BitVec 24) : BitVec 40 := d ++ a ++ i
/-- Format M body. -/
def bodyM (d : BitVec 8) (c : BitVec 4) (x : BitVec 8) (xs xz : Bool) (disp : W16) : BitVec 40 :=
  d ++ c ++ x ++ BitVec.ofBool xs ++ BitVec.ofBool xz ++ (0 : BitVec 2) ++ disp
/-- Format E body. -/
def bodyE (h ca cb : BitVec 4) (sa sb sc : BitVec 6) (x : BitVec 8) : BitVec 40 :=
  h ++ ca ++ cb ++ sa ++ sb ++ sc ++ (0 : BitVec 2) ++ x
/-- Format Y body. -/
def bodyY (d a : BitVec 8) (sr : BitVec 10) (i : BitVec 14) : BitVec 40 := d ++ a ++ sr ++ i

def s8 (r : SReg) : BitVec 8 := (0 : BitVec 2) ++ r
def p8 (r : PReg) : BitVec 8 := (0 : BitVec 5) ++ r
def c8 (r : CReg) : BitVec 8 := (0 : BitVec 4) ++ r

def barBody (d : BitVec 8) (b : BitVec 9) : BarCount → BitVec 40
  | .imm n => bodyI d 0 (n ++ (0 : BitVec 1) ++ b)
  | .s a => bodyI d (s8 a) ((0 : BitVec 14) ++ (1 : BitVec 1) ++ b)

def vimmBits : VImm → BitVec 24
  | .imm i => (0 : BitVec 1) ++ i
  | .s x => (1 : BitVec 1) ++ (0 : BitVec 17) ++ x

def memBody (d : BitVec 8) (c : CReg) (disp : W16) : MemOff → BitVec 40
  | .v x => bodyM d c x false false disp
  | .s x => bodyM d c (s8 x) true false disp
  | .none => bodyM d c 0 false true disp

def capBody (d : BitVec 8) (c : CReg) (disp : W16) : CapOff → BitVec 40
  | .s x => bodyM d c (s8 x) true false disp
  | .none => bodyM d c 0 false true disp

def bit (b : Bool) : BitVec 1 := BitVec.ofBool b

def shflBody (d a : BitVec 8) : ShflMode → BitVec 40
  | .idx b => bodyA d a b 0 0
  | .up n => bodyA d a 0 1 ((0 : BitVec 2) ++ n)
  | .down n => bodyA d a 0 2 ((0 : BitVec 2) ++ n)
  | .xor n => bodyA d a 0 3 ((0 : BitVec 2) ++ n)

def atgX (big sg acq : Bool) : BitVec 8 := (0 : BitVec 4) ++ bit acq ++ bit sg ++ (0 : BitVec 1) ++ bit big

def encSR (h : Hdr) (t : Ty) (min : BitVec 8) (d a b : SReg) : W64 :=
  packWord 0x08 h (tyCode t) min (bodyA (s8 d) (s8 a) (s8 b) 0 0)
def encSI (h : Hdr) (t : Ty) (min : BitVec 8) (d a : SReg) (i : BitVec 24) : W64 :=
  packWord 0x09 h (tyCode t) min (bodyI (s8 d) (s8 a) i)
def encV3 (h : Hdr) (t : Ty) (min : BitVec 8) (d a b : VReg) : W64 := packWord 0x10 h (tyCode t) min (bodyA d a b 0 0)
def encVX (h : Hdr) (t : Ty) (min : BitVec 8) (d a : VReg) (b : VImm) : W64 :=
  packWord 0x11 h (tyCode t) min (bodyI d a (vimmBits b))
def encF3 (h : Hdr) (t : Ty) (r : Rm) (min : BitVec 8) (d a b : VReg) : W64 :=
  packWord 0x18 h (tyCode t) min (bodyA d a b 0 ((0 : BitVec 5) ++ rmCode r))
def encAS (h : Hdr) (sc : Scope) (min : BitVec 8) (d : VReg) (c : CReg) (x : MemOff) (disp : W16) : W64 :=
  packWord 0x29 h (scopeBits sc) min (memBody d c disp x)
def encAG (h : Hdr) (sc : Scope) (min : BitVec 8) (d : HReg) (b : SReg) (c : CReg) (o sw : SReg) (big sg acq : Bool) : W64 :=
  packWord 0x33 h (scopeBits sc) min (bodyE d c 0 o b sw (atgX big sg acq))

/-- The instruction word of a well-formed instruction (its mask word is `Hdr.mask`); 0 for a device event. -/
def encodeWord : Instr → W64
  | .nop h => packWord 0x02 h 0 0x00 0
  | .want h l => packWord 0x02 h 0 0x01 (bodyI 0 0 ((0 : BitVec 8) ++ l))
  | .wantVector h a => packWord 0x02 h 0 0x02 (bodyI 0 a 0)
  | .wants h n a l => packWord 0x02 h 0 0x03 (bodyI ((0 : BitVec 7) ++ bit n) (s8 a) ((0 : BitVec 8) ++ l))
  | .wanth h n l => packWord 0x02 h 0 0x04 (bodyI 0 0 (n ++ (0 : BitVec 4) ++ l))
  | .exit h => packWord 0x02 h 0 0x05 0
  | .call h f => packWord 0x02 h 0 0x06 (bodyI 0 0 ((0 : BitVec 8) ++ f))
  | .ret h => packWord 0x02 h 0 0x07 0
  | .yield h => packWord 0x02 h 0 0x08 0
  | .spawn h d f e a c n m => packWord 0x03 h 0 0x00 (bodyE d c 0 f e a (m ++ n))
  | .launch h d c o => packWord 0x03 h 0 0x01 (bodyE d c 0 o 0 0 0)
  | .trap h k => packWord 0x03 h 0 0x02 (bodyY 0 0 0 k)
  | .brk h k => packWord 0x03 h 0 0x03 (bodyY 0 0 0 k)
  | .hwait h d n => packWord 0x04 h 0 0x00 (bodyE n 0 0 d 0 0 0)
  | .htest h d n => packWord 0x04 h 0 0x01 (bodyE n 0 0 d 0 0 0)
  | .hcancel h n => packWord 0x04 h 0 0x02 (bodyE n 0 0 0 0 0 0)
  | .hmov h d n => packWord 0x04 h 0 0x03 (bodyE d 0 0 0 0 0 ((0 : BitVec 4) ++ n))
  | .waitcnt h s n => packWord 0x04 h 0 0x04 (bodyE (waitSelCode s) 0 0 0 0 0 n)
  | .barinit h b n => packWord 0x05 h 0 0x00 (barBody 0 b n)
  | .bararr h d b n => packWord 0x05 h 0 0x01 (barBody (s8 d) b n)
  | .barwt h t => packWord 0x05 h 0 0x02 (bodyI 0 (s8 t) 0)
  | .bartry h d t => packWord 0x05 h 0 0x03 (bodyI (s8 d) (s8 t) 0)
  | .phase h d => packWord 0x05 h 0 0x04 (bodyI (s8 d) 0 0)
  | .sadd h t d a b => encSR h t 0x00 d a b
  | .ssub h t d a b => encSR h t 0x01 d a b
  | .smul h t d a b => encSR h t 0x02 d a b
  | .smulh h t d a b => encSR h t 0x03 d a b
  | .sand h t d a b => encSR h t 0x04 d a b
  | .sor h t d a b => encSR h t 0x05 d a b
  | .sxor h t d a b => encSR h t 0x06 d a b
  | .sshl h t d a b => encSR h t 0x07 d a b
  | .sshr h t d a b => encSR h t 0x08 d a b
  | .ssra h t d a b => encSR h t 0x09 d a b
  | .smin h t d a b => encSR h t 0x0A d a b
  | .smax h t d a b => encSR h t 0x0B d a b
  | .ssel h t d a b c => packWord 0x08 h (tyCode t) 0x0C (bodyA (s8 d) (s8 a) (s8 b) (s8 c) 0)
  | .scmp h t d a b k => packWord 0x08 h (tyCode t) 0x0D (bodyA (s8 d) (s8 a) (s8 b) 0 (BitVec.ofNat 8 (condCode k)))
  | .saddi h t d a i => encSI h t 0x00 d a i
  | .sandi h t d a i => encSI h t 0x04 d a i
  | .sori h t d a i => encSI h t 0x05 d a i
  | .sxori h t d a i => encSI h t 0x06 d a i
  | .sshli h t d a n => encSI h t 0x07 d a ((0 : BitVec 18) ++ n)
  | .sshri h t d a n ar => encSI h t 0x08 d a ((0 : BitVec 17) ++ bit ar ++ n)
  | .scmpi h t d a k i => encSI h t 0x0D d a (BitVec.ofNat 4 (condCode k) ++ i)
  | .smovi h t d k i => packWord 0x09 h (tyCode t) 0x0E (bodyI (s8 d) (smoviBits k) i)
  | .smov h d a => packWord 0x0A h 0 0x00 (bodyA (s8 d) (s8 a) 0 0 0)
  | .gets h d sr =>
      match d with
      | .s x => packWord 0x0A h 0 0x01 (bodyY (s8 x) 0 sr 0)
      | .v x => packWord 0x0A h 0 0x01 (bodyY x 0 sr 1)
  | .sets h sr a => packWord 0x0A h 0 0x02 (bodyY 0 (s8 a) sr 0)
  | .sldk h d k => packWord 0x0A h 0 0x03 (bodyI (s8 d) 0 ((0 : BitVec 15) ++ k))
  | .vadd h t d a b => encV3 h t 0x00 d a b
  | .vaddX h t d a b => encVX h t 0x00 d a b
  | .vsub h t d a b => encV3 h t 0x01 d a b
  | .vsubX h t d a b => encVX h t 0x01 d a b
  | .vmul h t d a b => encV3 h t 0x02 d a b
  | .vmulX h t d a b => encVX h t 0x02 d a b
  | .vmulh h t d a b => encV3 h t 0x03 d a b
  | .vmulhX h t d a b => encVX h t 0x03 d a b
  | .vand h t d a b => encV3 h t 0x05 d a b
  | .vandX h t d a b => encVX h t 0x05 d a b
  | .vor h t d a b => encV3 h t 0x06 d a b
  | .vorX h t d a b => encVX h t 0x06 d a b
  | .vxor h t d a b => encV3 h t 0x07 d a b
  | .vxorX h t d a b => encVX h t 0x07 d a b
  | .vshl h t d a b => encV3 h t 0x09 d a b
  | .vshlX h t d a b => encVX h t 0x09 d a b
  | .vshr h t d a b => encV3 h t 0x0A d a b
  | .vshrX h t d a b => encVX h t 0x0A d a b
  | .vsra h t d a b => encV3 h t 0x0B d a b
  | .vsraX h t d a b => encVX h t 0x0B d a b
  | .vmin h t d a b => encV3 h t 0x0C d a b
  | .vminX h t d a b => encVX h t 0x0C d a b
  | .vmax h t d a b => encV3 h t 0x0D d a b
  | .vmaxX h t d a b => encVX h t 0x0D d a b
  | .vadds h t d a b => encV3 h t 0x11 d a b
  | .vaddsX h t d a b => encVX h t 0x11 d a b
  | .vsubs h t d a b => encV3 h t 0x12 d a b
  | .vsubsX h t d a b => encVX h t 0x12 d a b
  | .vmad h t d a b c => packWord 0x10 h (tyCode t) 0x04 (bodyA d a b c 0)
  | .vnot h t d a => encV3 h t 0x08 d a 0
  | .vabs h t d a => encV3 h t 0x0E d a 0
  | .vclz h t d a => encV3 h t 0x0F d a 0
  | .vpopc h t d a => encV3 h t 0x10 d a 0
  | .vcmp h t d a b k => packWord 0x12 h (tyCode t) 0x00 (bodyA (p8 d) a b 0 (BitVec.ofNat 8 (condCode k)))
  | .vsel h t d a b c => packWord 0x12 h (tyCode t) 0x01 (bodyA d a b (p8 c) 0)
  | .vmov h t d a =>
      match a with
      | .v x => packWord 0x12 h (tyCode t) 0x02 (bodyA d x 0 0 0)
      | .s x => packWord 0x12 h (tyCode t) 0x02 (bodyA d (s8 x) 0 0 1)
  | .pand h d a b => packWord 0x13 h 0 0x00 (bodyA (p8 d) (p8 a) (p8 b) 0 0)
  | .por h d a b => packWord 0x13 h 0 0x01 (bodyA (p8 d) (p8 a) (p8 b) 0 0)
  | .pxor h d a b => packWord 0x13 h 0 0x02 (bodyA (p8 d) (p8 a) (p8 b) 0 0)
  | .pnot h d a => packWord 0x13 h 0 0x03 (bodyA (p8 d) (p8 a) 0 0 0)
  | .pmov h d a => packWord 0x13 h 0 0x04 (bodyA (p8 d) (p8 a) 0 0 0)
  | .pset h d a => packWord 0x13 h 0 0x05 (bodyA (p8 d) (s8 a) 0 0 0)
  | .pcnt h d a => packWord 0x13 h 0 0x06 (bodyA (s8 d) (p8 a) 0 0 0)
  | .shfl h t d a m => packWord 0x14 h (tyCode t) 0x00 (shflBody d a m)
  | .rdfl h t d a => packWord 0x14 h (tyCode t) 0x01 (bodyA (s8 d) a 0 0 0)
  | .vote h d a m => packWord 0x14 h 7 0x02 (bodyA (s8 d) (p8 a) 0 0 (voteCode m))
  | .reduce h t d a o => packWord 0x14 h (tyCode t) 0x03 (bodyA (s8 d) a 0 0 ((0 : BitVec 5) ++ redCode o))
  | .scan h t d a o ex => packWord 0x14 h (tyCode t) 0x04 (bodyA d a 0 0 ((0 : BitVec 4) ++ bit ex ++ redCode o))
  | .sample h d a b => packWord 0x14 h 8 0x05 (bodyA (s8 d) a (s8 b) 0 0)
  | .fadd h t r d a b => encF3 h t r 0x00 d a b
  | .fsub h t r d a b => encF3 h t r 0x01 d a b
  | .fmul h t r d a b => encF3 h t r 0x02 d a b
  | .ffma h t r d a b c => packWord 0x18 h (tyCode t) 0x03 (bodyA d a b c ((0 : BitVec 5) ++ rmCode r))
  | .fmin h t d a b => packWord 0x18 h (tyCode t) 0x04 (bodyA d a b 0 0)
  | .fmax h t d a b => packWord 0x18 h (tyCode t) 0x05 (bodyA d a b 0 0)
  | .fabs h t d a => packWord 0x18 h (tyCode t) 0x06 (bodyA d a 0 0 0)
  | .fneg h t d a => packWord 0x18 h (tyCode t) 0x07 (bodyA d a 0 0 0)
  | .fcmp h t d a b k s =>
      packWord 0x19 h (tyCode t) 0x00 (bodyA (p8 d) a b 0 ((0 : BitVec 3) ++ bit s ++ fcondCode k))
  | .fclass h t d a => packWord 0x19 h (tyCode t) 0x01 (bodyA d a 0 0 0)
  | .frcp h t d a => packWord 0x1A h (tyCode t) 0x00 (bodyA d a 0 0 0)
  | .frsq h t d a => packWord 0x1A h (tyCode t) 0x01 (bodyA d a 0 0 0)
  | .fsqrt h t r d a => packWord 0x1A h (tyCode t) 0x02 (bodyA d a 0 0 ((0 : BitVec 5) ++ rmCode r))
  | .fexp2 h t d a => packWord 0x1A h (tyCode t) 0x03 (bodyA d a 0 0 0)
  | .flog2 h t d a => packWord 0x1A h (tyCode t) 0x04 (bodyA d a 0 0 0)
  | .fsin h t d a => packWord 0x1A h (tyCode t) 0x05 (bodyA d a 0 0 0)
  | .fcos h t d a => packWord 0x1A h (tyCode t) 0x06 (bodyA d a 0 0 0)
  | .ftanh h t d a => packWord 0x1A h (tyCode t) 0x07 (bodyA d a 0 0 0)
  | .fstat h d m => packWord 0x1B h 0 0x00 (bodyA (s8 d) 0 0 0 ((0 : BitVec 2) ++ m))
  | .fmode h d m => packWord 0x1B h 0 0x01 (bodyA (s8 d) 0 0 0 ((0 : BitVec 5) ++ m))
  | .cvt h t u r d a ss ds =>
      packWord 0x20 h (tyCode t) 0x00 (bodyA d a 0 ((0 : BitVec 1) ++ ds ++ ss ++ rmCode r) ((0 : BitVec 3) ++ tyCode u))
  | .cvtsr h t u d a ss ds =>
      packWord 0x20 h (tyCode t) 0x01 (bodyA d a 0 ((0 : BitVec 1) ++ ds ++ ss ++ (0 : BitVec 3)) ((0 : BitVec 3) ++ tyCode u))
  | .qscale h t d a bs ct => packWord 0x21 h (tyCode t) 0x00 (bodyA d a 0 0 ((0 : BitVec 4) ++ ctCode ct ++ bs))
  | .qpack h t r d a b bs =>
      packWord 0x21 h (tyCode t) 0x01 (bodyA d a b ((0 : BitVec 3) ++ rmCode r ++ bs) 13)
  | .qunpk h t d a b bs =>
      packWord 0x21 h 13 0x02 (bodyA d a b ((0 : BitVec 6) ++ bs) ((0 : BitVec 3) ++ tyCode t))
  | .plane h t d a => packWord 0x21 h (tyCode t) 0x03 (bodyA d a 0 0 0)
  | .lds h wd d c x i => packWord 0x28 h (widthCode wd) 0x00 (memBody d c i x)
  | .sts h wd d c x i => packWord 0x28 h (widthCode wd) 0x01 (memBody d c i x)
  | .atomsAdd h sc d c x i => encAS h sc 0x00 d c x i
  | .atomsAnd h sc d c x i => encAS h sc 0x01 d c x i
  | .atomsOr h sc d c x i => encAS h sc 0x02 d c x i
  | .atomsXor h sc d c x i => encAS h sc 0x03 d c x i
  | .atomsMin h sc d c x i => encAS h sc 0x04 d c x i
  | .atomsMax h sc d c x i => encAS h sc 0x05 d c x i
  | .atomsExch h sc d c x i => encAS h sc 0x06 d c x i
  | .atomsCas h sc d c x i => encAS h sc 0x07 d c x i
  | .atomsFadd h sc d c x i => encAS h sc 0x08 d c x i
  | .taglk h f =>
      match f with
      | .s d x => packWord 0x2A h 0 0x00 (bodyM (s8 d) 0 (s8 x) true false 0)
      | .v d x => packWord 0x2A h 0 0x00 (bodyM d 0 x false false 0)
  | .tagset h d x => packWord 0x2A h 0 0x01 (bodyM (s8 d) 0 (s8 x) true false 0)
  | .taginv h d => packWord 0x2A h 0 0x02 (bodyM (s8 d) 0 0 false true 0)
  | .capld h d c x i => packWord 0x2C h 0 0x00 (capBody (c8 d) c i x)
  | .capst h d c x i => packWord 0x2C h 0 0x01 (capBody (c8 d) c i x)
  | .capsub h d c x => packWord 0x2C h 0 0x02 (bodyM (c8 d) c (s8 x) true false 0)
  | .capperm h d c m => packWord 0x2C h 0 0x03 (bodyM (c8 d) c 0 false true ((0 : BitVec 8) ++ m))
  | .capget h d c f => packWord 0x2C h 0 0x04 (bodyM (s8 d) c 0 false true ((0 : BitVec 13) ++ f))
  | .capoff h d c x => packWord 0x2C h 0 0x05 (bodyM (s8 d) c (s8 x) true false 0)
  | .copy h t d g s a b c o p => packWord 0x30 h (tyCode t) 0x00 (bodyE d g s a b c ((0 : BitVec 6) ++ bit p ++ bit o))
  | .gather h t d g s a b c i => packWord 0x30 h (tyCode t) 0x01 (bodyE d g s a b c i)
  | .scatter h t d g s a b c i => packWord 0x30 h (tyCode t) 0x02 (bodyE d g s a b c i)
  | .qld h t k c o s n => packWord 0x31 h (tyCode t) 0x00 (bodyE 0 c 0 o s n ((0 : BitVec 5) ++ k))
  | .qst h t k c o s n => packWord 0x31 h (tyCode t) 0x01 (bodyE 0 c 0 o s n ((0 : BitVec 5) ++ k))
  | .qclose h k => packWord 0x31 h 0 0x02 (bodyE 0 0 0 0 0 0 ((0 : BitVec 5) ++ k))
  | .qres h d k => packWord 0x31 h 0 0x03 (bodyE 0 0 0 0 0 0 ((0 : BitVec 1) ++ d ++ (0 : BitVec 1) ++ k))
  | .pagereq h d f =>
      match f with
      | .range c o l => packWord 0x32 h 0 0x00 (bodyE d c 0 o l 0 0)
      | .copy sd n => packWord 0x32 h 0 0x00 (bodyE d 0 0 sd 0 0 (n ++ (1 : BitVec 4)))
  | .atomgAdd h sc d b c o big sg q => encAG h sc 0x00 d b c o 0 big sg q
  | .atomgAnd h sc d b c o big sg q => encAG h sc 0x01 d b c o 0 big sg q
  | .atomgOr h sc d b c o big sg q => encAG h sc 0x02 d b c o 0 big sg q
  | .atomgXor h sc d b c o big sg q => encAG h sc 0x03 d b c o 0 big sg q
  | .atomgMin h sc d b c o big sg q => encAG h sc 0x04 d b c o 0 big sg q
  | .atomgMax h sc d b c o big sg q => encAG h sc 0x05 d b c o 0 big sg q
  | .atomgExch h sc d b c o big sg q => encAG h sc 0x06 d b c o 0 big sg q
  | .atomgCas h sc d b c o sw big sg q => encAG h sc 0x07 d b c o sw big sg q
  | .atomgFadd h sc d b c o q => encAG h sc 0x08 d b c o 0 false false q
  | .fence h sc m => packWord 0x34 h (scopeBits sc) 0x00 (bodyI 0 0 ((0 : BitVec 22) ++ fenceCode m))
  | .commit h sc => packWord 0x34 h (scopeBits sc) 0x01 0
  | .enq h d a b n => packWord 0x35 h 0 0x00 (bodyE d 0 0 a b 0 ((0 : BitVec 5) ++ n))
  | .deq h a b => packWord 0x35 h 0 0x01 (bodyE 0 0 0 a b 0 0)
  | .mma h t d v c s wd o bsa bsb =>
      packWord 0x38 h (tyCode t) 0x00 (bodyE d c 0 s wd o ((0 : BitVec 1) ++ bsb ++ bsa ++ v))
  | .mtbl h a q => packWord 0x38 h 0 0x01 (bodyE 0 0 0 q 0 0 a)
  | .mtblsw h => packWord 0x38 h 0 0x02 0
  | .baton h m =>
      match m with
      | .take => packWord 0x38 h 0 0x03 (bodyE 0 0 0 0 0 0 0)
      | .pass => packWord 0x38 h 0 0x03 (bodyE 0 0 0 0 0 0 1)
      | .test d => packWord 0x38 h 0 0x03 (bodyE 0 0 0 d 0 0 2)
  | .fetchn h d c n o l => packWord 0x3C h 0 0x00 (bodyE d c 0 n o l 0)
  | .pubn h d c n o l => packWord 0x3C h 0 0x01 (bodyE d c 0 n o l 0)
  | .sealn h d c n o l => packWord 0x3C h 0 0x02 (bodyE d c 0 n o l 0)
  | .stopref h d n => packWord 0x3C h 0 0x03 (bodyE d 0 0 n 0 0 0)
  | .subn h d n st m => packWord 0x3C h 0 0x04 (bodyE d 0 0 n 0 0 ((0 : BitVec 3) ++ subCode m ++ st))
  | .put h t d c o wd tg => packWord 0x3D h (tyCode t) 0x00 (bodyE d c 0 o wd tg 0)
  | .wctr h d wd v m => packWord 0x3D h 0 0x01 (bodyE 0 0 0 d wd v ((0 : BitVec 5) ++ wctrCode m))
  | .ared h d c wd s ct => packWord 0x3D h 13 0x02 (bodyE d c 0 wd s 0 ((0 : BitVec 6) ++ ctCode ct))
  | .a2av h t d ca cb wd p q => packWord 0x3D h (tyCode t) 0x03 (bodyE d ca cb wd p q 0)
  | .xchg h t v p => packWord 0x3D h (tyCode t) 0x04 (bodyE 0 0 0 p 0 0 v)
  | .sortk h d c k cn n => packWord 0x3E h 0 0x00 (bodyE d c 0 k cn n 0)
  | .trace h a tag => packWord 0x3F h 0 0x00 (bodyY 0 (s8 a) 0 tag)
  | .rdctr h d n seat =>
      match seat with
      | none => packWord 0x3F h 0 0x01 (bodyY (s8 d) 0 0 ((0 : BitVec 6) ++ n))
      | some k => packWord 0x3F h 0 0x01 (bodyY (s8 d) 0 0 ((1 : BitVec 2) ++ k ++ n))
  | .icinv h sc d => packWord 0x3F h (scopeBits sc) 0x02 (bodyY (c8 d) 0 0 0)
  | .tlbinv h sc d a =>
      match a with
      | some x => packWord 0x3F h (scopeBits sc) 0x03 (bodyY (c8 d) (s8 x) 0 0)
      | none => packWord 0x3F h (scopeBits sc) 0x03 (bodyY (c8 d) 0 0 1)
  | .prd h d a k => packWord 0x3F h 0 0x04 (bodyY (s8 d) (s8 a) 0 ((0 : BitVec 10) ++ k))
  | .pwr h d a k => packWord 0x3F h 0 0x05 (bodyY (s8 d) (s8 a) 0 ((0 : BitVec 10) ++ k))
  | .eret h m =>
      match m with
      | .resume => packWord 0x3F h 0 0x06 (bodyY 0 0 0 0)
      | .retire a => packWord 0x3F h 0 0x06 (bodyY 0 (s8 a) 0 1)
      | .refire => packWord 0x3F h 0 0x06 (bodyY 0 0 0 2)
      | .emulate => packWord 0x3F h 0 0x06 (bodyY 0 0 0 3)
  | .haltb h d k => packWord 0x3F h 0 0x07 (bodyY (c8 d) 0 0 ((0 : BitVec 13) ++ bit k))
  | _ => 0

/-- The words of an instruction: its word, and its live-mask word when S is set (R60). -/
def encode (i : Instr) : List W64 :=
  match i.hdr? with
  | some h => if h.safe then [encodeWord i, h.mask] else [encodeWord i]
  | none => []

end Sys2Proof
end

