-- ==== Sys2Proof/Machine/State.lean ====
section
/-! DEFINITION. The machine state as plain data: every piece of state the specification gives the Walok-9, and the model's own
scheduling fields (the agenda and the counter of free values), each with the rule that names it. -/
namespace Sys2Proof.Machine
open Sys2Proof

/-- Lane states of R19. -/
inductive LaneMode
  | run | wait | gate | calling | done | held
deriving DecidableEq, Repr

/-- A lane state word (R19); `prior` is `run` where the manual's prior field is 0. -/
structure LaneState where
  mode   : LaneMode
  prior  : LaneMode
  handle : HReg
  ret    : Lab
  label  : Lab
deriving DecidableEq, Repr

/-- A frame record (R21). -/
structure Frame where
  entry  : Lab
  fend   : Lab
  resume : Lab
  parts  : Lanes
  rem    : Lanes
  sweeps : W32
deriving DecidableEq, Repr

/-- A capability and its hidden tag (R154). -/
structure Cap where
  bits : BitVec 128
  tag  : Bool
deriving DecidableEq, Repr

/-- A handle register that is not void (R31); a completed copy keeps its residency bitmap and pages (R172, R184). -/
inductive HVal
  | pending (op : Nat)
  | complete (status : W16) (bitmap : Lanes) (pages : List Nat)
deriving DecidableEq, Repr

/-- One buffered entry of a load queue (R177); the elements of `left` have still to be read, in any order (R256). -/
structure QEntry where
  data  : Row
  resid : Lanes
  left  : Lanes
deriving DecidableEq, Repr

/-- An armed queue stream (R176 to R180). `pos` counts pops or pushes, `fetched` the entries read ahead; the path that armed it is kept for
fault and watchpoint records (R183, R370). -/
structure Queue where
  load    : Bool
  ty      : Ty
  base    : Nat
  stride  : Int
  n       : Nat
  pos     : Nat
  fetched : Nat
  buf     : List QEntry
  resid   : Lanes
  label   : Lab
  offset  : W16
  frame   : Nat
  sweeps  : W32
  mask    : Lanes
deriving DecidableEq, Repr

/-- A misaligned LDS or STS that the device performs byte by byte (R158, R249, R340): the bytes still to come, each with its lane, its
place in the element, its scratchpad address and, for a store, its value; the bytes a load has read; the destination and the mask word. `gaps` gives,
for each byte to come, the clocks that the device leaves before it (R249, R260). -/
structure Emul where
  load : Bool
  v    : Nat
  regs : Nat
  todo : List (Nat × Nat × Nat × W8)
  got  : List (Nat × Nat × W8)
  gaps : List Nat
  exec : Lanes
  safe : Bool
  mask : W64
deriving DecidableEq, Repr

/-- Run statuses of R25. -/
inductive RunStatus
  | issuing | stalled | idle | parked | ended
deriving DecidableEq, Repr

/-- An XCHG request waiting for its partner (R244), with the clock from which it waits (R245); `sent` once its rows have been given to the
exchange plane (R313). -/
structure XReq where
  block : W32
  stage : BitVec 3
  group : Nat
  cnt   : Nat
  big   : Bool
  v     : Nat
  exec  : Lanes
  safe  : Bool
  mask  : W64
  sent  : Bool
  since : Nat
deriving DecidableEq, Repr

/-- Where a group's arrival at a PHASE or a COMMIT leaves it (R101, R102, R190). -/
inductive Arrival
  | none
  | phase (d : SReg) (safe : Bool) (mask : W64)
  | commit (sc : Scope) (mask : W64)
deriving DecidableEq, Repr

/-- A group (R18, R26, R28). A register that a table does not list is void (R29). `nCopy`, `nStore` and `nQueue` count what WAITCNT
counts (R97); `last` is the counter of R361 that counted the last clock; `acq` names the handle registers whose completion, once observed,
is an acquire at .pool or .sys (R186); `owed` says that an instruction that waited has taken effect and that its issue slot is still to come (R41). -/
structure Group where
  lanes   : List LaneState
  active  : Lanes
  label   : Lab
  offset  : W16
  frames  : List Frame
  sround  : W32
  fflags  : BitVec 6
  frm     : BitVec 3
  ftrap   : BitVec 6
  v       : Tbl Row
  s       : Tbl W64
  p       : Tbl Lanes
  c       : Tbl Cap
  h       : Tbl HVal
  q       : Tbl Queue
  run     : RunStatus
  seek    : Lab
  stall   : Nat
  waitS   : Option W64
  safe    : Option W64
  stopped : Bool
  arrival : Arrival
  phases  : Nat
  xreq    : Option XReq
  ctrs    : List W64
  bubbles : Nat
  tried   : Bool
  issued  : Bool
  waited  : Nat
  since   : Nat
  yield   : Nat
  keyed   : Nat
  spawns  : Nat
  nCopy   : Nat
  nStore  : Nat
  nQueue  : Tbl Nat
  code    : Nat
  hang    : Nat
  last    : Nat
  emul    : Option Emul
  acq     : List Nat
  owed    : Bool
deriving DecidableEq, Repr

/-- A block footprint (R14, R88); scratchpad and carry in KiB. -/
structure Footprint where
  groups   : Nat
  rows     : Nat
  scratch  : Nat
  barriers : Nat
  carry    : Nat
deriving DecidableEq, Repr

/-- Where a resident block lies on its core (R15); `bar` are the barrier objects it has taken of the core's 512. -/
structure Place where
  core : Nat
  seat : Nat
  row  : Nat
  scr  : Nat
  bar  : List Nat
deriving DecidableEq, Repr

/-- A barrier object (R98); dheld is computed. -/
structure Barrier where
  phase    : Bool
  expected : W32
  pending  : W32
deriving DecidableEq, Repr

/-- The activation table (R214). -/
structure ActTable where
  bank0 : Tbl W32
  bank1 : Tbl W32
  base0 : BitVec 8
  base1 : BitVec 8
  sel   : Bool
deriving DecidableEq, Repr

/-- A trap as FCAUSE to FDATA report it (R331, R336). -/
structure FaultRec where
  cls    : Nat
  code   : Nat
  lane   : Nat
  gid    : Nat
  handle : HReg
  detail : BitVec 8
  frame  : Nat
  label  : Lab
  offset : W16
  addr   : W64
  data   : W64
deriving DecidableEq, Repr

/-- Where a keyed operation is logged: at the home of an address or of a name (R193, R353). -/
inductive LogPlace
  | addr (a : Nat)
  | name (n : Nat)
  | other
deriving DecidableEq, Repr

/-- A logged keyed operation with its result; `bytes` is the output of an ARED (R193, R258). -/
structure LogEnt where
  place  : LogPlace
  commit : W32
  seq    : Nat
  status : W16
  val    : W64
  flags  : BitVec 6
  bytes  : List W8
deriving DecidableEq, Repr

/-- What a commit's resume record or a save keeps of a block (R191, R354). `tokens` are the wait-table tokens that it records (R346). -/
structure Snapshot where
  groups  : List Group
  scratch : Cells
  tags    : List Nat
  slots   : Tbl W64
  bars    : Tbl Barrier
  baton   : Nat
  act     : ActTable
  commits : W32
  tokens  : List Nat
deriving DecidableEq, Repr

inductive BKind
  | launched | spawned | handler
deriving DecidableEq, Repr

/-- Where a block is in its life: dispatchable, on a core, saved in the trunk, or complete (R12, R42, R344). -/
inductive BPhase
  | waiting | resident | saved | complete
deriving DecidableEq, Repr

/-- A block (R11 to R15) with its block-level state: scratchpad, tags, tag table, barriers, baton, activation table, commit number,
provisional bytes, keyed log and resume record. `part` is the %part value of its context; `ending` is the status with which a stopped or
retired block will complete (R233, R332); `faultAt` is the clock at which its fault occurred (R333); `partners` are blocks it exchanged
with since its last commit (R258); `report` is the block record to be written when the completion is reported, and `reported` says that it
has been (R12, R374); `tokens` are the wait-table tokens its saved context records (R346);
`pwords` are the check words of its provisional lines, each over the line's own provisional bytes with zeros elsewhere (R314);
`idle` counts clocks in which no group could issue and `behind` is the waiting block for which this one gives up its place (R42). -/
structure Block where
  kind    : BKind
  part    : Nat
  fn      : Nat
  launch  : Nat
  lid     : W32
  stage   : BitVec 3
  index   : W32
  nblocks : W32
  seqno   : W32
  seed    : W64
  depth   : Nat
  serial  : Nat
  parent  : Option Nat
  image   : Nat
  entry   : Lab
  fp      : Footprint
  phase   : BPhase
  place   : Option Place
  ready   : Nat
  first   : Option Nat
  groups  : List Group
  scratch : Cells
  tags    : List Nat
  slots   : Tbl W64
  bars    : Tbl Barrier
  baton   : Nat
  act     : ActTable
  commits : W32
  prov    : Tbl W8
  pwords  : Tbl W32
  log     : List LogEnt
  record  : Option Snapshot
  refires : Nat
  total   : Nat
  fault   : Option FaultRec
  queued  : Bool
  halted  : Bool
  preempt : Bool
  ending  : Option W16
  entryW  : Option (W64 × W64)
  sub     : Option (Nat × Nat)
  partners : List Nat
  idle    : Nat
  behind  : Option Nat
  initS   : Tbl W64
  initC   : Tbl Cap
  status  : W16
  faultAt : Nat
  report  : List W8
  reported : Bool
  tokens  : List Nat
deriving DecidableEq, Repr

/-- The block identity, commit number and sequence of a keyed operation (R193). -/
structure Key where
  commit : W32
  seq    : Nat
deriving DecidableEq, Repr

/-- Operators of ATOMS and ATOMG (R166, R185). -/
inductive AtomOp
  | add | and | or | xor | min | max | exch | cas | fadd
deriving DecidableEq, Repr

/-- A copy command as read at issue (R169 to R172, R198), the elements moved so far, what they found, and the memory fault met (code and
detail). -/
structure CopyCmd where
  inb    : Bool
  plane  : Bool
  bits   : Nat
  rows   : Option (Row × Lanes)
  esz    : Nat
  goff   : Nat
  soff   : Nat
  e0     : Nat
  e1     : Nat
  e2     : Nat
  gs1    : Nat
  gs2    : Nat
  ss1    : Nat
  ss2    : Nat
  moved  : List Nat
  resid  : Lanes
  pages  : List Nat
  bad    : Option (Nat × Nat)
deriving DecidableEq, Repr

/-- An MMA as read at issue (R199 to R204). -/
structure MmaCmd where
  ty     : Ty
  d      : Nat
  base   : Nat
  m      : Nat
  n      : Nat
  k      : Nat
  scaled : Bool
  sa     : List (List W8)
  sb     : List (List W8)
  aoff   : Nat
  boff   : Nat
  bias   : Option Nat
  ooff   : Nat
  rq     : Bool
  act    : Option Bool
  zinit  : Bool
  rm     : Nat
  sround : W32
  smode  : Nat
  otype  : Ty
  oscale : W8
deriving DecidableEq, Repr

/-- What an outstanding asynchronous operation is (R31, R248). -/
inductive OpBody
  | copy (c : CopyCmd)
  | entry (k : QReg) (ty : Ty) (addrs : List Nat) (data : Row) (left : Lanes)
  | atomg (op : AtomOp) (big sg acq : Bool) (sc : Scope) (b : SReg) (addr : Nat) (x y : W64)
  | mma (m : MmaCmd)
  | spawn (child : Nat)
  | launch (graph : Nat)
  | pages (vpns : List Nat)
  | enq (stage : BitVec 3) (a b : W64)
  | fetchn (name vmin deadline dst len : Nat) (l : SReg) (tile : Option (Nat × List W8))
  | publish (name ver : Nat) (sealing : Bool) (src len : Nat) (payload : Option (List W8))
  | stopref (name : Nat)
  | subn (name : Nat) (stage : BitVec 3) (mode : SubMode)
  | put (esz src len wid rank off : Nat) (landed : List Nat)
  | ared (wid k src dst n : Nat) (ct : CodeTy)
  | a2av (wid k esz cnts src dst : Nat) (send : List Nat) (sent : List (List Nat)) (ends : List Nat) (bad : Option (Nat × Nat))
  | sortk (keys perm cnts offs t e : Nat)
  | icinv (pend : List (Nat × Nat))
  | tlbinv
  | haltb (b : Nat)
  | ready (status : W16)
deriving DecidableEq, Repr

/-- An outstanding asynchronous operation: who issued it, whose scratchpad it addresses (R379), its place in the issue order of its
kind (R97), at which word and lanes, under which key, and whether a cancel reached it (R94). `faddr` is the generic address of the access that
failed (R336); `got` and `wrote` are what its element events have read and written before its completion (R256): bytes by address, and numbers of
elements. -/
structure Op where
  blk    : Nat
  gid    : Nat
  sblk   : Nat
  ord    : Nat
  ordq   : Nat
  h      : HReg
  label  : Lab
  offset : W16
  frame  : Nat
  sweeps : W32
  mask   : Lanes
  key    : Option Key
  cancel : Bool
  faddr  : W64
  got    : Tbl W8
  wrote  : List Nat
  body   : OpBody
deriving DecidableEq, Repr

/-- A range-scoreboard entry (R173). -/
structure RangeEnt where
  core : Nat
  blk  : Nat
  gid  : Nat
  lo   : Nat
  hi   : Nat
  inb  : Bool
  op   : Nat
deriving DecidableEq, Repr

/-- A loaded code image (R69 to R72): its header as it stands in memory, the words groups fetch, one list per version (R59, R342). -/
structure Image where
  part     : Nat
  addr     : Nat
  codeoff  : Nat
  labels   : Nat
  rows     : Nat
  head     : List W8
  versions : List (List W64)
  status   : W16
deriving DecidableEq, Repr

/-- A stage of a launch (R11, R288, R292): queue entries and firings wait with the clock at which they became dispatchable. `next` is the
block index taken next. -/
structure Stage where
  fire    : Nat
  count   : Nat
  qcap    : Nat
  entry   : Lab
  fp      : Footprint
  fired   : Bool
  retired : Bool
  next    : Nat
  ready   : Nat
  queue   : List (W64 × W64 × Nat)
  firings : List (Nat × Nat × Nat)
deriving DecidableEq, Repr

/-- A launch (R10, R11, R287). `decided` gives the status of each pipeline set whose settle event has been decided, `posted` the sets whose event
has been posted (R234). -/
structure Launch where
  part    : Nat
  fn      : Nat
  lid     : W32
  image   : Nat
  seed    : W64
  scope   : Scope
  phased  : Bool
  args    : List W64
  caps    : List Cap
  stages  : List Stage
  seq     : Nat
  start   : Nat
  names   : List Nat
  decided : Tbl Nat
  posted  : List Nat
  error   : Bool
  affAt   : Nat
  done    : Option W16
deriving DecidableEq, Repr

inductive NodePhase
  | idle | running | done
deriving DecidableEq, Repr

/-- One node of a running graph (R286): completions received, status, the launch or graph it runs, LOOP iterations
or bytes copied, and the clock at which it became ready; the bytes a COPY has read (R289), the outcome of a LOOP test that stands (R290), and
whether the node has written its word (R289, R290). -/
structure NodeRun where
  got    : Nat
  phase  : NodePhase
  status : W16
  child  : Nat
  iter   : Nat
  body   : List Nat
  ready  : Nat
  buf    : List W8
  held   : Option Bool
  wrote  : Bool
deriving DecidableEq, Repr

/-- A graph run by a command processor (R284 to R286). -/
structure Graph where
  part   : Nat
  fn     : Nat
  base   : Nat
  level  : Nat
  nodes  : Tbl NodeRun
  halted : Option W16
  failed : List (Nat × W16)
  started : Nat
  done   : Option W16
deriving DecidableEq, Repr

/-- A subscription at a name's home (R231): its launch, stage, mode and, in follow mode, whether a firing is owed once a fired block completes
(R232). -/
structure Sub where
  launch : Nat
  stage  : BitVec 3
  mode   : SubMode
  owed   : Bool
deriving DecidableEq, Repr

/-- A name's record at its home (R220, R222), with the check words of its payload's sectors (R314) and the block and key of the publication that
stored it (R316). -/
structure NameRec where
  ver     : Nat
  payload : List W8
  words   : List W32
  stop    : Bool
  subs    : List Sub
  pub     : Option (Nat × Key)
deriving DecidableEq, Repr

inductive WState
  | fetching | replay | evicting
deriving DecidableEq, Repr

/-- A wait-table entry (R274), and whether its page is one of 32 MiB. -/
structure WaitEnt where
  vpn   : Nat
  state : WState
  large : Bool
deriving DecidableEq, Repr

/-- What a rank has issued as a collective (R241 to R243): the kind, the element size or output type, the blocks of an ARED with their bytes,
or the counts and the target of an A2AV with the length of that rank's segment; whether its transfer to this rank has landed, and whether it
has withdrawn. -/
structure RColl where
  ared   : Bool
  esz    : Nat
  n      : Nat
  bytes  : List W8
  send   : List Nat
  dst    : Nat
  len    : Nat
  landed : Bool
  gone   : Bool
deriving DecidableEq, Repr

/-- A registered window (R236): its two counters, the collectives this rank has issued and those it has withdrawn (R241); `issued` holds what
each rank, this one too, has issued, by 2^32 × collective + rank. -/
structure Window where
  base   : Nat
  length : Nat
  nranks : Nat
  myrank : Nat
  cin    : W64
  cout   : W64
  coll   : Nat
  gone   : List Nat
  issued : Tbl RColl
deriving DecidableEq, Repr

/-- An installed handler image (R377). -/
structure HImage where
  image : Nat
  args  : List W64
  caps  : List Cap
deriving DecidableEq, Repr

/-- A partition (R348). `settles` lists posted sets as (tensor, clock, status), `seals` sealed names with their clocks (R234, R289),
`removals` the stops still to acknowledge a tensor's removal (R310); `sliceAt`, `sliceLen` and `drain` run its time slices (R349). `ctl` holds its control registers by number (R38); one that is not listed holds its reset value. -/
structure Part where
  ctl      : Tbl W64
  dir      : Tbl (BitVec 256)
  names    : Tbl NameRec
  wait     : Tbl WaitEnt
  token    : Nat
  faultq   : List (Nat × Nat)
  wins     : Tbl Window
  ranks    : Tbl W64
  himage   : Option HImage
  events   : List (W32 × W64)
  settles  : List (Nat × Nat × Nat)
  lid      : Nat
  ctx      : Nat
  holds    : Tbl (Nat × Lanes)
  removals : List (Nat × Nat)
  seals    : List (Nat × Nat)
  sampled  : Nat
  sliceAt  : Nat
  sliceLen : Nat
  drain    : Option Nat
deriving DecidableEq, Repr

/-- A handler run in progress (R334, R336): the handled block, its fault, and the run's own faults. -/
structure HRun where
  blk   : Nat
  live  : Bool
  fault : FaultRec
  hflt  : W64
  kill  : Bool
deriving DecidableEq, Repr

/-- A core's scheduler and handler state (R295, R296, R333); `fresh` says that a HANDLER command has installed an image during the core's run, so
that its next run keeps nothing (R377). -/
structure Core where
  queue    : List Nat
  hrun     : Option HRun
  pipes    : Nat
  affinity : Option (Nat × Nat)
  fresh    : Bool
deriving DecidableEq, Repr

/-- A trace record (R363). -/
structure TRec where
  kind   : Nat
  core   : Nat
  ident  : W32
  block  : W32
  launch : W32
  time   : Nat
  label  : Lab
  offset : W16
  sweeps : W32
  mask   : Lanes
  a      : W64
  b      : W64
  seq    : Nat
  part   : Nat
  ext    : List Lab
deriving DecidableEq, Repr

/-- A cluster's trace buffer (R363, R366). -/
structure Cluster where
  buf   : List TRec
  lost  : Tbl Nat
  seq   : Nat
  gated : Bool
  gateAt : Option Nat
deriving DecidableEq, Repr

/-- A leaf translation (R267). -/
structure Leaf where
  frame : Nat
  large : Bool
  pin   : Bool
  shr   : Bool
  fill  : Bool
  wr    : Bool
  rd    : Bool
deriving DecidableEq, Repr

/-- A page resident in the attic (R272, R273, R277); `words` are the check words of its 128-byte sectors (R314). -/
structure Page where
  part     : Nat
  vpn      : Nat
  leaf     : Leaf
  data     : Cells
  dirty    : List Nat
  since    : Nat
  used     : Nat
  evicting : Bool
  words    : Tbl W32
deriving DecidableEq, Repr

/-- A cached translation: of a core's micro-TLB where `core` is given, else of its cluster's TLB (R271). -/
structure TlbEnt where
  cluster : Nat
  core    : Option Nat
  part    : Nat
  vpn     : Nat
  leaf    : Leaf
deriving DecidableEq, Repr

/-- A waiter of an interest entry (R305); directions 0 local, 1 −x, 2 +x, 3 −y, 4 +y. `mark` says that an interest of its was marked, which
its answer echoes (R318). -/
structure Waiter where
  dir      : Nat
  vmin     : Nat
  deadline : Nat
  mark     : Bool
deriving DecidableEq, Repr

/-- An interest-table entry (R305). -/
structure IEnt where
  part : Nat
  name : Nat
  ws   : List Waiter
  up   : Option (Nat × Nat)
deriving DecidableEq, Repr

/-- A cache shelf (R308). -/
structure Shelf where
  part    : Nat
  name    : Nat
  ver     : Nat
  payload : List W8
  used    : Nat
  words   : List W32
deriving DecidableEq, Repr

/-- A core stop's interest table and cache shelves (R305, R308). -/
structure Stop where
  ents    : List IEnt
  shelves : List Shelf
deriving DecidableEq, Repr

/-- The planes of a link (R299). -/
inductive Plane
  | request | reply | interest | tile | exchange
deriving DecidableEq, Repr

/-- What each flit carries beside its sectors (R299): its destination stop, its tenant, the mark and echo bits and the link check word over these
and the plane, with the clock at which it entered the mesh, its number in the order of entry and its number in the order of arrival at the input at
which it stands (R301, R302). The plane is the flit's own. -/
structure FHdr where
  dst    : Nat
  tenant : Nat
  mark   : Bool
  echo   : Bool
  born   : Nat
  num    : Nat
  arr    : Nat
  chk    : W32
deriving DecidableEq, Repr

/-- What a request, reply or exchange flit is for: an engine's access with its class, the core to which its mark is echoed and what a read finds
at the home (R318, R319), a reply, cellar traffic and what enters at another edge stop, which no engine awaits (R315, R323), a cellar miss, which
`n` bytes at cellar address `frame` answer at the stop `back` (R299), a PUBN, SEAL, STOPREF or SUBN on its way to a home (R299), or a row of an
XCHG (R313). -/
inductive FBody
  | access (core cls : Nat) (back : List W8)
  | reply (core cls : Nat)
  | cellar
  | miss (back frame n : Nat)
  | nameOp (op : Nat)
  | exch (uid gid : Nat)
deriving DecidableEq, Repr

/-- A flit in flight: the stop it has reached, the input at which it waits there (0 local, 1 −x, 2 +x, 3 −y, 4 +y) and that at the stop before,
its sectors with their check words (R314, R315) and the clock at which it reached this stop. One that is not `entered` still waits at its source
for room in the buffer there (R318). -/
structure Flit where
  plane   : Plane
  hdr     : FHdr
  src     : Nat
  at'     : Nat
  inp     : Nat
  prev    : Nat
  entered : Bool
  body    : FBody
  sectors : List (List W8 × W32)
  since   : Nat
deriving DecidableEq, Repr

/-- What passes a scale-up port (R320, R321): elements of a PUT or an A2AV for a segment, with the number
of the collective for an A2AV, the end of such a transfer under the number of its operation and, for an A2AV, of its collective, the
acknowledgement of that end, or what a rank has issued as a collective. -/
inductive XBody
  | elems (coll : Option Nat) (off : Nat) (bytes : List W8)
  | last (op : Nat) (coll : Option Nat)
  | ack (op : Nat)
  | coll (k : Nat) (c : RColl)
deriving DecidableEq, Repr

/-- A transfer between this package and another: the package it comes from or goes to, the partition it is for, the window, the sending rank,
what it carries, and the link check words of its flits of 256 bytes (R320). -/
structure XMsg where
  pkg  : Nat
  part : Nat
  wid  : Nat
  rank : Nat
  body : XBody
  words : List W32
deriving DecidableEq, Repr

/-- A scale-up port (R320): whether it is down, what it has sent, what has arrived and waits to be applied. Its retries stand with those of the links (R317). -/
structure Port where
  down : Bool
  out  : List XMsg
  inn  : List XMsg
deriving DecidableEq, Repr

/-- An interest in flight or held at a router input (R306). Direction 0 is that of the stop's own core; direction 5 is that of one which the stop
itself sends on, and which waits for room at its next stop (R307, R318). -/
structure IPkt where
  part     : Nat
  name     : Nat
  vmin     : Nat
  deadline : Nat
  stop     : Nat
  dir      : Nat
  hdr      : FHdr
deriving DecidableEq, Repr

inductive TileKind
  | tile | never | removed | lost
deriving DecidableEq, Repr

/-- A tile or notice in flight (R307), with the check words of its sectors (R314). `out` is 0 for one that has reached a router input; one that
starts at its stop and waits there for room holds the direction in which it will leave (R318). -/
structure TPkt where
  part    : Nat
  name    : Nat
  ver     : Nat
  payload : List W8
  words   : List W32
  kind    : TileKind
  stop    : Nat
  dir     : Nat
  out     : Nat
  hdr     : FHdr
deriving DecidableEq, Repr

/-- Error counters and state of a link (R317): retries, those in a row, retrainings, refetches, whether it is down (R384), the flits kept for
resending, by plane. -/
structure Link where
  retries : Nat
  run     : Nat
  retrain : Nat
  refetch : Nat
  down    : Bool
  kept    : Tbl (List Nat)
deriving DecidableEq, Repr

/-- A rate controller with its bucket (R319). -/
structure Rate where
  r      : Nat
  quiet  : Nat
  bucket : Nat
deriving DecidableEq, Repr

/-- An event of a function's ring (R351). -/
structure Event where
  gen   : W32
  code  : W32
  value : W64
  time  : Nat
deriving DecidableEq, Repr

/-- A command of the mailbox with its payload (R390). -/
inductive MbCmd
  | status
  | fwload (img : FwImage)
  | cfgwrite (rec : CfgRecord)
  | attest (nonce : List W64)
  | partset (part : Nat) (regs : List (Nat × W64))
  | bindfn (target part : Nat)
  | handler (part addr : Nat) (args : List W64) (caps : List (BitVec 128))
  | evring (addr len : Nat)
  | resetfn (target : Nat)
  | loadimg (addr : Nat)
  | graphstart (addr : Nat)
  | replay (w : WaitName)
  | fltcancel (w : WaitName)
  | winreg (wid base length nranks myrank : Nat)
  | rankmap (i : Nat) (v : W64)
  | bar2base (base : Nat)
  | syncsum (cursor : Nat)
  | unknown (code : Nat)
deriving DecidableEq, Repr

/-- A function's mailbox (R389): MBCMD as last written, the payload window's bytes by offset, the response bytes. `cmd` is the command whose doorbell rang, `turn` its place among the doorbells of all functions and `begun`
whether it has begun (R391). -/
structure Mailbox where
  busy   : Bool
  done   : Bool
  status : W16
  mbcmd  : W64
  pay    : Cells
  resp   : List W8
  cmd    : Option MbCmd
  turn   : Nat
  begun  : Bool
  missed : Nat
deriving DecidableEq, Repr

/-- A PCIe function (R322, R351); `debt` is the overrun debt of its context, which PDEBT reads (R349).
`writes` and `reads` are host accesses through BAR2 in arrival order that await their pages, `rdata` the bytes of the last host read, and
`snap` what SYNCSUM has still to return (R391). -/
structure Fn where
  part    : Option Nat
  gen     : W32
  seq     : W32
  ring    : Option (Nat × Nat)
  ptr     : Nat
  held    : List Event
  dropped : Nat
  stale   : Nat
  running : Bool
  paused  : Bool
  debt    : Nat
  bar2    : Nat
  graph   : Nat
  snap    : List W64
  mb      : Mailbox
  writes  : List (Nat × List W8)
  reads   : List (Nat × Nat)
  rdata   : List W8
deriving DecidableEq, Repr

/-- Cellar lines that are still to be asked for, from address `addr` of a partition's page and from cellar address `frame` on, up to `stop`; those of
`skip` are left out (R299, R323). -/
structure Fill where
  part  : Nat
  addr  : Nat
  frame : Nat
  stop  : Nat
  skip  : List Nat
deriving DecidableEq, Repr

/-- Error counts that SYNCSUM reports beside the links' (R316, R391): failures in transit, sectors refetched, sectors lost, and the
marks of exchange flits (R313). -/
structure ErrCnt where
  transit : Nat
  refetch : Nat
  lost    : Nat
  refire  : Nat
  exch    : Nat
deriving DecidableEq, Repr

/-- What the partition manager firmware does in its privileged view (R38): a SETS of a control register, a store to the cellar, where it
keeps page tables, or a PWR to a parked group. -/
inductive FwAct
  | sets (part n : Nat) (x : W64)
  | store (addr : Nat) (bytes : List W8)
  | pwr (uid gid : Nat) (sel x : W64)
deriving DecidableEq, Repr

/-- A save or a resume record in the trunk (R353, R354): its partition, its block, whether it is a save, the two slices that each hold a copy,
its bytes with their check words, and which of the copies fail them. -/
structure TrunkRec where
  part  : Nat
  uid   : Nat
  save  : Bool
  slices : List Nat
  bytes : List W8
  bad   : List Nat
deriving DecidableEq, Repr

/-- The management controller: flash, measurements and power state (R384 to R393). `badCellar`, `badPorts` and `badLinks` are the cellar
ports, scale-up ports and mesh links that fail to train at the next start-up, `downCellar` the cellar ports down now, `ilv` the interleave
they were trained with; `zeroed` says that the attic slices and scratchpads have been zeroed (R384). -/
structure Mgmt where
  record   : Option CfgRecord
  next     : Option CfgRecord
  bank0    : Option FwImage
  bank1    : Option FwImage
  active   : Bool
  useNext  : Bool
  m0       : BitVec 384
  m1       : BitVec 384
  m2       : BitVec 384
  m3       : BitVec 384
  unlocked : Bool
  recovery : Bool
  ready    : Bool
  slow     : Bool
  hot      : Bool
  stopped  : Bool
  ilv      : Nat
  badCellar : List Nat
  badPorts : List Nat
  badLinks : List Nat
  downCellar : List Nat
  zeroed   : Bool
deriving DecidableEq, Repr

/-- The whole machine. `firmware` is what the partition manager firmware is still to do, in order: an input of the machine (R38). -/
structure State where
  clock    : Nat
  free     : Nat
  agenda   : List Instr
  cur      : Option (Nat × Nat)
  evDone   : Bool
  blocks   : Tbl Block
  nextUid  : Nat
  ops      : Tbl Op
  nextOp   : Nat
  ranges   : Tbl RangeEnt
  nextRng  : Nat
  images   : Tbl Image
  nextImg  : Nat
  launches : Tbl Launch
  nextLch  : Nat
  graphs   : Tbl Graph
  nextGr   : Nat
  parts    : Tbl Part
  cores    : Tbl Core
  clusters : Tbl Cluster
  cellar   : Cells
  pages    : Tbl Page
  lost     : List Nat
  lumber   : Tbl Nat
  tlb      : List TlbEnt
  stops    : Tbl Stop
  ipkts    : List IPkt
  tpkts    : List TPkt
  links    : Tbl Link
  rates    : Tbl Rate
  fns      : Tbl Fn
  mgmt     : Mgmt
  flits    : List Flit
  nextFlit : Nat
  fills    : List Fill
  ports    : Tbl Port
  trunk    : Tbl TrunkRec
  errs     : ErrCnt
  firmware : List FwAct
deriving DecidableEq, Repr

/-- Why a step stops with a fault. -/
inductive Fault
  /-- Raised by an encoded instruction run while no group is issuing: an instruction acts only for a group. Safe: the machine stops. -/
  | noIssuer
deriving DecidableEq, Repr

/-- Why a step is refused. -/
inductive Refusal
  /-- Raised by the dispatcher for an instruction without a meaning. Safe: nothing is claimed of it. -/
  | notModelled (mnemonic : String)
deriving DecidableEq, Repr

/-- The management controller right after reset: nothing verified yet, measurements zero (R384, R388). -/
def Mgmt.reset : Mgmt :=
  { record := none, next := none, bank0 := none, bank1 := none, active := false, useNext := false,
    m0 := 0, m1 := 0, m2 := 0, m3 := 0, unlocked := false, recovery := false, ready := false, slow := false, hot := false,
    stopped := false, ilv := 0, badCellar := [], badPorts := [], badLinks := [], downCellar := [], zeroed := false }

/-- The machine right after reset: no block, launch, graph or operation, empty memories, no partition, clock 0 (R384). -/
def State.reset : State :=
  { clock := 0, free := 0, agenda := [], cur := none, evDone := false, blocks := [], nextUid := 1, ops := [], nextOp := 1,
    ranges := [], nextRng := 1, images := [], nextImg := 1, launches := [], nextLch := 1, graphs := [], nextGr := 1,
    parts := [], cores := [], clusters := [], cellar := [], pages := [], lost := [], lumber := [], tlb := [], stops := [],
    ipkts := [], tpkts := [], links := [], rates := [], fns := [], mgmt := Mgmt.reset,
    flits := [], nextFlit := 1, fills := [], ports := [], trunk := [], errs := { transit := 0, refetch := 0, lost := 0, refire := 0, exch := 0 },
    firmware := [] }

end Sys2Proof.Machine
end

