-- ==== Sys2Proof/Machine/Ops.lean ====
section
/-! DEFINITION. The named operations over registers, groups, blocks and partitions that every meaning uses: views of the issuing group,
register reads and writes, the control registers, taking a trap and returning from one. -/
namespace Sys2Proof.Machine
open Sys2Proof

abbrev Out := Host.Outcome State Fault Refusal

/-- The issuing group with its block, taken out of the state while an instruction works on them. -/
structure View where
  st  : State
  uid : Nat
  gid : Nat
  b   : Block
  g   : Group
deriving DecidableEq, Repr

/-- What an instruction does at its turn: it completes with float flags, is held back under a stall reason, traps without effect,
completes and then traps, or leaves a view as it stands (a handler run that ends). -/
inductive Res
  | done (v : View) (fl : BitVec 6)
  | hold (v : View) (why : Nat)
  | trap (cls code lane : Nat) (detail : BitVec 8) (data : W64)
  | after (v : View) (cls code : Nat) (data : W64)
  | raw (v : View)

/-! ### Defaults -/

def Core.init : Core := { queue := [], hrun := none, pipes := 0, affinity := none, fresh := false }
def Cluster.init : Cluster := { buf := [], lost := [], seq := 0, gated := false, gateAt := none }
def Stop.init : Stop := { ents := [], shelves := [] }
def Link.init : Link := { retries := 0, run := 0, retrain := 0, refetch := 0, down := false, kept := [] }
def Port.init : Port := { down := false, out := [], inn := [] }
def FHdr.zero : FHdr := { dst := 0, tenant := 0, mark := false, echo := false, born := 0, num := 0, arr := 0, chk := 0 }
def Part.init : Part :=
  { ctl := [], dir := [], names := [], wait := [], token := 0, faultq := [], wins := [], ranks := [], himage := none, events := [],
    settles := [], lid := 0, ctx := 0, holds := [], removals := [], seals := [], sampled := 0, sliceAt := 0, sliceLen := 0, drain := none }
def Mailbox.init : Mailbox := { busy := false, done := false, status := 0, mbcmd := 0, pay := [], resp := [], cmd := none, turn := 0, begun := false, missed := 0 }
def Fn.init : Fn :=
  { part := none, gen := 0, seq := 0, ring := none, ptr := 0, held := [], dropped := 0, stale := 0, running := true, paused := false, debt := 0,
    bar2 := 0, graph := 0, snap := [], mb := Mailbox.init, writes := [], reads := [], rdata := [] }
def ActTable.init : ActTable := { bank0 := [], bank1 := [], base0 := 0, base1 := 0, sel := false }
def Barrier.init : Barrier := { phase := false, expected := 0, pending := 0 }
def NodeRun.init : NodeRun :=
  { got := 0, phase := .idle, status := 0, child := 0, iter := 0, body := [], ready := 0, buf := [], held := none, wrote := false }
def Footprint.zero : Footprint := { groups := 0, rows := 0, scratch := 0, barriers := 0, carry := 0 }
def LaneState.start : LaneState := { mode := .run, prior := .run, handle := 0, ret := 0xFFFF, label := 0xFFFF }
def Frame.zero : Frame := { entry := 0, fend := 0, resume := 0xFFFF, parts := allLanes, rem := allLanes, sweeps := 0 }

/-! ### Views -/

/-- The view of group `gid` of block `uid`. -/
def viewAt (s : State) (uid gid : Nat) : Option View :=
  match tget s.blocks uid with
  | none => none
  | some b =>
    match b.groups[gid]? with
    | none => none
    | some g => some { st := s, uid := uid, gid := gid, b := b, g := g }

/-- The view of the group that issues in this step. -/
def currentView (s : State) : Option View :=
  match s.cur with
  | none => none
  | some (u, k) => viewAt s u k

/-- The state with the view's block and group written back. -/
def flush (v : View) : State :=
  { v.st with blocks := tput v.st.blocks v.uid { v.b with groups := listSet v.b.groups v.gid v.g } }

/-- The same view over a changed state. -/
def reload (v : View) (s : State) : View := (viewAt s v.uid v.gid).getD v

/-- Apply a change of the whole state while a view is open. -/
def onState (v : View) (f : State → State) : View := reload v (f (flush v))

def setG (v : View) (g : Group) : View := { v with g := g }
def setB (v : View) (b : Block) : View := { v with b := b }

def coreOf (s : State) (c : Nat) : Core := tgetD s.cores c Core.init
def partOf (s : State) (p : Nat) : Part := tgetD s.parts p Part.init
def fnOf (s : State) (f : Nat) : Fn := tgetD s.fns f Fn.init
def setCore (s : State) (c : Nat) (x : Core) : State := { s with cores := tput s.cores c x }
def setPart (s : State) (p : Nat) (x : Part) : State := { s with parts := tput s.parts p x }
def setFn (s : State) (f : Nat) (x : Fn) : State := { s with fns := tput s.fns f x }
def setBlk (s : State) (u : Nat) (b : Block) : State := { s with blocks := tput s.blocks u b }

/-- Core number: %core bits 7..0 of R37 read as 16 × y + x. -/
def blkCore (b : Block) : Nat :=
  match b.place with
  | some p => p.core
  | none => 0

def coreX (c : Nat) : Nat := c % 16
def coreY (c : Nat) : Nat := c / 16
/-- Cluster number 8y' + x' (R2, R348). -/
def clusterOf (c : Nat) : Nat := 8 * (coreY c / 2) + coreX c / 2
/-- %core of R37. -/
def coreReg (c : Nat) : Nat := (if coreX c < 8 then 0 else 256) + c
/-- Whether core `c` lies within the mask of clusters. -/
def ownsCore (mask : W64) (c : Nat) : Bool := mask.getLsbD (clusterOf c)

/-! ### Control registers (R38, R268, R335, R348, R364, R369, R371) -/

/-- Reset values of the control registers: PSTORE and POVER and their child copies 2, every other 0 (R348). -/
def ctlReset (n : Nat) : W64 := if n = 0x112 ∨ n = 0x116 ∨ n = 0x122 ∨ n = 0x126 then 2 else 0

def ctl (p : Part) (n : Nat) : W64 := tgetD p.ctl n (ctlReset n)
def setCtl (p : Part) (n : Nat) (x : W64) : Part := { p with ctl := tput p.ctl n x }
def pctl (s : State) (part n : Nat) : W64 := ctl (partOf s part) n

/-! ### Counters (R360) -/

def ctrOf (g : Group) (n : Nat) : W64 := g.ctrs.getD n 0
def ctrAdd (g : Group) (n : Nat) : Group := { g with ctrs := listSet g.ctrs n (ctrOf g n + 1) }

/-! ### Frames and lanes (R19, R21, R22) -/

def laneAt (g : Group) (l : Nat) : LaneState := g.lanes.getD l LaneState.start
def topFrame (g : Group) : Frame := g.frames.headD Frame.zero
def frameDepth (g : Group) : Nat := g.frames.length - 1
def setTop (g : Group) (f : Frame) : Group :=
  match g.frames with
  | [] => { g with frames := [f] }
  | _ :: t => { g with frames := f :: t }
def remaining (g : Group) : Lanes := (topFrame g).rem
def inRegion (g : Group) (L : Lab) : Bool := decide ((topFrame g).entry ≤ L) && decide (L < (topFrame g).fend)

/-- Change the state of every lane of `m`. -/
def mapLanes (g : Group) (m : Lanes) (f : LaneState → LaneState) : Group :=
  { g with lanes := (List.range 64).map (fun l => if m.getLsbD l then f (laneAt g l) else laneAt g l) }

def lanesIn (g : Group) (m : LaneMode) : Lanes := maskOf (fun l => (laneAt g l).mode == m)

/-- Handle register `n` is COMPLETE (R22). -/
def hComplete (g : Group) (n : HReg) : Bool :=
  match tget g.h n.toNat with
  | some (.complete ..) => true
  | _ => false

/-- Eligible(g, L) of R22. -/
def eligible (g : Group) (L : Lab) : Lanes :=
  maskOf (fun l => (remaining g).getLsbD l && (laneAt g l).label == L &&
    ((laneAt g l).mode == .wait || ((laneAt g l).mode == .gate && hComplete g (laneAt g l).handle)))

/-- The lowest wanted label at or above `k` in the region with an eligible lane (NextEligible of R22). -/
def nextEligible (g : Group) (k : Nat) : Option Nat :=
  (List.range 64).foldl (fun best l =>
    let L := (laneAt g l).label
    if (eligible g L).getLsbD l && inRegion g L && decide (k ≤ L.toNat) then
      match best with
      | none => some L.toNat
      | some n => some (min n L.toNat)
    else best) none

/-! ### Code words (R44, R56, R57) -/

def imageOf (s : State) (b : Block) : Option Image := tget s.images b.image

/-- The words a group fetches. -/
def wordsOf (s : State) (b : Block) (g : Group) : List W64 :=
  match imageOf s b with
  | some im => im.versions.getD (im.versions.length - 1 - g.code) []
  | none => []

def wordAt (ws : List W64) (i : Nat) : Option W64 := ws[i]?

def mkKind (w : W64) : Nat := (fld w 48 4).toNat
def mkLabel (w : W64) : Lab := fld w 32 16
def mkDist (w : W64) : Nat := (fld w 16 16).toNat
def isMarker (w : W64) : Bool := wMajor w == 1

/-- The first marker at or after word `i`, along the chain, for which `p` holds. -/
def findMarker (ws : List W64) (p : W64 → Bool) : Nat → Nat → Option Nat
  | 0, _ => none
  | n + 1, i =>
    match ws[i]? with
    | none => none
    | some w =>
      if !isMarker w then none
      else if p w then some i
      else if mkKind w ≥ 3 || mkDist w == 0 then none
      else findMarker ws p n (i + mkDist w)

/-- The word index of the marker of label `L`. -/
def markerIdx (ws : List W64) (L : Lab) : Option Nat :=
  findMarker ws (fun w => decide (mkKind w ≤ 2) && mkLabel w == L) (L.toNat + 1) 0

def markerKind (ws : List W64) (L : Lab) : Option Nat :=
  (markerIdx ws L).bind (fun i => (ws[i]?).map mkKind)

/-- FuncEnd of R74: the label of the next function-end marker at or after `L`. -/
def funcEnd (ws : List W64) (L : Lab) : Option Lab :=
  (markerIdx ws L).bind (fun i =>
    (findMarker ws (fun w => mkKind w == 2) ws.length i).bind (fun j => (ws[j]?).map mkLabel))

/-- `L` lies in a function's range: the nearest marker at or before it that opens or closes a function opens one. -/
def inFunction (ws : List W64) (L : Lab) : Bool :=
  let rec go : Nat → Nat → Bool → Bool
    | 0, _, open' => open'
    | n + 1, i, open' =>
      match ws[i]? with
      | none => open'
      | some w =>
        if !isMarker w || mkKind w ≥ 3 then open'
        else
          let open'' := if mkKind w == 1 then true else if mkKind w == 2 then false else open'
          if mkLabel w == L || mkDist w == 0 then open'' else go n (i + mkDist w) open''
  go (L.toNat + 1) 0 false

/-- The labels of the image as its header counts them; the base frame ends there, whatever markers its chain holds (DESIGN CHOICE,
log 25). -/
def labelCount (s : State) (b : Block) : Nat :=
  match imageOf s b with
  | some im => im.labels
  | none => 0

/-- LabelOK(g, L) of R74. -/
def labelOK (v : View) (L : Lab) : Bool :=
  let ws := wordsOf v.st v.b v.g
  decide (L.toNat < 0xFFFE) && decide (L.toNat < labelCount v.st v.b) && inRegion v.g L &&
    (if frameDepth v.g = 0 then !inFunction ws L else L != (topFrame v.g).fend)

/-- The word index of the group's position. -/
def posIdx (v : View) : Option Nat :=
  (markerIdx (wordsOf v.st v.b v.g) v.g.label).map (fun i => i + v.g.offset.toNat)

/-- The address of the word at a group's position (R44, R54). -/
def posAddr (v : View) : W64 :=
  match imageOf v.st v.b, posIdx v with
  | some im, some i => BitVec.ofNat 64 (im.addr + im.codeoff + 8 * i)
  | _, _ => 0

/-! ### Registers (R28 to R32) -/

/-- p0 reads true in every lane; a void register reads false. -/
def readP (g : Group) (p : PReg) : Lanes := if p = 0 then allLanes else tgetD g.p p.toNat 0
/-- A write to p0 is discarded; lanes outside `m` keep their value, false when the register was void (R29). -/
def writeP (g : Group) (p : PReg) (m new : Lanes) : Group :=
  if p = 0 then g else { g with p := tput g.p p.toNat ((new &&& m) ||| (tgetD g.p p.toNat 0 &&& ~~~m)) }
def readS (g : Group) (r : SReg) : W64 := tgetD g.s r.toNat 0
def writeS (g : Group) (r : SReg) (x : W64) : Group := { g with s := tput g.s r.toNat x }
def readC (g : Group) (r : CReg) : Cap := tgetD g.c r.toNat { bits := 0, tag := false }
def writeC (g : Group) (r : CReg) (x : Cap) : Group := { g with c := tput g.c r.toNat x }
def writeH (g : Group) (r : HReg) (x : HVal) : Group :=
  { g with h := tput g.h r.toNat x, acq := g.acq.map (fun k => if k % 64 = r.toNat then k / 64 * 64 + 16 else k) }
def readV (g : Group) (r : Nat) : Row := tgetD g.v r zeroRow
/-- Lanes outside `m` keep their contents, zero when the register was void (R29). -/
def writeVreg (g : Group) (r : Nat) (m : Lanes) (new : Row) : Group :=
  { g with v := tput g.v r (rowMerge m new (readV g r)) }

/-- EXEC(g) of R22 under a header. -/
def execOf (h : Hdr) (g : Group) : Lanes :=
  g.active &&& (if h.neg then ~~~(readP g h.psel) else readP g h.psel)

/-- The queue armed under the name of vector index `r`, if any (R30). -/
def armed (g : Group) (r : Nat) : Option (Nat × Queue) :=
  if 248 ≤ r then (tget g.q (r - 248)).map (fun q => (r - 248, q)) else none

/-- The number of entries of a stream (R176). -/
def queueEntries (q : Queue) : Nat := (q.n + 63) / 64

/-! ### Free values -/

/-- The next free value, and the counter past it (log 3). -/
def freeNext (s : State) : W64 × State := (Config.freeWord s.free, { s with free := s.free + 1 })
/-- A free value for each lane, and the counter past them (log 3). -/
def freeLanes (s : State) : (Nat → W64) × State := (fun l => Config.freeWord (s.free + l), { s with free := s.free + 64 })

/-! ### Operations and handles (R31) -/

def addOp (s : State) (o : Op) : Nat × State := (s.nextOp, { s with ops := tput s.ops s.nextOp o, nextOp := s.nextOp + 1 })

def delOp (s : State) (id : Nat) : State :=
  { s with ops := tdel s.ops id, ranges := s.ranges.filter (fun e => e.2.op != id) }

/-- Every handle register bound to operation `id` becomes COMPLETE, wherever HMOV has moved the binding. -/
def completeH (g : Group) (id : Nat) (st : W16) (bm : Lanes) (pg : List Nat) : Group :=
  { g with h := g.h.map (fun e => if e.2 = .pending id then (e.1, .complete st bm pg) else e) }

/-- The s-register and the handle registers bound to operation `id`: their completion, once observed, acquires (R186). Each is kept as
64 × s-register + handle register, 16 for none. -/
def acqH (g : Group) (id : Nat) (b : SReg) : Group :=
  { g with acq := (g.h.filter (fun e => e.2 == .pending id)).foldl (fun l e => nput l (64 * b.toNat + e.1)) (nput g.acq (64 * b.toNat + 16)) }

/-- The home at which an operation is logged (R193). -/
def logPlace : OpBody → LogPlace
  | .atomg _ _ _ _ _ _ addr _ _ => .addr addr
  | .publish name _ _ _ _ _ => .name name
  | .stopref name => .name name
  | .subn name _ _ => .name name
  | _ => .other

/-- The log of a block with the result of a keyed operation (R193). -/
def logResult (b : Block) (o : Op) (st : W16) (val : W64) (fl : BitVec 6) (bytes : List W8) : Block :=
  match o.key with
  | some k => { b with log := b.log ++ [{ place := logPlace o.body, commit := k.commit, seq := k.seq, status := st, val := val, flags := fl, bytes := bytes }] }
  | none => b

/-- Operation `id` finishes with a status: its handle becomes COMPLETE, it leaves the outstanding ones, its range entries go, and a keyed
one is logged. -/
def finishOp (s : State) (id : Nat) (st : W16) (bm : Lanes := 0) (pg : List Nat := []) (val : W64 := 0) (fl : BitVec 6 := 0)
    (bytes : List W8 := []) : State :=
  match tget s.ops id with
  | none => s
  | some o =>
    let s := delOp s id
    match tget s.blocks o.blk with
    | none => s
    | some b =>
      let b := logResult b o st val fl bytes
      match b.groups[o.gid]? with
      | none => setBlk s o.blk b
      | some g => setBlk s o.blk { b with groups := listSet b.groups o.gid (completeH g id st bm pg) }

/-- Change a group of a block. -/
def modGroup (s : State) (uid gid : Nat) (f : Group → Group) : State :=
  match tget s.blocks uid with
  | none => s
  | some b =>
    match b.groups[gid]? with
    | none => s
    | some g => setBlk s uid { b with groups := listSet b.groups gid (f g) }

def opsOf (s : State) (uid : Nat) : Tbl Op := s.ops.filter (fun e => e.2.blk == uid)
def opsOfG (s : State) (uid gid : Nat) : Tbl Op := s.ops.filter (fun e => e.2.blk == uid && e.2.gid == gid)

/-- The s-register that an outstanding ATOMG or FETCHN will write (R186, R227). -/
def opSreg : OpBody → Option SReg
  | .atomg _ _ _ _ _ b _ _ _ => some b
  | .fetchn _ _ _ _ _ l _ => some l
  | _ => none

def sPending (v : View) (r : SReg) : Bool := (opsOfG v.st v.uid v.gid).any (fun e => opSreg e.2.body == some r)

/-- An outstanding MMA of the group holds vector register `r` pending (R203). -/
def vPending (v : View) (r : Nat) : Bool :=
  (opsOfG v.st v.uid v.gid).any (fun e =>
    match e.2.body with
    | .mma m => decide (m.d ≤ r) && decide (r < m.d + m.n)
    | _ => false)

/-- Entries of store queue `k` pushed and not yet written at their homes (R97, R178). -/
def entriesOut (v : View) (k : Nat) : Nat :=
  ((opsOfG v.st v.uid v.gid).filter (fun e =>
    match e.2.body with
    | .entry j _ _ _ _ => j.toNat == k
    | _ => false)).length

/-! ### Trace (R363, R367) -/

/-- The identity word of a trace record. -/
def traceIdent (v : View) : W32 :=
  BitVec.ofNat 32 (v.gid + 16 * v.b.stage.toNat + 128 * v.b.depth + 1024 * frameDepth v.g + 16384 * v.b.serial)

/-- Units of 64 bytes that records take in a buffer, their extensions included; a buffer of 64 KiB has 1,024 (R363). -/
def bufUnits (buf : List TRec) : Nat := buf.foldl (fun n r => n + 1 + r.ext.length / 32) 0

/-- Append a record to the cluster's buffer, or count it as dropped when the buffer is full (R363, R365). -/
def pushRec (s : State) (r : TRec) : State :=
  let cl := clusterOf r.core
  let c := tgetD s.clusters cl Cluster.init
  let c' :=
    if bufUnits (c.buf ++ [r]) ≤ 1024 then { c with buf := c.buf ++ [{ r with seq := c.seq }], seq := c.seq + 1 }
    else { c with lost := tput c.lost r.part (tgetD c.lost r.part 0 + 1) }
  { s with clusters := tput s.clusters cl c' }

/-- Is a trace kind written: TCTL.en and the kind's own bit (R364). -/
def traceOn (s : State) (part bit : Nat) : Bool := (pctl s part 0x170).getLsbD 0 && (pctl s part 0x170).getLsbD bit

/-- A record of the view's path. -/
def tracePath (v : View) (kind : Nat) (label : Lab) (offset : W16) (mask : Lanes) (a b : W64) (ext : List Lab := []) : View :=
  let r : TRec :=
    { kind := kind, core := blkCore v.b, ident := traceIdent v, block := v.b.index, launch := v.b.lid, time := v.st.clock,
      label := label, offset := offset, sweeps := (topFrame v.g).sweeps, mask := mask, a := a, b := b, seq := 0,
      part := v.b.part, ext := ext }
  { v with st := pushRec v.st r }

/-- Fold of R362. -/
def foldSig (sig : W64) (L : Lab) (m : Lanes) : W64 :=
  let h := mix m &&& 0x0000FFFFFFFFFFFF
  mix ((sig ^^^ (((L.setWidth 64) <<< 48) ||| h)) + 0x2B7E151628AED2A6)

/-! ### Taking a trap (R333, R337) -/

/-- Trap classes and codes of R331. -/
def fatalTrap (cls code : Nat) : Bool :=
  match cls with
  | 0 => true
  | 1 => code == 8 || code == 9 || code == 10
  | 3 => code == 4
  | _ => false

/-- The record of a trap at the group's position (R336). -/
def faultAt (v : View) (cls code lane : Nat) (detail : BitVec 8) (data : W64) (h : HReg := 0) : FaultRec :=
  { cls := cls, code := code, lane := lane, gid := v.gid, handle := h, detail := detail, frame := frameDepth v.g,
    label := v.g.label, offset := v.g.offset, addr := posAddr v, data := data }

/-- HFLT after one more fault of the run (R336, R337). -/
def hfltAdd (hf : W64) (f : FaultRec) : W64 :=
  let cnt := (fld hf 32 8).toNat
  if cnt = 0 then BitVec.ofNat 64 (2 ^ 32 + f.offset.toNat * 65536 + f.cls * 256 + f.code)
  else if cnt < 255 then hf + 0x100000000 else hf

/-- Record a fault on a block that is not a handler context; of several in one clock the lowest seat stands (R333). A block that is being
stopped or retired takes no further fault. -/
def markFault (b : Block) (f : FaultRec) : Block :=
  match b.ending, b.fault with
  | some _, _ => b
  | none, none => { b with fault := some f }
  | none, some o => if !b.queued && decide (f.gid < o.gid) && b.groups.any (fun g => g.run != .parked && g.run != .ended) then { b with fault := some f } else b

/-- One instruction issued on a pipe of the group's core (R41). -/
def usePipe (s : State) (c : Nat) : State :=
  let k := coreOf s c
  setCore s c { k with pipes := k.pipes + 1 }

/-- The handler context notes its own fault and goes on at the next word, past the mask word when S is set (R337). -/
def handlerFault (v : View) (f : FaultRec) : View :=
  let c := coreOf v.st (blkCore v.b)
  let st := usePipe (match c.hrun with
    | some r => setCore v.st (blkCore v.b) { c with hrun := some { r with hflt := hfltAdd r.hflt f } }
    | none => v.st) (blkCore v.b)
  let w := (posIdx v).bind (fun i => (wordsOf v.st v.b v.g)[i]?)
  let n : Nat := match w with
    | some w => if wSafe w then 2 else 1
    | none => 1
  { v with st := st, g := { ctrAdd v.g 0 with offset := v.g.offset + BitVec.ofNat 16 n, issued := true, tried := true, run := .issuing } }

/-- TAKE A TRAP: in the handler context it is recorded and the run goes on; any other block keeps its fault record and every group of it
leaves issue at the next clock (R333, R337). The instruction has made no change (R55). -/
def takeTrap (v : View) (f : FaultRec) : View :=
  match v.b.kind with
  | .handler => handlerFault v f
  | _ => { v with b := markFault v.b f, g := { v.g with tried := true } }

/-- A trap taken after an instruction that has completed: `f` names its word (R90, R114, R132). -/
def trapAfter (v : View) (f : FaultRec) : View :=
  match v.b.kind with
  | .handler =>
    let c := coreOf v.st (blkCore v.b)
    match c.hrun with
    | some r => { v with st := setCore v.st (blkCore v.b) { c with hrun := some { r with hflt := hfltAdd r.hflt f } } }
    | none => v
  | _ => { v with b := markFault v.b f }

/-- An imprecise trap of a block at a word that one of its groups issued earlier (R183, R186, R208, R229). -/
def lateTrap (s : State) (uid : Nat) (f : FaultRec) : State :=
  match tget s.blocks uid with
  | none => s
  | some b =>
    match b.kind with
    | .handler => s
    | _ => setBlk s uid { markFault b f with faultAt := if b.fault.isSome then b.faultAt else s.clock }

/-- The record of a late trap at the issuing word of an operation; its handle is named for codes 5, 7 and 9 of class 1, and its data is the generic
address of the access that failed (R336). -/
def lateFault (s : State) (o : Op) (cls code : Nat) (detail : BitVec 8) : FaultRec :=
  let addr := match tget s.blocks o.blk with
    | some b => match b.groups[o.gid]? with
      | some g => posAddr { st := s, uid := o.blk, gid := o.gid, b := b, g := { g with label := o.label, offset := o.offset } }
      | none => 0
    | none => 0
  { cls := cls, code := code, lane := 255, gid := o.gid,
    handle := if cls = 1 ∧ (code = 5 ∨ code = 7 ∨ code = 9) then o.h else 0, detail := detail, frame := o.frame, label := o.label,
    offset := o.offset, addr := addr, data := o.faddr }

/-! ### Return from a trap (R340) -/

/-- The block returns to issue with every group at its own position: groups parked by the trap issue again (R340 mode 0). -/
def resumeGroups (b : Block) (newest : Nat) : Block :=
  { b with fault := none, queued := false, halted := false,
           groups := b.groups.map (fun g => if g.run = .parked then { g with run := if g.active = 0 then .idle else .issuing, code := newest, stall := 0 } else g) }

end Sys2Proof.Machine
end

