-- ==== Sys2Proof/Machine/Fabric.lean ====
section
/-! DEFINITION. The mesh: core stops and edge stops (R297, R298), planes and routes (R299, R300), the service of router outputs (R301, R302),
die crossings and check words (R304, R314 to R316), links (R317), marks and rates (R318, R319). What moves the flits is in Mesh.lean. -/
namespace Sys2Proof.Machine
open Sys2Proof

/-! ### Stops (R297, R298) -/

/-- Stop numbers are 16 × y + x: core stops 0..255, edge stops 256..271 at y = 16. -/
def edgeStop (x : Nat) : Nat := 256 + x
def isEdge (stop : Nat) : Bool := decide (256 ≤ stop) && decide (stop < 272)

/-- What the edge stop of column `x` holds (R298). -/
inductive EdgeUnit
  | cellarPort (p : Nat)
  | scaleUp (p : Nat)
  | hostLink
  | commandProcessors (first : Nat)
  | management
deriving DecidableEq, Repr

def edgeHolds (x : Nat) : List EdgeUnit :=
  if x ≤ 3 then [.cellarPort x, .scaleUp x]
  else if x ≤ 5 then [.scaleUp x]
  else if x = 6 then [.hostLink]
  else if x = 7 then [.commandProcessors 0]
  else if x ≤ 11 then [.cellarPort (x - 4), .scaleUp (x - 2)]
  else if x ≤ 13 then [.scaleUp (x - 2)]
  else if x = 14 then [.management]
  else [.commandProcessors 8]

/-- The edge stop that holds a unit. -/
def edgeOf (u : EdgeUnit) : Option Nat := (firstFrom (fun x => (edgeHolds x).contains u) 0 16).map edgeStop

/-- The edge stop of a partition's command processor; a child's is its parent's. -/
def procStop (part : Nat) : Nat := (edgeOf (.commandProcessors (if part % 16 < 8 then 0 else 8))).getD 263

/-- The cellar port of an address under `w`-way interleave: bits (11 + log2 w)..12 (R278). -/
def cellarPort (w addr : Nat) : Nat := if w = 0 then 0 else addr / 4096 % w
def cellarStop (s : State) (addr : Nat) : Nat := (edgeOf (.cellarPort (cellarPort s.mgmt.ilv addr))).getD 256

/-- The stop in a direction: 1 −x, 2 +x, 3 −y, 4 +y. -/
def neighbour (c dir : Nat) : Nat :=
  match dir with
  | 1 => c - 1
  | 2 => c + 1
  | 3 => c - 16
  | 4 => c + 16
  | _ => c

def opposite (dir : Nat) : Nat :=
  match dir with
  | 1 => 2
  | 2 => 1
  | 3 => 4
  | 4 => 3
  | d => d

/-- A stop has a link in a direction: an edge stop only to (x, 15) (R297). -/
def hasLink (c dir : Nat) : Bool :=
  if isEdge c then dir == 3
  else
    match dir with
    | 1 => coreX c != 0
    | 2 => coreX c != 15
    | 3 => coreY c != 0
    | 4 => decide (c < 256)
    | _ => false

/-! ### Planes and routes (R299, R300) -/

/-- The number of a plane, in the order of R299. -/
def planeNum : Plane → Nat
  | .request => 0
  | .reply => 1
  | .interest => 2
  | .tile => 3
  | .exchange => 4

/-- Planes that move along the row first. -/
def planeXY : Plane → Bool
  | .reply | .tile => false
  | _ => true

/-- The next direction along the row first, between core stops. -/
def dirTo (c home : Nat) : Nat :=
  if coreX c < coreX home then 2 else if coreX home < coreX c then 1 else if coreY c < coreY home then 4 else if coreY home < coreY c then 3 else 0

/-- The next direction along the column first, between core stops. -/
def dirToY (c home : Nat) : Nat :=
  if coreY c < coreY home then 4 else if coreY home < coreY c then 3 else if coreX c < coreX home then 2 else if coreX home < coreX c then 1 else 0

/-- The output that a flit takes at a stop: an edge stop enters the mesh at (x, 15), and a flit bound for one goes to (x, 15) and then steps
down (R300); 0 at its destination. -/
def routeDir (p : Plane) (c dst : Nat) : Nat :=
  if c = dst then 0
  else if isEdge c then 3
  else
    let b := if isEdge dst then dst - 16 else dst
    if c = b then 4 else if planeXY p then dirTo c b else dirToY c b

/-- The stops that a flit passes, its source and its destination with them. -/
def routePath (p : Plane) (dst : Nat) : Nat → Nat → List Nat
  | 0, c => [c]
  | n + 1, c => if c = dst then [c] else c :: routePath p dst n (neighbour c (routeDir p c dst))

/-- The path from one stop to another; no path is longer than 32 links. -/
def route (p : Plane) (src dst : Nat) : List Nat := routePath p dst 34 src

/-- A link crosses the die boundary, between x = 7 and x = 8 on rows 0..15 (R304). -/
def crossesDie (c dir : Nat) : Bool := !isEdge c && ((dir == 2 && coreX c == 7) || (dir == 1 && coreX c == 8))

/-! ### Homes (R222, R272) -/

/-- The core numbers of a partition's stops in ascending %core (R222). -/
def stopsOf (s : State) (part : Nat) : List Nat :=
  let mask := pctl s part 0x110
  let all := (List.range 256).filter (fun c => ownsCore mask c)
  all.filter (fun c => decide (coreX c < 8)) ++ all.filter (fun c => decide (8 ≤ coreX c))

/-- Home stop of a 64 KiB piece, as an index among the partition's stops (R272). -/
def homeIdx (s : State) (part vpn : Nat) : Nat := (mix (BitVec.ofNat 64 vpn)).toNat % (stopsOf s part).length

/-- The home stop of an address; none in a partition without clusters. -/
def homeStop (s : State) (part addr : Nat) : Option Nat := (stopsOf s part)[homeIdx s part (addr / 65536)]?

/-! ### Names (R219, R221, R222) -/

/-- Name of a tile as a number: tensor id, iteration, tile (R219). -/
def nameOf (tid iter tile : Nat) : Nat := tid * 2 ^ 48 + iter * 2 ^ 32 + tile
def nameTid (n : Nat) : Nat := n / 2 ^ 48
def nameIter (n : Nat) : Nat := n / 2 ^ 32 % 65536
def nameTile (n : Nat) : Nat := n % 2 ^ 32

def dirEntry (s : State) (part tid : Nat) : Option (BitVec 256) := tget (partOf s part).dir tid

/-- A field of a directory entry. -/
def dfld (e : BitVec 256) (lo n : Nat) : Nat := (e.extractLsb' lo n).toNat

def dPbound (e : BitVec 256) : Bool := dfld e 230 1 == 1
def dPstage (e : BitVec 256) : Nat := dfld e 227 3
def dMaxlen (e : BitVec 256) : Nat := dfld e 175 17
def dPset (e : BitVec 256) : Nat := dfld e 160 8
def dPlaunch (e : BitVec 256) : Nat := dfld e 128 32

/-- Pick of R222. -/
def pickOf (e : BitVec 256) (name : Nat) : Nat :=
  match dfld e 225 2 with
  | 0 => 0
  | 1 => nameTile name
  | 2 => nameTile name / dfld e 208 16
  | _ => (mix (BitVec.ofNat 64 (nameIter name * 2 ^ 32 + nameTile name))).toNat % 2 ^ 32

/-- The core whose stop is the home of a name (R222). -/
def nameHome (s : State) (part name : Nat) : Option Nat :=
  match dirEntry s part (nameTid name) with
  | none => none
  | some e =>
    let st := stopsOf s part
    st[(dfld e 192 8 + pickOf e name) % (dfld e 200 8 + 1) % st.length]?

/-! ### Links (R297, R317) -/

/-- The number of the link that leaves a stop in a direction. -/
def linkId (stop dir : Nat) : Nat := stop * 8 + dir
def linkOf (s : State) (k : Nat) : Link := tgetD s.links k Link.init
def setLink (s : State) (k : Nat) (l : Link) : State := { s with links := tput s.links k l }

/-- A flit's header failed on a link, and is sent again (R317). -/
def retryLink (s : State) (k : Nat) : State := let l := linkOf s k; setLink s k { l with retries := l.retries + 1, run := l.run + 1 }

/-- A sector failed on its way over a link: the sender, which still keeps it, sends it again (R316, R317). -/
def refetchLink (s : State) (k : Nat) : State :=
  let l := linkOf s k
  { setLink s k { l with refetch := l.refetch + 1 } with errs := { s.errs with transit := s.errs.transit + 1 } }

/-- Traffic passes a link that is neither down nor due for retraining (R317, R384). -/
def linkUp (s : State) (k : Nat) : Bool := let l := linkOf s k; !l.down && decide (l.run < 64)

/-- A flit passed a link: its retries in a row end, and it is among the last 16 that the sender keeps (R317). -/
def linkPass (s : State) (k plane num : Nat) : State :=
  let l := linkOf s k
  let old := (tget l.kept plane).getD []
  setLink s k { l with run := 0, kept := tput l.kept plane ((old ++ [num]).drop ((old.length + 1) - 16)) }

/-! ### Rates (R319) -/

/-- The ceiling of a tenant's engine class: 0 copy, 1 queue, 2 put, 3 interest; a child takes the lower of its own and its parent's (R319,
R348). A ceiling of 0, PCEIL's reset value, sets no limit, so that the other one holds alone (log 39). -/
def ceilingOf (s : State) (part cls : Nat) : Nat :=
  let own := (fld (pctl s part 0x114) (16 * cls) 16).toNat
  if 128 ≤ part then
    let up := (fld (pctl s (part % 16) 0x114) (16 * cls) 16).toNat
    if own = 0 then up else if up = 0 then own else min own up
  else own

def rateKey (core part cls : Nat) : Nat := core * 2048 + part * 4 + cls
def rateOf (s : State) (core part cls : Nat) : Rate :=
  tgetD s.rates (rateKey core part cls) { r := ceilingOf s part cls, quiet := 0, bucket := 1024 }

/-- An echoed mark cuts the rate and starts the quiet time again; traffic outside the four classes (class 4) has no controller. -/
def cutRate (s : State) (core part cls : Nat) : State :=
  if 4 ≤ cls then s
  else
  let c := ceilingOf s part cls
  let x := rateOf s core part cls
  { s with rates := tput s.rates (rateKey core part cls) { x with r := max (c / 64) (x.r - x.r / 8), quiet := 0 } }

/-- After 4,096 quiet clocks the rate rises toward its ceiling. -/
def riseRate (c : Nat) (x : Rate) : Rate := if 4096 ≤ x.quiet then { x with r := min c (x.r + c / 64), quiet := 0 } else x

/-- One clock of a controller: the quiet time grows, and the bucket gains r bytes up to 1,024. -/
def rateTick (x : Rate) : Rate := { x with quiet := x.quiet + 1, bucket := min 1024 (x.bucket + x.r) }

/-- The bucket of an engine class of a core holds the size of a flit. -/
def bucketHolds (s : State) (core part cls size : Nat) : Bool :=
  decide (4 ≤ cls) || ceilingOf s part cls == 0 || decide (size ≤ (rateOf s core part cls).bucket)

/-- The size is taken from the bucket. -/
def takeBucket (s : State) (core part cls size : Nat) : State :=
  if 4 ≤ cls ∨ ceilingOf s part cls = 0 then s
  else
    let x := rateOf s core part cls
    { s with rates := tput s.rates (rateKey core part cls) { x with bucket := x.bucket - size } }

/-- One clock of every controller. -/
def rateClock (s : State) : State :=
  { s with rates := s.rates.map (fun e => (e.1, riseRate (ceilingOf s (e.1 / 4 % 512) (e.1 % 4)) (rateTick e.2))) }

/-- After the restore of a partition every controller of it starts at its ceiling again. -/
def resetRates (s : State) (part : Nat) : State :=
  { s with rates := s.rates.map (fun e => if e.1 / 4 % 512 = part then (e.1, { e.2 with r := ceilingOf s part (e.1 % 4) }) else e) }

/-! ### Marks (R318) -/

/-- A tenant's flits beyond which the next one is marked: max(1, ⌊b ÷ 16⌋). -/
def markLimit (s : State) (part : Nat) : Nat := max 1 ((fld (pctl s part 0x113) 0 8).toNat / 16)

/-- Flits in the buffer of a router output on a plane. -/
def inBuffer (s : State) (p : Plane) (stop dir : Nat) : List Flit :=
  s.flits.filter (fun f => f.entered && f.plane == p && f.at' == stop && routeDir p stop f.hdr.dst == dir)

/-- The output that an interest takes at its stop. -/
def interestOut (s : State) (p : IPkt) : Nat := dirTo p.stop ((nameHome s p.part p.name).getD p.stop)

/-- Interests in that buffer: those that have come in over a link and go on through it. -/
def interestsIn (s : State) (stop dir : Nat) : List IPkt :=
  s.ipkts.filter (fun p => p.stop == stop && p.dir != 0 && decide (p.dir ≤ 4) && interestOut s p == dir)

/-- What shares the buffer of 16 flits of an output on a plane: the tenants of its flits, and on the interest plane of its interests too. -/
def bufTenants (s : State) (p : Plane) (stop dir : Nat) : List Nat :=
  (inBuffer s p stop dir).map (fun f => f.hdr.tenant) ++ (if p = .interest then (interestsIn s stop dir).map (fun x => x.part) else [])

/-- The buffer has room for one flit more. -/
def bufRoom (s : State) (p : Plane) (stop dir : Nat) : Bool := decide ((bufTenants s p stop dir).length < 16)

/-- A tenant has too many flits there already: the next one is marked. -/
def bufMarks (s : State) (p : Plane) (stop dir tenant : Nat) : Bool :=
  dir != 0 && decide (markLimit s tenant < (bufTenants s p stop dir).count tenant)

/-! ### Check words (R299, R314, R315, R317) -/

/-- The link check word of a header: over its destination and tenant in two bytes each, its plane, and its mark and echo bits (log 6). -/
def hdrWord (p : Plane) (h : FHdr) : W32 :=
  crc32c (leBytes 2 h.dst ++ leBytes 2 h.tenant ++ leBytes 1 (planeNum p) ++ leBytes 1 ((if h.mark then 1 else 0) + (if h.echo then 2 else 0)))
def hdrGood (p : Plane) (h : FHdr) : Bool := hdrWord p h == h.chk
def sealHdr (p : Plane) (h : FHdr) : FHdr := { h with chk := hdrWord p h }

/-- A flit that enters the buffer of its output at a stop keeps its mark, or takes one when its tenant has too many flits there. -/
def markAt (s : State) (f : Flit) : Flit :=
  let dir := routeDir f.plane f.at' f.hdr.dst
  { f with hdr := sealHdr f.plane { f.hdr with mark := f.hdr.mark || bufMarks s f.plane f.at' dir f.hdr.tenant, arr := s.nextFlit } }

/-- A sector of 128 bytes; the bytes that a shorter piece leaves are zero. -/
def padSector (bs : List W8) : List W8 := bs ++ List.replicate (128 - bs.length) 0

/-- Bytes of a transfer in sectors of 128 bytes, each with its check word, as the engine that makes them sends them. -/
def sectorsOf : Nat → List W8 → List (List W8 × W32)
  | 0, _ => []
  | n + 1, bs => if bs.isEmpty then [] else (padSector (bs.take 128), crc32c (padSector (bs.take 128))) :: sectorsOf n (bs.drop 128)

def sectors (bs : List W8) : List (List W8 × W32) := sectorsOf ((bs.length + 127) / 128) bs

/-- The check words of stored bytes. -/
def checkWords (bs : List W8) : List W32 := (sectors bs).map (fun x => x.2)

/-- Every sector matches its check word: the test at a die crossing, at the home and at any exit (R304, R315). -/
def sectorsGood (l : List (List W8 × W32)) : Bool := l.all (fun x => crc32c x.1 == x.2)

/-! ### Flits -/

/-- Sectors that one flit of a plane holds (R299). -/
def flitHolds : Plane → Nat
  | .request | .interest => 1
  | _ => 4

/-- A list in pieces of `k`. -/
def chunksOf {α : Type} (k : Nat) : Nat → List α → List (List α)
  | 0, _ => []
  | n + 1, l => if l.isEmpty then [] else l.take k :: chunksOf k n (l.drop k)

/-- The sectors of a transfer as its flits hold them; one without data is a flit too. -/
def flitsOf (p : Plane) (secs : List (List W8 × W32)) : List (List (List W8 × W32)) :=
  if secs.isEmpty then [[]] else chunksOf (flitHolds p) secs.length secs

/-- A flit may enter the mesh at its source: the buffer of its output has room, and no earlier flit of the plane waits there (R301, R318). -/
def mayEnter (s : State) (f : Flit) : Bool :=
  let dir := routeDir f.plane f.src f.hdr.dst
  (dir == 0 || bufRoom s f.plane f.src dir) &&
    s.flits.all (fun g => g.entered || g.plane != f.plane || g.src != f.src || decide (f.hdr.num ≤ g.hdr.num))

/-- It enters the mesh in this clock. -/
def enterMesh (s : State) (f : Flit) : Flit := markAt s { f with entered := true, hdr := { f.hdr with born := s.clock }, since := s.clock }

/-- One flit is sent: it enters the mesh at its source's router with its sectors, or waits there (R299, R302, R318). -/
def sendOne (s : State) (p : Plane) (tenant src dst : Nat) (echo : Bool) (body : FBody) (secs : List (List W8 × W32)) : State :=
  let f : Flit :=
    { plane := p, hdr := { FHdr.zero with dst := dst, tenant := tenant, echo := echo, born := s.clock, num := s.nextFlit, arr := s.nextFlit }, src := src,
      at' := src, inp := 0, prev := 0, entered := false, body := body, sectors := secs, since := s.clock }
  { s with flits := s.flits ++ [if mayEnter s f then enterMesh s f else f], nextFlit := s.nextFlit + 1 }

/-- A transfer is sent in the flits of its plane; the first carries the echo (R299, R318). -/
def sendSectors (s : State) (p : Plane) (tenant src dst : Nat) (echo : Bool) (body : FBody) (secs : List (List W8 × W32)) : State :=
  ((flitsOf p secs).foldl (fun (a : State × Bool) x => (sendOne a.1 p tenant src dst a.2 body x, false)) (s, echo)).1

/-- A transfer whose data enter the device here, and take their check words (R315). -/
def sendFlit (s : State) (p : Plane) (tenant src dst : Nat) (echo : Bool) (body : FBody) (data : List W8) : State :=
  sendSectors s p tenant src dst echo body (sectors data)

/-- An engine's access to an address of its partition: a request flit from its core to the home, its size taken from the class's bucket, with the
data of a write or for the data `back` of a read. A partition without stops has no home. -/
def engineFlit (s : State) (core part cls addr : Nat) (data back : List W8) : State :=
  match homeStop s part addr with
  | none => s
  | some h => sendFlit (takeBucket s core part cls 128) .request part core h false (.access core cls back) data

/-- A cellar miss of `n` bytes at cellar address `frame`: a request flit from a stop to the port's edge stop, which answers with the bytes (R299,
R323). -/
def cellarMiss (s : State) (part stop frame n : Nat) : State := sendFlit s .request part stop (cellarStop s frame) false (.miss stop frame n) []

/-- The same from the home of an address. -/
def homeMiss (s : State) (part addr frame n : Nat) : State :=
  match homeStop s part addr with
  | none => s
  | some h => cellarMiss s part h frame n

/-- A write-back leaves a home for the port's edge stop on the request plane, with the check word that its sector has (R299, R315, R323). -/
def cellarBack (s : State) (part addr frame : Nat) (sec : List W8 × W32) : State :=
  match homeStop s part addr with
  | none => s
  | some h => sendSectors s .request part h (cellarStop s frame) false .cellar [sec]

/-- Data that enter the device at an edge unit for an address take their check words there and cross the mesh to its home, and data that leave
through one come from the home (R298, R315). -/
def edgeIn (s : State) (u : EdgeUnit) (part addr : Nat) (data : List W8) : State :=
  match homeStop s part addr, edgeOf u with
  | some h, some e => sendFlit s .request part e h false .cellar data
  | _, _ => s
def edgeOut (s : State) (u : EdgeUnit) (part addr : Nat) (data : List W8) : State :=
  match homeStop s part addr, edgeOf u with
  | some h, some e => sendFlit s .reply part h e false .cellar data
  | _, _ => s

/-! ### Windows, ranks and scale-up ports (R236, R241, R320, R321) -/

def windowOf (s : State) (part wid : Nat) : Option Window := tget (partOf s part).wins wid
def modWindow (s : State) (part wid : Nat) (f : Window → Window) : State :=
  let p := partOf s part
  setPart s part { p with wins := tmod p.wins wid f }

def portOf (s : State) (p : Nat) : Port := tgetD s.ports p Port.init

/-- Where a rank is: a partition of this package, or one of another, with the ports that reach it and are up. -/
inductive RankAt
  | here (part : Nat)
  | away (ports : List Nat) (pkg part : Nat)
deriving DecidableEq, Repr

/-- The ports of a rank map entry, one for each set bit in ascending order: one that is down gives way to one that is up (R321; log 10). -/
def rankPorts (s : State) (e : W64) : List Nat :=
  let all := (List.range 12).filter (fun p => e.getLsbD (36 + p))
  let up := all.filter (fun p => !(portOf s p).down)
  if up.isEmpty then []
  else (all.zip (List.range all.length)).map (fun x => if (portOf s x.1).down then up.getD (x.2 % up.length) 0 else x.1)

/-- The rank under the rank map; none where its entry is not valid or its ports are all down (R321). -/
def rankAt (s : State) (part rank : Nat) : Option RankAt :=
  match tget (partOf s part).ranks rank with
  | none => none
  | some e =>
    if !e.getLsbD 0 then none
    else if e.getLsbD 1 then some (.here (fld e 28 8).toNat)
    else
      match rankPorts s e with
      | [] => none
      | ps => some (.away ps (fld e 12 16).toNat (fld e 28 8).toNat)

/-- The port for a destination offset, by its low bits ÷ 4,096 modulo the number of set bits (R321). -/
def portFor (ports : List Nat) (off : Nat) : Nat := ports.getD (off / 4096 % ports.length) 0

/-- The bytes that a message brings. -/
def bodyBytes : XBody → List W8
  | .elems _ _ bs => bs
  | .coll _ c => c.bytes
  | _ => []

/-- The link check words of the flits of 256 bytes that carry a message, at least one (R320). -/
def portWords (b : XBody) : List W32 :=
  let bs := bodyBytes b
  if bs.isEmpty then [crc32c []] else (chunksOf 256 bs.length bs).map crc32c

/-- The link of a port, for its retries and retrainings (R317, R320). -/
def portLink (p : Nat) : Nat := linkId (272 + p) 0

/-- A transfer leaves through a port, its flits with their check words. -/
def sendPort (s : State) (p : Nat) (m : XMsg) : State :=
  let x := portOf s p
  { s with ports := tput s.ports p { x with out := x.out ++ [{ m with words := portWords m.body }] } }

/-- An engine's data for another package crosses the mesh to the port's edge stop and leaves there (R298, R315, R320). -/
def putPort (s : State) (core part p : Nat) (m : XMsg) (data : List W8) : State :=
  let s := takeBucket s core part 2 (max 128 data.length)
  sendPort (sendFlit s .request part core ((edgeOf (.scaleUp p)).getD 256) false (.access core 2 []) data) p m

/-- A message of this partition's rank to another rank of a window; one of this package needs none. -/
def tellRank (s : State) (part wid rank : Nat) (body : XBody) : State :=
  match rankAt s part rank, windowOf s part wid with
  | some (.away ps g q), some w => sendPort s (portFor ps 0) { pkg := g, part := q, wid := wid, rank := w.myrank, body := body, words := [] }
  | _, _ => s

def collKey (k rank : Nat) : Nat := k * 2 ^ 32 + rank
def RColl.init : RColl := { ared := false, esz := 0, n := 0, bytes := [], send := [], dst := 0, len := 0, landed := false, gone := false }

/-- What this partition's rank has issued as its k-th collective is told to every rank of the window (R241, R242). -/
def postColl (s : State) (part wid k : Nat) (c : RColl) : State :=
  match windowOf s part wid with
  | none => s
  | some w =>
    (List.range w.nranks).foldl (fun s r =>
      match rankAt s part r with
      | some (.here p) => modWindow s p wid (fun x => { x with issued := tput x.issued (collKey k w.myrank) c })
      | _ => tellRank s part wid r (.coll k c)) s

/-- The collective of this partition's rank is over: what was kept of it goes. -/
def dropColl (s : State) (part wid k : Nat) : State :=
  modWindow s part wid (fun w => { w with issued := w.issued.filter (fun e => e.1 / 2 ^ 32 != k) })

def dropFlit (s : State) (f : Flit) : State := { s with flits := s.flits.filter (fun g => g.hdr.num != f.hdr.num) }
def putFlit (s : State) (f : Flit) : State := { s with flits := s.flits.map (fun g => if g.hdr.num = f.hdr.num then f else g) }

/-- No exchange flit of a group's swap is still under way (R313). -/
def exchArrived (s : State) (uid gid : Nat) : Bool := s.flits.all (fun f => f.body != .exch uid gid)

/-- A PUBN, SEAL, STOPREF or SUBN travels to the name's home (R299); a name without one needs no flit. -/
def sendName (s : State) (p : Plane) (part core name op : Nat) (data : List W8) : State :=
  match nameHome s part name with
  | some h => sendFlit s p part core h false (.nameOp op) data
  | none => s

/-- It stands at its home, and its sectors have been accepted there (R315). -/
def nameOpArrived (s : State) (op : Nat) : Bool :=
  s.flits.all (fun f => f.body != .nameOp op || (f.at' == f.hdr.dst && sectorsGood f.sectors))

/-- Its flits are gone, and the home acknowledges the operation to its core with the echo of a mark (R299, R318). -/
def nameOpDone (s : State) (op : Nat) : State :=
  match s.flits.filter (fun f => f.body == .nameOp op) with
  | [] => s
  | f :: fs =>
    sendFlit { s with flits := s.flits.filter (fun f => f.body != .nameOp op) } .reply f.hdr.tenant f.at' f.src ((f :: fs).any (fun g => g.hdr.mark))
      (.reply f.src 4) []

end Sys2Proof.Machine
end

