-- ==== Sys2Proof/Machine/Pages.lean ====
section
/-! DEFINITION. Resident pages: their names and sectors (R272, R314), what comes from the cellar and goes back to it (R273, R277, R323), and
shared pages under releases and acquires at .pool and .sys (R279). -/
namespace Sys2Proof.Machine
open Sys2Proof

def vpnOf (addr : Nat) : Nat := addr / 65536

/-- The page number under which a page is known: the first of a large page. -/
def pageVpn (l : Leaf) (vpn : Nat) : Nat := if l.large then vpn / 512 * 512 else vpn
def pageSize (l : Leaf) : Nat := if l.large then 2 ^ 25 else 65536

/-- The cellar bytes of a frame as page contents. -/
def frameData (m : Cells) (base size : Nat) : Cells :=
  m.filterMap (fun e => if base ≤ e.1 ∧ e.1 < base + size then some (e.1 - base, e.2) else none)

/-! ### Check words of sectors (R314, R315) -/

/-- The check word of a sector whose bytes are all zero. -/
def zeroSector : W32 := crc32c (List.replicate 128 0)

/-- The check word stored with sector `i` of a page. -/
def sectorWord (pg : Page) (i : Nat) : W32 := tgetD pg.words i zeroSector

/-- The check word recomputed over the bytes of a sector. -/
def sectorCrc (data : Cells) (i : Nat) : W32 := crc32c (bgets data (128 * i) 128)

/-- The check words of a page whose sectors `is` become those of `data` by writes of part of a sector: verified against the old word and the new
data, so that a sector whose old word failed still fails, and one whose old word was right has that of its bytes (R315). -/
def remerge (pg : Page) (data : Cells) (is : List Nat) : Tbl W32 :=
  is.foldl (fun w i => tput w i (sectorCrc data i ^^^ (sectorCrc pg.data i ^^^ sectorWord pg i))) pg.words

/-- The page's sectors `is` take check words over their bytes. -/
def reword (data : Cells) (words : Tbl W32) (is : List Nat) : Tbl W32 := is.foldl (fun w i => tput w i (sectorCrc data i)) words

/-- The sectors of a page that list a byte. -/
def listedSectors (data : Cells) : List Nat := data.foldl (fun l e => nput l (e.1 / 128)) []

/-- Check words over a whole page. -/
def wordsOfPage (data : Cells) : Tbl W32 := reword data [] (listedSectors data)

/-! ### Write-back and shared pages (R277, R279) -/

/-- Write the dirty lines of a page back to the cellar, through the port's edge stop (R323). -/
def writeBack (s : State) (id : Nat) : State :=
  match tget s.pages id with
  | none => s
  | some pg =>
    let cellar := pg.dirty.foldl (fun m ln => bputs m (pg.leaf.frame + 128 * ln) (bgets pg.data (128 * ln) 128)) s.cellar
    let s := pg.dirty.foldl (fun s ln =>
      cellarBack s pg.part (pg.vpn * 65536 + 128 * ln) (pg.leaf.frame + 128 * ln) (bgets pg.data (128 * ln) 128, sectorWord pg ln)) s
    { s with cellar := cellar, pages := tput s.pages id { pg with dirty := [] } }

/-- One line of a page goes back to the cellar where it is dirty. -/
def writeLine (s : State) (id ln : Nat) : State :=
  match tget s.pages id with
  | none => s
  | some pg =>
    if pg.dirty.contains ln then
      let bs := bgets pg.data (128 * ln) 128
      let s := cellarBack s pg.part (pg.vpn * 65536 + 128 * ln) (pg.leaf.frame + 128 * ln) (bs, sectorWord pg ln)
      { s with cellar := bputs s.cellar (pg.leaf.frame + 128 * ln) bs, pages := tput s.pages id { pg with dirty := ndel pg.dirty ln } }
    else s

/-- One line of a page becomes what the cellar holds, fetched through the port (R323). -/
def readLine (s : State) (id ln : Nat) : State :=
  match tget s.pages id with
  | none => s
  | some pg =>
    let s := homeMiss s pg.part (pg.vpn * 65536 + 128 * ln) (pg.leaf.frame + 128 * ln) 128
    let data := bputs pg.data (128 * ln) (bgets s.cellar (pg.leaf.frame + 128 * ln) 128)
    { s with pages := tput s.pages id { pg with data := data, words := reword data pg.words [ln] } }

/-- Bytes of a page hold provisional stores of some block of its partition. -/
def pageProv (s : State) (pg : Page) : Bool :=
  s.blocks.any (fun e => e.2.part == pg.part && e.2.prov.any (fun x => decide (pg.vpn * 65536 ≤ x.1) && decide (x.1 < pg.vpn * 65536 + pageSize pg.leaf)))

/-- R277 allows the page to be evicted; engine accesses are whole events, so none is under way between them. -/
def canEvict (s : State) (pg : Page) : Bool :=
  !pg.evicting && !pg.leaf.pin && !pageProv s pg && decide (pg.since + 65536 ≤ s.clock)

/-- A release at .pool or .sys writes the dirty committed lines of the partition's S pages through to the cellar (R279). -/
def releasePool (s : State) (part : Nat) : State :=
  s.pages.foldl (fun s e => if e.2.part = part ∧ e.2.leaf.shr then writeBack s e.1 else s) s

/-- The clean lines of a page as the cellar holds them now, the dirty ones as they stand. -/
def freshLines (s : State) (pg : Page) : Page :=
  let fresh := frameData s.cellar pg.leaf.frame (pageSize pg.leaf)
  let keep := fun (a : Nat) => pg.dirty.contains (a / 128)
  let data := pg.data.foldl (fun m x => if keep x.1 then bput m x.1 x.2 else m) (fresh.filter (fun x => !keep x.1))
  { pg with data := data, words := wordsOfPage data }

/-- What the cellar ports are asked for when a page comes from the cellar: every line, or every line but those of `skip` (R299, R323). -/
def pageFill (pg : Page) (skip : List Nat) : Fill :=
  { part := pg.part, addr := pg.vpn * 65536, frame := pg.leaf.frame, stop := pg.vpn * 65536 + pageSize pg.leaf, skip := skip.map (fun i => pg.vpn * 512 + i) }

/-- An acquire at .pool or .sys evicts the S pages that may be evicted and fetches the clean lines of the others again (R279). -/
def acquirePool (s : State) (part : Nat) : State :=
  s.pages.foldl (fun s e =>
    if e.2.part = part ∧ e.2.leaf.shr then
      if canEvict s e.2 then
        let s := writeBack s e.1
        { s with pages := tdel s.pages e.1 }
      else { s with pages := tput s.pages e.1 (freshLines s e.2), fills := s.fills ++ [pageFill e.2 e.2.dirty] }
    else s) s

def widePool (sc : Scope) : Bool := sc == .pool || sc == .sys

/-! ### The acquire of an ATOMG (R186) -/

/-- Completions that acquire once observed are kept as 64 × s-register + handle register. The observation of one acquires for the block's
partition, and it is kept no longer. -/
def observeAcq (v : View) (p : Nat → Bool) : View :=
  if v.g.acq.any p then
    { v with st := acquirePool v.st v.b.part, g := { v.g with acq := v.g.acq.filter (fun n => !p n) } }
  else v

end Sys2Proof.Machine
end

