-- ==== Sys2Proof/Machine/Sweep.lean ====
section
/-! DEFINITION. The sweep: EndBlock, Arrive, Seek, FallOff, Unwind, PushFrame and PopFrame of R75 and R78, debug holds (R372), the marker
checks of R58, and what the end of a group does (R85, R217). -/
namespace Sys2Proof.Machine
open Sys2Proof

/-- A pending call of one of the procedures of R75; labels as numbers, since the base frame ends one past the last label. -/
inductive Task
  | endBlock (next : Nat) (run : Lanes)
  | arrive (label : Nat) (run : Lanes)
  | seek (label : Nat)
deriving DecidableEq, Repr

def lab (n : Nat) : Lab := BitVec.ofNat 16 n

/-- One marker against R56 and R57: the expected label and whether a function is open. -/
def markerOk (ws : List W64) (i : Nat) (expect : Nat) (fopen : Bool) : Bool :=
  match ws[i]? with
  | none => false
  | some w =>
    isMarker w && fld w 52 6 == 0 && fld w 0 16 == 0 &&
      (match mkKind w with
       | 0 => mkLabel w == lab expect && decide (expect ≤ 0xFFFD) && mkDist w != 0
       | 1 => mkLabel w == lab expect && decide (expect ≤ 0xFFFD) && mkDist w != 0 && !fopen
       | 2 => mkLabel w == lab expect && decide (expect ≤ 0xFFFD) && mkDist w != 0 && fopen
       | 3 => mkLabel w == 0xFFFF && mkDist w == 0 && !fopen && decide (i + 1 = ws.length)
       | _ => false)

/-- Follow the chain from word `i`, checking every marker met (R58), up to the first one at which `stop` holds for its kind and for the
label expected there: its index, or the index of the marker whose dist led to the breach. -/
def chainTo (ws : List W64) (stop : Nat → Nat → Bool) : Nat → Nat → Nat → Nat → Bool → Except Nat Nat
  | 0, _, prev, _, _ => .error prev
  | n + 1, i, prev, expect, fopen =>
    match ws[i]? with
    | none => .error prev
    | some w =>
      if !markerOk ws i expect fopen || (i == 0 && mkKind w != 0) then .error prev
      else if stop (mkKind w) expect then .ok i
      else if mkKind w == 3 then .error prev
      else chainTo ws stop n (i + mkDist w) i (expect + 1) (if mkKind w == 1 then true else if mkKind w == 2 then false else fopen)

/-- The marker of label `L`, found along the chain from word 0. -/
def findLabel (ws : List W64) (L : Nat) : Except Nat Nat := chainTo ws (fun k e => decide (k ≤ 2) && e == L) (L + 1) 0 0 0 false

/-- The marker at which a frame ends, at label `L`: the region end of the base frame, whose end is the count of the markers (R57), or the
function-end marker of a call frame. -/
def findEnd (ws : List W64) (base : Bool) (L : Nat) : Except Nat Nat :=
  chainTo ws (fun k e => e == L && k == (if base then 3 else 2)) (L + 1) 0 0 0 false

/-- The function-end marker that follows label `L`, checked along the way (R57, R58). -/
def findFuncEnd (ws : List W64) (L : Nat) : Except Nat Nat := chainTo ws (fun k e => decide (L < e) && k == 2) (ws.length + 1) 0 0 0 false

/-- The broken-chain fault at the marker of word `i` (R58). -/
def brokenChainAt (v : View) (i : Nat) : View :=
  let f := faultAt v 0 0x0A 255 0 0
  let addr := match imageOf v.st v.b with
    | some im => BitVec.ofNat 64 (im.addr + im.codeoff + 8 * i)
    | none => 0
  takeTrap v { f with addr := addr }

def bubble (v : View) : View := { v with g := { v.g with bubbles := v.g.bubbles + 1 } }

/-! ### Debug holds (R371, R372) -/

def slotReg (s : State) (part k : Nat) : W64 := pctl s part (0x178 + k)

/-- The lowest hold slot in force for this group at label `L`. -/
def holdSlot (v : View) (L : Nat) : Option Nat :=
  firstFrom (fun k =>
    let r := slotReg v.st v.b.part k
    r.getLsbD 63 && (fld r 48 4).toNat == v.gid && (fld r 32 16).toNat == L &&
      (match tget (partOf v.st v.b.part).holds k with
       | some (u, _) => u == v.uid
       | none => false)) 0 8

/-- Hold the lanes of `m` at label `L` under slot `k`: prior state and label kept, the slot records them (R20). -/
def holdLanes (v : View) (k L : Nat) (m : Lanes) : View :=
  let p := partOf v.st v.b.part
  let p' := { p with holds := tmod p.holds k (fun e => (e.1, e.2 ||| m)) }
  let g := mapLanes v.g m (fun s =>
    { s with mode := .held, prior := if s.mode = .run then .wait else s.mode, label := lab L })
  let v := { v with st := setPart v.st v.b.part p', g := g }
  if traceOn v.st v.b.part 5 then tracePath v 7 (lab L) 0 m 1 (BitVec.ofNat 64 k) else v

/-- Release the lanes of `m`: each returns to its prior state and label (R20). -/
def releaseLanes (g : Group) (m : Lanes) : Group :=
  mapLanes g m (fun s => if s.mode = .held then { s with mode := s.prior, prior := .run } else s)

/-- No slot records a lane of `m` of this group any more: its holds are released, each slot's with a record (R85, R367, R372). -/
def dropHolds (v : View) (m : Lanes) : View :=
  let p := partOf v.st v.b.part
  let mine := fun (e : Nat × Nat × Lanes) =>
    e.2.1 == v.uid && (fld (slotReg v.st v.b.part e.1) 48 4).toNat == v.gid
  let p' := { p with holds := p.holds.map (fun e => if mine e then (e.1, e.2.1, e.2.2 &&& ~~~m) else e) }
  let w := { v with st := setPart v.st v.b.part p' }
  if traceOn v.st v.b.part 5 then
    p.holds.foldl (fun w e =>
      if mine e && e.2.2 &&& m != 0 then
        tracePath w 7 (fld (slotReg v.st v.b.part e.1) 32 16) 0 (e.2.2 &&& m) 0 (BitVec.ofNat 64 e.1)
      else w) w
  else w

/-! ### Lanes becoming DONE, groups ending -/

/-- MakeDone of R81 for every lane of `m`. -/
def makeDone (g : Group) (m : Lanes) : Group :=
  let g := mapLanes g m (fun s => { s with mode := .done, prior := .run, handle := 0, ret := 0xFFFF, label := 0xFFFF })
  { g with active := g.active &&& ~~~m, frames := g.frames.map (fun f => { f with rem := f.rem &&& ~~~m }) }

/-- The next group after `k`, in ascending order modulo the group count, that has not ENDED; `k` when there is none (R217). -/
def batonNext (gs : List Group) (k : Nat) : Nat :=
  let n := gs.length
  match firstFrom (fun i => match gs[(k + i) % n]? with
    | some g => g.run != .ended
    | none => false) 1 (n - 1) with
  | some i => (k + i) % n
  | none => k

/-- The group ends: status ENDED, call frames gone; a baton it holds passes on (R85, R217). -/
def endGroup (v : View) : View :=
  let g := { v.g with run := .ended, active := 0, arrival := .none, xreq := none, frames := v.g.frames.drop (v.g.frames.length - 1) }
  let b := { v.b with groups := listSet v.b.groups v.gid g }
  { v with g := g, b := if v.b.baton = v.gid then { b with baton := batonNext b.groups v.gid } else b }

/-! ### Arrive, Seek, frames -/

/-- The lanes act as RET does in a call frame, or become DONE in the base frame (FallOff of R75, R84). -/
def retLanes (g : Group) (m : Lanes) : Group :=
  if frameDepth g = 0 then makeDone g m
  else
    let f := topFrame g
    let g := mapLanes g m (fun s => { s with mode := .wait, prior := .run, handle := 0, label := f.resume })
    setTop { g with active := g.active &&& ~~~m } { f with rem := f.rem &&& ~~~m }

/-- PushFrame of R78: the callee entered, and the group with the frame pushed. -/
def pushFrame (v : View) (resume : Nat) : Nat × View :=
  let calling := lanesIn v.g .calling &&& remaining v.g
  let f := (laneList calling).foldl (fun best l => min best (laneAt v.g l).label.toNat) 0xFFFF
  let parts := maskOf (fun l => calling.getLsbD l && (laneAt v.g l).label == lab f)
  let fe := (funcEnd (wordsOf v.st v.b v.g) (lab f)).getD 0xFFFE
  let g := mapLanes v.g parts (fun s => { s with mode := .wait, label := lab f, ret := lab resume })
  let fr : Frame := { entry := lab f, fend := fe, resume := lab resume, parts := parts, rem := parts, sweeps := 0 }
  (f, { v with g := { g with frames := fr :: g.frames } })

/-- PopFrame of R78: the label the outer frame resumes at, and the group with the frame popped. -/
def popFrame (g : Group) : Nat × Group :=
  let f := topFrame g
  let g := { g with frames := g.frames.tail }
  let r := if frameDepth g = 0 then 0xFFFF else (topFrame g).resume
  (f.resume.toNat, mapLanes g f.parts (fun s => if s.mode = .done then s else { s with ret := r }))

/-- The newest version number of the group's image. -/
def newestCode (s : State) (b : Block) : Nat :=
  match imageOf s b with
  | some im => im.versions.length - 1
  | none => 0

/-- At a marker a group that an ICINV waits for switches to the newest words and is no longer awaited (R342). -/
def passMarker (v : View) : View :=
  let awaited := v.st.ops.any (fun e => match e.2.body with
    | .icinv l => l.contains (v.uid, v.gid)
    | _ => false)
  if awaited then
    { v with
      g := { v.g with code := newestCode v.st v.b },
      st := { v.st with ops := v.st.ops.map (fun e => match e.2.body with
        | .icinv l => (e.1, { e.2 with body := .icinv (l.filter (· != (v.uid, v.gid))) })
        | _ => e) } }
  else v

/-- Admission at the marker of label `L`: the admitted lanes run, the position is offset 1, the signature folds (R75, R362). -/
def enterMarker (v : View) (L : Nat) (act : Lanes) : View :=
  let gated := maskOf (fun l => act.getLsbD l && (laneAt v.g l).mode == .gate)
  let v := observeAcq v (fun k => (laneList gated).any (fun l => (laneAt v.g l).handle.toNat == k % 64))
  let g := mapLanes v.g act (fun s => { s with mode := .run, prior := .run, handle := 0, label := 0xFFFF })
  let sig := foldSig (ctrOf g 18) (lab L) act
  let g := { g with active := act, label := lab L, offset := 1, run := .issuing, stall := 0,
                    ctrs := listSet (listSet g.ctrs 18 sig) 19 (ctrOf g 19 + 1) }
  let v := { v with g := g }
  if traceOn v.st v.b.part 3 then tracePath v 2 (lab L) 0 act sig gated else v

/-- The procedures of R75 and R78, each call one unit of fuel. -/
def sweep : Nat → Task → View → View
  | 0, _, v => v
  | n + 1, .endBlock nx run, v =>
    if lanesIn v.g .calling &&& remaining v.g ≠ 0 then
      let r := pushFrame v nx
      match findFuncEnd (wordsOf v.st v.b v.g) r.1 with
      | .ok _ => sweep n (.arrive r.1 0) (bubble r.2)
      | .error i => brokenChainAt v i
    else if run ≠ 0 then sweep n (.arrive nx run) v
    else sweep n (.seek nx) v
  | n + 1, .arrive L run, v =>
    let ws := wordsOf v.st v.b v.g
    if frameDepth v.g = 0 && markerKind ws (lab L) == some 1 && decide (L < (topFrame v.g).fend.toNat) then
      match findFuncEnd ws L with
      | .ok i => sweep n (.arrive (((ws[i]?).map (fun w => (mkLabel w).toNat)).getD 0) run) (bubble v)
      | .error i => brokenChainAt v i
    else if L = (topFrame v.g).fend.toNat then
      match findEnd ws (frameDepth v.g == 0) L with
      | .error i => brokenChainAt v i
      | .ok _ => sweep n (.seek L) { v with g := retLanes v.g run }
    else
      let v := passMarker v
      match findLabel (wordsOf v.st v.b v.g) L with
      | .error i => brokenChainAt v i
      | .ok _ =>
        let cand := run ||| eligible v.g (lab L)
        match holdSlot v L with
        | some k => sweep n (.seek (L + 1)) (holdLanes v k L cand)
        | none => if cand = 0 then sweep n (.seek (L + 1)) v else enterMarker v L cand
  | n + 1, .seek L, v =>
    let v := bubble v
    let v := { v with g := { v.g with active := 0 } }
    if remaining v.g = 0 then
      if frameDepth v.g = 0 then endGroup v
      else
        let r := popFrame v.g
        let v := { v with g := r.2 }
        sweep n (.endBlock r.1 (lanesIn v.g .run &&& remaining v.g)) v
    else
      match nextEligible v.g L with
      | some k => sweep n (.arrive k 0) v
      | none =>
        match nextEligible v.g (topFrame v.g).entry.toNat with
        | some k =>
          let f := topFrame v.g
          sweep n (.arrive k 0) { v with g := setTop v.g { f with sweeps := f.sweeps + 1 } }
        | none => { v with g := { v.g with run := .idle, seek := lab L, stall := 0 } }

/-- Enough fuel: a call either consumes a lane's want, a frame or a hold, or ends the walk. -/
def sweepFuel : Nat := 1024

def runSweep (t : Task) (v : View) : View := sweep sweepFuel t v

/-- EndBlock at the current block with the RUN lanes that reach the next marker (R75). -/
def endBlockWith (v : View) (run : Lanes) : View := runSweep (.endBlock (v.g.label.toNat + 1) run) v

/-- The base frame of a new group (R21). -/
def baseFrame (labels : Nat) : Frame :=
  { entry := 0, fend := lab labels, resume := 0xFFFF, parts := allLanes, rem := allLanes, sweeps := 0 }

/-- A group as R26 starts it, before its arrival at the entry marker. -/
def newGroup (labels entry : Nat) (s : Tbl W64) (c : Tbl Cap) (code clock : Nat) : Group :=
  { lanes := List.replicate 64 LaneState.start, active := 0, label := lab entry, offset := 0, frames := [baseFrame labels],
    sround := 0, fflags := 0, frm := 0, ftrap := 0, v := [], s := s, p := [], c := c, h := [], q := [], run := .issuing,
    seek := 0, stall := 0, waitS := none, safe := none, stopped := false, arrival := .none, phases := 0, xreq := none,
    ctrs := List.replicate 20 0, bubbles := 0, tried := false, issued := false, waited := 0, since := clock, yield := 0,
    keyed := 0, spawns := 0, nCopy := 0, nStore := 0, nQueue := [], code := code, hang := 0, last := 0, emul := none, acq := [], owed := false }

/-- The start of a group is an arrival at its entry marker with every lane a RUN lane (R26). -/
def startGroup (v : View) : View :=
  runSweep (.arrive v.b.entry.toNat allLanes) { v with g := { v.g with since := v.st.clock } }

/-- Start every group of a block of the state, in ascending order. -/
def startGroups (s : State) (uid : Nat) : Nat → State
  | 0 => s
  | n + 1 =>
    let s := startGroups s uid n
    match viewAt s uid n with
    | some v => flush (startGroup v)
    | none => s

end Sys2Proof.Machine
end

