-- ==== Sys2Proof/Machine/Operands.lean ====
section
/-! DEFINITION. Operand forms: the checks of steps 4 to 7 of R54 with the holds of the scoreboards, queue operands (R30, R105, R177, R178,
R181, R401), element access under a type (R103 to R106), and what completing an instruction does to its group. -/
namespace Sys2Proof.Machine
open Sys2Proof

/-- An operand as the checks of R54 see it. `n` registers from `r`; `src` read, `dst` written; only a single register can name a queue
(R401). `x` are the registers that an XCHG swaps, whose number its partner word s(p) holds (R244), and `m` those that an MMA reads or writes, which its
shape word s(w) gives (R202). -/
inductive Opd
  | v (r n : Nat) (src dst : Bool)
  | s (r n : Nat) (src dst : Bool)
  | p (r : PReg)
  | c (r : CReg)
  | h (r : HReg)
  | hd (r : HReg)
  | x (r : Nat) (p : SReg) (big : Bool)
  | m (t : Ty) (d : BitVec 3) (w : SReg) (bsa bsb : BitVec 2)
deriving DecidableEq, Repr

/-- A vector source of type `t`. -/
def vsrc (t : Ty) (r : VReg) : Opd := .v r.toNat (if tyBig t then 2 else 1) true false
/-- A vector destination of type `t`. -/
def vdst (t : Ty) (r : VReg) : Opd := .v r.toNat (if tyBig t then 2 else 1) false true
def ssrc (r : SReg) : Opd := .s r.toNat 1 true false
def sdst (r : SReg) : Opd := .s r.toNat 1 false true

/-! ### Queue operands -/

/-- How often the operands before this one pop the queue named by index `r`. -/
def popsBefore (ops : List Opd) (r : Nat) : Nat :=
  (ops.filter (fun o => match o with
    | .v q 1 true _ => q == r
    | _ => false)).length

/-- Pop the oldest entry of load queue `k`: lanes outside EXEC discard their element, which then reads as a free value (R177, R180). -/
def popQueue (v : View) (k : Nat) (q : Queue) (ex : Lanes) : View × Row :=
  match q.buf with
  | [] => (v, zeroRow)
  | e :: rest =>
    let fr := freeLanes v.st
    let row := rowOf (fun l => if ex.getLsbD l then rget e.data l else (fr.1 l).setWidth 32)
    let q' := { q with pos := q.pos + 1, buf := rest, resid := q.resid ||| e.resid }
    ({ v with st := if ex = allLanes then v.st else fr.2, g := { v.g with q := tput v.g.q k q' } }, row)

/-- Push one entry to store queue `k`: an outstanding operation that writes the lanes of `m` within the stream (R178). -/
def pushQueue (v : View) (k : Nat) (q : Queue) (m : Lanes) (row : Row) : View :=
  let addrs := (List.range 64).map (fun l => ((q.base : Int) + q.stride * ((64 * q.pos + l : Nat) : Int)).toNat)
  let left := maskOf (fun l => m.getLsbD l && decide (64 * q.pos + l < q.n))
  let o : Op :=
    { blk := v.uid, gid := v.gid, sblk := v.uid, ord := v.g.nStore, ordq := tgetD v.g.nQueue k 0, h := 0, label := v.g.label, offset := v.g.offset, frame := frameDepth v.g,
      sweeps := (topFrame v.g).sweeps, mask := v.g.active, key := none, cancel := false, faddr := 0, got := [], wrote := [], body := .entry (BitVec.ofNat 3 k) q.ty addrs row left }
  { v with
    st := (addOp v.st o).2
    g := { v.g with q := tput v.g.q k { q with pos := q.pos + 1 }, nStore := v.g.nStore + 1, nQueue := tput v.g.nQueue k (o.ordq + 1) } }

/-- Write a vector register, or push to the store queue it names, in the lanes of `m`. -/
def writeRow (v : View) (r : Nat) (m : Lanes) (row : Row) : View :=
  match armed v.g r with
  | some (k, q) => pushQueue v k q m row
  | none => { v with g := writeVreg v.g r m row }

/-- The partner word of an XCHG (R244); `none` for a reserved bit or a count out of range. -/
def partnerWord (x : W64) (big : Bool) : Option (W32 × BitVec 3 × Nat × Nat) :=
  let cnt := (fld x 40 8).toNat
  if fld x 48 16 ≠ 0 ∨ x.getLsbD 35 ∨ cnt = 0 ∨ 32 < cnt ∨ (big ∧ cnt % 2 = 1) then none
  else some (fld x 0 32, fld x 32 3, (fld x 36 4).toNat, cnt)

/-- How many registers an XCHG swaps; none under a partner word that step 8 refuses, or that is still pending. -/
def xchgCount (v : View) (p : SReg) (big : Bool) : Nat :=
  if sPending v p then 0 else ((partnerWord (readS v.g p) big).map (fun w => w.2.2.2)).getD 0

/-! ### The registers of an MMA (R200, R202, R204) -/

/-- The shape word is in range (R200). -/
def shapeOK (t : Ty) (w : W64) : Bool :=
  let M := (fld w 0 8).toNat
  let N := (fld w 8 8).toNat
  let K := (fld w 27 13).toNat
  let sc := w.getLsbD 40
  fld w 41 7 == 0 && fld w 16 11 == 0 && decide (8 ≤ M) && decide (M ≤ 64) && M % 8 == 0 && decide (8 ≤ N) && decide (N ≤ 64) && N % 8 == 0 &&
    decide (32 ≤ K) && decide (K ≤ 4096) && K % 32 == 0 && (t != .q4 || sc) && (!(t == .i4 || t == .i2) || !sc) && (sc || fld w 48 16 == 0)

/-- Registers that hold scale bytes read (R202, R204). -/
def scaleRegs (reg sel kb : Nat) : List Nat := (List.range ((sel + kb + 3) / 4)).map (fun i => reg + i)

/-- The registers whose scale bytes an MMA reads (R204). -/
def mmaScales (w : W64) (bsa bsb : BitVec 2) : List Nat :=
  let kb := (fld w 27 13).toNat / 32
  if w.getLsbD 40 then scaleRegs (fld w 48 8).toNat bsa.toNat kb ++ scaleRegs (fld w 56 8).toNat bsb.toNat kb else []

/-- The registers that an MMA reads or writes: its scales and its accumulator; none under a shape word that step 8 refuses, or that is pending. -/
def mmaNames (v : View) (t : Ty) (d : BitVec 3) (r : SReg) (bsa bsb : BitVec 2) : List Nat :=
  let w := readS v.g r
  if sPending v r || !shapeOK t w then [] else mmaScales w bsa bsb ++ (List.range (fld w 8 8).toNat).map (fun j => 32 * d.toNat + j)

/-! ### Step 6 of R54 -/

def rowsOf (v : View) : Nat := v.b.fp.rows

/-- R30 and R401 on one register index of an operand: `multi` when the operand covers several registers. -/
def indexFault (v : View) (r : Nat) (multi : Bool) : Option Nat :=
  if 256 ≤ r then some 2
  else if 248 ≤ r then
    if (tget v.g.q (r - 248)).isSome then (if multi then some 3 else none)
    else if rowsOf v < 256 then some 3 else none
  else if rowsOf v ≤ r then some 2 else none

def indexFaults (v : View) (r : Nat) (multi : Bool) : Nat → Option Nat
  | 0 => none
  | n + 1 =>
    match indexFault v r multi with
    | some c => some c
    | none => indexFaults v (r + 1) multi n

/-- R181: a queue name used against its direction or beyond its stream. -/
def queueFault (v : View) (r : Nat) (src dst : Bool) (earlier : Nat) : Bool :=
  match armed v.g r with
  | none => false
  | some (_, q) =>
    (src && (!q.load || decide (queueEntries q ≤ q.pos + earlier))) ||
      (dst && (q.load || decide (queueEntries q ≤ q.pos)))

/-- The contract fault code of step 6 of R54, over the operands in order. -/
def step6 (v : View) : List Opd → List Opd → Option Nat
  | _, [] => none
  | before, o :: rest =>
    let here := match o with
      | .v r n src dst =>
        match indexFaults v r (decide (1 < n)) n with
        | some c => some c
        | none => if n = 1 && queueFault v r src dst (popsBefore before r) then some 3 else none
      | .x r p big =>
        let n := xchgCount v p big
        if big && r % 2 == 1 && n != 0 then some 2 else indexFaults v r true n
      | .m t d w a b => if (mmaNames v t d w a b).any (fun r => (armed v.g r).isSome) then some 3 else none
      | _ => none
    match here with
    | some c => some c
    | none => step6 v (before ++ [o]) rest

/-! ### Holds of the scoreboards, and step 7 of R54 -/

def rangeAny (p : Nat → Bool) (r : Nat) : Nat → Bool
  | 0 => false
  | n + 1 => p r || rangeAny p (r + 1) n

/-- An operand waits for a pending s-register or handle (stall reason 5: R31, R186, R227). -/
def waitsHandle (v : View) : Opd → Bool
  | .s r n _ _ => rangeAny (fun i => sPending v (BitVec.ofNat 6 i)) r n
  | .hd r => match tget v.g.h r.toNat with
    | some (.pending _) => true
    | _ => false
  | _ => false

/-- An operand waits for a pending accumulator (stall reason 9: R203). -/
def waitsMatrix (v : View) : Opd → Bool
  | .v r n _ _ => (armed v.g r).isNone && rangeAny (vPending v) r n
  | .x r p big => rangeAny (vPending v) r (xchgCount v p big)
  | _ => false

/-- Whole entries at the head of a load queue. -/
def wholeEntries (q : Queue) : Nat := (q.buf.takeWhile (fun e => e.left == 0)).length

/-- An operand waits for a whole entry of a load queue (reason 3) or for room in a store queue (reason 4) (R177, R178). -/
def waitsQueue (v : View) (before : List Opd) : Opd → Option Nat
  | .v r 1 src dst =>
    match armed v.g r with
    | none => none
    | some (k, q) =>
      if src && decide (wholeEntries q ≤ popsBefore before r) then some 3
      else if dst && decide (16 ≤ entriesOut v k) then some 4 else none
  | _ => none

def queueHold (v : View) : List Opd → List Opd → Option Nat
  | _, [] => none
  | before, o :: rest =>
    match waitsQueue v before o with
    | some c => some c
    | none => queueHold v (before ++ [o]) rest

/-- Step 7 of R54: a source register is void (R29). -/
def voidSource (v : View) : Opd → Bool
  | .v r n true _ => rangeAny (fun i => (armed v.g i).isNone && !thas v.g.v i) r n
  | .s r n true _ => rangeAny (fun i => !thas v.g.s i) r n
  | .p r => r != 0 && !thas v.g.p r.toNat
  | .c r => !thas v.g.c r.toNat
  | .h r => !thas v.g.h r.toNat
  | .x r p big => rangeAny (fun i => !thas v.g.v i) r (xchgCount v p big)
  | _ => false

/-- The values of the vector sources in order, popping the queues they name (R105). -/
def readRows (ex : Lanes) : List Opd → View → View × List Row
  | [], v => (v, [])
  | .v r n true _ :: rest, v =>
    if n = 1 then
      match armed v.g r with
      | some (k, q) =>
        let x := popQueue v k q ex
        let y := readRows ex rest x.1
        (y.1, x.2 :: y.2)
      | none =>
        let y := readRows ex rest v
        (y.1, readV v.g r :: y.2)
    else
      let y := readRows ex rest v
      (y.1, (List.range n).map (fun i => readV v.g (r + i)) ++ y.2)
  | _ :: rest, v => readRows ex rest v

/-! ### Completing, stalling, issuing -/

/-- The group moves past a completed instruction and its mask word; its flags are ORed in; it stands at a safe point when S is set
(R35, R60, R360). -/
def retire (h : Hdr) (v : View) (fl : BitVec 6) : View :=
  let g := ctrAdd v.g 0
  { v with
    st := usePipe v.st (blkCore v.b)
    g := { g with
      fflags := g.fflags ||| fl, offset := g.offset + (if h.safe then 2 else 1), safe := if h.safe then some h.mask else none,
      run := if g.run = .ended then .ended else .issuing, stall := 0, waitS := none, tried := true, issued := true, waited := 0,
      yield := 0, hang := 0 } }

/-- An instruction that leaves ACTIVE empty ends the block at once (R75). -/
def endIfEmpty (v : View) : View := if v.g.active = 0 && v.g.run = .issuing then endBlockWith v 0 else v

/-- The lowest-numbered enabled flag among those raised (R132). -/
def trapFlag (fl : BitVec 6) : Option Nat := firstFrom (fun n => fl.getLsbD n) 0 6

/-- The instruction has completed: the group retires it, the block may end, and an enabled flag raises one arithmetic trap after it. -/
def settle (h : Hdr) (v : View) (fl : BitVec 6) : View :=
  let v' := endIfEmpty (retire h v fl)
  match trapFlag (fl &&& v.g.ftrap) with
  | some n => trapAfter v' (faultAt v 2 n 255 0 0)
  | none => v'

/-- The reasons that R25 lists as group-level waits: an empty or full queue (3, 4), a handle (5), a barrier (7), the baton (8). -/
def stallRun (why : Nat) : RunStatus := if why = 3 ∨ why = 4 ∨ why = 5 ∨ why = 7 ∨ why = 8 then .stalled else .issuing

/-- The instruction is held back this clock under a stall reason; a waiting instruction that carries S may be pre-empted (R102). Only a
group-level wait is STALLED; under another reason the group stays ISSUING (R25). -/
def stallView (h : Hdr) (v : View) (why : Nat) : View :=
  { v with g := { v.g with run := stallRun why, stall := why, waitS := if h.safe then some h.mask else none, tried := true } }

/-- What becomes of the group after an instruction's turn; a trap leaves the view as it was before (R55). -/
def conclude (h : Hdr) (v0 : View) : Res → View
  | .done v fl => settle h v fl
  | .hold v why => stallView h v why
  | .trap cls code lane detail data => takeTrap v0 (faultAt v0 cls code lane detail data)
  | .after v cls code data => trapAfter (endIfEmpty (retire h v 0)) (faultAt v0 cls code 255 0 data)
  | .raw v => v

def isHandler (v : View) : Bool := v.b.kind == .handler

/-- An operand reads or writes s-register `n`. -/
def namesS (n : Nat) : Opd → Bool
  | .s r k _ _ => decide (r ≤ n) && decide (n < r + k)
  | _ => false

/-- The place of a stall reason in the order of R361's row for a held instruction. -/
def holdRank (why : Nat) : Nat := (([1, 2, 3, 4, 5, 7, 8, 9, 13] : List Nat).findIdx? (· == why)).getD 9

/-- Every source of the instruction but its vector registers has its value, and none is void. -/
def scalarsReady (v : View) (ops : List Opd) : Bool :=
  ops.all (fun o => match o with
    | .s r n true _ => !rangeAny (fun i => sPending v (BitVec.ofNat 6 i)) r n
    | .x r p big => !rangeAny (vPending v) r (xchgCount v p big)
    | .h r => (match tget v.g.h r.toNat with
      | some (.pending _) => false
      | _ => true)
    | _ => true) && !ops.any (voidSource v)

/-- Which of the rows that `readRows` gives are there already. -/
def rowsThere (v : View) : List Opd → List Opd → List Bool
  | _, [] => []
  | before, o :: rest =>
    (match o with
     | .v r n true _ =>
       (match (if n = 1 then armed v.g r else none) with
        | some (_, q) => [decide (popsBefore before r < wholeEntries q)]
        | none => (List.range n).map (fun i => !vPending v (r + i)))
     | _ => []) ++ rowsThere v (before ++ [o]) rest

/-- The rows, with one and the same row for each that is not there. -/
def rowsWith (x : Row) (rows : List Row) (there : List Bool) : List Row := (rows.zip there).map (fun e => if e.2 then e.1 else x)

/-- The reason under which a held instruction counts: where its own body waits too, whatever the rows it still awaits hold, the earlier of the two
(R361). -/
def holdAs (v : View) (ops : List Opd) (body : View → List Row → Res) (ex : Lanes) (c : Nat) : Res :=
  if scalarsReady v ops then
    let x := readRows ex ops v
    let there := rowsThere v [] ops
    match body x.1 (rowsWith zeroRow x.2 there), body x.1 (rowsWith (rowOf (fun _ => 0xFFFFFFFF)) x.2 there) with
    | .hold _ d, .hold _ e => .hold v (if d = e ∧ holdRank d < holdRank c then d else c)
    | _, _ => .hold v c
  else .hold v c

/-- Steps 4 to 7 of R54 with the holds, then the instruction's own body (step 8 and its effect). -/
def attempt (h : Hdr) (priv : Bool) (ops : List Opd) (body : View → List Row → Res) (v : View) : Res :=
  if h.psel ≠ 0 && !thas v.g.p h.psel.toNat then .trap 0 1 255 4 0
  else if execOf h v.g = 0 then .done v 0
  else if priv && !isHandler v then .trap 0 0x0B 255 5 0
  else match step6 v [] ops with
  | some c => .trap 0 c 255 6 0
  | none =>
    if ops.any (waitsHandle v) then holdAs v ops body (execOf h v.g) ((queueHold v [] ops).getD 5)
    else if ops.any (waitsMatrix v) then holdAs v ops body (execOf h v.g) ((queueHold v [] ops).getD 9)
    else if ops.any (voidSource v) then .trap 0 1 255 7 0
    else match queueHold v [] ops with
    | some c => holdAs v ops body (execOf h v.g) c
    | none =>
      let v := observeAcq v (fun k => ops.any (namesS (k / 64)))
      let x := readRows (execOf h v.g) ops v
      match body x.1 x.2 with
      | .hold w c => .hold (if x.2.isEmpty then w else v) c
      | r => r

/-- One instruction of the issuing group. -/
def issue (h : Hdr) (ops : List Opd) (body : View → List Row → Res) (s : State) : Out :=
  match currentView s with
  | none => .fault .noIssuer
  | some v => .next (flush (conclude h v (attempt h false ops body v)))

/-- One privileged instruction of the issuing group (R64). -/
def issueP (h : Hdr) (ops : List Opd) (body : View → List Row → Res) (s : State) : Out :=
  match currentView s with
  | none => .fault .noIssuer
  | some v => .next (flush (conclude h v (attempt h true ops body v)))

/-- The illegal-instruction fault of step 8 of R54. -/
def illegal8 : Res := .trap 0 0x0A 255 8 0
def contract (code : Nat) : Res := .trap 0 code 255 8 0

/-! ### Elements (R103 to R106) -/

/-- The element of lane `l` of the j-th vector source: the pair for a 64-bit type. -/
def elem (t : Ty) (rows : List Row) (j l : Nat) : W64 :=
  if tyBig t then rget (rows.getD (2 * j + 1) zeroRow) l ++ rget (rows.getD (2 * j) zeroRow) l
  else (rget (rows.getD j zeroRow) l).setWidth 64

/-- Write one element per lane of `m` to the register, or to the pair, of a destination. -/
def writeElems (v : View) (t : Ty) (d : VReg) (m : Lanes) (f : Nat → W64) : View :=
  if tyBig t then
    writeRow (writeRow v d.toNat m (rowOf (fun l => (f l).setWidth 32))) (d.toNat + 1) m (rowOf (fun l => (f l >>> 32).setWidth 32))
  else writeRow v d.toNat m (rowOf (fun l => (f l).setWidth 32))

/-- The value broadcast from an immediate or an s-register (R49, R106). -/
def vimmVal (g : Group) : VImm → W64
  | .imm i => i.signExtend 64
  | .s x => readS g x

def vimmOps : VImm → List Opd
  | .imm _ => []
  | .s x => [ssrc x]

end Sys2Proof.Machine
end

