-- ==== Sys2Proof/Machine/SpecReg.lean ====
section
/-! DEFINITION. Special and control registers (R33 to R38, R268, R335, R336, R348, R364, R369, R371, R378): what GETS reads and SETS
changes, hold slots, and the shared writes of the trace and block-record areas. -/
namespace Sys2Proof.Machine
open Sys2Proof

/-- The run of the handler context that a view belongs to. -/
def runOf (v : View) : Option HRun := (coreOf v.st (blkCore v.b)).hrun

/-- The block whose identity the special registers report: the handled block in a handler run (R378). -/
def identBlock (v : View) : Option Block :=
  if isHandler v then (runOf v).bind (fun r => tget v.st.blocks r.blk) else some v.b

def identW (v : View) (f : Block → W64) : W64 :=
  match identBlock v with
  | some b => f b
  | none => 0

/-- The innermost partition that owns a core: a child whose PCLUST holds it, else a top-level one (R378). -/
def ownerPart (s : State) (core : Nat) : Nat :=
  let own := s.parts.filter (fun e => ownsCore (ctl e.2 0x110) core)
  match own.filter (fun e => decide (128 ≤ e.1)) with
  | e :: _ => e.1
  | [] => match own with
    | e :: _ => e.1
    | [] => 0

/-- A uniform unprivileged special register (R33, R37, R378); `none` for a number without one. -/
def readUser (v : View) (n : Nat) : Option W64 :=
  let hd := isHandler v
  match n with
  | 0x001 => some 64
  | 0x002 => some (if hd then 0 else BitVec.ofNat 64 v.gid)
  | 0x003 => some (identW v (fun b => BitVec.ofNat 64 b.groups.length))
  | 0x004 => some (identW v (fun b => b.index.setWidth 64))
  | 0x005 => some (identW v (fun b => b.nblocks.setWidth 64))
  | 0x006 => some (identW v (fun b => b.stage.setWidth 64))
  | 0x007 => some (identW v (fun b => b.lid.setWidth 64))
  | 0x008 => some (identW v (fun b => b.seqno.setWidth 64))
  | 0x009 => some (identW v (fun b => b.seed))
  | 0x00A => some (match identBlock v with
      | some b => BitVec.ofNat 64 b.part
      | none => BitVec.ofNat 64 (ownerPart v.st (blkCore v.b)))
  | 0x00B => some (BitVec.ofNat 64 (coreReg (blkCore v.b)))
  | 0x00C => some (identW v (fun b => match b.place with
      | some p => BitVec.ofNat 64 (p.seat + (if hd then 0 else v.gid))
      | none => 0))
  | 0x00D => some (identW v (fun b => BitVec.ofNat 64 b.depth))
  | 0x00E => some (BitVec.ofNat 64 (frameDepth v.g))
  | 0x00F => some ((topFrame v.g).sweeps.setWidth 64)
  | 0x010 => some (v.g.sround.setWidth 64)
  | 0x011 => some (identW v (fun b => b.commits.setWidth 64))
  | 0x018 => some (v.g.fflags.setWidth 64)
  | 0x019 => some (v.g.frm.setWidth 64)
  | 0x01A => some (v.g.ftrap.setWidth 64)
  | _ => none

/-! ### Control registers -/

/-- The numbers that are assigned in the privileged set (R38 and the maps it names). -/
def ctlAssigned (n : Nat) : Bool :=
  (decide (0x100 ≤ n) && decide (n ≤ 0x10F)) || (decide (0x110 ≤ n) && decide (n ≤ 0x11B)) || n == 0x11F ||
    (decide (0x120 ≤ n) && decide (n ≤ 0x12B)) || (decide (0x130 ≤ n) && decide (n ≤ 0x187))

/-- The child partition that PSEL names (R348); a child has no children. -/
def childOf (s : State) (part : Nat) : Nat := 128 + 16 * ((pctl s part 0x11F).toNat % 8) + part % 16

/-- A budget register of the partition or, at 0x120..0x12B, of the child PSEL names. -/
def budgetAt (s : State) (part n : Nat) : Nat × Nat := if 0x120 ≤ n ∧ n ≤ 0x12B then (childOf s part, n - 0x10) else (part, n)

/-- FCAUSE to FBLK2 of a fault of a block (R336). -/
def faultWord (b : Option Block) (f : FaultRec) (n : Nat) : W64 :=
  match n with
  | 0x180 =>
    let seat := match b.bind (fun b => b.place) with
      | some p => p.seat + f.gid
      | none => 0
    BitVec.ofNat 64 (f.lane * 2 ^ 40 + seat * 2 ^ 36 + f.handle.toNat * 2 ^ 32 + f.detail.toNat * 2 ^ 24 + f.cls * 256 + f.code)
  | 0x181 => BitVec.ofNat 64 (f.frame * 2 ^ 32 + f.label.toNat * 65536 + f.offset.toNat)
  | 0x182 => f.addr
  | 0x183 => f.data
  | 0x184 => match b with
    | some b => BitVec.ofNat 64 (b.index.toNat * 2 ^ 32 + b.lid.toNat)
    | none => 0
  | _ => match b with
    | some b => BitVec.ofNat 64 (b.serial * 64 + b.depth * 8 + b.stage.toNat)
    | none => 0

/-- FCAUSE to FBLK2, HFLT and HQLEN (R336); 0 outside a run that handles a fault. -/
def readFault (v : View) (n : Nat) : W64 :=
  let c := coreOf v.st (blkCore v.b)
  match c.hrun with
  | none => if n = 0x187 then BitVec.ofNat 64 c.queue.length else 0
  | some r =>
    if n = 0x186 then r.hflt
    else if n = 0x187 then BitVec.ofNat 64 c.queue.length
    else faultWord (tget v.st.blocks r.blk) r.fault n

/-- A hold slot as it reads: bound and the count of held lanes are computed (R371). -/
def readHold (p : Part) (n : Nat) : W64 :=
  match tget p.holds (n - 0x178) with
  | some (_, m) => ctl p n ||| 0x4000000000000000 ||| BitVec.ofNat 64 (popc m)
  | none => ctl p n

/-- A control register as the privileged view reads it. -/
def readCtl (v : View) (n : Nat) : Option W64 :=
  if !ctlAssigned n then none
  else if 0x180 ≤ n then some (readFault v n)
  else
    let bn := budgetAt v.st v.b.part n
    let p := partOf v.st bn.1
    if bn.2 = 0x119 then some (BitVec.ofNat 64 p.wait.length)
    else if bn.2 = 0x118 then some (BitVec.ofNat 64 (fnOf v.st p.ctx).debt)
    else if 0x178 ≤ n then some (readHold p n)
    else some (ctl p bn.2)

/-- Bits a SETS may set; `none` for a read-only register. -/
def ctlMask (n : Nat) : Option W64 :=
  match n with
  | 0x100 => some 0x00001FFFFFFF8001
  | 0x101 | 0x102 | 0x103 => some 0x1FFFFFFF1FFFFFFF
  | 0x110 | 0x114 => some 0xFFFFFFFFFFFFFFFF
  | 0x111 => some 0x1FF
  | 0x112 | 0x116 => some 0xF
  | 0x113 | 0x11A => some 0xFF
  | 0x115 | 0x117 => some 0xFFFFFFFF
  | 0x11B => some 1
  | 0x11F => some 7
  | 0x170 => some 0x80FD
  | 0x171 => some 0x0000FFFFFFFFF000
  | 0x172 | 0x175 => some 0xFFFFFFFF
  | 0x176 => some 0x0000FFFFFFFFFFFF
  | _ =>
    if 0x130 ≤ n ∧ n ≤ 0x14F then some 0x1FFFF
    else if 0x150 ≤ n ∧ n ≤ 0x16F then
      (match n % 4 with
       | 0 => some 0x0000FFFFFFFFFFF8
       | 1 => some 0xFFFF0007
       | _ => some 0xFFFFFFFFFFFFFFFF)
    else if 0x178 ≤ n ∧ n ≤ 0x17F then some 0xC00FFFFF0000007F
    else none

/-- Budgets in range (R348). -/
def budgetRange (n : Nat) (x : W64) : Bool :=
  match n with
  | 0x111 => decide (x.toNat ≤ 304)
  | 0x112 => decide (2 ≤ x.toNat) && decide (x.toNat ≤ 8)
  | 0x115 => x == 0 || decide (65536 ≤ x.toNat)
  | 0x116 => x != 0
  | _ => true

/-- Sum of the bandwidth shares of the children of a partition, one of them replaced. -/
def childShares (s : State) (part child : Nat) (x : W64) : Nat :=
  (List.range 8).foldl (fun a k =>
    let c := 128 + 16 * k + part % 16
    a + (if c = child then x.toNat else if thas s.parts c then (pctl s c 0x113).toNat else 0)) 0

/-- Every 16-bit ceiling of `x` is at most the parent's. -/
def ceilsLe (x y : W64) : Bool := (List.range 4).all (fun i => decide ((fld x (16 * i) 16).toNat ≤ (fld y (16 * i) 16).toNat))

/-- What a child may be given (R348). -/
def childRange (s : State) (part child n : Nat) (x : W64) : Bool :=
  decide (part < 128) &&
  match n with
  | 0x110 => x &&& ~~~(pctl s part 0x110) == 0 &&
      s.blocks.all (fun e => !(e.2.part == part && e.2.phase == .resident && ownsCore (x &&& ~~~(pctl s child 0x110)) (blkCore e.2)))
  | 0x111 => decide (x.toNat ≤ (pctl s part 0x111).toNat)
  | 0x112 => decide (x.toNat ≤ (pctl s part 0x112).toNat)
  | 0x113 => decide (childShares s part child x ≤ (pctl s part 0x113).toNat)
  | 0x114 => ceilsLe x (pctl s part 0x114)
  | 0x11B => x == 0 || (pctl s part 0x11B).getLsbD 0
  | _ => true

def winBase (x : W64) : Nat := (fld x 0 29).toNat
def winLimit (x : W64) : Nat := (fld x 32 29).toNat
/-- Window `a` lies within window `b`, in 64 KiB units; an empty window lies anywhere (R268). -/
def winIn (a b : W64) : Bool := decide (winLimit a ≤ winBase a) || (decide (winBase b ≤ winBase a) && decide (winLimit a ≤ winLimit b))

/-- The context's innermost window (R268). -/
def ctxWindow (p : Part) (part : Nat) : W64 := if 128 ≤ part then ctl p 0x102 else ctl p 0x101

/-- A global range lies within a context's reach (R269). -/
def inReach (s : State) (part lo hi : Nat) : Bool := decide (hi ≤ 2 ^ 48) && decide (lo ≤ hi) && (pctl s part 0x100).getLsbD 0

/-- The trace area of TBASE and TLEN, and the block-record ring of BRING (R364). -/
def traceReach (s : State) (part : Nat) (base len : W64) : Bool :=
  len == 0 || inReach s part base.toNat (base.toNat + len.toNat * 4096)
def ringReach (s : State) (part : Nat) (x : W64) : Bool :=
  (fld x 0 12) == 0 || inReach s part ((fld x 12 36).toNat * 4096) ((fld x 12 36).toNat * 4096 + (fld x 0 12).toNat * 4096)

/-- Setting TBASE or TLEN clears TPTR; `none` when the area is out of reach (R364). -/
def setTraceArea (s : State) (part : Nat) (len : Bool) (x : W64) : Option State :=
  let p := partOf s part
  let p' := setCtl (setCtl p (if len then 0x172 else 0x171) x) 0x173 0
  if traceReach s part (ctl p' 0x171) (ctl p' 0x172) then some (setPart s part p') else none

/-- Setting BRING clears BPTR (R364). -/
def setBlockRing (s : State) (part : Nat) (x : W64) : Option State :=
  if ringReach s part x then some (setPart s part (setCtl (setCtl (partOf s part) 0x176 x) 0x177 0)) else none

/-- Release every lane that hold slot `k` holds, and unbind it (R371, R372). -/
def releaseSlot (s : State) (part k : Nat) : State :=
  let p := partOf s part
  match tget p.holds k with
  | none => s
  | some (u, m) =>
    let gid := (fld (ctl p (0x178 + k)) 48 4).toNat
    let L : Lab := fld (ctl p (0x178 + k)) 32 16
    let s := setPart s part { p with holds := tdel p.holds k }
    let s := modGroup s u gid (fun g => releaseLanes g m)
    if m ≠ 0 && traceOn s part 5 then
      match viewAt s u gid with
      | some v => (tracePath v 7 L 0 m 0 (BitVec.ofNat 64 k)).st
      | none => s
    else s

/-- A write of a hold slot (R371): `binder` is the block of the fault being handled, if any; `none` when the write is illegal. -/
def setHold (s : State) (part k : Nat) (x : W64) (binder : Option Nat) : Option State :=
  let n := 0x178 + k
  let p := partOf s part
  if x.getLsbD 63 then
    match binder with
    | none => none
    | some u =>
      if (ctl p n).getLsbD 63 then none
      else
        match tget s.blocks u with
        | none => none
        | some b =>
          if labelCount s b ≤ (fld x 32 16).toNat then none
          else
            let p' := setCtl p n (x &&& 0x800FFFFF00000000)
            some (setPart s part { p' with holds := tput p.holds k (u, 0) })
  else
    let s := releaseSlot s part k
    some (setPart s part (setCtl (partOf s part) n (x &&& 0x000FFFFF00000000)))

/-- A child gets nothing that its parent lacks: neither the child that PSEL names nor one that writes its own budgets (R348). -/
def childWrite (s : State) (part n : Nat) (x : W64) : Bool :=
  let bn := budgetAt s part n
  if 0x120 ≤ n ∧ n ≤ 0x12B then childRange s part bn.1 bn.2 x
  else if 128 ≤ part ∧ 0x110 ≤ n ∧ n ≤ 0x11B then childRange s (part % 16) part n x
  else true

/-- SETS to a control register: `none` for the illegal-instruction fault, the register then unchanged (R34, R111, R268, R348, R364, R371). -/
def setCtlReg (s : State) (part n : Nat) (x : W64) (binder : Option Nat) : Option State :=
  let bn := budgetAt s part n
  match (if 0x120 ≤ n ∧ n ≤ 0x12B then ctlMask (n - 0x10) else ctlMask n) with
  | none => none
  | some m =>
    if x &&& ~~~m ≠ 0 then none
    else if 0x178 ≤ n then setHold s part (n - 0x178) x binder
    else if n = 0x171 then setTraceArea s part false x
    else if n = 0x172 then setTraceArea s part true x
    else if n = 0x176 then setBlockRing s part x
    else if n = 0x175 ∧ x ≠ 0 ∧ x.toNat < 4096 then none
    else if 0x150 ≤ n ∧ n ≤ 0x16F ∧ n % 4 = 1 ∧ x.getLsbD 0 ∧ fld x 16 16 = 0 then none
    else if !budgetRange bn.2 x then none
    else if !childWrite s part n x then none
    else
      let p := setCtl (partOf s bn.1) bn.2 x
      if n = 0x102 ∧ part < 128 ∧ x ≠ 0 then none
      else if n = 0x101 ∧ !winIn (ctl p 0x102) x then none
      else if n = 0x102 ∧ !winIn x (ctl p 0x101) then none
      else if (n = 0x101 ∨ n = 0x102 ∨ n = 0x103) ∧ !winIn (ctl p 0x103) (ctxWindow p part) then none
      else some (setPart s bn.1 p)

/-- The block a handler run handles, while it still holds the fault (R338, R371). -/
def handledBlk (v : View) : Option Nat :=
  if isHandler v then (runOf v).bind (fun r => if r.live then some r.blk else none) else none

/-- SETS to an unprivileged register: only %fflags, %frm and %ftrap are writable (R33, R35, R36). -/
def setUser (v : View) (n : Nat) (x : W64) : Option View :=
  match n with
  | 0x018 => if x >>> 6 = 0 then some { v with g := { v.g with fflags := x.setWidth 6 } } else none
  | 0x019 => if x.toNat ≤ 4 then some { v with g := { v.g with frm := x.setWidth 3 } } else none
  | 0x01A => if x >>> 6 = 0 then some { v with g := { v.g with ftrap := x.setWidth 6 } } else none
  | _ => none

end Sys2Proof.Machine
end

