-- ==== Sys2Proof/Machine/Scalar.lean ====
section
/-! DEFINITION. The scalar instructions of majors 0x08, 0x09 and 0x0A (R107 to R112). -/
namespace Sys2Proof.Machine
open Sys2Proof

/-- Write an s-register and complete. -/
def doneS (v : View) (d : SReg) (x : W64) : Res := .done { v with g := writeS v.g d x } 0

/-- A two-source scalar operation. -/
def scalar2 (h : Hdr) (t : Ty) (d a b : SReg) (f : Ty → W64 → W64 → W64) (s : State) : Out :=
  issue h [ssrc a, ssrc b, sdst d] (fun v _ => doneS v d (f t (readS v.g a) (readS v.g b))) s

/-- A scalar operation with one source and a constant. -/
def scalar1 (h : Hdr) (d a : SReg) (f : W64 → W64) (s : State) : Out :=
  issue h [ssrc a, sdst d] (fun v _ => doneS v d (f (readS v.g a))) s

def execSadd (h : Hdr) (t : Ty) (d a b : SReg) (s : State) : Out := scalar2 h t d a b opAdd s
def execSsub (h : Hdr) (t : Ty) (d a b : SReg) (s : State) : Out := scalar2 h t d a b opSub s
def execSmul (h : Hdr) (t : Ty) (d a b : SReg) (s : State) : Out := scalar2 h t d a b opMul s
def execSmulh (h : Hdr) (t : Ty) (d a b : SReg) (s : State) : Out := scalar2 h t d a b opMulh s
def execSand (h : Hdr) (t : Ty) (d a b : SReg) (s : State) : Out := scalar2 h t d a b opAnd s
def execSor (h : Hdr) (t : Ty) (d a b : SReg) (s : State) : Out := scalar2 h t d a b opOr s
def execSxor (h : Hdr) (t : Ty) (d a b : SReg) (s : State) : Out := scalar2 h t d a b opXor s
def execSshl (h : Hdr) (t : Ty) (d a b : SReg) (s : State) : Out := scalar2 h t d a b opShl s
def execSshr (h : Hdr) (t : Ty) (d a b : SReg) (s : State) : Out := scalar2 h t d a b opShr s
def execSsra (h : Hdr) (t : Ty) (d a b : SReg) (s : State) : Out := scalar2 h t d a b opSra s
def execSmin (h : Hdr) (t : Ty) (d a b : SReg) (s : State) : Out := scalar2 h t d a b opMin s
def execSmax (h : Hdr) (t : Ty) (d a b : SReg) (s : State) : Out := scalar2 h t d a b opMax s

/-- SSEL: Fit(a) when all 64 bits of s(C) are not zero, else Fit(b) (R107). -/
def execSsel (h : Hdr) (t : Ty) (d a b c : SReg) (s : State) : Out :=
  issue h [ssrc a, ssrc b, ssrc c, sdst d]
    (fun v _ => doneS v d (fit t (val t (if readS v.g c ≠ 0 then readS v.g a else readS v.g b)))) s

def boolW (b : Bool) : W64 := if b then 1 else 0

def execScmp (h : Hdr) (t : Ty) (d a b : SReg) (c : Cond) (s : State) : Out :=
  issue h [ssrc a, ssrc b, sdst d] (fun v _ => doneS v d (boolW (opCmp t c (readS v.g a) (readS v.g b)))) s

def execSaddi (h : Hdr) (t : Ty) (d a : SReg) (i : BitVec 24) (s : State) : Out := scalar1 h d a (fun x => opAdd t x (i.signExtend 64)) s
def execSandi (h : Hdr) (t : Ty) (d a : SReg) (i : BitVec 24) (s : State) : Out := scalar1 h d a (fun x => opAnd t x (i.signExtend 64)) s
def execSori (h : Hdr) (t : Ty) (d a : SReg) (i : BitVec 24) (s : State) : Out := scalar1 h d a (fun x => opOr t x (i.signExtend 64)) s
def execSxori (h : Hdr) (t : Ty) (d a : SReg) (i : BitVec 24) (s : State) : Out := scalar1 h d a (fun x => opXor t x (i.signExtend 64)) s
def execSshli (h : Hdr) (t : Ty) (d a : SReg) (n : BitVec 6) (s : State) : Out := scalar1 h d a (fun x => opShlN t x n.toNat) s
def execSshri (h : Hdr) (t : Ty) (d a : SReg) (n : BitVec 6) (ar : Bool) (s : State) : Out :=
  scalar1 h d a (fun x => if ar then opSraN t x n.toNat else opShrN t x n.toNat) s
def execScmpi (h : Hdr) (t : Ty) (d a : SReg) (c : Cond) (i : BitVec 20) (s : State) : Out :=
  scalar1 h d a (fun x => boolW (opCmp t c x (i.signExtend 64))) s

/-- Bits 16k+15..16k of `x` replaced by `y` (R110). -/
def insert16 (x : W64) (k : Nat) (y : W16) : W64 :=
  (x &&& ~~~((0xFFFF : W64) <<< (16 * k))) ||| ((y.setWidth 64) <<< (16 * k))

/-- SMOVI (R110): mode 0 writes the sign-extended immediate; modes 1 to 4 read and change 16 bits of s(D). -/
def execSmovi (h : Hdr) (t : Ty) (d : SReg) (k : Option (BitVec 2)) (i : BitVec 24) (s : State) : Out :=
  match k with
  | none => issue h [sdst d] (fun v _ => doneS v d (fit t (val t (i.signExtend 64)))) s
  | some k => issue h [.s d.toNat 1 true true] (fun v _ => doneS v d (insert16 (readS v.g d) k.toNat (i.setWidth 16))) s

def execSmov (h : Hdr) (d a : SReg) (s : State) : Out := scalar1 h d a id s

/-- GETS (R34, R111). -/
def execGets (h : Hdr) (d : SVReg) (sr : BitVec 10) (s : State) : Out :=
  let n := sr.toNat
  let ops := match d with
    | .s x => [sdst x]
    | .v x => [Opd.v x.toNat 1 false true]
  issueGets h (decide (0x100 ≤ n)) ops n d s
where
  issueGets (h : Hdr) (priv : Bool) (ops : List Opd) (n : Nat) (d : SVReg) (s : State) : Out :=
    let body := fun (v : View) (_ : List Row) =>
      if n = 0 then
        match d with
        | .s _ => illegal8
        | .v x => Res.done (writeRow v x.toNat (execOf h v.g) (rowOf (fun l => BitVec.ofNat 32 l))) 0
      else
        match (if priv then readCtl v n else readUser v n) with
        | none => illegal8
        | some w =>
          match d with
          | .s x => doneS v x w
          | .v x => .done (writeRow v x.toNat (execOf h v.g) (rowOf (fun _ => w.setWidth 32))) 0
    if priv then issueP h ops body s else issue h ops body s

/-- SETS (R34, R111). -/
def execSets (h : Hdr) (sr : BitVec 10) (a : SReg) (s : State) : Out :=
  let n := sr.toNat
  if 0x100 ≤ n then
    issueP h [ssrc a] (fun v _ =>
      if !ctlAssigned n then illegal8
      else match setCtlReg (flush v) v.b.part n (readS v.g a) (handledBlk v) with
        | none => illegal8
        | some st => .done (reload v st) 0) s
  else
    issue h [ssrc a] (fun v _ =>
      match setUser v n (readS v.g a) with
      | none => illegal8
      | some v => .done v 0) s

/-- The argument words of the caller: its launch's, or the handler image's (R112, R377). -/
def argWords (v : View) : List W64 :=
  if isHandler v then
    match (partOf v.st v.b.part).himage with
    | some hi => hi.args
    | none => []
  else
    match tget v.st.launches v.b.launch with
    | some l => l.args
    | none => []

def execSldk (h : Hdr) (d : SReg) (k : BitVec 9) (s : State) : Out :=
  issue h [sdst d] (fun v _ => doneS v d ((argWords v).getD k.toNat 0)) s

end Sys2Proof.Machine
end

