-- ==== Sys2Proof/Machine/Async.lean ====
section
/-! DEFINITION. What the memory and engine instructions share: apertures and capabilities (R151 to R157), starting an asynchronous
operation, keys and the log (R193), range-scoreboard entries (R173) and cancelling (R94, R95). -/
namespace Sys2Proof.Machine
open Sys2Proof

/-! ### Capabilities (R151, R154) -/

def capBase (c : Cap) : Nat := (c.bits.extractLsb' 80 48).toNat
def capLimit (c : Cap) : Nat := (c.bits.extractLsb' 32 48).toNat
/-- Permission bits 31..24: R 7, W 6, A 5, L 4, T 3, D 2, G 1. -/
def capPerm (c : Cap) : BitVec 8 := c.bits.extractLsb' 24 8
def capSpace (c : Cap) : Nat := (c.bits.extractLsb' 20 4).toNat
def pR : BitVec 8 := 0x80
def pW : BitVec 8 := 0x40
def pA : BitVec 8 := 0x20
def pL : BitVec 8 := 0x10
def pT : BitVec 8 := 0x08
def pD : BitVec 8 := 0x04
def pG : BitVec 8 := 0x02

/-- ApertureBase of R151. -/
def apertureBase (sp : Nat) : Nat :=
  match sp with
  | 1 => 0xFFFF000000000000
  | 2 => 0xFFFE000000000000
  | _ => 0

/-- StackMap of R153. -/
def stackMap (o l : Nat) : Nat := o / 4 * 256 + 4 * l + o % 4

/-- The scratchpad that space-1 and space-2 accesses of a view see: its size in bytes, the barriers of the handler's window, and whether
it is the handler that accesses (R152, R379). -/
structure Foot where
  size : Nat
  bars : Nat
  hand : Bool
deriving DecidableEq, Repr

/-- The block whose scratchpad a view addresses. -/
def scratchUid (v : View) : Option Nat := if isHandler v then handledBlk v else some v.uid

def footOf (v : View) : Foot :=
  if isHandler v then
    match (handledBlk v).bind (fun u => tget v.st.blocks u) with
    | some b => { size := 1024 * b.fp.scratch, bars := b.fp.barriers, hand := true }
    | none => { size := 0, bars := 0, hand := true }
  else { size := 1024 * v.b.fp.scratch, bars := 0, hand := false }

/-- First offset of the handler's barrier window (R379). -/
def barWindow : Nat := 0x100000

/-- The footprint check of R157 for the bytes at `a`. -/
def footFails (f : Foot) (sp a size l : Nat) (lds : Bool) : Bool :=
  if sp = 1 then
    if f.hand && decide (barWindow ≤ a) then
      !(lds && (size == 8 || size == 16) && decide (a + size ≤ barWindow + 16 * f.bars))
    else decide (f.size < a + size)
  else if sp = 2 then decide (f.size < stackMap (a + size - 1) l + 1)
  else false

/-- The failing checks of CheckAccess (R157) for `size` bytes in pieces of `al` bytes, in order, by their index from 1; one access is one
piece. -/
def failingAl (f : Foot) (c : Cap) (off : Int) (size al : Nat) (need : BitVec 8) (spaces : List Nat) (l : Nat) (lds : Bool) : List Nat :=
  let a : Int := (capBase c : Int) + off
  let sp := capSpace c
  let bad := fun (n : Nat) =>
    match n with
    | 1 => !c.tag
    | 2 => !spaces.contains sp || (sp == 2 && f.hand)
    | 3 => decide (a < 0) || decide ((2 ^ 48 : Int) ≤ a + (size - al : Nat))
    | 4 => need &&& ~~~(capPerm c) != 0
    | 5 => decide (off < 0) || decide ((capLimit c : Int) < a + size)
    | 6 => decide (a % ((if sp = 2 then min al 4 else al : Nat) : Int) ≠ 0)
    | _ => footFails f sp a.toNat size l lds
  [1, 2, 3, 4, 5, 6, 7].filter bad

/-- One naturally aligned access of R157. -/
def failing (f : Foot) (c : Cap) (off : Int) (size : Nat) (need : BitVec 8) (spaces : List Nat) (l : Nat) (lds : Bool) : List Nat :=
  failingAl f c off size size need spaces l lds

/-- Class and code of a failing check. -/
def checkCause (n : Nat) : Nat × Nat :=
  match n with
  | 1 => (1, 4)
  | 2 | 3 => (1, 1)
  | 4 => (1, 3)
  | 5 => (1, 2)
  | 6 => (1, 6)
  | _ => (0, 6)

/-- The generic address of an access (R151). -/
def genericAddr (c : Cap) (off : Int) : W64 := BitVec.ofInt 64 ((apertureBase (capSpace c) : Int) + capBase c + off)

/-- The trap of a failed access; bit 31 of FCAUSE when a misaligned access fails otherwise too (R336). -/
def accessTrap (n lane : Nat) (other : Bool) (addr : W64) : Res :=
  let k := checkCause n
  .trap k.1 k.2 lane (BitVec.ofNat 8 (n + (if n = 6 && other then 128 else 0))) addr

/-- CheckAccess once, for a scalar-domain instruction. -/
def check1 (v : View) (c : Cap) (off : Int) (size : Nat) (need : BitVec 8) (spaces : List Nat) : Option Res :=
  match failing (footOf v) c off size need spaces 0 false with
  | [] => none
  | n :: rest => some (accessTrap n 255 (!rest.isEmpty) (genericAddr c off))

/-- The trap of a range of `len` bytes in pieces of `al` bytes that fails check `n` first: the address is that of its first piece, or of its
last where only that one fails (log 18). -/
def rangeTrap (f : Foot) (c : Cap) (off len al : Nat) (need : BitVec 8) (spaces : List Nat) (n lane : Nat) (other : Bool) : Res :=
  let first := (failingAl f c off (min al len) al need spaces 0 false).contains n
  accessTrap n lane other (genericAddr c (if first then off else (off + (len - al) : Nat)))

/-- CheckAccess over every byte of a range, each check over the whole of it before the next, in pieces of `al`; an empty range passes. -/
def checkRange (v : View) (c : Cap) (off len al : Nat) (need : BitVec 8) (spaces : List Nat) : Option Res :=
  if len = 0 then none
  else
    match failingAl (footOf v) c off len al need spaces 0 false with
    | [] => none
    | n :: rest => some (rangeTrap (footOf v) c off len al need spaces n 255 (!rest.isEmpty))

/-- The lowest failing lane of `m` and its first failing check (R157), under the failing checks of each lane. -/
def lanesFail (m : Lanes) (c : Cap) (off : Nat → Int) (fails : Nat → List Nat) : Option Res :=
  let bad := (laneList m).map (fun l => (l, fails l))
  match bad.find? (fun e => !e.2.isEmpty) with
  | some (l, n :: _) => some (accessTrap n l (bad.any (fun e => e.2.any (· != 6))) (genericAddr c (off l)))
  | _ => none

/-- CheckAccess for every lane of `m`. -/
def checkLanes (v : View) (m : Lanes) (c : Cap) (off : Nat → Int) (size : Nat) (need : BitVec 8) (spaces : List Nat) (lds : Bool) : Option Res :=
  lanesFail m c off (fun l => failing (footOf v) c (off l) size need spaces l lds)

/-! ### Starting operations (R31, R193) -/

/-- The operation record of a view's current word. -/
def mkOp (v : View) (h : HReg) (body : OpBody) (key : Option Key) : Op :=
  { blk := v.uid, gid := v.gid, sblk := (scratchUid v).getD v.uid, ord := 0, ordq := 0, h := h, label := v.g.label, offset := v.g.offset, frame := frameDepth v.g,
    sweeps := (topFrame v.g).sweeps, mask := v.g.active, key := key, cancel := false, faddr := 0, got := [], wrote := [], body := body }

/-- Issue an operation: h(H) becomes PENDING on it. -/
def startOp (v : View) (h : HReg) (body : OpBody) (key : Option Key := none) : View :=
  let r := addOp v.st (mkOp v h body key)
  { v with st := r.2, g := writeH v.g h (.pending r.1) }

/-- An operation that only has its status to deliver. -/
def readyOp (v : View) (h : HReg) (st : W16) : View := startOp v h (.ready st)

/-- A handle that completes at once, with no operation to wait for (R13, R184). -/
def completeNow (v : View) (h : HReg) (st : W16) : View := { v with g := writeH v.g h (.complete st 0 []) }

/-- The key of the next keyed operation of the group (R193). -/
def nextKey (v : View) : Key := { commit := v.b.commits, seq := v.gid * 2 ^ 24 + v.g.keyed }

def countKey (v : View) : View := { v with g := { v.g with keyed := v.g.keyed + 1 } }

def logFind (b : Block) (k : Key) : Option LogEnt := b.log.find? (fun e => e.commit == k.commit && e.seq == k.seq)

/-- An operation of the block outstanding under the key: it survived a re-fire. -/
def opOfKey (s : State) (uid : Nat) (k : Key) : Option Nat :=
  (s.ops.find? (fun e => e.2.blk == uid && e.2.key == some k)).map (fun e => e.1)

/-- Issue a keyed operation: a repeat of a logged one takes the logged status, a repeat of one that is still outstanding is bound to it,
anything else starts (R193, R258). -/
def startKeyed (v : View) (h : HReg) (body : OpBody) : View :=
  let k := nextKey v
  let v := countKey v
  match logFind v.b k with
  | some e => readyOp v h e.status
  | none =>
    match opOfKey v.st v.uid k with
    | some id => { v with g := writeH v.g h (.pending id) }
    | none => startOp v h body (some k)

/-! ### The range scoreboard (R173) -/

def rangesOf (s : State) (core : Nat) : Nat := (s.ranges.filter (fun e => e.2.core == core)).length

/-- An entry over scratchpad bytes [lo, hi) for operation `op`. -/
def addRange (v : View) (lo hi : Nat) (inb : Bool) (op : Nat) : View :=
  let e : RangeEnt := { core := blkCore v.b, blk := v.uid, gid := v.gid, lo := lo, hi := hi, inb := inb, op := op }
  { v with st := { v.st with ranges := tput v.st.ranges v.st.nextRng e, nextRng := v.st.nextRng + 1 } }

/-- An entry of the group that overlaps [lo, hi) and holds back this kind of access: reads wait for inbound entries, writes for both. -/
def rangeHolds (v : View) (lo hi : Nat) (write : Bool) : Bool :=
  v.st.ranges.any (fun e => e.2.blk == v.uid && e.2.gid == v.gid && decide (e.2.lo < hi) && decide (lo < e.2.hi) && (e.2.inb || write))

/-- At least `n` of the core's 32 entries are free. -/
def rangesFree (v : View) (n : Nat) : Bool := decide (rangesOf v.st (blkCore v.b) + n ≤ 32)

/-- Start an operation with its range entries; a repeat that is bound to an operation still outstanding takes them for that one again (R258). -/
def startRanged (v : View) (rs : List (Nat × Nat × Bool)) (start : View → View) : View :=
  let id := v.st.nextOp
  let w := start v
  if w.st.nextOp = id then
    match opOfKey v.st v.uid (nextKey v) with
    | some j => rs.foldl (fun w r => addRange w r.1 r.2.1 r.2.2 j) w
    | none => w
  else rs.foldl (fun w r => addRange w r.1 r.2.1 r.2.2 id) w

/-- Issue an operation with its range entries, holding under reason 2 while too few are free. -/
def withRanges (v : View) (rs : List (Nat × Nat × Bool)) (start : View → View) : Res :=
  if rangesFree v rs.length then .done (startRanged v rs start) 0 else .hold v 2

/-- An instruction that feeds an engine of a class waits under reason 13 where it would go on but the engine is held by its bucket (R319). -/
def fed (v : View) (cls : Nat) (r : Res) : Res :=
  match r with
  | .done w fl => if bucketHolds v.st (blkCore v.b) v.b.part cls 128 then .done w fl else .hold v 13
  | r => r

/-! ### Cancelling (R94, R95) -/

/-- This rank withdraws from the collective it issued on a window, and every other rank is told (R241). -/
def withdraw (s : State) (part wid k : Nat) : State :=
  match windowOf s part wid with
  | none => s
  | some w =>
    dropColl (postColl (modWindow s part wid (fun w => { w with gone := k :: w.gone })) part wid k
      { (tget w.issued (collKey k w.myrank)).getD RColl.init with gone := true }) part wid k

def partOfBlk (s : State) (uid : Nat) : Nat :=
  match tget s.blocks uid with
  | some b => b.part
  | none => 0

/-- The end of a PUT to another package has been sent, as element number `len / esz`: it has finished before a cancel (R94, R95). -/
def putEnded : OpBody → Bool
  | .put esz _ len _ _ _ landed => landed.contains (len / esz)
  | _ => false

/-- HCANCEL on an outstanding operation. A routing-engine or matrix operation stops in its own event. -/
def cancelOp (s : State) (id : Nat) : State :=
  match tget s.ops id with
  | none => s
  | some o =>
    match o.body with
    | .copy _ | .pages _ | .enq .. | .put .. | .publish .. | .stopref _ => if putEnded o.body then s else finishOp s id 0xFF
    | .fetchn _ _ _ _ _ l _ => finishOp (modGroup s o.blk o.gid (fun g => writeS g l 0)) id 0xFF
    | .ared wid k _ _ _ _ => finishOp (withdraw s (partOfBlk s o.blk) wid k) id 0xFF
    | .a2av wid k _ _ _ _ _ _ _ _ => finishOp (withdraw s (partOfBlk s o.blk) wid k) id 0xFF
    | .mma _ | .sortk .. => { s with ops := tmod s.ops id (fun o => { o with cancel := true }) }
    | .spawn _ | .launch _ | .atomg .. | .subn .. | .icinv _ | .tlbinv | .haltb _ | .entry .. | .ready _ => s

end Sys2Proof.Machine
end

