-- ==== Sys2Proof/Machine/Barriers.lean ====
section
/-! DEFINITION. The barrier instructions of major 0x05 (R98 to R102). -/
namespace Sys2Proof.Machine
open Sys2Proof

def barOf (b : Block) (i : Nat) : Barrier := tgetD b.bars i Barrier.init

/-- BarInit of R100. -/
def barInit (o : Barrier) (n : W32) : Barrier := if o.expected = n then o else { phase := false, expected := n, pending := n }

/-- BarArr of R100: an arrival that reaches the pending count completes the phase. -/
def barArrive (o : Barrier) (c : W32) : Barrier :=
  if o.pending ≤ c then { o with phase := !o.phase, pending := o.expected } else { o with pending := o.pending - c }

/-- The token of an arrival (R100). -/
def barToken (o : Barrier) (i : BitVec 9) : W64 := ((if o.phase then (0x200 : W64) else 0) ||| i.setWidth 64)

/-- Satisfied(t) of R100. -/
def barSatisfied (b : Block) (t : W64) : Bool := (barOf b (fld t 0 9).toNat).phase != t.getLsbD 9

def countVal (g : Group) : BarCount → W32
  | .imm n => n.setWidth 32
  | .s x => (readS g x).setWidth 32

def countOps : BarCount → List Opd
  | .imm _ => []
  | .s x => [ssrc x]

/-- A barrier index at or above the declared count (R99). -/
def barBad (v : View) (i : Nat) : Bool := decide (v.b.fp.barriers ≤ i)

def setBar (v : View) (i : Nat) (o : Barrier) : View := { v with b := { v.b with bars := tput v.b.bars i o } }

def execBarinit (h : Hdr) (b : BitVec 9) (n : BarCount) (s : State) : Out :=
  issue h (countOps n) (fun v _ =>
    if barBad v b.toNat then contract 6
    else .done (setBar v b.toNat (barInit (barOf v.b b.toNat) (countVal v.g n))) 0) s

/-- BARARR: waits while the barrier is uninitialised, then arrives and returns the token (R100). -/
def execBararr (h : Hdr) (d : SReg) (b : BitVec 9) (n : BarCount) (s : State) : Out :=
  issue h (countOps n ++ [sdst d]) (fun v _ =>
    let o := barOf v.b b.toNat
    if barBad v b.toNat then contract 6
    else if o.expected = 0 then .hold v 7
    else
      let v' := setBar v b.toNat (barArrive o (countVal v.g n))
      doneS v' d (barToken o b)) s

def execBarwt (h : Hdr) (t : SReg) (s : State) : Out :=
  issue h [ssrc t] (fun v _ =>
    if barBad v (fld (readS v.g t) 0 9).toNat then contract 6
    else if barSatisfied v.b (readS v.g t) then .done v 0 else .hold v 7) s

def execBartry (h : Hdr) (d t : SReg) (s : State) : Out :=
  issue h [ssrc t, sdst d] (fun v _ =>
    if barBad v (fld (readS v.g t) 0 9).toNat then contract 6
    else doneS v d (boolW (barSatisfied v.b (readS v.g t)))) s

/-! ### PHASE (R101) -/

/-- The launch's `phased` attribute applies to the block: its stage is of fire mode 0 and it is no spawned child. -/
def wideStage (s : State) (b : Block) : Bool :=
  match tget s.launches b.launch with
  | some l => l.phased && b.kind == .launched && (match l.stages[b.stage.toNat]? with
      | some st => st.fire == 0
      | none => false)
  | none => false

/-- Every group whose arrival counts has ended or has arrived at phase `k`, in blocks that exist. -/
def blockArrived (k : Nat) (b : Block) : Bool :=
  b.phase == .complete || b.groups.all (fun g => g.run == .ended || decide (k ≤ g.phases))

/-- Phase `k` is complete for a block of the view's launch (R101). -/
def phaseComplete (v : View) (k : Nat) : Bool :=
  if wideStage v.st v.b then
    match tget v.st.launches v.b.launch with
    | some l =>
      let mine := v.st.blocks.filter (fun e => e.1 != v.uid && e.2.launch == v.b.launch && wideStage v.st e.2)
      let all := l.stages.foldl (fun n st => if st.fire = 0 then n + st.count else n) 0
      decide (all ≤ mine.length + 1) && mine.all (fun e => blockArrived k e.2) && own
    | none => own
  else own
where
  own : Bool := v.b.groups.length = 0 || (List.range v.b.groups.length).all (fun i =>
    if i = v.gid then decide (k ≤ v.g.phases)
    else match v.b.groups[i]? with
      | some g => g.run == .ended || decide (k ≤ g.phases)
      | none => true)

/-- PHASE: the first attempt is the group's arrival, which a pre-emption keeps (R102); the phase number when it completes (R101). -/
def execPhase (h : Hdr) (d : SReg) (s : State) : Out :=
  issue h [sdst d] (fun v _ =>
    let v := match v.g.arrival with
      | .phase .. => v
      | _ => { v with g := { v.g with phases := v.g.phases + 1, arrival := .phase d h.safe h.mask } }
    if phaseComplete v v.g.phases then
      doneS { v with g := { v.g with arrival := .none } } d (BitVec.ofNat 64 v.g.phases)
    else .hold v 7) s

end Sys2Proof.Machine
end

