-- ==== Sys2Proof/Machine/Float.lean ====
section
/-! DEFINITION. Number formats and rounding: exact dyadic values, the five float formats (R124 to R126), rounding modes (R131), flags (R132),
arithmetic, minimum and maximum, comparison, classes, conversions (R133 to R142), the noise function (R143, R144). -/
namespace Sys2Proof.Machine
open Sys2Proof

/-- An exact value (−1)^neg × m × 2^e. -/
structure Dy where
  neg : Bool
  m   : Nat
  e   : Int
deriving DecidableEq, Repr

/-- What the bits of a float read as (R124). -/
inductive FVal
  | nan (signalling : Bool)
  | inf (neg : Bool)
  | fin (d : Dy)
deriving DecidableEq, Repr

/-- A format: exponent bits, fraction bits, bias, and whether it has infinities (E4M3 has none). -/
structure Fmt where
  eb   : Nat
  fb   : Nat
  bias : Nat
  ieee : Bool
deriving DecidableEq, Repr

def fmtOf : Ty → Fmt
  | .f16 => { eb := 5, fb := 10, bias := 15, ieee := true }
  | .bf16 => { eb := 8, fb := 7, bias := 127, ieee := true }
  | .e4m3 => { eb := 4, fb := 3, bias := 7, ieee := false }
  | .e5m2 => { eb := 5, fb := 2, bias := 15, ieee := true }
  | _ => { eb := 8, fb := 23, bias := 127, ieee := true }

/-- Rounding modes of R36. -/
inductive RMode
  | ne | tz | up | dn | st
deriving DecidableEq, Repr

def modeOf (n : Nat) : RMode :=
  match n with
  | 1 => .tz | 2 => .up | 3 => .dn | 4 => .st | _ => .ne

/-- The effective rounding mode of an instruction (R131). -/
def effMode (r : Rm) (frm : BitVec 3) : RMode :=
  match r with
  | .dyn => modeOf frm.toNat
  | .rn => .ne
  | .rz => .tz
  | .rp => .up
  | .rm => .dn
  | .rs => .st

/-- The magnitude bits of the special exponent: infinity, or E4M3's NaN. -/
def infBits (f : Fmt) : Nat := if f.ieee then (2 ^ f.eb - 1) * 2 ^ f.fb else 2 ^ (f.eb + f.fb) - 1
/-- The magnitude bits of the largest finite value. -/
def maxBits (f : Fmt) : Nat := infBits f - 1
def signBit (f : Fmt) : Nat := 2 ^ (f.eb + f.fb)
/-- The canonical NaN (R125). -/
def nanBits (f : Fmt) : Nat := if f.ieee then infBits f + 2 ^ (f.fb - 1) else infBits f
def withSign (f : Fmt) (neg : Bool) (b : Nat) : Nat := if neg then signBit f + b else b

/-- Value of magnitude bits as (significand, exponent). -/
def magDy (f : Fmt) (neg : Bool) (b : Nat) : Dy :=
  let ef := b / 2 ^ f.fb
  let fr := b % 2 ^ f.fb
  if ef = 0 then { neg := neg, m := fr, e := 1 - f.bias - f.fb }
  else { neg := neg, m := 2 ^ f.fb + fr, e := (ef : Int) - f.bias - f.fb }

def decF (f : Fmt) (x : Nat) : FVal :=
  let neg := decide (x / signBit f % 2 = 1)
  let b := x % signBit f
  if f.ieee then
    if b < infBits f then .fin (magDy f neg b)
    else if b = infBits f then .inf neg
    else .nan (decide ((b / 2 ^ (f.fb - 1)) % 2 = 0))
  else if b = infBits f then .nan false else .fin (magDy f neg b)

/-- Length in bits. -/
def bitLen (n : Nat) : Nat := if n = 0 then 0 else Nat.log2 n + 1

/-- Whether the magnitude rounds away from zero: `r` is the remainder below `2^k`, `odd` the parity of the truncated value, `noise` the
draw of R144. -/
def roundAway (mode : RMode) (neg odd : Bool) (r k noise : Nat) : Bool :=
  match mode with
  | .ne => decide (2 ^ k < 2 * r) || (decide (2 * r = 2 ^ k) && odd)
  | .tz => false
  | .up => !neg && r != 0
  | .dn => neg && r != 0
  | .st => decide (noise < r * 2 ^ 32 / 2 ^ k)

/-- Rounded result in the units of its last place: the units and whether it is inexact. -/
def roundUnits (mode : RMode) (d : Dy) (q : Int) (noise : Nat) : Nat × Bool :=
  if q ≤ d.e then (d.m * 2 ^ (d.e - q).toNat, false)
  else
    let k := (q - d.e).toNat
    let n := d.m / 2 ^ k
    let r := d.m % 2 ^ k
    (if roundAway mode d.neg (n % 2 == 1) r k noise then n + 1 else n, r != 0)

/-- Exponent of the last place of a nonzero value in a format. -/
def quantum (f : Fmt) (d : Dy) : Int := max (d.e + bitLen d.m - 1) (1 - f.bias) - f.fb

/-- Magnitude bits under a mode with no upper limit. -/
def roundRaw (f : Fmt) (mode : RMode) (d : Dy) (noise : Nat) : Nat × Bool :=
  if d.m = 0 then (0, false)
  else
    let q := quantum f d
    let r := roundUnits mode d q noise
    (((q + f.fb + f.bias - 1).toNat) * 2 ^ f.fb + r.1, r.2)

/-- |d| exceeds the magnitude of the finite bits `b`. -/
def exceeds (f : Fmt) (d : Dy) (b : Nat) : Bool :=
  let x := magDy f false b
  if x.e ≤ d.e then decide (x.m < d.m * 2 ^ (d.e - x.e).toNat) else decide (x.m * 2 ^ (x.e - d.e).toNat < d.m)

/-- Round of R131 to R133 and R141, R144: bits and flags. -/
def roundF (f : Fmt) (mode : RMode) (noise : Nat) (d : Dy) : Nat × Flg :=
  let big := exceeds f d (maxBits f)
  if !f.ieee && big then (withSign f d.neg (maxBits f), fSA ||| fNX)
  else
    let mode := if big && mode = .st then .ne else mode
    let r := roundRaw f mode d noise
    if f.ieee && decide (infBits f ≤ r.1) then
      let toInf := match mode with
        | .ne | .st => true
        | .tz => false
        | .up => !d.neg
        | .dn => d.neg
      (withSign f d.neg (if toInf then infBits f else maxBits f), fOF ||| fNX)
    else
      (withSign f d.neg r.1, if r.2 then (if r.1 < 2 ^ f.fb then fUF ||| fNX else fNX) else 0)

/-! ### Exact arithmetic -/

def Dy.neg' (a : Dy) : Dy := { a with neg := !a.neg }
def dyMul (a b : Dy) : Dy := { neg := a.neg != b.neg, m := a.m * b.m, e := a.e + b.e }
def dyInt (a : Dy) (q : Int) : Int :=
  let m : Int := ((a.m * 2 ^ (a.e - q).toNat : Nat) : Int)
  if a.neg then -m else m

/-- Exact sum; an exact zero sum takes IEEE 754's sign (R133). -/
def dyAdd (mode : RMode) (a b : Dy) : Dy :=
  let q := min a.e b.e
  let s := dyInt a q + dyInt b q
  if s = 0 then { neg := if a.neg = b.neg then a.neg else decide (mode = .dn), m := 0, e := q }
  else { neg := decide (s < 0), m := s.natAbs, e := q }

def isSnan : FVal → Bool
  | .nan s => s
  | _ => false

def isNan : FVal → Bool
  | .nan _ => true
  | _ => false

def nvIf (b : Bool) : Flg := if b then fNV else 0

/-- Sum of two decoded values. -/
def addV (f : Fmt) (mode : RMode) (noise : Nat) (a b : FVal) : Nat × Flg :=
  match a, b with
  | .nan s, x => (nanBits f, nvIf (s || isSnan x))
  | x, .nan s => (nanBits f, nvIf (s || isSnan x))
  | .inf x, .inf y => if x = y then (withSign f x (infBits f), 0) else (nanBits f, fNV)
  | .inf x, .fin _ => (withSign f x (infBits f), 0)
  | .fin _, .inf y => (withSign f y (infBits f), 0)
  | .fin x, .fin y => roundF f mode noise (dyAdd mode x y)

def negV : FVal → FVal
  | .nan s => .nan s
  | .inf n => .inf (!n)
  | .fin d => .fin d.neg'

def fvNeg : FVal → Bool
  | .inf n => n
  | .fin d => d.neg
  | .nan _ => false

/-- Exact product, infinite or zero cases included; `none` for 0 × ∞. -/
def mulX (a b : FVal) : Option FVal :=
  match a, b with
  | .nan s, x => some (.nan (s || isSnan x))
  | x, .nan s => some (.nan (s || isSnan x))
  | .inf n, .inf m => some (.inf (n != m))
  | .inf n, .fin d => if d.m = 0 then none else some (.inf (n != d.neg))
  | .fin d, .inf n => if d.m = 0 then none else some (.inf (n != d.neg))
  | .fin x, .fin y => some (.fin (dyMul x y))

def mulV (f : Fmt) (mode : RMode) (noise : Nat) (a b : FVal) : Nat × Flg :=
  match mulX a b with
  | none => (nanBits f, fNV)
  | some (.nan s) => (nanBits f, nvIf s)
  | some (.inf n) => (withSign f n (infBits f), 0)
  | some (.fin d) => roundF f mode noise d

/-- a × b + c with one rounding; 0 × ∞ is invalid whatever c holds (R133). -/
def fmaV (f : Fmt) (mode : RMode) (noise : Nat) (a b c : FVal) : Nat × Flg :=
  match mulX a b with
  | none => (nanBits f, fNV)
  | some p => addV f mode noise p c

/-- A key that orders the non-NaN bits of a format, −0 below +0. -/
def orderKey (f : Fmt) (x : Nat) : Int :=
  if x / signBit f % 2 = 1 then -(((x % signBit f : Nat) : Int)) - 1 else ((x % signBit f : Nat) : Int)

/-- FMIN and FMAX of R134. -/
def minmaxF (f : Fmt) (mx : Bool) (a b : Nat) : Nat × Flg :=
  let va := decF f a
  let vb := decF f b
  let nv := nvIf (isSnan va || isSnan vb)
  match isNan va, isNan vb with
  | true, true => (nanBits f, nv)
  | true, false => (b, nv)
  | false, true => (a, nv)
  | false, false =>
    if mx then (if orderKey f a < orderKey f b then b else a, 0) else (if orderKey f b < orderKey f a then b else a, 0)

/-- Three-way comparison of two non-NaN values: −0 equals +0. -/
def cmpF (f : Fmt) (a b : Nat) : Int :=
  let z := fun x => if x % signBit f = 0 then 0 else x
  let ka := orderKey f (z a)
  let kb := orderKey f (z b)
  if ka < kb then -1 else if kb < ka then 1 else 0

/-- FCMP of R135: the result and its flag. -/
def fcmpF (f : Fmt) (c : FCond) (a b : Nat) : Bool × Flg :=
  let va := decF f a
  let vb := decF f b
  let un := isNan va || isNan vb
  let sn := nvIf (isSnan va || isSnan vb)
  let k := cmpF f a b
  match c with
  | .eq => (!un && k == 0, sn)
  | .ne => (un || k != 0, sn)
  | .lt => (!un && decide (k < 0), nvIf un)
  | .le => (!un && decide (k ≤ 0), nvIf un)
  | .gt => (!un && decide (0 < k), nvIf un)
  | .ge => (!un && decide (0 ≤ k), nvIf un)
  | .un => (un, sn)
  | .ord => (!un, sn)

/-- The class bit number of R136. -/
def classF (f : Fmt) (a : Nat) : Nat :=
  match decF f a with
  | .nan s => if s then 8 else 9
  | .inf n => if n then 0 else 7
  | .fin d =>
    let b := a % signBit f
    if b = 0 then (if d.neg then 3 else 4)
    else if b < 2 ^ f.fb then (if d.neg then 2 else 5) else (if d.neg then 1 else 6)

/-! ### Square root, reciprocal -/

/-- The integer square root by digit recurrence, `n` bits of result. -/
def isqrtBits (x : Nat) : Nat → Nat → Nat
  | 0, r => r
  | n + 1, r =>
    let c := r + 2 ^ n
    isqrtBits x n (if c * c ≤ x then c else r)

def isqrt (x : Nat) : Nat := isqrtBits x (bitLen x / 2 + 1) 0

/-- The square root of a positive value with 64 guard bits and a sticky last bit. -/
def dySqrt (d : Dy) : Dy :=
  let e := d.e - 128
  let e' := if e % 2 = 0 then e else e - 1
  let m := d.m * 2 ^ (d.e - e').toNat
  let r := isqrt m
  { neg := false, m := 2 * r + (if r * r = m then 0 else 1), e := e' / 2 - 1 }

/-- 1 / d for a nonzero value, with guard bits and a sticky last bit. -/
def dyRecip (d : Dy) : Dy :=
  let k := bitLen d.m + 64
  let q := 2 ^ k / d.m
  { neg := d.neg, m := 2 * q + (if 2 ^ k % d.m = 0 then 0 else 1), e := -d.e - k - 1 }

/-! ### Noise (R143) -/

/-- Noise(g, l, e, n): identity of the group in `key`, lane included. -/
def noiseOf (seed key : W64) (e : Nat) (n : W32) : Nat :=
  let x := mix ((n.setWidth 64 <<< 8) + BitVec.ofNat 64 e + 0x3A7D19C4E2B65F81)
  let x := mix (x ^^^ key)
  let x := mix (x ^^^ seed)
  (x >>> 32).toNat

/-! ### Conversions (R140 to R142) -/

/-- Any source value to a float format. -/
def toFloat (f : Fmt) (mode : RMode) (noise : Nat) (x : FVal) : Nat × Flg :=
  match x with
  | .nan s => (nanBits f, nvIf s)
  | .inf n => if f.ieee then (withSign f n (infBits f), 0) else (withSign f n (maxBits f), fSA)
  | .fin d => roundF f mode noise d

def dyOfInt (y : Int) : Dy := { neg := decide (y < 0), m := y.natAbs, e := 0 }

/-- Compare two nonnegative magnitudes m × 2^e. -/
def magLt (a b : Dy) : Bool :=
  let q := min a.e b.e
  decide (a.m * 2 ^ (a.e - q).toNat < b.m * 2 ^ (b.e - q).toNat)

/-- A float to an integer type: rounded, clamped with OF, NX when the rounded value differs from the source (R141, R142). In the stochastic
mode a value beyond the end of the range on its side rounds to nearest. -/
def toInt (t : Ty) (mode : RMode) (noise : Nat) (x : FVal) : Int × Flg :=
  match x with
  | .nan _ => (0, fNV)
  | .inf n => (if n then loOf t else hiOf t, fOF)
  | .fin d =>
    let beyond := magLt (dyOfInt (if d.neg then loOf t else hiOf t)) d
    let r := roundUnits (if mode == .st && beyond then .ne else mode) d 0 noise
    let y : Int := if d.neg then -(r.1 : Int) else (r.1 : Int)
    (clampTo t y, (if clampTo t y = y then 0 else fOF) ||| (if r.2 then fNX else 0))

/-- One element conversion: the destination's low bits and flags. -/
def convert (src dst : Ty) (mode : RMode) (noise : Nat) (x : W64) : W64 × Flg :=
  if tyInt src then
    let y := val src x
    if tyInt dst then (sat dst y, satFlag dst y)
    else
      let r := toFloat (fmtOf dst) mode noise (.fin (dyOfInt y))
      (BitVec.ofNat 64 r.1, r.2)
  else
    let v := decF (fmtOf src) (uns src x).toNat
    if tyInt dst then
      let r := toInt dst mode noise v
      (fit dst r.1, r.2)
    else
      let r := toFloat (fmtOf dst) mode noise v
      (BitVec.ofNat 64 r.1, r.2)

/-! ### FP32 shorthands -/

def f32 : Fmt := fmtOf .f32
/-- One FP32 addition rounded to nearest even (R122, R205). -/
def add32 (a b : Nat) : Nat × Flg := addV f32 .ne 0 (decF f32 a) (decF f32 b)
def mul32 (a b : Nat) : Nat × Flg := mulV f32 .ne 0 (decF f32 a) (decF f32 b)

/-! ### 4-bit block codes (R128 to R130) -/

/-- Magnitude of a code index in halves (types 01 and 11) or as a power (type 10), in units of 2^−3. -/
def codeMag (ct : Nat) (i : Nat) : Nat :=
  match ct with
  | 1 => [0, 4, 8, 12, 16, 24, 32, 48].getD i 0
  | 2 => if i = 0 then 0 else 2 ^ (i - 1)
  | _ => [0, 8, 16, 24, 32, 48, 64, 96].getD i 0

/-- The unscaled value of a code of type `ct`, exactly (R128). -/
def codeDy (ct code : Nat) : Dy :=
  if ct = 0 then
    { neg := decide (8 ≤ code), m := 8 * (if 8 ≤ code then 16 - code else code), e := -3 }
  else { neg := decide (8 ≤ code), m := codeMag ct (code % 8), e := -3 }

def scaleTy (b : W8) : Nat := b.toNat / 64
def scaleExp (b : W8) : Nat := b.toNat % 64
/-- Multiply by s = 2^(e − 32) (R129). -/
def dyScale (d : Dy) (e : Int) : Dy := { d with e := d.e + e - 32 }

/-- The 4-bit pattern of a signed magnitude index; a zero is written 0x0. -/
def codeBits (ct : Nat) (neg : Bool) (i : Nat) : Nat :=
  if i = 0 then 0 else if ct = 0 then (if neg then 16 - i else i) else (if neg then 8 + i else i)

/-- Largest index of a sign: 7, but 8 for negative uniform integers. -/
def codeTop (ct : Nat) (neg : Bool) : Nat := if ct = 0 && neg then 8 else 7
def codeIdxMag (ct i : Nat) : Nat := if ct = 0 then 8 * i else codeMag ct i

/-- RoundToCodes with the saturation of R147: code and flags of a scaled finite value. -/
def roundCode (ct : Nat) (mode : RMode) (noise : Nat) (y : Dy) : Nat × Flg :=
  if y.m = 0 then (0, 0)
  else
    let top := codeTop ct y.neg
    let at' := fun i => ({ neg := false, m := codeIdxMag ct i, e := -3 } : Dy)
    if magLt (at' top) y then (codeBits ct y.neg top, fSA ||| fNX)
    else
      let lo := ((List.range top).filter (fun i => !magLt y (at' (i + 1)))).length
      let q := min y.e (-3)
      let ym := y.m * 2 ^ (y.e - q).toNat
      let lm := codeIdxMag ct lo * 2 ^ (-3 - q).toNat
      let hm := codeIdxMag ct (lo + 1) * 2 ^ (-3 - q).toNat
      if ym = lm then (codeBits ct y.neg lo, 0)
      else
        let r := ym - lm
        let w := hm - lm
        let away := match mode with
          | .ne => decide (w < 2 * r) || (decide (2 * r = w) && lo % 2 == 1)
          | .tz => false
          | .up => !y.neg
          | .dn => y.neg
          | .st => decide (noise < r * 2 ^ 32 / w)
        (codeBits ct y.neg (if away then lo + 1 else lo), fNX)

/-- Emax of R146. -/
def emaxOf (ct : Nat) : Int := if ct ≤ 1 then 2 else 3

/-- The scale exponent of a block of finite values (R146, R209). -/
def scaleOf (emax : Int) (xs : List Dy) : Nat :=
  let top : Option Int := xs.foldl (fun (best : Option Int) (d : Dy) =>
    if d.m = 0 then best
    else
      let k : Int := d.e + bitLen d.m - 1
      match best with
      | none => some k
      | some j => some (max j k)) none
  match top with
  | none => 0
  | some k => (min (max (k - emax + 32) 0) 62).toNat

end Sys2Proof.Machine
end

