-- ==== Sys2Proof/Machine/VectorInt.lean ====
section
/-! DEFINITION. Vector integer instructions of majors 0x10 to 0x12 (R103 to R106, R113 to R116). -/
namespace Sys2Proof.Machine
open Sys2Proof

/-- A lane-wise operation on two vector sources, with flags. -/
def vector2 (h : Hdr) (t : Ty) (d a b : VReg) (f : W64 → W64 → W64) (fl : W64 → W64 → Flg) (s : State) : Out :=
  issue h [vsrc t a, vsrc t b, vdst t d] (fun v rows =>
    let m := execOf h v.g
    .done (writeElems v t d m (fun l => f (elem t rows 0 l) (elem t rows 1 l)))
      (orFlags m (fun l => fl (elem t rows 0 l) (elem t rows 1 l)))) s

/-- A lane-wise operation on one vector source. -/
def vector1 (h : Hdr) (t : Ty) (d a : VReg) (f : W64 → W64) (s : State) : Out :=
  issue h [vsrc t a, vdst t d] (fun v rows =>
    .done (writeElems v t d (execOf h v.g) (fun l => f (elem t rows 0 l))) 0) s

/-- A lane-wise operation whose second source is a broadcast value (R106, R115). -/
def vectorX (h : Hdr) (t : Ty) (d a : VReg) (b : VImm) (f : W64 → W64 → W64) (fl : W64 → W64 → Flg) (s : State) : Out :=
  issue h ([vsrc t a] ++ vimmOps b ++ [vdst t d]) (fun v rows =>
    let m := execOf h v.g
    let y := vimmVal v.g b
    .done (writeElems v t d m (fun l => f (elem t rows 0 l) y)) (orFlags m (fun l => fl (elem t rows 0 l) y))) s

def noFlag (_ _ : W64) : Flg := 0
def addsFlag (t : Ty) (a b : W64) : Flg := satFlag t (val t a + val t b)
def subsFlag (t : Ty) (a b : W64) : Flg := satFlag t (val t a - val t b)

def execVadd (h : Hdr) (t : Ty) (d a b : VReg) (s : State) : Out := vector2 h t d a b (opAdd t) noFlag s
def execVsub (h : Hdr) (t : Ty) (d a b : VReg) (s : State) : Out := vector2 h t d a b (opSub t) noFlag s
def execVmul (h : Hdr) (t : Ty) (d a b : VReg) (s : State) : Out := vector2 h t d a b (opMul t) noFlag s
def execVmulh (h : Hdr) (t : Ty) (d a b : VReg) (s : State) : Out := vector2 h t d a b (opMulh t) noFlag s
def execVand (h : Hdr) (t : Ty) (d a b : VReg) (s : State) : Out := vector2 h t d a b (opAnd t) noFlag s
def execVor (h : Hdr) (t : Ty) (d a b : VReg) (s : State) : Out := vector2 h t d a b (opOr t) noFlag s
def execVxor (h : Hdr) (t : Ty) (d a b : VReg) (s : State) : Out := vector2 h t d a b (opXor t) noFlag s
def execVshl (h : Hdr) (t : Ty) (d a b : VReg) (s : State) : Out := vector2 h t d a b (opShl t) noFlag s
def execVshr (h : Hdr) (t : Ty) (d a b : VReg) (s : State) : Out := vector2 h t d a b (opShr t) noFlag s
def execVsra (h : Hdr) (t : Ty) (d a b : VReg) (s : State) : Out := vector2 h t d a b (opSra t) noFlag s
def execVmin (h : Hdr) (t : Ty) (d a b : VReg) (s : State) : Out := vector2 h t d a b (opMin t) noFlag s
def execVmax (h : Hdr) (t : Ty) (d a b : VReg) (s : State) : Out := vector2 h t d a b (opMax t) noFlag s

/-- VMAD: three vector sources (R113). -/
def execVmad (h : Hdr) (t : Ty) (d a b c : VReg) (s : State) : Out :=
  issue h [vsrc t a, vsrc t b, vsrc t c, vdst t d] (fun v rows =>
    .done (writeElems v t d (execOf h v.g) (fun l => opMad t (elem t rows 0 l) (elem t rows 1 l) (elem t rows 2 l))) 0) s

def execVnot (h : Hdr) (t : Ty) (d a : VReg) (s : State) : Out := vector1 h t d a (opNot t) s
def execVabs (h : Hdr) (t : Ty) (d a : VReg) (s : State) : Out := vector1 h t d a (opAbs t) s
def execVclz (h : Hdr) (t : Ty) (d a : VReg) (s : State) : Out := vector1 h t d a (opClz t) s
def execVpopc (h : Hdr) (t : Ty) (d a : VReg) (s : State) : Out := vector1 h t d a (opPopc t) s

/-- VADDS and VSUBS saturate and raise SA (R114). -/
def execVadds (h : Hdr) (t : Ty) (d a b : VReg) (s : State) : Out := vector2 h t d a b (opAdds t) (addsFlag t) s
def execVsubs (h : Hdr) (t : Ty) (d a b : VReg) (s : State) : Out := vector2 h t d a b (opSubs t) (subsFlag t) s

def execVaddX (h : Hdr) (t : Ty) (d a : VReg) (b : VImm) (s : State) : Out := vectorX h t d a b (opAdd t) noFlag s
def execVsubX (h : Hdr) (t : Ty) (d a : VReg) (b : VImm) (s : State) : Out := vectorX h t d a b (opSub t) noFlag s
def execVmulX (h : Hdr) (t : Ty) (d a : VReg) (b : VImm) (s : State) : Out := vectorX h t d a b (opMul t) noFlag s
def execVmulhX (h : Hdr) (t : Ty) (d a : VReg) (b : VImm) (s : State) : Out := vectorX h t d a b (opMulh t) noFlag s
def execVandX (h : Hdr) (t : Ty) (d a : VReg) (b : VImm) (s : State) : Out := vectorX h t d a b (opAnd t) noFlag s
def execVorX (h : Hdr) (t : Ty) (d a : VReg) (b : VImm) (s : State) : Out := vectorX h t d a b (opOr t) noFlag s
def execVxorX (h : Hdr) (t : Ty) (d a : VReg) (b : VImm) (s : State) : Out := vectorX h t d a b (opXor t) noFlag s
def execVshlX (h : Hdr) (t : Ty) (d a : VReg) (b : VImm) (s : State) : Out := vectorX h t d a b (opShl t) noFlag s
def execVshrX (h : Hdr) (t : Ty) (d a : VReg) (b : VImm) (s : State) : Out := vectorX h t d a b (opShr t) noFlag s
def execVsraX (h : Hdr) (t : Ty) (d a : VReg) (b : VImm) (s : State) : Out := vectorX h t d a b (opSra t) noFlag s
def execVminX (h : Hdr) (t : Ty) (d a : VReg) (b : VImm) (s : State) : Out := vectorX h t d a b (opMin t) noFlag s
def execVmaxX (h : Hdr) (t : Ty) (d a : VReg) (b : VImm) (s : State) : Out := vectorX h t d a b (opMax t) noFlag s
def execVaddsX (h : Hdr) (t : Ty) (d a : VReg) (b : VImm) (s : State) : Out := vectorX h t d a b (opAdds t) (addsFlag t) s
def execVsubsX (h : Hdr) (t : Ty) (d a : VReg) (b : VImm) (s : State) : Out := vectorX h t d a b (opSubs t) (subsFlag t) s

/-- VCMP (R108, R116). -/
def execVcmp (h : Hdr) (t : Ty) (d : PReg) (a b : VReg) (cond : Cond) (s : State) : Out :=
  issue h [vsrc t a, vsrc t b] (fun v rows =>
    .done { v with g := writeP v.g d (execOf h v.g) (maskOf (fun l => opCmp t cond (elem t rows 0 l) (elem t rows 1 l))) } 0) s

/-- VSEL (R116). -/
def execVsel (h : Hdr) (t : Ty) (d a b : VReg) (c : PReg) (s : State) : Out :=
  issue h [vsrc t a, vsrc t b, .p c, vdst t d] (fun v rows =>
    let p := readP v.g c
    .done (writeElems v t d (execOf h v.g) (fun l => if p.getLsbD l then elem t rows 0 l else elem t rows 1 l)) 0) s

/-- VMOV from a vector register or a broadcast s-register (R106, R116). -/
def execVmov (h : Hdr) (t : Ty) (d : VReg) (a : SVReg) (s : State) : Out :=
  match a with
  | .v x => vector1 h t d x id s
  | .s x => issue h [ssrc x, vdst t d] (fun v _ => .done (writeElems v t d (execOf h v.g) (fun _ => readS v.g x)) 0) s

end Sys2Proof.Machine
end

