-- ==== Sys2Proof/Machine/CrossLane.lean ====
section
/-! DEFINITION. Predicate instructions of major 0x13 (R117) and cross-lane instructions of major 0x14 (R118 to R123, R150). -/
namespace Sys2Proof.Machine
open Sys2Proof

/-- A lane-wise operation on two predicates. -/
def pred2 (h : Hdr) (d a b : PReg) (f : Lanes → Lanes → Lanes) (s : State) : Out :=
  issue h [.p a, .p b] (fun v _ => .done { v with g := writeP v.g d (execOf h v.g) (f (readP v.g a) (readP v.g b)) } 0) s

def pred1 (h : Hdr) (d a : PReg) (f : Lanes → Lanes) (s : State) : Out :=
  issue h [.p a] (fun v _ => .done { v with g := writeP v.g d (execOf h v.g) (f (readP v.g a)) } 0) s

def execPand (h : Hdr) (d a b : PReg) (s : State) : Out := pred2 h d a b (· &&& ·) s
def execPor (h : Hdr) (d a b : PReg) (s : State) : Out := pred2 h d a b (· ||| ·) s
def execPxor (h : Hdr) (d a b : PReg) (s : State) : Out := pred2 h d a b (· ^^^ ·) s
def execPnot (h : Hdr) (d a : PReg) (s : State) : Out := pred1 h d a (~~~ ·) s
def execPmov (h : Hdr) (d a : PReg) (s : State) : Out := pred1 h d a id s

def execPset (h : Hdr) (d : PReg) (a : SReg) (s : State) : Out :=
  issue h [ssrc a] (fun v _ => .done { v with g := writeP v.g d (execOf h v.g) (readS v.g a) } 0) s

def execPcnt (h : Hdr) (d : SReg) (a : PReg) (s : State) : Out :=
  issue h [.p a, sdst d] (fun v _ => doneS v d (BitVec.ofNat 64 (popc (execOf h v.g &&& readP v.g a)))) s

/-! ### Cross-lane -/

/-- Source(l) of R119; out of range the lane keeps its own value. -/
def shflSrc (m : ShflMode) (idx : Nat → Nat) (l : Nat) : Nat :=
  match m with
  | .idx _ => idx l % 64
  | .up n => if n.toNat ≤ l then l - n.toNat else l
  | .down n => if l + n.toNat < 64 then l + n.toNat else l
  | .xor n => l ^^^ n.toNat

/-- SHFL (R118, R119): a source lane outside EXEC gives its current contents. The index register is a single register, or the even one of
a pair. -/
def execShfl (h : Hdr) (t : Ty) (d a : VReg) (m : ShflMode) (s : State) : Out :=
  let ib := match m with
    | .idx b => [vsrc t b]
    | _ => []
  issue h ([vsrc t a] ++ ib ++ [vdst t d]) (fun v rows =>
    let src := shflSrc m (fun l => (elem t rows 1 l).toNat % 2 ^ 32)
    .done (writeElems v t d (execOf h v.g) (fun l => elem t rows 0 (src l))) 0) s

/-- RDFL: the lowest executing lane (R120). -/
def execRdfl (h : Hdr) (t : Ty) (d : SReg) (a : VReg) (s : State) : Out :=
  issue h [vsrc t a, sdst d] (fun v rows =>
    let x := elem t rows 0 ((lowest (execOf h v.g)).getD 0)
    doneS v d (if t = .s32 then (x.setWidth 32).signExtend 64 else x)) s

def execVote (h : Hdr) (d : SReg) (a : PReg) (m : VoteMode) (s : State) : Out :=
  issue h [.p a, sdst d] (fun v _ =>
    let ex := execOf h v.g
    let p := ex &&& readP v.g a
    doneS v d (match m with
      | .ballot => p
      | .any => boolW (p != 0)
      | .all => boolW (p == ex))) s

/-! ### REDUCE and SCAN (R122) -/

/-- The identity of an operation, also for .f32: −0, +∞, −∞. -/
def identOf (t : Ty) (o : RedOp) : W64 :=
  if t = .f32 then
    match o with
    | .min => 0x7F800000
    | .max => 0xFF800000
    | _ => 0x80000000
  else redIdent t o

/-- One combination, the lower lane on the left, and its flags. -/
def redStep (t : Ty) (o : RedOp) (a b : W64) : W64 × Flg :=
  if t = .f32 then
    let r := match o with
      | .min => minmaxF f32 false a.toNat b.toNat
      | .max => minmaxF f32 true a.toNat b.toNat
      | _ => add32 a.toNat b.toNat
    (BitVec.ofNat 64 r.1, r.2)
  else (redInt t o a b, 0)

/-- The starting values: Val of the executing lanes, the identity elsewhere. -/
def redStart (t : Ty) (o : RedOp) (m : Lanes) (x : Nat → W64) : List W64 :=
  (List.range 64).map (fun i => if m.getLsbD i then (if t = .f32 then (x i).setWidth 32 |>.setWidth 64 else fit t (val t (x i))) else identOf t o)

/-- Pairwise halving: neighbours combine until one value is left. -/
def halve (t : Ty) (o : RedOp) : List W64 → Flg → List W64 × Flg
  | a :: b :: rest, fl =>
    let r := redStep t o a b
    let q := halve t o rest (fl ||| r.2)
    (r.1 :: q.1, q.2)
  | l, fl => (l, fl)

def reduceAll (t : Ty) (o : RedOp) : Nat → List W64 → Flg → W64 × Flg
  | 0, l, fl => (l.headD 0, fl)
  | n + 1, l, fl =>
    let r := halve t o l fl
    reduceAll t o n r.1 r.2

/-- One scan step of distance `k`. -/
def scanStep (t : Ty) (o : RedOp) (k : Nat) (l : List W64) : List W64 × Flg :=
  let r := (List.range 64).map (fun i => if k ≤ i then redStep t o (l.getD (i - k) 0) (l.getD i 0) else (l.getD i 0, (0 : Flg)))
  (r.map (fun e => e.1), r.foldl (fun f e => f ||| e.2) 0)

def scanAll (t : Ty) (o : RedOp) : List Nat → List W64 → Flg → List W64 × Flg
  | [], l, fl => (l, fl)
  | k :: ks, l, fl =>
    let r := scanStep t o k l
    scanAll t o ks r.1 (fl ||| r.2)

def execReduce (h : Hdr) (t : Ty) (d : SReg) (a : VReg) (op : RedOp) (s : State) : Out :=
  issue h [vsrc t a, sdst d] (fun v rows =>
    let r := reduceAll t op 6 (redStart t op (execOf h v.g) (elem t rows 0)) 0
    .done { v with g := writeS v.g d r.1 } r.2) s

def execScan (h : Hdr) (t : Ty) (d a : VReg) (op : RedOp) (excl : Bool) (s : State) : Out :=
  issue h [vsrc t a, vdst t d] (fun v rows =>
    let m := execOf h v.g
    let r := scanAll t op [1, 2, 4, 8, 16, 32] (redStart t op m (elem t rows 0)) 0
    .done (writeElems v t d m (fun l =>
      if excl then (if l = 0 then identOf t op else r.1.getD (l - 1) 0) else r.1.getD l 0)) r.2) s

/-! ### SAMPLE (R150) -/

/-- Prefix sums in lane order. -/
def prefixSums : List Nat → Nat → List Nat
  | [], _ => []
  | w :: ws, acc =>
    let x := (add32 acc w).1
    x :: prefixSums ws x

def f32Lt (a b : Nat) : Bool := decide (cmpF f32 a b < 0)

/-- The lane chosen, or the results of the degenerate cases, with NV. -/
def sampleOf (ex : Lanes) (w : Nat → Nat) (u : Nat) : W64 × Flg :=
  let ws := (List.range 64).map (fun l => if ex.getLsbD l then w l else 0)
  let bad := fun x => isNan (decF f32 x) || f32Lt x 0
  if bad u || !f32Lt u 0x3F800000 || ws.any bad then (0xFFFFFFFFFFFFFFFE, fNV)
  else
    let sums := match ws with
      | [] => []
      | x :: t => x :: prefixSums t x
    let tot := sums.getD 63 0
    if cmpF f32 tot 0 = 0 then (0xFFFFFFFFFFFFFFFF, 0)
    else if tot = 0x7F800000 then
      (BitVec.ofNat 64 ((firstFrom (fun l => sums.getD l 0 == 0x7F800000) 0 64).getD 0), 0)
    else
      let thr := (mul32 u tot).1
      match firstFrom (fun l => ex.getLsbD l && f32Lt thr (sums.getD l 0)) 0 64 with
      | some l => (BitVec.ofNat 64 l, 0)
      | none =>
        let c := (List.range 64).filter (fun l => ex.getLsbD l && f32Lt 0 (ws.getD l 0))
        (BitVec.ofNat 64 (c.getLastD 0), 0)

def execSample (h : Hdr) (d : SReg) (a : VReg) (b : SReg) (s : State) : Out :=
  issue h [vsrc .f32 a, ssrc b, sdst d] (fun v rows =>
    let r := sampleOf (execOf h v.g) (fun l => (elem .f32 rows 0 l).toNat) ((readS v.g b).toNat % 2 ^ 32)
    .done { v with g := writeS v.g d r.1 } r.2) s

end Sys2Proof.Machine
end

