-- ==== Sys2Proof/Machine/FloatArith.lean ====
section
/-! DEFINITION. Float arithmetic, compare, class and status: majors 0x18, 0x19 and 0x1B (R126, R131 to R137, R143 to R145). -/
namespace Sys2Proof.Machine
open Sys2Proof

/-- Key(g, l) of R143 from the identity the group's special registers read. -/
def noiseKey (v : View) (l : Nat) : W64 :=
  let gid := if isHandler v then 0 else v.gid
  match identBlock v with
  | some b => BitVec.ofNat 64 (b.index.toNat * 2 ^ 32 + b.stage.toNat * 2 ^ 29 + b.depth * 2 ^ 26 + b.serial * 2 ^ 16 + gid * 256 + l)
  | none => BitVec.ofNat 64 (gid * 256 + l)

/-- The draw of lane `l`, element `e` at the counter value held now; zero when the mode draws nothing. -/
def drawOf (v : View) (mode : RMode) (l e : Nat) : Nat :=
  if mode = .st then noiseOf (identW v (fun b => b.seed)) (noiseKey v l) e v.g.sround else 0

/-- %sround advances once when the mode is stochastic (R145). -/
def bumpRound (v : View) (mode : RMode) : View := if mode = .st then { v with g := { v.g with sround := v.g.sround + 1 } } else v

/-- The results of the lanes of `m`, each computed once, with flags. -/
def laneResults (m : Lanes) (f : Nat → W32 × Flg) : List (W32 × Flg) :=
  (List.range 64).map (fun l => if m.getLsbD l then f l else (0, 0))

def resRow (r : List (W32 × Flg)) : Row := r.map (fun e => e.1)
def resFlags (r : List (W32 × Flg)) : Flg := r.foldl (fun a e => a ||| e.2) 0

/-- The slots of a float type in a register (R126). -/
def slotsOf (t : Ty) : Nat := 32 / tyWidth t

/-- Element at slot `i` of a register (R126). -/
def slotVal (t : Ty) (x : W32) (i : Nat) : Nat := x.toNat / 2 ^ (tyWidth t * i) % 2 ^ tyWidth t

/-- Combine one result per slot. -/
def perSlot (t : Ty) (f : Nat → Nat × Flg) : W32 × Flg :=
  (List.range (slotsOf t)).foldl (fun a i =>
    let r := f i
    (a.1 ||| BitVec.ofNat 32 (r.1 * 2 ^ (tyWidth t * i)), a.2 ||| r.2)) (0, 0)

/-- An operation on every slot of every executing lane. `f` gets the mode, the draw and the sources' bits. -/
def floatOp (h : Hdr) (t : Ty) (r : Rm) (d : VReg) (srcs : List VReg) (f : RMode → Nat → List Nat → Nat × Flg) (s : State) : Out :=
  issue h (srcs.map (vsrc t) ++ [vdst t d]) (fun v rows =>
    let mode := effMode r v.g.frm
    let m := execOf h v.g
    let res := laneResults m (fun l => perSlot t (fun i => f mode (drawOf v mode l i) (rows.map (fun x => slotVal t (rget x l) i))))
    .done (bumpRound (writeRow v d.toNat m (resRow res)) mode) (resFlags res)) s

def arg (l : List Nat) (i : Nat) : Nat := l.getD i 0

def execFadd (h : Hdr) (t : Ty) (r : Rm) (d a b : VReg) (s : State) : Out :=
  floatOp h t r d [a, b] (fun m n x => addV (fmtOf t) m n (decF (fmtOf t) (arg x 0)) (decF (fmtOf t) (arg x 1))) s
def execFsub (h : Hdr) (t : Ty) (r : Rm) (d a b : VReg) (s : State) : Out :=
  floatOp h t r d [a, b] (fun m n x => addV (fmtOf t) m n (decF (fmtOf t) (arg x 0)) (negV (decF (fmtOf t) (arg x 1)))) s
def execFmul (h : Hdr) (t : Ty) (r : Rm) (d a b : VReg) (s : State) : Out :=
  floatOp h t r d [a, b] (fun m n x => mulV (fmtOf t) m n (decF (fmtOf t) (arg x 0)) (decF (fmtOf t) (arg x 1))) s
def execFfma (h : Hdr) (t : Ty) (r : Rm) (d a b c : VReg) (s : State) : Out :=
  floatOp h t r d [a, b, c] (fun m n x =>
    fmaV (fmtOf t) m n (decF (fmtOf t) (arg x 0)) (decF (fmtOf t) (arg x 1)) (decF (fmtOf t) (arg x 2))) s
def execFmin (h : Hdr) (t : Ty) (d a b : VReg) (s : State) : Out :=
  floatOp h t .rn d [a, b] (fun _ _ x => minmaxF (fmtOf t) false (arg x 0) (arg x 1)) s
def execFmax (h : Hdr) (t : Ty) (d a b : VReg) (s : State) : Out :=
  floatOp h t .rn d [a, b] (fun _ _ x => minmaxF (fmtOf t) true (arg x 0) (arg x 1)) s
def execFabs (h : Hdr) (t : Ty) (d a : VReg) (s : State) : Out :=
  floatOp h t .rn d [a] (fun _ _ x => (arg x 0 % signBit (fmtOf t), 0)) s
def execFneg (h : Hdr) (t : Ty) (d a : VReg) (s : State) : Out :=
  floatOp h t .rn d [a] (fun _ _ x => ((arg x 0 + signBit (fmtOf t)) % (2 * signBit (fmtOf t)), 0)) s

/-- FCMP on the slot that bit 4 of x names (R135). -/
def execFcmp (h : Hdr) (t : Ty) (d : PReg) (a b : VReg) (cond : FCond) (slot : Bool) (s : State) : Out :=
  issue h [vsrc t a, vsrc t b] (fun v rows =>
    let m := execOf h v.g
    let i := if slot then 1 else 0
    let res := (List.range 64).map (fun l =>
      if m.getLsbD l then
        fcmpF (fmtOf t) cond (slotVal t (rget (rows.getD 0 zeroRow) l) i) (slotVal t (rget (rows.getD 1 zeroRow) l) i)
      else (false, 0))
    .done { v with g := writeP v.g d m (maskOf (fun l => (res.getD l (false, 0)).1)) } (res.foldl (fun f e => f ||| e.2) 0)) s

/-- FCLASS: one bit per slot, slot 1 in bits 25..16 (R136). -/
def execFclass (h : Hdr) (t : Ty) (d a : VReg) (s : State) : Out :=
  issue h [vsrc t a, vdst t d] (fun v rows =>
    let cls := fun l i => 2 ^ classF (fmtOf t) (slotVal t (rget (rows.getD 0 zeroRow) l) i)
    .done (writeRow v d.toNat (execOf h v.g) (rowOf (fun l =>
      BitVec.ofNat 32 (if slotsOf t = 2 then cls l 0 + cls l 1 * 65536 else cls l 0)))) 0) s

/-- An MMA, an ATOMG.fadd or an ARED of the group may still raise flags (R137, R243). -/
def flagsPending (v : View) : Bool :=
  (opsOfG v.st v.uid v.gid).any (fun e => match e.2.body with
    | .mma _ => true
    | .atomg .fadd _ _ _ _ _ _ _ _ => true
    | .ared .. => true
    | _ => false)

/-- FSTAT waits under reason 1 for earlier flags, reads %fflags and clears the bits of the mask (R137). -/
def execFstat (h : Hdr) (d : SReg) (mask : BitVec 6) (s : State) : Out :=
  issue h [sdst d] (fun v _ =>
    if flagsPending v then .hold v 1
    else doneS { v with g := { v.g with fflags := v.g.fflags &&& ~~~mask } } d (v.g.fflags.setWidth 64)) s

def execFmode (h : Hdr) (d : SReg) (mode : BitVec 3) (s : State) : Out :=
  issue h [sdst d] (fun v _ => doneS { v with g := { v.g with frm := mode } } d (v.g.frm.setWidth 64)) s

end Sys2Proof.Machine
end

