-- ==== Sys2Proof/Machine/Scratch.lean ====
section
/-! DEFINITION. Scratchpad loads, stores and atomics, the tag table (R152, R153, R158, R163 to R168, R379), majors 0x28 to 0x2A, and the
capability instructions of major 0x2C (R159 to R162). -/
namespace Sys2Proof.Machine
open Sys2Proof

/-! ### Scratchpad bytes and tags (R155) -/

/-- The block whose scratchpad the view addresses, and its replacement. -/
def scrBlock (v : View) : Block :=
  if isHandler v then ((handledBlk v).bind (fun u => tget v.st.blocks u)).getD v.b else v.b

def setScr (v : View) (b : Block) : View :=
  if isHandler v then
    match handledBlk v with
    | some u => { v with st := setBlk v.st u b }
    | none => v
  else { v with b := b }

/-- Scratchpad bytes of an access in one lane: StackMap maps each byte of space 2 (R153). -/
def byteAddrs (sp a size l : Nat) : List Nat := (List.range size).map (fun i => if sp = 2 then stackMap (a + i) l else a + i)

/-- A write of one byte clears the tag of its granule (R155). -/
def scrByte (b : Block) (a : Nat) (x : W8) : Block := { b with scratch := bput b.scratch a x, tags := ndel b.tags (a / 16) }

def scrWrite (b : Block) (addrs : List Nat) (xs : List W8) : Block := (addrs.zip xs).foldl (fun b e => scrByte b e.1 e.2) b

def scrRead (b : Block) (addrs : List Nat) : List W8 := addrs.map (bget b.scratch)

/-- A group of the block has a HELD lane (R98). -/
def dheld (b : Block) : Bool := b.groups.any (fun g => lanesIn g .held != 0)

/-- A barrier object in the layout of R98. -/
def barNat (b : Block) (i : Nat) : Nat :=
  let o := barOf b i
  o.pending.toNat + o.expected.toNat * 2 ^ 32 + (if o.phase then 2 ^ 64 else 0) + (if dheld b then 2 ^ 65 else 0)

/-- Bytes read by a load: scratchpad, or barrier objects through the handler's window (R379). -/
def loadBytes (v : View) (sp a size l : Nat) : List W8 :=
  let b := scrBlock v
  if sp = 1 && isHandler v && decide (barWindow ≤ a) then
    (leBytes 16 (barNat b ((a - barWindow) / 16))).drop ((a - barWindow) % 16) |>.take size
  else scrRead b (byteAddrs sp a size l)

/-! ### Operands of format M -/

def widthBytes : Width → Nat
  | .w8 => 1
  | .w16 => 2
  | .w32 => 4
  | .w64 => 8
  | .w128 | .wcap => 16

def widthRegs : Width → Nat
  | .w64 => 2
  | .w128 => 4
  | _ => 1

def offOps : MemOff → List Opd
  | .v x => [vsrc .n32 x]
  | .s x => [ssrc x]
  | .none => []

/-- off := disp + X(l) (R164); `rows` starts with the offset register when there is one. -/
def memOff (g : Group) (x : MemOff) (disp : W16) (rows : List Row) (l : Nat) : Int :=
  disp.toInt + (match x with
    | .v _ => ((rget (rows.headD zeroRow) l).toNat : Int)
    | .s r => ((readS g r).toNat : Int)
    | .none => 0)

def dataRows (x : MemOff) (rows : List Row) : List Row :=
  match x with
  | .v _ => rows.tail
  | _ => rows

/-- The group's range entries that overlap bytes it touches hold it back (R173). -/
def bytesHeld (v : View) (addrs : List Nat) (write : Bool) : Bool :=
  v.st.ranges.any (fun e => e.2.blk == v.uid && e.2.gid == v.gid && (e.2.inb || write) &&
    addrs.any (fun a => decide (e.2.lo ≤ a) && decide (a < e.2.hi)))

/-- Byte addresses that all lanes of `m` touch. -/
def allBytes (c : Cap) (m : Lanes) (off : Nat → Int) (size : Nat) : List Nat :=
  (laneList m).foldl (fun a l => a ++ byteAddrs (capSpace c) (capBase c + off l).toNat size l) []

/-! ### LDS and STS -/

/-- What a load writes: registers, or a predicate for the tag probe (R163, R164). -/
def loadEffect (v : View) (w : Width) (d : VReg) (c : Cap) (m : Lanes) (off : Nat → Int) : View :=
  let at' := fun l => (capBase c + off l).toNat
  if w = .wcap then
    let b := scrBlock v
    { v with g := writeP v.g (d.setWidth 3) m (maskOf (fun l => b.tags.contains (at' l / 16))) }
  else
    let data := (List.range 64).map (fun l => if m.getLsbD l then leNat (loadBytes v (capSpace c) (at' l) (widthBytes w) l) else 0)
    (List.range (widthRegs w)).foldl (fun v k =>
      writeRow v (d.toNat + k) m (rowOf (fun l => BitVec.ofNat 32 (data.getD l 0 / 2 ^ (32 * k))))) v

/-- What a store writes, lanes in ascending order (R164). -/
def storeEffect (v : View) (w : Width) (rows : List Row) (c : Cap) (m : Lanes) (off : Nat → Int) : View :=
  let val := fun l => (List.range (widthRegs w)).foldl (fun x k => x + (rget (rows.getD k zeroRow) l).toNat * 2 ^ (32 * k)) 0
  setScr v ((laneList m).foldl (fun b l =>
    scrWrite b (byteAddrs (capSpace c) (capBase c + off l).toNat (widthBytes w) l) (leBytes (widthBytes w) (val l))) (scrBlock v))

def ldsOps (w : Width) (d : VReg) (c : CReg) (x : MemOff) : List Opd :=
  [.c c] ++ offOps x ++ (if w = .wcap then [] else [.v d.toNat (widthRegs w) false true])

/-- The checks of an LDS: an offset of LDS.wcap that is no multiple of 16 is a misalignment as well (R164). -/
def ldsCheck (v : View) (w : Width) (m : Lanes) (c : Cap) (off : Nat → Int) : Option Res :=
  if w = .wcap then
    lanesFail m c off (fun l =>
      let fs := failing (footOf v) c (off l) 16 pR [1] l false
      if off l % 16 = 0 then fs else nput fs 6)
  else checkLanes v m c off (widthBytes w) pR [1, 2] true

def execLds (h : Hdr) (w : Width) (d : VReg) (c : CReg) (x : MemOff) (disp : W16) (s : State) : Out :=
  issue h (ldsOps w d c x) (fun v rows =>
    let m := execOf h v.g
    let cap := readC v.g c
    let off := memOff v.g x disp rows
    match ldsCheck v w m cap off with
    | some r => r
    | none =>
      if bytesHeld v (allBytes cap m off (widthBytes w)) false then .hold v 2
      else .done (loadEffect v w d cap m off) 0) s

def stsOps (w : Width) (d : VReg) (c : CReg) (x : MemOff) : List Opd := [.c c] ++ offOps x ++ [.v d.toNat (widthRegs w) true false]

def execSts (h : Hdr) (w : Width) (d : VReg) (c : CReg) (x : MemOff) (disp : W16) (s : State) : Out :=
  issue h (stsOps w d c x) (fun v rows =>
    let m := execOf h v.g
    let cap := readC v.g c
    let off := memOff v.g x disp rows
    match checkLanes v m cap off (widthBytes w) pW [1, 2] false with
    | some r => r
    | none =>
      if bytesHeld v (allBytes cap m off (widthBytes w)) true then .hold v 2
      else .done (storeEffect v w (dataRows x rows) cap m off) 0) s

/-! ### Misaligned accesses performed byte by byte (R158, R340 mode 3) -/

/-- The bytes of an access in ascending lanes and, within a lane, ascending addresses: lane, place in the element, address and value. -/
def emulTodo (c : Cap) (m : Lanes) (off : Nat → Int) (n : Nat) (xs : Nat → List W8) : List (Nat × Nat × Nat × W8) :=
  (laneList m).foldl (fun a l =>
    a ++ ((byteAddrs (capSpace c) (capBase c + off l).toNat n l).zip (List.range n)).map (fun e => (l, e.2, e.1, (xs l).getD e.2 0))) []

/-- The bytes in an order of the device's own choosing, in which those of one address keep theirs: no observer sees the order of R158 (R249, R260;
log 38). -/
def freeOrder (free : Nat) (todo : List (Nat × Nat × Nat × W8)) : List (Nat × Nat × Nat × W8) :=
  (todo.zip (List.range todo.length)).foldl (fun acc e =>
    let after := (acc.zip (List.range acc.length)).foldl (fun n x => if x.1.2.2.1 = e.1.2.2.1 then x.2 + 1 else n) 0
    let at' := after + (Config.freeWord (free + e.2)).toNat % (acc.length + 1 - after)
    acc.take at' ++ e.1 :: acc.drop at') []

/-- The access that the device is to perform byte by byte, each byte after a time of its own (R249, R260; log 38). -/
def startEmul (v : View) (e : Emul) : View :=
  let n := e.todo.length
  { v with st := { v.st with free := v.st.free + 2 * n }
           g := { v.g with emul := some { e with todo := freeOrder v.st.free e.todo
                                                 gaps := (List.range n).map (fun i => (Config.freeWord (v.st.free + n + i)).toNat) } } }

/-- The device is to perform a misaligned LDS or STS: its operands are read now, as the handler has left them, and none of the checks of R157 is made
again (log 38); its bytes follow one at a time. -/
def emulateAccess (v : View) (i : Instr) : View :=
  match i with
  | .lds h w d c x disp =>
    let m := execOf h v.g
    let r := readRows m (ldsOps w d c x) v
    let todo := emulTodo (readC v.g c) m (memOff v.g x disp r.2) (widthBytes w) (fun _ => [])
    startEmul r.1 { load := true, v := d.toNat, regs := widthRegs w, todo := todo, got := [], gaps := [], exec := m, safe := h.safe, mask := h.mask }
  | .sts h w d c x disp =>
    let m := execOf h v.g
    let r := readRows m (stsOps w d c x) v
    let val := fun l => (List.range (widthRegs w)).foldl (fun y k => y + (rget ((dataRows x r.2).getD k zeroRow) l).toNat * 2 ^ (32 * k)) 0
    let todo := emulTodo (readC v.g c) m (memOff v.g x disp r.2) (widthBytes w) (fun l => leBytes (widthBytes w) (val l))
    startEmul r.1 { load := false, v := d.toNat, regs := widthRegs w, todo := todo, got := [], gaps := [], exec := m, safe := h.safe, mask := h.mask }
  | _ => v

/-- Every byte is done: a load writes its registers, and the group stands past the instruction and its mask word. -/
def emulEnd (v : View) (e : Emul) : View :=
  let val := fun l => (e.got.filter (fun b => b.1 == l)).foldl (fun y b => y + b.2.2.toNat * 256 ^ b.2.1) 0
  let v := if e.load then
      (List.range e.regs).foldl (fun v k => writeRow v (e.v + k) e.exec (rowOf (fun l => BitVec.ofNat 32 (val l / 2 ^ (32 * k))))) v
    else v
  endIfEmpty { v with g := { v.g with emul := none, offset := v.g.offset + (if e.safe then 2 else 1), safe := if e.safe then some e.mask else none } }

/-- One byte of an emulated access, an event of its own; it waits for the range entries of its group's copies (R173, R249). -/
def emulStep (v : View) (e : Emul) : View :=
  let v := { v with g := { v.g with tried := true, run := .issuing, stall := 0, waitS := none } }
  match e.todo with
  | [] => emulEnd v e
  | (l, i, a, x) :: rest =>
    if bytesHeld v [a] (!e.load) then { v with g := { v.g with stall := 2 } }
    else
      let w := if e.load then v else setScr v (scrByte (scrBlock v) a x)
      let e' := { e with todo := rest, gaps := e.gaps.tail, got := if e.load then (l, i, bget (scrBlock v).scratch a) :: e.got else e.got }
      if rest.isEmpty then emulEnd w e' else { w with g := { w.g with emul := some e' } }

/-! ### ATOMS (R166) -/

/-- The new value of an atomic on 32- or 64-bit operands, signed where min and max compare signed, with the flags of fadd. -/
def atomNew (op : AtomOp) (t : Ty) (old x y : W64) : W64 × Flg :=
  match op with
  | .add => (opAdd t old x, 0)
  | .and => (opAnd t old x, 0)
  | .or => (opOr t old x, 0)
  | .xor => (opXor t old x, 0)
  | .min => (opMin t old x, 0)
  | .max => (opMax t old x, 0)
  | .exch => (x, 0)
  | .cas => (if fit .n64 (uns t old) = fit .n64 (uns t x) then y else old, 0)
  | .fadd =>
    let r := add32 (old.toNat % 2 ^ 32) (x.toNat % 2 ^ 32)
    (BitVec.ofNat 64 r.1, r.2)

/-- Type under which an ATOMS operation reads its words. -/
def atomsTy (op : AtomOp) : Ty :=
  match op with
  | .min | .max => .s32
  | _ => .n32

/-- One lane of an ATOMS. -/
def atomsLane (op : AtomOp) (rows : List Row) (c : Cap) (off : Nat → Int) (acc : Block × List (Nat × W32) × Flg) (l : Nat) :
    Block × List (Nat × W32) × Flg :=
  let addrs := byteAddrs (capSpace c) (capBase c + off l).toNat 4 l
  let old := leNat (scrRead acc.1 addrs)
  let r := atomNew op (atomsTy op) (BitVec.ofNat 64 old) ((rget (rows.getD 0 zeroRow) l).setWidth 64) ((rget (rows.getD 1 zeroRow) l).setWidth 64)
  (scrWrite acc.1 addrs (leBytes 4 (r.1.toNat % 2 ^ 32)), (l, BitVec.ofNat 32 old) :: acc.2.1, acc.2.2 ||| r.2)

/-- Every ATOMS: lanes in ascending order, each seeing the ones before; the old values go to v(D). -/
def atomsOp (h : Hdr) (op : AtomOp) (d : VReg) (c : CReg) (x : MemOff) (disp : W16) (s : State) : Out :=
  let dops := if op = .cas then [Opd.v d.toNat 2 true false, Opd.v d.toNat 1 false true] else [Opd.v d.toNat 1 true true]
  issue h ([.c c] ++ offOps x ++ dops) (fun v rows =>
    let m := execOf h v.g
    let cap := readC v.g c
    let off := memOff v.g x disp rows
    match checkLanes v m cap off 4 pA [1, 2] false with
    | some r => r
    | none =>
      if bytesHeld v (allBytes cap m off 4) true then .hold v 2
      else
        let r := (laneList m).foldl (atomsLane op (dataRows x rows) cap off) (scrBlock v, [], 0)
        .done (writeRow (setScr v r.1) d.toNat m (rowOf (fun l => tgetD r.2.1 l 0))) r.2.2) s

def execAtomsAdd (h : Hdr) (_ : Scope) (d : VReg) (c : CReg) (x : MemOff) (disp : W16) (s : State) : Out := atomsOp h .add d c x disp s
def execAtomsAnd (h : Hdr) (_ : Scope) (d : VReg) (c : CReg) (x : MemOff) (disp : W16) (s : State) : Out := atomsOp h .and d c x disp s
def execAtomsOr (h : Hdr) (_ : Scope) (d : VReg) (c : CReg) (x : MemOff) (disp : W16) (s : State) : Out := atomsOp h .or d c x disp s
def execAtomsXor (h : Hdr) (_ : Scope) (d : VReg) (c : CReg) (x : MemOff) (disp : W16) (s : State) : Out := atomsOp h .xor d c x disp s
def execAtomsMin (h : Hdr) (_ : Scope) (d : VReg) (c : CReg) (x : MemOff) (disp : W16) (s : State) : Out := atomsOp h .min d c x disp s
def execAtomsMax (h : Hdr) (_ : Scope) (d : VReg) (c : CReg) (x : MemOff) (disp : W16) (s : State) : Out := atomsOp h .max d c x disp s
def execAtomsExch (h : Hdr) (_ : Scope) (d : VReg) (c : CReg) (x : MemOff) (disp : W16) (s : State) : Out := atomsOp h .exch d c x disp s
def execAtomsCas (h : Hdr) (_ : Scope) (d : VReg) (c : CReg) (x : MemOff) (disp : W16) (s : State) : Out := atomsOp h .cas d c x disp s
def execAtomsFadd (h : Hdr) (_ : Scope) (d : VReg) (c : CReg) (x : MemOff) (disp : W16) (s : State) : Out := atomsOp h .fadd d c x disp s

/-! ### The tag table (R167, R168) -/

/-- The lowest valid slot that holds the key, else 0xFFFF. -/
def slotOf (b : Block) (key : W64) : Nat :=
  match b.slots.find? (fun e => e.2 == key) with
  | some e => e.1
  | none => 0xFFFF

def execTaglk (h : Hdr) (f : TagForm) (s : State) : Out :=
  match f with
  | .s d x => issue h [ssrc x, sdst d] (fun v _ => doneS v d (BitVec.ofNat 64 (slotOf v.b (readS v.g x)))) s
  | .v d x => issue h [vsrc .n64 x, vdst .n32 d] (fun v rows =>
      .done (writeRow v d.toNat (execOf h v.g) (rowOf (fun l => BitVec.ofNat 32 (slotOf v.b (elem .n64 rows 0 l))))) 0) s

/-- A slot number at or above the slot count (R168). -/
def slotBad (v : View) (x : W64) : Bool := decide (v.b.fp.scratch ≤ x.toNat)

def execTagset (h : Hdr) (d x : SReg) (s : State) : Out :=
  issue h [ssrc x, ssrc d] (fun v _ =>
    let k := readS v.g d
    if slotBad v k then contract 6
    else
      let key := readS v.g x
      .done { v with b := { v.b with slots := tput (v.b.slots.filter (fun e => e.2 != key)) k.toNat key } } 0) s

def execTaginv (h : Hdr) (d : SReg) (s : State) : Out :=
  issue h [ssrc d] (fun v _ =>
    let k := readS v.g d
    if slotBad v k then contract 6 else .done { v with b := { v.b with slots := tdel v.b.slots k.toNat } } 0) s

/-! ### Capability instructions (R159 to R162) -/

def capOffOps : CapOff → List Opd
  | .s x => [ssrc x]
  | .none => []

def capOffVal (g : Group) (x : CapOff) (disp : W16) : Int :=
  disp.toInt + (match x with
    | .s r => ((readS g r).toNat : Int)
    | .none => 0)

/-- CAPLD: 16 bytes and the granule's tag, kept only through a capability that holds L (R160). -/
def execCapld (h : Hdr) (d c : CReg) (x : CapOff) (disp : W16) (s : State) : Out :=
  issue h ([.c c] ++ capOffOps x) (fun v _ =>
    let cap := readC v.g c
    let off := capOffVal v.g x disp
    match check1 v cap off 16 pR [1] with
    | some r => r
    | none =>
      let a := (capBase cap + off).toNat
      if bytesHeld v (byteAddrs 1 a 16 0) false then .hold v 2
      else
        let b := scrBlock v
        .done { v with g := writeC v.g d { bits := BitVec.ofNat 128 (leNat (scrRead b (byteAddrs 1 a 16 0))),
                                           tag := b.tags.contains (a / 16) && (capPerm cap &&& pL != 0) } } 0) s

/-- CAPST: a tagged value needs T and sets the granule's tag; an untagged one clears it (R155, R160). -/
def execCapst (h : Hdr) (d c : CReg) (x : CapOff) (disp : W16) (s : State) : Out :=
  issue h ([.c c] ++ capOffOps x ++ [.c d]) (fun v _ =>
    let cap := readC v.g c
    let val := readC v.g d
    let off := capOffVal v.g x disp
    match check1 v cap off 16 (if val.tag then pW ||| pT else pW) [1] with
    | some r => r
    | none =>
      let a := (capBase cap + off).toNat
      if bytesHeld v (byteAddrs 1 a 16 0) true then .hold v 2
      else
        let b := scrWrite (scrBlock v) (byteAddrs 1 a 16 0) (leBytes 16 val.bits.toNat)
        .done (setScr v (if val.tag then { b with tags := nput b.tags (a / 16) } else b)) 0) s

/-- A fault of R157's numbering on a derivation. -/
def capFault (n : Nat) (c : Cap) : Res := accessTrap n 255 false (genericAddr c 0)

/-- Replace the base and limit fields (R161). -/
def withBounds (c : Cap) (base limit : Nat) : Cap :=
  { bits := (BitVec.ofNat 128 (base * 2 ^ 80)) ||| BitVec.ofNat 128 (limit * 2 ^ 32) ||| (c.bits &&& 0xFFFFFFFF), tag := true }

def execCapsub (h : Hdr) (d c : CReg) (x : SReg) (s : State) : Out :=
  issue h [.c c, .s x.toNat 2 true false] (fun v _ =>
    let cap := readC v.g c
    let o := (readS v.g x).toNat
    let n := (readS v.g (x + 1)).toNat
    if !cap.tag then capFault 1 cap
    else if capPerm cap &&& pD = 0 then capFault 4 cap
    else if (capLimit cap : Int) - capBase cap < (o + n : Nat) then capFault 5 cap
    else .done { v with g := writeC v.g d (withBounds cap (capBase cap + o) (capBase cap + o + n)) } 0) s

/-- CAPPERM: permission bits ANDed with the mask; bit 24 is reserved, so bit 0 of the mask must be 0 (R161). -/
def execCapperm (h : Hdr) (d c : CReg) (m : BitVec 8) (s : State) : Out :=
  issue h [.c c] (fun v _ =>
    let cap := readC v.g c
    if !cap.tag then capFault 1 cap
    else if m.getLsbD 0 then illegal8
    else
      let keep : BitVec 128 := ~~~((0xFF : BitVec 128) <<< 24)
      .done { v with g := writeC v.g d { bits := (cap.bits &&& keep) ||| ((capPerm cap &&& m).setWidth 128 <<< 24), tag := true } } 0) s

/-- CAPGET; field 5 is the limit less the base, which for an untagged value may be negative: it is written modulo 2^64 (R162; DESIGN CHOICE, log 40). -/
def execCapget (h : Hdr) (d : SReg) (c : CReg) (f : BitVec 3) (s : State) : Out :=
  issue h [.c c, sdst d] (fun v _ =>
    let cap := readC v.g c
    doneS v d (match f.toNat with
      | 0 => BitVec.ofNat 64 (apertureBase (capSpace cap) + capBase cap)
      | 1 => BitVec.ofNat 64 (apertureBase (capSpace cap) + capLimit cap)
      | 2 => (capPerm cap).setWidth 64
      | 3 => BitVec.ofNat 64 (capSpace cap)
      | 4 => boolW cap.tag
      | _ => BitVec.ofInt 64 ((capLimit cap : Int) - capBase cap))) s

/-- CAPOFF: a generic address as an offset under the capability, or all ones outside it (R162). -/
def execCapoff (h : Hdr) (d : SReg) (c : CReg) (x : SReg) (s : State) : Out :=
  issue h [.c c, ssrc x, sdst d] (fun v _ =>
    let cap := readC v.g c
    let lo := apertureBase (capSpace cap) + capBase cap
    let hi := apertureBase (capSpace cap) + capLimit cap
    let a := (readS v.g x).toNat
    if !cap.tag then capFault 1 cap
    else doneS v d (if lo ≤ a ∧ a < hi then BitVec.ofNat 64 (a - lo) else 0xFFFFFFFFFFFFFFFF)) s

end Sys2Proof.Machine
end

