-- ==== Sys2Proof/Machine/Memory.lean ====
section
/-! DEFINITION. Global memory: translation (R266 to R271), residency and the wait table (R272 to R277), committed and provisional bytes at
their homes (R187, R282, R283), watchpoints (R369, R370), lost sectors (R316) and shared pages (R279). -/
namespace Sys2Proof.Machine
open Sys2Proof

/-! ### The walk (R266, R267, R270) -/

/-- A page-table entry in the cellar. -/
def pteAt (s : State) (a : Nat) : W64 := BitVec.ofNat 64 (leNat (bgets s.cellar a 8))

/-- Cellar bytes [lo, lo + len) lie in the context's window. -/
def inWindow (s : State) (part lo len : Nat) : Bool :=
  let w := ctxWindow (partOf s part) part
  decide (winBase w * 65536 ≤ lo) && decide (lo + len ≤ winLimit w * 65536)

/-- The leaf of a page-table entry of kind 2. -/
def leafOf (e : W64) (large : Bool) : Leaf :=
  { frame := (fld e 12 33).toNat * 4096, large := large, pin := e.getLsbD 7, shr := e.getLsbD 6, fill := e.getLsbD 5,
    wr := e.getLsbD 4, rd := e.getLsbD 3 }

def pteReserved (e : W64) : Bool := fld e 45 19 != 0 || fld e 8 4 != 0 || e.getLsbD 2

/-- One entry of a table at level `lv`: the leaf, or the next table's address (R267, R268, R270). -/
def walkEntry (s : State) (part vpn lv base : Nat) : Except Nat (Leaf ⊕ Nat) :=
  let idx := if lv = 2 then vpn / 2 ^ 20 % 4096 else if lv = 1 then vpn / 512 % 2048 else vpn % 512
  let e := pteAt s (base + 8 * idx)
  let addr := (fld e 12 33).toNat * 4096
  let kind := (fld e 0 2).toNat
  if kind = 0 ∨ kind = 3 then .error 1
  else if pteReserved e then .error 2
  else if kind = 2 then
    if lv = 2 then .error 2
    else
      let size := if lv = 1 then 2 ^ 25 else 65536
      if addr % size ≠ 0 then .error 2
      else if !inWindow s part addr size then .error 3
      else .ok (.inl (leafOf e (lv == 1)))
  else if lv = 0 then .error 2
  else
    let size := if lv = 2 then 16384 else 4096
    if addr % size ≠ 0 then .error 2
    else if !inWindow s part addr size then .error 3
    else .ok (.inr addr)

/-- Walk from the table at `base` of a level: 2, 1 and 0 (R266, R270). -/
def walkFrom (s : State) (part vpn : Nat) : Nat → Nat → Except Nat Leaf
  | 0, base => (walkEntry s part vpn 0 base).bind (fun x => match x with
    | .inl l => .ok l
    | .inr _ => .error 2)
  | n + 1, base => (walkEntry s part vpn (n + 1) base).bind (fun x => match x with
    | .inl l => .ok l
    | .inr a => walkFrom s part vpn n a)

/-- The cellar addresses of the entries that a walk reads from the table at `base` of a level. -/
def walkReads (s : State) (part vpn : Nat) : Nat → Nat → List Nat
  | 0, base => [base + 8 * (vpn % 512)]
  | n + 1, base =>
    (base + 8 * (if n = 1 then vpn / 2 ^ 20 % 4096 else vpn / 512 % 2048)) ::
      (match walkEntry s part vpn (n + 1) base with
       | .ok (.inr a) => walkReads s part vpn n a
       | _ => [])

/-- A walk ends in a leaf or in a cause (R270). -/
def walk (s : State) (part vpn : Nat) : Except Nat Leaf :=
  let r := pctl s part 0x100
  let base := (fld r 15 30).toNat * 32768
  if !r.getLsbD 0 then .error 1
  else if !inWindow s part base 32768 then .error 3
  else walkFrom s part vpn 2 base

/-- A walk by an agent at a stop fetches its entries through the cellar ports (R299, R323). -/
def walkFlits (s : State) (stop part vpn : Nat) : State :=
  let r := pctl s part 0x100
  let base := (fld r 15 30).toNat * 32768
  if r.getLsbD 0 && inWindow s part base 32768 then (walkReads s part vpn 2 base).foldl (fun s a => cellarMiss s part stop a 8) s else s

/-- An entry of the micro-TLB of core `c`, or of its cluster's TLB. -/
def tlbOf (c : Nat) (micro : Bool) (e : TlbEnt) : Bool := e.cluster == clusterOf c && e.core == (if micro then some c else none)

/-- Entries that a micro-TLB and a cluster's TLB hold (R271). -/
def tlbSize (micro : Bool) : Nat := if micro then 64 else 2048

/-- The leaf of a page that one of the two holds. -/
def tlbFind (s : State) (c : Nat) (micro : Bool) (part vpn : Nat) : Option Leaf :=
  (s.tlb.find? (fun e => tlbOf c micro e && e.part == part && e.vpn == pageVpn e.leaf vpn)).map (fun e => e.leaf)

/-- Put a leaf into one of the two: a full one gives up an entry for it (log 7). -/
def tlbPut (s : State) (c : Nat) (micro : Bool) (part vpn : Nat) (l : Leaf) : State :=
  let mine := s.tlb.filter (tlbOf c micro)
  let out := if tlbSize micro ≤ mine.length then mine[Config.tlbVictim s.free % tlbSize micro]? else none
  { s with free := s.free + 1
           tlb := { cluster := clusterOf c, core := if micro then some c else none, part := part, vpn := pageVpn l vpn, leaf := l } ::
             s.tlb.filter (fun e => some e != out) }

/-- A leaf from the walk goes into the core's micro-TLB and the cluster's TLB where they hold none of the page. -/
def tlbFill (s : State) (c part vpn : Nat) (l : Leaf) : State :=
  let s := if (tlbFind s c false part vpn).isNone then tlbPut s c false part vpn l else s
  if (tlbFind s c true part vpn).isNone then tlbPut s c true part vpn l else s

/-- Translate for an engine of core `c`: a leaf that its micro-TLB or its cluster's TLB holds may be used, or the tables walked (R271;
log 7). Agents without a TLB walk, the partition's command processor for them. -/
def translate (s : State) (core : Option Nat) (part vpn : Nat) : State × Except Nat Leaf :=
  match core with
  | none => (walkFlits s (procStop part) part vpn, walk s part vpn)
  | some c =>
    let fresh := fun (s : State) =>
      let t := walkFlits s c part vpn
      match walk s part vpn with
      | .ok l => (tlbFill t c part vpn l, .ok l)
      | .error e => (t, .error e)
    match (tlbFind s c true part vpn).orElse (fun _ => tlbFind s c false part vpn) with
    | some l => if Config.tlbUsesOld s.free then (tlbFill { s with free := s.free + 1 } c part vpn l, .ok l) else fresh { s with free := s.free + 1 }
    | none => fresh s

/-! ### Residency (R272, R273, R277) -/

/-- The pieces of a page. -/
def piecesOf (l : Leaf) (vpn : Nat) : List Nat := if l.large then (List.range 512).map (fun i => vpn / 512 * 512 + i) else [vpn]

/-- The page that holds `vpn` under a leaf, resident or being written back. -/
def findPage (s : State) (part vpn frame : Nat) : Option (Nat × Page) :=
  s.pages.find? (fun e => e.2.part == part && e.2.vpn == pageVpn e.2.leaf vpn && e.2.leaf.frame == frame)

/-- Frames of a slice in use by the partition. -/
def framesUsed (s : State) (part idx : Nat) : Nat :=
  s.pages.foldl (fun n e =>
    if e.2.part = part then n + ((piecesOf e.2.leaf e.2.vpn).filter (fun v => homeIdx s part v == idx)).length else n) 0

/-! ### A slice (R1, R272, R280) -/

/-- The partitions whose clusters hold a core's stop: a partition and its child may share one, and with it the 24 MiB of its slice. -/
def sharers (s : State) (stop : Nat) : List Nat := (s.parts.filter (fun e => ownsCore (ctl e.2 0x110) stop)).map (fun e => e.1)

/-- Units of a shelf. -/
def unitsOf (len : Nat) : Nat := (len + 1023) / 1024 + 1

def stopAt (s : State) (c : Nat) : Stop := tgetD s.stops c Stop.init
def setStop (s : State) (c : Nat) (x : Stop) : State := { s with stops := tput s.stops c x }

/-- Units of home shelves at a stop, and of cache shelves. -/
def homeUnits (s : State) (part stop : Nat) : Nat :=
  (partOf s part).names.foldl (fun n e => if !e.2.payload.isEmpty && nameHome s part e.1 == some stop then n + unitsOf e.2.payload.length else n) 0
def cacheUnits (s : State) (part stop : Nat) : Nat :=
  (stopAt s stop).shelves.foldl (fun n sh => if sh.part = part then n + unitsOf sh.payload.length else n) 0

/-- Units that the shelves of all sharers take, and the frames that their pages take, in the slice of a stop. -/
def unitsAt (s : State) (stop : Nat) : Nat := (sharers s stop).foldl (fun n p => n + homeUnits s p stop + cacheUnits s p stop) 0
def framesAt (s : State) (stop : Nat) : Nat :=
  s.pages.foldl (fun n e => n + ((piecesOf e.2.leaf e.2.vpn).filter (fun v => homeStop s e.2.part (v * 65536) == some stop)).length) 0

/-- The store room of a slice in MiB: the largest that a sharer asks for. -/
def storeAt (s : State) (stop : Nat) : Nat := (sharers s stop).foldl (fun n p => max n (pctl s p 0x112).toNat) 0

/-- Frames that the 24 MiB leave beside the store room, the lumber room and the trunk; a store room that has become smaller keeps what its shelves
take. -/
def framesMax (s : State) (stop : Nat) : Nat := (21 - max (storeAt s stop) ((unitsAt s stop + 1023) / 1024)) * 16

/-- Units that a partition has for new shelves at a stop: what its own PSTORE leaves, and what the slice does; frames in use leave the slice first
where the store room has become larger. -/
def freeUnits (s : State) (part stop : Nat) : Nat :=
  min ((pctl s part 0x112).toNat * 1024 - homeUnits s part stop - cacheUnits s part stop)
    (min (storeAt s stop * 1024) (21 * 1024 - 64 * framesAt s stop) - unitsAt s stop)

/-- `n` frames more of a partition fit a slice of it: no more than PFRAME, and no more than the slice holds (R272, R348). -/
def slicesFit (s : State) (part idx n : Nat) : Bool :=
  decide (framesUsed s part idx + n ≤ (pctl s part 0x111).toNat) &&
    ((stopsOf s part)[idx]?).all (fun stop => decide (framesAt s stop + n ≤ framesMax s stop))

/-- Every piece finds a free frame in its home slice (R277, R348). -/
def framesFit (s : State) (part : Nat) (l : Leaf) (vpn : Nat) : Bool :=
  let ps := piecesOf l vpn
  decide (0 < (stopsOf s part).length) && ps.all (fun v =>
    let i := homeIdx s part v
    slicesFit s part i (ps.filter (fun w => homeIdx s part w == i)).length)

/-! ### The wait table (R274, R275) -/

def waitFind (p : Part) (vpn : Nat) : Option (Nat × WaitEnt) := p.wait.find? (fun e => e.2.vpn == vpn)

/-- The next token of a partition: 32 bits, skipping 0 (R274). -/
def nextToken (p : Part) : Nat :=
  let t := (p.token + 1) % 2 ^ 32
  if t = 0 then 1 else t

/-- A request for a page: join its entry, or make one; a fill-required page posts a fault record and awaits its replay. Nothing happens
when the table is full (R274, R275). -/
def requestPage (s : State) (part vpn : Nat) (l : Leaf) : State :=
  let p := partOf s part
  let v := pageVpn l vpn
  match waitFind p v with
  | some _ => s
  | none =>
    if 4096 ≤ p.wait.length then s
    else
      let tok := nextToken p
      let ev := match findPage s part v l.frame with
        | some (_, pg) => pg.evicting
        | none => false
      let st := if ev then WState.evicting else if l.fill then WState.replay else WState.fetching
      let p := { p with wait := tput p.wait tok { vpn := v, state := st, large := l.large }, token := tok,
                        faultq := if st = .replay then p.faultq ++ [(v, tok)] else p.faultq }
      setPart s part p

/-! ### Accesses at the home -/

/-- What an access meets: a fault cause, a page not resident, a lost sector, or the page. -/
inductive Met
  | fault (cause : Nat)
  | absent (l : Leaf)
  | lostSector
  | page (id : Nat) (off : Nat)
deriving DecidableEq, Repr

def lostKey (part addr : Nat) : Nat := part * 2 ^ 41 + addr / 128

/-- Look an address up for a read or a write; the page is marked used. -/
def meet (s : State) (core : Option Nat) (part addr : Nat) (rd wr : Bool) : State × Met :=
  let vpn := vpnOf addr
  let r := translate s core part vpn
  match r.2 with
  | .error e => (r.1, .fault e)
  | .ok l =>
    if wr && !l.wr then (r.1, .fault 4)
    else if rd && !l.rd then (r.1, .fault 5)
    else
      match findPage r.1 part vpn l.frame with
      | some (id, pg) =>
        if pg.evicting then (r.1, .absent l)
        else if rd && r.1.lost.contains (lostKey part addr) then (r.1, .lostSector)
        else ({ r.1 with pages := tput r.1.pages id { pg with used := s.clock } }, .page id (addr - pg.vpn * 65536))
      | none => (if l.pin then requestPage r.1 part vpn l else r.1, .absent l)

def pageBytes (s : State) (id off n : Nat) : List W8 :=
  match tget s.pages id with
  | some pg => bgets pg.data off n
  | none => List.replicate n 0

/-- Committed bytes with a block's own provisional bytes over them (R187). -/
def overlay (prov : Tbl W8) (addr : Nat) (bs : List W8) : List W8 :=
  (bs.zip (List.range bs.length)).map (fun e => tgetD prov (addr + e.2) e.1)

/-- Who writes, for watchpoint records: a path of a group or an engine thread as it was at the issue, or label 0xFFFF (R370). -/
structure Writer where
  uid    : Option Nat
  gid    : Nat
  label  : Lab
  offset : W16
  frame  : Nat
  sweeps : W32
  mask   : Lanes
deriving DecidableEq, Repr

def hostWriter : Writer := { uid := none, gid := 0, label := 0xFFFF, offset := 0, frame := 0, sweeps := 0, mask := 0 }
def opWriter (o : Op) : Writer :=
  { uid := some o.blk, gid := o.gid, label := o.label, offset := o.offset, frame := o.frame, sweeps := o.sweeps, mask := o.mask }

/-- Append a watchpoint record (R363, R367, R370). -/
def watchRec (s : State) (part : Nat) (w : Writer) (word : Nat) (new : W64) : State :=
  let b := w.uid.bind (fun u => tget s.blocks u)
  let ident : W32 := match b with
    | some b => BitVec.ofNat 32 (w.gid + 16 * b.stage.toNat + 128 * b.depth + 1024 * w.frame + 16384 * b.serial)
    | none => 0
  pushRec s
    { kind := 6, core := (b.map blkCore).getD 0, ident := ident, block := (b.map (fun b => b.index)).getD 0,
      launch := (b.map (fun b => b.lid)).getD 0, time := s.clock, label := w.label, offset := w.offset,
      sweeps := w.sweeps, mask := w.mask, a := BitVec.ofNat 64 word, b := new, seq := 0,
      part := part, ext := [] }

/-- Watchpoint `i` fires on a word that changed from `old` to `new` (R369, R370). -/
def watchHit (s : State) (part i word : Nat) (old new : W64) (prov : Bool) : Bool :=
  let c := pctl s part (0x151 + 4 * i)
  let a := (pctl s part (0x150 + 4 * i)).toNat
  let m := pctl s part (0x153 + 4 * i)
  c.getLsbD 0 && (!prov || c.getLsbD 2) && decide (a ≤ word) && decide (word < a + 8 * (fld c 16 16).toNat) &&
    (if c.getLsbD 1 then new &&& m != old &&& m else new &&& m == pctl s part (0x152 + 4 * i) &&& m)

/-- Check every watched word that a write of bytes touches; `view` reads a byte before the write, `after` after it. -/
def watchWrite (s : State) (part : Nat) (w : Writer) (addr n : Nat) (prov : Bool) (before after : Nat → W8) : State :=
  if !traceOn s part 6 then s
  else
    let words := (List.range ((addr + n + 7) / 8 - addr / 8)).map (fun i => 8 * (addr / 8 + i))
    let word := fun (f : Nat → W8) (a : Nat) => BitVec.ofNat 64 (leNat ((List.range 8).map (fun i => f (a + i))))
    words.foldl (fun s a =>
      (List.range 8).foldl (fun s i =>
        if watchHit s part i a (word before a) (word after a) prov then watchRec s part w a (word after a) else s) s) s

/-- A write that covers whole sectors clears their marks: `cov` says which lines of the partition are covered (R316). -/
def clearLost (s : State) (part : Nat) (cov : Nat → Bool) : State :=
  { s with lost := s.lost.filter (fun k => !(k / 2 ^ 41 == part && cov (k % 2 ^ 41))) }

/-- The lines within a range of bytes. -/
def rangeCovers (addr n : Nat) (line : Nat) : Bool := decide (addr ≤ 128 * line) && decide (128 * line + 128 ≤ addr + n)

/-- Write committed bytes within one resident page: the lines become dirty, each sector touched takes a check word over its merged bytes
(R315), and a wholly written sector is no longer lost (R316). -/
def commitBytes (s : State) (part id off addr : Nat) (bs : List W8) (w : Writer) : State :=
  match tget s.pages id with
  | none => s
  | some pg =>
    let data := bputs pg.data off bs
    let lines := (List.range ((off + bs.length + 127) / 128 - off / 128)).map (fun i => off / 128 + i)
    let pg' := { pg with data := data, dirty := lines.foldl nput pg.dirty, words := remerge pg data lines }
    let s' := clearLost { s with pages := tput s.pages id pg' } part (rangeCovers addr bs.length)
    watchWrite s' part w addr bs.length false (fun a => bget pg.data (a - pg.vpn * 65536)) (fun a => bget data (a - pg.vpn * 65536))

/-! ### The lumber room (R282, R353) -/

/-- The 128-byte lines that a block holds provisionally. -/
def provLines (b : Block) : List Nat := b.prov.foldl (fun l e => nput l (e.1 / 128)) []

/-- Bytes of an entry for a line: the line, its mask, its owner and what an implementation adds (log 6). -/
def lineEntry : Nat := 144 + Config.lumberExtra.toNat
/-- Bytes of a logged keyed operation (R353). -/
def logEntry : Nat := 32
/-- Bytes of a slice's lumber room (R272). -/
def lumberSize : Nat := 2 ^ 20

/-- The stop that logs a keyed operation; one without an address or a name of its own is logged at the partition's first (log 6). -/
def logHome (s : State) (part : Nat) : LogPlace → Option Nat
  | .addr a => homeStop s part a
  | .name n => nameHome s part n
  | .other => (stopsOf s part).head?

/-- Bytes that a partition's entries take in the lumber room of one home: one entry per line and owner, and the logged operations. -/
def lumberUsed (s : State) (part home : Nat) : Nat :=
  s.blocks.foldl (fun n e =>
    if e.2.part = part then
      n + lineEntry * ((provLines e.2).filter (fun l => homeStop s part (128 * l) == some home)).length +
        logEntry * (e.2.log.filter (fun x => logHome s part x.place == some home)).length
    else n) 0

/-- The check words of the provisional lines `is` (R314), over a line's own provisional bytes with zeros elsewhere; a line without any has none. -/
def provWords (prov : Tbl W8) (words : Tbl W32) (is : List Nat) : Tbl W32 :=
  is.foldl (fun w l =>
    if prov.any (fun e => e.1 / 128 == l) then tput w l (crc32c ((List.range 128).map (fun i => tgetD prov (128 * l + i) 0))) else tdel w l) words

/-- A block's provisional bytes change in the lines `is`. -/
def setProv (b : Block) (prov : Tbl W8) (is : List Nat) : Block := { b with prov := prov, pwords := provWords prov b.pwords is }

def lumberKey (part home : Nat) : Nat := part * 256 + home

/-- Bytes that a home has moved to the overflow area, in whole lines' entries, and those of all homes of the partition (R282). -/
def spilled (s : State) (part home : Nat) : Nat := min (tgetD s.lumber (lumberKey part home) 0) (lumberUsed s part home)
def spilledAll (s : State) (part : Nat) : Nat := (stopsOf s part).foldl (fun n h => n + spilled s part h) 0
def spillRoom (s : State) (part : Nat) : Nat :=
  let w := pctl s part 0x103
  (winLimit w - winBase w) * 65536

/-- What the entries of the partition and of those that share the slice take in a room. -/
def lumberKept (s : State) (part home : Nat) : Nat :=
  ((sharers s home).filter (· != part)).foldl (fun n p => n + (lumberUsed s p home - spilled s p home)) (lumberUsed s part home - spilled s part home)

/-- The home's room holds one more entry of a size; otherwise whether it can move its oldest to the overflow area. Where there is no home
nothing is kept. -/
def lumberRoom (s : State) (part : Nat) (home : Option Nat) (size : Nat) : Bool :=
  home.all (fun h => decide (lumberKept s part h + size ≤ lumberSize))
def lumberCanSpill (s : State) (part : Nat) (home : Option Nat) : Bool :=
  home.all (fun h => decide (spilledAll s part + lineEntry ≤ spillRoom s part) && decide (spilled s part h < lumberUsed s part h))

/-- What a lack of room for an entry asks for: to wait for a spill, or the lumber-exhausted fault. -/
inductive Lumber
  | room
  | wait
  | exhausted
deriving DecidableEq, Repr

def lumberFor (s : State) (part : Nat) (home : Option Nat) (size : Nat) : Lumber :=
  if lumberRoom s part home size then .room
  else if lumberCanSpill s part home || home.any (fun h => (sharers s h).any (fun p => lumberCanSpill s p (some h))) then .wait else .exhausted

/-- The same for the log entry of an operation of a block. -/
def lumberForLog (s : State) (part : Nat) (b : OpBody) : Lumber := lumberFor s part (logHome s part (logPlace b)) logEntry

/-- Store bytes provisionally for a block (R187, R282). -/
def provBytes (s : State) (uid addr : Nat) (bs : List W8) (w : Writer) (com : Nat → W8) : State :=
  match tget s.blocks uid with
  | none => s
  | some b =>
    let prov := (bs.zip (List.range bs.length)).foldl (fun t e => tput t (addr + e.2) e.1) b.prov
    let lines := (List.range ((addr + bs.length + 127) / 128 - addr / 128)).map (fun i => addr / 128 + i)
    watchWrite (setBlk s uid (setProv b prov lines)) b.part w addr bs.length true
      (fun a => tgetD b.prov a (com a)) (fun a => tgetD prov a (com a))

end Sys2Proof.Machine
end

