-- ==== Sys2Proof/Machine/Copy.lean ====
section
/-! DEFINITION. The copy engine: COPY, GATHER and SCATTER of major 0x30 (R169 to R174, R198) with the events that move their elements, release
their range entries and complete them (R182, R183). -/
namespace Sys2Proof.Machine
open Sys2Proof

/-- Bytes of one element. -/
def eszOf (t : Ty) : Nat := tyWidth t / 8

/-! ### Elements of a command (R170, R172, R198) -/

/-- Elements in a row. -/
def rowElems (c : CopyCmd) : Nat := c.e0 / c.esz

/-- Every element of the command by its index: rows of lanes for GATHER and SCATTER, K-blocks for a plane COPY. -/
def copyElems (c : CopyCmd) : List Nat :=
  match c.rows with
  | some (_, m) => (List.range (64 * rowElems c)).filter (fun i => m.getLsbD (i / rowElems c))
  | none => List.range (rowElems c * c.e1 * c.e2)

/-- Global and scratchpad addresses of an element. -/
def copyAddr (c : CopyCmd) (i : Nat) : Nat × Nat :=
  let k := rowElems c
  match c.rows with
  | some (ix, _) => (c.goff + (rget ix (i / k)).toNat * c.gs1 + i % k * c.esz, c.soff + i / k * c.ss1 + i % k * c.esz)
  | none =>
    let i1 := i / k % c.e1
    let i2 := i / k / c.e1
    (c.goff + i2 * c.gs2 + i1 * c.gs1 + i % k * c.esz, c.soff + i2 * c.ss2 + i1 * c.ss1 + i % k * c.esz)

/-- Residency bits that element `i` of `n` sets (R172). -/
def residBits (c : CopyCmd) (i : Nat) : Lanes :=
  match c.rows with
  | some _ => BitVec.twoPow 64 (i / rowElems c)
  | none =>
    let n := (copyElems c).length
    maskOf (fun b => decide (b * n / 64 ≤ i) && decide (i < (b + 1) * n / 64))

/-! ### Issue -/

/-- The checks of R157 that one row of a command fails on one side. -/
def rowFails (v : View) (cap : Cap) (esz len : Nat) (need : BitVec 8) (sp off : Nat) : List Nat :=
  failingAl (footOf v) cap off len esz need [sp] 0 false

/-- The rows of a COPY on one side: the first check that some row fails, at the first such row. Alignment is looked at in every row; as the offsets
only rise, the first and the last row show which of the other checks fail. -/
def rowsCheck (v : View) (cap : Cap) (offs : List Nat) (esz len : Nat) (need : BitVec 8) (sp : Nat) : Option Res :=
  match offs.head?, offs.getLast? with
  | some a, some z =>
    let al : Nat := if capSpace cap = 2 then min esz 4 else esz
    let mis := if offs.any (fun o => (capBase cap + o) % al != 0) then [6] else []
    match rowFails v cap esz len need sp a ++ rowFails v cap esz len need sp z ++ mis with
    | [] => none
    | n :: rest =>
      let k := rest.foldl min n
      let o := (offs.find? (fun o => (rowFails v cap esz len need sp o).contains k)).getD z
      some (rangeTrap (footOf v) cap o len esz need [sp] k 255 ((n :: rest).any (· != k)))
  | _, _ => none

/-- One lane's row of a GATHER or SCATTER on one side: its first failing check. -/
def laneRow (v : View) (cap : Cap) (l off esz len : Nat) (need : BitVec 8) (sp : Nat) : Option Res :=
  match rowFails v cap esz len need sp off with
  | [] => none
  | n :: rest => some (rangeTrap (footOf v) cap off len esz need [sp] n l (!rest.isEmpty))

/-- The rows of a GATHER or SCATTER, each with its lane and its offsets: the lowest lane that fails under c(G) or c(S), and its first failing
check, c(G) before c(S) (R157, R171). -/
def lanesCheck (v : View) (g s : Cap) (inb : Bool) (rows : List (Nat × Nat × Nat)) (esz len : Nat) : Option Res :=
  rows.findSome? (fun r => (laneRow v g r.1 r.2.1 esz len (if inb then pR else pW) 0).orElse (fun _ =>
    laneRow v s r.1 r.2.2 esz len (if inb then pW else pR) 1))

/-- A count of operations that WAITCNT counts together (R97). -/
def startCopy (v : View) (h : HReg) (c : CopyCmd) : View :=
  let id := v.st.nextOp
  let n := v.g.nCopy
  let w := startOp { v with g := { v.g with nCopy := n + 1 } } h (.copy c)
  { w with st := { w.st with ops := tmod w.st.ops id (fun o => { o with ord := n }) } }

/-- The command registers (R169): `none` for a reserved bit or extent 0 = 0. -/
def copyRegs (t : Ty) (plane inb : Bool) (a b c0 c1 c2 : W64) : Option CopyCmd :=
  let one := fun (x : W16) => if x = 0 then 1 else x.toNat
  let e0 := (fld c0 0 24).toNat
  if fld c0 56 8 ≠ 0 ∨ fld c2 40 24 ≠ 0 ∨ e0 = 0 then none
  else some
    { inb := inb, plane := plane, bits := tyWidth t, rows := none, esz := if plane then 4 * tyWidth t else eszOf t,
      goff := a.toNat, soff := b.toNat, e0 := e0, e1 := one (fld c0 24 16), e2 := one (fld c0 40 16),
      gs1 := (fld c1 0 32).toNat, gs2 := (fld c1 32 32).toNat, ss1 := (fld c2 0 20).toNat, ss2 := (fld c2 20 20).toNat,
      moved := [], resid := 0, pages := [], bad := none }

/-- The bounding scratchpad range, relative to the capability (R173, R198). -/
def copySpan (c : CopyCmd) : Nat × Nat :=
  if c.plane then (c.soff, c.soff + c.e0 / c.esz * c.bits * c.e1 * 4)
  else
    match c.rows with
    | some (_, m) => ((c.soff + (lowest m).getD 0 * c.ss1), c.soff + ((laneList m).getLastD 0) * c.ss1 + c.e0)
    | none => (c.soff, c.soff + (c.e2 - 1) * c.ss2 + (c.e1 - 1) * c.ss1 + c.e0)

/-- Row offsets on the global and on the scratchpad side. -/
def globalRows (c : CopyCmd) : List Nat :=
  match c.rows with
  | some (ix, m) => (laneList m).map (fun l => c.goff + (rget ix l).toNat * c.gs1)
  | none => (List.range c.e2).foldl (fun a i2 => a ++ (List.range c.e1).map (fun i1 => c.goff + i2 * c.gs2 + i1 * c.gs1)) []

def scratchRows (c : CopyCmd) : List Nat :=
  match c.rows with
  | some (_, m) => (laneList m).map (fun l => c.soff + l * c.ss1)
  | none => (List.range c.e2).foldl (fun a i2 => a ++ (List.range c.e1).map (fun i1 => c.soff + i2 * c.ss2 + i1 * c.ss1)) []

/-- Every offset, extent 0 and every stride is a multiple of the element size (R171, R198). -/
def copyAligned (c : CopyCmd) (al : Nat) : Bool :=
  [c.goff, c.soff, c.e0, c.gs1, c.gs2, c.ss1, c.ss2].all (fun x => x % al == 0)

/-- The rows of a command against R157: by lanes for GATHER and SCATTER, else under c(G) and then under c(S). -/
def rowChecks (v : View) (g s : Cap) (c : CopyCmd) : Option Res :=
  let span := copySpan c
  match c.rows with
  | some (_, m) => lanesCheck v g s c.inb ((laneList m).zip ((globalRows c).zip (scratchRows c))) c.esz c.e0
  | none =>
    (rowsCheck v g (globalRows c) (if c.plane then 4 else c.esz) c.e0 (if c.inb then pR else pW) 0).orElse (fun _ =>
      if c.plane then rowsCheck v s [c.soff] 4 (span.2 - span.1) pW 1
      else rowsCheck v s (scratchRows c) c.esz c.e0 (if c.inb then pW else pR) 1)

/-- The alignment of a command (R171, R198). -/
def alignOK (c : CopyCmd) : Bool := if c.plane then [c.goff, c.soff, c.gs1].all (fun x => x % 4 == 0) else copyAligned c c.esz

/-- The checks of R171 on a whole command, alignment before the footprint (R157). -/
def copyChecks (v : View) (g s : Cap) (c : CopyCmd) : Option Res :=
  let mis := accessTrap 6 255 false (genericAddr g c.goff)
  match rowChecks v g s c with
  | some (.trap 0 6 l d a) => some (if alignOK c then .trap 0 6 l d a else mis)
  | some r => some r
  | none => if alignOK c then none else some mis

/-- The shape a plane COPY must have (R198). -/
def planeShape (c : CopyCmd) : Bool := c.e2 == 1 && c.e0 % (4 * c.bits) == 0 && c.ss1 == 0 && c.ss2 == 0

/-- The capabilities' bases added: the command as the engine keeps it. -/
def copyBased (g s : Cap) (c : CopyCmd) : CopyCmd := { c with goff := capBase g + c.goff, soff := capBase s + c.soff }

/-- Issue a checked command with its range entry, once the copy engine may send (R173, R319). -/
def issueCopy (v : View) (d : HReg) (g s : CReg) (c : CopyCmd) : Res :=
  match copyChecks v (readC v.g g) (readC v.g s) c with
  | some r => r
  | none =>
    let k := copyBased (readC v.g g) (readC v.g s) c
    let span := copySpan k
    fed v 0 (withRanges v [(span.1, span.2, k.inb)] (fun v => startCopy v d k))

def copyOps (d : HReg) (g s : CReg) (a b c : SReg) : List Opd :=
  [.hd d, .c g, .c s, ssrc a, ssrc b, .s c.toNat (min 3 (64 - c.toNat)) true false]

def copyOf (v : View) (t : Ty) (plane inb : Bool) (a b c : SReg) : Option CopyCmd :=
  if 61 < c.toNat then none
  else copyRegs t plane inb (readS v.g a) (readS v.g b) (readS v.g c) (readS v.g (c + 1)) (readS v.g (c + 2))

def execCopy (h : Hdr) (t : Ty) (d : HReg) (g s : CReg) (a b c : SReg) (out plane : Bool) (st : State) : Out :=
  issue h (copyOps d g s a b c) (fun v _ =>
    match copyOf v t plane (!out) a b c with
    | none => illegal8
    | some k => if plane && !planeShape k then illegal8 else issueCopy v d g s k) st

/-- GATHER and SCATTER: one row for each lane of EXEC (R169, R170). -/
def gatherOp (h : Hdr) (t : Ty) (d : HReg) (g s : CReg) (a b c : SReg) (i : VReg) (inb : Bool) (st : State) : Out :=
  issue h (copyOps d g s a b c ++ [vsrc .n32 i]) (fun v rows =>
    match copyOf v t false inb a b c with
    | none => illegal8
    | some k =>
      if k.e1 ≠ 1 ∨ k.e2 ≠ 1 then illegal8
      else issueCopy v d g s { k with rows := some (rows.headD zeroRow, execOf h v.g) }) st

def execGather (h : Hdr) (t : Ty) (d : HReg) (g s : CReg) (a b c : SReg) (i : VReg) (st : State) : Out := gatherOp h t d g s a b c i true st
def execScatter (h : Hdr) (t : Ty) (d : HReg) (g s : CReg) (a b c : SReg) (i : VReg) (st : State) : Out := gatherOp h t d g s a b c i false st

/-! ### Moving elements -/

/-- The core of an operation's block. -/
def opCore (s : State) (o : Op) : Option Nat := (tget s.blocks o.blk).map blkCore

/-- The engine class of an operation: 0 copy, 1 queue, 2 put, 3 interest; 4 for the others, which no controller governs (R319). -/
def opClass : OpBody → Nat
  | .copy _ => 0
  | .entry .. | .ready _ => 1
  | .put .. | .a2av .. => 2
  | .fetchn .. => 3
  | _ => 4

/-- The engine sends an element's request to its home, with the data of a write or for the data of a read (R299). -/
def sendAccess (s : State) (o : Op) (addr : Nat) (data back : List W8) : State :=
  match opCore s o with
  | some c => engineFlit s c (partOfBlk s o.blk) (opClass o.body) addr data back
  | none => s

/-- The bucket of an operation's class holds a flit (R319). -/
def opMaySend (s : State) (o : Op) : Bool := (opCore s o).all (fun c => bucketHolds s c (partOfBlk s o.blk) (opClass o.body) 128)

/-- Owner's view of bytes at the home (R187). -/
def viewBytes (s : State) (uid id off addr n : Nat) : List W8 :=
  let prov := match tget s.blocks uid with
    | some b => b.prov
    | none => []
  overlay prov addr (pageBytes s id off n)

/-- The provisional bytes of a block that cover a range, if they do. -/
def provRange (s : State) (uid addr n : Nat) : Option (List W8) :=
  match tget s.blocks uid with
  | some b => if (List.range n).all (fun i => thas b.prov (addr + i)) then some ((List.range n).map (fun i => tgetD b.prov (addr + i) 0)) else none
  | none => none

/-- Read at most one element of a page for an engine: bytes, whether the page was absent, and the fault met (R182, R183, R316). What the block has
stored itself is not lost. -/
def engineRead (s : State) (o : Op) (addr n : Nat) : State × List W8 × Bool × Option (Nat × Nat) :=
  let part := partOfBlk s o.blk
  let zeros : List W8 := List.replicate n 0
  let r := meet s (opCore s o) part addr true false
  match r.2 with
  | .fault c => (r.1, zeros, false, some (5, c))
  | .absent _ => (sendAccess r.1 o addr [] zeros, zeros, true, none)
  | .lostSector =>
    (match provRange r.1 o.blk addr n with
     | some bs => (sendAccess r.1 o addr [] bs, bs, false, none)
     | none => (sendAccess r.1 o addr [] zeros, zeros, false, some (9, 0)))
  | .page id off => let bs := viewBytes r.1 o.blk id off addr n; (sendAccess r.1 o addr [] bs, bs, false, none)

/-- What a provisional store of an engine meets: it is done, it must wait, or it faults. -/
inductive StoreRes
  | done (s : State)
  | wait (s : State)
  | bad (s : State) (code detail : Nat)

/-- Store one element provisionally: the page is brought in first; a new line needs a lumber-room entry (R182, R187, R282). -/
def engineStore (s : State) (o : Op) (addr : Nat) (bs : List W8) : StoreRes :=
  let part := partOfBlk s o.blk
  let r := meet s (opCore s o) part addr false true
  match r.2 with
  | .fault c => .bad r.1 5 c
  | .lostSector => .bad r.1 9 0
  | .absent l => .wait (requestPage r.1 part (vpnOf addr) l)
  | .page id off =>
    let fresh := match tget r.1.blocks o.blk with
      | some b => !(provLines b).contains (addr / 128)
      | none => false
    match (if fresh then lumberFor r.1 part (homeStop r.1 part addr) lineEntry else .room) with
    | .wait => .wait r.1
    | .exhausted => .bad r.1 8 0
    | .room =>
      .done (provBytes (sendAccess r.1 o addr bs []) o.blk addr bs (opWriter o) (fun a => (pageBytes r.1 id (off + a - addr) 1).headD 0))

/-- Scratchpad bytes of the block that an operation addresses. -/
def opScratch (s : State) (o : Op) (a n : Nat) : List W8 :=
  match tget s.blocks o.sblk with
  | some b => bgets b.scratch a n
  | none => List.replicate n 0

/-- Write scratchpad bytes for an operation: granules overlapped lose their tags (R155, R174). -/
def opScratchPut (s : State) (o : Op) (a : Nat) (bs : List W8) : State :=
  match tget s.blocks o.sblk with
  | some b => setBlk s o.sblk (scrWrite b ((List.range bs.length).map (fun i => a + i)) bs)
  | none => s

/-- Replace an operation's body. -/
def setBody (s : State) (id : Nat) (b : OpBody) : State := { s with ops := tmod s.ops id (fun o => { o with body := b }) }

/-- The generic address of the access that failed, for the fault record (R336). -/
def noteAddr (s : State) (id addr : Nat) : State := { s with ops := tmod s.ops id (fun o => { o with faddr := BitVec.ofNat 64 addr }) }

/-- The same where it is the operation's first failure. -/
def noteFirst (s : State) (id addr : Nat) (old new : Option (Nat × Nat)) : State := if old.isNone && new.isSome then noteAddr s id addr else s

/-- Plane words of one K-block of 32 elements of `P` bits (R196). -/
def planeWords (P : Nat) (bs : List W8) : List Nat :=
  let x := leNat bs
  (List.range P).map (fun p => (List.range 32).foldl (fun w e => w + x / 2 ^ (P * e + p) % 2 * 2 ^ e) 0)

/-- What reading a stretch in pieces found: its bytes, the pages that were not resident, and the first fault with its address. -/
structure Found where
  bytes : List W8
  pages : List Nat
  bad   : Option (Nat × Nat)
  addr  : Nat
deriving DecidableEq, Repr

/-- The bytes of word `k` of a plane COPY that an element event of its own has read already (R256). -/
def gotWord (o : Op) (k : Nat) : Option (List W8) :=
  if thas o.got (4 * k) then some ((List.range 4).map (fun i => tgetD o.got (4 * k + i) 0)) else none

/-- Read `n` pieces of `w` bytes from `addr` on, each an access of its own, but for those of a plane COPY, from word `k` on, that have been read
already (R182, R183, R198). -/
def readPieces (s : State) (o : Op) (addr w k : Nat) : Nat → State × Found
  | 0 => (s, { bytes := [], pages := [], bad := none, addr := 0 })
  | n + 1 =>
    let p := readPieces s o addr w k n
    match gotWord o (k + n) with
    | some bs => (p.1, { p.2 with bytes := p.2.bytes ++ bs })
    | none =>
      let a := addr + w * n
      let r := engineRead p.1 o a w
      (r.1, { bytes := p.2.bytes ++ r.2.1, pages := if r.2.2.1 then nput p.2.pages (vpnOf a) else p.2.pages,
              bad := p.2.bad.orElse (fun _ => r.2.2.2), addr := if p.2.bad.isNone then a else p.2.addr })

/-- What the bytes found do to a command: element `i` with its residency bits, the pages and the first fault. -/
def foundIn (c : CopyCmd) (i : Nat) (f : Found) : CopyCmd :=
  { c with resid := if f.pages.isEmpty then c.resid else c.resid ||| residBits c i, pages := f.pages.foldl nput c.pages,
           bad := c.bad.orElse (fun _ => f.bad) }

/-- The scratchpad address of plane word `p` of K-block `i` (R198). -/
def planeAddr (c : CopyCmd) (i p : Nat) : Nat :=
  let k := rowElems c
  c.soff + 4 * ((i % k * c.bits + p) * c.e1 + i / k)

/-- Inbound element `i`: read, then written whole into scratchpad (R170, R174); a K-block is read and written in words of 4 bytes (R198), those
left that have not had events of their own (R256). -/
def moveIn (s : State) (id : Nat) (o : Op) (c : CopyCmd) (i : Nat) : State :=
  let a := copyAddr c i
  let r := if c.plane then readPieces s o a.1 4 (i * c.bits) c.bits else readPieces s { o with got := [] } a.1 c.esz 0 1
  let s1 :=
    if c.plane then
      let ws := planeWords c.bits r.2.bytes
      ((List.range c.bits).filter (fun p => !o.wrote.contains (i * c.bits + p))).foldl (fun s p =>
        opScratchPut s o (planeAddr c i p) (leBytes 4 (ws.getD p 0))) r.1
    else opScratchPut r.1 o a.2 r.2.bytes
  setBody (noteFirst s1 id r.2.addr c.bad r.2.bad) id (.copy { foundIn c i r.2 with moved := nput c.moved i })

/-- An operation has read bytes and written elements before its completion (R256). -/
def putGot (s : State) (id : Nat) (got : Tbl W8) : State := { s with ops := tmod s.ops id (fun o => { o with got := got }) }
def putWrote (s : State) (id n : Nat) : State := { s with ops := tmod s.ops id (fun o => { o with wrote := nput o.wrote n }) }

/-- One word of a K-block of a plane COPY at a moment of its own: event `j` of the block reads global word `j`, or writes plane word `j - P` once all
have been read (R198, R256). -/
def planeEvent (s : State) (id : Nat) (o : Op) (c : CopyCmd) (i j : Nat) : State :=
  let k := i * c.bits
  if j < c.bits then
    if (gotWord o (k + j)).isSome then s
    else
      let r := readPieces s o ((copyAddr c i).1 + 4 * j) 4 (k + j) 1
      putGot (setBody (noteFirst r.1 id r.2.addr c.bad r.2.bad) id (.copy (foundIn c i r.2))) id
        ((List.range 4).foldl (fun t b => tput t (4 * (k + j) + b) (r.2.bytes.getD b 0)) o.got)
  else
    let p := j - c.bits
    if (List.range c.bits).all (fun w => (gotWord o (k + w)).isSome) && !o.wrote.contains (k + p) then
      let ws := planeWords c.bits ((List.range c.bits).foldl (fun a w => a ++ (gotWord o (k + w)).getD []) [])
      putWrote (opScratchPut s o (planeAddr c i p) (leBytes 4 (ws.getD p 0))) id (k + p)
    else s

/-- Outbound element `i`: a provisional store. -/
def moveOut (s : State) (id : Nat) (o : Op) (c : CopyCmd) (i : Nat) : State :=
  let a := copyAddr c i
  match engineStore s o a.1 (opScratch s o a.2 c.esz) with
  | .wait s => s
  | .done s => setBody s id (.copy { c with moved := nput c.moved i })
  | .bad s k d => setBody (noteFirst s id a.1 c.bad (some (k, d))) id (.copy { c with moved := nput c.moved i, bad := c.bad.orElse (fun _ => some (k, d)) })

def allMoved (c : CopyCmd) : Bool := (copyElems c).all (fun i => c.moved.contains i)

/-- An earlier element of the command that writes one of the same bytes must be moved first (R170). -/
def orderFree (c : CopyCmd) (i : Nat) : Bool :=
  let dst := fun j => if c.inb then (copyAddr c j).2 else (copyAddr c j).1
  c.plane || (copyElems c).all (fun j => decide (i ≤ j) || c.moved.contains j || dst j != dst i)

/-- The status of an operation that met a memory fault: 0x0102, 0x0106, or a free one of those that R91 leaves, where the manual gives none
(R91, R172, R316). -/
def badStatus (s : State) (bad : Nat × Nat) : W16 × State :=
  if bad.1 = 5 ∨ bad.1 = 0 then (0x0102, s)
  else if bad.1 = 9 then (0x0106, s)
  else
    let f := freeNext s
    (BitVec.ofNat 16 (0x0100 + f.1.toNat % 0xFF00), f.2)

/-- Finish an operation that met a memory fault; its block takes the fault, except a handler, and except under code 0, which stands for a page
that a REPLAY found invalid (R183, R275, R282, R316, R337). -/
def finishBad (s : State) (id : Nat) (o : Op) (bad : Nat × Nat) : State :=
  let o := (tget s.ops id).getD o
  let r := badStatus s bad
  let s := finishOp r.2 id r.1
  if bad.1 = 0 then s else lateTrap s o.blk (lateFault s o 1 bad.1 (BitVec.ofNat 8 bad.2))

/-- A keyed operation ends once its log entry has room (R193, R282, R353). -/
def endLogged (s : State) (id : Nat) (o : Op) (st : W16) : State :=
  match lumberForLog s (partOfBlk s o.blk) o.body with
  | .wait => s
  | .exhausted => finishBad s id o (8, 0)
  | .room => finishOp s id st

/-- The operation belongs to a saved context. -/
def opSaved (s : State) (o : Op) : Bool :=
  match tget s.blocks o.blk with
  | some b => b.phase == .saved
  | none => false

/-- Element `i` of a command may move now; numbers beyond the elements stand for the words of a plane COPY, 2P for each K-block. -/
def copyElem (s : State) (id : Nat) (o : Op) (c : CopyCmd) (i : Nat) : State :=
  let n := (copyElems c).length
  if (copyElems c).contains i then
    if !c.moved.contains i && orderFree c i then (if c.inb then moveIn s id o c i else moveOut s id o c i) else s
  else
    let k := (i - n) / (2 * c.bits)
    if c.plane && decide (n ≤ i) && decide (k < n) && !c.moved.contains k then planeEvent s id o c k ((i - n) % (2 * c.bits)) else s

/-- COPY_COMPLETE: move one element, or complete the handle when every element has moved (R172, R182, R183). -/
def execCopyComplete (id : Nat) (elem : Option Nat) (s : State) : Out :=
  .next (
    match tget s.ops id with
    | some o =>
      match o.body with
      | .copy c =>
        match elem with
        | some i => if !opSaved s o && opMaySend s o then copyElem s id o c i else s
        | none =>
          if !allMoved c || opSaved s o then s
          else
            match c.bad with
            | some b => finishBad s id o b
            | none => finishOp s id (if c.resid = 0 then 0 else 0x0101) c.resid c.pages
      | _ => s
    | none => s)

/-- Scratchpad bytes as an operation finds them: those that element events of its own have read already stay as they were then (R256). -/
def gotOver (o : Op) (a : Nat) (bs : List W8) : List W8 := (bs.zip (List.range bs.length)).map (fun e => tgetD o.got (a + e.2) e.1)

/-- An element event of its own reads `n` scratchpad bytes at `a`, once. -/
def readEarly (s : State) (id : Nat) (o : Op) (a n : Nat) : State :=
  if thas o.got a then s
  else putGot s id ((List.range n).foldl (fun t i => tput t (a + i) ((opScratch s o (a + i) 1).headD 0)) o.got)

/-- The bytes of a result at `a` but for those that have had events of their own. -/
def putRest (s : State) (o : Op) (a : Nat) (bs : List W8) : State :=
  if o.wrote.isEmpty then opScratchPut s o a bs
  else (bs.zip (List.range bs.length)).foldl (fun s e => if o.wrote.contains e.2 then s else opScratchPut s o (a + e.2) [e.1]) s

/-- RANGE_ENTRY_RELEASE: the last scratchpad byte has been written or read; a publication's payload is read here, but for the bytes that have had
events of their own (R173, R225, R256). -/
def execRangeEntryRelease (x : OpElem) (s : State) : Out :=
  .next (
    match tget s.ranges x.op with
    | some e =>
      match tget s.ops e.op with
      | some o =>
        match o.body, x.elem with
        | .copy c, _ => if allMoved c then { s with ranges := tdel s.ranges x.op } else s
        | .publish _ _ _ src len none, some i => if i < len then readEarly s e.op o (src + i) 1 else s
        | .publish n ver sl src len none, none =>
          let bs := gotOver o src (opScratch s o src len)
          let s := { setBody s e.op (.publish n ver sl src len (some bs)) with ranges := tdel s.ranges x.op }
          sendName s .request (partOfBlk s o.blk) ((opCore s o).getD 0) n e.op bs
        | _, _ => s
      | none => { s with ranges := tdel s.ranges x.op }
    | none => s)

end Sys2Proof.Machine
end

