-- ==== Sys2Proof/Machine/Atomics.lean ====
section
/-! DEFINITION. Global atomics of major 0x33 (R185, R186) and the event that applies one at its home. -/
namespace Sys2Proof.Machine
open Sys2Proof

/-- The operand type of an ATOMG (R185). -/
def atomgTy (op : AtomOp) (big sg : Bool) : Ty :=
  if op = .fadd then .f32 else if big then (if sg then .s64 else .n64) else (if sg then .s32 else .n32)

/-- The handle of a view's newest operation acquires once observed (R186). -/
def acquiring (v : View) (wide : Bool) (id : Nat) (b : SReg) : View := if wide then { v with g := acqH v.g id b } else v

/-- A repeat under a logged key: the logged old value and the logged status; the logged flags are raised again (R186, R193). -/
def atomgLogged (v : View) (d : HReg) (b : SReg) (e : LogEnt) (wide : Bool) : Res :=
  .done (acquiring (readyOp { v with g := { v.g with s := tput v.g.s b.toNat e.val } } d e.status) wide v.st.nextOp b) e.flags

/-- Issue an ATOMG: the handle and s(B) become pending (R186). -/
def atomgOp (h : Hdr) (op : AtomOp) (sc : Scope) (d : HReg) (b : SReg) (c : CReg) (o : SReg) (sw : Option SReg) (big sg acq : Bool)
    (s : State) : Out :=
  let xs := match sw with
    | some x => [ssrc x]
    | none => []
  issue h ([.hd d, .c c, ssrc o, .s b.toNat 1 true true] ++ xs) (fun v _ =>
    let cap := readC v.g c
    let off := (readS v.g o).toNat
    match check1 v cap off (if big then 8 else 4) pA [0] with
    | some r => r
    | none =>
      let y := match sw with
        | some x => readS v.g x
        | none => 0
      let body := OpBody.atomg op big sg acq sc b (capBase cap + off) (readS v.g b) y
      let k := nextKey v
      let v := countKey v
      match logFind v.b k with
      | some e => atomgLogged v d b e (acq && widePool sc)
      | none => .done (startOp v d body (some k)) 0) s

def execAtomgAdd (h : Hdr) (sc : Scope) (d : HReg) (b : SReg) (c : CReg) (o : SReg) (big sg acq : Bool) (s : State) : Out :=
  atomgOp h .add sc d b c o none big sg acq s
def execAtomgAnd (h : Hdr) (sc : Scope) (d : HReg) (b : SReg) (c : CReg) (o : SReg) (big sg acq : Bool) (s : State) : Out :=
  atomgOp h .and sc d b c o none big sg acq s
def execAtomgOr (h : Hdr) (sc : Scope) (d : HReg) (b : SReg) (c : CReg) (o : SReg) (big sg acq : Bool) (s : State) : Out :=
  atomgOp h .or sc d b c o none big sg acq s
def execAtomgXor (h : Hdr) (sc : Scope) (d : HReg) (b : SReg) (c : CReg) (o : SReg) (big sg acq : Bool) (s : State) : Out :=
  atomgOp h .xor sc d b c o none big sg acq s
def execAtomgMin (h : Hdr) (sc : Scope) (d : HReg) (b : SReg) (c : CReg) (o : SReg) (big sg acq : Bool) (s : State) : Out :=
  atomgOp h .min sc d b c o none big sg acq s
def execAtomgMax (h : Hdr) (sc : Scope) (d : HReg) (b : SReg) (c : CReg) (o : SReg) (big sg acq : Bool) (s : State) : Out :=
  atomgOp h .max sc d b c o none big sg acq s
def execAtomgExch (h : Hdr) (sc : Scope) (d : HReg) (b : SReg) (c : CReg) (o : SReg) (big sg acq : Bool) (s : State) : Out :=
  atomgOp h .exch sc d b c o none big sg acq s
def execAtomgCas (h : Hdr) (sc : Scope) (d : HReg) (b : SReg) (c : CReg) (o sw : SReg) (big sg acq : Bool) (s : State) : Out :=
  atomgOp h .cas sc d b c o (some sw) big sg acq s
def execAtomgFadd (h : Hdr) (sc : Scope) (d : HReg) (b : SReg) (c : CReg) (o : SReg) (acq : Bool) (s : State) : Out :=
  atomgOp h .fadd sc d b c o none false false acq s

/-- Flags of an operation that has completed are ORed in, and an enabled one raises the arithmetic trap at the operation's word (R132, R186,
R243). -/
def lateFlags (s : State) (o : Op) (fl : Flg) : State :=
  let s' := modGroup s o.blk o.gid (fun g => { g with fflags := g.fflags ||| fl })
  match ((tget s.blocks o.blk).bind (fun bl => bl.groups[o.gid]?)).bind (fun g => trapFlag (fl &&& g.ftrap)) with
  | some n => lateTrap s' o.blk (lateFault s' { o with h := 0 } 2 n 0)
  | none => s'

/-- The result lands: s(B), the flags, an enabled arithmetic trap at the word of the ATOMG (R186). -/
def atomgLand (s : State) (id : Nat) (o : Op) (b : SReg) (old : W64) (fl : Flg) : State :=
  lateFlags (finishOp (modGroup s o.blk o.gid (fun g => { g with s := tput g.s b.toNat old })) id 0 0 [] old fl) o fl

/-- A shared page at .pool or .sys: the home and the cellar hold the same line before the atomic, which acts at the cellar port (R279). -/
def lockLine (s : State) (pid ln : Nat) : State := readLine (writeLine s pid ln) pid ln

/-- The atomic at its home: it acts on the value the issuing block sees, its result is committed at once and leaves the block's provisional
bytes (R186, R283). On a shared page at .pool or .sys the read and the write are one locked operation at the cellar port, after which the home
holds the result too (R279); an acquire there takes effect once the completion is observed. -/
def atomgAt (s : State) (id : Nat) (o : Op) (op : AtomOp) (big sg acq : Bool) (sc : Scope) (b : SReg) (addr : Nat) (x y : W64)
    (pid off : Nat) : State :=
  let n := if big then 8 else 4
  let part := partOfBlk s o.blk
  let shr := match tget s.pages pid with
    | some pg => pg.leaf.shr
    | none => false
  let s := sendAccess s o addr [] (viewBytes s o.blk pid off addr n)
  let s := if widePool sc && shr then lockLine s pid (off / 128) else s
  let old := BitVec.ofNat 64 (leNat (viewBytes s o.blk pid off addr n))
  let r := atomNew op (atomgTy op big sg) old x y
  let s := match tget s.blocks o.blk with
    | some bl => setBlk s o.blk (setProv bl ((List.range n).foldl (fun t i => tdel t (addr + i)) bl.prov) [addr / 128])
    | none => s
  let s := commitBytes s part pid off addr (leBytes n (r.1.toNat % 2 ^ (8 * n))) (opWriter o)
  let s := if widePool sc && shr then writeLine s pid (off / 128) else s
  let s := if acq && widePool sc then modGroup s o.blk o.gid (fun g => acqH g id b) else s
  atomgLand s id o b old r.2

/-- ATOMG_APPLY: the page is brought in first; a page that is not mapped completes it with 0x0102 (R182, R183, R186). -/
def execAtomgApply (id : Nat) (s : State) : Out :=
  .next (
    match tget s.ops id with
    | some o =>
      match o.body with
      | .atomg op big sg acq sc b addr x y =>
        let part := partOfBlk s o.blk
        let r := meet s (opCore s o) part addr true true
        match r.2 with
        | .fault c => finishBad (noteAddr (modGroup r.1 o.blk o.gid (fun g => { g with s := tput g.s b.toNat 0 })) id addr) id o (5, c)
        | .lostSector => finishBad (noteAddr (modGroup r.1 o.blk o.gid (fun g => { g with s := tput g.s b.toNat 0 })) id addr) id o (9, 0)
        | .absent l => requestPage r.1 part (vpnOf addr) l
        | .page pid off =>
          match lumberForLog r.1 part o.body with
          | .room => atomgAt r.1 id o op big sg acq sc b addr x y pid off
          | .wait => r.1
          | .exhausted => finishBad (noteAddr r.1 id addr) id o (8, 0)
      | _ => s
    | none => s)

end Sys2Proof.Machine
end

