-- ==== Sys2Proof/Machine/Control.lean ====
section
/-! DEFINITION. The sequencer class of major 0x02 (R79 to R86) and SPAWN, LAUNCH, TRAP and BRK of major 0x03 (R87 to R90). -/
namespace Sys2Proof.Machine
open Sys2Proof

def execNop (h : Hdr) (s : State) : Out := issue h [] (fun v _ => .done v 0) s

/-- A want record when the want trace is on (R367). -/
def wantTrace (v : View) (minor : Nat) (m : Lanes) (target : W64) (extra : Nat := 0) (ext : List Lab := []) : View :=
  if traceOn v.st v.b.part 3 && m != 0 then
    tracePath v 3 v.g.label v.g.offset m target (BitVec.ofNat 64 (minor + extra)) ext
  else v

/-- Want of R81 for the lanes of `m`, each with its own label; 0xFFFF makes a lane DONE. -/
def wantLanes (g : Group) (m : Lanes) (L : Nat → Lab) : Group :=
  let fin := maskOf (fun l => m.getLsbD l && L l == 0xFFFF)
  let g := makeDone g fin
  let w := m &&& ~~~fin
  let g := { g with lanes := (List.range 64).map (fun l =>
    if w.getLsbD l then { laneAt g l with mode := .wait, prior := .run, handle := 0, label := L l } else laneAt g l) }
  { g with active := g.active &&& ~~~w }

/-- Every executing lane's label is legal, or 0xFFFF. -/
def wantOK (v : View) (m : Lanes) (L : Nat → Lab) : Bool := (laneList m).all (fun l => L l == 0xFFFF || labelOK v (L l))

def execWant (h : Hdr) (l : Lab) (s : State) : Out :=
  issue h [] (fun v _ =>
    let m := execOf h v.g
    if wantOK v m (fun _ => l) then
      .done { wantTrace v 1 m (l.setWidth 64) with g := wantLanes v.g m (fun _ => l) } 0
    else contract 4) s

/-- WANT vA: bits 31..16 of every executing lane must be zero (R81). -/
def execWantVector (h : Hdr) (a : VReg) (s : State) : Out :=
  issue h [vsrc .n32 a] (fun v rows =>
    let m := execOf h v.g
    let x := fun l => elem .n32 rows 0 l
    let L : Nat → Lab := fun l => (x l).setWidth 16
    if (laneList m).all (fun l => x l >>> 16 == 0) && wantOK v m L then
      .done { wantTrace v 2 m 0xFFFE 0 ((List.range 64).map L) with g := wantLanes v.g m L } 0
    else contract 4) s

def execWants (h : Hdr) (neg : Bool) (a : SReg) (l : Lab) (s : State) : Out :=
  issue h [ssrc a] (fun v _ =>
    let m := execOf h v.g
    if (readS v.g a != 0) == neg then .done v 0
    else if wantOK v m (fun _ => l) then
      .done { wantTrace v 3 m (l.setWidth 64) with g := wantLanes v.g m (fun _ => l) } 0
    else contract 4) s

/-- WANTH gates the executing lanes on a handle (R82). -/
def execWanth (h : Hdr) (n : HReg) (l : Lab) (s : State) : Out :=
  issue h [.h n] (fun v _ =>
    let m := execOf h v.g
    if labelOK v l then
      let g := mapLanes v.g m (fun s => { s with mode := .gate, prior := .run, handle := n, label := l })
      let v := wantTrace v 4 m (l.setWidth 64) (n.toNat * 256 + (if hComplete v.g n then 4096 else 0))
      .done { v with g := { g with active := g.active &&& ~~~m } } 0
    else contract 4) s

/-- EXIT: every lane DONE, holds released, call frames discarded, the group ENDED (R85). -/
def exitGroup (v : View) : View :=
  let v := dropHolds v allLanes
  let g := makeDone v.g allLanes
  endGroup { v with g := { g with frames := g.frames.drop (g.frames.length - 1) } }

def execExit (h : Hdr) (s : State) : Out :=
  issue h [] (fun v _ =>
    let m := maskOf (fun l => (laneAt v.g l).mode != .done)
    .done (exitGroup (wantTrace v 5 m 0xFFFF)) 0) s

/-- CALL: the executing lanes become CALLING; the frame is pushed when the block ends (R78, R83). -/
def execCall (h : Hdr) (f : Lab) (s : State) : Out :=
  issue h [] (fun v _ =>
    let m := execOf h v.g
    let r := v.g.label + 1
    if markerKind (wordsOf v.st v.b v.g) f ≠ some 1 then contract 4
    else if !labelOK v r then contract 4
    else if frameDepth v.g = 8 then contract 9
    else
      let g := mapLanes v.g m (fun s => { s with mode := .calling, prior := .run, handle := 0, label := f, ret := r })
      .done { wantTrace v 6 m (f.setWidth 64) with g := { g with active := g.active &&& ~~~m } } 0) s

/-- RET: return to the frame's resume label, or DONE in the base frame (R84). -/
def execRet (h : Hdr) (s : State) : Out :=
  issue h [] (fun v _ =>
    let m := execOf h v.g
    let t : Lab := if frameDepth v.g = 0 then 0xFFFF else (topFrame v.g).resume
    .done { wantTrace v 7 m (t.setWidth 64) with g := retLanes v.g m } 0) s

/-- YIELD: the next instruction waits until every other ready group has issued, at most 16 clocks (R86). -/
def execYield (h : Hdr) (s : State) : Out :=
  issue h [] (fun v _ =>
    let r := settle h v 0
    .raw { r with g := { r.g with yield := 16 } }) s

/-! ### Other work -/

/-- A footprint word (R88): `none` when a reserved bit is set or a value is out of range. -/
def footprintOf (w : W64) : Option Footprint :=
  let f : Footprint := { groups := (fld w 0 4).toNat + 1, rows := (fld w 10 9).toNat, scratch := (fld w 19 10).toNat,
                         barriers := (fld w 29 10).toNat, carry := (fld w 39 7).toNat }
  if fld w 46 18 = 0 ∧ fld w 4 6 = 0 ∧ 8 ≤ f.rows ∧ f.rows ≤ 256 ∧ f.rows % 8 = 0 ∧ f.scratch ≤ 760 ∧ f.barriers ≤ 512 ∧
     f.carry ≤ 64 ∧ f.carry ≤ f.scratch then some f else none

/-- The footprint fits an empty core (R15, R16). -/
def fitsEmpty (f : Footprint) : Bool := decide (f.groups ≤ 16) && decide (f.groups * f.rows ≤ 2048)

/-- A block not yet placed, with the state that R26 and R27 give a new one. -/
def newBlock (kind : BKind) (part fn launch : Nat) (lid : W32) (stage : BitVec 3) (index nblocks seqno : W32) (seed : W64)
    (image : Nat) (entry : Lab) (fp : Footprint) (ready : Nat) (s : Tbl W64) (c : Tbl Cap) : Block :=
  { kind := kind, part := part, fn := fn, launch := launch, lid := lid, stage := stage, index := index, nblocks := nblocks,
    seqno := seqno, seed := seed, depth := 0, serial := 0, parent := none, image := image, entry := entry, fp := fp,
    phase := .waiting, place := none, ready := ready, first := none, groups := [], scratch := [], tags := [], slots := [], bars := [],
    baton := 0, act := ActTable.init, commits := 0, prov := [], pwords := [], log := [], record := none, refires := 0, total := 0, fault := none,
    queued := false, halted := false, preempt := false, ending := none, entryW := none, sub := none, partners := [], idle := 0, behind := none,
    initS := s, initC := c, status := 0, faultAt := 0, report := [], reported := false, tokens := [] }

/-- The first registers of a block's groups: its launch's arguments (R26). -/
def argTbl {α : Type} (xs : List α) (n : Nat) : Tbl α := ((List.range n).zip (xs.take n))

/-- The launch's arguments of the block that a view belongs to. -/
def launchS (v : View) : Tbl W64 := argTbl (((tget v.st.launches v.b.launch).map (fun l => l.args)).getD []) 16
def launchC (v : View) : Tbl Cap := argTbl (((tget v.st.launches v.b.launch).map (fun l => l.caps)).getD []) 8

/-- The registers a child's groups start with: the launch's arguments as in any block, but the first of them copies of the parent's,
capabilities tagged only where the source holds G (R26, R88, R156). -/
def childS (v : View) (a n : Nat) : Tbl W64 := (List.range n).foldl (fun t i => tput t i (tgetD v.g.s (a + i) 0)) (launchS v)
def childC (v : View) (c m : Nat) : Tbl Cap :=
  (List.range m).foldl (fun t i =>
    let x := tgetD v.g.c (c + i) { bits := 0, tag := false }
    tput t i { x with tag := x.tag && (capPerm x &&& pG != 0) }) (launchC v)

/-- The early status of a SPAWN, if any (R88). -/
def spawnStatus (v : View) (f e : W64) : Option W16 :=
  if 4 ≤ v.b.depth then some 0x11
  else
    match footprintOf f with
    | none => some 0x12
    | some fp =>
      if markerKind (wordsOf v.st v.b v.g) (e.setWidth 16) ≠ some 0 then some 0x12
      else if !fitsEmpty fp then some 0x10 else none

/-- Create the child and bind the handle to it; a child has no sequence number, so %seqno reads a free value. -/
def spawnChild (v : View) (h : HReg) (f e : W64) (s : Tbl W64) (c : Tbl Cap) (serial : Nat) (key : Key) : View :=
  let fr := freeNext v.st
  let uid := fr.2.nextUid
  let b := newBlock .spawned v.b.part v.b.fn v.b.launch v.b.lid v.b.stage v.b.index v.b.nblocks (fr.1.setWidth 32) v.b.seed v.b.image
    (e.setWidth 16) ((footprintOf f).getD Footprint.zero) v.st.clock s c
  let b := { b with depth := v.b.depth + 1, serial := serial % 1024, parent := some v.uid }
  startOp { v with st := { fr.2 with blocks := tput fr.2.blocks uid b, nextUid := uid + 1 } } h (.spawn uid) (some key)

/-- SPAWN (R13, R88). It is logged like a keyed operation, so a re-fired block finds its child again (R258); one at depth 4 completes its handle at
once, and so does its repeat. -/
def execSpawn (h : Hdr) (d : HReg) (f e a : SReg) (c : CReg) (n m : BitVec 4) (s : State) : Out :=
  let ops := [Opd.hd d, ssrc f, ssrc e] ++ (if n = 0 then [] else [Opd.s a.toNat n.toNat true false]) ++
    (List.range m.toNat).map (fun i => Opd.c (c + BitVec.ofNat 4 i))
  issue h ops (fun v _ =>
    let k := nextKey v
    let fw := readS v.g f
    let ew := readS v.g e
    let serial := v.g.spawns
    let v := countKey { v with g := { v.g with spawns := v.g.spawns + 1 } }
    match logFind v.b k with
    | some x => .done (readyOp v d x.status) 0
    | none =>
      match opOfKey v.st v.uid k with
      | some id => .done { v with g := writeH v.g d (.pending id) } 0
      | none =>
        match spawnStatus v fw ew with
        | some st => .done (if st = 0x11 then completeNow v d st else startOp v d (.ready st) (some k)) 0
        | none => .done (spawnChild v d fw ew (childS v a.toNat n.toNat) (childC v c.toNat m.toNat) serial k) 0) s

/-- A graph handed to the partition's command processor (R284). -/
def newGraph (part fn base level clock : Nat) : Graph :=
  { part := part, fn := fn, base := base, level := level, nodes := [], halted := none, failed := [], started := clock, done := none }

/-- LAUNCH (R89). -/
def execLaunch (h : Hdr) (d : HReg) (c : CReg) (o : SReg) (s : State) : Out :=
  issue h [.hd d, .c c, ssrc o] (fun v _ =>
    let cap := readC v.g c
    let off := (readS v.g o).toNat
    match checkRange v cap off 64 1 pR [0] with
    | some r => r
    | none =>
      let k := nextKey v
      let v := countKey v
      match logFind v.b k with
      | some x => .done (readyOp v d x.status) 0
      | none =>
        match opOfKey v.st v.uid k with
        | some id => .done { v with g := writeH v.g d (.pending id) } 0
        | none =>
          let gr := v.st.nextGr
          let st := { v.st with graphs := tput v.st.graphs gr (newGraph v.b.part v.b.fn (capBase cap + off) 0 v.st.clock), nextGr := gr + 1 }
          .done (startOp { v with st := st } d (.launch gr) (some k)) 0) s

/-- TRAP: a system trap after the word (R90). -/
def execTrap (h : Hdr) (code : BitVec 14) (s : State) : Out := issue h [] (fun v _ => .after v 3 1 (code.setWidth 64)) s

/-- BRK: a debug event when the partition has debug enabled, else NOP (R90, R367). -/
def execBrk (h : Hdr) (code : BitVec 14) (s : State) : Out :=
  issue h [] (fun v _ =>
    if (pctl v.st v.b.part 0x11B).getLsbD 0 then
      let v := if traceOn v.st v.b.part 5 then tracePath v 5 v.g.label v.g.offset v.g.active (code.setWidth 64) 0 else v
      .after v 3 2 (code.setWidth 64)
    else .done v 0) s

end Sys2Proof.Machine
end

