-- ==== Sys2Proof/Machine/Items.lean ====
section
/-! DEFINITION. The items of a group's state as the privileged view, dumps and trunk records lay them out: lane words (R19), frames, void bits
and handle words (R339, R354, R376). -/
namespace Sys2Proof.Machine
open Sys2Proof

def modeCode : LaneMode → Nat
  | .run => 0
  | .wait => 1
  | .gate => 2
  | .calling => 3
  | .done => 4
  | .held => 5

def modeOfCode (n : Nat) : Option LaneMode :=
  match n with
  | 0 => some .run
  | 1 => some .wait
  | 2 => some .gate
  | 3 => some .calling
  | 4 => some .done
  | 5 => some .held
  | _ => none

/-- A lane state word (R19). -/
def laneWord (l : LaneState) : W64 :=
  BitVec.ofNat 64 (modeCode l.mode * 2 ^ 60 + (if l.mode = .held then modeCode l.prior else 0) * 2 ^ 56 + l.handle.toNat * 2 ^ 52 +
    l.ret.toNat * 2 ^ 32 + l.label.toNat)

/-- The checks of R19 on a lane word written by PWR; the prior state of a lane that is not HELD is not kept. R19 does not list a HELD word whose
prior field is not 1 to 3 among the rejected ones: it is accepted, a prior of 0, 4 or 5 as it stands and one of 6 to 15 as RUN (DESIGN CHOICE,
log 37). -/
def laneOfWord (w : W64) : Option LaneState :=
  match modeOfCode (fld w 60 4).toNat with
  | none => none
  | some m =>
    let L : Lab := fld w 0 16
    let labelled := m == .wait || m == .gate || m == .calling
    if fld w 48 4 ≠ 0 ∨ fld w 16 16 ≠ 0 ∨ (labelled ∧ 0xFFFD < L.toNat) then none
    else
      some { mode := m, prior := if m = .held then (modeOfCode (fld w 56 4).toNat).getD .run else .run, handle := fld w 52 4,
             ret := fld w 32 16, label := L }

def runCode : RunStatus → Nat
  | .issuing => 0
  | .stalled => 1
  | .idle => 2
  | .parked => 3
  | .ended => 4

/-- A selector's class, index, lane and part; `none` when it names nothing of the table. -/
def selectorOf (x : W64) : Option (Nat × Nat × Nat × Nat) :=
  let c := (fld x 24 8).toNat
  let i := (fld x 16 8).toNat
  let l := (fld x 8 8).toNat
  let p := (fld x 0 8).toNat
  let ok := match c with
    | 0 => i == 0 && decide (l < 64) && p == 0
    | 1 | 2 | 10 | 11 | 12 => i == 0 && l == 0 && p == 0
    | 3 => decide (i ≤ 8) && l == 0 && decide (p ≤ 5)
    | 4 => decide (l < 64) && p == 0
    | 5 => decide (i < 64) && l == 0 && p == 0
    | 6 => decide (1 ≤ i) && decide (i ≤ 7) && l == 0 && p == 0
    | 7 => decide (i < 16) && l == 0 && decide (p ≤ 2)
    | 8 => decide (i < 16) && l == 0 && p == 0
    | 9 => i == 0 && l == 0 && decide (p ≤ 2)
    | 13 => decide (i ≤ 7) && l == 0 && p == 0
    | _ => false
  if x >>> 32 = 0 && ok then some (c, i, l, p) else none

/-- The frame at a depth. -/
def frameAt (g : Group) (d : Nat) : Option Frame := if d ≤ frameDepth g then g.frames[frameDepth g - d]? else none

def framePart (f : Frame) (p : Nat) : W64 :=
  match p with
  | 0 => f.entry.setWidth 64
  | 1 => f.fend.setWidth 64
  | 2 => f.resume.setWidth 64
  | 3 => f.parts
  | 4 => f.rem
  | _ => f.sweeps.setWidth 64

/-- Void bits of `n` registers from `base` (R29). -/
def voidBits {α : Type} (t : Tbl α) (base n : Nat) : W64 := maskOf (fun l => decide (l < n) && !thas t (base + l))

def handleWord (x : Option HVal) : W64 :=
  match x with
  | none => 0
  | some (.pending _) => 0x10000
  | some (.complete st _ _) => 0x20000 ||| st.setWidth 64

/-- What PRD reads (R339, R380); a void register reads 0. -/
def readItem (b : Block) (g : Group) (x : Nat × Nat × Nat × Nat) : W64 :=
  let i := x.2.1
  let l := x.2.2.1
  let p := x.2.2.2
  match x.1 with
  | 0 => laneWord (laneAt g l)
  | 1 => g.active
  | 2 => BitVec.ofNat 64 (g.label.toNat * 65536 + g.offset.toNat)
  | 3 => match frameAt g i with
    | some f => framePart f p
    | none => 0
  | 4 => (rget (readV g i) l).setWidth 64
  | 5 => tgetD g.s i 0
  | 6 => tgetD g.p i 0
  | 7 =>
    let c := readC g (BitVec.ofNat 4 i)
    if p = 0 then c.bits.extractLsb' 0 64 else if p = 1 then c.bits.extractLsb' 64 64 else if c.tag then 1 else 0
  | 8 => handleWord (tget g.h i)
  | 9 => if p = 0 then g.fflags.setWidth 64 else if p = 1 then g.frm.setWidth 64 else g.ftrap.setWidth 64
  | 10 => g.sround.setWidth 64
  | 11 => b.commits.setWidth 64
  | 12 => BitVec.ofNat 64 (runCode g.run)
  | _ =>
    if i < 4 then voidBits g.v (64 * i) 64
    else if i = 4 then voidBits g.s 0 64
    else if i = 5 then voidBits ((0, 0) :: g.p) 0 8
    else if i = 6 then voidBits g.c 0 16
    else voidBits g.h 0 16

end Sys2Proof.Machine
end

