-- ==== Sys2Proof/Machine/Trunk.lean ====
section
/-! DEFINITION. The trunk: the layout of saves and resume records (R354), their two copies (R353) and the room of a slice (R272). -/
namespace Sys2Proof.Machine
open Sys2Proof

/-- Bytes up to the next multiple of 128. -/
def padTo (bs : List W8) : List W8 := bs ++ List.replicate ((128 - bs.length % 128) % 128) 0

/-- Words of eight bytes. -/
def octets (ns : List Nat) : List W8 := ns.foldl (fun a n => a ++ leBytes 8 n) []

/-- The 64 lanes of a row. -/
def rowBytes (r : Row) : List W8 := (List.range 64).foldl (fun a l => a ++ leBytes 4 (rget r l).toNat) []

/-! ### Group sections -/

/-- A frame record of 32 bytes. -/
def frameBytes (f : Option Frame) : List W8 :=
  match f with
  | none => List.replicate 32 0
  | some f =>
    leBytes 2 f.entry.toNat ++ leBytes 2 f.fend.toNat ++ leBytes 2 f.resume.toNat ++ leBytes 2 0 ++ leBytes 8 f.parts.toNat ++
      leBytes 8 f.rem.toNat ++ leBytes 4 f.sweeps.toNat ++ leBytes 4 0

/-- The void bits of every register file: v, s, and one word of p, c and h. -/
def voidBytes (g : Group) : List W8 :=
  (List.range 4).foldl (fun a i => a ++ leBytes 8 (voidBits g.v (64 * i) 64).toNat) [] ++ leBytes 8 (voidBits g.s 0 64).toNat ++
    leBytes 8 ((voidBits ((0, 0) :: g.p) 0 8).toNat + 65536 * (voidBits g.c 0 16).toNat + 2 ^ 32 * (voidBits g.h 0 16).toNat)

/-- The fixed part, 0x370 bytes. -/
def groupFixed (g : Group) : List W8 :=
  (List.range 64).foldl (fun a l => a ++ leBytes 8 (laneWord (laneAt g l)).toNat) [] ++ leBytes 8 g.active.toNat ++
    leBytes 4 (g.label.toNat * 65536 + g.offset.toNat) ++ leBytes 1 (frameDepth g) ++ leBytes 1 (runCode g.run) ++ leBytes 2 0 ++
    leBytes 4 g.sround.toNat ++ leBytes 1 g.fflags.toNat ++ leBytes 1 g.frm.toNat ++ leBytes 1 g.ftrap.toNat ++ leBytes 1 0 ++
    (List.range 9).foldl (fun a d => a ++ frameBytes (frameAt g d)) [] ++ voidBytes g ++ leBytes 8 (g.safe.getD 0).toNat

/-- A kept queue: its register, kind and type, then its stream with its position and its buffered entries, in the model's layout (log 13). -/
def queueBytes (k : Nat) (q : Queue) : List W8 :=
  leBytes 1 k ++ leBytes 1 (if q.load then 1 else 0) ++ leBytes 2 (tyCode q.ty).toNat ++ leBytes 4 q.buf.length ++
    octets [q.base, (BitVec.ofInt 64 q.stride).toNat, q.n, q.pos, q.fetched, q.resid.toNat] ++
    q.buf.foldl (fun a e => a ++ rowBytes e.data ++ leBytes 8 e.resid.toNat) []

/-- The kept registers, v, s, p, c with its tag, h, and the kept queues. -/
def groupKept (g : Group) : List W8 :=
  g.v.foldl (fun a r => a ++ rowBytes r.2) [] ++
    g.s.foldl (fun a r => a ++ leBytes 8 r.2.toNat) [] ++ g.p.foldl (fun a r => a ++ leBytes 8 r.2.toNat) [] ++
    g.c.foldl (fun a r => a ++ leBytes 16 r.2.bits.toNat ++ leBytes 1 (if r.2.tag then 1 else 0)) [] ++
    g.h.foldl (fun a r => a ++ leBytes 4 (handleWord (some r.2)).toNat) [] ++ g.q.foldl (fun a r => a ++ queueBytes r.1 r.2) []

/-! ### The record -/

/-- Bits packed from the lowest, eight to a byte. -/
def packBits (n : Nat) (p : Nat → Bool) : List W8 :=
  (List.range ((n + 7) / 8)).map (fun i => BitVec.ofNat 8 ((List.range 8).foldl (fun x j => x + (if p (8 * i + j) then 2 ^ j else 0)) 0))

/-- The activation table: two banks of 256 words, their bases, the selector. -/
def actBytes (t : ActTable) : List W8 :=
  let bank := fun (b : Tbl W32) => (List.range 256).foldl (fun a i => a ++ leBytes 4 (tgetD b i 0).toNat) []
  bank t.bank0 ++ bank t.bank1 ++ leBytes 1 t.base0.toNat ++ leBytes 1 t.base1.toNat ++ leBytes 2 (if t.sel then 1 else 0)

/-- The block section: its barrier objects, the baton holder, the activation table, and the keys and valid bits of `n` slots of the tag table. R354
gives this order; the widths behind the barrier objects are the model's (log 13). -/
def blockSection (b : Block) (n : Nat) : List W8 :=
  (List.range b.fp.barriers).foldl (fun a i => a ++ leBytes 16 (barNat b i)) [] ++ leBytes 4 b.baton ++ actBytes b.act ++
    octets ((List.range n).map (fun i => (tgetD b.slots i 0).toNat)) ++ packBits n (fun i => thas b.slots i)

/-- Scratchpad bytes, and one tag bit per granule. -/
def scratchSection (b : Block) (n : Nat) : List W8 :=
  bgets b.scratch 0 n ++ packBits (n / 16) (fun i => b.tags.contains i)

/-- The sections after the header, each aligned to 128 bytes; `kind` 0 resume record, 1 save, 2 parked block with its fault. -/
def trunkSections (b : Block) (kind : Nat) (replays : List (List W8)) : List W8 :=
  let kib := if kind = 0 then b.fp.carry else b.fp.scratch
  b.groups.foldl (fun a g => a ++ padTo (groupFixed g ++ groupKept g)) [] ++ padTo (blockSection b kib) ++
    padTo (scratchSection b (1024 * kib)) ++ padTo (replays.foldl (fun a x => a ++ x) []) ++
    padTo (b.tokens.foldl (fun a t => a ++ leBytes 4 t) []) ++
    (match kind, b.fault with
     | 2, some f => padTo ((List.range 6).foldl (fun a i => a ++ leBytes 8 (faultWord (some b) f (0x180 + i)).toNat) [])
     | _, _ => [])

/-- The header of a record of `len` bytes in all. -/
def trunkHeader (b : Block) (kind replays len : Nat) : List W8 :=
  leBytes 4 0x4B4E5254 ++ leBytes 2 1 ++ leBytes 1 kind ++ leBytes 1 b.groups.length ++ leBytes 4 b.lid.toNat ++ leBytes 1 b.stage.toNat ++
    leBytes 1 b.depth ++ leBytes 2 b.serial ++ leBytes 4 b.index.toNat ++ leBytes 4 b.commits.toNat ++ leBytes 4 b.seqno.toNat ++
    leBytes 2 b.fp.rows ++ leBytes 2 replays ++ leBytes 4 (1024 * (if kind = 0 then b.fp.carry else b.fp.scratch)) ++
    leBytes 4 b.tokens.length ++ leBytes 8 len ++ leBytes 16 0

/-- The whole record: header, sections, and a check word for each 128 bytes of them. -/
def trunkBytes (b : Block) (kind : Nat) (replays : List (List W8)) : List W8 :=
  let body := trunkSections b kind replays
  let n := (body.length + 128) / 128
  let text := padTo (trunkHeader b kind replays.length (128 * n + 4 * n)) ++ body
  text ++ (List.range n).foldl (fun a i => a ++ leBytes 4 (crc32c ((text.drop (128 * i)).take 128)).toNat) []

/-! ### Room (R272, R353, R354) -/

/-- Bytes of a slice's trunk that records take. -/
def trunkUsed (s : State) (slice : Nat) : Nat :=
  s.trunk.foldl (fun n e => if e.2.slices.contains slice then n + e.2.bytes.length else n) 0

/-- Two slices of the partition for the copies of a record, the block's own first. -/
def trunkSlices (s : State) (part own len : Nat) : Option (List Nat) :=
  let room := ((own :: (stopsOf s part).filter (· != own)).filter (fun c => decide (trunkUsed s c + len ≤ 2 ^ 21))).take 2
  if room.length = 2 then some room else none

/-- The number under which a block's record is kept: its resume record, or its save. -/
def trunkKey (uid : Nat) (save : Bool) : Nat := 2 * uid + (if save then 1 else 0)

/-- A record is written, in place of the block's older one of its kind. -/
def putTrunk (s : State) (uid part : Nat) (save : Bool) (slices : List Nat) (bytes : List W8) : State :=
  { s with trunk := tput s.trunk (trunkKey uid save) { part := part, uid := uid, save := save, slices := slices, bytes := bytes, bad := [] } }

def dropTrunk (s : State) (uid : Nat) (save : Bool) : State := { s with trunk := tdel s.trunk (trunkKey uid save) }

/-- The resume record of a block as its record holds it; the manual names no outcome where no slice has room, and the record is then kept in
the first two (log 13). -/
def writeResume (s : State) (uid : Nat) (b : Block) (r : Snapshot) : State :=
  let b' := { b with groups := r.groups, scratch := r.scratch, tags := r.tags, slots := r.slots, bars := r.bars, baton := r.baton, act := r.act,
                     commits := r.commits, tokens := r.tokens }
  let bs := trunkBytes b' 0 []
  putTrunk s uid b.part false ((trunkSlices s b.part (blkCore b) bs.length).getD ((stopsOf s b.part).take 2)) bs

/-! ### Saves (R345, R346) -/

/-- A replay entry: its 16-byte head, then its operands. -/
def replayEntry (kind gid h ord : Nat) (body : List W8) : List W8 :=
  leBytes 1 kind ++ leBytes 1 gid ++ leBytes 1 h ++ leBytes 1 0 ++ leBytes 4 body.length ++ leBytes 8 ord ++ body

/-- The operands of a copy as read at issue; its capabilities have been applied to the addresses (log 13). -/
def copyOperands (c : CopyCmd) : List W8 :=
  octets [c.goff, c.soff, c.esz, c.bits, if c.plane then 1 else 0, c.e0, c.e1, c.e2, c.gs1, c.gs2, c.ss1, c.ss2] ++
    (match c.rows with
     | some (r, m) => rowBytes r ++ leBytes 8 m.toNat
     | none => [])

/-- The replay entry of an operation: an inbound copy (kind 0), or a FETCHN with the lifetime that remains (kind 1). -/
def replayOfOp (saved : Bool) (clock id : Nat) (o : Op) : Option (List W8) :=
  match o.body with
  | .copy c => if c.inb then some (replayEntry 0 o.gid o.h.toNat id (copyOperands c)) else none
  | .fetchn n v d dst len l _ =>
    some (replayEntry 1 o.gid o.h.toNat id (leBytes 16 n ++ octets [v, if saved then d else d - clock, dst, len, l.toNat]))
  | _ => none

/-- The replay entries of a block: its inbound copies and FETCHNs in the order of issue, and the stream position of each load queue that it keeps
(kind 2) (R345). -/
def replaysOf (s : State) (uid : Nat) (b : Block) : List (List W8) :=
  let saved := ((tget s.blocks uid).map (fun b => b.phase == .saved)).getD false
  (opsOf s uid).filterMap (fun e => replayOfOp saved s.clock e.1 e.2) ++
    (b.groups.zip (List.range b.groups.length)).foldl (fun a g => a ++ (g.1.q.filter (fun e => e.2.load)).map (fun e =>
      replayEntry 2 g.2 e.1 0 (octets [e.2.pos]))) []

/-- The save of a block as it stands: kind 2 with its fault, else kind 1. -/
def saveBytes (s : State) (uid : Nat) (b : Block) : List W8 := trunkBytes b (if b.fault.isSome then 2 else 1) (replaysOf s uid b)

/-- A save follows the handles of its block that complete in the meantime (R346). -/
def freshSave (s : State) (r : TrunkRec) : TrunkRec :=
  match tget s.blocks r.uid with
  | some b => if r.save ∧ b.phase = .saved then { r with bytes := saveBytes s r.uid b } else r
  | none => r

def freshSaves (s : State) : State := { s with trunk := s.trunk.map (fun e => (e.1, freshSave s e.2)) }

/-! ### Wait-table tokens (R274, R346) -/

/-- The tokens of the wait-table entries on which a block's operations wait: the pages of its PAGEREQs, since quiescence awaits engine writes
(R345). -/
def blockTokens (s : State) (uid part : Nat) : List Nat :=
  ((partOf s part).wait.filter (fun e => (opsOf s uid).any (fun o => match o.2.body with
    | .pages vs => vs.contains e.2.vpn
    | _ => false))).map (fun e => e.1)

end Sys2Proof.Machine
end

