-- ==== Sys2Proof/Machine/Blocks.lean ====
section
/-! DEFINITION. The life of a block: kept registers (R61, R62), resume records (R191), commits of provisional stores (R187, R257), re-fires
(R192, R258, R352), stops and retirement (R233, R332), completion with its block record (R12, R374), firing of stages (R232, R292). -/
namespace Sys2Proof.Machine
open Sys2Proof

/-! ### Accesses of agents other than engines -/

/-- A committed store of the host, the command processor or the device within one page (R283, R284, R322). -/
def devStore (s : State) (part addr : Nat) (bs : List W8) (w : Writer) : StoreRes :=
  let r := meet s none part addr false true
  match r.2 with
  | .fault c => .bad r.1 5 c
  | .lostSector => .bad r.1 9 0
  | .absent l => .wait (requestPage r.1 part (vpnOf addr) l)
  | .page id off => .done (commitBytes r.1 part id off addr bs w)

/-- The write is of a range, whose whole sectors are no longer lost (R316). -/
def coverDone (part addr n : Nat) : StoreRes → StoreRes
  | .done s => .done (clearLost s part (rangeCovers addr n))
  | r => r

/-- A range as pieces that lie within one 8-byte word each. -/
def wordPieces : Nat → Nat → List W8 → List (Nat × List W8)
  | 0, _, _ => []
  | n + 1, a, bs => if bs.isEmpty then [] else (a, bs.take (8 - a % 8)) :: wordPieces n (a + (8 - a % 8)) (bs.drop (8 - a % 8))

/-- Store committed bytes, each word's by one write (R322, R370). Where a page is on its way or refuses its piece, nothing is stored. -/
def devStoreAll (s : State) (part : Nat) (w : Writer) (addr : Nat) (bs : List W8) : StoreRes :=
  let ps := wordPieces bs.length addr bs
  let stopped := ps.findSome? (fun p => match devStore s part p.1 p.2 w with
    | .done _ => none
    | r => some r)
  match stopped with
  | some r => r
  | none => coverDone part addr bs.length (ps.foldl (fun r p => match r with
    | .done s => devStore s part p.1 p.2 w
    | r => r) (.done s))

/-- What a load of committed bytes meets. -/
inductive LoadRes
  | done (bs : List W8)
  | wait (s : State)
  | bad (code cause : Nat)

/-- Committed bytes, piece by piece of at most eight bytes within one page. -/
def devLoad (s : State) (part : Nat) : Nat → Nat → LoadRes
  | _, 0 => .done []
  | addr, n + 1 =>
    match devLoad s part addr n with
    | .done bs =>
      let r := meet s none part (addr + n) true false
      (match r.2 with
       | .fault c => .bad 5 c
       | .lostSector => .bad 9 0
       | .absent l => .wait (requestPage r.1 part (vpnOf (addr + n)) l)
       | .page id off => .done (bs ++ pageBytes r.1 id off 1))
    | r => r

/-! ### Kept registers (R61, R62) -/

/-- A handle register that a gated lane waits on, in any frame. -/
def gatedOn (g : Group) (n : Nat) : Bool :=
  g.lanes.any (fun s => (s.mode == .gate || (s.mode == .held && s.prior == .gate)) && s.handle.toNat == n)

/-- The group with only what a live-mask word keeps. -/
def keepGroup (g : Group) (mask : W64) : Group :=
  { g with
    v := g.v.filter (fun e => mask.getLsbD (e.1 / 8))
    q := g.q.filter (fun e => mask.getLsbD (32 + e.1))
    s := g.s.filter (fun e => mask.getLsbD (40 + e.1 / 8))
    p := g.p.filter (fun _ => mask.getLsbD 48)
    c := g.c.filter (fun e => mask.getLsbD (if e.1 < 6 then 49 else if e.1 < 12 then 50 else 51))
    h := g.h.filter (fun e => mask.getLsbD (52 + e.1 / 4) || gatedOn g e.1) }

/-- The resume record at a commit, each group under its own mask (R191, R217); every operation has completed, so no token is recorded. -/
def makeRecord (b : Block) (masks : List W64) : Snapshot :=
  { groups := (b.groups.zip (List.range b.groups.length)).map (fun e =>
      let g := keepGroup e.1 (masks.getD e.2 0)
      { g with keyed := 0, emul := none, acq := [], tried := false, issued := false, owed := false })
    scratch := b.scratch.filter (fun e => decide (e.1 < 1024 * b.fp.carry))
    tags := b.tags.filter (fun t => decide (t < 64 * b.fp.carry))
    slots := b.slots.filter (fun e => decide (e.1 < b.fp.carry))
    bars := b.bars, baton := b.baton, act := b.act, commits := b.commits, tokens := [] }

/-! ### Making provisional stores visible (R187, R190, R257) -/

/-- The page that holds an address for a partition; a page with a provisional line is never evicted (R277). -/
def pageAt (s : State) (part addr : Nat) : Option (Nat × Page) :=
  s.pages.find? (fun e => e.2.part == part && e.2.vpn == pageVpn e.2.leaf (vpnOf addr) && !e.2.evicting)

/-- Commit the bytes of one 8-byte word. -/
def commitWord (s : State) (uid part word : Nat) (bs : Tbl W8) : State :=
  match pageAt s part word with
  | none => s
  | some (id, pg) =>
    let base := pg.vpn * 65536
    let data := bs.foldl (fun m e => bput m (e.1 - base) e.2) pg.data
    let ln := (word - base) / 128
    let s := { s with pages := tput s.pages id { pg with data := data, dirty := nput pg.dirty ln, words := remerge pg data [ln] } }
    let w : Writer := { uid := some uid, gid := 0, label := 0xFFFF, offset := 0, frame := 0, sweeps := 0, mask := 0 }
    watchWrite s part w word 8 false (fun a => bget pg.data (a - base)) (fun a => bget data (a - base))

/-- The lines that a block's provisional bytes cover. -/
def provCovers (b : Block) (line : Nat) : Bool := (List.range 128).all (fun i => thas b.prov (128 * line + i))

/-- Every provisional byte of a block becomes committed, and a sector that they cover is no longer lost (R316); at .pool or .sys dirty lines of shared pages go to the cellar (R279). -/
def commitProv (s : State) (uid : Nat) (sc : Scope) : State :=
  match tget s.blocks uid with
  | none => s
  | some b =>
    let words := b.prov.foldl (fun l e => nput l (8 * (e.1 / 8))) []
    let s := clearLost (setBlk s uid { b with prov := [], pwords := [] }) b.part (provCovers b)
    let s := words.foldl (fun s w => commitWord s uid b.part w (b.prov.filter (fun e => decide (w ≤ e.1) && decide (e.1 < w + 8)))) s
    if widePool sc then releasePool s b.part else s

/-! ### Stopping, retiring, completing -/

/-- Take a block out of its core's fault queue. -/
def unqueue (s : State) (uid : Nat) : State := { s with cores := s.cores.map (fun e => (e.1, { e.2 with queue := ndel e.2.queue uid })) }

/-- The block will complete with a status once its operations and children are done; its provisional stores stay its own until its operations
have completed and are restored then (R233, R332). -/
def endBlockWithStatus (s : State) (uid : Nat) (st : W16) : State :=
  match tget s.blocks uid with
  | none => s
  | some b =>
    let b := { b with ending := some st, fault := none, queued := false, preempt := false,
                      groups := b.groups.map (fun g => { g with run := .ended, active := 0, arrival := .none, xreq := none, emul := none }) }
    unqueue (setBlk s uid b) uid

/-- Cancel every operation of a block (R233, R341). -/
def cancelAll (s : State) (uid : Nat) : State := (opsOf s uid).foldl (fun s e => cancelOp s e.1) s

/-- Stop a running block (R233). -/
def stopBlock (s : State) (uid : Nat) : State := endBlockWithStatus (cancelAll s uid) uid 0x0500

/-- The two words of a name pair with a version (R219). -/
def namePair (n ver : Nat) : W64 × W64 :=
  (BitVec.ofNat 64 (nameIter n * 2 ^ 32 + nameTile n), BitVec.ofNat 64 (ver * 2 ^ 24 + nameTid n))

def modStage (s : State) (l n : Nat) (f : Stage → Stage) : State :=
  { s with launches := tmod s.launches l (fun x => { x with stages := (x.stages.zip (List.range x.stages.length)).map (fun e => if e.2 = n then f e.1 else e.1) }) }

def stageOf (s : State) (l n : Nat) : Option Stage := (tget s.launches l).bind (fun x => x.stages[n]?)

/-- Blocks of a stage fired for a name that still run. -/
def runningFor (s : State) (l : Nat) (stage : BitVec 3) (name : Nat) : List Nat :=
  (s.blocks.filter (fun e => e.2.launch == l && e.2.kind == .launched && e.2.stage == stage &&
    (e.2.phase == .resident || e.2.phase == .saved) && e.2.ending.isNone && (match e.2.sub with
      | some (n, _) => n == name
      | none => false))).map (fun e => e.1)

/-- A block fired for a name that still waits for its first placement. -/
def waitingFor (s : State) (l : Nat) (stage : BitVec 3) (name : Nat) : Option (Nat × Block) :=
  s.blocks.find? (fun e => e.2.launch == l && e.2.kind == .launched && e.2.stage == stage && e.2.phase == .waiting && (match e.2.sub with
    | some (n, _) => n == name
    | none => false))

/-- A waiting firing for a name (R232). -/
def addFiring (s : State) (l : Nat) (stage : BitVec 3) (name ver : Nat) : State :=
  modStage s l stage.toNat (fun st => { st with firings := st.firings ++ [(name, ver, s.clock)] })

/-- Whether a firing of a subscription is owed once a fired block completes (R232). -/
def setOwed (s : State) (name : Nat) (sub : Sub) (x : Bool) : State :=
  match tget s.launches sub.launch with
  | none => s
  | some l =>
    let p := partOf s l.part
    setPart s l.part { p with names := tmod p.names name (fun r =>
      { r with subs := r.subs.map (fun y => if y.launch = sub.launch ∧ y.stage = sub.stage then { y with owed := x } else y) }) }

/-- SUBSCRIPTION_FIRE: version `ver` of `name` is stored, and subscription `sub` fires under its mode; under follow, while
a fired block runs, the firing is owed until that block completes (R231, R232). -/
def fireSub (s : State) (name ver : Nat) (sub : Sub) : State :=
  match stageOf s sub.launch sub.stage.toNat with
  | none => s
  | some st =>
    if st.retired then s
    else if sub.mode = .final ∧ ver ≠ 255 then s
    else if st.firings.any (fun f => f.1 == name) then
      modStage (setOwed s name sub false) sub.launch sub.stage.toNat (fun st => { st with firings := st.firings.map (fun f => if f.1 = name then (name, ver, f.2.2) else f) })
    else
      match waitingFor s sub.launch sub.stage name with
      | some (u, b) => setBlk (setOwed s name sub false) u { b with sub := some (name, ver), entryW := some (namePair name ver) }
      | none =>
        match runningFor s sub.launch sub.stage name with
        | [] => addFiring (setOwed s name sub false) sub.launch sub.stage name ver
        | rs =>
          match sub.mode with
          | .follow => setOwed s name sub true
          | .restart => addFiring (rs.foldl stopBlock (setOwed s name sub false)) sub.launch sub.stage name ver
          | _ => addFiring (setOwed s name sub false) sub.launch sub.stage name ver

def nameRec (s : State) (part name : Nat) : NameRec := tgetD (partOf s part).names name { ver := 0, payload := [], words := [], stop := false, subs := [], pub := none }

/-! ### Pipeline sets (R234) -/

/-- The stage that produces a tensor has retired (R229). -/
def producerRetired (s : State) (part : Nat) (e : BitVec 256) : Bool :=
  dPbound e && s.launches.any (fun l => l.2.part == part && l.2.lid.toNat == dPlaunch e && (match l.2.stages[dPstage e]? with
    | some st => st.retired
    | none => false))

/-- The entries of a launch's pipeline set. -/
def setEntries (s : State) (l : Launch) (pset : Nat) : List (Nat × BitVec 256) :=
  (l.names.filterMap (fun t => (dirEntry s l.part t).map (fun e => (t, e)))).filter (fun e => dPset e.2 == pset)

/-- The names of an entry of a set. -/
def setNames (t : Nat) (e : BitVec 256) : List Nat := (List.range (dfld e 96 32)).map (fun i => nameOf t (dfld e 80 16) i)

def sealedName (s : State) (part name : Nat) : Bool := (nameRec s part name).ver == 255

/-- A block fired for the name is waiting or running, or a firing for it waits. -/
def firedFor (s : State) (name part : Nat) : Bool :=
  s.blocks.any (fun e => e.2.part == part && e.2.phase != .complete && (match e.2.sub with
    | some (n, _) => n == name
    | none => false)) ||
  s.launches.any (fun l => l.2.part == part && l.2.stages.any (fun st => st.firings.any (fun f => f.1 == name)))

/-- The three conditions of R234. -/
def settled (s : State) (l : Launch) (pset : Nat) : Bool :=
  (setEntries s l pset).all (fun e => (setNames e.1 e.2).all (fun n => sealedName s l.part n && !firedFor s n l.part))

/-- Every producing stage of the set has retired and a name bound to one is unsealed. -/
def unsettled (s : State) (l : Launch) (pset : Nat) : Bool :=
  let bound := (setEntries s l pset).filter (fun e => dPbound e.2)
  !bound.isEmpty && bound.all (fun e => producerRetired s l.part e.2) &&
    bound.any (fun e => (setNames e.1 e.2).any (fun n => !sealedName s l.part n))

/-- Some name of the set is unsealed. -/
def anyUnsealed (s : State) (l : Launch) (pset : Nat) : Bool :=
  (setEntries s l pset).any (fun e => (setNames e.1 e.2).any (fun n => !sealedName s l.part n))

/-- The pipeline sets of a launch's tensors. -/
def setsOf (s : State) (l : Launch) : List Nat := ((l.names.filterMap (fun t => (dirEntry s l.part t).map dPset)).foldl nput []).filter (· != 0)

/-- The status of a set is decided (R234). -/
def recordSet (s : State) (lch : Nat) (pset st : Nat) : State :=
  { s with launches := tmod s.launches lch (fun l => { l with decided := tput l.decided pset st }) }

/-- A set is settled or unsettled at the first moment at which R234 says so. -/
def decideSet (s : State) (lch pset : Nat) : State :=
  match tget s.launches lch with
  | none => s
  | some l =>
    if l.done.isSome ∨ pset = 0 ∨ thas l.decided pset ∨ (setEntries s l pset).isEmpty then s
    else if settled s l pset then recordSet s lch pset 0
    else if unsettled s l pset then recordSet s lch pset 1
    else s

/-- Every set of a partition that the last change has settled or unsettled: a name was sealed, a block completed or a stage retired. -/
def decideSets (s : State) (part : Nat) : State :=
  s.launches.foldl (fun s e => if e.2.part = part then (setsOf s e.2).foldl (fun s p => decideSet s e.1 p) s else s) s

/-! ### Following versions (R232) -/

/-- The subscription that fired a block retires once the block fired for version 255 completes (R232). -/
def retireSub (s : State) (b : Block) (name : Nat) : State :=
  let p := partOf s b.part
  setPart s b.part { p with names := tmod p.names name (fun r => { r with subs := r.subs.filter (fun x => !(x.launch == b.launch && x.stage == b.stage)) }) }

/-- When a fired block completes, a firing that is owed is dispatched for the newest stored version, whatever the mode is now; the block fired for
version 255 is the last (R231, R232). -/
def followUp (s : State) (b : Block) : State :=
  match b.sub with
  | none => s
  | some (name, w) =>
    if w = 255 then retireSub s b name
    else
    let r := nameRec s b.part name
    r.subs.foldl (fun s sub =>
      if sub.launch = b.launch ∧ sub.stage = b.stage ∧ sub.owed ∧ w < r.ver ∧ (runningFor s b.launch b.stage name).isEmpty then
        fireSub s name r.ver { sub with mode := .follow }
      else s) s

/-! ### The block record (R374) -/

def le (n v : Nat) : List W8 := leBytes n v

def baseSweeps (g : Group) : Nat := match g.frames.getLast? with
  | some f => f.sweeps.toNat
  | none => 0

/-- The 64-byte header and 160 bytes per group. -/
def blockRecord (s : State) (b : Block) (status : W16) : List W8 :=
  le 4 0x4B434C42 ++ le 2 status.toNat ++ le 1 b.groups.length ++ le 1 (b.stage.toNat + 8 * b.depth) ++ le 4 b.lid.toNat ++
    le 4 b.index.toNat ++ le 4 b.seqno.toNat ++ le 4 b.commits.toNat ++ le 2 b.serial ++ le 2 (coreReg (blkCore b)) ++
    le 4 b.total ++ le 8 (b.first.getD 0) ++ le 8 s.clock ++ le 16 0 ++
    b.groups.foldl (fun a g => a ++ (List.range 17).foldl (fun x n => x ++ le 8 (ctrOf g n).toNat) [] ++
      le 8 (ctrOf g 18).toNat ++ le 8 (ctrOf g 19).toNat ++ le 4 (baseSweeps g) ++ le 4 0) []

/-- What a ring's pages answer for the pieces of a record. -/
inductive Ring
  | ready
  | wait
  | unmapped
deriving DecidableEq, Repr

/-- Every 32-byte piece of a record at the ring's pointer lies on a resident page: a piece never crosses one. -/
def ringProbe (s : State) (part base len ptr : Nat) : Nat → State × Ring
  | 0 => (s, .ready)
  | n + 1 =>
    let r := ringProbe s part base len ptr n
    match r.2 with
    | .ready =>
      let a := base + (ptr + 32 * n) % len
      let m := meet r.1 none part a false true
      (match m.2 with
       | .page _ _ => (m.1, .ready)
       | .absent l => (requestPage m.1 part (vpnOf a) l, .wait)
       | _ => (m.1, .unmapped))
    | _ => r

/-- Write the pieces. -/
def ringWrite (s : State) (part base len ptr : Nat) (bs : List W8) : Nat → State
  | 0 => s
  | n + 1 =>
    let r := ringWrite s part base len ptr bs n
    match devStore r part (base + (ptr + 32 * n) % len) ((bs.drop (32 * n)).take 32) hostWriter with
    | .done s => s
    | _ => r

/-- One more record of a partition dropped by a cluster (R365). -/
def countDropped (s : State) (part cl : Nat) : State :=
  let c := tgetD s.clusters cl Cluster.init
  { s with clusters := tput s.clusters cl { c with lost := tput c.lost part (tgetD c.lost part 0 + 1) } }

/-- Append a block record to the ring when TCTL.blk and BRING are set, whole or not at all: a record whose page is not mapped is dropped and
counted as lost by the cluster of the core that it names, which reports it by a record of kind 8 (R365, R374); false while a page is on its way. -/
def writeRecord (s : State) (part : Nat) (bs : List W8) : State × Bool :=
  let r := pctl s part 0x176
  let len := (fld r 0 12).toNat * 4096
  if (pctl s part 0x170).getLsbD 7 && len != 0 then
    let base := (fld r 12 36).toNat * 4096
    let ptr := (pctl s part 0x177).toNat
    let w := ringProbe s part base len ptr (bs.length / 32)
    match w.2 with
    | .wait => (w.1, false)
    | .unmapped => (countDropped w.1 part (clusterOf (leNat ((bs.drop 26).take 2) % 256)), true)
    | .ready =>
      let s := ringWrite w.1 part base len ptr bs (bs.length / 32)
      let p := partOf s part
      (setPart s part (setCtl p 0x177 (ctl p 0x177 + BitVec.ofNat 64 bs.length)), true)
  else (s, true)

/-- Hold slots bound to a block clear when it completes (R372). -/
def clearSlots (s : State) (part uid : Nat) : State :=
  let p := partOf s part
  let mine := (p.holds.filter (fun e => e.2.1 == uid)).map (fun e => e.1)
  setPart s part (mine.foldl (fun p k => { setCtl p (0x178 + k) 0 with holds := tdel p.holds k }) p)

/-- The parent's SPAWN handle completes (R88, R332). -/
def childDone (s : State) (uid : Nat) (status : W16) : State :=
  match s.ops.find? (fun e => e.2.body == .spawn uid) with
  | some e => finishOp s e.1 (if status = 0 then 0 else 0x0013)
  | none => s

/-- A status of 0x0400 to 0x04FF is an error of the launch (R332). -/
def errorStatus (st : W16) : Bool := decide (0x0400 ≤ st.toNat) && decide (st.toNat ≤ 0x04FF)

/-- Every earlier block of the launch has been reported; a spawned child has no number of its own (R12). -/
def reportTurn (s : State) (uid : Nat) (b : Block) : Bool :=
  b.kind != .launched || s.blocks.all (fun e => e.1 == uid || e.2.launch != b.launch || e.2.kind != .launched || e.2.reported ||
    (e.2.phase == .waiting && e.2.first.isNone) || decide (b.seqno.toNat < e.2.seqno.toNat))

/-- A complete block is reported when its turn has come, and its record written (R12, R374). -/
def reportBlock (s : State) (uid : Nat) : State :=
  match tget s.blocks uid with
  | none => s
  | some b =>
    if b.phase = .complete ∧ b.reported = false ∧ reportTurn s uid b then
      let w := writeRecord s b.part b.report
      if w.2 then { w.1 with blocks := tmod w.1.blocks uid (fun b => { b with reported := true, report := [] }) } else w.1
    else s

/-- BLOCK_COMPLETE: the block leaves its core with its record made, its slots cleared and its parent told; it is reported in its turn (R12, R332,
R372, R374). -/
def completeBlock (s : State) (uid : Nat) (status : W16) : State :=
  match tget s.blocks uid with
  | none => s
  | some b =>
    let s := clearSlots (dropTrunk (dropTrunk s uid false) uid true) b.part uid
    let s := setBlk s uid { b with phase := .complete, place := none, status := status, groups := [], scratch := [], tags := [], slots := [],
                                   bars := [], prov := [], pwords := [], log := [], record := none, fault := none, queued := false, ending := none,
                                   report := blockRecord s b status, reported := false, tokens := [] }
    let s := childDone (unqueue s uid) uid status
    let s := if b.kind = .launched && errorStatus status then { s with launches := tmod s.launches b.launch (fun l => { l with error := true }) } else s
    reportBlock (decideSets (followUp s b) b.part) uid

/-! ### Re-fire (R192, R258, R352, R362) -/

/-- Operations that survive a re-fire: their repeats bind to them; a PUT of which some elements have landed is one (R258). -/
def survives : OpBody → Bool
  | .spawn _ | .launch _ | .ared .. | .a2av .. => true
  | .put _ _ _ _ _ _ landed => !landed.isEmpty
  | _ => false

/-- An operation that survived a re-fire goes on once its repeat has been bound to it: some handle register holds it. -/
def opBound (s : State) (id : Nat) (o : Op) : Bool :=
  match tget s.blocks o.blk with
  | some b => (b.groups[o.gid]?).any (fun g => g.h.any (fun e => e.2 == .pending id))
  | none => false

def labelsOf (s : State) (b : Block) : Nat := labelCount s b

/-- New groups of a block, before they start (R26). -/
def newGroups (s : State) (b : Block) : List Group :=
  List.replicate b.fp.groups (newGroup (labelsOf s b) b.entry.toNat b.initS b.initC (newestCode s b) s.clock)

/-- Counters after a re-fire: 0 to 17 continue, 18 and 19 come from the record or start at 0; what the group has done in this clock still counts
(R362). -/
def refireCtrs (old new : Group) : Group :=
  { new with ctrs := old.ctrs.take 18 ++ new.ctrs.drop 18, issued := old.issued, tried := old.tried }

/-- A re-fired group is awake at its recorded position on the newest words, and its residency goes on. -/
def wakeGroup (newest clock : Nat) (g : Group) : Group :=
  { g with code := newest, stall := 0, arrival := .none, xreq := none, since := clock, stopped := false, emul := none, acq := [], owed := false,
           run := if g.run = .ended then .ended else if g.active = 0 then .idle else .issuing }

/-- A block's queued fault is dropped, and a handler run for it no longer holds it (R352, R354, the case of an uncorrectable error). -/
def dropFault (s : State) (uid : Nat) : State :=
  { s with cores := s.cores.map (fun e => (e.1, { e.2 with
      queue := ndel e.2.queue uid
      hrun := e.2.hrun.map (fun r => if r.blk = uid then { r with live := false } else r) })) }

/-- The hold slots of a re-fired block record the lanes that its record holds, the lower slot first; a held lane that no slot names is released
(R371, R376). -/
def reholdGroup (s : State) (uid gid : Nat) : State :=
  match viewAt s uid gid with
  | none => s
  | some v =>
    let held := lanesIn v.g .held
    let slot := fun (l : Nat) => holdSlot v (laneAt v.g l).label.toNat
    let p := partOf s v.b.part
    let mine := fun (k : Nat) => maskOf (fun l => held.getLsbD l && slot l == some k)
    let holds := p.holds.map (fun e => if e.2.1 = uid ∧ (fld (slotReg s v.b.part e.1) 48 4).toNat = gid then (e.1, uid, mine e.1) else e)
    modGroup (setPart s v.b.part { p with holds := holds }) uid gid (fun g => releaseLanes g (maskOf (fun l => held.getLsbD l && (slot l).isNone)))

def reholdBlock (s : State) (uid : Nat) : Nat → State
  | 0 => s
  | n + 1 => reholdGroup (reholdBlock s uid n) uid n

/-- One block is put back to its resume record, or to its start. The range entries of its operations go, and one that survives takes its own again
with its repeat (R173, R258). -/
def refireOne (s : State) (uid : Nat) : State :=
  match tget s.blocks uid with
  | none => s
  | some b =>
    let gone := (opsOf s uid).filter (fun e => !survives e.2.body)
    let s := gone.foldl (fun s e => delOp s e.1) s
    let s := { s with ranges := s.ranges.filter (fun e => e.2.blk != uid)
                      ops := s.ops.map (fun e => if e.2.blk = uid then (e.1, { e.2 with got := [], wrote := [] }) else e) }
    let s := dropFault s uid
    let b := { b with prov := [], pwords := [], fault := none, queued := false, halted := false, total := b.total + 1,
                      refires := b.refires + 1, partners := [], tokens := [] }
    match b.record with
    | some r =>
      let gs := (r.groups.zip b.groups).map (fun e => wakeGroup (newestCode s b) s.clock (refireCtrs e.2 e.1))
      reholdBlock (setBlk s uid { b with groups := gs, scratch := r.scratch, tags := r.tags, slots := r.slots, bars := r.bars, baton := r.baton,
                                         act := r.act, commits := r.commits }) uid b.fp.groups
    | none =>
      let gs := ((newGroups s b).zip b.groups).map (fun e => refireCtrs e.2 e.1)
      let s := reholdBlock (setBlk s uid { b with groups := gs, scratch := [], tags := [], slots := [], bars := [], baton := 0,
                                                  act := ActTable.init, commits := 0 }) uid b.fp.groups
      startGroups s uid b.fp.groups

/-- A block's position for the re-fire-limit fault: its resume record's, or its entry label (R331). -/
def refirePos (b : Block) : Lab × W16 :=
  match b.record.bind (fun r => r.groups.head?) with
  | some g => (g.label, g.offset)
  | none => (b.entry, 0)

/-- The groups of a block stand at their positions in its resume record, or at its entry label (R331). -/
def toRefirePos (b : Block) : List Group :=
  match b.record with
  | some r => (b.groups.zip r.groups).map (fun e => { e.1 with label := e.2.label, offset := e.2.offset })
  | none => b.groups.map (fun g => { g with label := b.entry, offset := 0 })

/-- The block can be re-fired: it runs or is saved, and is neither stopped nor retired (R233, R332, R352). -/
def mayRefire (b : Block) : Bool := b.kind != .handler && (b.phase == .resident || b.phase == .saved) && b.ending.isNone

/-- Re-fire one block at most 8 times from one record; instead of the ninth it takes the re-fire-limit fault, which is fatal and stands in
place of a fault it already had (R331, R352). -/
def limitedOne (s : State) (uid : Nat) : State :=
  match tget s.blocks uid with
  | none => s
  | some b =>
    if !mayRefire b then s
    else if b.refires < 8 then refireOne s uid
    else
      let p := refirePos b
      let b := markFault { b with fault := none, queued := false, groups := toRefirePos b, faultAt := s.clock }
        { cls := 1, code := 0x0A, lane := 255, gid := 0, handle := 0, detail := 0, frame := 0, label := p.1, offset := p.2, addr := 0, data := 0 }
      setBlk (dropFault s uid) uid b

/-- The blocks that exchanged with a set of blocks since their last commits, and the blocks that those exchanged with (R258). -/
def partnersOf (s : State) : Nat → List Nat → List Nat
  | 0, us => us
  | n + 1, us => partnersOf s n (us.foldl (fun l u => (((tget s.blocks u).map (fun b => b.partners)).getD []).foldl nput l) us)

/-- A re-fired block takes along the blocks it exchanged with since its last commit, each from its own record and under its own limit
(R258, R352). -/
def limitedRefire (s : State) (uid : Nat) : State :=
  (partnersOf s s.blocks.length [uid]).foldl limitedOne s

end Sys2Proof.Machine
end

