-- ==== Sys2Proof/Machine/Queues.lean ====
section
/-! DEFINITION. Queue streams of major 0x31 (R175 to R181), PAGEREQ of major 0x32 (R184), and the events of the queue engines (R177, R178,
R182, R183). -/
namespace Sys2Proof.Machine
open Sys2Proof

/-- Arm a queue after the checks of R176 and R181: every check on the first element, then every check on the last (log 18). Nonzero bits 63..32 of s(N) raise the illegal-instruction fault at step 8: the spec names no
fault for them (DESIGN CHOICE, log 37). -/
def armQueue (h : Hdr) (t : Ty) (k : QReg) (c : CReg) (o st n : SReg) (load : Bool) (s : State) : Out :=
  issue h [.c c, ssrc o, ssrc st, ssrc n] (fun v _ =>
    let cap := readC v.g c
    let off := (readS v.g o).toNat
    let str := (readS v.g st).toInt
    let nw := readS v.g n
    let cnt := nw.toNat
    let esz := eszOf t
    let need := if load then pR else pW
    let last : Int := off + str * ((cnt - 1 : Nat) : Int)
    let q : Queue := { load := load, ty := t, base := capBase cap + off, stride := str, n := cnt, pos := 0, fetched := 0, buf := [],
                       resid := 0, label := v.g.label, offset := v.g.offset, frame := frameDepth v.g, sweeps := (topFrame v.g).sweeps,
                       mask := v.g.active }
    let arm := fed v 1 (Res.done { v with g := { v.g with q := tput v.g.q k.toNat q } } 0)
    if (tget v.g.q k.toNat).isSome then contract 3
    else if nw >>> 32 ≠ 0 then illegal8
    else if cnt = 0 then
      match (failing (footOf v) cap off 1 need [0] 0 false).filter (fun i => i == 1 || i == 2 || i == 4) with
      | [] => arm
      | i :: _ => accessTrap i 255 false (genericAddr cap off)
    else
      match (check1 v cap off esz need [0]).orElse (fun _ => check1 v cap last esz need [0]) with
      | some r => r
      | none => if off % esz ≠ 0 ∨ str % esz ≠ 0 then accessTrap 6 255 false (genericAddr cap off) else arm) s

def execQld (h : Hdr) (t : Ty) (k : QReg) (c : CReg) (o s n : SReg) (st : State) : Out := armQueue h t k c o s n true st
def execQst (h : Hdr) (t : Ty) (k : QReg) (c : CReg) (o s n : SReg) (st : State) : Out := armQueue h t k c o s n false st

/-- QCLOSE disarms; pushed entries stay outstanding (R179). -/
def execQclose (h : Hdr) (k : QReg) (s : State) : Out :=
  issue h [] (fun v _ => .done { v with g := { v.g with q := tdel v.g.q k.toNat } } 0) s

/-- QRES: the residency mask, which is then cleared (R180, R181). -/
def execQres (h : Hdr) (d : PReg) (k : QReg) (s : State) : Out :=
  issue h [] (fun v _ =>
    match tget v.g.q k.toNat with
    | some q =>
      if q.load then
        .done { v with g := { writeP v.g d (execOf h v.g) q.resid with q := tput v.g.q k.toNat { q with resid := 0 } } } 0
      else contract 3
    | none => contract 3) s

/-! ### Reading ahead (R177) -/

/-- Sign- or zero-extension of a queue element into a lane. -/
def queueElem (t : Ty) (bs : List W8) : W32 :=
  let x := BitVec.ofNat 64 (leNat bs)
  if tyInt t then (fit t (val t x)).setWidth 32 else x.setWidth 32

/-- The pseudo-operation under which a queue engine of a group reads. -/
def queueOp (u gid : Nat) (k : Nat) (q : Queue) : Op :=
  { blk := u, gid := gid, sblk := u, ord := 0, ordq := 0, h := BitVec.ofNat 4 k, label := q.label, offset := q.offset, frame := q.frame, sweeps := q.sweeps, mask := q.mask,
    key := none, cancel := false, faddr := 0, got := [], wrote := [], body := .ready 0 }

/-- The entry of a stream read next: nothing read, every element within the count still to be read, zeros beyond it (R177). -/
def newEntry (q : Queue) : QEntry := { data := zeroRow, resid := 0, left := maskOf (fun l => decide (64 * q.fetched + l < q.n)) }

/-- The address of element `l` of buffered entry `i`. -/
def entryAddr (q : Queue) (i l : Nat) : Nat := ((q.base : Int) + q.stride * ((64 * (q.fetched - q.buf.length + i) + l : Nat) : Int)).toNat

/-- An element has been read: its value, its residency bit, and it is no longer to be read (R177, R182). -/
def putElem (t : Ty) (e : QEntry) (l : Nat) (bs : List W8) (absent : Bool) : QEntry :=
  { data := listSet e.data l (queueElem t bs), resid := if absent then e.resid ||| BitVec.twoPow 64 l else e.resid,
    left := e.left &&& ~~~(BitVec.twoPow 64 l) }

def setQueue (s : State) (b g k : Nat) (q : Queue) : State := modGroup s b g (fun g => { g with q := tput g.q k q })

/-- Read element `l` of buffered entry `i`; a page that is not mapped faults the block (R183). -/
def readElem (s : State) (b g k : Nat) (q : Queue) (i l : Nat) : State :=
  match q.buf[i]? with
  | none => s
  | some e =>
    if e.left.getLsbD l then
      let o := queueOp b g k q
      let r := engineRead s o (entryAddr q i l) (eszOf q.ty)
      let s := setQueue r.1 b g k { q with buf := listSet q.buf i (putElem q.ty e l r.2.1 r.2.2.1) }
      match r.2.2.2 with
      | some bad => lateTrap s b (lateFault s { o with faddr := BitVec.ofNat 64 (entryAddr q i l) } 1 bad.1 (BitVec.ofNat 8 bad.2))
      | none => s
    else s

/-- LOAD_QUEUE_READAHEAD: the engine begins the next entry in its buffer of 16, or reads one element of an entry; an entry is poppable once all
of it has been read (R177, R256). -/
def execLoadQueueReadahead (b g : Nat) (what : ReadAhead) (s : State) : Out :=
  .next (
    let k := what.queue
    match viewAt s b g with
    | none => s
    | some v =>
      match tget v.g.q k with
      | none => s
      | some q =>
        if v.b.phase = .resident ∧ q.load then
          match what.pick with
          | some (i, l) => if bucketHolds s (blkCore v.b) v.b.part 1 128 then readElem s b g k q i l else s
          | none => if q.buf.length < 16 ∧ q.fetched < queueEntries q then setQueue s b g k { q with fetched := q.fetched + 1, buf := q.buf ++ [newEntry q] } else s
        else s)

/-! ### Writing entries (R178) -/

/-- STORE_QUEUE_WRITE: one element of an entry as a provisional store; the entry is done when none is left. Entries that write one byte
twice do so in stream order (R178). -/
def execStoreQueueWrite (id : Nat) (lane : Option Nat) (s : State) : Out :=
  .next (
    match tget s.ops id with
    | some o =>
      match o.body with
      | .entry k t addrs data left =>
        match lane with
        | none => if left = 0 then finishOp s id 0 else s
        | some l =>
          if left.getLsbD l && opMaySend s o then
            let rest := OpBody.entry k t addrs data (left &&& ~~~(BitVec.twoPow 64 l))
            match engineStore s o (addrs.getD l 0) (leBytes (eszOf t) ((rget data l).toNat % 2 ^ tyWidth t)) with
            | .wait s => s
            | .done s => setBody s id rest
            | .bad s c d =>
              let s := setBody s id rest
              lateTrap s o.blk (lateFault s { o with h := k.setWidth 4, faddr := BitVec.ofNat 64 (addrs.getD l 0) } 1 c (BitVec.ofNat 8 d))
          else s
      | _ => s
    | none => s)

/-! ### PAGEREQ (R184) -/

/-- Pages of a request that are still to become resident; `none` when one of them is not mapped. -/
def pagesLeft (s : State) (part : Nat) : List Nat → Option (List Nat)
  | [] => some []
  | v :: vs =>
    match walk s part v, pagesLeft s part vs with
    | .ok l, some rest =>
      (match findPage s part v l.frame with
       | some (_, pg) => if pg.evicting then some (v :: rest) else some rest
       | none => some (v :: rest))
    | _, _ => none

/-- Make or join a wait-table entry for each page (R274). -/
def requestAll (s : State) (part : Nat) (vs : List Nat) : State :=
  vs.foldl (fun s v => match walk s part v with
    | .ok l => requestPage s part v l
    | .error _ => s) s

/-- Issue a page request. -/
def startPages (v : View) (d : HReg) (vs : List Nat) : View :=
  match pagesLeft v.st v.b.part vs with
  | none => readyOp v d 0x0102
  | some [] => readyOp v d 0
  | some l =>
    let w := startOp v d (.pages l)
    { w with st := requestAll w.st v.b.part l }

/-- PAGEREQ (R184); a copy that did not end with 0x0101 completes h(H) at once. A length of 0 in mode 0 raises the illegal-instruction fault: the spec says L ≥ 1 and names no fault (DESIGN CHOICE, log 37). -/
def execPagereq (h : Hdr) (d : HReg) (f : PageForm) (s : State) : Out :=
  match f with
  | .range c o l =>
    issue h [.hd d, .c c, ssrc o, ssrc l] (fun v _ =>
      let cap := readC v.g c
      let off := (readS v.g o).toNat
      let len := (readS v.g l).toNat
      let need := if capPerm cap &&& pR ≠ 0 then pR else if capPerm cap &&& pW ≠ 0 then pW else pR
      if len = 0 then illegal8
      else
        match checkRange v cap off len 1 need [0] with
        | some r => r
        | none =>
          let lo := vpnOf (capBase cap + off)
          let hi := vpnOf (capBase cap + off + len - 1)
          .done (startPages v d ((List.range (hi - lo + 1)).map (fun i => lo + i))) 0) s
  | .copy sd n =>
    issue h [.hd d, .h n, .hd n, sdst sd] (fun v _ =>
      match tget v.g.h n.toNat with
      | some (.complete 0x0101 bm pg) => .done (startPages { v with g := writeS v.g sd bm } d pg) 0
      | _ => .done (completeNow { v with g := writeS v.g sd 0 } d 0) 0) s

end Sys2Proof.Machine
end

