-- ==== Sys2Proof/Machine/Names.lean ====
section
/-! DEFINITION. Named tiles: FETCHN, PUBN, SEAL, STOPREF and SUBN of major 0x3C (R219 to R235), interests and tiles in the network (R305 to
R311), store-room shelves (R280, R281) and the events that carry them. -/
namespace Sys2Proof.Machine
open Sys2Proof

/-! ### Store rooms (R280, R281) -/

/-- The least recently used cache shelf of the partition at a stop, other than one name's. -/
def oldestShelf (s : State) (part stop : Nat) : Option Shelf :=
  ((stopAt s stop).shelves.filter (fun sh => sh.part == part)).foldl (fun b sh => match b with
    | none => some sh
    | some o => if sh.used < o.used then some sh else some o) none

def dropShelf (s : State) (stop part name : Nat) : State :=
  let st := stopAt s stop
  setStop s stop { st with shelves := st.shelves.filter (fun sh => !(sh.part == part && sh.name == name)) }

/-- Give up cache shelves, least recently used first, until `need` units are free. -/
def evictShelves (s : State) (part stop need : Nat) : Nat → State
  | 0 => s
  | n + 1 =>
    if need ≤ freeUnits s part stop then s
    else
      match oldestShelf s part stop with
      | some sh => evictShelves (dropShelf s stop part sh.name) part stop need n
      | none => s

/-- Units for a new home shelf, with the units of the name's old shelf last; `none` when the three sources do not suffice (R281). -/
def takeUnits (s : State) (part stop need old : Nat) : Option State :=
  if need ≤ freeUnits s part stop + cacheUnits s part stop + old then
    some (evictShelves s part stop need (stopAt s stop).shelves.length)
  else none

/-- The mark of a home shelf that is lost (R316). -/
def lostName (part name : Nat) : Nat := 2 ^ 80 + part * 2 ^ 72 + name

/-! ### Entries and packets at core stops (R305 to R307) -/

/-- The partition owns a stop. -/
def ownsStop (s : State) (part c : Nat) : Bool := ownsCore (pctl s part 0x110) c

def findEnt (s : State) (stop part name : Nat) : Option IEnt := (stopAt s stop).ents.find? (fun e => e.part == part && e.name == name)

/-- Replace an entry, or free it when it has no waiter (R307). -/
def putEnt (s : State) (stop : Nat) (e : IEnt) : State :=
  let st := stopAt s stop
  let rest := st.ents.filter (fun x => !(x.part == e.part && x.name == e.name))
  setStop s stop { st with ents := if e.ws.isEmpty then rest else rest ++ [e] }

/-- A free entry for a partition: 768 for owners, 256 reserved for others (R311). -/
def entryFree (s : State) (stop part : Nat) : Bool :=
  let own := fun (p : Nat) => ownsStop s p stop
  if own part then decide (((stopAt s stop).ents.filter (fun e => own e.part)).length < 768)
  else decide (((stopAt s stop).ents.filter (fun e => !own e.part)).length < 256)

/-- The header of an interest, a tile or a notice that enters a buffer: a fresh number and its link check word (R299). -/
def bufferHdr (s : State) (pl : Plane) (part dst born : Nat) (mark echo : Bool) : FHdr :=
  sealHdr pl { dst := dst, tenant := part, mark := mark, echo := echo, born := born, num := s.nextFlit, arr := s.nextFlit, chk := 0 }

/-- The interest one hop along its path, in the buffer of its output there, marked when its tenant has too many flits in it (R318). -/
def hopInterest (s : State) (part name vmin deadline stop home born : Nat) (mark : Bool) : IPkt :=
  let d := dirTo stop home
  let next := neighbour stop d
  { part := part, name := name, vmin := vmin, deadline := deadline, stop := next, dir := opposite d,
    hdr := bufferHdr s .interest part home born (mark || bufMarks s .interest next (dirTo next home) part) false }

/-- The buffer that an interest bound for a home enters at its next stop has room (R318). -/
def interestRoom (s : State) (stop home : Nat) : Bool :=
  let next := neighbour stop (dirTo stop home)
  next == home || bufRoom s .interest next (dirTo next home)

/-- An interest stands among those in flight. -/
def putInterest (s : State) (p : IPkt) : State := { s with nextFlit := s.nextFlit + 1, ipkts := s.ipkts ++ [p] }

/-- An interest moves one hop along its path. -/
def sendInterest (s : State) (part name vmin deadline stop home born : Nat) (mark : Bool) : State :=
  putInterest s (hopInterest s part name vmin deadline stop home born mark)

/-- The interest that a stop itself sends on for waiters that remain: it goes, or waits there while its next buffer is full or another waits
(R307, R318). -/
def freshInterest (s : State) (part name vmin deadline stop home : Nat) : State :=
  if interestRoom s stop home && !s.ipkts.any (fun p => p.stop == stop && p.dir == 5) then
    sendInterest s part name vmin deadline stop home s.clock false
  else putInterest s { part := part, name := name, vmin := vmin, deadline := deadline, stop := stop, dir := 5,
                       hdr := bufferHdr s .interest part home s.clock false false }

/-- A tile or notice that starts at a stop. -/
def newTile (s : State) (part name ver : Nat) (payload : List W8) (kind : TileKind) (stop : Nat) : TPkt :=
  { part := part, name := name, ver := ver, payload := payload, words := checkWords payload, kind := kind, stop := stop, dir := 0, out := 0,
    hdr := bufferHdr s .tile part stop s.clock false false }

/-- The interest of a core's own FETCHN, at its stop's local input. -/
def localInterest (s : State) (part name vmin deadline stop : Nat) : State :=
  putInterest s { part := part, name := name, vmin := vmin, deadline := deadline, stop := stop, dir := 0,
                  hdr := bufferHdr s .interest part stop s.clock false false }

/-! ### The buffers of the tile plane (R299, R318) -/

/-- The waiters that a packet answers. -/
def answers (p : TPkt) (w : Waiter) : Bool :=
  match p.kind with
  | .tile | .lost => decide (w.vmin ≤ p.ver)
  | _ => true

/-- The waiters of its stop's entry that a packet reaches (R307). -/
def tileHits (s : State) (p : TPkt) : List Waiter :=
  match findEnt s p.stop p.part p.name with
  | some e => e.ws.filter (fun w => decide (s.clock ≤ w.deadline) && answers p w)
  | none => []

/-- The outputs by which a packet leaves its stop, 0 for the stop's core. -/
def tileOuts (s : State) (p : TPkt) : List Nat := if p.out ≠ 0 then [p.out] else (tileHits s p).map (fun w => w.dir)

/-- The flits of a tile or notice, of 512 bytes each; a buffer of 16 holds the largest tile as it passes through (log 6). -/
def tileFlits (p : TPkt) : Nat := min 16 (max 1 ((p.payload.length + 511) / 512))

/-- The tenants of the flits of tiles and notices in the buffer of an output of a stop. -/
def tileBuf (s : State) (stop dir : Nat) : List Nat :=
  s.tpkts.flatMap (fun q =>
    if q.stop == stop && q.dir != 0 && q.out == 0 && (tileOuts s q).contains dir then List.replicate (tileFlits q) q.part else [])

/-- The packet at the next stop in a direction. -/
def tileAhead (p : TPkt) (dir : Nat) : TPkt := { p with stop := neighbour p.stop dir, dir := opposite dir, out := 0 }

/-- Every buffer that it enters there has room for its flits. -/
def tileFits (s : State) (p : TPkt) (dir : Nat) : Bool :=
  let q := tileAhead p dir
  (tileOuts s q).all (fun d => d == 0 || decide ((tileBuf s q.stop d).length + tileFlits p ≤ 16))

/-- A tile or notice moves one hop toward a waiter, and is marked when its tenant has too many flits in a buffer that it enters. -/
def hopTile (s : State) (p : TPkt) (dir : Nat) (echo : Bool) : State :=
  let q := tileAhead p dir
  let full := (tileOuts s q).any (fun d => d != 0 && decide (markLimit s p.part < (tileBuf s q.stop d).count p.part))
  { s with nextFlit := s.nextFlit + 1
           tpkts := s.tpkts ++ [{ q with hdr := bufferHdr s .tile p.part q.stop p.hdr.born (p.hdr.mark || full) echo }] }

/-- One that starts at its stop may leave at once: there is room, and no earlier one waits to leave the same way. -/
def tileLeaves (s : State) (p : TPkt) (dir : Nat) : Bool :=
  tileFits s p dir && !s.tpkts.any (fun q => q.stop == p.stop && q.out == dir)

/-- Send a tile or notice one hop toward a waiter; one that starts here waits in the store room when it may not leave. -/
def sendTile (s : State) (p : TPkt) (dir : Nat) (echo : Bool) : State :=
  if p.dir != 0 || tileLeaves s p dir then hopTile s p dir echo
  else { s with nextFlit := s.nextFlit + 1
                tpkts := s.tpkts ++ [{ p with out := dir, hdr := bufferHdr s .tile p.part p.stop p.hdr.born p.hdr.mark echo }] }

/-- The link over which a router input is fed, and whether it is one of the four that a link feeds. -/
def inputLink (stop dir : Nat) : Nat := linkId (neighbour stop dir) (opposite dir)
def overLink (dir : Nat) : Bool := dir != 0 && decide (dir ≤ 4)

/-- A router input takes what its link delivers while that is up (R317, R384). -/
def inputUp (s : State) (stop dir : Nat) : Bool := !overLink dir || linkUp s (inputLink stop dir)

/-- What has come in over a link passed it. -/
def tookInput (s : State) (p : Plane) (stop dir num : Nat) : State :=
  if overLink dir then linkPass s (inputLink stop dir) (planeNum p) num else s

/-- The header fails its link check word at the input (R317). -/
def badHdr (pl : Plane) (dir : Nat) (h : FHdr) : Bool := overLink dir && !hdrGood pl h

/-! ### FETCHNs of a core (R227, R305) -/

/-- FETCHNs of a core that await a name. -/
def fetchesAt (s : State) (part core name : Nat) : Tbl Op :=
  s.ops.filter (fun e => match e.2.body with
    | .fetchn n _ _ _ _ _ none =>
      n == name && (match tget s.blocks e.2.blk with
        | some b => b.part == part && blkCore b == core && b.phase == .resident
        | none => false)
    | _ => false)

def fetchVmin (o : Op) : Nat := match o.body with
  | .fetchn _ v _ _ _ _ _ => v
  | _ => 0
def fetchDeadline (o : Op) : Nat := match o.body with
  | .fetchn _ _ d _ _ _ _ => d
  | _ => 0

/-- The local waiter that stands for the FETCHNs still waiting whose lifetimes go on (R305, R307). -/
def localWaiter (s : State) (part core name : Nat) : List Waiter :=
  match (fetchesAt s part core name).filter (fun e => decide (s.clock ≤ fetchDeadline e.2)) with
  | [] => []
  | e :: t =>
    [{ dir := 0, vmin := t.foldl (fun a x => min a (fetchVmin x.2)) (fetchVmin e.2),
       deadline := t.foldl (fun a x => max a (fetchDeadline x.2)) (fetchDeadline e.2), mark := false }]

/-- A FETCHN that writes nothing: its result word is 0 (R224, R227). -/
def endFetch (s : State) (id : Nat) (o : Op) (st : W16) : State :=
  match o.body with
  | .fetchn _ _ _ _ _ l _ => finishOp (modGroup s o.blk o.gid (fun g => writeS g l 0)) id st
  | _ => s

/-- A tile or notice reaches the FETCHNs of a core whose lifetimes go on: a tile waits for its delivery; a notice ends them, never-produced and
lost with their faults (R227, R229, R307, R310, R316). An echoed mark goes to the controller of interests (R319). -/
def deliverLocal (s : State) (p : TPkt) (echo : Bool) : State :=
  let s := if echo then cutRate s p.stop p.part 3 else s
  ((fetchesAt s p.part p.stop p.name).filter (fun e => decide (s.clock ≤ fetchDeadline e.2))).foldl (fun s e =>
    match p.kind with
    | .tile =>
      if fetchVmin e.2 ≤ p.ver then
        (match e.2.body with
         | .fetchn n v d dst len l _ => setBody s e.1 (.fetchn n v d dst len l (some (p.ver, p.payload)))
         | _ => s)
      else s
    | .never =>
      let s := endFetch s e.1 e.2 0x0202
      lateTrap s e.2.blk (lateFault s e.2 1 7 0)
    | .removed => endFetch s e.1 e.2 0x0204
    | .lost =>
      if fetchVmin e.2 ≤ p.ver then
        let s := endFetch s e.1 e.2 0x0106
        lateTrap s e.2.blk (lateFault s e.2 1 9 0)
      else s) s

/-! ### Tiles (R307, R308) -/

/-- Keep a cache shelf when units are free or other cache shelves give them (R308, R280). -/
def keepShelf (s : State) (p : TPkt) : State :=
  let s := dropShelf s p.stop p.part p.name
  let need := unitsOf p.payload.length
  if freeUnits s p.part p.stop + cacheUnits s p.part p.stop < need then s
  else
    let s := evictShelves s p.part p.stop need (stopAt s p.stop).shelves.length
    let st := stopAt s p.stop
    setStop s p.stop { st with shelves := st.shelves ++ [{ part := p.part, name := p.name, ver := p.ver, payload := p.payload, used := s.clock,
                                                           words := p.words }] }

/-- A shelf's sectors match their check words (R315). -/
def shelfGood (sh : Shelf) : Bool := checkWords sh.payload == sh.words

/-- A cache shelf at a lower version than a tile's, or one that failed its check. -/
def olderShelf (s : State) (p : TPkt) : Bool :=
  (stopAt s p.stop).shelves.any (fun sh => sh.part == p.part && sh.name == p.name && (decide (sh.ver < p.ver) || !shelfGood sh))

/-- The stop keeps a shelf of the tile: it reaches two waiters or more there, at a stop of its partition, or it replaces one (R308). -/
def keepsShelf (s : State) (p : TPkt) : Bool :=
  let home := nameHome s p.part p.name
  p.kind == .tile && home.isSome &&
    (match findEnt s p.stop p.part p.name with
     | none => olderShelf s p
     | some _ => home != some p.stop && ownsStop s p.part p.stop && (decide (2 ≤ (tileHits s p).length) || olderShelf s p))

/-- A tile or notice at a stop (R307): delivered toward the waiters it answers, which are removed with those past their deadlines; the others
are asked for again. A cache shelf at a lower version, or one that failed its check, is replaced (R308, R316). -/
def tileAt (s : State) (p : TPkt) : State :=
  let home := nameHome s p.part p.name
  let keep := keepsShelf s p
  match findEnt s p.stop p.part p.name with
  | none => if keep then keepShelf s p else s
  | some e =>
    let live := e.ws.filter (fun w => decide (s.clock ≤ w.deadline))
    let hit := tileHits s p
    let s := hit.foldl (fun s w => let echo := p.hdr.echo || w.mark; if w.dir = 0 then deliverLocal s p echo else sendTile s p w.dir echo) s
    let s := if keep then keepShelf s p else s
    let again := if hit.any (fun w => w.dir == 0) then localWaiter s p.part p.stop p.name else []
    let rest := live.filter (fun w => !answers p w) ++ again
    match rest, home with
    | [], _ => putEnt s p.stop { e with ws := [], up := none }
    | w :: ws, some h =>
      let v := ws.foldl (fun a x => min a x.vmin) w.vmin
      let d := ws.foldl (fun a x => max a x.deadline) w.deadline
      if h = p.stop then putEnt s p.stop { e with ws := rest, up := none }
      else putEnt (freshInterest s p.part p.name v d p.stop h) p.stop { e with ws := rest, up := some (v, d) }
    | _, none => putEnt s p.stop { e with ws := [], up := none }

/-- The order in which a router output serves what waits at its inputs: oldest first, then by input, then by number; what the stop itself sends on
is local (R302). -/
def serveKey (dir : Nat) (h : FHdr) : List Nat := [h.born, dir % 5, h.num]

/-- An earlier tile or notice stands at the same router input, or waits to leave the same way (R301). -/
def tileBehind (s : State) (i : Nat) (p : TPkt) : Bool := (s.tpkts.take i).any (fun q => q.stop == p.stop && q.dir == p.dir && q.out == p.out)

/-- It is the first at its input, its link is up, and every buffer that it enters next has room. -/
def tileReady (s : State) (i : Nat) (p : TPkt) : Bool :=
  inputUp s p.stop p.dir && !tileBehind s i p && (tileOuts s p).all (fun d => d == 0 || tileFits s p d)

/-- The tile is the next that its outputs serve (R301, R302). -/
def tileFirst (s : State) (i : Nat) (p : TPkt) : Bool :=
  tileReady s i p && (s.tpkts.zip (List.range s.tpkts.length)).all (fun e =>
    e.1.stop != p.stop || (e.1.dir == p.dir && e.1.out == p.out) || !tileReady s e.2 e.1 ||
      !(tileOuts s e.1).any (fun d => (tileOuts s p).contains d) || lexBefore (serveKey p.dir p.hdr) (serveKey e.1.dir e.1.hdr))

/-- Its sectors are verified at a die crossing, before they are written to scratchpad and before a store room accepts them (R304, R315). -/
def tileVerified (s : State) (p : TPkt) : Bool :=
  overLink p.dir && (crossesDie (neighbour p.stop p.dir) (opposite p.dir) || (tileOuts s p).contains 0 || keepsShelf s p)
def badTile (s : State) (p : TPkt) : Bool := tileVerified s p && checkWords p.payload != p.words

/-- The tile is taken now: it is the next, and passes what is verified of it. -/
def tileTurn (s : State) (i : Nat) (p : TPkt) : Bool := tileFirst s i p && !badHdr .tile p.dir p.hdr && !badTile s p

def putTile (s : State) (i : Nat) (p : TPkt) : State := { s with tpkts := s.tpkts.set i p }

/-- TILE_ARRIVAL: the `i`-th tile in flight arrives, in its turn, or leaves the stop at which it has waited. The sender sends one again whose header
or sectors fail (R316, R317). -/
def execTileArrival (i : Nat) (s : State) : Out :=
  .next (
    match s.tpkts[i]? with
    | some p =>
      if tileTurn s i p then
        let t := { s with tpkts := s.tpkts.eraseIdx i }
        if p.out ≠ 0 then hopTile t { p with hdr := { p.hdr with born := s.clock } } p.out p.hdr.echo
        else tileAt (tookInput t .tile p.stop p.dir p.hdr.num) p
      else if !tileFirst s i p then s
      else if badHdr .tile p.dir p.hdr then putTile (retryLink s (inputLink p.stop p.dir)) i { p with hdr := sealHdr .tile p.hdr }
      else putTile (refetchLink s (inputLink p.stop p.dir)) i { p with words := checkWords p.payload }
    | none => s)

/-! ### Interests (R306) -/

/-- No tile or notice arrives at the stop: those go first (R309). One that waits for room holds nothing up on another plane (R299). -/
def noTiles (s : State) (stop : Nat) : Bool :=
  (s.tpkts.zip (List.range s.tpkts.length)).all (fun e => e.1.stop != stop || e.1.out != 0 || !tileReady s e.2 e.1)

/-- An earlier interest, STOPREF or SUBN at the same router input holds this one up (R301, R306). -/
def heldUp (s : State) (i : Nat) (p : IPkt) : Bool :=
  (s.ipkts.take i).any (fun q => q.stop == p.stop && q.dir == p.dir) ||
    (overLink p.dir && s.flits.any (fun f => f.entered && f.plane == .interest && f.at' == p.stop && f.inp == p.dir && f.at' != f.hdr.dst &&
      decide (f.hdr.arr < p.hdr.arr)))

/-- An earlier interest at its router input holds a STOPREF or SUBN up (R301, R306). -/
def flitHeld (s : State) (f : Flit) : Bool :=
  f.plane == .interest && s.ipkts.any (fun p => p.stop == f.at' && p.dir == f.inp && f.inp != 0 && decide (p.hdr.arr < f.hdr.arr))

/-- The buffer that a flit enters at the next stop has room, or it has arrived there (R318). -/
def roomAhead (s : State) (f : Flit) (next : Nat) : Bool := next == f.hdr.dst || bufRoom s f.plane next (routeDir f.plane next f.hdr.dst)

/-- A flit may be served: its link is up, there is room at the next stop, and nothing at its input holds it up. -/
def flitReady (s : State) (f : Flit) : Bool :=
  let dir := routeDir f.plane f.at' f.hdr.dst
  linkUp s (linkId f.at' dir) && roomAhead s f (neighbour f.at' dir) && !flitHeld s f

/-- Send an answer toward the direction an interest came from. -/
def answerToward (s : State) (p : TPkt) (dir : Nat) (echo : Bool) : State := if dir = 0 then deliverLocal s p echo else sendTile s p dir echo

/-- What a home answers with: its stored payload, or that it is lost (R316). -/
def homeTile (s : State) (part name home : Nat) : TPkt :=
  let r := nameRec s part name
  newTile s part name r.ver r.payload (if s.lost.contains (lostName part name) || checkWords r.payload != r.words then .lost else .tile) home

/-- The stored version that a stop can answer with: a cache shelf that passes its check, or the home shelf. A cache shelf that fails it leaves the
interest to go on to the home afresh (R316). -/
def shelfAnswer (s : State) (part stop name vmin : Nat) : Option TPkt :=
  match (stopAt s stop).shelves.find? (fun sh => sh.part == part && sh.name == name && decide (vmin ≤ sh.ver) && shelfGood sh) with
  | some sh => some (newTile s part name sh.ver sh.payload .tile stop)
  | none => if nameHome s part name == some stop && decide (vmin ≤ (nameRec s part name).ver) then some (homeTile s part name stop) else none

/-- A cache shelf that answered is the most recently used. -/
def touchShelf (s : State) (stop part name : Nat) : State :=
  let st := stopAt s stop
  setStop s stop { st with shelves := st.shelves.map (fun sh => if sh.part = part ∧ sh.name = name then { sh with used := s.clock } else sh) }

def addWaiter (ws : List Waiter) (dir v d : Nat) (mark : Bool) : List Waiter :=
  match ws.find? (fun w => w.dir == dir) with
  | some w => ws.map (fun x => if x.dir = dir then { dir := dir, vmin := min w.vmin v, deadline := max w.deadline d, mark := w.mark || mark } else x)
  | none => ws ++ [{ dir := dir, vmin := v, deadline := d, mark := mark }]

/-- An interest is forwarded where no entry covers it (R306). -/
def forwards (e : Option IEnt) (p : IPkt) : Bool :=
  match e.bind (fun e => e.up) with
  | none => true
  | some (v, d) => decide (p.vmin < v) || decide (d < p.deadline)

/-- Interest(n, v, d, a) of R306 where no shelf answers: `none` when no entry is free. -/
def interestAt (s : State) (p : IPkt) (home : Nat) (dir : BitVec 256) : Option State :=
  let e? := findEnt s p.stop p.part p.name
  if e?.isNone && !entryFree s p.stop p.part then none
  else
    let e := e?.getD { part := p.part, name := p.name, ws := [], up := none }
    let ws := addWaiter (e.ws.filter (fun w => decide (s.clock ≤ w.deadline))) p.dir p.vmin p.deadline p.hdr.mark
    if p.stop = home then
      let s := putEnt s p.stop { e with ws := ws }
      if producerRetired s p.part dir then
        some (tileAt s (newTile s p.part p.name 0 [] .never p.stop))
      else some s
    else
      let v := ws.foldl (fun a x => min a x.vmin) p.vmin
      let d := ws.foldl (fun a x => max a x.deadline) p.deadline
      if forwards e? p then some (putEnt (sendInterest s p.part p.name v d p.stop home p.hdr.born p.hdr.mark) p.stop { e with ws := ws, up := some (v, d) })
      else some (putEnt s p.stop { e with ws := ws })

/-- Nothing that an interest needs at its stop is missing: something answers it, or an entry is there or free and, where it is forwarded, the next
buffer has room (R306, R318). -/
def interestGoes (s : State) (p : IPkt) : Bool :=
  match nameHome s p.part p.name with
  | none => true
  | some h =>
    if p.dir = 5 then interestRoom s p.stop h
    else
      let e := findEnt s p.stop p.part p.name
      (shelfAnswer s p.part p.stop p.name p.vmin).isSome ||
        ((e.isSome || entryFree s p.stop p.part) && (p.stop == h || !forwards e p || interestRoom s p.stop h))

/-- An interest at the head of an input can be taken; a core's own leaves its bucket (R306, R319). -/
def interestReady (s : State) (i : Nat) (p : IPkt) : Bool :=
  inputUp s p.stop p.dir && !heldUp s i p && (p.dir != 0 || bucketHolds s p.stop p.part 3 128) && interestGoes s p

/-- The interest is the next that its output serves, among the interests, STOPREFs and SUBNs that are bound for it (R302). -/
def interestFirst (s : State) (i : Nat) (p : IPkt) : Bool :=
  let out := interestOut s p
  interestReady s i p && (s.ipkts.zip (List.range s.ipkts.length)).all (fun e =>
    e.1.stop != p.stop || e.1.dir == p.dir || interestOut s e.1 != out || !interestReady s e.2 e.1 ||
      lexBefore (serveKey p.dir p.hdr) (serveKey e.1.dir e.1.hdr)) &&
    (out == 0 || (inBuffer s .interest p.stop out).all (fun f => !flitReady s f || lexBefore (serveKey p.dir p.hdr) (serveKey f.inp f.hdr)))

/-- The interest is taken now: it is the next, and its header passes (R317). -/
def interestTurn (s : State) (i : Nat) (p : IPkt) : Bool := interestFirst s i p && !badHdr .interest p.dir p.hdr

/-- An interest that is taken: a shelf answers, or it joins an entry and goes on (R306); in a tensor without a directory entry it is answered by a
removal notice (R224, R310). One that the stop itself sends on goes one hop. -/
def takeInterest (s gone : State) (p : IPkt) : State :=
  match dirEntry s p.part (nameTid p.name), nameHome s p.part p.name with
  | some e, some h =>
    if p.dir = 5 then sendInterest gone p.part p.name p.vmin p.deadline p.stop h s.clock false
    else
      (match shelfAnswer s p.part p.stop p.name p.vmin with
       | some t => answerToward (touchShelf gone p.stop p.part p.name) t p.dir p.hdr.mark
       | none => (interestAt gone p h e).getD s)
  | _, _ => if p.dir = 5 then gone else answerToward gone (newTile s p.part p.name 0 [] .removed p.stop) p.dir p.hdr.mark

/-- INTEREST_ARRIVAL: the `i`-th interest in flight is taken in its turn, or waits (R306). The sender sends one again whose header fails (R317). -/
def execInterestArrival (i : Nat) (s : State) : Out :=
  .next (
    match s.ipkts[i]? with
    | some p =>
      if !interestFirst s i p || !noTiles s p.stop then s
      else if badHdr .interest p.dir p.hdr then
        let s := retryLink s (inputLink p.stop p.dir)
        { s with ipkts := s.ipkts.set i { p with hdr := sealHdr .interest p.hdr } }
      else
        let gone := tookInput { s with ipkts := s.ipkts.eraseIdx i } .interest p.stop p.dir p.hdr.num
        takeInterest s (if p.dir = 0 then takeBucket gone p.stop p.part 3 128 else gone) p
    | none => s)

/-- INTEREST_DROPPED: an interest whose deadline has passed is dropped (R306, R228). -/
def execInterestDropped (i : Nat) (s : State) : Out :=
  .next (
    match s.ipkts[i]? with
    | some p => if p.deadline < s.clock then { s with ipkts := s.ipkts.eraseIdx i } else s
    | none => s)

/-- WAITER_EXPIRY: a waiter past its deadline, or a local one whose FETCHNs have all been withdrawn, is removed without notice (R228, R230,
R307). Tiles go first (R309). -/
def execWaiterExpiry (stop name dir : Nat) (s : State) : Out :=
  .next (
    if !noTiles s stop then s
    else
      (stopAt s stop).ents.foldl (fun s e =>
        if e.name = name then
          let out := fun (w : Waiter) => w.dir == dir && (decide (w.deadline < s.clock) || (dir == 0 && (fetchesAt s e.part stop name).isEmpty))
          if e.ws.any out then putEnt s stop { e with ws := e.ws.filter (fun w => !out w) } else s
        else s) s)

/-- FETCHN_LIFETIME_EXPIRY: the lifetime ended before a tile arrived (R228, R309). -/
def execFetchnLifetimeExpiry (id : Nat) (s : State) : Out :=
  .next (
    match tget s.ops id with
    | some o =>
      match o.body, tget s.blocks o.blk with
      | .fetchn _ _ d _ _ _ none, some b =>
        if b.phase = .resident ∧ d < s.clock ∧ noTiles s (blkCore b) then endFetch s id o 0x0201 else s
      | _, _ => s
    | none => s)

/-- FETCHN_DELIVERY: the tile is written, cut to the length accepted, and the result word set (R224, R227); or one of its bytes is written before
the others (R256). -/
def execFetchnDelivery (x : OpElem) (s : State) : Out :=
  .next (
    match tget s.ops x.op with
    | some o =>
      match o.body, x.elem with
      | .fetchn _ _ _ dst len _ (some (_, bs)), some i =>
        if i < min bs.length len ∧ i ∉ o.wrote then putWrote (opScratchPut s o (dst + i) [bs.getD i 0]) x.op i else s
      | .fetchn _ _ _ dst len l (some (v, bs)), none =>
        let n := min bs.length len
        let s := putRest s o dst (bs.take n)
        let s := modGroup s o.blk o.gid (fun g => writeS g l (BitVec.ofNat 64 (v * 2 ^ 32 + n)))
        finishOp s x.op (if len < bs.length then 0x0203 else 0)
      | _, _ => s
    | none => s)

/-! ### Publications (R225) -/

/-- Satisfy: the home answers the pending interests, then fires the subscriptions (R225). A payload that is lost stays so when its name is
sealed (R316). -/
def satisfy (s : State) (part name : Nat) : State :=
  let r := nameRec s part name
  let s := match nameHome s part name with
    | some h => tileAt s (homeTile s part name h)
    | none => s
  decideSets (r.subs.foldl (fun s sub => fireSub s name r.ver sub) s) part

def putName (s : State) (part name : Nat) (r : NameRec) : State :=
  let p := partOf s part
  setPart s part { p with names := tput p.names name r }

/-- Note the moment at which a name is sealed (R289). -/
def noteSeal (s : State) (part name ver : Nat) : State :=
  let p := partOf s part
  if ver = 255 then setPart s part { p with seals := p.seals ++ [(name, s.clock)] } else s

/-- Publish(name, v, payload) of R225 for operation `id`; a publication without room for its shelf waits. -/
def publish (s : State) (id : Nat) (o : Op) (name ver : Nat) (sealing : Bool) (bs : List W8) : State :=
  let part := partOfBlk s o.blk
  match dirEntry s part (nameTid name), nameHome s part name with
  | some e, some h =>
    let r := nameRec s part name
    if dMaxlen e < bs.length then finishOp s id 0x0213
    else if r.ver = 255 then finishOp s id 0x0212
    else if !sealing && decide (ver ≤ r.ver) then finishOp s id 0x0210
    else if !sealing && r.stop then finishOp s id 0x0211
    else if sealing && bs.isEmpty then
      if r.ver = 0 then finishOp s id 0x0214
      else
        let s := noteSeal (putName s part name { r with ver := 255 }) part name 255
        finishOp (satisfy s part name) id 0
    else
      match takeUnits s part h (unitsOf bs.length) (if r.payload.isEmpty then 0 else unitsOf r.payload.length) with
      | none => s
      | some s =>
        let s := { s with lost := ndel s.lost (lostName part name) }
        let s := putName s part name { r with ver := ver, payload := bs, words := checkWords bs, pub := o.key.map (fun k => (o.blk, k)) }
        finishOp (satisfy (noteSeal s part name ver) part name) id 0
  | _, _ => finishOp s id 0x0204

/-- A name operation that has reached its home is applied when its log entry finds room there; a lack of it is as for any entry of the lumber
room (R193, R282, R353). -/
def nameApply (s : State) (id : Nat) (o : Op) (f : State → State) : State :=
  if !nameOpArrived s id then s
  else
    match (if o.key.isSome then lumberForLog s (partOfBlk s o.blk) o.body else .room) with
    | .wait => s
    | .exhausted => finishBad (nameOpDone s id) id o (8, 0)
    | .room => let s' := f s; if thas s'.ops id then s' else nameOpDone s' id

/-- PUBLISH_APPLY: the home applies a publication once its payload has been read from scratchpad and accepted (R225, R315). -/
def execPublishApply (id : Nat) (s : State) : Out :=
  .next (
    match tget s.ops id with
    | some o =>
      match o.body with
      | .publish name ver sealing _ _ (some bs) => nameApply s id o (fun s => publish s id o name ver sealing bs)
      | _ => s
    | none => s)

/-- The home sets the stop flag (R226). -/
def stoprefAt (s : State) (id : Nat) (o : Op) (name : Nat) : State :=
  let part := partOfBlk s o.blk
  if (dirEntry s part (nameTid name)).isNone then finishOp s id 0x0204
  else
    let r := nameRec s part name
    if r.ver = 255 then finishOp s id 0x0212 else finishOp (putName s part name { r with stop := true }) id 0

/-- STOPREF_APPLY (R226). -/
def execStoprefApply (id : Nat) (s : State) : Out :=
  .next (
    match tget s.ops id with
    | some o =>
      match o.body with
      | .stopref name => nameApply s id o (fun s => stoprefAt s id o name)
      | _ => s
    | none => s)

/-- Stage `n` of a launch is fired by subscription. -/
def subStage (s : State) (l : Nat) (n : BitVec 3) : Bool :=
  match stageOf s l n.toNat with
  | some st => st.fire == 3
  | none => false

/-- SUBN_RECORD (R231). The stage is tested before the directory entry, and a name whose subscription has been retired at version 255 takes a new
one and fires again (R232; DESIGN CHOICE, log 40). -/
def subnAt (s : State) (id : Nat) (b : Block) (name : Nat) (n : BitVec 3) (m : SubMode) : State :=
  let r := nameRec s b.part name
  let mine := fun (x : Sub) => x.launch == b.launch && x.stage == n
  if !subStage s b.launch n then finishOp s id 0x0104
  else if (dirEntry s b.part (nameTid name)).isNone then finishOp s id 0x0204
  else if m = .unsub then finishOp (putName s b.part name { r with subs := r.subs.filter (fun x => !mine x) }) id 0
  else if r.subs.any mine then
    finishOp (putName s b.part name { r with subs := r.subs.map (fun x => if mine x then { x with mode := m } else x) }) id 0
  else if 8 ≤ r.subs.length then finishOp s id 0x0221
  else
    let sub : Sub := { launch := b.launch, stage := n, mode := m, owed := false }
    let s := putName s b.part name { r with subs := r.subs ++ [sub] }
    finishOp (if r.ver = 0 then s else fireSub s name r.ver sub) id 0

def execSubnRecord (id : Nat) (s : State) : Out :=
  .next (
    match tget s.ops id with
    | some o =>
      match o.body, tget s.blocks o.blk with
      | .subn name n m, some b => nameApply s id o (fun s => subnAt s id b name n m)
      | _, _ => s
    | none => s)

/-! ### Removal and never-produced notices (R229, R310) -/

/-- Answer every waiter at the homes of a tensor's names: its producing stage has retired (R229). -/
def neverProduced (s : State) (part tid : Nat) : State :=
  s.stops.foldl (fun s st =>
    st.2.ents.foldl (fun s e =>
      if e.part = part ∧ nameTid e.name = tid ∧ nameHome s part e.name = some st.1 then
        tileAt s (newTile s part e.name 0 [] .never st.1)
      else s) s) s

/-- Remove a tensor: its entry, its stored tiles and what is in flight; every stop of the partition must acknowledge (R221, R310). -/
def removeTensor (s : State) (part tid : Nat) : State :=
  let stops := stopsOf s part
  let p := partOf s part
  let s := setPart s part { p with dir := tdel p.dir tid, names := p.names.filter (fun e => nameTid e.1 != tid),
                                   removals := p.removals ++ stops.map (fun c => (c, tid)) }
  { s with tpkts := s.tpkts.map (fun t => if t.part = part ∧ nameTid t.name = tid then { t with kind := .removed, payload := [] } else t) }

/-- REMOVAL_NOTICE at one stop: cache shelves go, waiters are answered, entries are freed (R310). -/
def execRemovalNotice (part stop tid : Nat) (s : State) : Out :=
  .next (
    let p := partOf s part
    if p.removals.contains (stop, tid) then
      let st := stopAt s stop
      let s := setStop s stop { st with shelves := st.shelves.filter (fun sh => !(sh.part == part && nameTid sh.name == tid)) }
      let s := st.ents.foldl (fun s e =>
        if e.part = part ∧ nameTid e.name = tid then
          tileAt s (newTile s part e.name 0 [] .removed stop)
        else s) s
      let p := partOf s part
      setPart s part { p with removals := p.removals.filter (· != (stop, tid)) }
    else s)

/-! ### The instructions (R223) -/

/-- A name pair's fields: the name, ver and life; `none` for a reserved bit or an odd register (R219). -/
def namePairOf (v : View) (n : SReg) : Option (Nat × Nat × Nat) :=
  let a := readS v.g n
  let b := readS v.g (n + 1)
  if n.toNat % 2 = 1 ∨ fld a 48 16 ≠ 0 ∨ fld b 48 16 ≠ 0 then none
  else some (nameOf (fld b 0 24).toNat (fld a 32 16).toNat (fld a 0 32).toNat, (fld b 24 8).toNat, (fld b 32 16).toNat)

def pairOpd (n : SReg) : Opd := .s n.toNat (min 2 (64 - n.toNat)) true false

/-- The payload length word; `none` out of range (R223), for which the instruction is illegal (DESIGN CHOICE, log 40). -/
def lengthOf (w : W64) (zero : Bool) : Option Nat :=
  let n := (fld w 0 17).toNat
  if w >>> 17 ≠ 0 ∨ 65536 < n ∨ n % 16 ≠ 0 ∨ (n = 0 ∧ !zero) then none else some n

/-- CheckAccess over the payload range, and the offset's own alignment, whose fault is misalignment; no payload has none (R223; DESIGN CHOICE, log 40). -/
def payloadCheck (v : View) (c : CReg) (off len : Nat) (need : BitVec 8) : Option Res :=
  (checkRange v (readC v.g c) off len 16 need [1]).orElse (fun _ =>
    if len = 0 ∨ off % 16 = 0 then none else some (accessTrap 6 255 false (genericAddr (readC v.g c) off)))

/-- FETCHN: the interest leaves the core's own stop (R227). -/
def startFetch (v : View) (d : HReg) (name vmin life dst len : Nat) (l : SReg) : View :=
  let dl := v.st.clock + 1700 * life
  let w := startOp v d (.fetchn name vmin dl dst len l none)
  { w with st := localInterest w.st v.b.part name vmin dl (blkCore v.b) }

def execFetchn (h : Hdr) (d : HReg) (c : CReg) (n o l : SReg) (s : State) : Out :=
  issue h [.hd d, .c c, pairOpd n, ssrc o, .s l.toNat 1 true true] (fun v _ =>
    match namePairOf v n, lengthOf (readS v.g l) false with
    | some (name, ver, life), some len =>
      let off := (readS v.g o).toNat
      if ver = 0 ∨ life = 0 then illegal8
      else
        match payloadCheck v c off len pW with
        | some r => r
        | none =>
          let lo := capBase (readC v.g c) + off
          fed v 3 (withRanges v [(lo, lo + len, true)] (fun v => startFetch v d name ver life lo len l))
    | _, _ => illegal8) s

/-- A keyed name operation starts, or binds to its logged result; without a payload to read from scratchpad it leaves for the home at once. -/
def sendKeyed (v : View) (d : HReg) (p : Plane) (name : Nat) (later : Bool) (body : OpBody) : View :=
  let w := startKeyed v d body
  if later || !(w.st.ops.any (fun e => e.1 == v.st.nextOp && e.2.body == body)) then w
  else { w with st := sendName w.st p v.b.part (blkCore v.b) name v.st.nextOp [] }

/-- PUBN and SEAL: the payload is read when its range entry is released (R225). -/
def publishOp (h : Hdr) (d : HReg) (c : CReg) (n o l : SReg) (sealing : Bool) (s : State) : Out :=
  issue h [.hd d, .c c, pairOpd n, ssrc o, ssrc l] (fun v _ =>
    match namePairOf v n, lengthOf (readS v.g l) sealing with
    | some (name, ver, life), some len =>
      let off := (readS v.g o).toNat
      if life ≠ 0 ∨ (if sealing then ver ≠ 0 else ver = 0 ∨ ver = 255) then illegal8
      else
        match payloadCheck v c off len pR with
        | some r => r
        | none =>
          let lo := capBase (readC v.g c) + off
          let body := OpBody.publish name (if sealing then 255 else ver) sealing lo len (if len = 0 then some [] else none)
          withRanges v (if len = 0 then [] else [(lo, lo + len, false)]) (fun v => sendKeyed v d .request name (len != 0) body)
    | _, _ => illegal8) s

def execPubn (h : Hdr) (d : HReg) (c : CReg) (n o l : SReg) (s : State) : Out := publishOp h d c n o l false s
def execSealn (h : Hdr) (d : HReg) (c : CReg) (n o l : SReg) (s : State) : Out := publishOp h d c n o l true s

def execStopref (h : Hdr) (d : HReg) (n : SReg) (s : State) : Out :=
  issue h [.hd d, pairOpd n] (fun v _ =>
    match namePairOf v n with
    | some (name, 0, 0) =>
      let w := startOp v d (.stopref name)
      .done { w with st := sendName w.st .interest v.b.part (blkCore v.b) name v.st.nextOp [] } 0
    | _ => illegal8) s

def execSubn (h : Hdr) (d : HReg) (n : SReg) (st : BitVec 3) (m : SubMode) (s : State) : Out :=
  issue h [.hd d, pairOpd n] (fun v _ =>
    match namePairOf v n with
    | some (name, 0, 0) => .done (sendKeyed v d .interest name false (.subn name st m)) 0
    | _ => illegal8) s

end Sys2Proof.Machine
end

