-- ==== Sys2Proof/Machine/Launches.lean ====
section
/-! DEFINITION. Event rings (R351), code images (R69 to R72), launch descriptors (R287, R288), the start of launches, settle events (R234),
retiring stages and completing launches (R292). -/
namespace Sys2Proof.Machine
open Sys2Proof

/-! ### Accesses of the command processor (R284) -/

/-- A little-endian field of a byte list. -/
def u (bs : List W8) (off n : Nat) : Nat := leNat ((bs.drop off).take n)

/-- Read committed bytes within the context's reach (R269, R284). -/
def cpRead (s : State) (part addr n : Nat) : LoadRes :=
  if n = 0 then .done [] else if inReach s part addr (addr + n) then devLoad s part addr n else .bad 5 1

/-- Store a range within the context's reach. -/
def cpWrite (s : State) (part addr : Nat) (bs : List W8) : StoreRes :=
  if inReach s part addr (addr + bs.length) then devStoreAll s part hostWriter addr bs else .bad s 5 1

/-! ### Event rings (R351) -/

/-- The 32 bytes of an event. -/
def eventBytes (e : Event) (seq : W32) : List W8 :=
  le 4 e.gen.toNat ++ le 4 seq.toNat ++ le 4 e.code.toNat ++ le 4 0 ++ le 8 e.value.toNat ++ le 8 e.time

/-- Write one event to a function's ring; false while its page is on its way. -/
def ringEvent (s : State) (f : Nat) (e : Event) : State × Bool :=
  let x := fnOf s f
  match x.ring, x.part with
  | some (base, len), some part =>
    (match devStoreAll s part hostWriter (base + x.ptr % (max len 1)) (eventBytes e (x.seq + 1)) with
     | .done s =>
       let x := fnOf s f
       (setFn s f { x with seq := x.seq + 1, ptr := x.ptr + 32 }, true)
     | .wait s => (s, false)
     | .bad s _ _ => (s, true))
  | _, _ => (s, false)

/-- Deliver held events in order while the function runs; stale ones are dropped and counted. -/
def deliverEvents : Nat → State → Nat → State
  | 0, s, _ => s
  | n + 1, s, f =>
    let x := fnOf s f
    if !x.running || x.paused then s
    else
      match x.held with
      | e :: rest =>
        if e.gen ≠ x.gen then deliverEvents n (setFn s f { x with held := rest, stale := x.stale + 1 }) f
        else
          let r := ringEvent s f e
          if r.2 then
            let y := fnOf r.1 f
            deliverEvents n (setFn r.1 f { y with held := rest }) f
          else r.1
      | [] =>
        if x.dropped = 0 then s
        else
          let fr := freeNext s
          let r := ringEvent fr.2 f { gen := x.gen, code := fr.1.setWidth 32, value := BitVec.ofNat 64 x.dropped, time := s.clock }
          if r.2 then
            let y := fnOf r.1 f
            setFn r.1 f { y with dropped := 0 }
          else s

def deliverAll (s : State) (f : Nat) : State := deliverEvents 300 s f

/-- EVENT_POST: to the ring at once, or held up to 255 events; further ones are counted (R351). -/
def postEvent (s : State) (f : Nat) (code : W32) (value : W64) : State :=
  let x := fnOf s f
  let e : Event := { gen := x.gen, code := code, value := value, time := s.clock }
  if x.dropped ≠ 0 ∨ 255 ≤ x.held.length then setFn s f { x with dropped := x.dropped + 1 }
  else deliverAll (setFn s f { x with held := x.held ++ [e] }) f

/-- An event whose code the manual does not state: a free value (log 3). -/
def postFree (s : State) (f : Nat) (value : W64) : State :=
  let fr := freeNext s
  postEvent fr.2 f (fr.1.setWidth 32) value

/-! ### Code images (R69 to R72) -/

/-- The header's fields are in range; status 1 or 2 otherwise. -/
def imageHeader (h : List W8) : Except W16 Unit :=
  let mn := u h 0x10 2
  let mx := u h 0x12 2
  let rows := u h 0x14 2
  if u h 0 4 ≠ 0x474C4F47 ∨ u h 4 2 ≠ 1 ∨ 1 < u h 6 2 ∨ mn % 16 ≠ 0 ∨ mn < 16 ∨ 128 < mn ∨ mx % 16 ≠ 0 ∨ mx < mn ∨ 128 < mx ∨
     rows % 8 ≠ 0 ∨ rows < 8 ∨ 256 < rows ∨ u h 0x16 2 ≠ 0 ∨ u h 0x18 4 % 8 ≠ 0 ∨ u h 0x1C 4 ≠ 0 then .error 1
  else if 64 < mn ∨ mx < 64 then .error 2
  else .ok ()

/-- A SHFL whose x is a distance code. -/
def isDistance (w : W64) : Bool := wMajor w == 0x14 && wMinor w == 0 && (wC w == 1 || wC w == 2 || wC w == 3)

def withX (w : W64) (x : Nat) : W64 := (w &&& ~~~(0xFF : W64)) ||| BitVec.ofNat 64 (x % 256)

/-- The distance of a Gloug code: `none` reserved (R70). -/
def distanceOf (x : BitVec 8) : Option Nat :=
  let n := x.toNat % 64
  match x.toNat / 64 with
  | 0 => some n
  | 1 => if n / 8 = 0 then some (64 / 2 ^ (n % 8)) else none
  | 2 => some (64 - n)
  | _ => none

/-- The word with its Gloug fields read as legal ones, for steps 1 to 3 of R54; `none` for a reserved distance code. -/
def glougWord (w : W64) : Option W64 := if isDistance w then (distanceOf (wX w)).map (fun _ => withX w 0) else some w

/-- The walk of a Gloug image: the places of its markers and of its mask words, or the word that is illegal (R71 step 2). -/
def glougWalk : Nat → List W64 → Nat → Except Nat (List Nat × List Nat)
  | 0, _, _ => .ok ([], [])
  | n + 1, ws, i =>
    match ws with
    | [] => .ok ([], [])
    | w :: rest =>
      if isMarker w then
        match glougWalk n rest (i + 1) with
        | .ok (m, k) => .ok (i :: m, k)
        | .error e => .error e
      else
        match glougWord w with
        | none => .error i
        | some g =>
          match decode g (rest.headD 0) with
          | .error _ => .error i
          | .ok _ =>
            if wSafe w then
              match glougWalk n rest.tail (i + 2) with
              | .ok (m, k) => .ok (m, (i + 1) :: k)
              | .error e => .error e
            else glougWalk n rest (i + 1)

def withDist (w : W64) (d : Nat) : W64 := (w &&& ~~~(0xFFFF0000 : W64)) ||| BitVec.ofNat 64 (d % 65536 * 65536)

/-- The markers with their distances filled, checked against R56 and R57: the first that breaks the chain, or the words. Status 4 names that marker
itself, not the one whose dist leads to it, and a marker whose dist is not zero breaks the chain (DESIGN CHOICE: R72 does not say which marker, and
R70, which says that dist is zero, names no status; log 25). -/
def fillDists : List Nat → List W64 → Nat → Bool → Except Nat (List W64)
  | [], ws, _, _ => .ok ws
  | i :: rest, ws, expect, open' =>
    let w := ws.getD i 0
    let d := match rest with
      | j :: _ => j - i
      | [] => 0
    let ws' := listSet ws i (withDist w d)
    if mkDist w ≠ 0 ∨ 65535 < d ∨ !markerOk ws' i expect open' ∨ (i = 0 ∧ mkKind w ≠ 0) ∨ (mkKind w = 3 ∧ !rest.isEmpty) ∨ (mkKind w ≠ 3 ∧ rest.isEmpty) then .error i
    else fillDists rest ws' (expect + 1) (if mkKind w == 1 then true else if mkKind w == 2 then false else open')

/-- Step 4 of R71: absolute distances, or the word whose distance is out of range. -/
def fillShuffles (ws : List W64) (skip : List Nat) : Except Nat (List W64) :=
  (List.range ws.length).foldl (fun acc i =>
    match acc with
    | .error e => .error e
    | .ok out =>
      let w := ws.getD i 0
      if !isMarker w && !skip.contains i && isDistance w then
        match distanceOf (wX w) with
        | some d => if d < 64 then .ok (listSet out i (withX w d)) else .error i
        | none => .error i
      else .ok out) (.ok ws)

/-- The native vmask of a Gloug one over `rows` rows; `none` when it names a row at or above them (R70). -/
def nativeVmask (rows : Nat) (w : W64) : Option W64 :=
  let g := (rows + 31) / 32
  let kept := (List.range 32).filter (fun i => w.getLsbD i)
  if kept.any (fun i => decide (rows ≤ i * g)) then none
  else
    let m := maskOf (fun j => decide (j < 32) && kept.any (fun i => decide (i * g < 8 * j + 8) && decide (8 * j < min (i * g + g) rows)))
    some ((w &&& ~~~(0xFFFFFFFF : W64)) ||| m)

/-- Step 5 of R71. -/
def fillMasks (rows : Nat) (ws : List W64) (masks : List Nat) : Except Nat (List W64) :=
  masks.foldl (fun acc i =>
    match acc with
    | .error e => .error e
    | .ok out =>
      match nativeVmask rows (out.getD i 0) with
      | some w => .ok (listSet out i w)
      | none => .error i) (.ok ws)

/-- The translator on a Gloug image: the native words, or a status and a word offset (R71, R72). The count of labels, status 5, is tested in step
3: one above 65,534 before the chain, whose labels it would break, and the header's own count after it (DESIGN CHOICE: the five steps do not
place it; log 25). -/
def translateImage (ws : List W64) (labels rows : Nat) : Except (W16 × Nat) (List W64) :=
  match glougWalk ws.length ws 0 with
  | .error i => .error (3, i)
  | .ok (marks, masks) =>
    if marks.head? ≠ some 0 then .error (4, 0)
    else if 65534 < (marks.filter (fun i => decide (mkKind (ws.getD i 0) < 3))).length then .error (5, 0)
    else
      match fillDists marks ws 0 false with
      | .error i => .error (4, i)
      | .ok ws1 =>
        if labels ≠ marks.length - 1 then .error (5, 0)
        else
          match fillShuffles ws1 masks with
          | .error i => .error (6, i)
          | .ok ws2 =>
            match fillMasks rows ws2 masks with
            | .error i => .error (7, i)
            | .ok ws3 => .ok ws3

/-- What loading an image meets. -/
inductive LoadImg
  | wait (s : State)
  | bad
  | done (s : State) (id : Nat) (status : W16) (word : Nat)

def bytesWords : Nat → List W8 → List W64
  | 0, _ => []
  | n + 1, bs => BitVec.ofNat 64 (leNat (bs.take 8)) :: bytesWords n (bs.drop 8)

/-- The image loaded last at an address. -/
def findImage (s : State) (part addr : Nat) : Option (Nat × Image) := s.images.reverse.find? (fun e => e.2.part == part && e.2.addr == addr)

/-- Keep an image, in place of a failed attempt at its address; one that was loaded stays for the blocks that run it. -/
def putImage (s : State) (im : Image) : State × Nat :=
  let new := ({ s with images := tput s.images s.nextImg im, nextImg := s.nextImg + 1 }, s.nextImg)
  match findImage s im.part im.addr with
  | some (id, old) => if old.status = 0 then new else ({ s with images := tput s.images id im }, id)
  | none => new

/-- The native form is written over the Gloug form, which its pages hold (R71). -/
def writeNative (s : State) (part addr codeoff : Nat) (ws : List W64) : State :=
  let put := fun (s : State) (a : Nat) (bs : List W8) =>
    match (meet s none part a false false).2 with
    | .page id off => commitBytes s part id off a bs hostWriter
    | _ => s
  let s := put s (addr + 6) [0, 0]
  (ws.zip (List.range ws.length)).foldl (fun s e => put s (addr + codeoff + 8 * e.2) (leBytes 8 e.1.toNat)) s

/-- IMAGE_LOAD: the first load checks and translates; a later launch takes its outcome while the header there is still the same, since stores to the
words of a loaded program change nothing until ICINV (R59), and a LOADIMG after a load that failed loads afresh (R71, R72; DESIGN CHOICE, log 25). An image at an address that is not a multiple of 8 is loaded as it stands (DESIGN CHOICE: R44 gives no
status for one; log 25). -/
def loadImage (s : State) (part addr : Nat) (again : Bool) : LoadImg :=
  let fresh := fun (_ : Unit) =>
    match cpRead s part addr 32 with
    | .wait s => LoadImg.wait s
    | .bad .. => .bad
    | .done h =>
      let im : Image := { part := part, addr := addr, codeoff := u h 0x18 4, labels := u h 0xC 4, rows := u h 0x14 2, head := h, versions := [], status := 0 }
      match imageHeader h with
      | .error st =>
        let r := putImage s { im with status := st }
        .done r.1 r.2 st 0
      | .ok _ =>
        match cpRead s part (addr + im.codeoff) (8 * u h 8 4) with
        | .wait s => .wait s
        | .bad .. => .bad
        | .done bs =>
          let ws := bytesWords (u h 8 4) bs
          if u h 6 2 = 0 then
            let r := putImage s { im with versions := [ws] }
            .done r.1 r.2 0 0
          else
            match translateImage ws im.labels im.rows with
            | .error (st, i) =>
              let r := putImage s { im with status := st }
              .done r.1 r.2 st i
            | .ok ns =>
              let r := putImage (writeNative s part addr im.codeoff ns) { im with versions := [ns], head := h.take 6 ++ [0, 0] ++ h.drop 8 }
              .done r.1 r.2 0 0
  match findImage s part addr with
  | some (id, im) =>
    let kept := im.status = 0 ∨ !again
    (match cpRead s part addr 32 with
     | .wait s => .wait s
     | .bad .. => if kept then .done s id im.status 0 else .bad
     | .done h => if h = im.head ∧ kept then .done s id im.status 0 else fresh ())
  | none => fresh ()

/-! ### Launch descriptors (R287, R288) -/

/-- One stage entry; `none` when a value is out of range. -/
def stageEntry (ws : List W64) (e : List W8) : Option Stage :=
  let w := BitVec.ofNat 64 (u e 0 8)
  let fire := (fld w 46 2).toNat
  let entry : Lab := fld w 48 16
  let count := u e 8 4
  let qcap := u e 12 2
  match footprintOf (w &&& 0x00003FFFFFFFFFFF) with
  | none => none
  | some fp =>
    if u e 14 2 ≠ 0 ∨ markerKind ws entry ≠ some 0 ∨ (2 ≤ fire ∧ count ≠ 0) ∨ (if fire = 2 then qcap = 0 ∨ 4096 < qcap else qcap ≠ 0) then none
    else
      some { fire := fire, count := count, qcap := qcap, entry := entry, fp := fp, fired := false, retired := false, next := 0, ready := 0,
             queue := [], firings := [] }

/-- A directory entry is in range (R221). -/
def dirOK (e : BitVec 256) : Bool :=
  decide (16 ≤ dMaxlen e) && decide (dMaxlen e ≤ 65536) && dMaxlen e % 16 == 0 && !(dfld e 225 2 == 2 && dfld e 208 16 == 0) &&
    dfld e 224 1 == 0 && dfld e 168 7 == 0 && dfld e 0 80 == 0

/-- A capability argument, tagged under R287. -/
def capArg (s : State) (part : Nat) (bits : BitVec 128) : Cap :=
  let c : Cap := { bits := bits, tag := false }
  let ok := match capSpace c with
    | 1 | 2 => true
    | 0 => decide (capBase c ≤ capLimit c) && inReach s part (capBase c) (capLimit c)
    | _ => false
  { c with tag := ok }

/-- Footprints of a phased launch's fire-mode-0 blocks, one per block. -/
def phasedBlocks (l : Launch) : List (Nat × Footprint) :=
  (l.stages.zip (List.range l.stages.length)).foldl (fun a e => if e.1.fire = 0 then a ++ List.replicate e.1.count (e.2, e.1.fp) else a) []

/-- What a core has left: the ranges of seats, rows and scratchpad already taken, and the barrier objects. -/
structure Room where
  core  : Nat
  seats : List (Nat × Nat)
  rows  : List (Nat × Nat)
  scr   : List (Nat × Nat)
  bars  : List Nat
deriving DecidableEq, Repr

/-- The lowest start at which `n` units are free below `limit`: 0, or the end of a range taken. -/
def fitAt (taken : List (Nat × Nat)) (n limit : Nat) : Option Nat :=
  let free := fun (a : Nat) => decide (a + n ≤ limit) && taken.all (fun r => decide (a + n ≤ r.1) || decide (r.2 ≤ a) || decide (r.2 ≤ r.1))
  let cand := (0 :: taken.map (fun r => r.2)).filter free
  match cand with
  | [] => none
  | a :: t => some (t.foldl min a)

/-- Barrier objects of a core that are free; a block takes any of them (R15). -/
def freeBars (r : Room) : List Nat := (List.range 512).filter (fun i => !r.bars.contains i)

/-- Where a footprint fits in a room (R15, R378): seats, rows and scratchpad contiguous. -/
def fitRoom (r : Room) (f : Footprint) : Option Place :=
  match fitAt r.seats f.groups 16, fitAt r.rows (f.groups * f.rows) 2048, fitAt r.scr f.scratch 760 with
  | some a, some b, some c =>
    if f.barriers ≤ (freeBars r).length then some { core := r.core, seat := a, row := b, scr := c, bar := (freeBars r).take f.barriers } else none
  | _, _, _ => none

def takeRoom (r : Room) (p : Place) (f : Footprint) : Room :=
  { r with seats := (p.seat, p.seat + f.groups) :: r.seats, rows := (p.row, p.row + f.groups * f.rows) :: r.rows,
           scr := (p.scr, p.scr + f.scratch) :: r.scr, bars := p.bar ++ r.bars }

def emptyRoom (c : Nat) : Room := { core := c, seats := [], rows := [], scr := [], bars := [] }

/-- Put footprints one after another into the first rooms where they fit. -/
def packFirst : List Room → List (Nat × Footprint) → Option (List (Nat × Place))
  | _, [] => some []
  | rs, (n, f) :: rest =>
    match rs.findSome? (fun r => fitRoom r f) with
    | none => none
    | some p => (packFirst (rs.map (fun r => if r.core = p.core then takeRoom r p f else r)) rest).map (fun l => (n, p) :: l)

/-- One room of each shape. -/
def shapes : List Room → List Room
  | [] => []
  | r :: rs => r :: (shapes rs).filter (fun x => { x with core := 0 } != { r with core := 0 })

/-- Put footprints into rooms in every possible way until one succeeds. -/
def packAny : List (Nat × Footprint) → List Room → Option (List (Nat × Place))
  | [], _ => some []
  | (n, f) :: rest, rs =>
    (shapes rs).findSome? (fun r => (fitRoom r f).bind (fun p =>
      (packAny rest (rs.map (fun x => if x.core = p.core then takeRoom x p f else x))).map (fun l => (n, p) :: l)))

/-- The rooms have enough of everything in all; without that no packing exists. -/
def enoughRoom (rs : List Room) (bs : List (Nat × Footprint)) : Bool :=
  let need := fun (f : Footprint → Nat) => bs.foldl (fun n b => n + f b.2) 0
  let left := fun (taken : Room → List (Nat × Nat)) (cap : Nat) => rs.foldl (fun n r => n + (cap - (taken r).foldl (fun m x => m + (x.2 - x.1)) 0)) 0
  decide (need (fun f => f.groups) ≤ left (fun r => r.seats) 16) && decide (need (fun f => f.groups * f.rows) ≤ left (fun r => r.rows) 2048) &&
    decide (need (fun f => f.scratch) ≤ left (fun r => r.scr) 760) && decide (need (fun f => f.barriers) ≤ rs.foldl (fun n r => n + (freeBars r).length) 0)

/-- A place for every footprint, if there is any way to place them all (R101). -/
def packAll (rs : List Room) (bs : List (Nat × Footprint)) : Option (List (Nat × Place)) :=
  (packFirst rs bs).orElse (fun _ => if enoughRoom rs bs then packAny bs rs else none)

/-- What starting a launch meets. -/
inductive LaunchRes
  | wait (s : State)
  | failed (s : State) (status : W16)
  | started (s : State) (id : Nat)

/-- Launch ids count from 1 and skip 0 (R284). -/
def nextLid (n : Nat) : Nat := if (n + 1) % 2 ^ 32 = 0 then 1 else (n + 1) % 2 ^ 32

/-- The directory entry as the command processor writes it: valid, with the launch's own id for a bound tensor. -/
def ownEntry (e : BitVec 256) (lid : Nat) : BitVec 256 :=
  let e := e ||| (BitVec.twoPow 256 231)
  if dPbound e then (e &&& ~~~(BitVec.ofNat 256 ((2 ^ 32 - 1) * 2 ^ 128))) ||| BitVec.ofNat 256 (lid * 2 ^ 128) else e

/-- Write a launch's directory entries (R221): the status that refuses them, or the partition. -/
def declareNames (p : Part) (es : List (BitVec 256)) (lid : Nat) : Except W16 Part :=
  let tids := es.map (fun e => dfld e 232 24)
  if tids.any (fun t => thas p.dir t) ∨ !decide tids.Nodup then .error 0x0220
  else if 4096 < p.dir.length + es.length then .error 0x0236
  else .ok { p with dir := es.foldl (fun d e => tput d (dfld e 232 24) (ownEntry e lid)) p.dir }

/-- The launch of a descriptor over a loaded image (R287, R288, R16, R101). -/
def startLaunch (s : State) (part fn img : Nat) (d : List W8) (args caps names : List W8) : LaunchRes :=
  let n := d.getD 8 0 |>.toNat
  let ws := match tget s.images img with
    | some im => im.versions.headD []
    | none => []
  let stages := (List.range n).map (fun i => stageEntry ws ((d.drop (0x30 + 16 * i)).take 16))
  let es := (List.range (u d 0xE 2)).map (fun i => BitVec.ofNat 256 (u names (32 * i) 32))
  let scope := (scopeOf (BitVec.ofNat 5 (u d 9 1)))
  let p := partOf s part
  if stages.any Option.isNone ∨ u d 0xA 1 > 1 ∨ u d 9 1 < 2 ∨ 0xA < u d 9 1 ∨ u d 0x28 8 ≠ 0 ∨ !es.all dirOK then .failed s 0x0235
  else
    let sts := stages.filterMap id
    if (sts.head?.map (fun x => x.fire)) ≠ some 0 then .failed s 0x0235
    else if sts.any (fun x => !fitsEmpty x.fp) then .failed s 0x0010
    else if es.any (fun e => p.removals.any (fun r => r.2 == dfld e 232 24)) then .wait s
    else
      let lid := nextLid p.lid
      let l : Launch :=
        { part := part, fn := fn, lid := BitVec.ofNat 32 lid, image := img, seed := BitVec.ofNat 64 (u d 0 8), scope := scope.getD .block,
          phased := u d 0xA 1 == 1, args := (List.range (u d 0xC 2)).map (fun i => BitVec.ofNat 64 (u args (8 * i) 8)),
          caps := (List.range (u d 0xB 1)).map (fun i => capArg s part (BitVec.ofNat 128 (u caps (16 * i) 16))),
          stages := sts.map (fun x => if x.fire = 0 then { x with fired := true, ready := s.clock } else x), seq := 0, start := s.clock,
          names := es.map (fun e => dfld e 232 24), decided := [], posted := [], error := false, affAt := s.clock, done := none }
      if l.phased ∧ (packAll ((stopsOf s part).map emptyRoom) (phasedBlocks l)).isNone then .failed s 0x0010
      else
        match declareNames p es lid with
        | .error st => .failed s st
        | .ok p =>
          .started (setPart { s with launches := tput s.launches s.nextLch l, nextLch := s.nextLch + 1 } part { p with lid := lid }) s.nextLch

/-- LAUNCH_NODE: load the image, read the descriptor and what it names, start the launch (R287). -/
def launchNode (s : State) (part fn imgAddr desc : Nat) : LaunchRes :=
  match loadImage s part imgAddr false with
  | .wait s => .wait s
  | .bad => .failed s 0x0234
  | .done s img st _ =>
    if st ≠ 0 then .failed s st
    else
      match cpRead s part desc 0x30 with
      | .wait s => .wait s
      | .bad .. => .failed s 0x0234
      | .done h =>
        let n := u h 8 1
        if n = 0 ∨ 8 < n ∨ 8 < u h 0xB 1 ∨ 512 < u h 0xC 2 ∨ 4096 < u h 0xE 2 then .failed s 0x0235
        else
          match cpRead s part desc (0x30 + 16 * n), cpRead s part (u h 0x10 8) (8 * u h 0xC 2), cpRead s part (u h 0x18 8) (16 * u h 0xB 1),
                cpRead s part (u h 0x20 8) (32 * u h 0xE 2) with
          | .done d, .done a, .done c, .done m => startLaunch s part fn img d a c m
          | .bad .., _, _, _ => .failed s 0x0234
          | _, .bad .., _, _ => .failed s 0x0234
          | _, _, .bad .., _ => .failed s 0x0234
          | _, _, _, .bad .. => .failed s 0x0234
          | .wait s, _, _, _ => .wait s
          | _, .wait s, _, _ => .wait s
          | _, _, .wait s, _ => .wait s
          | _, _, _, .wait s => .wait s

/-! ### Settle events (R234) -/

/-- Post a set's settle event once, with its status; WAITNAME nodes find it noted for each tensor of the set (R234, R289). -/
def postSettle (s : State) (lch pset fn st : Nat) : State :=
  let s : State := match tget s.launches lch with
    | none => s
    | some l =>
      let p := partOf s l.part
      setPart s l.part { p with settles := p.settles ++ (setEntries s l pset).map (fun e => (e.1, s.clock, st)) }
  postFree { s with launches := tmod s.launches lch (fun l => { l with posted := pset :: l.posted }) } fn (BitVec.ofNat 64 st)

/-- SETTLE_EVENT: the event of a set whose status has been decided is posted (R234). -/
def execSettleEvent (lch pset : Nat) (s : State) : Out :=
  .next (
    let s := decideSet s lch pset
    match tget s.launches lch with
    | some l =>
      if l.done.isSome ∨ l.posted.contains pset then s
      else
        (match tget l.decided pset with
         | some st => postSettle s lch pset l.fn st
         | none => s)
    | none => s)

/-! ### Stages and launches (R292) -/

/-- Blocks of a stage that are not complete. -/
def stageRunning (s : State) (lch n : Nat) : Bool :=
  s.blocks.any (fun e => e.2.launch == lch && e.2.kind != .handler && e.2.stage.toNat == n && e.2.phase != .complete)

/-- The stage may retire. -/
def mayRetire (s : State) (lch : Nat) (l : Launch) (n : Nat) (st : Stage) : Bool :=
  !st.retired && !stageRunning s lch n &&
    (if st.fire ≤ 1 then st.fired && decide (st.count ≤ st.next)
     else (l.stages.take n).all (fun x => x.retired) && st.queue.isEmpty && st.firings.isEmpty)

/-- At a launch's completion a set that was not decided is settled, or unsettled while one of its names is unsealed; its event goes out (R234). -/
def closeSet (s : State) (lch pset : Nat) : State :=
  let s := decideSet s lch pset
  match tget s.launches lch with
  | none => s
  | some l =>
    if pset = 0 ∨ l.posted.contains pset then s
    else
      match tget l.decided pset with
      | some st => postSettle s lch pset l.fn st
      | none => if anyUnsealed s l pset then postSettle (recordSet s lch pset 1) lch pset l.fn 1 else s

/-- LAUNCH_COMPLETE: the sets are closed, the tensors removed, the completion posted as an event (R221, R234, R292, R332, R351). -/
def completeLaunch (s : State) (lch : Nat) (l : Launch) : State :=
  let st : W16 := if l.error then 0x0240 else 0
  let s := (setsOf s l).foldl (fun s p => closeSet s lch p) s
  let s := l.names.foldl (fun s t => removeTensor s l.part t) s
  let s := { s with launches := tmod s.launches lch (fun l => { l with done := some st }) }
  postFree s l.fn (st.setWidth 64)

/-- The tensors whose producing stage is stage `n` of this launch. -/
def producedBy (s : State) (l : Launch) (n : Nat) : List Nat :=
  ((partOf s l.part).dir.filter (fun e => dPbound e.2 && dPlaunch e.2 == l.lid.toNat && dPstage e.2 == n)).map (fun e => e.1)

/-- STAGE_RETIRE: never-produced notices go out, the next stage of mode 1 fires, and the launch completes with its last stage (R229, R292). -/
def execStageRetire (lch n : Nat) (s : State) : Out :=
  .next (
    match tget s.launches lch with
    | some l =>
      match l.stages[n]? with
      | some st =>
        if l.done.isNone && mayRetire s lch l n st then
          let s := modStage s lch n (fun st => { st with retired := true })
          let s := modStage s lch (n + 1) (fun st => if st.fire = 1 then { st with fired := true, ready := s.clock } else st)
          let s := decideSets ((producedBy s l n).foldl (fun s t => neverProduced s l.part t) s) l.part
          match tget s.launches lch with
          | some l => if l.stages.all (fun x => x.retired) then completeLaunch s lch l else s
          | none => s
        else s
      | none => s
    | none => s)

end Sys2Proof.Machine
end

