-- ==== Sys2Proof/Machine/CmdProc.lean ====
section
/-! DEFINITION. The command processor: nodes of a graph (R284 to R286, R289), LOOP bodies (R290), and the end of a graph (R291). -/
namespace Sys2Proof.Machine
open Sys2Proof

/-! ### Nodes in memory (R285) -/

/-- Every byte of a range of a node is zero. -/
def zeros (bs : List W8) (off n : Nat) : Bool := u bs off n == 0

def nKind (bs : List W8) : Nat := u bs 0 1
def nPreds (bs : List W8) : Nat := u bs 1 1
def nHalts (bs : List W8) : Bool := u bs 3 1 % 2 == 1
def nTestFirst (bs : List W8) : Bool := u bs 3 1 / 2 % 2 == 1

/-- The successors a node lists. -/
def nSuccs (bs : List W8) : List Nat := (List.range (u bs 2 1)).map (fun i => u bs (8 + 2 * i) 2)

/-- The name of a WAITNAME node; `none` when a bit outside iter, tile and tid is set (R219, R289). -/
def waitedName (bs : List W8) : Option Nat :=
  if zeros bs 0x16 2 && zeros bs 0x1B 5 then some (nameOf (u bs 0x18 3) (u bs 0x14 2) (u bs 0x10 4)) else none

/-- The body of a node by its kind (R287, R289, R290). -/
def bodyOK (bs : List W8) : Bool :=
  match nKind bs with
  | 1 => zeros bs 0x20 32
  | 2 => decide (1 ≤ u bs 0x20 8) && decide (u bs 0x20 8 ≤ 2 ^ 40) && zeros bs 0x28 24
  | 3 => u bs 0x10 8 % 8 == 0 && decide (u bs 0x28 1 ≤ 5) && zeros bs 0x29 23 && decide (u bs 2 1 ≤ 2)
  | 4 => u bs 0x10 8 % 8 == 0 && decide (u bs 0x28 1 ≤ 5) && zeros bs 0x29 1 && decide (1 ≤ u bs 0x2C 4) && u bs 0x30 8 % 8 == 0 && zeros bs 0x38 8
  | 5 => (waitedName bs).isSome && decide (u bs 0x20 1 ≤ 1) && zeros bs 0x21 31
  | 6 => u bs 0x10 8 % 8 == 0 && zeros bs 0x24 28
  | 7 => u bs 0x10 8 % 64 == 0 && zeros bs 0x18 40
  | _ => false

/-- A node is well formed (R285, R291). -/
def nodeOK (idx : Nat) (bs : List W8) : Bool :=
  decide (u bs 2 1 ≤ 4) && decide (u bs 3 1 ≤ (if nKind bs = 4 then 3 else 1)) && zeros bs 4 4 &&
    zeros bs (8 + 2 * u bs 2 1) (8 - 2 * u bs 2 1) && (idx != 0 || nPreds bs == 0) && bodyOK bs

/-- Read node `n` of a graph. -/
def readNode (s : State) (g : Graph) (n : Nat) : LoadRes := cpRead s g.part (g.base + 64 * n) 64

/-! ### The state of a run -/

def nodeRun (g : Graph) (n : Nat) : NodeRun :=
  match tget g.nodes n with
  | some r => r
  | none => if n = 0 then { NodeRun.init with ready := g.started + 1 } else NodeRun.init

def modNode (s : State) (gid n : Nat) (f : NodeRun → NodeRun) : State :=
  { s with graphs := tmod s.graphs gid (fun g => { g with nodes := tput g.nodes n (f (nodeRun g n)) }) }

/-- The graph starts no further node and will complete with a status; the first reason stands (R286, R291). -/
def haltGraph (s : State) (gid : Nat) (st : W16) : State :=
  { s with graphs := tmod s.graphs gid (fun g => { g with halted := g.halted.orElse (fun _ => some st) }) }

/-- A node is done without starting anything. -/
def dropNode (s : State) (gid n : Nat) (st : W16) : State := modNode s gid n (fun r => { r with phase := .done, status := st, ready := 0 })

/-- A node failed: SYNCSUM reports it (R286). -/
def noteFailed (s : State) (gid n : Nat) (st : W16) : State :=
  { s with graphs := tmod s.graphs gid (fun g => { g with failed := g.failed ++ [(n, st)] }) }

/-- The graph ends because of this node: malformed (0x0230) or an address that cannot be used (0x0234). -/
def ruinNode (s : State) (gid n : Nat) (st : W16) : State := haltGraph (noteFailed (dropNode s gid n st) gid n st) gid st

/-- One completion for node `j`: ready once max(preds, 1) have come (R286). A page on its way makes the completion wait. -/
def completion (s : State) (gid j : Nat) : Option State × State :=
  match tget s.graphs gid with
  | none => (some s, s)
  | some g =>
    match readNode s g j with
    | .wait w => (none, w)
    | .bad .. => (some (haltGraph s gid 0x0234), s)
    | .done bs =>
      let got := (nodeRun g j).got + 1
      let now := got = max (nPreds bs) 1
      (some (modNode s gid j (fun r => { r with got := got, ready := if now ∧ r.phase = .idle then s.clock + 1 else r.ready })), s)

/-- Completions for several nodes at once, or the requests for the pages they lack. -/
def completions (s : State) (gid : Nat) (js : List Nat) : Option State × State :=
  js.foldl (fun r j =>
    match r.1 with
    | some t => completion t gid j
    | none => r) (some s, s)

/-- A node completes with a status and starts the successors given, unless the graph halts (R286). -/
def finishNode (s : State) (gid n : Nat) (bs : List W8) (st : W16) (succs : List Nat) : State :=
  let s1 := dropNode s gid n st
  let s1 := if st = 0 then s1 else noteFailed s1 gid n st
  if st ≠ 0 ∧ nHalts bs then haltGraph s1 gid 0x0231
  else
    match tget s1.graphs gid with
    | none => s1
    | some g =>
      if g.halted.isSome then s1
      else
        match completions s1 gid succs with
        | (some t, _) => t
        | (none, w) => { w with graphs := s.graphs }

/-! ### Predicates and words (R289, R290) -/

/-- Holds over the word read. -/
def predicate (bs : List W8) (w : W64) : Bool :=
  let a := (w &&& BitVec.ofNat 64 (u bs 0x18 8)).toNat
  let b := u bs 0x20 8
  match u bs 0x28 1 with
  | 0 => decide (a = b)
  | 1 => decide (a ≠ b)
  | 2 => decide (a < b)
  | 3 => decide (a ≤ b)
  | 4 => decide (b < a)
  | _ => decide (b ≤ a)

/-- What a test of the node's word meets. -/
inductive TestRes
  | holds (x : Bool)
  | wait (s : State)
  | bad

def testNode (s : State) (g : Graph) (bs : List W8) : TestRes :=
  match cpRead s g.part (u bs 0x10 8) 8 with
  | .done w => .holds (predicate bs (BitVec.ofNat 64 (leNat w)))
  | .wait s => .wait s
  | .bad .. => .bad

/-! ### Starting nodes (R284, R286) -/

/-- Nodes of a partition that run. -/
def running (s : State) (part : Nat) : Nat :=
  s.graphs.foldl (fun n g => if g.2.part = part then n + (g.2.nodes.filter (fun r => r.2.phase == .running)).length else n) 0

/-- Nodes of a graph that could start: the clock, the index and the graph. -/
def readyNodes (gid : Nat) (g : Graph) : List (Nat × Nat × Nat) :=
  if g.done.isSome || g.halted.isSome then []
  else
    (nput (g.nodes.map (fun e => e.1)) 0).filterMap (fun n =>
      let r := nodeRun g n
      if r.phase = .idle ∧ r.ready ≠ 0 then some (r.ready, n, gid) else none)

/-- An earlier candidate: by clock, then node index, then graph. -/
def candBefore (a b : Nat × Nat × Nat) : Bool :=
  decide (a.1 < b.1) || (a.1 == b.1 && (decide (a.2.1 < b.2.1) || (a.2.1 == b.2.1 && decide (a.2.2 < b.2.2))))

/-- The node that starts next in a partition (R284). -/
def nextNode (s : State) (part : Nat) : Option (Nat × Nat × Nat) :=
  (s.graphs.foldl (fun l g => if g.2.part = part then l ++ readyNodes g.1 g.2 else l) []).foldl (fun b x =>
    match b with
    | none => some x
    | some y => if candBefore x y then some x else some y) none

/-- A LAUNCH node starts its launch once its image and descriptor can be read (R287). -/
def beginLaunch (s : State) (gid n : Nat) (g : Graph) (bs : List W8) : State :=
  match launchNode s g.part g.fn (u bs 0x10 8) (u bs 0x18 8) with
  | .wait s => s
  | .failed s st => if st = 0x0234 then ruinNode s gid n 0x0234 else finishNode s gid n bs st (nSuccs bs)
  | .started s id => modNode s gid n (fun r => { r with child := id })

/-- The node runs: LAUNCH starts its launch, SUBGRAPH its graph (R287, R289). -/
def beginNode (s : State) (gid n : Nat) (g : Graph) (bs : List W8) : State :=
  match nKind bs with
  | 1 => beginLaunch s gid n g bs
  | 7 =>
    if 8 ≤ g.level then finishNode s gid n bs 0x0233 (nSuccs bs)
    else
      let id := s.nextGr
      let s := { s with graphs := tput s.graphs id (newGraph g.part g.fn (u bs 0x10 8) (g.level + 1) s.clock), nextGr := id + 1 }
      modNode s gid n (fun r => { r with child := id })
  | _ => s

/-- GRAPH_NODE_START: the next node of its partition's order starts, while fewer than 64 run (R284, R286). -/
def execGraphNodeStart (gid n : Nat) (s : State) : Out :=
  .next (
    match tget s.graphs gid with
    | some g =>
      match nextNode s g.part with
      | some (_, m, k) =>
        if m = n ∧ k = gid ∧ running s g.part < 64 then
          if g.base % 64 ≠ 0 then ruinNode s gid n 0x0230
          else
            match readNode s g n with
            | .wait s => s
            | .bad .. => ruinNode s gid n 0x0234
            | .done bs =>
              if !nodeOK n bs then ruinNode s gid n 0x0230
              else beginNode (modNode s gid n (fun r => { r with phase := .running, child := 0, iter := 0, body := [], ready := 0, buf := [], held := none, wrote := false })) gid n g bs
        else s
      | none => s
    | none => s)

/-! ### Running nodes (R289) -/

/-- COPY reads its next byte, and once it has read them all writes those of its next word (R289). -/
def copyStep (s : State) (gid n : Nat) (g : Graph) (r : NodeRun) (bs : List W8) : State :=
  let len := u bs 0x20 8
  if r.buf.length < len then
    match cpRead s g.part (u bs 0x10 8 + r.buf.length) 1 with
    | .wait s => s
    | .bad .. => ruinNode s gid n 0x0234
    | .done x => modNode s gid n (fun r => { r with buf := r.buf ++ x })
  else if r.iter < len then
    let a := u bs 0x18 8 + r.iter
    let k := 8 - a % 8
    match cpWrite s g.part a ((r.buf.drop r.iter).take k) with
    | .wait s => s
    | .bad s _ _ => ruinNode s gid n 0x0234
    | .done s => modNode s gid n (fun r => { r with iter := min len (r.iter + k) })
  else finishNode s gid n bs 0 (nSuccs bs)

/-- The status with which a WAITNAME completes, once what it waits for has occurred in this run (R289). -/
def waitedStatus (s : State) (g : Graph) (bs : List W8) : Option W16 :=
  match waitedName bs with
  | none => none
  | some name =>
    let p := partOf s g.part
    if u bs 0x20 1 = 0 then
      if (dirEntry s g.part (nameTid name)).isSome && sealedName s g.part name || p.seals.any (fun e => e.1 == name && decide (g.started ≤ e.2)) then some 0 else none
    else
      (p.settles.find? (fun e => e.1 == nameTid name && decide (g.started ≤ e.2.1))).map (fun e => if e.2.2 = 0 then 0 else 0x0232)

/-- SIGNAL writes its word once, then posts its event (R289). -/
def signalStep (s : State) (gid n : Nat) (g : Graph) (r : NodeRun) (bs : List W8) : State :=
  let a := u bs 0x10 8
  let v := BitVec.ofNat 64 (u bs 0x18 8)
  let code : W32 := BitVec.ofNat 32 (u bs 0x20 4)
  let post := fun (s : State) =>
    match completions (dropNode s gid n 0) gid (nSuccs bs) with
    | (some _, _) =>
      let p := partOf s g.part
      finishNode (postEvent (setPart s g.part { p with events := p.events ++ [(code, v)] }) g.fn code v) gid n bs 0 (nSuccs bs)
    | (none, w) => { w with graphs := s.graphs }
  if a = 0 ∨ r.wrote then post s
  else
    match cpWrite s g.part a (leBytes 8 v.toNat) with
    | .wait s => s
    | .bad s _ _ => ruinNode s gid n 0x0234
    | .done s => post (modNode s gid n (fun r => { r with wrote := true }))

/-- One step of a running node other than a LOOP. -/
def nodeStep (s : State) (gid n : Nat) (g : Graph) (r : NodeRun) (bs : List W8) : State :=
  match nKind bs with
  | 1 =>
    if r.child = 0 then beginLaunch s gid n g bs
    else
      (match (tget s.launches r.child).bind (fun l => l.done) with
       | some st => finishNode s gid n bs st (nSuccs bs)
       | none => s)
  | 2 => copyStep s gid n g r bs
  | 3 =>
    (match testNode s g bs with
     | .holds x => finishNode s gid n bs 0 (((nSuccs bs).drop (if x then 0 else 1)).take 1)
     | .wait s => s
     | .bad => ruinNode s gid n 0x0234)
  | 5 =>
    (match waitedStatus s g bs with
     | some st => finishNode s gid n bs st (nSuccs bs)
     | none => s)
  | 6 => signalStep s gid n g r bs
  | 7 =>
    (match (tget s.graphs r.child).bind (fun x => x.done) with
     | some st => finishNode s gid n bs st (nSuccs bs)
     | none => s)
  | _ => s

/-- The status of a graph that has run to its end (R286, R291). -/
def graphStatus (g : Graph) : W16 :=
  match g.halted with
  | some st => st
  | none => if g.failed.isEmpty then 0 else 0x0237

/-- The status that a LAUNCH handle takes: the load status, or 0x0010, of the first node that failed with one, else the graph's (R89, R91; DEDUCED,
log 25). -/
def handleStatus (g : Graph) (st : W16) : W16 :=
  match g.failed.find? (fun f => decide (1 ≤ f.2.toNat) && decide (f.2.toNat ≤ 7) || f.2 == 0x0010) with
  | some f => f.2
  | none => st

/-- A graph completes when no node runs and none can start; a LAUNCH handle then takes its status (R89, R286). -/
def settleGraph (s : State) (gid : Nat) : State :=
  match tget s.graphs gid with
  | none => s
  | some g =>
    if g.done.isSome || g.nodes.any (fun e => e.2.phase == .running) || !(readyNodes gid g).isEmpty then s
    else
      let st := graphStatus g
      let s := { s with graphs := tput s.graphs gid { g with done := some st } }
      match s.ops.find? (fun e => e.2.body == .launch gid) with
      | some e => finishOp s e.1 (handleStatus g st)
      | none => s

/-- GRAPH_NODE_COMPLETE: a running node makes its next step or completes, and the graph completes with its last node (R286, R289). -/
def execGraphNodeComplete (gid n : Nat) (s : State) : Out :=
  .next (
    match tget s.graphs gid with
    | some g =>
      let r := nodeRun g n
      if r.phase = .running then
        match readNode s g n with
        | .wait s => s
        | .bad .. => settleGraph (ruinNode s gid n 0x0234) gid
        | .done bs => settleGraph (nodeStep s gid n g r bs) gid
      else settleGraph s gid
    | none => s)

/-! ### LOOP (R290) -/

/-- What a look at the nodes of a graph meets. -/
inductive ReachRes
  | wait (s : State)
  | bad
  | done (ns : List Nat)

/-- The nodes reachable from those to look at; `loops` also follows LOOP bodies. A node that cannot be read lists nothing when `soft`. -/
def reach (s : State) (g : Graph) (loops soft : Bool) : Nat → List Nat → List Nat → ReachRes
  | 0, _, seen => .done seen
  | _, [], seen => .done seen
  | k + 1, n :: todo, seen =>
    if seen.contains n then reach s g loops soft k todo seen
    else
      match readNode s g n with
      | .wait s => .wait s
      | .bad .. => if soft then reach s g loops soft k todo (nput seen n) else .bad
      | .done bs =>
        let more := (if 4 < u bs 2 1 then [] else nSuccs bs) ++ (if loops && nKind bs == 4 then [u bs 0x2A 2] else [])
        reach s g loops soft k (more ++ todo) (nput seen n)

/-- Enough for every node and every listing of the largest graph. -/
def reachFuel : Nat := 400000

/-- Some node of `ns` outside the body lists a node of the body; the LOOP's own body index is its one entry. -/
def entersBody (s : State) (g : Graph) (body : List Nat) : List Nat → Bool
  | [] => false
  | n :: ns =>
    (!body.contains n && (match readNode s g n with
      | .done bs => (if 4 < u bs 2 1 then [] else nSuccs bs).any (fun j => body.contains j)
      | _ => false)) || entersBody s g body ns

/-- The body of a LOOP: `none` inside when it makes the graph malformed. -/
inductive BodyRes
  | wait (s : State)
  | bad
  | malformed
  | body (ns : List Nat)

def loopBody (s : State) (g : Graph) (n : Nat) (bs : List W8) : BodyRes :=
  match reach s g false false reachFuel [u bs 0x2A 2] [] with
  | .wait s => .wait s
  | .bad => .bad
  | .done body =>
    if body.contains n then .malformed
    else
      match reach s g true true reachFuel [0, n] [] with
      | .wait s => .wait s
      | .bad => .bad
      | .done all => if entersBody s g body all then .malformed else .body body

/-- RunBody: the body's nodes start afresh, and the one at the body index is ready. -/
def enterBody (s : State) (gid n : Nat) (bs : List W8) (body : List Nat) : State :=
  let s := body.foldl (fun s j => modNode s gid j (fun _ => NodeRun.init)) s
  let s := modNode s gid (u bs 0x2A 2) (fun r => { r with got := 256, ready := s.clock + 1 })
  modNode s gid n (fun r => { r with child := 1, held := none, wrote := false })

/-- Write `i` once to one of the LOOP's two iteration words, then go on. -/
def iterWord (s : State) (gid n : Nat) (g : Graph) (r : NodeRun) (bs : List W8) (off i : Nat) (go : State → State) : State :=
  let a := u bs 0x30 8
  if a = 0 ∨ r.wrote then go s
  else
    match cpWrite s g.part (a + off) (leBytes 8 i) with
    | .wait s => s
    | .bad s _ _ => ruinNode s gid n 0x0234
    | .done s => go (modNode s gid n (fun r => { r with wrote := true }))

/-- The LOOP is left after `r.iter` iterations. -/
def leaveLoop (s : State) (gid n : Nat) (g : Graph) (r : NodeRun) (bs : List W8) : State :=
  iterWord s gid n g r bs 8 r.iter (fun s => finishNode s gid n bs 0 (nSuccs bs))

/-- RunBody: the node at the body index must await nothing; the iteration word is written first (R290, R355). -/
def runBody (s : State) (gid n : Nat) (g : Graph) (r : NodeRun) (bs : List W8) (body : List Nat) : State :=
  match readNode s g (u bs 0x2A 2) with
  | .wait s => s
  | .bad .. => ruinNode s gid n 0x0234
  | .done b =>
    if nPreds b ≠ 0 then ruinNode s gid n 0x0230
    else iterWord s gid n g r bs 0 r.iter (fun s => enterBody s gid n bs body)

/-- The head of the loop: its bound, the test first, whose outcome then stands, and the body. -/
def loopHead (s : State) (gid n : Nat) (g : Graph) (r : NodeRun) (bs : List W8) (body : List Nat) : State :=
  if u bs 0x2C 4 ≤ r.iter then leaveLoop s gid n g r bs
  else if nTestFirst bs then
    match r.held with
    | some x => if x then runBody s gid n g r bs body else leaveLoop s gid n g r bs
    | none =>
      match testNode s g bs with
      | .holds x => modNode s gid n (fun r => { r with held := some x })
      | .wait s => s
      | .bad => ruinNode s gid n 0x0234
  else runBody s gid n g r bs body

/-- A node of the body runs or can start. -/
def bodyBusy (g : Graph) (body : List Nat) : Bool :=
  body.any (fun j =>
    let r := nodeRun g j
    r.phase == .running || (g.halted.isNone && r.phase == .idle && r.ready != 0))

/-- One step of a LOOP: its body is found first, then its head, its body and its tail in turn. -/
def loopStep (s : State) (gid n : Nat) (g : Graph) (r : NodeRun) (bs : List W8) : State :=
  if r.body.isEmpty then
    match loopBody s g n bs with
    | .wait s => s
    | .bad => ruinNode s gid n 0x0234
    | .malformed => ruinNode s gid n 0x0230
    | .body ns => modNode s gid n (fun r => { r with body := ns })
  else if r.child = 0 then (if g.halted.isSome then dropNode s gid n 0 else loopHead s gid n g r bs r.body)
  else if r.child = 2 then (if g.halted.isSome then dropNode s gid n 0 else leaveLoop s gid n g r bs)
  else if bodyBusy g r.body then s
  else if g.halted.isSome then dropNode s gid n 0
  else if nTestFirst bs then modNode s gid n (fun r => { r with iter := r.iter + 1, child := 0 })
  else
    match testNode s g bs with
    | .holds x => modNode s gid n (fun r => { r with iter := r.iter + 1, child := if x then 0 else 2 })
    | .wait s => s
    | .bad => ruinNode s gid n 0x0234

/-- LOOP_ITERATION: a running LOOP makes its next step (R290). -/
def execLoopIteration (gid n : Nat) (s : State) : Out :=
  .next (
    match tget s.graphs gid with
    | some g =>
      let r := nodeRun g n
      if r.phase = .running then
        match readNode s g n with
        | .wait s => s
        | .bad .. => settleGraph (ruinNode s gid n 0x0234) gid
        | .done bs => if nKind bs = 4 then settleGraph (loopStep s gid n g r bs) gid else s
      else s
    | none => s)

end Sys2Proof.Machine
end

