-- ==== Sys2Proof/Machine/Convert.lean ====
section
/-! DEFINITION. Conversions of major 0x20 (R140 to R142) and the block formats and planes of major 0x21 (R128 to R130, R146 to R149,
R197). -/
namespace Sys2Proof.Machine
open Sys2Proof

/-- A source element: the slot, the register or the pair. -/
def srcElem (t : Ty) (rows : List Row) (slot l : Nat) : W64 :=
  if tyWidth t < 32 then BitVec.ofNat 64 (slotVal t (rget (rows.getD 0 zeroRow) l) slot) else elem t rows 0 l

/-- Replace a slot of a register. -/
def putSlot (t : Ty) (old : W32) (slot : Nat) (x : W64) : W32 :=
  let w := tyWidth t
  let m : W32 := BitVec.ofNat 32 ((2 ^ w - 1) * 2 ^ (w * slot))
  (old &&& ~~~m) ||| ((BitVec.ofNat 32 (x.toNat % 2 ^ w * 2 ^ (w * slot))))

/-- The register whose other bits a narrow result keeps, in `.2` the view after it (R140, R146). Where it names an armed store queue the spec does
not say what is kept of it: a free value (DESIGN CHOICE, log 37). -/
def keptRow (v : View) (d : VReg) : Row × View :=
  if (armed v.g d.toNat).isSome then
    let fr := freeLanes v.st
    (rowOf (fun l => (fr.1 l).setWidth 32), { v with st := fr.2 })
  else (readV v.g d.toNat, v)

/-- CVT and CVTSR under an effective mode (R140, R145). -/
def convertOp (h : Hdr) (src dst : Ty) (mode : View → RMode) (d a : VReg) (ss ds : BitVec 2) (s : State) : Out :=
  issue h [vsrc src a, vdst dst d] (fun v rows =>
    let md := mode v
    let m := execOf h v.g
    let res := (List.range 64).map (fun l =>
      if m.getLsbD l then convert src dst md (drawOf v md l ds.toNat) (srcElem src rows ss.toNat l) else ((0 : W64), (0 : Flg)))
    let x := fun l => (res.getD l (0, 0)).1
    let w :=
      if tyWidth dst < 32 then
        let k := keptRow v d
        writeRow k.2 d.toNat m (rowOf (fun l => putSlot dst (rget k.1 l) ds.toNat (x l)))
      else writeElems v dst d m x
    .done (bumpRound w md) (res.foldl (fun f e => f ||| e.2) 0)) s

def execCvt (h : Hdr) (src dst : Ty) (r : Rm) (d a : VReg) (ss ds : BitVec 2) (s : State) : Out :=
  convertOp h src dst (fun v => effMode r v.g.frm) d a ss ds s
def execCvtsr (h : Hdr) (src dst : Ty) (d a : VReg) (ss ds : BitVec 2) (s : State) : Out :=
  convertOp h src dst (fun _ => .st) d a ss ds s

/-! ### Block formats -/

/-- Registers that a block of 32 elements covers (R146). -/
def blkRegs (t : Ty) : Nat := if t = .f32 then 32 else 16

/-- Element `e` of a lane's block among the registers read. -/
def blkElem (t : Ty) (rows : List Row) (l e : Nat) : Nat :=
  if t = .f32 then (rget (rows.getD e zeroRow) l).toNat else slotVal t (rget (rows.getD (e / 2) zeroRow) l) (e % 2)

def ctNat : CodeTy → Nat
  | .int => 0
  | .e2m1 => 1
  | .pow2 => 2
  | .hyb => 3

/-- Byte `bs` of a register. -/
def byteOf (x : W32) (bs : Nat) : W8 := BitVec.ofNat 8 (x.toNat / 256 ^ bs)
def putByte (x : W32) (bs : Nat) (b : Nat) : W32 := (x &&& ~~~(BitVec.ofNat 32 (255 * 256 ^ bs))) ||| BitVec.ofNat 32 (b % 256 * 256 ^ bs)

/-- The scale exponent of a lane's block, 63 with NV when an element is NaN or infinite (R146). -/
def qscaleOf (ct : Nat) (xs : List FVal) : Nat × Flg :=
  if xs.any (fun x => match x with
      | .fin _ => false
      | _ => true) then (63, fNV)
  else (scaleOf (emaxOf ct) (xs.filterMap (fun x => match x with
      | .fin d => some d
      | _ => none)), 0)

/-- QSCALE (R146). -/
def execQscale (h : Hdr) (t : Ty) (d a : VReg) (bs : BitVec 2) (ct : CodeTy) (s : State) : Out :=
  issue h [.v a.toNat (blkRegs t) true false, vdst .n32 d] (fun v rows =>
    let m := execOf h v.g
    let k := keptRow v d
    let res := laneResults m (fun l =>
      let q := qscaleOf (ctNat ct) ((List.range 32).map (fun e => decF (fmtOf t) (blkElem t rows l e)))
      (putByte (rget k.1 l) bs.toNat (ctNat ct * 64 + q.1), q.2))
    .done (writeRow k.2 d.toNat m (resRow res)) (resFlags res)) s

/-- One code of QPACK and its flags (R147); an infinite element gives the end code with SA alone, as R142's table has it. -/
def qcode (b : W8) (mode : RMode) (noise : Nat) (x : FVal) : Nat × Flg :=
  if scaleExp b = 63 then (0, 0)
  else
    match x with
    | .nan _ => (0, fNV)
    | .inf n => (codeBits (scaleTy b) n (codeTop (scaleTy b) n), fSA)
    | .fin y => roundCode (scaleTy b) mode noise (dyScale y (64 - (scaleExp b : Int)))

/-- Write consecutive registers from `d`, one row each. -/
def writeRows (v : View) (d : Nat) (m : Lanes) : List Row → View
  | [] => v
  | r :: rs => writeRows (writeRow v d m r) (d + 1) m rs

def execQpack (h : Hdr) (t : Ty) (r : Rm) (d a b : VReg) (bs : BitVec 2) (s : State) : Out :=
  issue h [.v a.toNat (blkRegs t) true false, vsrc .n32 b, .v d.toNat 4 false true] (fun v rows =>
    let mode := effMode r v.g.frm
    let m := execOf h v.g
    let n := blkRegs t
    let lane := fun l => (List.range 32).map (fun e =>
      qcode (byteOf (rget (rows.getD n zeroRow) l) bs.toNat) mode (drawOf v mode l e) (decF (fmtOf t) (blkElem t rows l e)))
    let res := (List.range 64).map (fun l => if m.getLsbD l then lane l else [])
    let word := fun l k => BitVec.ofNat 32 ((List.range 8).foldl (fun x i => x + ((res.getD l []).getD (8 * k + i) (0, 0)).1 * 16 ^ i) 0)
    let w := writeRows v d.toNat m ((List.range 4).map (fun k => rowOf (fun l => word l k)))
    .done (bumpRound w mode) (res.foldl (fun f xs => xs.foldl (fun g e => g ||| e.2) f) 0)) s

/-- The value of a code under its scale byte in a format: exact, the canonical NaN when the block is invalid (R128, R129, R148). -/
def unpackCode (f : Fmt) (b : W8) (code : Nat) : Nat :=
  if scaleExp b = 63 then nanBits f else (roundF f .ne 0 (dyScale (codeDy (scaleTy b) code) (scaleExp b))).1

def execQunpk (h : Hdr) (t : Ty) (d a b : VReg) (bs : BitVec 2) (s : State) : Out :=
  issue h [.v a.toNat 4 true false, vsrc .n32 b, .v d.toNat (blkRegs t) false true] (fun v rows =>
    let x := fun l e => unpackCode (fmtOf t) (byteOf (rget (rows.getD 4 zeroRow) l) bs.toNat)
      ((rget (rows.getD (e / 8) zeroRow) l).toNat / 16 ^ (e % 8) % 16)
    let rs := if t = .f32 then (List.range 32).map (fun e => rowOf (fun l => BitVec.ofNat 32 (x l e)))
      else (List.range 16).map (fun k => rowOf (fun l => BitVec.ofNat 32 (x l (2 * k) + 65536 * x l (2 * k + 1))))
    .done (writeRows v d.toNat (execOf h v.g) rs) 0) s

/-- PLANE: bit e of plane p is bit p of element e (R197). -/
def execPlane (h : Hdr) (t : Ty) (d a : VReg) (s : State) : Out :=
  let P := tyWidth t
  issue h [.v a.toNat P true false, .v d.toNat P false true] (fun v rows =>
    let n := 32 / P
    let x := fun l e p => (rget (rows.getD (e / n) zeroRow) l).getLsbD (P * (e % n) + p)
    .done (writeRows v d.toNat (execOf h v.g) ((List.range P).map (fun p =>
      rowOf (fun l => BitVec.ofNat 32 ((List.range 32).foldl (fun w e => w + (if x l e p then 2 ^ e else 0)) 0))))) 0) s

end Sys2Proof.Machine
end

