-- ==== Sys2Proof/Machine/Ordering.lean ====
section
/-! DEFINITION. FENCE and COMMIT of major 0x34 (R188 to R191), the stage queues of major 0x35 (R194) and the events of commits, final commits
and accepted entries (R85, R190, R194). -/
namespace Sys2Proof.Machine
open Sys2Proof

/-- FENCE: in one interleaving its own accesses are already in order; an acquire at .pool or .sys acts on shared pages (R189, R279). -/
def execFence (h : Hdr) (sc : Scope) (m : FenceMode) (s : State) : Out :=
  issue h [] (fun v _ =>
    if m ≠ .rel ∧ widePool sc then .done { v with st := acquirePool v.st v.b.part } 0 else .done v 0) s

/-- COMMIT: the group arrives and waits under reason 7 until the commit takes effect (R188, R190). -/
def execCommit (h : Hdr) (sc : Scope) (s : State) : Out :=
  issue h [] (fun v _ =>
    if !h.safe then contract 7
    else .hold { v with g := { v.g with arrival := .commit sc h.mask } } 7) s

def scopeNum : Scope → Nat
  | .lane => 0 | .group => 1 | .block => 2 | .core => 3 | .cluster => 4 | .die => 5 | .pkg => 6 | .host => 7 | .fabric => 8
  | .pool => 9 | .sys => 10

def wider (a b : Scope) : Scope := if scopeNum a < scopeNum b then b else a

/-- Scope and mask of an arrival at a COMMIT. -/
def arrivalOf (g : Group) : Option (Scope × W64) :=
  match g.arrival with
  | .commit sc m => some (sc, m)
  | _ => none

/-- Every group that has not ENDED has arrived at the commit. -/
def allArrived (b : Block) : Bool :=
  b.groups.any (fun g => g.run != .ended) && b.groups.all (fun g => g.run == .ended || (arrivalOf g).isSome)

/-- A group goes on at the word after its mask word (R190); its issue slot is still to come (R41). -/
def pastCommit (g : Group) : Group :=
  match arrivalOf g with
  | some (_, m) =>
    { g with offset := g.offset + 2, safe := some m, arrival := .none, run := .issuing, waitS := none, keyed := 0, tried := true, owed := true }
  | none => g

/-- COMMIT_TAKE_EFFECT (R190, R191): the commit observes every operation that it awaited, so that an acquire of one takes place (R186, R251). -/
def execCommitTakeEffect (uid : Nat) (s : State) : Out :=
  .next (
    match tget s.blocks uid with
    | some b =>
      if b.phase = .resident ∧ b.fault = none ∧ b.ending = none ∧ allArrived b ∧ (opsOf s uid).isEmpty then
        let sc := b.groups.foldl (fun a g => match arrivalOf g with
          | some (x, _) => wider a x
          | none => a) Scope.lane
        let masks := b.groups.map (fun g => match arrivalOf g with
          | some (_, m) => m
          | none => 0)
        let s := commitProv s uid sc
        let b := (tget s.blocks uid).getD b
        let b := { b with groups := b.groups.map pastCommit, commits := b.commits + 1, log := [], partners := [], refires := 0 }
        let r := makeRecord b masks
        let s := setBlk s uid { b with record := some r, groups := b.groups.map (fun g => { g with acq := [] }) }
        let s := if b.groups.any (fun g => !g.acq.isEmpty) then acquirePool s b.part else s
        writeResume s uid b r
      else s
    | none => s)

/-- The scope of a block's final commit: its launch's (R85, R287). -/
def finalScope (s : State) (b : Block) : Scope :=
  match tget s.launches b.launch with
  | some l => l.scope
  | none => .block

/-- FINAL_COMMIT: every group has ended, its last clock counted, and every operation has completed; a stopped or retired block completes without a commit (R85, R233,
R332). A complete block is reported in its turn (R12). -/
def execFinalCommit (uid : Nat) (s : State) : Out :=
  .next (
    match tget s.blocks uid with
    | some b =>
      if b.kind ≠ .handler ∧ (b.phase = .resident ∨ b.phase = .saved ∨ (b.phase = .waiting ∧ b.ending.isSome)) ∧
         b.groups.all (fun g => g.run == .ended && (b.ending.isSome || (g.bubbles == 0 && !g.issued))) ∧ (opsOf s uid).isEmpty ∧ b.fault = none then
        let st : W16 := b.ending.getD 0
        if b.ending.isSome then completeBlock s uid st
        else
          let s := commitProv s uid (finalScope s b)
          completeBlock (match tget s.blocks uid with
            | some b => setBlk s uid { b with commits := b.commits + 1 }
            | none => s) uid 0
      else reportBlock s uid
    | none => s)

/-! ### Stage queues (R194) -/

/-- ENQ never stalls at issue (R194). -/
def execEnq (h : Hdr) (d : HReg) (a b : SReg) (n : BitVec 3) (s : State) : Out :=
  issue h [.hd d, ssrc a, ssrc b] (fun v _ => .done (startKeyed v d (.enq n (readS v.g a) (readS v.g b))) 0) s

/-- DEQ: the two words of the entry that fired the block, or all ones (R194). -/
def execDeq (h : Hdr) (a b : SReg) (s : State) : Out :=
  issue h [sdst a, sdst b] (fun v _ =>
    let w := v.b.entryW.getD (0xFFFFFFFFFFFFFFFF, 0xFFFFFFFFFFFFFFFF)
    .done { v with g := writeS (writeS v.g a w.1) b w.2 } 0) s

/-- An earlier ENQ of the same group to the same stage is still outstanding. -/
def enqEarlier (s : State) (id : Nat) (o : Op) (n : BitVec 3) : Bool :=
  s.ops.any (fun e => decide (e.1 < id) && e.2.blk == o.blk && e.2.gid == o.gid && (match e.2.body with
    | .enq m _ _ => m == n
    | _ => false))

/-- ENQ_ACCEPT: the entry stands in the stage's queue, in the issue order of its group; a full queue keeps it PENDING (R194, R292). Each end waits for
room for its log entry (R193, R353). -/
def execEnqAccept (id : Nat) (s : State) : Out :=
  .next (
    match tget s.ops id with
    | some o =>
      match o.body with
      | .enq n a b =>
        if enqEarlier s id o n then s
        else
          match tget s.blocks o.blk with
          | none => s
          | some bl =>
            match stageOf s bl.launch n.toNat with
            | none => endLogged s id o 0x0104
            | some st =>
              if st.fire ≠ 2 then endLogged s id o 0x0104
              else if st.retired then endLogged s id o 0x0105
              else if st.qcap ≤ st.queue.length then s
              else match lumberForLog s bl.part o.body with
              | .wait => s
              | .exhausted => finishBad s id o (8, 0)
              | .room => finishOp (modStage s bl.launch n.toNat (fun st => { st with queue := st.queue ++ [(a, b, s.clock)] })) id 0
      | _ => s
    | none => s)

end Sys2Proof.Machine
end

