-- ==== Sys2Proof/Machine/Sched.lean ====
section
/-! DEFINITION. Sequential fetch across markers and the wake from IDLE (R25, R58, R75), dispatch and placement (R11 to R15, R293, R294),
pre-emption of idle blocks (R42) and stage affinities (R295). -/
namespace Sys2Proof.Machine
open Sys2Proof

/-! ### Fetch at a marker (R54, R58, R75) -/

/-- The dist of the marker of the group's label. -/
def curDist (v : View) : Option Nat :=
  let ws := wordsOf v.st v.b v.g
  ((markerIdx ws v.g.label).bind (fun i => ws[i]?)).map mkDist

/-- The word at the group's position. -/
def curWord (v : View) : Option W64 := (posIdx v).bind (fun i => (wordsOf v.st v.b v.g)[i]?)

/-- The position is that of the next marker. -/
def atBlockEnd (v : View) : Bool := curDist v == some v.g.offset.toNat

/-- The word at the position is an instruction with S whose mask word lies beyond the image, or whose mask word stands where the next marker must
stand and is none. A marker in the mask word's place is refused by step 3 of R54. -/
def maskMissing (v : View) : Bool :=
  match curWord v, posIdx v with
  | some w, some i =>
    let ws := wordsOf v.st v.b v.g
    wSafe w && (match decode w (ws.getD (i + 1) 0) with
      | .ok _ => decide (ws.length ≤ i + 1) || curDist v == some (v.g.offset.toNat + 1)
      | .error _ => false)
  | _, _ => false

/-- Sequential fetch meets a marker out of place, or passes the place of the next marker or the end of the image, with an instruction or with its mask
word (R54, R58). -/
def chainBroken (v : View) : Bool :=
  !atBlockEnd v && ((curDist v).any (fun d => decide (d < v.g.offset.toNat)) || maskMissing v || (match curWord v with
    | some w => isMarker w
    | none => true))

/-- END_BLOCK: the next marker is reached, and the block ends for the lanes that reach it (R75). -/
def execEndBlock (s : State) : Out :=
  .next (
    match currentView s with
    | some v => if atBlockEnd v then flush (endBlockWith v v.g.active) else s
    | none => s)

/-- BROKEN_CHAIN: the fault names the current marker (R58). -/
def execBrokenChain (s : State) : Out :=
  .next (
    match currentView s with
    | some v => if chainBroken v then flush (brokenChainAt v ((markerIdx (wordsOf v.st v.b v.g) v.g.label).getD 0)) else s
    | none => s)

/-! ### Waking (R25, R75) -/

/-- The block's groups may go on: it stands on a core and is neither parked, halted nor ended. -/
def blockLive (b : Block) : Bool := b.phase == .resident && b.fault.isNone && !b.halted && b.ending.isNone

/-- IDLE_WAKE: an idle group with an eligible label seeks again from the label at which it went idle (R25, R75). -/
def execIdleWake (uid gid : Nat) (s : State) : Out :=
  .next (
    match viewAt s uid gid with
    | some v =>
      if blockLive v.b && v.g.run == .idle && !v.g.stopped && (nextEligible v.g (topFrame v.g).entry.toNat).isSome then
        flush (runSweep (.seek v.g.seek.toNat) { v with g := { v.g with code := newestCode s v.b } })
      else s
    | none => s)

/-! ### Dispatchable blocks (R12, R293) -/

/-- What waits for placement: the next block of a stage, a block that exists but has never been placed, a saved block, or all fire-mode-0
blocks of a phased launch together. -/
inductive Source
  | fresh (l n : Nat)
  | waiting (uid : Nat)
  | saved (uid : Nat)
  | phased (l : Nat)
deriving DecidableEq, Repr

/-- A candidate with its place in the order of R293. -/
structure Cand where
  ready : Nat
  start : Nat
  lch   : Nat
  stage : Nat
  index : Nat
  src   : Source
deriving DecidableEq, Repr

def Cand.key (c : Cand) : List Nat := [c.ready, c.start, c.lch, c.stage, c.index]

/-- Insert into the order of R293, after equals. -/
def candInsert (c : Cand) : List Cand → List Cand
  | [] => [c]
  | d :: t => if lexBefore c.key d.key then c :: d :: t else d :: candInsert c t

/-- Sequence numbers of a launch that are not yet reported start here (R12). -/
def windowLow (s : State) (l : Nat) (n : Nat) : Nat :=
  s.blocks.foldl (fun m e =>
    if e.2.launch = l ∧ e.2.kind = .launched ∧ e.2.reported = false ∧ e.2.first.isSome then min m e.2.seqno.toNat else m) n

/-- The next sequence number of the launch lies within the retire window (R12). -/
def windowOpen (s : State) (id : Nat) (l : Launch) : Bool := decide (l.seq < windowLow s id l.seq + 256)

/-- When the next block of a stage became dispatchable: `none` when it has none. -/
def stageReady (st : Stage) : Option Nat :=
  if st.fire ≤ 1 then (if st.fired && decide (st.next < st.count) then some st.ready else none)
  else if st.fire = 2 then st.queue.head?.map (fun q => q.2.2)
  else st.firings.head?.map (fun f => f.2.2)

/-- The unplaced fire-mode-0 blocks of a phased launch. -/
def phasedPending (l : Launch) : Bool :=
  l.phased && l.stages.any (fun st => st.fire == 0 && decide (st.next < st.count))

def freshCands (s : State) (id : Nat) (l : Launch) : List Cand :=
  if l.done.isSome then []
  else
    (if phasedPending l then [{ ready := l.start, start := l.start, lch := id, stage := 0, index := 0, src := .phased id }] else []) ++
    (l.stages.zip (List.range l.stages.length)).filterMap (fun e =>
      if (l.phased && e.1.fire == 0) || !windowOpen s id l then none
      else (stageReady e.1).map (fun r =>
        { ready := r, start := l.start, lch := id, stage := e.2, index := e.1.next, src := .fresh id e.2 }))

/-- A launched block that waits for its first placement keeps within the window; one saved for another waits until that one is placed. One whose
groups have all ended needs no core, unless it carries a fault to deliver (R334). -/
def blockCand (s : State) (uid : Nat) (b : Block) : Option Cand :=
  let c := fun (src : Source) => some
    { ready := b.ready, start := ((tget s.launches b.launch).map (fun l => l.start)).getD 0, lch := b.launch, stage := b.stage.toNat,
      index := b.index.toNat, src := src }
  match b.phase with
  | .waiting =>
    if b.ending.isSome then none
    else
      (match b.kind, tget s.launches b.launch with
       | .launched, some l => if windowOpen s b.launch l then c (.waiting uid) else none
       | _, _ => c (.waiting uid))
  | .saved =>
    let blocked := match b.behind.bind (fun w => tget s.blocks w) with
      | some w => (w.phase == .waiting || w.phase == .saved) && w.ending.isNone
      | none => false
    if blocked || b.ending.isSome || (b.fault.isNone && b.groups.all (fun g => g.run == .ended)) then none else c (.saved uid)
  | _ => none

/-- The function's work may be placed now: it is not paused, and under slicing its context has the turn (R349). -/
def mayRun (s : State) (part fn : Nat) : Bool :=
  !(fnOf s fn).paused && (pctl s part 0x115 == 0 || ((partOf s part).ctx == fn && (partOf s part).drain.isNone && (partOf s part).sliceLen != 0))

/-- Every candidate of a partition in the order of R293. -/
def candidates (s : State) (part : Nat) : List Cand :=
  let a := s.launches.foldl (fun l e => if e.2.part = part ∧ mayRun s part e.2.fn then (freshCands s e.1 e.2).foldl (fun l c => candInsert c l) l else l) []
  s.blocks.foldl (fun l e =>
    if e.2.part = part ∧ e.2.kind ≠ .handler ∧ mayRun s part e.2.fn then
      match blockCand s e.1 e.2 with
      | some c => candInsert c l
      | none => l
    else l) a

/-! ### Rooms and cores (R15, R294, R348) -/

/-- What resident blocks leave of a core. -/
def roomOf (s : State) (c : Nat) : Room :=
  s.blocks.foldl (fun r e =>
    match e.2.phase, e.2.place, e.2.kind with
    | _, _, .handler => r
    | .resident, some p, _ => if p.core = c then takeRoom r p e.2.fp else r
    | _, _, _ => r) (emptyRoom c)

/-- The cores on which a partition places blocks: those of its clusters that no child holds. -/
def ownCores (s : State) (part : Nat) : List Nat := (stopsOf s part).filter (fun c => ownerPart s c == part)

def rowsUsed (r : Room) : Nat := r.rows.foldl (fun n x => n + (x.2 - x.1)) 0

/-- Resident blocks of a stage on a cluster. -/
def stageOn (s : State) (l : Nat) (stage : Nat) (cluster : Nat) : Nat :=
  (s.blocks.filter (fun e => e.2.phase == .resident && e.2.kind != .handler && e.2.launch == l && e.2.stage.toNat == stage &&
    clusterOf (blkCore e.2) == cluster)).length

/-- A core's affinity keeps a block of this stage away, unless it has waited 4,096 clocks (R294). -/
def passedOver (s : State) (l stage ready c : Nat) : Bool :=
  decide (s.clock < ready + 4096) && (match (coreOf s c).affinity with
    | some (k, st) => k == l && st != stage
    | none => false)

/-- The place that R294 chooses. -/
def choosePlace (s : State) (part l stage ready : Nat) (fp : Footprint) : Option Place :=
  let opts := (ownCores s part).filterMap (fun c =>
    if passedOver s l stage ready c then none
    else
      let r := roomOf s c
      (fitRoom r fp).map (fun p => ([stageOn s l stage (clusterOf c), rowsUsed r, coreReg c], p)))
  (opts.foldl (fun b x => match b with
    | none => some x
    | some y => if lexBefore x.1 y.1 then some x else some y) none).map (fun x => x.2)

/-- The footprint fits somewhere in the partition now. -/
def fitsNow (s : State) (part : Nat) (fp : Footprint) : Bool := (ownCores s part).any (fun c => (fitRoom (roomOf s c) fp).isSome)

/-! ### Placing (R26, R27) -/

/-- The next block of a stage leaves its stage's list and waits as a block of its own. -/
def makeBlock (s : State) (lch n : Nat) : Option (State × Nat) :=
  match tget s.launches lch with
  | none => none
  | some l =>
    match l.stages[n]? with
    | none => none
    | some st =>
      match stageReady st with
      | none => none
      | some r =>
        let uid := s.nextUid
        let nb : W32 := if st.fire ≤ 1 then BitVec.ofNat 32 st.count else 0xFFFFFFFF
        let b := newBlock .launched l.part l.fn lch l.lid (BitVec.ofNat 3 n) (BitVec.ofNat 32 st.next) nb 0 l.seed l.image st.entry st.fp r
          (argTbl l.args 16) (argTbl l.caps 8)
        let b := if st.fire = 2 then { b with entryW := st.queue.head?.map (fun q => (q.1, q.2.1)) }
          else if st.fire = 3 then { b with sub := st.firings.head?.map (fun f => (f.1, f.2.1)), entryW := st.firings.head?.map (fun f => namePair f.1 f.2.1) }
          else b
        let s := { s with blocks := tput s.blocks uid b, nextUid := uid + 1 }
        some (modStage s lch n (fun st => { st with next := st.next + 1, queue := st.queue.tail, firings := st.firings.tail }), uid)

/-- Put a waiting block on its core for the first time: zeroed scratchpad, fresh groups, its sequence number, its groups started (R12, R26,
R27). -/
def firstPlace (s : State) (uid : Nat) (p : Place) : State :=
  match tget s.blocks uid with
  | none => s
  | some b =>
    let seq := ((tget s.launches b.launch).map (fun l => l.seq)).getD 0
    let b := { b with phase := .resident, place := some p, first := some s.clock, groups := newGroups s b,
                      seqno := if b.kind = .launched then BitVec.ofNat 32 seq else b.seqno }
    let s := setBlk s uid b
    let s := if b.kind = .launched then { s with launches := tmod s.launches b.launch (fun l => { l with seq := l.seq + 1 }) } else s
    let s := { s with clusters := tmod s.clusters (clusterOf p.core) (fun c => { c with gated := false, gateAt := none }) }
    startGroups s uid b.fp.groups

/-- Offer a never-placed block its place. -/
def offerBlock (s : State) (part uid : Nat) : Option State :=
  match tget s.blocks uid with
  | none => none
  | some b => (choosePlace s part b.launch b.stage.toNat b.ready b.fp).map (fun p => firstPlace s uid p)

/-- Place the next block of a stage. -/
def offerFresh (s : State) (part l n : Nat) : Option State := (makeBlock s l n).bind (fun x => offerBlock x.1 part x.2)

/-- Place `k` blocks of a stage one after another, each on the core that R294 chooses. -/
def offerMany (s : State) (part l n : Nat) : Nat → Option State
  | 0 => some s
  | k + 1 => (offerFresh s part l n).bind (fun s => offerMany s part l n k)

/-- Place blocks of a phased launch at given places. -/
def placeAt (s : State) (l : Nat) : List (Nat × Place) → Option State
  | [] => some s
  | (n, p) :: rest => (makeBlock s l n).bind (fun x => placeAt (firstPlace x.1 x.2 p) l rest)

/-- Every fire-mode-0 block of a phased launch, all or none (R101). -/
def offerPhased (s : State) (part id : Nat) : Option State :=
  match tget s.launches id with
  | none => none
  | some l =>
    let greedy := (l.stages.zip (List.range l.stages.length)).foldl (fun acc e =>
      if e.1.fire = 0 then acc.bind (fun s => offerMany s part id e.2 e.1.count) else acc) (some s)
    match greedy with
    | some s => some s
    | none => (packAll ((ownCores s part).map (roomOf s)) (phasedBlocks l)).bind (fun ps => placeAt s id ps)

/-- Offer one candidate its place; a saved block returns by its own event (R344). -/
def offer (s : State) (part : Nat) (c : Cand) : Option State :=
  match c.src with
  | .fresh l n => offerFresh s part l n
  | .waiting u => offerBlock s part u
  | .phased l => offerPhased s part l
  | .saved _ => none

/-- The first candidate that finds room; a saved block that fits comes first when it is older. -/
def placeFirst (s : State) (part : Nat) : List Cand → State
  | [] => s
  | c :: rest =>
    match c.src with
    | .saved u =>
      (match tget s.blocks u with
       | some b => if (choosePlace s part b.launch b.stage.toNat b.ready b.fp).isSome then s else placeFirst s part rest
       | none => placeFirst s part rest)
    | _ =>
      match offer s part c with
      | some s => s
      | none => placeFirst s part rest

/-- BLOCK_PLACEMENT: the oldest dispatchable block of the partition for which there is room is placed (R293, R294). -/
def execBlockPlacement (part : Nat) (s : State) : Out := .next (placeFirst s part (candidates s part))

/-! ### Pre-empting idle blocks (R42) -/

/-- A block's groups have all been stalled or idle for 65,536 clocks. -/
def longIdle (l : Nat) (b : Block) : Bool :=
  b.kind != .handler && b.phase == .resident && b.launch == l && b.fault.isNone && b.ending.isNone && !b.preempt && decide (65536 ≤ b.idle)

/-- The block of a launch that is idle longest, ties to the higher sequence number. -/
def idlest (s : State) (l : Nat) : Option (Nat × Block) :=
  (s.blocks.filter (fun e => longIdle l e.2)).foldl (fun b x =>
    match b with
    | none => some x
    | some y => if y.2.idle < x.2.idle ∨ (y.2.idle = x.2.idle ∧ y.2.seqno < x.2.seqno) then some x else some y) none

/-- A block of the launch gives up its place already. -/
def givingUp (s : State) (l : Nat) : Bool :=
  s.blocks.any (fun e => e.2.launch == l && e.2.phase == .resident && e.2.preempt && e.2.behind.isSome)

/-- Footprint of a candidate. -/
def candFp (s : State) (c : Cand) : Option Footprint :=
  match c.src with
  | .fresh l n => (stageOf s l n).map (fun st => st.fp)
  | .waiting u | .saved u => (tget s.blocks u).map (fun b => b.fp)
  | .phased _ => none

/-- The candidate as a block that waits, behind no other. -/
def candBlock (s : State) (c : Cand) : Option (State × Nat) :=
  match c.src with
  | .fresh l n => makeBlock s l n
  | .waiting u => some (s, u)
  | .saved u => some ({ s with blocks := tmod s.blocks u (fun b => { b with behind := none }) }, u)
  | .phased _ => none

/-- The first candidate without room whose launch has an idle block, and that block. -/
def idleVictim (s : State) (part : Nat) : List Cand → Option (Cand × Nat)
  | [] => none
  | c :: rest =>
    match candFp s c, idlest s c.lch with
    | some fp, some (u, _) => if !fitsNow s part fp && !givingUp s c.lch then some (c, u) else idleVictim s part rest
    | _, _ => idleVictim s part rest

/-- IDLE_BLOCK_PREEMPT: one idle block of the launch of a block without room is asked to give up its place (R42). -/
def execIdleBlockPreempt (part : Nat) (s : State) : Out :=
  .next (
    match idleVictim s part (candidates s part) with
    | some (c, u) =>
      (match candBlock s c with
       | some (s, w) => { s with blocks := tmod s.blocks u (fun b => { b with preempt := true, behind := some w }) }
       | none => s)
    | none => s)

/-! ### Stage affinities (R295) -/

/-- The demand of a stage. -/
def demand (s : State) (id : Nat) (l : Launch) (n : Nat) (st : Stage) : Nat :=
  let back := s.ops.any (fun o => match o.2.body, tget s.blocks o.2.blk with
    | .enq m _ _, some b => b.launch == id && b.stage.toNat == n && (match l.stages[m.toNat]? with
      | some t => t.fire == 2 && decide (t.qcap ≤ t.queue.length)
      | none => false)
    | _, _ => false)
  if back then 0
  else
    (if st.fire ≤ 1 && st.fired then st.count - st.next else 0) + st.queue.length + st.firings.length +
      (s.blocks.filter (fun e => e.2.launch == id && e.2.stage.toNat == n && (e.2.phase == .waiting || e.2.phase == .saved) && e.2.ending.isNone)).length

/-- The cores that hold a block of the launch or carry its affinity, in descending %core. -/
def launchCores (s : State) (id : Nat) (part : Nat) : List Nat :=
  ((stopsOf s part).filter (fun c =>
    (match (coreOf s c).affinity with
     | some (k, _) => k == id
     | none => false) ||
    s.blocks.any (fun e => e.2.phase == .resident && e.2.kind != .handler && e.2.launch == id && blkCore e.2 == c))).reverse

/-- Stages in descending demand, ties to the lower stage. -/
def demandOrder (ds : List Nat) : List Nat :=
  (List.range ds.length).foldl (fun l i =>
    (l.filter (fun j => decide (ds.getD i 0 ≤ ds.getD j 0))) ++ [i] ++ (l.filter (fun j => decide (ds.getD j 0 < ds.getD i 0)))) []

/-- The cores each stage receives: the floors of its part, then one more each in descending demand until C is used up. -/
def shares (c : Nat) (ds : List Nat) : List Nat :=
  let sum := ds.foldl (· + ·) 0
  let base := ds.map (fun d => c * d / sum)
  let left := c - base.foldl (· + ·) 0
  (List.range ds.length).map (fun i => base.getD i 0 + (if ((demandOrder ds).take left).contains i then 1 else 0))

/-- Move cores to the stages below their share, from the stages above it or from no stage. -/
def moveCores (s : State) (id : Nat) (want : List Nat) : List Nat → List Nat → State
  | [], _ => s
  | c :: cs, have' =>
    let now : Option Nat := match (coreOf s c).affinity with
      | some (k, st) => if k = id then some st else none
      | none => none
    let above := match now with
      | some st => decide (want.getD st 0 < have'.getD st 0)
      | none => true
    let below := (List.range want.length).find? (fun i => decide (have'.getD i 0 < want.getD i 0))
    match above, below with
    | true, some t =>
      let have'' := match now with
        | some st => listSet have' st (have'.getD st 0 - 1)
        | none => have'
      moveCores (setCore s c { coreOf s c with affinity := some (id, t) }) id want cs (listSet have'' t (have''.getD t 0 + 1))
    | _, _ => moveCores s id want cs have'

/-- AFFINITY_REASSIGN of a launch with two or more stages, every 4,096 clocks (R295). -/
def execAffinityReassign (id : Nat) (s : State) : Out :=
  .next (
    match tget s.launches id with
    | some l =>
      if l.done.isSome || decide (l.stages.length < 2) || decide (s.clock < l.affAt + 4096) then s
      else
        let s := { s with launches := tput s.launches id { l with affAt := s.clock } }
        let ds : List Nat := (l.stages.zip (List.range l.stages.length)).map (fun e => demand s id l e.2 e.1)
        if ds.all (· == 0) then s
        else
          let cores := launchCores s id l.part
          let have' := (List.range l.stages.length).map (fun n => (cores.filter (fun c => (coreOf s c).affinity == some (id, n))).length)
          moveCores s id (shares cores.length ds) cores have'
    | none => s)

end Sys2Proof.Machine
end

