-- ==== Sys2Proof/Machine/MemEvents.lean ====
section
/-! DEFINITION. Events of the memories and links: pages becoming resident and leaving (R273 to R277), spills of the lumber room (R282), check
word failures (R316), link retries (R317) and rate controllers (R319). -/
namespace Sys2Proof.Machine
open Sys2Proof

/-! ### Pages (R273, R274, R277) -/

def freshKey {α : Type} (t : Tbl α) : Nat :=
  match t.getLast? with
  | some e => e.1 + 1
  | none => 1

/-- Every waiter of the entry is woken: PAGEREQs lose the page, and complete with their last one (R274). -/
def wakePage (s : State) (part vpn : Nat) (l : Leaf) : State :=
  s.ops.foldl (fun s e =>
    match e.2.body with
    | .pages vs =>
      if partOfBlk s e.2.blk = part then
        match vs.filter (fun v => pageVpn l v != pageVpn l vpn) with
        | [] => finishOp s e.1 0
        | rest => setBody s e.1 (.pages rest)
      else s
    | _ => s) s

/-- The entry is gone. -/
def dropWait (s : State) (part tok : Nat) : State :=
  let p := partOf s part
  setPart s part { p with wait := tdel p.wait tok }

/-- Held events of every function are tried again once a page has come (R351). -/
def retryEvents (s : State) : State := s.fns.foldl (fun s f => if f.2.held.isEmpty then s else deliverAll s f.1) s

/-- The page with the cellar's contents, which take their check words at the cellar port; its home asks the port for every line (R299, R315, R323). -/
def loadPage (s : State) (part vpn : Nat) (l : Leaf) : State :=
  let data := frameData s.cellar l.frame (pageSize l)
  let pg : Page := { part := part, vpn := pageVpn l vpn, leaf := l, data := data, dirty := [], since := s.clock, used := s.clock, evicting := false,
                     words := wordsOfPage data }
  { s with pages := tput s.pages (freshKey s.pages) pg, fills := s.fills ++ [pageFill pg []] }

/-- PAGE_RESIDENT: the fetch of a wait-table entry ends; where the page has become invalid its entry only goes (R273, R274, R275). -/
def execPageResident (part tok : Nat) (s : State) : Out :=
  .next (
    match tget (partOf s part).wait tok with
    | some e =>
      if e.state ≠ .fetching then s
      else
        match walk s part e.vpn with
        | .error _ => dropWait s part tok
        | .ok l =>
          match findPage s part e.vpn l.frame with
          | some (_, pg) => if pg.evicting then s else wakePage (dropWait s part tok) part e.vpn l
          | none => if framesFit s part l e.vpn then retryEvents (wakePage (dropWait (loadPage s part e.vpn l) part tok) part e.vpn l) else s
    | none => s)

/-- Slices in which the page of a fetching entry still lacks a frame. -/
def lacking (s : State) (part : Nat) (e : WaitEnt) : List Nat :=
  if e.state ≠ .fetching then []
  else
    match walk s part e.vpn with
    | .error _ => []
    | .ok l =>
      if (findPage s part e.vpn l.frame).isSome then []
      else
        let ps := piecesOf l e.vpn
        (ps.map (homeIdx s part)).filter (fun i => !slicesFit s part i (ps.filter (fun w => homeIdx s part w == i)).length)

/-- The page holds a frame of the slice at a stop. -/
def atSlice (s : State) (stop : Nat) (pg : Page) : Bool := (piecesOf pg.leaf pg.vpn).any (fun v => homeStop s pg.part (v * 65536) == some stop)

/-- The least recently used page of some that may leave (R277). -/
def oldestPage (s : State) (some' : Page → Bool) : Option Nat :=
  ((s.pages.filter (fun e => canEvict s e.2 && some' e.2)).foldl (fun b x =>
    match b with
    | none => some x
    | some y => if x.2.used < y.2.used then some x else some y) none).map (fun x => x.1)

/-- Of some pages one must go, none is on its way out, and it is this one. -/
def goesFirst (s : State) (id : Nat) (some' : Page → Bool) : Bool := oldestPage s some' == some id && !s.pages.any (fun x => x.2.evicting && some' x.2)

/-- The pages of which one makes room in a slice for a partition: its own where it has all of PFRAME there, those of every partition that shares the
slice where that is full (R1, R272). -/
def roomFrom (s : State) (part i stop : Nat) (pg : Page) : Bool :=
  atSlice s stop pg && (pg.part == part || decide (framesUsed s part i < (pctl s part 0x111).toNat))

/-- A frame of the page's slice is needed, none is free, and the page is the one to go; or its slice holds more than its 24 MiB, since a store room
there has become larger. -/
def mustGo (s : State) (id : Nat) (pg : Page) : Bool :=
  s.parts.any (fun p => p.2.wait.any (fun e => (lacking s p.1 e.2).any (fun i =>
    ((stopsOf s p.1)[i]?).any (fun stop => goesFirst s id (roomFrom s p.1 i stop))))) ||
    (piecesOf pg.leaf pg.vpn).any (fun v => (homeStop s pg.part (v * 65536)).any (fun stop =>
      decide (framesMax s stop < framesAt s stop) && goesFirst s id (atSlice s stop)))

/-- Entries that waited for the write-back fetch now, or await their replay (R275, R277). -/
def afterEviction (s : State) (part vpn : Nat) (l : Leaf) : State :=
  let p := partOf s part
  let fill := match walk s part vpn with
    | .ok l => l.fill
    | .error _ => false
  let mine := fun (e : WaitEnt) => e.state == .evicting && pageVpn l e.vpn == vpn
  let p := { p with wait := p.wait.map (fun e => if mine e.2 then (e.1, { e.2 with state := if fill then .replay else .fetching }) else e),
                    faultq := if fill then p.faultq ++ (p.wait.filter (fun e => mine e.2)).map (fun e => (e.2.vpn, e.1)) else p.faultq }
  setPart s part p

/-- EVICTION: it begins when a frame is needed, and ends with the write-back of the dirty lines (R273, R277). -/
def execEviction (id : Nat) (s : State) : Out :=
  .next (
    match tget s.pages id with
    | some pg =>
      if pg.evicting then
        let s := writeBack s id
        afterEviction { s with pages := tdel s.pages id } pg.part pg.vpn pg.leaf
      else if canEvict s pg && mustGo s id pg then { s with pages := tput s.pages id { pg with evicting := true } }
      else s
    | none => s)

/-- LUMBER_SPILL: a home whose lumber room is full moves its oldest entry to the overflow area (R282). -/
def execLumberSpill (part : Nat) (s : State) : Out :=
  .next (
    match (stopsOf s part).find? (fun h => !lumberRoom s part (some h) lineEntry && lumberCanSpill s part (some h)) with
    | some h => { s with lumber := tput s.lumber (lumberKey part h) (spilled s part h + lineEntry) }
    | none => s)

/-! ### Check words (R316, R353) -/

/-- One more sector was fetched again, or was lost. -/
def countRefetch (s : State) : State := { s with errs := { s.errs with refetch := s.errs.refetch + 1 } }
def countLost (s : State) : State := { s with errs := { s.errs with lost := s.errs.lost + 1 } }

/-- The line comes again from the cellar. -/
def refetchLine (s : State) (part addr : Nat) : State :=
  match pageAt s part addr with
  | none => s
  | some (id, pg) =>
    let ln := (addr - pg.vpn * 65536) / 128
    if pg.dirty.contains ln then s else countRefetch (readLine s id ln)

/-- The header of what is in flight is damaged: it will fail its link check word (R317). -/
def damageHdr (h : FHdr) : FHdr := { h with chk := h.chk ^^^ 1 }

/-- A sector of a flit in flight is damaged, or the header of one without data: it will fail its next verification, and its sender sends it again
(R304, R315, R316, R317). -/
def damageFlit (f : Flit) : Flit :=
  match f.sectors with
  | [] => { f with hdr := damageHdr f.hdr }
  | x :: xs => { f with sectors := (x.1, x.2 ^^^ 1) :: xs }

/-- The same of a tile or notice. -/
def damageTile (p : TPkt) : TPkt :=
  match p.words with
  | [] => { p with hdr := damageHdr p.hdr }
  | w :: ws => { p with words := (w ^^^ 1) :: ws }

/-- A failure in transit: of a flit, an interest, or a tile or notice. -/
def transitError (s : State) (num : Nat) : State :=
  { s with flits := s.flits.map (fun f => if f.hdr.num = num then damageFlit f else f)
           ipkts := s.ipkts.map (fun p => if p.hdr.num = num then { p with hdr := damageHdr p.hdr } else p)
           tpkts := s.tpkts.map (fun p => if p.hdr.num = num then damageTile p else p) }

/-- A cache shelf fails its check. -/
def damageShelf (s : State) (stop part name : Nat) : State :=
  let st := stopAt s stop
  if st.shelves.any (fun sh => sh.part == part && sh.name == name) then
    countRefetch (setStop s stop
      { st with shelves := st.shelves.map (fun sh => if sh.part = part ∧ sh.name = name then { sh with words := [] } else sh) })
  else s

/-- The data-lost fault of a block whose two trunk copies both fail (R353); it occurs now (R333). -/
def trunkLost (s : State) (uid : Nat) : State :=
  match tget s.blocks uid with
  | none => s
  | some b =>
    if b.phase = .saved ∨ b.record.isSome then
      let p := match b.groups.head? with
        | some g => (g.label, g.offset)
        | none => (b.entry, 0)
      setBlk s uid (markFault { b with faultAt := if b.fault.isNone then s.clock else b.faultAt }
        { cls := 1, code := 9, lane := 255, gid := 0, handle := 0, detail := 0, frame := 0, label := p.1, offset := p.2, addr := 0, data := 0 })
    else s

/-- The publisher's log entry of a stored version still stands. -/
def pubLogged (s : State) (r : NameRec) : Bool :=
  match r.pub with
  | some (u, k) => (match tget s.blocks u with
    | some b => (logFind b k).isSome
    | none => false)
  | none => false

/-- One more copy of a block's record in the trunk fails its check: of its save while it has one, else of its resume record. The other copy is
read instead; when both have failed, the block's data are lost (R353). -/
def damageTrunk (s : State) (uid : Nat) : State :=
  let k := if thas s.trunk (trunkKey uid true) then trunkKey uid true else trunkKey uid false
  match tget s.trunk k with
  | none => s
  | some r =>
    match r.slices.find? (fun x => !r.bad.contains x) with
    | none => s
    | some x =>
      let r := { r with bad := nput r.bad x }
      let s := { s with trunk := tput s.trunk k r }
      if r.slices.all (fun x => r.bad.contains x) then trunkLost (countLost s) uid else countRefetch s

/-- CHECK_WORD_FAILURE: the clean source of R316 supplies the bytes again, or the sector is lost. -/
def execCheckWordFailure (site : CheckSite) (s : State) : Out :=
  .next (
    match site with
    | .transit num => transitError s num
    | .cleanLine part addr => refetchLine s part addr
    | .provisional u =>
      (match tget s.blocks u with
       | some b =>
         if b.prov.isEmpty ∨ mayRefire b = false then s else limitedRefire { s with errs := { s.errs with refire := s.errs.refire + 1 } } u
       | none => s)
    | .cacheShelf stop part name => damageShelf s stop part name
    | .homeShelf part name =>
      let r := nameRec s part name
      if r.payload.isEmpty then s
      else if pubLogged s r then countRefetch s
      else countLost { s with lost := nput s.lost (lostName part name) }
    | .dirtyLine part addr => countLost { s with lost := nput s.lost (lostKey part addr) }
    | .trunkCopies u => damageTrunk s u)

/-! ### Links and rates (R317, R319) -/

/-- A flit of the plane that has just passed the link and that the sender keeps stands before it again. -/
def sentAgain (s : State) (link plane : Nat) (f : Flit) : Flit :=
  if planeNum f.plane = plane ∧ f.at' = neighbour (link / 8) (link % 8) ∧ f.inp = opposite (link % 8) ∧ f.since = s.clock ∧
      ((tget (linkOf s link).kept plane).getD []).contains f.hdr.num then { f with at' := link / 8, inp := f.prev }
  else f

/-- FLIT_RETRY: a flit failed its header's check word on a link that is not yet due for retraining: the receiver rejects it, and the sender sends
it again with the later flits of the plane (R317). -/
def execFlitRetry (link plane : Nat) (s : State) : Out :=
  let l := linkOf s link
  .next (
    if l.run < 64 then
      retryLink { s with flits := s.flits.map (sentAgain s link plane) } link
    else s)

/-- LINK_RETRAIN after 64 consecutive retries. -/
def execLinkRetrain (link : Nat) (s : State) : Out :=
  let l := linkOf s link
  .next (if 64 ≤ l.run then setLink s link { l with run := 0, retrain := l.retrain + 1 } else s)

/-- ECHOED_MARK: the rate is cut and the quiet time starts again (R319). -/
def execEchoedMark (core part cls : Nat) (s : State) : Out := .next (cutRate s core part cls)

/-- RATE_QUIET_EXPIRY: after 4,096 quiet clocks the rate rises (R319). -/
def execRateQuietExpiry (core part cls : Nat) (s : State) : Out :=
  .next (
    match tget s.rates (rateKey core part cls) with
    | some x => if cls < 4 then { s with rates := tput s.rates (rateKey core part cls) (riseRate (ceilingOf s part cls) x) } else s
    | none => s)

end Sys2Proof.Machine
end

