-- ==== Sys2Proof/Machine/System.lean ====
section
/-! DEFINITION. Major 0x3F: TRACE and RDCTR (R358, R359), ICINV and TLBINV (R342, R343), PRD and PWR (R339), ERET (R340) and HALTB (R341),
with the events that complete their operations and those of R31. -/
namespace Sys2Proof.Machine
open Sys2Proof

def execTrace (h : Hdr) (a : SReg) (tag : BitVec 14) (s : State) : Out :=
  issue h [ssrc a] (fun v _ =>
    if traceOn v.st v.b.part 2 then
      .done (tracePath v 1 v.g.label v.g.offset v.g.active (readS v.g a) (tag.setWidth 64)) 0
    else .done v 0) s

/-! ### The groups a handler run reaches (R38, R39, R338) -/

/-- The block and the group at a seat of the block whose fault is handled. -/
def seatGroup (v : View) (seat : BitVec 4) : Option (Nat × Nat × Block × Group) :=
  match handledBlk v with
  | none => none
  | some u =>
    match tget v.st.blocks u with
    | none => none
    | some b =>
      match b.place with
      | none => none
      | some p =>
        if seat.toNat < p.seat then none
        else (b.groups[seat.toNat - p.seat]?).map (fun g => (u, seat.toNat - p.seat, b, g))

/-- Counter `n` of a group; 20 is the package clock counter (R360). -/
def counterOf (s : State) (g : Group) (n : Nat) : Option W64 :=
  if n < 20 then some (ctrOf g n) else if n = 20 then some (BitVec.ofNat 64 s.clock) else none

def execRdctr (h : Hdr) (d : SReg) (n : BitVec 8) (seat : Option (BitVec 4)) (s : State) : Out :=
  issue h [sdst d] (fun v _ =>
    let g : Option Group := match seat with
      | none => some v.g
      | some k => (seatGroup v k).map (fun x => x.2.2.2)
    match g.bind (fun g => counterOf v.st g n.toNat) with
    | some x => doneS v d x
    | none => illegal8) s

/-! ### ICINV and TLBINV -/

/-- A core lies within a scope seen from another core. -/
def inScope (sc : Scope) (own c : Nat) : Bool :=
  match sc with
  | .core => c == own
  | .cluster => clusterOf c == clusterOf own
  | .die => decide (coreX c < 8) == decide (coreX own < 8)
  | _ => true

/-- The group still has to pass a marker: it stands on a core and neither ended, idles nor is parked (R342). -/
def icWaits (b : Block) (g : Group) : Bool := b.phase == .resident && g.run != .ended && g.run != .idle && g.run != .parked

/-- The groups that an ICINV awaits; a handler context is no group of a block (R17), and it fetches afresh at its next run. -/
def icPending (s : State) (part own : Nat) (sc : Scope) : List (Nat × Nat) :=
  s.blocks.foldl (fun l e =>
    if e.2.part = part ∧ e.2.kind ≠ .handler ∧ inScope sc own (blkCore e.2) then
      l ++ ((List.range e.2.groups.length).filter (fun k => match e.2.groups[k]? with
        | some g => icWaits e.2 g
        | none => false)).map (fun k => (e.1, k))
    else l) []

/-- A byte of global memory as fetch reads it: its page's, or the cellar's where the page is not resident. -/
def codeByte (s : State) (part a : Nat) : Option W8 :=
  match walk s part (vpnOf a) with
  | .error _ => none
  | .ok l =>
    let base := pageVpn l (vpnOf a) * 65536
    match findPage s part (vpnOf a) l.frame with
    | some (_, pg) => some (bget pg.data (a - base))
    | none => some (bget s.cellar (l.frame + (a - base)))

/-- A code word in memory; the word as loaded where memory cannot be read. -/
def codeWord (s : State) (part a : Nat) (old : W64) : W64 :=
  let bs := (List.range 8).map (fun i => codeByte s part (a + i))
  if bs.all Option.isSome then BitVec.ofNat 64 (leNat (bs.map (fun b => b.getD 0))) else old

/-- The words of an image as they stand in memory become its newest version where they differ (R59, R342). -/
def refreshImage (s : State) (im : Image) : Image :=
  match im.versions with
  | [] => im
  | ws :: _ =>
    let new := (ws.zip (List.range ws.length)).map (fun e => codeWord s im.part (im.addr + im.codeoff + 8 * e.2) e.1)
    if new = ws then im else { im with versions := new :: im.versions }

def refreshImages (s : State) (part : Nat) : State :=
  { s with images := s.images.map (fun e => if e.2.part = part then (e.1, refreshImage s e.2) else e) }

/-- ICINV: groups fetch afresh from their next markers (R342). -/
def execIcinv (h : Hdr) (sc : Scope) (d : HReg) (s : State) : Out :=
  issue h [.hd d] (fun v _ =>
    let pend := icPending (flush v) v.b.part (blkCore v.b) sc
    .done (startOp { v with st := refreshImages v.st v.b.part } d (.icinv pend)) 0) s

/-- A TLB lies within a scope seen from a core: a micro-TLB with its core, a cluster's TLB from .cluster on (R343, log 35). -/
def tlbInScope (sc : Scope) (own : Nat) (e : TlbEnt) : Bool :=
  match e.core, sc with
  | some c, _ => inScope sc own c
  | none, .core => false
  | none, .cluster => e.cluster == clusterOf own
  | none, .die => decide (e.cluster % 8 < 4) == decide (coreX own < 8)
  | none, _ => true

/-- Drop cached translations of the partition within a scope: those of one page, or all (R343). -/
def dropTlb (s : State) (part own : Nat) (sc : Scope) (vpn : Option Nat) : State :=
  let hit := fun (e : TlbEnt) => e.part == part && tlbInScope sc own e && (match vpn with
    | some v => e.vpn == pageVpn e.leaf v
    | none => true)
  { s with tlb := s.tlb.filter (fun e => !hit e) }

def execTlbinv (h : Hdr) (sc : Scope) (d : HReg) (a : Option SReg) (s : State) : Out :=
  let src := match a with
    | some x => [ssrc x]
    | none => []
  issueP h ([.hd d] ++ src) (fun v _ =>
    let vpn := a.map (fun x => vpnOf (readS v.g x).toNat)
    .done (startOp { v with st := dropTlb v.st v.b.part (blkCore v.b) sc vpn } d .tlbinv) 0) s

def execPrd (h : Hdr) (d a : SReg) (seat : BitVec 4) (s : State) : Out :=
  issueP h [ssrc a, sdst d] (fun v _ =>
    match selectorOf (readS v.g a), seatGroup v seat with
    | some x, some (_, _, b, g) => doneS v d (readItem b g x)
    | _, _ => illegal8) s

/-- One field of a frame record replaced; `none` when the value does not fit the field. -/
def putFrame (f : Frame) (p : Nat) (x : W64) : Option Frame :=
  match p with
  | 0 => if x >>> 16 = 0 then some { f with entry := x.setWidth 16 } else none
  | 1 => if x >>> 16 = 0 then some { f with fend := x.setWidth 16 } else none
  | 2 => if x >>> 16 = 0 then some { f with resume := x.setWidth 16 } else none
  | 3 => some { f with parts := x }
  | 4 => some { f with rem := x }
  | _ => if x >>> 32 = 0 then some { f with sweeps := x.setWidth 32 } else none

/-- The position PWR may write: a label below the label count, an offset within its dist (R339). -/
def positionOK (s : State) (b : Block) (g : Group) (x : W64) : Bool :=
  let L : Lab := fld x 16 16
  let ws := wordsOf s b g
  x >>> 32 == 0 && decide (L.toNat < labelCount s b) && (match markerIdx ws L with
    | some i => (match ws[i]? with
      | some w => decide ((fld x 0 16).toNat < mkDist w)
      | none => false)
    | none => false)

/-- What PWR writes: `none` where the table says no or a check fails (R339). A handle register is not writable, as R339's table says; R39 names
one among the registers whose void bit PWR clears (DESIGN CHOICE between the two, log 37). -/
def writeItem (s : State) (b : Block) (g : Group) (x : Nat × Nat × Nat × Nat) (y : W64) : Option Group :=
  let i := x.2.1
  let l := x.2.2.1
  let p := x.2.2.2
  match x.1 with
  | 0 => (laneOfWord y).map (fun s => mapLanes g (BitVec.twoPow 64 l) (fun _ => s))
  | 1 => some { g with active := y }
  | 2 => if positionOK s b g y then some { g with label := fld y 16 16, offset := fld y 0 16 } else none
  | 3 =>
    match frameAt g i with
    | none => none
    | some f => (putFrame f p y).map (fun f => { g with frames := listSet g.frames (frameDepth g - i) f })
  | 4 =>
    if i < b.fp.rows then some { g with v := tput g.v i (rowMerge (BitVec.twoPow 64 l) (rowOf (fun _ => y.setWidth 32)) (readV g i)) } else none
  | 5 => some { g with s := tput g.s i y }
  | 6 => some { g with p := tput g.p i y }
  | 7 =>
    let c := readC g (BitVec.ofNat 4 i)
    if p = 0 then some (writeC g (BitVec.ofNat 4 i) { bits := c.bits.extractLsb' 64 64 ++ y, tag := false })
    else if p = 1 then some (writeC g (BitVec.ofNat 4 i) { bits := y ++ c.bits.extractLsb' 0 64, tag := false })
    else none
  | 9 =>
    if p = 0 then (if y >>> 6 = 0 then some { g with fflags := y.setWidth 6 } else none)
    else if p = 1 then (if y.toNat ≤ 4 then some { g with frm := y.setWidth 3 } else none)
    else (if y >>> 6 = 0 then some { g with ftrap := y.setWidth 6 } else none)
  | 10 => if y >>> 32 = 0 then some { g with sround := y.setWidth 32 } else none
  | _ => none

/-- PWR writes only a PARKED group (R39). -/
def execPwr (h : Hdr) (d a : SReg) (seat : BitVec 4) (s : State) : Out :=
  issueP h [ssrc a, ssrc d] (fun v _ =>
    match selectorOf (readS v.g a), seatGroup v seat with
    | some x, some (u, k, b, g) =>
      if g.run ≠ .parked then illegal8
      else
        match writeItem v.st b g x (readS v.g d) with
        | none => illegal8
        | some g => .done { v with st := modGroup v.st u k (fun _ => g) } 0
    | _, _ => illegal8) s

/-! ### ERET (R340) -/

/-- The handler run ends: its group leaves issue and the core may start the next run. -/
def endRun (v : View) : View :=
  let c := blkCore v.b
  { v with st := setCore v.st c { coreOf v.st c with hrun := none },
           g := { v.g with run := .ended, active := 0, issued := true, tried := true, stall := 0 } }

/-- Retire the handled block with a status (R332). -/
def retireBlock (s : State) (uid : Nat) (st : W16) : State := endBlockWithStatus s uid st

/-- Status of a trap (R332). -/
def trapStatus (f : FaultRec) : W16 := BitVec.ofNat 16 (0x400 + f.cls * 0x40 + f.code)

/-- The block returns to issue (R340 mode 0). -/
def resumeBlock (s : State) (uid : Nat) : State :=
  match tget s.blocks uid with
  | none => s
  | some b => unqueue (setBlk s uid (resumeGroups b (newestCode s b))) uid

/-- The instruction at a fault's position, as its group fetches it. -/
def faultInstr (s : State) (b : Block) (f : FaultRec) : Option Instr :=
  (b.groups[f.gid]?).bind (fun g =>
    let ws := wordsOf s b g
    (markerIdx ws f.label).bind (fun i =>
      match ws[i + f.offset.toNat]? with
      | some w => match decode w (ws.getD (i + f.offset.toNat + 1) 0) with
        | .ok x => some x
        | .error _ => none
      | none => none))

/-- The fault is a misalignment of an LDS or STS other than LDS.wcap, and the access fails nothing else (R158, R340). -/
def emulable (s : State) (b : Block) (f : FaultRec) : Bool :=
  f.cls == 1 && f.code == 6 && !f.detail.getLsbD 7 && (match faultInstr s b f with
    | some (.lds _ w _ _ _ _) => w != .wcap
    | some (.sts ..) => true
    | _ => false)

/-- Perform the access byte by byte and resume (R340 mode 3). -/
def emulateBlock (s : State) (uid : Nat) (f : FaultRec) : State :=
  match tget s.blocks uid with
  | none => s
  | some b =>
    let i := faultInstr s b f
    let s := resumeBlock s uid
    match viewAt s uid f.gid, i with
    | some v, some i => flush (emulateAccess v i)
    | _, _ => s

/-- The handled block of a run may take an outcome of ERET; `none` when the ERET faults. -/
def eretOutcome (v : View) (r : HRun) (m : EretMode) : Option (State → State) :=
  let halted := match tget v.st.blocks r.blk with
    | some b => b.halted
    | none => false
  let fatal := fatalTrap r.fault.cls r.fault.code
  if !r.live then none
  else
    match m with
    | .resume => if fatal || halted then none else some (fun s => resumeBlock s r.blk)
    | .retire a =>
      let st := readS v.g a
      if st >>> 16 = 0 ∧ 0x400 ≤ st.toNat ∧ st.toNat ≤ 0x4FF then some (fun s => retireBlock s r.blk (st.setWidth 16)) else none
    | .refire => some (fun s => limitedRefire s r.blk)
    | .emulate =>
      match tget v.st.blocks r.blk with
      | some b => if fatal || halted || !emulable v.st b r.fault then none else some (fun s => emulateBlock s r.blk r.fault)
      | none => none

/-- A block that the overrun watchdog ended is retired with 0x04C4 at any ERET (R354, case of the watchdog). -/
def finishRun (v : View) (r : HRun) (act : State → State) : View :=
  let w := endRun v
  onState w (fun s => if r.live && r.kill then retireBlock s r.blk 0x04C4 else act s)

/-- A run that ends otherwise than by a legal ERET retires the block it still handles with 0x04FF (R334, R337). -/
def failRun (v : View) : View :=
  match runOf v with
  | none => endRun v
  | some r => finishRun v r (fun s => if r.live then retireBlock s r.blk 0x04FF else s)

/-- ERET: any fault of it ends the run (R337). -/
def execEret (h : Hdr) (m : EretMode) (s : State) : Out :=
  match currentView s with
  | none => .fault .noIssuer
  | some v =>
    let src := match m with
      | .retire a => [ssrc a]
      | _ => []
    let r := attempt h true src (fun v _ =>
      match runOf v with
      | none => illegal8
      | some r =>
        match eretOutcome v r m with
        | none => illegal8
        | some act => .raw (finishRun { v with st := usePipe v.st (blkCore v.b), g := ctrAdd v.g 0 } r act)) v
    match r with
    | .trap .. => if isHandler v then .next (flush (failRun { v with st := usePipe v.st (blkCore v.b) })) else .next (flush (conclude h v r))
    | r => .next (flush (conclude h v r))

/-- HALTB: no group of the block issues again; its handle awaits the block's operations (R341). -/
def execHaltb (h : Hdr) (d : HReg) (k : Bool) (s : State) : Out :=
  issueP h [.hd d] (fun v _ =>
    match handledBlk v with
    | none => illegal8
    | some u =>
      let v := onState v (fun s =>
        let s := { s with blocks := tmod s.blocks u (fun b => { b with halted := true }) }
        if k then cancelAll s u else s)
      .done (startOp v d (.haltb u)) 0) s

/-! ### Completions (R31, R341 to R343, R346, R184) -/

/-- Drop the groups of an ICINV that need no marker any more (R342). -/
def icLeft (s : State) (l : List (Nat × Nat)) : List (Nat × Nat) :=
  l.filter (fun p => match viewAt s p.1 p.2 with
    | some v => icWaits v.b v.g
    | none => false)

/-- An unmapped page without an entry of the wait table answers a PAGEREQ with 0x0102 (R183, R275). -/
def pageDead (s : State) (part vpn : Nat) : Bool :=
  match walk s part vpn with
  | .ok _ => false
  | .error _ => (waitFind (partOf s part) vpn).isNone

/-- A HALTB's handle joins the block's operations: one of them that acquires does so when the handle is observed (R186, R251, R381). -/
def joinHalted (s : State) (blk : Nat) (o : Op) : State :=
  let acquires := match tget s.blocks blk with
    | some b => b.groups.any (fun g => !g.acq.isEmpty)
    | none => false
  if acquires then modGroup s o.blk o.gid (fun g => { g with acq := (64 * 64 + o.h.toNat) :: g.acq }) else s

/-- One more attempt at an operation that only awaits something. -/
def settleOp (s : State) (id : Nat) (o : Op) : State :=
  match o.body with
  | .ready st => finishOp s id st
  | .pages vs =>
    let part := partOfBlk s o.blk
    if vs.any (pageDead s part) then finishOp s id 0x0102
    else
      (match pagesLeft s part vs with
       | some [] => finishOp s id 0
       | some l => requestAll (setBody s id (.pages l)) part l
       | none => s)
  | .icinv l =>
    (match icLeft s l with
     | [] => finishOp s id 0
     | l => setBody s id (.icinv l))
  | .tlbinv => finishOp s id 0
  | .haltb b => if (opsOf s b).isEmpty then joinHalted (finishOp s id 0) b o else s
  | _ => s

/-- ASYNC_COMPLETE: an operation of a block on a core completes (R31). -/
def execAsyncComplete (id : Nat) (s : State) : Out :=
  .next (
    match tget s.ops id with
    | some o => if opSaved s o then s else settleOp s id o
    | none => s)

/-- SAVED_HANDLE_UPDATE: an operation of a saved context completes into its saved handles (R346). -/
def execSavedHandleUpdate (id : Nat) (s : State) : Out :=
  .next (
    match tget s.ops id with
    | some o => if opSaved s o then settleOp s id o else s
    | none => s)

end Sys2Proof.Machine
end

