-- ==== Sys2Proof/Machine/Traps.lean ====
section
/-! DEFINITION. Delivery of traps to the handler context or to the default action (R333 to R335), the start, the end and the restart of handler
runs (R334, R337, R353), re-fires after hardware errors (R352) and the hang watchdog (R350). -/
namespace Sys2Proof.Machine
open Sys2Proof

/-! ### Delivery (R333, R335) -/

/-- The trap vector of a fault. -/
def vectorOf (s : State) (part : Nat) (f : FaultRec) : W64 := pctl s part (0x130 + f.cls * 8 + f.code / 4)

/-- The label at which the handler is entered: `none` when the device acts with no choice made (R335). -/
def handlerEntry (s : State) (part : Nat) (f : FaultRec) : Option Lab :=
  let w := vectorOf s part f
  if !w.getLsbD 16 then none
  else
    match (partOf s part).himage with
    | none => none
    | some hi =>
      let ws := match tget s.images hi.image with
        | some im => im.versions.headD []
        | none => []
      let L : Lab := fld w 0 16
      if markerKind ws L = some 0 then some L else none

/-- The device acts with no choice made (R335). -/
def defaultAction (s : State) (uid : Nat) (b : Block) (f : FaultRec) : State :=
  if emulable s b f then emulateBlock s uid f
  else if f.cls = 2 ∨ (f.cls = 3 ∧ f.code = 2) then resumeBlock s uid
  else retireBlock s uid (trapStatus f)

/-- Every group of the block has left issue. -/
def allParked (b : Block) : Bool := b.groups.all (fun g => g.run == .parked || g.run == .ended)

/-- The block's fault waits to be queued for its core's handler. -/
def awaitsQueue (s : State) (b : Block) : Bool :=
  b.phase == .resident && !b.queued && b.ending.isNone && b.kind != .handler && (b.fault.bind (handlerEntry s b.part)).isSome

/-- An earlier fault of the core has still to be queued. -/
def earlierFault (s : State) (b : Block) : Bool :=
  s.blocks.any (fun e => awaitsQueue s e.2 && blkCore e.2 == blkCore b && decide (e.2.faultAt < b.faultAt))

/-- The queue with one more block, in the order in which the faults occurred (R333). -/
def insertFault (s : State) (q : List Nat) (uid at' : Nat) : List Nat :=
  let later := fun (u : Nat) => (tget s.blocks u).any (fun b => decide (at' < b.faultAt))
  q.takeWhile (fun u => !later u) ++ uid :: q.dropWhile (fun u => !later u)

/-- TRAP_DELIVERY: once every group is parked the fault is queued for the core's handler context, or the default action is taken (R333, R335).
A block that the overrun watchdog has ended is not delivered. -/
def execTrapDelivery (uid : Nat) (s : State) : Out :=
  .next (
    match tget s.blocks uid with
    | some b =>
      match b.fault with
      | some f =>
        if b.queued || b.phase != .resident || b.ending.isSome || b.kind == .handler || !allParked b then s
        else
          match handlerEntry s b.part f with
          | none => defaultAction s uid b f
          | some _ =>
            let c := blkCore b
            let k := coreOf s c
            if 17 ≤ k.queue.length ∨ earlierFault s b then s
            else setBlk (setCore s c { k with queue := insertFault s k.queue uid b.faultAt }) uid { b with queued := true }
      | none => s
    | none => s)

/-! ### Handler runs (R334, R377) -/

/-- The block under which a core's handler context is kept. -/
def handlerUid (core : Nat) : Nat := 2 ^ 32 + core

/-- The handler context's footprint: one group of 256 rows outside the core's rows (R17). -/
def handlerFp : Footprint := { groups := 1, rows := 256, scratch := 0, barriers := 0, carry := 0 }

/-- The handler context of a core for a partition, as its last run left it, or as the installed image starts it (R334, R377). -/
def handlerBlock (s : State) (core part : Nat) (hi : HImage) (entry : Lab) : Block :=
  let fresh :=
    newBlock BKind.handler part 0 0 0 0 0 0 0 0 hi.image entry handlerFp s.clock (argTbl hi.args 16) (argTbl hi.caps 8)
  let b := match tget s.blocks (handlerUid core) with
    | some b => if b.part = part ∧ b.kind = BKind.handler ∧ (coreOf s core).fresh = false then b else fresh
    | none => fresh
  { b with entry := entry, phase := .resident, place := some { core := core, seat := 0, row := 0, scr := 0, bar := [] }, fault := none,
           queued := false, ending := none, log := [], first := some (b.first.getD s.clock) }

/-- The group of a run: s, c and v as the previous run left them, everything else as a new group starts, counters going on (R334). -/
def runGroup (s : State) (b : Block) (old : Option Group) : Group :=
  let g := newGroup (labelsOf s b) b.entry.toNat b.initS b.initC (newestCode s b) s.clock
  match old with
  | some o => { g with s := o.s, c := o.c, v := o.v, keyed := o.keyed, spawns := o.spawns, ctrs := o.ctrs }
  | none => g

/-- Start or restart a run: the handler block with its registers kept for a restart, its group arriving at its vector. -/
def beginRun (s : State) (core : Nat) (b : Block) (old : Option Group) : State :=
  let g := runGroup s b old
  let snap : Snapshot := { groups := [g], scratch := [], tags := [], slots := [], bars := [], baton := 0, act := b.act, commits := b.commits,
                           tokens := [] }
  startGroups (setBlk s (handlerUid core) { b with groups := [g], record := some snap }) (handlerUid core) 1

/-- The next queued fault gets its run. -/
def nextRun (s : State) (core : Nat) : State :=
  let k := coreOf s core
  match k.queue with
  | [] => s
  | uid :: rest =>
    match tget s.blocks uid with
    | none => setCore s core { k with queue := rest }
    | some b =>
      match b.fault with
      | none => setCore s core { k with queue := rest }
      | some f =>
        match handlerEntry s b.part f, (partOf s b.part).himage with
        | some L, some hi =>
          let r : HRun := { blk := uid, live := true, fault := f, hflt := 0, kill := false }
          let hb := handlerBlock s core b.part hi L
          beginRun (setCore s core { k with queue := rest, hrun := some r, fresh := false }) core hb hb.groups.head?
        | _, _ => defaultAction (setCore s core { k with queue := rest }) uid b f

/-- HANDLER_RUN_START: a run whose lanes are all DONE ends first, and then the oldest queued fault is run (R334, R337). -/
def execHandlerRunStart (core : Nat) (s : State) : Out :=
  .next (
    match (coreOf s core).hrun with
    | none => nextRun s core
    | some _ =>
      match viewAt s (handlerUid core) 0 with
      | some v => if v.g.run = .ended then flush (failRun v) else s
      | none => s)

/-- HANDLER_ERROR_RESTART: the run starts again from its vector with the registers of the previous run's end (R353). -/
def execHandlerErrorRestart (core : Nat) (s : State) : Out :=
  .next (
    let k := coreOf s core
    match k.hrun, tget s.blocks (handlerUid core) with
    | some r, some b =>
      let s := setCore s core { k with hrun := some { r with hflt := 0 } }
      beginRun s core b (b.record.bind (fun x => x.groups.head?))
    | _, _ => s)

/-! ### Hardware errors and hangs (R350, R352) -/

/-- HARDWARE_ERROR_REFIRE: an uncorrectable error re-fires the block from its resume record (R352). -/
def execHardwareErrorRefire (uid : Nat) (s : State) : Out :=
  .next (
    match tget s.blocks uid with
    | some b => if mayRefire b then limitedRefire s uid else s
    | none => s)

/-- HANG_WATCHDOG: a group that has issued nothing for longer than PHANG allows takes the hang trap (R350). -/
def execHangWatchdog (uid gid : Nat) (s : State) : Out :=
  .next (
    match viewAt s uid gid with
    | some v =>
      let limit := (pctl s v.b.part 0x117).toNat
      if v.b.kind ≠ .handler ∧ blockLive v.b ∧ limit ≠ 0 ∧ limit < v.g.hang then
        setBlk s uid (markFault v.b (faultAt v 3 3 255 0 0))
      else s
    | none => s)

end Sys2Proof.Machine
end

