-- ==== Sys2Proof/Machine/Preempt.lean ====
section
/-! DEFINITION. Time slices and the overrun watchdog (R349), pre-emption at safe points (R102, R344), quiescence and the save (R345, R354), and
the restore (R62, R347). -/
namespace Sys2Proof.Machine
open Sys2Proof

/-! ### Slices (R349) -/

/-- Functions bound to a partition as contexts, ascending. -/
def contextsOf (s : State) (part : Nat) : List Nat := (s.fns.filter (fun e => e.2.part == some part)).map (fun e => e.1)

/-- The context after `f` in turn. -/
def nextContext (s : State) (part f : Nat) : Nat :=
  let cs := contextsOf s part
  match cs.find? (fun c => decide (f < c)) with
  | some c => c
  | none => cs.headD f

/-- A slice of context `f` starts, shortened by its debt; the events held for it are delivered (R349, R351). -/
def beginSlice (s : State) (part f : Nat) : State :=
  let slice := (pctl s part 0x115).toNat
  let x := fnOf s f
  let cut := min x.debt (slice * 7 / 8)
  let p := partOf s part
  let s := setPart s part { p with ctx := f, sliceAt := s.clock, sliceLen := slice - cut, drain := none }
  let s := (contextsOf s part).foldl (fun s c => setFn s c { fnOf s c with running := c == f }) s
  let s := setFn s f { fnOf s f with debt := x.debt - cut, running := true }
  deliverAll s f

/-- Resident blocks of a context. -/
def residentOf (s : State) (part f : Nat) : List Nat :=
  (s.blocks.filter (fun e => e.2.part == part && e.2.fn == f && e.2.kind != .handler && e.2.phase == .resident && e.2.ending.isNone)).map (fun e => e.1)

/-- Ask blocks to give up their places. -/
def askBlocks (s : State) (us : List Nat) : State := us.foldl (fun s u => { s with blocks := tmod s.blocks u (fun b => { b with preempt := true }) }) s

/-- The overrun watchdog ends a block; one whose handler runs is retired at that run's ERET (R349, R354). -/
def overrunBlock (s : State) (uid : Nat) (b : Block) : State :=
  let c := blkCore b
  let k := coreOf s c
  match k.hrun with
  | some r => if r.live ∧ r.blk = uid ∧ b.phase = .resident then setCore s c { k with hrun := some { r with kill := true } } else retireBlock s uid 0x04C4
  | none => retireBlock s uid 0x04C4

/-- Every running or saved block of the context is retired with 0x04C4 and its function told (R349). -/
def killContext (s : State) (part f : Nat) : State :=
  let s := s.blocks.foldl (fun s e =>
    if e.2.part = part ∧ e.2.fn = f ∧ e.2.kind ≠ .handler ∧ (e.2.phase = .resident ∨ e.2.phase = .saved) ∧ e.2.ending = none then overrunBlock s e.1 e.2
    else s) s
  let v := freeNext s
  let s := postFree (setFn v.2 f { fnOf v.2 f with debt := 0 }) f v.1
  beginSlice s part (nextContext s part f)

/-- Debt of the context that drains, with the clocks since its slice's end; it passes the limit of the watchdog (R349). -/
def drainDebt (s : State) (p : Part) (t : Nat) : Nat := (fnOf s p.ctx).debt + (s.clock - t)
def overLimit (s : State) (part t : Nat) : Bool :=
  decide ((pctl s part 0x116).toNat * (pctl s part 0x115).toNat < drainDebt s (partOf s part) t)

/-- Once the last block of the context has been saved, the time since the slice's end becomes debt, and the next context has its turn; a debt over
the limit ends the context (R349). -/
def endDrain (s : State) (part : Nat) : State :=
  let p := partOf s part
  match p.drain with
  | none => s
  | some t =>
    if !(residentOf s part p.ctx).isEmpty then s
    else if overLimit s part t then killContext s part p.ctx
    else beginSlice (setFn s p.ctx { fnOf s p.ctx with debt := drainDebt s p t }) part (nextContext s part p.ctx)

/-- SLICE_END: the context's resident blocks are pre-empted; while they are, the watchdog looks at the debt; a partition that starts slicing
gives its first context the turn (R349). -/
def execSliceEnd (f : Nat) (s : State) : Out :=
  .next (
    match (fnOf s f).part with
    | none => s
    | some part =>
      let p := partOf s part
      let slice := (pctl s part 0x115).toNat
      if slice = 0 then s
      else if p.sliceLen = 0 then (if (contextsOf s part).head? = some f then beginSlice s part f else s)
      else if p.ctx ≠ f then s
      else
        match p.drain with
        | some t => if overLimit s part t then killContext s part f else endDrain s part
        | none =>
          if p.sliceAt + p.sliceLen ≤ s.clock then
            let s := setPart s part { p with drain := some s.clock }
            endDrain (askBlocks s (residentOf s part f)) part
          else s)

/-! ### Stopping at safe points (R102, R344) -/

/-- The mask under which a group may be saved: that of the safe point at which it stands, or of the waiting instruction that carries S. A group
whose access the device is performing byte by byte stands at none. -/
def saveMask (g : Group) : Option W64 :=
  if g.emul.isSome then none
  else
    match g.arrival with
    | .none => g.safe.orElse (fun _ => g.waitS)
    | .phase _ sf m => if sf then some m else none
    | .commit _ m => some m

/-- PREEMPT_STOP: a group of a block asked to give up its place stops issue at a safe point (R344). -/
def execPreemptStop (uid gid : Nat) (s : State) : Out :=
  .next (
    match viewAt s uid gid with
    | some v =>
      if v.b.preempt && v.b.phase == .resident && v.b.fault.isNone && !v.g.stopped && v.g.run != .ended && v.g.run != .parked &&
         (saveMask v.g).isSome then
        flush { v with g := { v.g with stopped := true, xreq := none } }
      else s
    | none => s)

/-! ### Quiescence and save (R345, R346, R354) -/

/-- Operations that quiescence awaits. -/
def awaited (b : OpBody) : Bool :=
  match b with
  | .copy c => !c.inb
  | .entry .. | .atomg .. | .mma _ | .enq .. | .publish .. | .stopref _ | .subn .. | .put .. | .ared .. | .a2av .. | .sortk .. => true
  | _ => false

/-- An inbound copy or a FETCHN becomes a replay entry: it starts afresh after the restore, with the lifetime that remains (R230, R345). -/
def replayBody (clock : Nat) (b : OpBody) : OpBody :=
  match b with
  | .copy c => if c.inb then .copy { c with moved := [], resid := 0, pages := [], bad := none } else b
  | .fetchn n v d dst len l _ => .fetchn n v (d - clock) dst len l none
  | b => b

/-- Every group has stopped or ended, or a parked block waits in the fault queue (R334, R344). -/
def mayQuiesce (s : State) (uid : Nat) (b : Block) : Bool :=
  b.preempt && b.phase == .resident && b.kind != .handler && b.ending.isNone &&
    (match b.fault with
     | none => b.groups.all (fun g => g.stopped || g.run == .ended)
     | some _ => allParked b && (match (coreOf s (blkCore b)).hrun with
       | some r => !(r.live && r.blk == uid)
       | none => true))

/-- Entries of a load queue that are not wholly buffered are discarded; reading ahead goes on at the stream position that is left (R345). -/
def dropUnread (q : Queue) : Queue :=
  let buf := q.buf.takeWhile (fun e => e.left == 0)
  { q with buf := buf, fetched := q.fetched - (q.buf.length - buf.length) }

/-- A group in its save: only what its mask keeps; a parked one is kept whole (R62, R354). -/
def saveGroup (parked : Bool) (g : Group) : Group :=
  let k := if parked then g else match saveMask g with
    | some m => keepGroup g m
    | none => g
  { k with stopped := false, xreq := none, q := k.q.map (fun e => (e.1, if e.2.load then dropUnread e.2 else e.2)),
           run := if g.run = .stalled ∧ g.arrival = .none then .issuing else g.run }

/-- A block as its save holds it (R346, R354). -/
def savedBlock (s : State) (uid : Nat) (b : Block) : Block :=
  { b with phase := .saved, place := none, ready := s.clock, preempt := false, queued := false, idle := 0,
           groups := b.groups.map (saveGroup b.fault.isSome), tokens := blockTokens s uid b.part }

/-- The save is written to the trunk and the core freed; the range entries of stopped copies go with it (R344, R345, R354). -/
def saveBlock (s : State) (uid : Nat) (b : Block) (slices : List Nat) (bytes : List W8) : State :=
  let s := putTrunk { s with
    ops := s.ops.map (fun e => if e.2.blk = uid then (e.1, { e.2 with body := replayBody s.clock e.2.body, got := [], wrote := [] }) else e)
    ranges := s.ranges.filter (fun e => e.2.blk != uid) } uid b.part true slices bytes
  endDrain (unqueue (setBlk s uid (savedBlock s uid b)) uid) b.part

/-- No trunk space remains: the block runs on (R354). -/
def runOn (s : State) (uid : Nat) (b : Block) : State :=
  setBlk s uid { b with preempt := (partOf s b.part).drain.isSome, behind := none, groups := b.groups.map (fun g => { g with stopped := false, safe := none }) }

/-- QUIESCE: awaited operations complete first; then the block is saved, in its own slice and one more of its partition, unless no trunk space
remains (R344, R345, R353, R354). -/
def execQuiesce (uid : Nat) (s : State) : Out :=
  .next (
    match tget s.blocks uid with
    | some b =>
      if !mayQuiesce s uid b || (opsOf s uid).any (fun e => awaited e.2.body) then s
      else
        let bytes := saveBytes s uid (savedBlock s uid b)
        match trunkSlices s b.part (blkCore b) bytes.length with
        | some slices => saveBlock s uid b slices bytes
        | none => runOn s uid b
    | none => s)

/-! ### Restore (R347) -/

/-- Among the candidates of the partition, the saved block is the first that finds room (R293). -/
def restoreTurn (s : State) (part uid : Nat) : List Cand → Bool
  | [] => false
  | c :: rest =>
    match c.src with
    | .saved u =>
      (match tget s.blocks u with
       | some b => if (choosePlace s part b.launch b.stage.toNat b.ready b.fp).isSome then u == uid else restoreTurn s part uid rest
       | none => restoreTurn s part uid rest)
    | _ => if (offer s part c).isSome then false else restoreTurn s part uid rest

/-- A group returns to its core: on the newest words, parked when the block carries a fault (R334, R342, R347). -/
def restoreGroup (newest clock : Nat) (faulted : Bool) (g : Group) : Group :=
  { g with code := newest, since := clock, stopped := false, issued := false, tried := false, waited := 0, yield := 0,
           run := if faulted && g.run != .ended then .parked else g.run }

/-- The scratchpad bytes that a replay entry writes, for which it takes its range entry anew (R173). -/
def replaySpan : OpBody → Option (Nat × Nat)
  | .copy c => some (copySpan c)
  | .fetchn _ _ _ dst len _ _ => some (dst, dst + len)
  | _ => none

/-- The replay entries of a block are issued again in their order: each takes its range entry anew, and a FETCHN sends its interest (R173, R227,
R230, R345). -/
def replayOps (s : State) (uid core part : Nat) : State :=
  (opsOf s uid).foldl (fun s e =>
    match replaySpan e.2.body with
    | none => s
    | some x =>
      let r : RangeEnt := { core := core, blk := uid, gid := e.2.gid, lo := x.1, hi := x.2, inb := true, op := e.1 }
      let s := { s with ranges := tput s.ranges s.nextRng r, nextRng := s.nextRng + 1 }
      match e.2.body with
      | .fetchn n v d dst len l _ => localInterest (setBody s e.1 (.fetchn n v (s.clock + d) dst len l none)) part n v (s.clock + d) core
      | _ => s) s

/-- Range entries that a block's replay entries take. -/
def replayRanges (s : State) (uid : Nat) : Nat := ((opsOf s uid).filter (fun e => (replaySpan e.2.body).isSome)).length

/-- The saved block stands on a core again (R347). -/
def putBack (s : State) (uid : Nat) (b : Block) (p : Place) : State :=
  let b := { b with phase := .resident, place := some p, behind := none,
                    groups := b.groups.map (restoreGroup (newestCode s b) s.clock b.fault.isSome) }
  let s := setBlk (dropTrunk s uid true) uid { b with tokens := [] }
  let s := { s with clusters := tmod s.clusters (clusterOf p.core) (fun c => { c with gated := false, gateAt := none }) }
  replayOps (resetRates s b.part) uid p.core b.part

/-- RESTORE: a saved block whose turn it is returns to a core, where its replayed copies find range entries (R173, R293, R347). -/
def execRestore (uid : Nat) (s : State) : Out :=
  .next (
    match tget s.blocks uid with
    | some b =>
      if b.phase = .saved ∧ restoreTurn s b.part uid (candidates s b.part) then
        match choosePlace s b.part b.launch b.stage.toNat b.ready b.fp with
        | some p => if rangesOf s p.core + replayRanges s uid ≤ 32 then putBack s uid b p else s
        | none => s
      else s
    | none => s)

end Sys2Proof.Machine
end

