-- ==== Sys2Proof/Machine/Debug.lean ====
section
/-! DEFINITION. Trace events: samples (R367), draining and losing records (R363 to R365), power-gating of a cluster (R366), and writes of the
trace registers and hold slots (R364, R371). -/
namespace Sys2Proof.Machine
open Sys2Proof

/-! ### Samples (R367) -/

/-- A sample record of one resident group: `last` is the counter that counted the clock. -/
def sampleGroup (s : State) (uid gid : Nat) : State :=
  match viewAt s uid gid with
  | some v =>
    if v.g.run = .ended then s
    else (tracePath v 4 v.g.label v.g.offset v.g.active (BitVec.ofNat 64 v.g.last) (ctrOf v.g 0)).st
  | none => s

def sampleBlock (s : State) (uid n : Nat) : State := (List.range n).foldl (fun s k => sampleGroup s uid k) s

/-- No group of a partition has had its turn in this clock. -/
def clockFresh (s : State) (part : Nat) : Bool := s.blocks.all (fun e => e.2.part != part || e.2.groups.all (fun g => !g.tried && !g.issued))

/-- The samples of a partition whose period has passed, taken between two clocks: they name the paths that the clock just ended has left, and
the counters that counted it (R367, R376). -/
def samplePart (s : State) (part : Nat) : State :=
  let period := (pctl s part 0x175).toNat
  let p := partOf s part
  if period ≠ 0 && traceOn s part 4 && decide (p.sampled + period ≤ s.clock) && clockFresh s part then
    let t := { setPart s part { p with sampled := s.clock } with clock := s.clock - 1 }
    { t.blocks.foldl (fun s e =>
        if e.2.part = part ∧ e.2.kind ≠ .handler ∧ e.2.phase = .resident then sampleBlock s e.1 e.2.groups.length else s) t with clock := s.clock }
  else s

/-- TRACE_SAMPLE: every sample period, for each resident group of the partition (R364, R367). -/
def execTraceSample (part : Nat) (s : State) : Out := .next (samplePart s part)

/-! ### Draining (R363, R365) -/

/-- The bytes of a record with its extensions. -/
def recBytes (r : TRec) : List W8 :=
  le 1 r.kind ++ le 1 (r.ext.length / 32) ++ le 2 (coreReg r.core) ++ le 4 r.ident.toNat ++ le 4 r.block.toNat ++ le 4 r.launch.toNat ++
    le 8 r.time ++ le 2 r.label.toNat ++ le 2 r.offset.toNat ++ le 4 r.sweeps.toNat ++ le 8 r.mask.toNat ++ le 8 r.a.toNat ++
    le 8 r.b.toNat ++ le 4 r.seq ++ le 4 0 ++ r.ext.foldl (fun a l => a ++ le 2 l.toNat) []

/-- What writing a record to the area meets. -/
inductive AreaRes
  | done (s : State)
  | wait (s : State)
  | dropped (s : State)

/-- Write a record in pieces of 64 bytes, each within a page. -/
def areaWrite (s : State) (part base len ptr : Nat) (bs : List W8) : Nat → AreaRes
  | 0 => .done s
  | n + 1 =>
    match areaWrite s part base len ptr bs n with
    | .done s =>
      (match devStore s part (base + (ptr + 64 * n) % len) ((bs.drop (64 * n)).take 64) hostWriter with
       | .done s => .done s
       | .wait s => .wait s
       | .bad s _ _ => .dropped s)
    | r => r

/-- A free value and a following one. -/
def freeTwo (s : State) : W64 × W64 × State :=
  let a := freeNext s
  let b := freeNext a.2
  (a.1, b.1, b.2)

/-- The loss record of a partition that counts `n` records; the manual states its kind, its time and its count, the rest is free (R365;
log 3). -/
def lossRecord (s : State) (cl part n : Nat) : TRec × State :=
  let x := freeTwo s
  let y := freeTwo x.2.2
  let z := freeTwo y.2.2
  let c := tgetD s.clusters cl Cluster.init
  let r : TRec :=
    { kind := 8, core := 32 * (cl / 8) + 2 * (cl % 8), ident := x.1.setWidth 32, block := x.2.1.setWidth 32, launch := y.1.setWidth 32,
      time := s.clock, label := y.2.1.setWidth 16, offset := fld y.2.1 16 16, sweeps := fld y.2.1 32 32, mask := z.1,
      a := BitVec.ofNat 64 n, b := z.2.1, seq := c.seq, part := part, ext := [] }
  (r, z.2.2)

/-- The area is full for `n` more bytes and stop is 1, or there is none. -/
def areaFull (s : State) (part n : Nat) : Bool :=
  let len := (pctl s part 0x172).toNat * 4096
  len == 0 || ((pctl s part 0x170).getLsbD 15 && decide (len < (pctl s part 0x173).toNat + n))

/-- The trace area of a partition takes one more record: it is not full, and its page is mapped. -/
def areaReady (s : State) (part : Nat) : Bool :=
  let len := (pctl s part 0x172).toNat * 4096
  !areaFull s part 64 && (match (meet s none part ((pctl s part 0x171).toNat + (pctl s part 0x173).toNat % len) false true).2 with
    | .fault _ => false
    | _ => true)

/-- Once there is room again, in the buffer and in the area, one loss record counts what was dropped (R365). -/
def noteLosses (s : State) (cl : Nat) : State :=
  let c := tgetD s.clusters cl Cluster.init
  match c.lost.find? (fun e => areaReady s e.1) with
  | some (part, n) =>
    if bufUnits c.buf < 1024 then
      let r := lossRecord s cl part n
      { r.2 with clusters := tput r.2.clusters cl { c with buf := c.buf ++ [r.1], seq := c.seq + 1, lost := tdel c.lost part } }
    else s
  | none => s

/-- Records that a record stands for when it is dropped: a loss record for those it counts. -/
def recWeight (r : TRec) : Nat := if r.kind = 8 then r.a.toNat else 1

/-- The oldest record leaves the buffer, written or dropped. -/
def popRec (s : State) (cl : Nat) (lost : Option TRec) : State :=
  let c := tgetD s.clusters cl Cluster.init
  let l := match lost with
    | some r => tput c.lost r.part (tgetD c.lost r.part 0 + recWeight r)
    | none => c.lost
  { s with clusters := tput s.clusters cl { c with buf := c.buf.tail, lost := l } }

/-- TPTR advances past a record, and a loss record adds its count to TLOST (R364, R365). -/
def recWritten (s : State) (r : TRec) (n : Nat) : State :=
  let p := setCtl (partOf s r.part) 0x173 (pctl s r.part 0x173 + BitVec.ofNat 64 n)
  setPart s r.part (if r.kind = 8 then setCtl p 0x174 (ctl p 0x174 + r.a) else p)

/-- Drain the oldest record into its partition's area. -/
def drainOne (s : State) (cl : Nat) (r : TRec) : State :=
  let len := (pctl s r.part 0x172).toNat * 4096
  let ptr := (pctl s r.part 0x173).toNat
  let bs := recBytes r
  if areaFull s r.part bs.length then popRec s cl (some r)
  else
    match areaWrite s r.part (pctl s r.part 0x171).toNat len ptr bs (bs.length / 64) with
    | .wait s => s
    | .dropped s => popRec s cl (some r)
    | .done s => popRec (recWritten s r bs.length) cl none

/-- TRACE_DRAIN: the cluster's oldest record goes to the trace area; losses are noted once there is room (R363, R365). -/
def execTraceDrain (cl : Nat) (s : State) : Out :=
  .next (
    match (tgetD s.clusters cl Cluster.init).buf with
    | r :: _ => noteLosses (drainOne s cl r) cl
    | [] => noteLosses s cl)

/-! ### Power-gating (R366) -/

/-- Nothing of a cluster works: no resident block and no handler run. -/
def clusterIdle (s : State) (cl : Nat) : Bool :=
  s.blocks.all (fun e => !(e.2.phase == .resident && e.2.kind != .handler && clusterOf (blkCore e.2) == cl)) &&
    s.cores.all (fun e => !(clusterOf e.1 == cl && (e.2.hrun.isSome || !e.2.queue.isEmpty)))

/-- The records of each partition in a buffer. -/
def bufCounts (buf : List TRec) : Tbl Nat := buf.foldl (fun t r => tput t r.part (tgetD t r.part 0 + recWeight r)) []

/-- One loss record for each partition with records left, in place of them (R366). -/
def dropBuffer (s : State) (cl : Nat) : State :=
  let c := tgetD s.clusters cl Cluster.init
  let counts := c.lost.foldl (fun t e => tput t e.1 (tgetD t e.1 0 + e.2)) (bufCounts c.buf)
  let s := { s with clusters := tput s.clusters cl { c with buf := [], lost := [] } }
  counts.foldl (fun s e =>
    let r := lossRecord s cl e.1 e.2
    let c := tgetD r.2.clusters cl Cluster.init
    { r.2 with clusters := tput r.2.clusters cl { c with buf := c.buf ++ [r.1], seq := c.seq + 1 } }) s

/-- CLUSTER_POWER_GATE: an idle cluster drains for at most 108,800 clocks, then loses what is left and is gated (R366). -/
def execClusterPowerGate (cl : Nat) (s : State) : Out :=
  .next (
    let c := tgetD s.clusters cl Cluster.init
    if c.gated || !clusterIdle s cl then s
    else
      match c.gateAt with
      | none => { s with clusters := tput s.clusters cl { c with gateAt := some s.clock } }
      | some t =>
        let gate := fun (s : State) => { s with clusters := tmod s.clusters cl (fun c => { c with gated := true, gateAt := none }) }
        if c.buf.isEmpty && c.lost.isEmpty then gate s
        else if t + 108800 ≤ s.clock then gate (dropBuffer s cl)
        else s)

/-! ### Register writes as events (R364, R371) -/

/-- The block that a handler run of the partition handles. -/
def partBinder (s : State) (part : Nat) : Option Nat :=
  s.cores.findSome? (fun e => match e.2.hrun with
    | some r => if r.live && partOfBlk s r.blk == part then some r.blk else none
    | none => none)

/-- HOLD_SLOT_WRITE: a SETS of a hold slot; an illegal one changes nothing (R371). -/
def execHoldSlotWrite (part slot : Nat) (x : W64) (s : State) : Out :=
  .next (if slot < 8 then (setCtlReg s part (0x178 + slot) x (partBinder s part)).getD s else s)

/-- TRACE_AREA_SET: TBASE or TLEN (R364). -/
def execTraceAreaSet (part : Nat) (len : Bool) (x : W64) (s : State) : Out :=
  .next ((setCtlReg s part (if len then 0x172 else 0x171) x none).getD s)

/-- BLOCK_RING_SET: BRING (R364). -/
def execBlockRingSet (part : Nat) (x : W64) (s : State) : Out := .next ((setCtlReg s part 0x176 x none).getD s)

end Sys2Proof.Machine
end

