-- ==== Sys2Proof/Machine/Handles.lean ====
section
/-! DEFINITION. The handle instructions of major 0x04 (R91 to R97). -/
namespace Sys2Proof.Machine
open Sys2Proof

/-- A group observes the completion of handle `n`: an acquire that it carries takes place (R186). -/
def observeH (v : View) (n : HReg) : View := observeAcq v (fun k => k % 64 == n.toNat)

/-- HWAIT: stall under reason 5 until the handle is COMPLETE, then its status (R92). -/
def execHwait (h : Hdr) (d : SReg) (n : HReg) (s : State) : Out :=
  issue h [.h n, sdst d] (fun v _ =>
    match tget v.g.h n.toNat with
    | some (.complete st _ _) => doneS (observeH v n) d (st.setWidth 64)
    | _ => .hold v 5) s

/-- HTEST: the status, or all ones while PENDING (R92). -/
def execHtest (h : Hdr) (d : SReg) (n : HReg) (s : State) : Out :=
  issue h [.h n, sdst d] (fun v _ =>
    match tget v.g.h n.toNat with
    | some (.complete st _ _) => doneS (observeH v n) d (st.setWidth 64)
    | _ => doneS v d 0xFFFFFFFFFFFFFFFF) s

/-- HCANCEL (R94, R95). -/
def execHcancel (h : Hdr) (n : HReg) (s : State) : Out :=
  issue h [.h n] (fun v _ =>
    match tget v.g.h n.toNat with
    | some (.pending id) => .done (onState v (fun st => cancelOp st id)) 0
    | _ => .done v 0) s

/-- Move a binding: the source becomes void and lanes gated on it follow (R96). -/
def moveHandle (g : Group) (d n : HReg) : Group :=
  match tget g.h n.toNat with
  | none => g
  | some x =>
    { g with
      h := tput (tdel g.h n.toNat) d.toNat x
      acq := g.acq.map (fun k => if k % 64 = n.toNat then k / 64 * 64 + d.toNat else if k % 64 = d.toNat then k / 64 * 64 + 16 else k)
      lanes := (List.range 64).map (fun l =>
        let s := laneAt g l
        if (s.mode = .gate ∨ (s.mode = .held ∧ s.prior = .gate)) ∧ s.handle = n then { s with handle := d } else s) }

/-- HMOV; with D equal to N nothing changes and nothing stalls (R92, R96). A PENDING h(D) holds it before a void h(N) raises its fault (DEDUCED,
log 17). -/
def execHmov (h : Hdr) (d n : HReg) (s : State) : Out :=
  if d = n then issue h [.h n] (fun v _ => .done v 0) s
  else issue h [.hd d, .h n] (fun v _ => .done { v with g := moveHandle v.g d n } 0) s

/-- The operations that a selection of WAITCNT counts (R97). -/
def counted (sel : WaitSel) (b : OpBody) : Bool :=
  match sel, b with
  | .copies, .copy _ => true
  | .stores, .entry .. => true
  | .queue k, .entry j _ _ _ _ => j == k
  | _, _ => false

/-- How many operations of a selection the group has issued. -/
def issuedOf (g : Group) : WaitSel → Nat
  | .copies => g.nCopy
  | .stores => g.nStore
  | .queue k => tgetD g.nQueue k.toNat 0

/-- The count of a selection: an operation leaves it only once it and every earlier one have completed, so it runs from the oldest
outstanding operation to the newest issued (R97). -/
def countOf (v : View) (sel : WaitSel) : Nat :=
  let out := (opsOfG v.st v.uid v.gid).filter (fun e => counted sel e.2.body)
  let ord := fun (o : Op) => match sel with
    | .queue _ => o.ordq
    | _ => o.ord
  match out with
  | [] => 0
  | e :: t => issuedOf v.g sel - t.foldl (fun a x => min a (ord x.2)) (ord e.2)

def execWaitcnt (h : Hdr) (sel : WaitSel) (n : BitVec 8) (s : State) : Out :=
  issue h [] (fun v _ => if countOf v sel ≤ n.toNat then .done v 0 else .hold v 5) s

end Sys2Proof.Machine
end

