-- ==== Sys2Proof/Machine/Matrix.lean ====
section
/-! DEFINITION. The matrix engine: MMA, MTBL, MTBLSW and BATON of major 0x38 (R195 to R218) and the event that completes an MMA. -/
namespace Sys2Proof.Machine
open Sys2Proof

/-! ### The words of an MMA (R200, R201) -/

/-- Types of the output chain (R201). -/
def otypeOf (n : Nat) : Option Ty :=
  match n with
  | 8 => some .f32
  | 9 => some .f16
  | 10 => some .bf16
  | 11 => some .e4m3
  | 12 => some .e5m2
  | 13 => some .q4
  | _ => none

/-- The command word is legal (R201); `n` is N of the shape word. -/
def commandOK (w : W64) (n : Nat) : Bool :=
  let rq := w.getLsbD 32
  let ot := (fld w 35 5).toNat
  let sm := (fld w 33 2).toNat
  let os := fld w 40 8
  fld w 48 16 == 0 && fld w 0 26 == 0 &&
    (if rq then
      (match otypeOf ot with
       | none => false
       | some t =>
         sm != 3 && !(t == .q4 && sm == 0) && (sm != 2 || t == .q4 || t == .e4m3 || t == .e5m2) &&
           (!(t == .q4 || sm == 2) || n % 32 == 0) && (sm != 1 || fld w 40 6 != 63) && (sm != 2 || fld w 40 6 == 0)) && decide ((fld w 26 3).toNat < 6)
     else !w.getLsbD 31 && !w.getLsbD 30 && ot == 0 && sm == 0 && os == 0 && fld w 26 3 == 0)

/-- Scale bytes of 64 rows or columns and every K-block, from the lane registers (R204). -/
def scaleBytes (g : Group) (reg sel kb : Nat) : List (List W8) :=
  (List.range 64).map (fun l => (List.range kb).map (fun b => byteOf (rget (readV g (reg + (sel + b) / 4)) l) ((sel + b) % 4)))

/-- The command as read at issue; the offsets are absolute in the scratchpad. -/
def mmaOf (v : View) (t : Ty) (d : BitVec 3) (cap : Cap) (sw ww c0 c1 : W64) (bsa bsb : BitVec 2) : MmaCmd :=
  let kb := (fld sw 27 13).toNat / 32
  let sc := sw.getLsbD 40
  let base := capBase cap
  { ty := t, d := 32 * d.toNat, base := base, m := (fld sw 0 8).toNat, n := (fld sw 8 8).toNat, k := (fld sw 27 13).toNat, scaled := sc,
    sa := if sc then scaleBytes v.g (fld sw 48 8).toNat bsa.toNat kb else [],
    sb := if sc then scaleBytes v.g (fld sw 56 8).toNat bsb.toNat kb else [],
    aoff := base + (fld c0 0 32).toNat, boff := base + (fld c0 32 32).toNat,
    bias := if ww.getLsbD 30 then some (base + (fld c1 0 32).toNat) else none,
    ooff := base + (fld c1 32 32).toNat, rq := ww.getLsbD 32, act := if ww.getLsbD 31 then some v.b.act.sel else none,
    zinit := ww.getLsbD 29, rm := (fld ww 26 3).toNat, sround := v.g.sround, smode := (fld ww 33 2).toNat,
    otype := (otypeOf (fld ww 35 5).toNat).getD .f32, oscale := (fld ww 40 8) }

/-- Byte lengths of A, B, the bias and the output (R196, R210). -/
def lenA (m : MmaCmd) : Nat := m.k / 32 * tyWidth m.ty * m.m * 4
def lenB (m : MmaCmd) : Nat := m.k / 32 * tyWidth m.ty * m.n * 4
def lenOut (m : MmaCmd) : Nat := m.m * (m.n * tyWidth m.otype / 8) + (if m.smode = 2 then m.m * (m.n / 32) else 0)

/-- The ranges an MMA reads, and its output. -/
def mmaReads (m : MmaCmd) : List (Nat × Nat) :=
  [(m.aoff, m.aoff + lenA m), (m.boff, m.boff + lenB m)] ++ (match m.bias with
    | some b => [(b, b + 4 * m.n)]
    | none => [])

def spanOf (l : List (Nat × Nat)) : Nat × Nat :=
  match l with
  | [] => (0, 0)
  | x :: t => t.foldl (fun a y => (min a.1 y.1, max a.2 y.2)) x

/-- Effective mode of the output conversion (R131, R209). -/
def mmaMode (g : Group) (n : Nat) : RMode := if n = 0 then modeOf g.frm.toNat else if n = 5 then .st else modeOf (n - 1)

/-- Step 5 of R202: R157 over each range, offsets multiples of 4. -/
def mmaAccess (v : View) (cap : Cap) (m : MmaCmd) : Option Res :=
  let need := if m.rq then pR ||| pW else pR
  let ranges := (mmaReads m) ++ (if m.rq then [(m.ooff, m.ooff + lenOut m)] else [])
  ranges.findSome? (fun r =>
    let off := r.1 - m.base
    (checkRange v cap off (r.2 - r.1) 4 need [1]).orElse (fun _ => if off % 4 = 0 then none else some (accessTrap 6 255 false (genericAddr cap off))))

/-- Steps 3 and 4 of R202 on the scale and accumulator registers; a register pending on an MMA is not void but awaited (R203). An armed queue among
them has been refused at step 6 of R54 (R401; log 37). -/
def mmaRegs (v : View) (m : MmaCmd) (scales : List Nat) : Option Res :=
  let acc := (List.range m.n).map (fun j => m.d + j)
  match (scales ++ acc).findSome? (fun r => indexFault v r true) with
  | some c => some (contract c)
  | none =>
    let void := fun (r : Nat) => !thas v.g.v r && !vPending v r
    if scales.any void || (!m.zinit && acc.any void) then some (contract 1) else none

/-- Outstanding MMAs of a core. -/
def mmasOn (s : State) (core : Nat) : Tbl Op :=
  s.ops.filter (fun e => (match e.2.body with
    | .mma _ => true
    | _ => false) && (match tget s.blocks e.2.blk with
    | some b => blkCore b == core
    | none => false))

/-- Accumulators pending on MMAs of the group with another D (R203). -/
def otherPending (v : View) (m : MmaCmd) (scales : List Nat) : Bool :=
  (opsOfG v.st v.uid v.gid).any (fun e => match e.2.body with
    | .mma x =>
      let hit := fun r => decide (x.d ≤ r) && decide (r < x.d + x.n)
      scales.any hit || (x.d != m.d && (List.range m.n).any (fun j => hit (m.d + j)))
    | _ => false)

def overlaps (a b : Nat × Nat) : Bool := decide (a.1 < b.2) && decide (b.1 < a.2)

/-- The range scoreboard holds an MMA back: an inbound entry of the group overlaps what it reads, or fewer than two entries are free (R212). -/
def mmaRanges (v : View) (m : MmaCmd) : Bool := (mmaReads m).any (fun r => rangeHolds v r.1 r.2 false) || !rangesFree v 2

/-- MMA: the checks of R202 in order, the waits of R203 and R212 in the order of R361, then the operation starts. -/
def mmaIssue (v : View) (t : Ty) (d : HReg) (dv : BitVec 3) (c : CReg) (s w o : SReg) (bsa bsb : BitVec 2) (h : Hdr) : Res :=
  let cap := readC v.g c
  let sw := readS v.g s
  let ww := readS v.g w
  if execOf h v.g ≠ allLanes then contract 5
  else if !(shapeOK t sw && commandOK ww (fld sw 8 8).toNat) then illegal8
  else
    let m := mmaOf v t dv cap sw ww (readS v.g o) (readS v.g (o + 1)) bsa bsb
    let scales := mmaScales sw bsa bsb
    match mmaRegs v m scales with
    | some r => r
    | none =>
      match mmaAccess v cap m with
      | some r => r
      | none =>
        let out := (m.ooff, m.ooff + lenOut m)
        if m.rq && (mmaReads m).any (overlaps out) then illegal8
        else if mmaRanges v m then .hold v 2
        else if v.b.baton ≠ v.gid then .hold v 8
        else if otherPending v m scales || decide (4 ≤ (mmasOn v.st (blkCore v.b)).length) then .hold v 9
        else
          let span := spanOf (mmaReads m)
          let rs := (span.1, span.2, false) :: (if m.rq then [(out.1, out.2, true)] else [])
          let mode := mmaMode v.g m.rm
          .done (startRanged v rs (fun v =>
            let v := startOp v d (.mma { m with rm := match mode with
              | .ne => 0
              | .tz => 1
              | .up => 2
              | .dn => 3
              | .st => 4 })
            if m.rq then bumpRound v mode else v)) 0

def execMma (h : Hdr) (t : Ty) (d : HReg) (v : BitVec 3) (c : CReg) (s w o : SReg) (bsa bsb : BitVec 2) (st : State) : Out :=
  issue h [.hd d, .c c, ssrc s, ssrc w, .s o.toNat (min 2 (64 - o.toNat)) true false, .m t v s bsa bsb]
    (fun x _ => mmaIssue x t d v c s w o bsa bsb h) st

/-! ### Accumulation (R205 to R207) -/

/-- The bits of element `e` of a K-block from its plane words (R196). -/
def planeElem (ws : List Nat) (e : Nat) : Nat := (ws.zip (List.range ws.length)).foldl (fun x p => x + p.1 / 2 ^ e % 2 * 2 ^ p.2) 0

/-- The plane words of row or column `r` of `R` in K-block `b`. -/
def planesAt (m : Cells) (base P R b r : Nat) : List Nat := (List.range P).map (fun p => leNat (bgets m (base + 4 * ((b * P + p) * R + r)) 4))

/-- An operand element as a value; code types come from the scale byte (R204). -/
def matVal (t : Ty) (sb : W8) (x : Nat) : FVal :=
  match t with
  | .q4 => .fin (codeDy (scaleTy sb) x)
  | .i4 => .fin (dyOfInt (BitVec.ofNat 4 x).toInt)
  | .i2 => .fin (dyOfInt (BitVec.ofNat 2 x).toInt)
  | _ => decF (fmtOf t) x

/-- The sum of a block of products: exact, or an infinity, or a NaN with NV (R205). -/
def blockSum (xs : List (Option FVal)) (snan : Bool) : FVal × Flg :=
  let inv := xs.any (fun x => match x with
    | none => true
    | some (.nan _) => true
    | _ => false)
  let pos := xs.any (fun x => x == some (.inf false))
  let neg := xs.any (fun x => x == some (.inf true))
  if inv || (pos && neg) then (.nan false, fNV)
  else if pos then (.inf false, nvIf snan)
  else if neg then (.inf true, nvIf snan)
  else
    let d := xs.foldl (fun a x => match x with
      | some (.fin y) => dyAdd .ne a y
      | _ => a) ({ neg := false, m := 0, e := 0 } : Dy)
    (.fin (if d.m = 0 then { d with neg := false } else d), nvIf snan)

def scaleV (e : Int) : FVal → FVal
  | .fin d => .fin { d with e := d.e + e }
  | x => x

/-- One K-block added to an accumulator element: FP8 and block codes with one rounding, BF16 product by product, integers saturating. A block
with scale exponent 63 adds a quiet NaN, or 32 of them (R125, R205, R206). -/
def accBlock (m : MmaCmd) (acc : Nat) (sa sb : W8) (as bs : List Nat) : Nat × Flg :=
  let invalid := m.scaled && (scaleExp sa == 63 || scaleExp sb == 63)
  let se : Int := if m.scaled then (scaleExp sa : Int) + scaleExp sb - 64 else 0
  let va := as.map (matVal m.ty sa)
  let vb := bs.map (matVal m.ty sb)
  match m.ty with
  | .i4 | .i2 =>
    let x := (va.zip vb).foldl (fun (a : Int) p => match p with
      | (.fin x, .fin y) => a + dyInt (dyMul x y) 0
      | _ => a) 0
    let y := (BitVec.ofNat 32 acc).toInt + x
    ((BitVec.ofInt 32 (clampTo .s32 y)).toNat, satFlag .s32 y)
  | .bf16 =>
    (va.zip vb).foldl (fun a p =>
      let r := match (if invalid then some (.nan false) else mulX p.1 p.2) with
        | none => (nanBits f32, fNV)
        | some x => addV f32 .ne 0 (decF f32 a.1) (scaleV se x)
      (r.1, a.2 ||| r.2)) (acc, 0)
  | _ =>
    let sn := va.any isSnan || vb.any isSnan
    let x := if invalid then (.nan false, 0) else blockSum ((va.zip vb).map (fun p => mulX p.1 p.2)) sn
    let r := addV f32 .ne 0 (decF f32 acc) (scaleV se x.1)
    (r.1, r.2 ||| x.2)

/-- The accumulation of one element over the first `kb` K-blocks. -/
def accElem (mem : Cells) (m : MmaCmd) (acc i j : Nat) : Nat → Nat × Flg
  | 0 => (acc, 0)
  | b + 1 =>
    let r := accElem mem m acc i j b
    let P := tyWidth m.ty
    let pa := planesAt mem m.aoff P m.m b i
    let pb := planesAt mem m.boff P m.n b j
    let x := accBlock m r.1 ((m.sa.getD i []).getD b 0) ((m.sb.getD j []).getD b 0)
      ((List.range 32).map (planeElem pa)) ((List.range 32).map (planeElem pb))
    (x.1, r.2 ||| x.2)

/-! ### The output chain (R209, R210, R214) -/

/-- BF16 bits widened to FP32. -/
def bf16To32 (x : Nat) : Nat := x * 65536

/-- Unbiased exponent of a normal FP32. -/
def exp32 (y : Nat) : Int := ((y / 2 ^ 23 % 256 : Nat) : Int) - 127

/-- Act of R214. -/
def actOf (bank : Tbl W32) (base : BitVec 8) (y : Nat) : Nat × Flg :=
  let i := if y / 2 ^ 31 = 1 then 128 else 0
  let ent := fun k => let w := (tgetD bank k 0).toNat; (bf16To32 (w / 65536), bf16To32 (w % 65536))
  let fma := fun (e : Nat × Nat) => fmaV f32 .ne 0 (decF f32 e.1) (decF f32 y) (decF f32 e.2)
  match decF f32 y with
  | .nan s => (nanBits f32, nvIf s)
  | .inf _ =>
    let e := ent (i + 127)
    if e.1 % 2 ^ 31 = 0 then (e.2, 0) else fma e
  | .fin _ =>
    let t := base.toInt
    let b : Nat :=
      if y / 2 ^ 23 % 256 = 0 ∨ exp32 y < t then 0
      else if t + 31 < exp32 y then 127
      else (exp32 y - t).toNat * 4 + y / 2 ^ 21 % 4
    fma (ent (i + b))

/-- y after the bias and the activation. -/
def chainVal (b : Block) (m : MmaCmd) (mem : Cells) (acc j : Nat) : Nat × Flg :=
  let y0 := match m.ty with
    | .i4 | .i2 => roundF f32 .ne 0 (dyOfInt (BitVec.ofNat 32 acc).toInt)
    | _ => (acc, (0 : Flg))
  let y1 := match m.bias with
    | some a =>
      let r := add32 y0.1 (leNat (bgets mem (a + 4 * j) 4))
      (r.1, y0.2 ||| r.2)
    | none => y0
  match m.act with
  | some k =>
    let r := if k then actOf b.act.bank1 b.act.base1 y1.1 else actOf b.act.bank0 b.act.base0 y1.1
    (r.1, y1.2 ||| r.2)
  | none => y1

/-- Emax of a computed scale (R209). -/
def outEmax (m : MmaCmd) : Int :=
  match m.otype with
  | .e4m3 => 8
  | .e5m2 => 15
  | _ => emaxOf (scaleTy m.oscale)

/-- The scale byte of 32 values of a row, with NV when one is NaN or infinite (R146, R209). -/
def outScale (m : MmaCmd) (ys : List Nat) : Nat × Flg :=
  let vs := ys.map (decF f32)
  let e := if vs.any (fun x => match x with
      | .fin _ => false
      | _ => true) then 63
    else scaleOf (outEmax m) (vs.filterMap (fun x => match x with
      | .fin d => some d
      | _ => none))
  ((if m.otype = .q4 then scaleTy m.oscale * 64 else 0) + e, if e = 63 then fNV else 0)

/-- Convert one value under a scale byte: its bits and flags (R141, R147, R209). -/
def outElem (m : MmaCmd) (byte : Nat) (noise : Nat) (y : Nat) : Nat × Flg :=
  let b : W8 := BitVec.ofNat 8 byte
  if m.otype = .q4 then
    let r := qcode b (modeOf m.rm) noise (decF f32 y)
    (r.1, r.2)
  else if m.smode ≠ 0 && scaleExp b == 63 then (nanBits (fmtOf m.otype), 0)
  else
    let e : Int := if m.smode = 0 then 0 else 32 - (scaleExp b : Int)
    toFloat (fmtOf m.otype) (modeOf m.rm) noise (scaleV e (decF f32 y))

/-- The bytes of the output by offset, in rows, then scale bytes (R210). -/
def outputBytes (v : View) (m : MmaCmd) (mem : Cells) (acc : List (List Nat)) : List W8 × Flg :=
  let W := tyWidth m.otype
  let ys := (List.range m.m).map (fun i => (List.range m.n).map (fun j => chainVal v.b m mem ((acc.getD i []).getD j 0) j))
  let y := fun i j => ((ys.getD i []).getD j (0, 0)).1
  let scales := (List.range m.m).map (fun i => (List.range (m.n / 32)).map (fun b =>
    if m.smode = 2 then outScale m ((List.range 32).map (fun q => y i (32 * b + q))) else (m.oscale.toNat, 0)))
  let byte := fun i j => if m.smode = 2 then ((scales.getD i []).getD (j / 32) (0, 0)).1 else m.oscale.toNat
  let draw := fun i j => if m.rm = 4 then
      noiseOf (identW v (fun b => b.seed)) (noiseKey v i) j m.sround else 0
  let es := (List.range m.m).map (fun i => (List.range m.n).map (fun j => outElem m (byte i j) (draw i j) (y i j)))
  let row := fun i => leBytes (m.n * W / 8) ((List.range m.n).foldl (fun x j => x + ((es.getD i []).getD j (0, 0)).1 * 2 ^ (W * j)) 0)
  let data := (List.range m.m).foldl (fun a i => a ++ row i) []
  let sb := if m.smode = 2 then scales.foldl (fun a r => a ++ r.map (fun x => BitVec.ofNat 8 x.1)) [] else []
  let orAll := fun (f : Flg) (r : List (Nat × Flg)) => r.foldl (fun a e => a ||| e.2) f
  let fl := es.foldl orAll (ys.foldl orAll 0)
  (data ++ sb, if m.smode = 2 then scales.foldl orAll fl else fl)

/-! ### Completion (R208, R211) -/

/-- The MMAs of a core run in issue order: this one is the oldest. -/
def mmaFirst (s : State) (id : Nat) (o : Op) : Bool :=
  match tget s.blocks o.blk with
  | some b => (mmasOn s (blkCore b)).all (fun e => decide (id ≤ e.1))
  | none => true

/-- How many K-blocks of an element are accumulated: all, or when cancelled a free number (R211). -/
def blocksDone (free kb : Nat) (cancelled : Bool) (i j : Nat) : Nat :=
  if cancelled then (Config.freeWord (free + 64 * i + j)).toNat % (kb + 1) else kb

/-- The old accumulator element. -/
def accOld (g : Group) (m : MmaCmd) (i j : Nat) : Nat := if m.zinit then 0 else (rget (readV g (m.d + j)) i).toNat

/-- Results of the accumulation: one list per row, with the flags. -/
def accAll (v : View) (m : MmaCmd) (mem : Cells) (cancelled : Bool) : List (List (Nat × Flg)) :=
  (List.range m.m).map (fun i => (List.range m.n).map (fun j =>
    let k := blocksDone v.st.free (m.k / 32) cancelled i j
    if cancelled && k == 0 then ((rget (readV v.g (m.d + j)) i).toNat, 0) else accElem mem m (accOld v.g m i j) i j k))

/-- Write the accumulator: lane i of v(D+j) (R203). -/
def writeAcc (g : Group) (m : MmaCmd) (acc : List (List Nat)) : Group :=
  (List.range m.n).foldl (fun g j =>
    writeVreg g (m.d + j) (maskOf (fun i => decide (i < m.m))) (rowOf (fun i => BitVec.ofNat 32 ((acc.getD i []).getD j 0)))) g

/-- The bytes that an output changes of which only the elements and scale bytes of some numbers are written, each whole: elements are numbered in
rows, and scale byte `k` of the output is number `2 × n + k` (R210, R211). A 4-bit element is half a byte. -/
def someOut (took : Nat → Bool) (m : MmaCmd) (mem : Cells) (bs : List W8) : List (Nat × W8) :=
  let W := tyWidth m.otype
  let n := m.m * (m.n * W / 8)
  let half := fun (k : Nat) (x : W8) => (if took (2 * k) then x &&& 0x0F else bget mem (m.ooff + k) &&& 0x0F) |||
    (if took (2 * k + 1) then x &&& 0xF0 else bget mem (m.ooff + k) &&& 0xF0)
  (bs.zip (List.range bs.length)).filterMap (fun e =>
    let k := e.2
    if n ≤ k then (if took (2 * n + k) then some (m.ooff + k, e.1) else none)
    else if W = 4 then (if took (2 * k) || took (2 * k + 1) then some (m.ooff + k, half k e.1) else none)
    else if took (k / (W / 8)) then some (m.ooff + k, e.1) else none)

/-- The scratchpad that an MMA addresses, as it stands, and as the MMA finds it: what it has read already stays as it was then (R212, R256). -/
def mmaMem (s : State) (o : Op) : Cells :=
  match tget s.blocks o.sblk with
  | some b => b.scratch
  | none => []
def mmaFound (s : State) (o : Op) : Cells := o.got.foldl (fun m e => bput m e.1 e.2) (mmaMem s o)

/-- The addresses of the plane and bias words that an MMA reads. -/
def mmaWords (m : MmaCmd) : List Nat := (mmaReads m).foldl (fun l r => l ++ (List.range ((r.2 - r.1) / 4)).map (fun i => r.1 + 4 * i)) []

/-- What the whole accumulation and its output give. -/
def mmaResult (v : View) (o : Op) (m : MmaCmd) : List (List (Nat × Flg)) × List W8 × Flg :=
  let mem := mmaFound v.st o
  let res := accAll v m mem o.cancel
  (res, if m.rq then outputBytes v m mem (res.map (fun r => r.map (fun e => e.1))) else ([], 0))

/-- An element event of an MMA before its completion: plane or bias word `i` is read, or, once all have been and it is the oldest of its core, an
output element or scale byte is written, numbered behind the words (R208, R212, R256). -/
def mmaEvent (v : View) (id : Nat) (o : Op) (m : MmaCmd) (i : Nat) : State :=
  let ws := mmaWords m
  if o.cancel then v.st
  else if i < ws.length then readEarly v.st id o (ws.getD i 0) 4
  else if !m.rq || !mmaFirst v.st id o || !ws.all (fun a => thas o.got a) || o.wrote.contains (i - ws.length) then v.st
  else
    match someOut (fun q => q == i - ws.length) m (mmaMem v.st o) (mmaResult v o m).2.1 with
    | [] => v.st
    | ps => ps.foldl (fun s e => opScratchPut s o e.1 [e.2]) (putWrote v.st id (i - ws.length))

/-- The end of an MMA: the accumulator, the output and the flags, then the handle; an enabled flag traps at the word of the MMA (R208, R211). The
output elements that a cancelled MMA writes are of the accumulator as it then stands (DESIGN CHOICE, log 40). -/
def finishMma (v : View) (id : Nat) (o : Op) (m : MmaCmd) : State :=
  let r := mmaResult v o m
  let res := r.1
  let out := r.2
  let acc := res.map (fun r => r.map (fun e => e.1))
  let accFl := res.foldl (fun f r => r.foldl (fun a e => a ||| e.2) f) (0 : Flg)
  let free := v.st.free + 4096
  let puts :=
    if o.cancel then someOut (fun q => (Config.freeWord (free + q)).getLsbD 0 && !o.wrote.contains q) m (mmaMem v.st o) out.1
    else if o.wrote.isEmpty then (out.1.zip (List.range out.1.length)).map (fun e => (m.ooff + e.2, e.1))
    else someOut (fun q => !o.wrote.contains q) m (mmaMem v.st o) out.1
  let fl : Flg := if o.cancel then 0 else accFl ||| out.2
  let s := flush { v with g := { writeAcc v.g m acc with fflags := v.g.fflags ||| fl },
                          st := if o.cancel then { v.st with free := free + 3 * out.1.length } else v.st }
  let s := puts.foldl (fun s e => opScratchPut s o e.1 [e.2]) s
  let s := finishOp s id (if o.cancel then 0x00FF else 0)
  match trapFlag (fl &&& v.g.ftrap) with
  | some n => lateTrap s o.blk (lateFault s { o with h := 0 } 2 n 0)
  | none => s

/-- MMA_COMPLETE: the oldest MMA of its core ends (R208), or an element event of one takes place. -/
def execMmaComplete (x : OpElem) (s : State) : Out :=
  .next (
    match tget s.ops x.op with
    | some o =>
      match o.body, viewAt s o.blk o.gid with
      | .mma m, some v =>
        (match x.elem with
         | some i => mmaEvent v x.op o m i
         | none => if mmaFirst s x.op o then finishMma v x.op o m else s)
      | _, _ => s
    | none => s)

/-! ### The activation table and the baton (R215 to R217) -/

/-- An MMA outstanding in the block is bound to a bank. -/
def bankBound (v : View) (bank : Bool) : Bool :=
  (opsOf v.st v.uid).any (fun e => match e.2.body with
    | .mma m => m.act == some bank
    | _ => false)

/-- MTBL fills the inactive bank; it waits under reason 9 while an MMA is still bound to it (R215, R216). -/
def execMtbl (h : Hdr) (a : VReg) (q : SReg) (s : State) : Out :=
  issue h [vsrc .n32 a, ssrc q] (fun v rows =>
    let w := readS v.g q
    let t := v.b.act
    let bank := !t.sel
    let m := execOf h v.g
    if w >>> 16 ≠ 0 ∨ fld w 3 5 ≠ 0 then illegal8
    else if bankBound v bank then .hold v 9
    else
      let put := fun (b : Tbl W32) => (laneList m).foldl (fun b l => tput b (64 * (fld w 0 2).toNat + l) (rget (rows.headD zeroRow) l)) b
      let base : BitVec 8 := fld w 8 8
      let t := if bank then { t with bank1 := put t.bank1, base1 := if w.getLsbD 2 then base else t.base1 }
        else { t with bank0 := put t.bank0, base0 := if w.getLsbD 2 then base else t.base0 }
      .done { v with b := { v.b with act := t } } 0) s

def execMtblsw (h : Hdr) (s : State) : Out :=
  issue h [] (fun v _ => .done { v with b := { v.b with act := { v.b.act with sel := !v.b.act.sel } } } 0) s

/-- BATON take, pass and test (R217). -/
def execBaton (h : Hdr) (m : BatonMode) (s : State) : Out :=
  match m with
  | .take => issue h [] (fun v _ => if v.b.baton = v.gid then .done v 0 else .hold v 8) s
  | .pass => issue h [] (fun v _ =>
      if v.b.baton = v.gid then .done { v with b := { v.b with baton := batonNext v.b.groups v.gid } } 0 else .done v 0) s
  | .test d => issue h [sdst d] (fun v _ => doneS v d (boolW (v.b.baton == v.gid))) s

end Sys2Proof.Machine
end

