-- ==== Sys2Proof/Machine/Mesh.lean ====
section
/-! DEFINITION. One clock of the mesh: the service of router outputs (R302), the moves of flits over links with their checks (R301, R304, R315 to
R317), arrivals with their replies (R299, R318), and what enters the mesh. -/
namespace Sys2Proof.Machine
open Sys2Proof

/-- Which of two flits at one output goes first: the one that entered the mesh earlier, then by input, then by the order of entry. -/
def flitBefore (a b : Flit) : Bool := lexBefore (serveKey a.inp a.hdr) (serveKey b.inp b.hdr)

/-- The flit is the one that its output serves in this clock, among the flits and, on the interest plane, the interests that may pass there
(R302). -/
def served (s : State) (f : Flit) : Bool :=
  let out := routeDir f.plane f.at' f.hdr.dst
  !flitHeld s f && (inBuffer s f.plane f.at' out).all (fun g => g.hdr.num == f.hdr.num || !flitReady s g || flitBefore f g) &&
    (f.plane != .interest || (s.ipkts.zip (List.range s.ipkts.length)).all (fun e =>
      e.1.stop != f.at' || interestOut s e.1 != out || !interestReady s e.2 e.1 || lexBefore (serveKey f.inp f.hdr) (serveKey e.1.dir e.1.hdr)))

/-- A flit stands at its source again, with the words that its sectors have there. -/
def backToSource (f : Flit) : Flit := { f with at' := f.src, inp := 0, prev := 0, entered := false }

/-- The sender still keeps every sector of a flit that failed: it is sent again from its source, with the later flits of the plane for the same stop,
and the failure and the refetch are counted (R301, R316, R317). -/
def resendFlit (s : State) (f : Flit) (link : Nat) : State :=
  let later := fun (g : Flit) => g.plane == f.plane && g.src == f.src && g.hdr.dst == f.hdr.dst && decide (f.hdr.num < g.hdr.num)
  let s := refetchLink s link
  { s with flits := s.flits.map (fun g =>
      if g.hdr.num = f.hdr.num then { backToSource f with sectors := f.sectors.map (fun x => (x.1, crc32c x.1)) }
      else if later g then backToSource g else g) }

/-- A flit at its destination: one that fails its check words is sent again; an access is answered by a reply that echoes its mark and brings what a
read finds, a cellar miss by the bytes that the cellar holds; a reply hands an echoed mark to its controller, a mark of exchange data is counted
(R299, R313, R315, R318, R319). A name operation waits to be applied. -/
def arriveFlit (s : State) (f : Flit) : State :=
  if !sectorsGood f.sectors then resendFlit s f (inputLink f.at' f.inp)
  else
  match f.body with
  | .access core cls back => sendFlit (dropFlit s f) .reply f.hdr.tenant f.at' core f.hdr.mark (.reply core cls) back
  | .reply core cls => let s := dropFlit s f; if f.hdr.echo then cutRate s core f.hdr.tenant cls else s
  | .cellar => dropFlit s f
  | .miss back frame n => sendFlit (dropFlit s f) .reply f.hdr.tenant f.at' back f.hdr.mark .cellar (bgets s.cellar frame n)
  | .nameOp op => if thas s.ops op then s else dropFlit s f
  | .exch _ _ => { dropFlit s f with errs := { s.errs with exch := s.errs.exch + (if f.hdr.mark then 1 else 0) } }

/-- One clock of a flit: it is served at its output and moves over the link to the next stop, its sectors verified at a die crossing. -/
def moveFlit (s : State) (f : Flit) : State :=
  let dir := routeDir f.plane f.at' f.hdr.dst
  if dir = 0 then arriveFlit s f
  else
    let next := neighbour f.at' dir
    let k := linkId f.at' dir
    if !linkUp s k || !served s f || !roomAhead s f next then s
    else if crossesDie f.at' dir && !sectorsGood f.sectors then resendFlit s f k
    else
      let s := linkPass s k (planeNum f.plane) f.hdr.num
      let s := putFlit s (markAt (dropFlit s f) { f with at' := next, inp := opposite dir, prev := f.inp, since := s.clock + 1 })
      { s with nextFlit := s.nextFlit + 1 }

/-- A flit's turn: the link rejects one whose header fails its check word, and the sender sends it again (R317); another moves. -/
def crossFlit (s : State) (f : Flit) : State :=
  let dir := routeDir f.plane f.at' f.hdr.dst
  if dir != 0 && flitReady s f && served s f && !hdrGood f.plane f.hdr then
    putFlit (retryLink s (linkId f.at' dir)) { f with hdr := sealHdr f.plane f.hdr }
  else moveFlit s f

/-- The flit of a number. -/
def flitNum (s : State) (n : Nat) : Option Flit := s.flits.find? (fun g => g.hdr.num == n)

/-- Every flit in the mesh that has stood at its stop since before this clock has its turn. -/
def moveFlits (s : State) : State :=
  (s.flits.filter (fun f => f.entered && decide (f.since ≤ s.clock))).foldl (fun s f =>
    match flitNum s f.hdr.num with
    | some g => crossFlit s g
    | none => s) s

/-- Flits that wait at their sources enter the mesh where they may. -/
def enterFlits (s : State) : State :=
  (s.flits.filter (fun f => !f.entered)).foldl (fun s f =>
    match flitNum s f.hdr.num with
    | some g => if mayEnter s g then putFlit s (enterMesh s g) else s
    | none => s) s

/-- The next 512 bytes that a page comes from the cellar with are asked for, those lines left out that are not wanted, once no request waits to
leave the home (R299, R323). -/
def fillStep (s : State) (x : Fill) : State × Option Fill :=
  match homeStop s x.part x.addr with
  | none => (s, none)
  | some h =>
    if s.flits.any (fun f => !f.entered && f.plane == .request && f.src == h) then (s, some x)
    else
      let lines := ((List.range 4).map (fun i => (x.addr / 128 + i, x.frame + 128 * i))).filter (fun e => !x.skip.contains e.1)
      let s := if lines.length = 4 then cellarMiss s x.part h x.frame 512 else lines.foldl (fun s e => cellarMiss s x.part h e.2 128) s
      let y := { x with addr := x.addr + 512, frame := x.frame + 512 }
      (s, if y.addr < x.stop then some y else none)

/-- One clock of what homes ask the cellar for. -/
def fillTick (s : State) : State :=
  s.fills.foldl (fun s x =>
    let r := fillStep s x
    { r.1 with fills := r.1.fills ++ r.2.toList }) { s with fills := [] }

/-- One clock of the mesh. -/
def meshTick (s : State) : State := fillTick (enterFlits (moveFlits s))

end Sys2Proof.Machine
end

