-- ==== Sys2Proof/Machine/Windows.lean ====
section
/-! DEFINITION. Windows and collectives: PUT, WCTR, ARED, A2AV and XCHG of major 0x3D, SORTK of major 0x3E (R236 to R245), with the events
that land elements, join ranks and swap registers. -/
namespace Sys2Proof.Machine
open Sys2Proof

/-! ### Windows and ranks (R236, R321) -/

/-- A rank's partition and window, where it is one of this package that has registered the window. -/
def rankWindow (s : State) (part wid rank : Nat) : Option (Nat × Window) :=
  match rankAt s part rank with
  | some (.here p) => (windowOf s p wid).map (fun x => (p, x))
  | _ => none

/-- A rank that a transfer can reach: one of another package, or one of this package with the window. -/
def rankReached (s : State) (part wid rank : Nat) : Bool :=
  match rankAt s part rank with
  | some (.away _ _ _) => true
  | _ => (rankWindow s part wid rank).isSome

/-- A window word: its window id and rank; `none` when bits 63..28 are not zero, for which the instruction is illegal (R236; DESIGN CHOICE, log 40). -/
def windowWord (x : W64) : Option (Nat × Nat) := if x >>> 28 ≠ 0 then none else some ((fld x 0 16).toNat, (fld x 16 12).toNat)

/-! ### PUT (R238) -/

/-- The early status of a PUT, if any, under the issuing partition's table and map (R238, R321). -/
def putStatus (s : State) (part wid rank off len : Nat) : Option W16 :=
  match windowOf s part wid with
  | none => some 0x0301
  | some w =>
    if w.nranks ≤ rank ∨ rankReached s part wid rank = false then some 0x0302
    else if w.length < off + len then some 0x0303 else none

/-- PUT (R238); a length of 0, or of 2^24 and more, is illegal (DESIGN CHOICE, log 40). -/
def execPut (h : Hdr) (t : Ty) (d : HReg) (c : CReg) (o w tg : SReg) (s : State) : Out :=
  issue h [.hd d, .c c, ssrc o, ssrc w, .s tg.toNat (min 2 (64 - tg.toNat)) true false] (fun v _ =>
    let esz := eszOf t
    let off := (readS v.g o).toNat
    let dst := (readS v.g tg).toNat
    let len := (readS v.g (tg + 1)).toNat
    let cap := readC v.g c
    match windowWord (readS v.g w) with
    | none => illegal8
    | some (wid, rank) =>
      if len = 0 ∨ 2 ^ 24 ≤ len then illegal8
      else
        match checkRange v cap off len esz pR [1] with
        | some r => r
        | none =>
          if off % esz ≠ 0 ∨ dst % esz ≠ 0 ∨ len % esz ≠ 0 then accessTrap 6 255 false (genericAddr cap off)
          else
            match putStatus v.st v.b.part wid rank dst len with
            | some st => .done (startKeyed v d (.ready st)) 0
            | none =>
              let lo := capBase cap + off
              fed v 2 (withRanges v [(lo, lo + len, false)] (fun v => startKeyed v d (.put esz lo len wid rank dst [])))) s

/-- Store committed bytes in a rank's segment for an operation: done, waiting for the page, or a fault. -/
def landBytes (s : State) (o : Op) (part addr : Nat) (bs : List W8) : StoreRes :=
  devStore (sendAccess s o addr bs []) part addr bs (opWriter o)

/-- An element of a PUT lands in a segment of this package, or leaves through a port. -/
def landElem (s : State) (id : Nat) (o : Op) (esz src len wid rank off : Nat) (landed : List Nat) (i : Nat) : State :=
  let part := partOfBlk s o.blk
  let bs := opScratch s o (src + i * esz) esz
  let next := fun (s : State) => setBody s id (.put esz src len wid rank off (nput landed i))
  match rankAt s part rank, rankWindow s part wid rank, windowOf s part wid with
  | some (.away ps g q), _, some w =>
    let m : XMsg := { pkg := g, part := q, wid := wid, rank := w.myrank, body := .elems none (off + i * esz) bs, words := [] }
    next (putPort s ((opCore s o).getD 0) part (portFor ps (off + i * esz)) m bs)
  | _, some (p, x), _ =>
    (match landBytes s o p (x.base + off + i * esz) bs with
     | .done s => next s
     | .wait s => s
     | .bad s c d => finishBad (noteAddr s id (x.base + off + i * esz)) id o (c, d))
  | _, _, _ => finishOp s id 0x0302

/-- Every element of a PUT has landed: both counters gain 1, the sectors that it covers are no longer lost, and the handle completes; the end of one
that left through a port, element number `len / esz`, is acknowledged first (R238, R316). -/
def putDone (s : State) (id : Nat) (o : Op) (esz src len wid rank off : Nat) (landed : List Nat) : State :=
  let part := partOfBlk s o.blk
  match rankAt s part rank, rankWindow s part wid rank with
  | some (.away _ _ _), _ =>
    if landed.contains (len / esz) then s
    else tellRank (setBody s id (.put esz src len wid rank off (nput landed (len / esz)))) part wid rank (.last id none)
  | _, some (p, x) =>
    let s' := endLogged s id o 0
    if thas s'.ops id then s'
    else
      let s' := clearLost s' p (rangeCovers (x.base + off) len)
      modWindow (modWindow s' p wid (fun w => { w with cin := w.cin + 1 })) part wid (fun w => { w with cout := w.cout + 1 })
  | _, _ => finishOp s id 0x0302

/-- PUT_LANDING: one element lands as committed data, or, when all have, the PUT ends (R238, R183). A PUT that a re-fire left outstanding
waits for its repeat (R258). -/
def execPutLanding (id : Nat) (elem : Option Nat) (s : State) : Out :=
  .next (
    match tget s.ops id with
    | some o =>
      match o.body with
      | .put esz src len wid rank off landed =>
        if !opBound s id o then s
        else
          (match elem with
           | some i => if len / esz ≤ i ∨ landed.contains i ∨ opMaySend s o = false then s else landElem s id o esz src len wid rank off landed i
           | none => if landed.length < len / esz then s else putDone s id o esz src len wid rank off landed)
      | _ => s
    | none => s)

/-! ### WCTR (R239) -/

/-- A counter of a window, and its update. -/
def execWctr (h : Hdr) (d w x : SReg) (m : WctrMode) (s : State) : Out :=
  let src := match m with
    | .rdIn | .rdOut => []
    | _ => [ssrc x]
  issue h ([ssrc w] ++ src ++ [sdst d]) (fun v _ =>
    match windowWord (readS v.g w) with
    | none => illegal8
    | some (wid, rank) =>
      if rank ≠ 0 then illegal8
      else
        match windowOf v.st v.b.part wid with
        | none => illegal8
        | some win =>
          let y := readS v.g x
          let reached := fun (c : W64) => decide ((c - y).toNat < 2 ^ 63)
          match m with
          | .rdIn => doneS v d win.cin
          | .rdOut => doneS v d win.cout
          | .waitIn => if reached win.cin then doneS v d win.cin else .hold v 5
          | .waitOut => if reached win.cout then doneS v d win.cout else .hold v 5
          | .subIn => doneS { v with st := modWindow v.st v.b.part wid (fun w => { w with cin := w.cin - y }) } d (win.cin - y)
          | .subOut => doneS { v with st := modWindow v.st v.b.part wid (fun w => { w with cout := w.cout - y }) } d (win.cout - y)) s

/-! ### SORTK (R240) -/

/-- Read `n` little-endian numbers of `sz` bytes. -/
def readNums (m : Cells) (a sz n : Nat) : List Nat := (List.range n).map (fun i => leNat (bgets m (a + sz * i) sz))

def execSortk (h : Hdr) (d : HReg) (c : CReg) (k cn n : SReg) (s : State) : Out :=
  issue h [.hd d, .c c, .s k.toNat (min 2 (64 - k.toNat)) true false, .s cn.toNat (min 2 (64 - cn.toNat)) true false, ssrc n] (fun v _ =>
    let w := readS v.g n
    let t := (fld w 0 17).toNat
    let e := (fld w 32 16).toNat
    let cap := readC v.g c
    let a := fun (r : SReg) => (readS v.g r).toNat
    let arr := [(a k, 2 * t, 2, pR), (a (k + 1), 2 * t, 2, pW), (a cn, 4 * e, 4, pW), (a (cn + 1), 4 * e, 4, pW)]
    if t = 0 ∨ 65536 < t ∨ e = 0 ∨ 4096 < e ∨ fld w 17 15 ≠ 0 ∨ fld w 48 16 ≠ 0 then illegal8
    else
      match arr.findSome? (fun r => checkRange v cap r.1 r.2.1 r.2.2.1 r.2.2.2 [1]) with
      | some r => r
      | none =>
        let b := capBase cap
        let keys := (b + a k, b + a k + 2 * t)
        let outs := [(b + a (k + 1), b + a (k + 1) + 2 * t), (b + a cn, b + a cn + 4 * e), (b + a (cn + 1), b + a (cn + 1) + 4 * e)]
        if outs.any (fun o => decide (o.1 < keys.2) && decide (keys.1 < o.2)) then illegal8
        else
          let span := outs.foldl (fun x y => (min x.1 y.1, max x.2 y.2)) (b + a (k + 1), b + a (k + 1) + 2 * t)
          withRanges v [(keys.1, keys.2, false), (span.1, span.2, true)]
            (fun v => startOp v d (.sortk (b + a k) (b + a (k + 1)) (b + a cn) (b + a (cn + 1)) t e))) s

/-- What SORTK writes: the permutation, the counts and the exclusive offsets (R240). -/
def sortkResult (keys : List Nat) (e : Nat) : List Nat × List Nat × List Nat :=
  let ix := keys.zip (List.range keys.length)
  let at' := fun k => (ix.filter (fun p => p.1 == k)).map (fun p => p.2)
  let groups := (List.range e).map at'
  let counts := groups.map List.length
  let offs := (List.range e).map (fun k => (counts.take k).foldl (· + ·) 0)
  (groups.foldl (· ++ ·) [] ++ at' 0xFFFF, counts, offs)

/-- Write elements, each at its address with its size, but for those written already; on a cancel a free bit decides for each whether it was
written (R95). -/
def putElems (s : State) (o : Op) (xs : List (Nat × Nat × Nat)) (partial' : Bool) : State :=
  (xs.zip (List.range xs.length)).foldl (fun s x =>
    if o.wrote.contains x.2 then s
    else if partial' then
      let f := freeNext s
      if f.1.getLsbD 0 then opScratchPut f.2 o x.1.1 (leBytes x.1.2.1 x.1.2.2) else f.2
    else opScratchPut s o x.1.1 (leBytes x.1.2.1 x.1.2.2)) s

/-- The keys that a SORTK finds, those that it has read already as they were then (R256). -/
def sortkKeys (s : State) (o : Op) (k t : Nat) : List Nat :=
  let bs := gotOver o k (opScratch s o k (2 * t))
  (List.range t).map (fun i => leNat (bs.drop (2 * i) |>.take 2))

/-- The elements that a SORTK writes, each with its address and size: the permutation, the counts, the offsets. -/
def sortkPuts (keys : List Nat) (p c f e : Nat) : List (Nat × Nat × Nat) :=
  let r := sortkResult keys e
  let at' := fun (a sz : Nat) (xs : List Nat) => (xs.zip (List.range xs.length)).map (fun x => (a + sz * x.2, sz, x.1))
  at' p 2 r.1 ++ at' c 4 r.2.1 ++ at' f 4 r.2.2

/-- An element event of a SORTK before its completion: key `i` is read, or, once all have been, output element `i - t` is written (R256). -/
def sortkElem (s : State) (id : Nat) (o : Op) (k p c f t e i : Nat) : State :=
  let keys := sortkKeys s o k t
  if o.cancel then s
  else if i < t then readEarly s id o (k + 2 * i) 2
  else if !(List.range t).all (fun j => thas o.got (k + 2 * j)) || keys.any (fun x => decide (e ≤ x) && x != 0xFFFF) || o.wrote.contains (i - t) then s
  else
    match (sortkPuts keys p c f e)[i - t]? with
    | some x => putWrote (opScratchPut s o x.1 (leBytes x.2.1 x.2.2)) id (i - t)
    | none => s

/-- SORTK_COMPLETE (R240, R95); what has had an event of its own is not written again. -/
def execSortkComplete (x : OpElem) (s : State) : Out :=
  .next (
    match tget s.ops x.op with
    | some o =>
      match o.body, x.elem with
      | .sortk k p c f t e, some i => sortkElem s x.op o k p c f t e i
      | .sortk k p c f t e, none =>
        let keys := sortkKeys s o k t
        if keys.any (fun x => decide (e ≤ x) && x != 0xFFFF) then finishOp s x.op (if o.cancel then 0xFF else 0x0311)
        else finishOp (putElems s o (sortkPuts keys p c f e) o.cancel) x.op (if o.cancel then 0xFF else 0)
      | _, _ => s
    | none => s)

/-! ### Collectives (R241 to R243) -/

/-- Window and collective number of an operation. -/
def collOf : OpBody → Option (Nat × Nat)
  | .ared w k _ _ _ _ => some (w, k)
  | .a2av w k _ _ _ _ _ _ _ _ => some (w, k)
  | _ => none

/-- Take the next collective number of a window, unless the key is a repeat (R241, R258); `post` is what the other ranks are told at once. -/
def startCollective (v : View) (d : HReg) (wid : Nat) (body : Nat → OpBody) (post : Option RColl) : View :=
  let key := nextKey v
  if (logFind v.b key).isSome || (opOfKey v.st v.uid key).isSome then startKeyed v d (body 0)
  else
    let k := ((windowOf v.st v.b.part wid).map (fun w => w.coll)).getD 0
    let w := startKeyed { v with st := modWindow v.st v.b.part wid (fun w => { w with coll := w.coll + 1 }) } d (body k)
    match post with
    | some c => { w with st := postColl w.st v.b.part wid k c }
    | none => w

/-- A repeat of a logged ARED writes the logged result again and raises the logged flags (R258). -/
def replayAred (v : View) (dst : Nat) : View × Flg :=
  match logFind v.b (nextKey v) with
  | some e => (onState v (fun st => opScratchPut st (mkOp v 0 (.ready 0) none) dst e.bytes), e.flags)
  | none => (v, 0)

def execAred (h : Hdr) (d : HReg) (c : CReg) (w a : SReg) (ct : CodeTy) (s : State) : Out :=
  issue h [.hd d, .c c, ssrc w, .s a.toNat (min 3 (64 - a.toNat)) true false] (fun v _ =>
    let cap := readC v.g c
    let src := (readS v.g a).toNat
    let dst := (readS v.g (a + 1)).toNat
    let n := (fld (readS v.g (a + 2)) 0 17).toNat
    match windowWord (readS v.g w) with
    | none => illegal8
    | some (wid, _) =>
      if n = 0 ∨ 65536 < n then illegal8
      else
        match (checkRange v cap src (17 * n) 1 pR [1]).orElse (fun _ => checkRange v cap dst (17 * n) 1 pW [1]) with
        | some r => r
        | none =>
          let b := capBase cap
          if (windowOf v.st v.b.part wid).isNone then .done (startKeyed v d (.ready 0x0301)) 0
          else
            let x := replayAred v (b + dst)
            .done (startCollective x.1 d wid (fun k => .ared wid k (b + src) (b + dst) n ct) none) x.2) s

def execA2av (h : Hdr) (t : Ty) (d : HReg) (ca cb : CReg) (w p q : SReg) (s : State) : Out :=
  issue h [.hd d, .c ca, .c cb, ssrc w, ssrc p, .s q.toNat (min 2 (64 - q.toNat)) true false] (fun v _ =>
    let capA := readC v.g ca
    let capB := readC v.g cb
    let esz := eszOf t
    let cnt := (readS v.g p).toNat
    let src := (readS v.g q).toNat
    let dst := (readS v.g (q + 1)).toNat
    match windowWord (readS v.g w) with
    | none => illegal8
    | some (wid, _) =>
      match windowOf v.st v.b.part wid with
      | none => .done (startKeyed v d (.ready 0x0301)) 0
      | some win =>
        let n := win.nranks
        match (checkRange v capA cnt (4 * n) 4 pR [1]).orElse (fun _ => checkRange v capA (cnt + 4 * n) (8 * n) 4 pW [1]) with
        | some r => r
        | none =>
          let lo := capBase capA + cnt
          let mem := match (scratchUid v).bind (fun u => if u = v.uid then some v.b else tget v.st.blocks u) with
            | some b => b.scratch
            | none => []
          let send := readNums mem lo 4 n
          let total := send.foldl (· + ·) 0
          match checkRange v capB src (esz * total) esz pR [0] with
          | some r => r
          | none =>
            if cnt % 4 ≠ 0 then accessTrap 6 255 false (genericAddr capA cnt)
            else if src % esz ≠ 0 ∨ dst % esz ≠ 0 then accessTrap 6 255 false (genericAddr capB src)
            else
              let c : RColl := { RColl.init with esz := esz, send := send, dst := dst, len := win.length }
              fed v 2 (.done (startCollective v d wid
                (fun k => .a2av wid k esz lo (capBase capB + src) dst send (List.replicate n []) [] none) (some c)) 0)) s

/-- What each rank of a window has issued as its k-th collective, in rank order; `none` while one has not. -/
def ranksOf (w : Window) (k : Nat) : Option (List RColl) :=
  (List.range w.nranks).foldl (fun acc r =>
    match acc, tget w.issued (collKey k r) with
    | some l, some c => some (l ++ [c])
    | _, _ => none) (some [])

/-- Some rank cannot be reached (R321), or has withdrawn (R241). -/
def rankMissing (s : State) (part wid : Nat) (w : Window) : Bool := (List.range w.nranks).any (fun r => !rankReached s part wid r)
def rankGone (k : Nat) (w : Window) : Bool :=
  w.gone.contains k || (List.range w.nranks).any (fun r => ((tget w.issued (collKey k r)).map (fun c => c.gone)).getD false)

/-- The ranks agree on kind, type, block count and output type (R241). -/
def agree (a b : RColl) : Bool := a.ared == b.ared && a.esz == b.esz && a.n == b.n

/-- Round x × 2^p to an integer, nearest even; true when inexact. -/
def roundShift (x : Int) (p : Int) : Int × Bool :=
  if 0 ≤ p then (x * 2 ^ p.toNat, false)
  else
    let d : Nat := 2 ^ (-p).toNat
    let q := x / (d : Int)
    let r := x % (d : Int)
    if r = 0 then (q, false)
    else if 2 * r < d then (q, true)
    else if (d : Int) < 2 * r then (q + 1, true)
    else (if q % 2 = 0 then q else q + 1, true)

/-- One block of ARED: the codes and scale bytes of every rank give 32 codes, a scale byte and flags (R243). -/
def aredBlock (ct : Nat) (ins : List (List Nat × W8)) : List Nat × Nat × Flg :=
  let E := ins.foldl (fun m x => max m (scaleExp x.2)) 0
  if E = 63 then (List.replicate 32 0, ct * 64 + 63, 0)
  else
    let sums := (List.range 32).map (fun j => ins.foldl (fun (acc : Int × Bool) x =>
      let d := codeDy (scaleTy x.2) (x.1.getD j 0)
      let r := roundShift (dyInt d d.e) (d.e + (scaleExp x.2 : Int) + 8 - (E : Int))
      (acc.1 + r.1, acc.2 || r.2)) (0, false))
    let ys := sums.map (fun x => { dyOfInt x.1 with e := (E : Int) - 40 })
    let byte := ct * 64 + scaleOf (emaxOf ct) ys
    let cs := ys.map (fun y => qcode (BitVec.ofNat 8 byte) .ne 0 (.fin y))
    (cs.map (fun c => c.1), byte, cs.foldl (fun f c => f ||| c.2) (if sums.any (fun x => x.2) then fNX else 0))

/-- Codes and scale byte of block `k` of an ARED input of `n` blocks. -/
def aredInput (bytes : List W8) (n k : Nat) : List Nat × W8 :=
  ((List.range 32).map (fun j => (bytes.getD (16 * k + j / 2) 0).toNat / 16 ^ (j % 2) % 16), bytes.getD (16 * n + k) 0)

/-- The output bytes of an ARED over the ranks' inputs, and its flags. -/
def aredOutput (ct n : Nat) (ins : List (List W8)) : List W8 × Flg :=
  let blocks := (List.range n).map (fun k => aredBlock ct (ins.map (fun m => aredInput m n k)))
  let codes := blocks.foldl (fun a b => a ++ leBytes 16 ((b.1.zip (List.range 32)).foldl (fun x c => x + c.1 * 16 ^ c.2) 0)) []
  (codes ++ blocks.map (fun b => BitVec.ofNat 8 b.2.1), blocks.foldl (fun f b => f ||| b.2.2) 0)

/-- An ARED that has every rank's input ends at this rank once its log entry has room: output, flags, and an enabled arithmetic trap (R132, R243,
R353). -/
def finishAred (s : State) (id : Nat) (o : Op) (wid k dst n : Nat) (ct : CodeTy) (cs : List RColl) : State :=
  let out := aredOutput (ctNat ct) n (cs.map (fun c => c.bytes))
  match lumberForLog s (partOfBlk s o.blk) o.body with
  | .wait => s
  | .exhausted => finishBad (dropColl s (partOfBlk s o.blk) wid k) id o (8, 0)
  | .room =>
    let s := dropColl (putRest s o dst out.1) (partOfBlk s o.blk) wid k
    lateFlags (finishOp s id 0 0 [] 0 out.2 out.1) o out.2

/-- Elements that rank `i` sends to rank `j`. -/
def sendCount (cs : List RColl) (i j : Nat) : Nat := (cs.getD i RColl.init).send.getD j 0

def sumTo (f : Nat → Nat) : Nat → Nat
  | 0 => 0
  | n + 1 => sumTo f n + f n

/-- Rank `j` refuses: its received total would pass its segment's end (R242). -/
def refuses (cs : List RColl) (esz j : Nat) : Bool :=
  let c := cs.getD j RColl.init
  decide (c.len < c.dst + esz * sumTo (fun i => sendCount cs i j) cs.length)

/-- The offset in rank `j`'s segment at which rank `i`'s elements go. -/
def recvOffset (cs : List RColl) (esz i j : Nat) : Nat := (cs.getD j RColl.init).dst + esz * sumTo (fun q => sendCount cs q j) i

/-- What an A2AV keeps of its progress: for each rank the elements sent, the transfers that have landed, and the first fault met. -/
structure A2avAt where
  sent : List (List Nat)
  ends : List Nat
  bad  : Option (Nat × Nat)
deriving DecidableEq, Repr

/-- Element `e` of this rank's transfer to rank `j`: read, and landed or sent through a port; where its source page is not mapped it reads zero,
and the operation's fault follows at its end (R183). -/
def a2avElem (s : State) (id : Nat) (o : Op) (wid k esz src : Nat) (send : List Nat) (cs : List RColl) (i j e : Nat) (a : A2avAt) : State × A2avAt :=
  let part := partOfBlk s o.blk
  let from' := src + esz * (sumTo (fun q => send.getD q 0) j + e)
  let r := engineRead s o from' esz
  let r := (noteFirst r.1 id from' a.bad r.2.2.2, r.2)
  let off := recvOffset cs esz i j + esz * e
  let next : A2avAt := { a with sent := listSet a.sent j (nput (a.sent.getD j []) e), bad := a.bad.orElse (fun _ => r.2.2.2) }
  match rankAt s part j, rankWindow s part wid j with
  | some (.away ps g q), _ =>
    let m : XMsg := { pkg := g, part := q, wid := wid, rank := i, body := .elems (some k) off r.2.1, words := [] }
    (putPort r.1 ((opCore s o).getD 0) part (portFor ps off) m r.2.1, next)
  | _, some (p, x) =>
    (match landBytes r.1 o p (x.base + off) r.2.1 with
     | .done s => (s, next)
     | .wait s => (s, a)
     | .bad s c d => (noteFirst s id (x.base + off) next.bad (some (c, d)), { next with bad := next.bad.orElse (fun _ => some (c, d)) }))
  | _, _ => (s, a)

/-- The whole transfer to rank `j` has been sent: both counters gain 1 once it has landed, and the sectors that it covers are no longer lost (R242,
R316). -/
def a2avEnd (s : State) (id : Nat) (o : Op) (wid k esz : Nat) (cs : List RColl) (i j n : Nat) (a : A2avAt) : State × A2avAt :=
  let part := partOfBlk s o.blk
  let mine := a.sent.getD j []
  match rankAt s part j, rankWindow s part wid j with
  | some (.away _ _ _), _ =>
    if mine.contains n then (s, a)
    else (tellRank s part wid j (.last id (some k)), { a with sent := listSet a.sent j (nput mine n) })
  | _, some (p, x) =>
    let s := clearLost s p (rangeCovers (x.base + recvOffset cs esz i j) (esz * n))
    let s := modWindow s p wid (fun w => { w with cin := w.cin + 1, issued := tmod w.issued (collKey k i) (fun c => { c with landed := true }) })
    (modWindow s part wid (fun w => { w with cout := w.cout + 1 }), { a with ends := nput a.ends j })
  | _, _ => (s, a)

/-- A2AV_TRANSFER_LANDING: an element of a transfer, in any order, or its end, once every rank has issued the collective and the receiver
does not refuse (R242, R256). -/
def execA2avTransferLanding (id : Nat) (x : Transfer) (s : State) : Out :=
  .next (
    let j := x.rank
    match tget s.ops id with
    | some o =>
      match o.body with
      | .a2av wid k esz cnts src dst send sent ends bad =>
        (match (windowOf s (partOfBlk s o.blk) wid).bind (fun w => (ranksOf w k).map (fun cs => (w, cs))) with
         | some (w, cs) =>
           let n := send.getD j 0
           let mine := sent.getD j []
           let a : A2avAt := { sent := sent, ends := ends, bad := bad }
           if !opBound s id o || !cs.all (agree (cs.getD w.myrank RColl.init)) || rankGone k w || refuses cs esz j || ends.contains j || decide (cs.length ≤ j) then s
           else
             let r := match x.elem with
               | some e => if n ≤ e ∨ mine.contains e ∨ opMaySend s o = false then (s, a) else a2avElem s id o wid k esz src send cs w.myrank j e a
               | none => if mine.length < n then (s, a) else a2avEnd s id o wid k esz cs w.myrank j n a
             setBody r.1 id (.a2av wid k esz cnts src dst send r.2.sent r.2.ends r.2.bad)
         | none => s)
      | _ => s
    | none => s)

/-- This rank's outgoing transfers to the ranks that do not refuse have landed, and so have its incoming ones unless it refuses itself. -/
def allLanded (w : Window) (k esz : Nat) (cs : List RColl) (ends : List Nat) : Bool :=
  (List.range cs.length).all (fun j => refuses cs esz j || ends.contains j) &&
    (refuses cs esz w.myrank || (List.range cs.length).all (fun i => ((tget w.issued (collKey k i)).map (fun c => c.landed)).getD false))

/-- The received counts and offsets that an A2AV writes, each with its address and size (R242). -/
def a2avPuts (cnts rank : Nat) (cs : List RColl) : List (Nat × Nat × Nat) :=
  let n := cs.length
  let xs := (List.range n).map (fun i => sendCount cs i rank) ++ (List.range n).map (fun i => sumTo (fun q => sendCount cs q rank) i)
  (xs.zip (List.range xs.length)).map (fun x => (cnts + 4 * n + 4 * x.2, 4, x.1))

/-- This rank's A2AV ends with its received counts and offsets; 0x0305 when a rank refused (R242). -/
def finishA2av (s : State) (id : Nat) (o : Op) (wid k esz cnts rank : Nat) (cs : List RColl) (bad : Option (Nat × Nat)) : State :=
  let n := cs.length
  let s' := match bad with
    | some x => finishBad s id o x
    | none => endLogged s id o (if (List.range n).any (refuses cs esz) then 0x0305 else 0)
  if thas s'.ops id then s'
  else dropColl (putElems s' o (a2avPuts cnts rank cs) false) (partOfBlk s o.blk) wid k

/-- An ARED gives its input to every rank at one moment between its issue and its end, the bytes that it has read already as they were then (R243,
R256). -/
def postAred (s : State) (o : Op) (part wid k : Nat) : State :=
  match o.body, windowOf s part wid with
  | .ared _ _ src _ n ct, some w =>
    if thas w.issued (collKey k w.myrank) then s
    else postColl s part wid k { RColl.init with ared := true, esz := ctNat ct, n := n, bytes := gotOver o src (opScratch s o src (17 * n)) }
  | _, _ => s

/-- An element event of a collective before its completion (R256): an input byte of an ARED is read; or, once every rank has issued it, an output
byte of an ARED, behind its 17 × `n` input bytes, or a received count or offset of an A2AV is written. -/
def collElem (s : State) (id : Nat) (o : Op) (w : Window) (k i : Nat) : State :=
  let known := (ranksOf w k).filter (fun cs => !rankGone k w && cs.all (agree (cs.getD w.myrank RColl.init)))
  match o.body, known with
  | .ared _ _ src dst n ct, known =>
    if i < 17 * n then (if thas w.issued (collKey k w.myrank) then s else readEarly s id o (src + i) 1)
    else
      (match known.bind (fun cs => (aredOutput (ctNat ct) n (cs.map (fun c => c.bytes))).1[i - 17 * n]?) with
       | some x => if o.wrote.contains (i - 17 * n) then s else putWrote (opScratchPut s o (dst + (i - 17 * n)) [x]) id (i - 17 * n)
       | none => s)
  | .a2av _ _ _ cnts _ _ _ _ _ _, some cs =>
    (match (a2avPuts cnts w.myrank cs)[i]? with
     | some x => if o.wrote.contains i then s else putWrote (opScratchPut s o x.1 (leBytes x.2.1 x.2.2)) id i
     | none => s)
  | _, _ => s

/-- The end of a collective: a rank that cannot be reached, a withdrawal, a disagreement, or this rank's result (R241 to R243, R321). -/
def endCollective (s : State) (id : Nat) (o : Op) (wid k : Nat) : State :=
  let part := partOfBlk s o.blk
  let s := postAred s o part wid k
  match windowOf s part wid with
  | none => s
  | some w =>
    if rankMissing s part wid w then finishOp (dropColl s part wid k) id 0x0302
    else if rankGone k w then finishOp (dropColl s part wid k) id 0x0307
    else
      match ranksOf w k with
      | none => s
      | some cs =>
        if !cs.all (agree (cs.getD w.myrank RColl.init)) then finishOp (dropColl s part wid k) id 0x0306
        else
          match o.body with
          | .ared _ _ _ dst n ct => finishAred s id o wid k dst n ct cs
          | .a2av _ _ esz cnts _ _ _ _ ends bad => if allLanded w k esz cs ends then finishA2av s id o wid k esz cnts w.myrank cs bad else s
          | _ => s

/-- COLLECTIVE_COMPLETE: the end of a collective, or an element event of it before that; one that a re-fire left outstanding waits for its repeat
(R256, R258). -/
def execCollectiveComplete (x : OpElem) (s : State) : Out :=
  .next (
    match tget s.ops x.op with
    | some o =>
      match collOf o.body with
      | some (wid, k) =>
        if !opBound s x.op o then s
        else
          (match x.elem with
           | none => endCollective s x.op o wid k
           | some i => (match windowOf s (partOfBlk s o.blk) wid with
             | some w => collElem s x.op o w k i
             | none => s))
      | none => s
    | none => s)

/-! ### Transfers that arrive through a port (R315, R320, R321) -/

/-- An operation's transfer to another package has been acknowledged: its out counter gains 1, and a PUT ends once its log entry has room; a
collective that has been withdrawn since still counts the transfer that landed (R95, R238, R242, R353). -/
def ackAt (s : State) (part wid rank op : Nat) : State × Bool :=
  let count := fun (s : State) => (modWindow s part wid (fun w => { w with cout := w.cout + 1 }), true)
  match tget s.ops op with
  | some o =>
    match o.body with
    | .put _ _ _ _ _ _ _ => let t := endLogged s op o 0; if thas t.ops op then (t, false) else count t
    | .a2av w k esz cnts src dst send sent ends bad => count (setBody s op (.a2av w k esz cnts src dst send sent (nput ends rank) bad))
    | _ => count s
  | none => count s

/-- What a message of a peer does at its partition, and whether it has been applied: it waits while a page of its elements is on its way.
Elements outside the segment, on a page that is not mapped, or of a collective that has been withdrawn here land nowhere (R95). The data cross the
mesh from the port's edge stop to the home (R298). -/
def applyMsg (s : State) (p : Nat) (m : XMsg) : State × Bool :=
  match windowOf s m.part m.wid with
  | none => (s, true)
  | some w =>
    match m.body with
    | .elems k off bs =>
      if w.length < off + bs.length ∨ k.any (fun k => w.gone.contains k) then (s, true)
      else
        (match devStoreAll s m.part hostWriter (w.base + off) bs with
         | .done s => (edgeIn s (.scaleUp p) m.part (w.base + off) bs, true)
         | .wait s => (s, false)
         | .bad s _ _ => (s, true))
    | .last op coll =>
      let s := modWindow s m.part m.wid (fun w => { w with cin := w.cin + 1, issued := match coll with
        | some k => tmod w.issued (collKey k m.rank) (fun c => { c with landed := true })
        | none => w.issued })
      (tellRank s m.part m.wid m.rank (.ack op), true)
    | .ack op => ackAt s m.part m.wid m.rank op
    | .coll k c => (modWindow s m.part m.wid (fun w => { w with issued := tput w.issued (collKey k m.rank) c }), true)

/-- The first message of a port that is up and not due for retraining is applied, and leaves it then; the peer sends one again of which a flit
fails its link check word (R317, R320). -/
def portTurn (s : State) (p : Nat) : State :=
  let x := portOf s p
  let k := portLink p
  match x.inn with
  | [] => s
  | m :: rest =>
    if x.down || !linkUp s k then s
    else if m.words != portWords m.body then
      { retryLink s k with ports := tput s.ports p { x with inn := { m with words := portWords m.body } :: rest } }
    else
      let r := applyMsg s p m
      if r.2 then
        let t := { r.1 with ports := tput r.1.ports p { portOf r.1 p with inn := rest } }
        if (linkOf t k).run = 0 then t else setLink t k { linkOf t k with run := 0 }
      else r.1

/-- One clock of the scale-up ports. -/
def portTick (s : State) : State := (List.range 12).foldl portTurn s

/-! ### XCHG (R244, R245) -/

/-- The launched block of a partner word, with its identity. -/
def partnerBlock (s : State) (launch : Nat) (blk : W32) (stage : BitVec 3) : Option (Nat × Block) :=
  s.blocks.find? (fun e => e.2.kind == .launched && e.2.launch == launch && e.2.index == blk && e.2.stage == stage)

/-- The request of a group names the given group. -/
def namesMe (r : XReq) (b : Block) (gid : Nat) : Bool := r.block == b.index && r.stage == b.stage && r.group == gid

/-- The partner faults too, at its XCHG (R245). -/
def partnerFault (v : View) (u gid : Nat) : View :=
  onState v (fun st => match viewAt st u gid with
    | some p => flush { takeTrap p (faultAt p 0 8 255 8 0) with g := { p.g with xreq := none } }
    | none => st)

/-- The first group of the launch, other than one, that waits naming this group; of one clock the lower block and group (log 37). -/
def firstWaiter (v : View) (other : Option Nat × Nat) : Option (Nat × Nat) :=
  let all := v.st.blocks.foldl (fun l e =>
    let b := if e.1 = v.uid then v.b else e.2
    if b.kind == .launched && b.launch == v.b.launch && b.phase == .resident && b.fault.isNone then
      l ++ (b.groups.zip (List.range b.groups.length)).filterMap (fun g => g.1.xreq.bind (fun r =>
        if namesMe r v.b v.gid && (e.1, g.2) != (v.uid, v.gid) && (some e.1, g.2) != other then some [r.since, e.1, g.2] else none))
    else l) []
  (all.foldl (fun b x => match b with
    | none => some x
    | some y => if lexBefore x y then some x else some y) none).map (fun x => (x.getD 1 0, x.getD 2 0))

/-- What an XCHG meets: a trap, with that of the group whose request it met, or a wait under reason 7. -/
def xchgIssue (v : View) (big : Bool) (r : Nat) (w : W32 × BitVec 3 × Nat × Nat) (h : Hdr) : Res :=
  let old := v.g.xreq
  let x : XReq := { block := w.1, stage := w.2.1, group := w.2.2.1, cnt := w.2.2.2, big := big, v := r, exec := execOf h v.g, safe := h.safe, mask := h.mask,
                    sent := (old.map (fun y => y.sent)).getD false, since := (old.map (fun y => y.since)).getD v.st.clock }
  let wait := Res.hold { v with g := { v.g with xreq := some x } } 7
  let both := fun (u gid : Nat) => Res.raw (let p := partnerFault v u gid
    { takeTrap p (faultAt p 0 8 255 8 0) with g := { p.g with tried := true, xreq := none } })
  if 0 < v.b.depth ∨ namesMe x v.b v.gid then contract 8
  else
    let named := partnerBlock v.st v.b.launch w.1 w.2.1
    match firstWaiter v (named.map (fun e => e.1), w.2.2.1) with
    | some y => both y.1 y.2
    | none =>
    match named with
    | none => wait
    | some (u, pb) =>
      let pb := if u = v.uid then v.b else pb
      if pb.phase = .complete then contract 8
      else
        match pb.groups[w.2.2.1]? with
        | none => if pb.groups.isEmpty then wait else contract 8
        | some pg =>
          if pg.run = .ended then contract 8
          else
            match pg.xreq with
            | none => wait
            | some y => if !namesMe y v.b v.gid ∨ y.cnt ≠ x.cnt ∨ y.big ≠ x.big then both u w.2.2.1 else wait

def execXchg (h : Hdr) (t : Ty) (r : VReg) (p : SReg) (s : State) : Out :=
  issue h [ssrc p, .x r.toNat p (tyBig t)] (fun v _ =>
    match partnerWord (readS v.g p) (tyBig t) with
    | none => illegal8
    | some w => xchgIssue v (tyBig t) r.toNat w h) s

/-- A group takes the other's rows in the lanes of `m` and goes on past its XCHG, whose issue slot is still to come (R41). -/
def swapInto (g : Group) (x : XReq) (m : Lanes) (rows : List Row) : Group :=
  let g := (rows.zip (List.range rows.length)).foldl (fun g e => writeVreg g (x.v + e.2) m e.1) g
  { g with offset := g.offset + (if x.safe then 2 else 1), safe := if x.safe then some x.mask else none, xreq := none,
           run := .issuing, waitS := none, tried := true, owed := true }

/-- The lanes of a group's rows that the exchange plane carries, one flit for each register (R313). -/
def sendRows (s : State) (v : View) (x : XReq) (m : Lanes) (dst : Nat) : State :=
  (List.range x.cnt).foldl (fun s i =>
    sendFlit s .exchange v.b.part (blkCore v.b) dst false (.exch v.uid v.gid)
      ((laneList m).foldl (fun a l => a ++ leBytes 4 (rget (readV v.g (x.v + i)) l).toNat) [])) s

/-- The two groups of an exchange give their rows to the exchange plane, or swap once both directions have arrived; within one cluster its
switch carries the swap at once (R313). -/
def swapGroups (s : State) (a b : View) (x y : XReq) : State :=
  let m := x.exec &&& y.exec
  let near := clusterOf (blkCore a.b) == clusterOf (blkCore b.b)
  if !near && !(x.sent && y.sent) then
    let s := sendRows (sendRows s a x m (blkCore b.b)) b y m (blkCore a.b)
    let mark := fun (g : Group) => { g with xreq := g.xreq.map (fun r => { r with sent := true }) }
    modGroup (modGroup s a.uid a.gid mark) b.uid b.gid mark
  else if !near && !(exchArrived s a.uid a.gid && exchArrived s b.uid b.gid) then s
  else
    let rows := fun (v : View) (r : XReq) => (List.range r.cnt).map (fun i => readV v.g (r.v + i))
    let s := modGroup s a.uid a.gid (fun g => swapInto g x m (rows b y))
    let s := modGroup s b.uid b.gid (fun g => swapInto g y m (rows a x))
    if b.uid = a.uid then s
    else
      let s := { s with blocks := tmod s.blocks a.uid (fun b' => { b' with partners := nput b'.partners b.uid }) }
      { s with blocks := tmod s.blocks b.uid (fun b' => { b' with partners := nput b'.partners a.uid }) }

/-- XCHG_SWAP: both requests name each other; in one step the lanes active in both sets are exchanged (R244). A re-fire of one block takes
the other along (R258). -/
def execXchgSwap (uid gid : Nat) (s : State) : Out :=
  .next (
    match viewAt s uid gid with
    | some v =>
      match v.g.xreq with
      | some x =>
        (match (partnerBlock s v.b.launch x.block x.stage).bind (fun e => viewAt s e.1 x.group) with
         | some p =>
           (match p.g.xreq with
            | some y =>
              if namesMe y v.b gid && y.cnt == x.cnt && y.big == x.big && v.b.fault.isNone && p.b.fault.isNone &&
                 v.b.phase == .resident && p.b.phase == .resident && v.g.run == .stalled && p.g.run == .stalled then swapGroups s v p x y
              else s
            | none => s)
         | none => s)
      | none => s
    | none => s)

end Sys2Proof.Machine
end

