-- ==== Sys2Proof/Machine/Mgmt.lean ====
section
/-! DEFINITION. Start-up and management: power-on reset (R384 to R388), the mailbox and its commands (R389 to R392), host accesses through BAR2
(R322), power and cooling (R3, R393) and pausing a function for migration (R351). -/
namespace Sys2Proof.Machine
open Sys2Proof

def setMgmt (s : State) (m : Mgmt) : State := { s with mgmt := m }

/-! ### Signed objects and measurements (R385 to R388) -/

def w64 (n : Nat) : W64 := BitVec.ofNat 64 n

/-- `n` bytes of an object from an offset. -/
def cut (bs : List W8) (off n : Nat) : List W8 := (bs.drop off).take n

/-- The 48 bytes of a digest. -/
def digestBytes (d : BitVec 384) : List W8 := (List.range 48).map (fun i => d.extractLsb' (8 * i) 8)

/-- Extend a measurement with an item (R388). -/
def extend (m : BitVec 384) (item : List W8) : BitVec 384 := Config.sha384 (digestBytes m ++ digestBytes (Config.sha384 item))

/-- The fields of a configuration record (R386). -/
def recMinsvn (r : CfgRecord) : Nat := u r.bytes 0x004 4
def recSerial (r : CfgRecord) : Nat := u r.bytes 0x008 16
def recFabric (r : CfgRecord) : Nat := u r.bytes 0x018 2
def recNvf (r : CfgRecord) : Nat := u r.bytes 0x01A 2
def recPcap (r : CfgRecord) : Nat := u r.bytes 0x01C 2
def recIlv (r : CfgRecord) : Nat := u r.bytes 0x01E 1
def recKeys (r : CfgRecord) : List W8 := cut r.bytes 0x020 0x7C0

/-- A configuration record has its layout, its fields are in range, and both signatures verify against the root keys, which the boot ROM holds
(R386). -/
def recordOK (r : CfgRecord) : Bool :=
  r.bytes.length == 0x7E0 + 3373 && u r.bytes 0 4 == 0x47434643 && u r.bytes 0x1F 1 == 0 && decide (recNvf r ≤ 512) && decide (300 ≤ recPcap r) &&
    decide (recPcap r ≤ 1750) && [1, 2, 4, 8].contains (recIlv r) &&
    Config.verify Config.rootKeys (Config.sha384 (r.bytes.take 0x7E0)) (r.bytes.drop 0x7E0)

/-- The svn and the body of a firmware image (R385). -/
def fwSvn (f : FwImage) : Nat := u f.bytes 4 4
def fwBody (f : FwImage) : List W8 := f.bytes.drop 0xD40

/-- A firmware image has its header, its signatures verify under the owner keys of the record over its svn, length and body, and it is not too old
(R385). -/
def firmwareOK (r : CfgRecord) (f : FwImage) : Bool :=
  decide (0xD40 ≤ f.bytes.length) && u f.bytes 0 4 == 0x574D5246 && u f.bytes 8 8 == (fwBody f).length && u f.bytes 0xD3D 3 == 0 &&
    Config.verify (recKeys r) (Config.sha384 (cut f.bytes 4 12 ++ fwBody f)) (cut f.bytes 0x10 3373) && decide (recMinsvn r ≤ fwSvn f)

/-! ### Power-on reset (R384) -/

/-- The record in force from this reset: a new one only when it verifies and its minsvn has not fallen (R386). -/
def recordNow (m : Mgmt) : Option CfgRecord :=
  match m.next, m.record with
  | some n, some r => if recordOK n && decide (recMinsvn r ≤ recMinsvn n) then some n else some r
  | some n, none => if recordOK n then some n else none
  | none, r => r

/-- The flash bank used from this reset (R385). -/
def bankNow (m : Mgmt) : Bool := if m.useNext then !m.active else m.active

/-- Step 4 of the sequence: the cellar ports are trained with the record's interleave, and the attic slices and scratchpads are zeroed. -/
def trainMgmt (m : Mgmt) (r : CfgRecord) : Mgmt := { m with unlocked := true, ready := true, ilv := recIlv r, downCellar := m.badCellar, zeroed := true }

/-- The measurements and the mode after the boot sequence, whose first failure ends it in recovery mode. -/
def bootMgmt (m : Mgmt) : Mgmt :=
  let base := { Mgmt.reset with record := recordNow m, bank0 := m.bank0, bank1 := m.bank1, active := bankNow m, m0 := extend 0 Config.bootRom,
                                badCellar := m.badCellar, badPorts := m.badPorts, badLinks := m.badLinks }
  let recovery := { base with recovery := true }
  match base.record with
  | none => recovery
  | some r =>
    if !recordOK r then recovery
    else
      match (if base.active then base.bank1 else base.bank0) with
      | none => recovery
      | some f =>
        if !firmwareOK r f then recovery
        else
          let measured := { base with m1 := extend 0 f.bytes, m2 := extend 0 r.bytes }
          if Config.keyUnlocks (recSerial r) then trainMgmt measured r else { measured with recovery := true }

/-- Scale-up ports and mesh links that fail to train are down; start-up goes on (R384). -/
def trainLinks (s : State) : State :=
  if s.mgmt.ready then
    let s := s.mgmt.badPorts.foldl (fun s p => { s with ports := tput s.ports p { portOf s p with down := true } }) s
    s.mgmt.badLinks.foldl (fun s k => setLink s k { linkOf s k with down := true }) s
  else s

/-- POWER_ON_RESET: the package starts from its reset state, keeping its flash and the cellar, which is outside it (R384). -/
def execPowerOnReset (s : State) : Out :=
  .next (trainLinks { State.reset with mgmt := bootMgmt s.mgmt, cellar := s.cellar, agenda := s.agenda, free := s.free, firmware := s.firmware })

/-! ### The partition manager firmware (R38, R384) -/

/-- A handler run handles the block now, so that PWR reaches its groups (R39). -/
def underHandling (s : State) (uid : Nat) : Bool := s.cores.any (fun c => c.2.hrun.any (fun r => r.live && r.blk == uid))

/-- What the firmware does in its privileged view: a SETS that a check refuses changes nothing, and a PWR needs a parked group of the block that a
handler run handles. -/
def fwAct (s : State) (a : FwAct) : State :=
  match a with
  | .sets part n x => (setCtlReg s part n x none).getD s
  | .store addr bs => { s with cellar := bputs s.cellar addr bs }
  | .pwr uid gid sel x =>
    match viewAt s uid gid, selectorOf sel with
    | some v, some i => if v.g.run = .parked ∧ underHandling s uid then (match writeItem s v.b v.g i x with
      | some g => modGroup s uid gid (fun _ => g)
      | none => s) else s
    | _, _ => s

/-- The firmware, which runs once the device is ready, does what it does next (log 10). -/
def runFirmware (s : State) : State :=
  match s.firmware with
  | a :: rest => if s.mgmt.ready then fwAct { s with firmware := rest } a else s
  | [] => s

/-! ### The mailbox (R389 to R391) -/

/-- What running a command meets: a status with response bytes, or waiting. -/
inductive MbRes
  | done (s : State) (status : W16) (resp : List W8)
  | wait (s : State)

/-- Words as bytes, little-endian. -/
def wordBytes (ws : List W64) : List W8 := ws.foldl (fun a w => a ++ leBytes 8 w.toNat) []

/-- The host link exposes a function: the physical one, and the enabled virtual ones once the device is ready (R384, R386). -/
def exposed (s : State) (f : Nat) : Bool :=
  if f = 0 then s.mgmt.ready || s.mgmt.recovery
  else s.mgmt.ready && decide (f ≤ (s.mgmt.record.map recNvf).getD 0)

/-- The place of a new doorbell behind every one that has rung (R391). -/
def nextTurn (s : State) : Nat := s.fns.foldl (fun n f => max n f.2.mb.turn) 0 + 1

/-- Every doorbell that rang earlier has begun (R391). -/
def hasTurn (s : State) (m : Mailbox) : Bool := s.fns.all (fun f => !f.2.mb.busy || f.2.mb.begun || decide (m.turn ≤ f.2.mb.turn))

def setMb (s : State) (f : Nat) (m : Mailbox) : State := setFn s f { fnOf s f with mb := m }

/-- The command ends: its effects have taken place, and now its done bit is set (R391). -/
def answer (s : State) (f : Nat) (st : W16) (resp : List W8) : State :=
  setMb s f { (fnOf s f).mb with busy := false, done := true, status := st, resp := resp, cmd := none, begun := false }

/-- A command may run for a function: virtual functions are denied the physical ones, recovery mode all but three (R384, R390). -/
def denied (s : State) (f : Nat) (phys recov : Bool) : Bool := (phys && f != 0) || (s.mgmt.recovery && !recov)

/-- The code of a command (R390). -/
def cmdCode : MbCmd → Nat
  | .status => 0x01
  | .fwload _ => 0x02
  | .cfgwrite _ => 0x03
  | .attest _ => 0x04
  | .partset .. => 0x10
  | .bindfn .. => 0x11
  | .handler .. => 0x12
  | .evring .. => 0x13
  | .resetfn _ => 0x14
  | .loadimg _ => 0x20
  | .graphstart _ => 0x21
  | .replay _ => 0x22
  | .fltcancel _ => 0x23
  | .winreg .. => 0x24
  | .rankmap .. => 0x25
  | .bar2base _ => 0x26
  | .syncsum _ => 0x30
  | .unknown c => c

/-- A doorbell rings with a command: it waits for its turn, or, while another is busy, is ignored and counted (R389). -/
def ring (s : State) (f : Nat) (c : MbCmd) : State :=
  let m := (fnOf s f).mb
  if m.busy then setMb s f { m with missed := m.missed + 1 }
  else setMb s f { m with busy := true, mbcmd := w64 (cmdCode c), cmd := some c, turn := nextTurn s, begun := false }

/-- One step of a command: its doorbell is accepted, and later it runs, in doorbell order and after the function's host writes (R391). A
doorbell while another command is busy is ignored and counted (R389). -/
def mailbox (s : State) (f : Nat) (i : MbCmd) (phys recov : Bool) (run : State → MbRes) : Out :=
  .next (
    let m := (fnOf s f).mb
    if !exposed s f then s
    else if !m.busy || decide (m.cmd ≠ some i) then ring s f i
    else if !hasTurn s m || !(fnOf s f).writes.isEmpty then s
    else if denied s f phys recov then answer s f 3 []
    else
      match run (setMb s f { m with begun := true }) with
      | .done s st resp => answer s f st resp
      | .wait s => s)

/-- DOORBELL_WHILE_BUSY (R389). -/
def execDoorbellWhileBusy (f : Nat) (s : State) : Out :=
  .next (let m := (fnOf s f).mb
         if exposed s f && m.busy then setMb s f { m with missed := m.missed + 1 } else s)

/-- MBSTAT_DONE_CLEAR: a 1 written to done clears it (R389). -/
def execMbstatDoneClear (f : Nat) (s : State) : Out :=
  .next (if exposed s f then setMb s f { (fnOf s f).mb with done := false } else s)

/-! ### Commands of the device (R385, R386, R390, R392) -/

def activeSvn (m : Mgmt) : Nat := ((if m.active then m.bank1 else m.bank0).map fwSvn).getD 0

/-- The links of the mesh that have met anything; those of the scale-up ports are listed with the ports. -/
def meshLinks (s : State) : Tbl Link := s.links.filter (fun l => decide (l.1 < portLink 0))

/-- STATUS: the device's state, the firmware svn and the link states, of the mesh and of the scale-up ports; the layout of the words is the model's
(log 15). -/
def execStatus (f : Nat) (s : State) : Out :=
  mailbox s f .status false true (fun s =>
    let m := s.mgmt
    let st := if m.stopped then 3 else if m.recovery then 2 else if m.ready then 1 else 0
    let word := fun (k : Nat) (down : Bool) => w64 (k * 2 ^ 32 + (if down then 2 else if linkUp s k then 0 else 1))
    .done s 0 (wordBytes ([w64 st, w64 (activeSvn m)] ++ (meshLinks s).map (fun l => word l.1 l.2.down) ++
      (List.range 12).map (fun p => word (portLink p) (portOf s p).down))))

/-- FWLOAD (R385). -/
def execFwload (f : Nat) (img : FwImage) (s : State) : Out :=
  mailbox s f (.fwload img) true true (fun s =>
    let m := s.mgmt
    match m.record with
    | none => .done s 4 []
    | some r =>
      if firmwareOK r img then
        .done (setMgmt s (if m.active then { m with bank0 := some img, useNext := true } else { m with bank1 := some img, useNext := true })) 0 []
      else .done s 4 [])

/-- CFGWRITE: the record waits in flash for the next reset (R386). -/
def execCfgwrite (f : Nat) (rec : CfgRecord) (s : State) : Out :=
  mailbox s f (.cfgwrite rec) true true (fun s => .done (setMgmt s { s.mgmt with next := some rec }) 0 [])

/-- The report of ATTEST before its signatures (R392). -/
def report (m : Mgmt) (nonce : List W64) : List W8 :=
  let serial := (m.record.map recSerial).getD 0
  wordBytes nonce ++ leBytes 16 serial ++ digestBytes m.m0 ++ digestBytes m.m1 ++ digestBytes m.m2 ++ digestBytes m.m3 ++
    digestBytes (Config.sha384 ((m.record.map (fun r => r.bytes)).getD [])) ++ leBytes 4 (activeSvn m) ++ Config.certificate serial

/-- ATTEST (R392). -/
def execAttest (f : Nat) (nonce : List W64) (s : State) : Out :=
  mailbox s f (.attest nonce) false false (fun s =>
    if nonce.length ≠ 4 then .done s 2 []
    else
      let r := report s.mgmt nonce
      .done s 0 (r ++ Config.sign ((s.mgmt.record.map recSerial).getD 0) (Config.sha384 r)))

/-! ### Partitions and functions (R348, R349, R377, R390) -/

/-- Write budgets of a top-level partition; `none` for a value or a number that 0x110..0x11B does not take (R348). -/
def putBudgets (p : Part) : List (Nat × W64) → Option Part
  | [] => some p
  | (n, x) :: rest =>
    match ctlMask n with
    | some m => if 0x110 ≤ n ∧ n ≤ 0x11B ∧ x &&& ~~~m = 0 ∧ budgetRange n x then putBudgets (setCtl p n x) rest else none
    | none => none

/-- PARTSET (R348, R390). -/
def execPartset (f part : Nat) (regs : List (Nat × W64)) (s : State) : Out :=
  mailbox s f (.partset part regs) true false (fun s =>
    if 16 ≤ part then .done s 2 []
    else
      match putBudgets (partOf s part) regs with
      | some p => .done (setPart s part p) 0 []
      | none => .done s 2 [])

/-- BINDFN (R349, R390). -/
def execBindfn (f target part : Nat) (s : State) : Out :=
  mailbox s f (.bindfn target part) true false (fun s =>
    if !thas s.parts part ∨ !exposed s target then .done s 2 [] else .done (setFn s target { fnOf s target with part := some part }) 0 [])

/-- M3 takes an image as it stands once it has been loaded: its header and its code (R388). -/
def measureImage (s : State) (id : Nat) : State :=
  match tget s.images id with
  | some im =>
    let code := wordBytes (im.versions.headD [])
    setMgmt s { s.mgmt with m3 := extend s.mgmt.m3 (im.head ++ code) }
  | none => s

/-- The partition's handler contexts start from the new image at their next run; one whose run is in progress is only marked (R377). -/
def dropHandlers (s : State) (part : Nat) : State :=
  let kept := s.blocks.filter (fun e => !(e.2.kind == .handler && e.2.part == part && (coreOf s (blkCore e.2)).hrun.isNone))
  let mine := fun (k : Nat) => (tget kept k).any (fun b => b.part == part)
  { s with blocks := kept
           cores := s.cores.map (fun c => if mine (handlerUid c.1) then (c.1, { c.2 with fresh := true }) else c) }

/-- HANDLER (R377, R388, R390). -/
def execHandler (f part addr : Nat) (args : List W64) (caps : List (BitVec 128)) (s : State) : Out :=
  mailbox s f (.handler part addr args caps) true false (fun s =>
    if !thas s.parts part then .done s 2 []
    else
      match loadImage s part addr true with
      | .wait s => .wait s
      | .bad => .done s 1 []
      | .done s id st w =>
        if st ≠ 0 then .done s 0 (wordBytes [st.setWidth 64, w64 w])
        else
          let s := dropHandlers (measureImage s id) part
          let h : HImage := { image := id, args := args.take 16, caps := (caps.take 8).map (capArg s part) }
          .done (setPart s part { partOf s part with himage := some h }) 0 (wordBytes [0, 0]))

/-- EVRING (R351, R390). -/
def execEvring (f addr len : Nat) (s : State) : Out :=
  mailbox s f (.evring addr len) false false (fun s =>
    match (fnOf s f).part with
    | none => .done s 2 []
    | some part =>
      if len = 0 ∨ len % 32 ≠ 0 ∨ !inReach s part addr (addr + len) then .done s 2 []
      else .done (deliverAll (setFn s f { fnOf s f with ring := some (addr, len), ptr := 0 }) f) 0 [])

/-- RESETFN: the generation increases, what was held is stale, and the registers of the function's BARs, its snapshot and its waiting host accesses
start afresh; its partition, its ring and its work stay (R351, R390; log 15). -/
def execResetfn (f target : Nat) (s : State) : Out :=
  mailbox s f (.resetfn target) true false (fun s =>
    if !exposed s target then .done s 2 []
    else
      let x := fnOf s target
      let x := { x with gen := x.gen + 1, held := [], stale := x.stale + x.held.length + x.dropped, dropped := 0, mb := Mailbox.init, bar2 := 0 }
      .done (setFn s target { x with snap := [], writes := [], reads := [], rdata := [] }) 0 [])

/-! ### Images and graphs (R71, R284, R390) -/

/-- LOADIMG: the response holds the load's status and the word it names (R72, R388). An image that is not mapped or out of reach is answered by
mailbox status 1 without a response (DESIGN CHOICE, log 25). -/
def execLoadimg (f addr : Nat) (s : State) : Out :=
  mailbox s f (.loadimg addr) false false (fun s =>
    match (fnOf s f).part with
    | none => .done s 2 []
    | some part =>
      match loadImage s part addr true with
      | .wait s => .wait s
      | .bad => .done s 1 []
      | .done s id st w => .done (if st = 0 then measureImage s id else s) 0 (wordBytes [st.setWidth 64, w64 w]))

/-- GRAPHSTART (R284, R390). -/
def execGraphstart (f addr : Nat) (s : State) : Out :=
  mailbox s f (.graphstart addr) false false (fun s =>
    match (fnOf s f).part with
    | none => .done s 2 []
    | some part =>
      let id := s.nextGr
      let s := { s with graphs := tput s.graphs id (newGraph part f addr 0 s.clock), nextGr := id + 1 }
      .done (setFn s f { fnOf s f with graph := id }) 0 [])

/-! ### The wait table (R275, R276) -/

/-- The live entry that a token or a page number names. -/
def liveEntry (s : State) (part : Nat) (w : WaitName) : Option (Nat × WaitEnt) :=
  match w with
  | .token t => (tget (partOf s part).wait t).map (fun e => (t, e))
  | .vpn n => (partOf s part).wait.find? (fun e => e.2.vpn == n || (e.2.large && e.2.vpn == n / 512 * 512))

/-- The entry leaves the table with its fault record. -/
def removeEntry (s : State) (part tok : Nat) : State :=
  let p := partOf s part
  setPart s part { p with wait := tdel p.wait tok, faultq := p.faultq.filter (fun e => e.2 != tok) }

/-- The page's first address and the one past its end, as the entry keeps them, whatever has become of the page since. -/
def entrySpan (e : WaitEnt) : Nat × Nat := (e.vpn * 65536, (e.vpn + (if e.large then 512 else 1)) * 65536)

/-- Every PAGEREQ that waits on the entry completes with a status (R275, R276). -/
def endRequests (s : State) (part : Nat) (span : Nat × Nat) (st : W16) : State :=
  s.ops.foldl (fun s e =>
    match e.2.body with
    | .pages vs =>
      if partOfBlk s e.2.blk = part ∧ vs.any (fun v => decide (span.1 ≤ v * 65536) && decide (v * 65536 < span.2)) then finishOp s e.1 st else s
    | _ => s) s

def inSpan (span : Nat × Nat) (a : Nat) : Bool := decide (span.1 ≤ a) && decide (a < span.2)

/-- Engine writes of an operation that wait on a page end: with the translation fault of cause 6 under FLTCANCEL, and with status 0x0102 and no
fault, `bad` (0, 0), under a REPLAY of a page made invalid (R275, R276). -/
def endWrite (s : State) (part : Nat) (span : Nat × Nat) (bad : Nat × Nat) (id : Nat) (o : Op) : State :=
  let mine := partOfBlk s o.blk
  match o.body with
  | .copy c =>
    let hit := (copyElems c).filter (fun i => !c.moved.contains i && inSpan span (copyAddr c i).1)
    if mine = part ∧ !c.inb ∧ !hit.isEmpty then
      setBody s id (.copy { c with moved := hit.foldl nput c.moved, bad := c.bad.orElse (fun _ => some bad) })
    else s
  | .entry k t addrs data left =>
    let hit := maskOf (fun l => left.getLsbD l && inSpan span (addrs.getD l 0))
    if mine = part ∧ hit ≠ 0 then
      let s := setBody s id (.entry k t addrs data (left &&& ~~~hit))
      if bad.1 = 0 then s else lateTrap s o.blk (lateFault s { o with h := k.setWidth 4 } 1 bad.1 (BitVec.ofNat 8 bad.2))
    else s
  | .atomg _ _ _ _ _ b addr _ _ =>
    if mine = part ∧ inSpan span addr then finishBad (modGroup s o.blk o.gid (fun g => { g with s := tput g.s b.toNat 0 })) id o bad else s
  | .put esz _ len wid rank off landed =>
    (match rankWindow s mine wid rank with
     | some (q, x) =>
       if q = part ∧ (List.range (len / esz)).any (fun i => !landed.contains i && inSpan span (x.base + off + i * esz)) then finishBad s id o bad else s
     | none => s)
  | .a2av wid k esz cnts src dst send sent ends first =>
    (match (windowOf s mine wid).bind (fun w => (ranksOf w k).map (fun cs => (w, cs))) with
     | some (w, cs) =>
       let hits := fun (j : Nat) => match rankWindow s mine wid j with
         | some (q, x) =>
           if q = part then
             (List.range (send.getD j 0)).filter (fun e =>
               !(sent.getD j []).contains e && inSpan span (x.base + recvOffset cs esz w.myrank j + esz * e))
           else []
         | none => []
       if (List.range cs.length).any (fun j => !(hits j).isEmpty) then
         setBody s id (.a2av wid k esz cnts src dst send ((List.range cs.length).map (fun j => (hits j).foldl nput (sent.getD j []))) ends
           (first.orElse (fun _ => some bad)))
       else s
     | none => s)
  | _ => s

/-- Every engine write that waits on the entry's page. -/
def endWrites (s : State) (part : Nat) (span : Nat × Nat) (bad : Nat × Nat) : State :=
  s.ops.foldl (fun s x => endWrite s part span bad x.1 x.2) s

/-- REPLAY: where the page has been made invalid, each waiter completes with 0x0102 and no block is parked (R275, R276). -/
def execReplay (f : Nat) (w : WaitName) (s : State) : Out :=
  mailbox s f (.replay w) false false (fun s =>
    match (fnOf s f).part with
    | none => .done s 2 []
    | some part =>
      match liveEntry s part w with
      | none => .done s 1 []
      | some (tok, e) =>
        if e.state ≠ .replay then .done s 0 []
        else
          match walk s part e.vpn with
          | .error _ =>
            let span := entrySpan e
            .done (endWrites (endRequests (removeEntry s part tok) part span 0x0102) part span (0, 0)) 0 []
          | .ok _ =>
            let p := partOf s part
            .done (setPart s part { p with wait := tput p.wait tok { e with state := .fetching }, faultq := p.faultq.filter (fun x => x.2 != tok) }) 0 [])

/-- FLTCANCEL (R276). -/
def execFltcancel (f : Nat) (w : WaitName) (s : State) : Out :=
  mailbox s f (.fltcancel w) false false (fun s =>
    match (fnOf s f).part with
    | none => .done s 2 []
    | some part =>
      match liveEntry s part w with
      | none => .done s 1 []
      | some (tok, e) =>
        let span := entrySpan e
        let s := endRequests (removeEntry s part tok) part span 0x0103
        .done (endWrites s part span (5, 6)) 0 [])

/-! ### Windows, ranks, BAR2 (R236, R321, R322) -/

/-- WINREG: both counters are 0 at registration; at most 256 windows of at most 4,096 ranks (R236). -/
def execWinreg (f wid base length nranks myrank : Nat) (s : State) : Out :=
  mailbox s f (.winreg wid base length nranks myrank) false false (fun s =>
    match (fnOf s f).part with
    | none => .done s 2 []
    | some part =>
      let p := partOf s part
      if 2 ^ 16 ≤ wid ∨ nranks = 0 ∨ 4096 < nranks ∨ nranks ≤ myrank ∨ 2 ^ 48 ≤ length ∨ !inReach s part base (base + length) then .done s 2 []
      else if 256 ≤ p.wins.length ∧ !thas p.wins wid then .done s 5 []
      else
        let x : Window := { base := base, length := length, nranks := nranks, myrank := myrank, cin := 0, cout := 0, coll := 0, gone := [], issued := [] }
        .done (setPart s part { p with wins := tput p.wins wid x }) 0 [])

/-- RANKMAP: one entry of 4,096 (R321). -/
def execRankmap (f i : Nat) (v : W64) (s : State) : Out :=
  mailbox s f (.rankmap i v) false false (fun s =>
    match (fnOf s f).part with
    | none => .done s 2 []
    | some part =>
      let p := partOf s part
      if 4096 ≤ i ∨ fld v 48 16 ≠ 0 ∨ fld v 2 10 ≠ 0 ∨ (v.getLsbD 1 ∧ (fld v 36 12 ≠ 0 ∨ fld v 12 16 ≠ 0)) then .done s 2 []
      else .done (setPart s part { p with ranks := tput p.ranks i v }) 0 [])

/-- BAR2BASE (R322). -/
def execBar2base (f base : Nat) (s : State) : Out :=
  mailbox s f (.bar2base base) false false (fun s => .done (setFn s f { fnOf s f with bar2 := base }) 0 [])

/-! ### SYNCSUM (R391) -/

/-- A section: its header, then its records of `size` words (log 15). -/
def syncSection (kind size : Nat) (rs : List (List W64)) : List W64 :=
  w64 (kind + size * 8 * 2 ^ 16 + rs.length * 2 ^ 32) :: rs.foldl (fun a r => a ++ r) []

/-- The 32-byte record of an interest entry (R312). -/
def interestRecord (stop : Nat) (e : IEnt) : List W64 :=
  let has := fun (d : Nat) => (e.ws.find? (fun w => w.dir == d))
  let dirs := (List.range 5).foldl (fun n d => if (has d).isSome then n + 2 ^ d else n) 0
  let vm := (List.range 5).foldl (fun n d => n + ((has d).map (fun w => w.vmin)).getD 0 * 2 ^ (8 * d)) 0
  let up := (e.up.map (fun u => u.1)).getD 0
  let dl := e.ws.foldl (fun m w => max m w.deadline) 0
  [w64 (nameTid e.name + nameTile e.name * 2 ^ 32),
   w64 (nameIter e.name + dirs * 2 ^ 16 + up % 256 * 2 ^ 24 + coreReg stop * 2 ^ 32), w64 vm, w64 dl]

/-- Kind 8: links with their counts and whether they are down, the scale-up and cellar ports that are down, the device's error counts, the marks of
exchange flits, and the doorbells that a function rang while busy (R313, R317, R384, R389, R391; log 15). -/
def errorRecords (s : State) (f : Nat) : List (List W64) :=
  let row := fun (k n a b c d : Nat) => [w64 k, w64 n, w64 a, w64 b, w64 c, w64 d]
  let link := fun (k n : Nat) (l : Link) (down : Bool) => row k n l.retries l.retrain l.refetch (if down then 1 else 0)
  (meshLinks s).map (fun l => link 0 l.1 l.2 l.2.down) ++ s.ports.map (fun p => link 1 p.1 (linkOf s (portLink p.1)) p.2.down) ++ s.mgmt.downCellar.map (fun p => row 2 p 0 0 0 1) ++
    [row 3 0 s.errs.transit s.errs.refetch s.errs.lost s.errs.refire, row 4 0 s.errs.exch 0 0 0] ++
    (s.fns.filter (fun e => f = 0 || e.1 = f)).map (fun e => row 5 e.1 e.2.mb.missed 0 0 0)

/-- What the snapshot holds for the partitions that a function sees. -/
def snapshotWords (s : State) (f : Nat) (sees : Nat → Bool) : List W64 :=
  let wst := fun (w : WState) => match w with
    | .fetching => 0
    | .replay => 1
    | .evicting => 2
  syncSection 1 13 ((s.parts.filter (fun e => sees e.1)).map (fun e => w64 e.1 :: (List.range 12).map (fun i => ctl e.2 (0x110 + i)))) ++
  syncSection 2 6 ((s.fns.filter (fun e => match e.2.part with
      | some p => sees p
      | none => false)).map (fun e => [w64 e.1, w64 (e.2.part.getD 0), e.2.gen.setWidth 64, w64 e.2.stale, w64 e.2.dropped, w64 e.2.mb.missed])) ++
  syncSection 3 4 ((s.graphs.filter (fun e => sees e.2.part)).foldl (fun a e =>
    a ++ [[w64 e.1, w64 e.2.base, (match e.2.done with
      | some st => st.setWidth 64
      | none => 0x10000), 0xFFFFFFFFFFFFFFFF]] ++ e.2.failed.map (fun n => [w64 e.1, w64 e.2.base, n.2.setWidth 64, w64 n.1])) []) ++
  syncSection 4 3 ((s.parts.filter (fun e => sees e.1)).foldl (fun a e => a ++ e.2.wait.map (fun x => [w64 x.1, w64 x.2.vpn, w64 (wst x.2.state)])) []) ++
  syncSection 5 4 (s.stops.foldl (fun a st => a ++ (st.2.ents.filter (fun e => sees e.part)).map (interestRecord st.1)) []) ++
  syncSection 6 3 ((s.parts.filter (fun e => sees e.1)).foldl (fun a e => a ++ e.2.settles.map (fun x => [w64 x.1, w64 x.2.1, w64 x.2.2])) []) ++
  syncSection 7 3 ((s.blocks.filter (fun e => sees e.2.part && e.2.kind != .handler && e.2.reported)).map (fun e =>
    [w64 (e.2.lid.toNat + e.2.index.toNat * 2 ^ 32), w64 (e.2.stage.toNat + e.2.depth * 8 + e.2.serial * 64), e.2.status.setWidth 64])) ++
  syncSection 8 6 (errorRecords s f)

/-- SYNCSUM: a snapshot at one clock, returned in pages of 3,840 bytes (R391). -/
def execSyncsum (f cursor : Nat) (s : State) : Out :=
  mailbox s f (.syncsum cursor) false false (fun s =>
    let x := fnOf s f
    let sees := fun (p : Nat) => decide (f = 0) || x.part == some p
    let words := if cursor = 0 then snapshotWords s f sees else x.snap
    .done (setFn s f { x with snap := words.drop 480 }) 0 (wordBytes (words.take 480)))

/-! ### Host accesses through BAR2 (R322) -/

/-- Apply waiting host writes in arrival order; one that its translation refuses stores nothing. -/
def applyWrites : Nat → State → Nat → State
  | 0, s, _ => s
  | n + 1, s, f =>
    let x := fnOf s f
    match x.writes, x.part with
    | (a, bs) :: rest, some part =>
      (match devStoreAll s part hostWriter a bs with
       | .done s => applyWrites n (edgeIn (setFn s f { fnOf s f with writes := rest }) .hostLink part a bs) f
       | .wait s => s
       | .bad s _ _ => applyWrites n (setFn s f { fnOf s f with writes := rest }) f)
    | _, _ => s

/-- The access lies in the 64 GiB window of a function with a partition. -/
def inBar2 (s : State) (f off n : Nat) : Bool := exposed s f && (fnOf s f).part.isSome && decide (off + n ≤ 2 ^ 36)

/-! ### BAR0 (R322, R389) -/

/-- The MBSTAT word. -/
def mbstat (m : Mailbox) : Nat := (if m.busy then 1 else 0) + (if m.done then 2 else 0) + 65536 * m.status.toNat + 2 ^ 32 * m.resp.length

/-- A byte of BAR0 as a read finds it. -/
def bar0Byte (m : Mailbox) (a : Nat) : W8 :=
  if a < 8 then m.mbcmd.extractLsb' (8 * a) 8
  else if a < 16 then (leBytes 8 (mbstat m)).getD (a - 8) 0
  else if 0x100 ≤ a ∧ a < 0x1000 then bget m.pay (a - 0x100)
  else if 0x1000 ≤ a ∧ a < 0x2000 then m.resp.getD (a - 0x1000) 0
  else 0

/-- The command of a code with its payload; the manual gives no payload layout: words in the order of the command's operands, an object's bytes
where a command takes one (log 15). -/
def payloadCmd (code : Nat) (pay : List W8) : MbCmd :=
  let w := fun (i : Nat) => u pay (8 * i) 8
  let ws := fun (i n : Nat) => (List.range n).map (fun j => w64 (w (i + j)))
  let name := if w 0 = 0 then WaitName.token (w 1) else .vpn (w 1)
  match code with
  | 0x01 => .status
  | 0x02 => .fwload ⟨Config.payloadObject pay⟩
  | 0x03 => .cfgwrite ⟨Config.payloadObject pay⟩
  | 0x04 => .attest (ws 0 (pay.length / 8))
  | 0x10 => .partset (w 0) ((List.range ((pay.length - 8) / 16)).map (fun j => (w (2 * j + 1), w64 (w (2 * j + 2)))))
  | 0x11 => .bindfn (w 0) (w 1)
  | 0x12 => .handler (w 0) (w 1) (ws 2 16) ((List.range 8).map (fun j => BitVec.ofNat 128 (u pay (144 + 16 * j) 16)))
  | 0x13 => .evring (w 0) (w 1)
  | 0x14 => .resetfn (w 0)
  | 0x20 => .loadimg (w 0)
  | 0x21 => .graphstart (w 0)
  | 0x22 => .replay name
  | 0x23 => .fltcancel name
  | 0x24 => .winreg (w 0) (w 1) (w 2) (w 3) (w 4)
  | 0x25 => .rankmap (w 0) (w64 (w 1))
  | 0x26 => .bar2base (w 0)
  | 0x30 => .syncsum (w 0)
  | c => .unknown c

/-- The command that an MBCMD word names; one whose bits 63..20 are not zero is no command of the table. -/
def mbcmdOf (m : Mailbox) (x : W64) : MbCmd :=
  if x >>> 20 = 0 then payloadCmd (fld x 0 8).toNat (bgets m.pay 0 (fld x 8 12).toNat) else .unknown (fld x 0 8).toNat

/-- A command that the table does not hold receives status 2 (R390). -/
def execUnknown (f code : Nat) (s : State) : Out := mailbox s f (.unknown code) false true (fun s => .done s 2 [])

/-- A write to BAR0: the payload takes its bytes, a 1 at MBSTAT's done bit clears it, and MBCMD rings the doorbell; the rest is read only. -/
def bar0Write (s : State) (f off : Nat) (bs : List W8) : State :=
  let at' := (bs.zip (List.range bs.length)).map (fun e => (off + e.2, e.1))
  let m := (fnOf s f).mb
  let pay := at'.foldl (fun p e => if 0x100 ≤ e.1 ∧ e.1 < 0x1000 then bput p (e.1 - 0x100) e.2 else p) m.pay
  let m := { m with pay := pay, done := m.done && !at'.any (fun e => e.1 == 8 && e.2.getLsbD 1) }
  let s := setMb s f m
  if off < 8 ∧ !bs.isEmpty then
    let x := BitVec.ofNat 64 (leNat ((List.range 8).map (fun a => ((at'.find? (fun e => e.1 == a)).map (fun e => e.2)).getD (bar0Byte m a))))
    let s' := ring s f (mbcmdOf m x)
    if m.busy then s' else setMb s' f { (fnOf s' f).mb with mbcmd := x }
  else s

/-- An access within the 64 KiB of BAR0 of an exposed function. -/
def inBar0 (s : State) (f off n : Nat) : Bool := exposed s f && decide (off + n ≤ 2 ^ 16)

/-- HOST_WRITE: through BAR2 committed at once, in arrival order, and with no bytes only the writes that wait for their pages are tried; through
BAR0 to the function's mailbox (R322, R389). -/
def execHostWrite (f : Nat) (a : BarOff) (bs : List W8) (s : State) : Out :=
  .next (
    if a.bar = 0 then (if inBar0 s f a.off bs.length then bar0Write s f a.off bs else s)
    else if a.bar ≠ 2 || !inBar2 s f a.off bs.length then s
    else
      let x := fnOf s f
      let q := if bs.isEmpty then x.writes else x.writes ++ [(x.bar2 + a.off, bs)]
      if q.isEmpty then s else applyWrites q.length (setFn s f { x with writes := q }) f)

/-- Free bytes for a host read that its translation refuses. -/
def freeBytes : Nat → State → List W8 × State
  | 0, s => ([], s)
  | n + 1, s =>
    let r := freeNext s
    let q := freeBytes n r.2
    (r.1.setWidth 8 :: q.1, q.2)

/-- The oldest waiting host read; the bytes it returns stand in `rdata`. -/
def applyRead (s : State) (f : Nat) : State :=
  let x := fnOf s f
  match x.reads, x.part with
  | (a, n) :: rest, some part =>
    (match devLoad s part a n with
     | .done bs => edgeOut (setFn s f { x with reads := rest, rdata := bs }) .hostLink part a bs
     | .wait s => s
     | .bad .. =>
       let r := freeBytes n s
       setFn r.2 f { x with reads := rest, rdata := r.1 })
  | _, _ => s

/-- HOST_READ: through BAR2 committed bytes, and with n = 0 only the read that waits for its page is tried; through BAR0 the function's mailbox
(R322, R389). -/
def execHostRead (f : Nat) (a : BarOff) (n : Nat) (s : State) : Out :=
  .next (
    if a.bar = 0 then
      (if inBar0 s f a.off n then setFn s f { fnOf s f with rdata := (List.range n).map (fun i => bar0Byte (fnOf s f).mb (a.off + i)) } else s)
    else if a.bar ≠ 2 || !inBar2 s f a.off n then s
    else
      let x := fnOf s f
      let q := if n = 0 then x.reads else x.reads ++ [(x.bar2 + a.off, n)]
      if q.isEmpty then s else applyRead (setFn s f { x with reads := q }) f)

/-! ### Power, cooling, migration (R3, R351, R393) -/

/-- POWER_CAP: at the cap only the matrix engine slows, which is timing (R3). -/
def execPowerCap (on : Bool) (s : State) : Out := .next (setMgmt s { s.mgmt with slow := on })

/-- THERMAL_SLOWDOWN: the matrix engine slows as at the cap (R393). -/
def execThermalSlowdown (on : Bool) (s : State) : Out := .next (setMgmt s { s.mgmt with hot := on })

/-- THERMAL_STOP: issue stops on every core until a reset, and the physical function gets an event (R393). -/
def execThermalStop (s : State) : Out :=
  .next (
    if s.mgmt.stopped then s
    else
      let r := freeNext (setMgmt s { s.mgmt with stopped := true })
      postFree r.2 0 r.1)

/-- FUNCTION_MIGRATION_PAUSE: the function's events are held, and its blocks are saved (R351). -/
def execFunctionMigrationPause (f : Nat) (s : State) : Out :=
  .next (
    let x := fnOf s f
    if x.paused then s
    else
      let s := setFn s f { x with paused := true }
      match x.part with
      | some part => askBlocks s (residentOf s part f)
      | none => s)

/-- FUNCTION_MIGRATION_RESUME: held events are delivered in order (R351). -/
def execFunctionMigrationResume (f : Nat) (s : State) : Out :=
  .next (
    let x := fnOf s f
    if !x.paused then s else deliverAll (setFn s f { x with paused := false }) f)

end Sys2Proof.Machine
end

