-- ==== Sys2Proof/Machine/Elementary.lean ====
section
/-! DEFINITION. Values of 2^x, log2, sin, cos and tanh to some 200 bits, and the error bounds R138 sets on the special functions: whether a
result lies within its bound. A value is held as an integer count of 2^-256. -/
namespace Sys2Proof.Machine
open Sys2Proof

/-- One, as a count of 2^-256. -/
def fixOne : Int := ((2 ^ 256 : Nat) : Int)

/-- ⌊π × 2^512⌋. -/
def piFix : Int := ((0x3243f6a8885a308d313198a2e03707344a4093822299f31d0082efa98ec4e6c89452821e638d01377be5466cf34e90c6cc0ac29b7c97c50dd3f84d5b5b5470917 : Nat) : Int)

/-- A dyadic value of exponent -256 or more, as a count of 2^-256. -/
def dyFix (d : Dy) : Int := dyInt d (-256)

/-- Σ z^(2j+1) / (2j+1) from odd index `k`, with `zp` = z^k. -/
def atanhSum (z2 : Int) : Nat → Nat → Int → Int → Int
  | 0, _, _, acc => acc
  | n + 1, k, zp, acc => atanhSum z2 n (k + 2) (zp * z2 / fixOne) (acc + zp / (k : Int))

/-- ln u for u from 1 to 2. -/
def lnFix (u : Int) : Int :=
  let z := (u - fixOne) * fixOne / (u + fixOne)
  2 * atanhSum (z * z / fixOne) 84 1 z 0

def ln2Fix : Int := lnFix (2 * fixOne)

/-- Σ r^j / j! from index `k`, with `t` = r^k / k!. -/
def expSum (r : Int) : Nat → Nat → Int → Int → Int
  | 0, _, _, acc => acc
  | n + 1, k, t, acc => expSum r n (k + 1) (t * r / fixOne / ((k + 1 : Nat) : Int)) (acc + t)

/-- 2^x; 0 where it is below 2^-512. -/
def exp2Fix (x : Int) : Int :=
  let k := x / fixOne
  if k < -512 then 0
  else
    let y := expSum ((x - k * fixOne) * ln2Fix / fixOne) 64 0 fixOne 0
    if 0 ≤ k then y * ((2 ^ k.toNat : Nat) : Int) else y / ((2 ^ (-k).toNat : Nat) : Int)

/-- log2 of a positive value. -/
def log2Fix (d : Dy) : Int :=
  let n := bitLen d.m - 1
  let u : Int := ((d.m * 2 ^ 256 / 2 ^ n : Nat) : Int)
  (d.e + n) * fixOne + lnFix u * fixOne / ln2Fix

/-- The alternating series of sin (from k = 1) and cos (from k = 0): Σ ± r^j / j! over every second j. -/
def trigSum (r2 : Int) : Nat → Nat → Int → Int → Int
  | 0, _, _, acc => acc
  | n + 1, k, t, acc => trigSum r2 n (k + 2) (-(t * r2 / fixOne / (((k + 1) * (k + 2) : Nat) : Int))) (acc + t)

/-- x less its multiple of 2π, from 0 to 2π (R138: the reduction is exact). -/
def reduceFix (x : Int) : Int := x * fixOne % (2 * piFix) / fixOne

def sinFix (x : Int) : Int := let r := reduceFix x; trigSum (r * r / fixOne) 52 1 r 0
def cosFix (x : Int) : Int := let r := reduceFix x; trigSum (r * r / fixOne) 52 0 fixOne 0

/-- tanh x, below 1 in magnitude. -/
def tanhFix (x : Int) : Int :=
  let t := exp2Fix (-(2 * (x.natAbs : Int) * fixOne / ln2Fix))
  let y := min ((fixOne - t) * fixOne / (fixOne + t)) (fixOne - 1)
  if x < 0 then -y else y

/-- One ulp of a result y (R138), as a count of 2^-256. -/
def ulpFix (f : Fmt) (y : Int) : Nat := 2 ^ (max ((bitLen y.natAbs : Int) - 257) (1 - (f.bias : Int)) - f.fb + 256).toNat

/-- 2^-n as a count of 2^-256. -/
def twoNeg (n : Nat) : Nat := 2 ^ (256 - n)

/-- The error bounds of R138 by minor, format, magnitude of the input and value of the function. -/
def boundFix (f : Fmt) (minor : Nat) (half : Bool) (x : Dy) (y : Int) : Nat :=
  let a := dyFix { x with neg := false }
  let mid := decide (fixOne ≤ 2 * a) && decide (a ≤ 2 * fixOne)
  match minor, half with
  | 3, false => 2 * ulpFix f y
  | 4, false => if mid then twoNeg 22 else 2 * ulpFix f y
  | 4, true => if mid then twoNeg 10 else ulpFix f y
  | 7, false => if 16 * a < fixOne then twoNeg 22 else 2 * ulpFix f y
  | 5, false | 6, false => twoNeg 21
  | 5, true | 6, true => twoNeg 10
  | _, _ => ulpFix f y

/-- `c` lies within the bound of the value `y`, which is itself known to some 200 bits. -/
def nearFix (f : Fmt) (c : Nat) (y : Int) (bound : Nat) : Bool :=
  match decF f c with
  | .fin d => decide ((dyFix d - y).natAbs ≤ bound + y.natAbs / 2 ^ 200 + 2 ^ 56)
  | _ => false

/-- The value as a dyadic number. -/
def fixDy (y : Int) : Dy := { neg := decide (y < 0), m := y.natAbs, e := -256 }

/-- A result within the bound: `c` where it is, else the correctly rounded value. -/
def boundedTo (f : Fmt) (c : Nat) (y : Int) (bound : Nat) : Nat := if nearFix f c y bound then c else (roundF f .ne 0 (fixDy y)).1

end Sys2Proof.Machine
end

