-- ==== Sys2Proof/Machine/Special.lean ====
section
/-! DEFINITION. The special functions of major 0x1A (R138, R139). Where the manual gives only a bound the result comes from
Config.special and keeps that bound (log 4). -/
namespace Sys2Proof.Machine
open Sys2Proof

/-- ⌊log2⌋ of a positive value, and whether it is a power of two. -/
def dyLog (d : Dy) : Int × Bool := (d.e + bitLen d.m - 1, d.m == 2 ^ (bitLen d.m - 1))

/-- Exponent of an ulp at ⌊log2 y⌋ = k (R138). -/
def ulpExp (f : Fmt) (k : Int) : Int := max k (1 - f.bias) - f.fb

/-- a ≤ b for values that are not negative. -/
def magLe (a b : Dy) : Bool := !magLt b a

def dyPow (e : Int) : Dy := { neg := false, m := 1, e := e }
def dyAddPos (a b : Dy) : Dy := dyAdd .ne { a with neg := false } { b with neg := false }
/-- max(a − b, 0) for values that are not negative. -/
def dySubPos (a b : Dy) : Dy := if magLe a b then { neg := false, m := 0, e := 0 } else dyAdd .ne { a with neg := false } { b with neg := true }

/-- `c` lies within one ulp of 1 / x (x positive, finite, not zero). -/
def nearRecip (f : Fmt) (c x : Dy) : Bool :=
  let lg := dyLog x
  let u := dyPow (ulpExp f (if lg.2 then -lg.1 else -lg.1 - 1))
  magLe (dyMul (dySubPos c u) x) (dyPow 0) && magLe (dyPow 0) (dyMul (dyAddPos c u) x)

/-- `c` lies within one ulp of 1 / √x. -/
def nearRsqrt (f : Fmt) (c x : Dy) : Bool :=
  let lg := dyLog x
  let j := lg.1 / 2
  let u := dyPow (ulpExp f (if lg.2 && lg.1 % 2 == 0 then -j else -j - 1))
  let lo := dySubPos c u
  let hi := dyAddPos c u
  magLe (dyMul (dyMul lo lo) x) (dyPow 0) && magLe (dyPow 0) (dyMul (dyMul hi hi) x)

/-- The free candidate of a function, as magnitude bits of its format. -/
def candidate (f : Fmt) (minor : Nat) (half : Bool) (x : Nat) : Nat := (Config.special minor half (BitVec.ofNat 32 x)).toNat % (2 * signBit f)

/-- The candidate when it is finite, of the sign and within the bound; the correctly rounded value otherwise. -/
def pick (f : Fmt) (neg : Bool) (c exact : Nat) (near : Dy → Bool) : Nat :=
  match decF f c with
  | .fin d => if d.neg = neg && near { d with neg := false } then c else exact
  | _ => exact

def frcpF (f : Fmt) (half : Bool) (x : Nat) : Nat × Flg :=
  match decF f x with
  | .nan s => (nanBits f, nvIf s)
  | .inf n => (withSign f n 0, 0)
  | .fin d =>
    if d.m = 0 then (withSign f d.neg (infBits f), fDZ)
    else
      let r := roundF f .ne 0 (dyRecip d)
      if r.1 % signBit f = infBits f then (r.1, fOF)
      else (pick f d.neg (candidate f 0 half x) r.1 (fun c => nearRecip f c { d with neg := false }), 0)

def frsqF (f : Fmt) (half : Bool) (x : Nat) : Nat × Flg :=
  match decF f x with
  | .nan s => (nanBits f, nvIf s)
  | .inf n => if n then (nanBits f, fNV) else (0, 0)
  | .fin d =>
    if d.m = 0 then (withSign f d.neg (infBits f), fDZ)
    else if d.neg then (nanBits f, fNV)
    else (pick f false (candidate f 1 half x) (roundF f .ne 0 (dyRecip (dySqrt d))).1 (fun c => nearRsqrt f c d), 0)

def fsqrtF (f : Fmt) (mode : RMode) (noise : Nat) (x : Nat) : Nat × Flg :=
  match decF f x with
  | .nan s => (nanBits f, nvIf s)
  | .inf n => if n then (nanBits f, fNV) else (infBits f, 0)
  | .fin d =>
    if d.m = 0 then (withSign f d.neg 0, 0)
    else if d.neg then (nanBits f, fNV)
    else roundF f mode noise (dySqrt d)

/-- The integer that a value is, if it is one. -/
def dyAsInt (d : Dy) : Option Int :=
  if d.m = 0 then some 0
  else if 0 ≤ d.e then some (if d.neg then -((d.m * 2 ^ d.e.toNat : Nat) : Int) else ((d.m * 2 ^ d.e.toNat : Nat) : Int))
  else if d.m % 2 ^ (-d.e).toNat = 0 then some (if d.neg then -((d.m / 2 ^ (-d.e).toNat : Nat) : Int) else ((d.m / 2 ^ (-d.e).toNat : Nat) : Int))
  else none

/-- A free result within the bound that R138 sets around the value `y` of the function on `d`, whose bits are `x`. -/
def bounded (f : Fmt) (minor : Nat) (half : Bool) (x : Nat) (d : Dy) (y : Int) : Nat :=
  boundedTo f (candidate f minor half x) y (boundFix f minor half d y)

/-- 2^x: exact on an integer in FP32, and 1 at zero (R138, R139). -/
def fexp2F (f : Fmt) (half : Bool) (x : Nat) : Nat × Flg :=
  match decF f x with
  | .nan s => (nanBits f, nvIf s)
  | .inf n => if n then (0, 0) else (infBits f, 0)
  | .fin d =>
    if !d.neg && magLe { neg := false, m := f.bias + 1, e := 0 } d then (infBits f, fOF)
    else
      match dyAsInt d with
      | some k =>
        if (!half || k == 0) && decide (1 - (f.bias : Int) - f.fb ≤ k) then ((roundF f .ne 0 (dyPow k)).1, 0)
        else (bounded f 3 half x d (exp2Fix (dyFix d)), 0)
      | none => (bounded f 3 half x d (exp2Fix (dyFix d)), 0)

/-- log2 x: exact on a power of two in FP32, and +0 at one (R138, R139). -/
def flog2F (f : Fmt) (half : Bool) (x : Nat) : Nat × Flg :=
  match decF f x with
  | .nan s => (nanBits f, nvIf s)
  | .inf n => if n then (nanBits f, fNV) else (infBits f, 0)
  | .fin d =>
    if d.m = 0 then (withSign f true (infBits f), fDZ)
    else if d.neg then (nanBits f, fNV)
    else
      let lg := dyLog d
      if lg.2 && (!half || lg.1 == 0) then ((roundF f .ne 0 (dyOfInt lg.1)).1, 0)
      else (bounded f 4 half x d (log2Fix d), 0)

def fsinF (f : Fmt) (half : Bool) (x : Nat) : Nat × Flg :=
  match decF f x with
  | .nan s => (nanBits f, nvIf s)
  | .inf _ => (nanBits f, fNV)
  | .fin d => if d.m = 0 then (x, 0) else (bounded f 5 half x d (sinFix (dyFix d)), 0)

def fcosF (f : Fmt) (half : Bool) (x : Nat) : Nat × Flg :=
  match decF f x with
  | .nan s => (nanBits f, nvIf s)
  | .inf _ => (nanBits f, fNV)
  | .fin d => if d.m = 0 then ((roundF f .ne 0 (dyPow 0)).1, 0) else (bounded f 6 half x d (cosFix (dyFix d)), 0)

def ftanhF (f : Fmt) (half : Bool) (x : Nat) : Nat × Flg :=
  match decF f x with
  | .nan s => (nanBits f, nvIf s)
  | .inf n => (withSign f n (roundF f .ne 0 (dyPow 0)).1, 0)
  | .fin d => if d.m = 0 then (x, 0) else (bounded f 7 half x d (tanhFix (dyFix d)), 0)

/-- One special function on every slot of every executing lane. -/
def specialOp (h : Hdr) (t : Ty) (d a : VReg) (f : Fmt → Bool → Nat → Nat × Flg) (s : State) : Out :=
  floatOp h t .rn d [a] (fun _ _ x => f (fmtOf t) (t == .f16) (arg x 0)) s

def execFrcp (h : Hdr) (t : Ty) (d a : VReg) (s : State) : Out := specialOp h t d a frcpF s
def execFrsq (h : Hdr) (t : Ty) (d a : VReg) (s : State) : Out := specialOp h t d a frsqF s
def execFsqrt (h : Hdr) (t : Ty) (r : Rm) (d a : VReg) (s : State) : Out :=
  floatOp h t r d [a] (fun m n x => fsqrtF (fmtOf t) m n (arg x 0)) s
def execFexp2 (h : Hdr) (t : Ty) (d a : VReg) (s : State) : Out := specialOp h t d a fexp2F s
def execFlog2 (h : Hdr) (t : Ty) (d a : VReg) (s : State) : Out := specialOp h t d a flog2F s
def execFsin (h : Hdr) (t : Ty) (d a : VReg) (s : State) : Out := specialOp h t d a fsinF s
def execFcos (h : Hdr) (t : Ty) (d a : VReg) (s : State) : Out := specialOp h t d a fcosF s
def execFtanh (h : Hdr) (t : Ty) (d a : VReg) (s : State) : Out := specialOp h t d a ftanhF s

end Sys2Proof.Machine
end

