-- ==== Sys2Proof/Machine/Dispatch.lean ====
section
/-! DEFINITION. The dispatcher: one arm per instruction and per event, each a direct call of its meaning. -/
namespace Sys2Proof.Machine
open Sys2Proof

def exec (i : Instr) (s : State) : Host.Outcome State Fault Refusal :=
  match i with
  | .nop h => Sys2Proof.Machine.execNop h s
  | .want h l => Sys2Proof.Machine.execWant h l s
  | .wantVector h a => Sys2Proof.Machine.execWantVector h a s
  | .wants h neg a l => Sys2Proof.Machine.execWants h neg a l s
  | .wanth h n l => Sys2Proof.Machine.execWanth h n l s
  | .exit h => Sys2Proof.Machine.execExit h s
  | .call h f => Sys2Proof.Machine.execCall h f s
  | .ret h => Sys2Proof.Machine.execRet h s
  | .yield h => Sys2Proof.Machine.execYield h s
  | .spawn h d f e a c n m => Sys2Proof.Machine.execSpawn h d f e a c n m s
  | .launch h d c o => Sys2Proof.Machine.execLaunch h d c o s
  | .trap h code => Sys2Proof.Machine.execTrap h code s
  | .brk h code => Sys2Proof.Machine.execBrk h code s
  | .hwait h d n => Sys2Proof.Machine.execHwait h d n s
  | .htest h d n => Sys2Proof.Machine.execHtest h d n s
  | .hcancel h n => Sys2Proof.Machine.execHcancel h n s
  | .hmov h d n => Sys2Proof.Machine.execHmov h d n s
  | .waitcnt h sel n => Sys2Proof.Machine.execWaitcnt h sel n s
  | .barinit h b n => Sys2Proof.Machine.execBarinit h b n s
  | .bararr h d b n => Sys2Proof.Machine.execBararr h d b n s
  | .barwt h t => Sys2Proof.Machine.execBarwt h t s
  | .bartry h d t => Sys2Proof.Machine.execBartry h d t s
  | .phase h d => Sys2Proof.Machine.execPhase h d s
  | .sadd h t d a b => Sys2Proof.Machine.execSadd h t d a b s
  | .ssub h t d a b => Sys2Proof.Machine.execSsub h t d a b s
  | .smul h t d a b => Sys2Proof.Machine.execSmul h t d a b s
  | .smulh h t d a b => Sys2Proof.Machine.execSmulh h t d a b s
  | .sand h t d a b => Sys2Proof.Machine.execSand h t d a b s
  | .sor h t d a b => Sys2Proof.Machine.execSor h t d a b s
  | .sxor h t d a b => Sys2Proof.Machine.execSxor h t d a b s
  | .sshl h t d a b => Sys2Proof.Machine.execSshl h t d a b s
  | .sshr h t d a b => Sys2Proof.Machine.execSshr h t d a b s
  | .ssra h t d a b => Sys2Proof.Machine.execSsra h t d a b s
  | .smin h t d a b => Sys2Proof.Machine.execSmin h t d a b s
  | .smax h t d a b => Sys2Proof.Machine.execSmax h t d a b s
  | .ssel h t d a b c => Sys2Proof.Machine.execSsel h t d a b c s
  | .scmp h t d a b cond => Sys2Proof.Machine.execScmp h t d a b cond s
  | .saddi h t d a imm => Sys2Proof.Machine.execSaddi h t d a imm s
  | .sandi h t d a imm => Sys2Proof.Machine.execSandi h t d a imm s
  | .sori h t d a imm => Sys2Proof.Machine.execSori h t d a imm s
  | .sxori h t d a imm => Sys2Proof.Machine.execSxori h t d a imm s
  | .sshli h t d a n => Sys2Proof.Machine.execSshli h t d a n s
  | .sshri h t d a n arith => Sys2Proof.Machine.execSshri h t d a n arith s
  | .scmpi h t d a cond imm => Sys2Proof.Machine.execScmpi h t d a cond imm s
  | .smovi h t d k imm => Sys2Proof.Machine.execSmovi h t d k imm s
  | .smov h d a => Sys2Proof.Machine.execSmov h d a s
  | .gets h d sr => Sys2Proof.Machine.execGets h d sr s
  | .sets h sr a => Sys2Proof.Machine.execSets h sr a s
  | .sldk h d k => Sys2Proof.Machine.execSldk h d k s
  | .vadd h t d a b => Sys2Proof.Machine.execVadd h t d a b s
  | .vsub h t d a b => Sys2Proof.Machine.execVsub h t d a b s
  | .vmul h t d a b => Sys2Proof.Machine.execVmul h t d a b s
  | .vmulh h t d a b => Sys2Proof.Machine.execVmulh h t d a b s
  | .vmad h t d a b c => Sys2Proof.Machine.execVmad h t d a b c s
  | .vand h t d a b => Sys2Proof.Machine.execVand h t d a b s
  | .vor h t d a b => Sys2Proof.Machine.execVor h t d a b s
  | .vxor h t d a b => Sys2Proof.Machine.execVxor h t d a b s
  | .vnot h t d a => Sys2Proof.Machine.execVnot h t d a s
  | .vshl h t d a b => Sys2Proof.Machine.execVshl h t d a b s
  | .vshr h t d a b => Sys2Proof.Machine.execVshr h t d a b s
  | .vsra h t d a b => Sys2Proof.Machine.execVsra h t d a b s
  | .vmin h t d a b => Sys2Proof.Machine.execVmin h t d a b s
  | .vmax h t d a b => Sys2Proof.Machine.execVmax h t d a b s
  | .vabs h t d a => Sys2Proof.Machine.execVabs h t d a s
  | .vclz h t d a => Sys2Proof.Machine.execVclz h t d a s
  | .vpopc h t d a => Sys2Proof.Machine.execVpopc h t d a s
  | .vadds h t d a b => Sys2Proof.Machine.execVadds h t d a b s
  | .vsubs h t d a b => Sys2Proof.Machine.execVsubs h t d a b s
  | .vaddX h t d a b => Sys2Proof.Machine.execVaddX h t d a b s
  | .vsubX h t d a b => Sys2Proof.Machine.execVsubX h t d a b s
  | .vmulX h t d a b => Sys2Proof.Machine.execVmulX h t d a b s
  | .vmulhX h t d a b => Sys2Proof.Machine.execVmulhX h t d a b s
  | .vandX h t d a b => Sys2Proof.Machine.execVandX h t d a b s
  | .vorX h t d a b => Sys2Proof.Machine.execVorX h t d a b s
  | .vxorX h t d a b => Sys2Proof.Machine.execVxorX h t d a b s
  | .vshlX h t d a b => Sys2Proof.Machine.execVshlX h t d a b s
  | .vshrX h t d a b => Sys2Proof.Machine.execVshrX h t d a b s
  | .vsraX h t d a b => Sys2Proof.Machine.execVsraX h t d a b s
  | .vminX h t d a b => Sys2Proof.Machine.execVminX h t d a b s
  | .vmaxX h t d a b => Sys2Proof.Machine.execVmaxX h t d a b s
  | .vaddsX h t d a b => Sys2Proof.Machine.execVaddsX h t d a b s
  | .vsubsX h t d a b => Sys2Proof.Machine.execVsubsX h t d a b s
  | .vcmp h t d a b cond => Sys2Proof.Machine.execVcmp h t d a b cond s
  | .vsel h t d a b c => Sys2Proof.Machine.execVsel h t d a b c s
  | .vmov h t d a => Sys2Proof.Machine.execVmov h t d a s
  | .pand h d a b => Sys2Proof.Machine.execPand h d a b s
  | .por h d a b => Sys2Proof.Machine.execPor h d a b s
  | .pxor h d a b => Sys2Proof.Machine.execPxor h d a b s
  | .pnot h d a => Sys2Proof.Machine.execPnot h d a s
  | .pmov h d a => Sys2Proof.Machine.execPmov h d a s
  | .pset h d a => Sys2Proof.Machine.execPset h d a s
  | .pcnt h d a => Sys2Proof.Machine.execPcnt h d a s
  | .shfl h t d a m => Sys2Proof.Machine.execShfl h t d a m s
  | .rdfl h t d a => Sys2Proof.Machine.execRdfl h t d a s
  | .vote h d a m => Sys2Proof.Machine.execVote h d a m s
  | .reduce h t d a op => Sys2Proof.Machine.execReduce h t d a op s
  | .scan h t d a op excl => Sys2Proof.Machine.execScan h t d a op excl s
  | .sample h d a b => Sys2Proof.Machine.execSample h d a b s
  | .fadd h t r d a b => Sys2Proof.Machine.execFadd h t r d a b s
  | .fsub h t r d a b => Sys2Proof.Machine.execFsub h t r d a b s
  | .fmul h t r d a b => Sys2Proof.Machine.execFmul h t r d a b s
  | .ffma h t r d a b c => Sys2Proof.Machine.execFfma h t r d a b c s
  | .fmin h t d a b => Sys2Proof.Machine.execFmin h t d a b s
  | .fmax h t d a b => Sys2Proof.Machine.execFmax h t d a b s
  | .fabs h t d a => Sys2Proof.Machine.execFabs h t d a s
  | .fneg h t d a => Sys2Proof.Machine.execFneg h t d a s
  | .fcmp h t d a b cond slot => Sys2Proof.Machine.execFcmp h t d a b cond slot s
  | .fclass h t d a => Sys2Proof.Machine.execFclass h t d a s
  | .frcp h t d a => Sys2Proof.Machine.execFrcp h t d a s
  | .frsq h t d a => Sys2Proof.Machine.execFrsq h t d a s
  | .fsqrt h t r d a => Sys2Proof.Machine.execFsqrt h t r d a s
  | .fexp2 h t d a => Sys2Proof.Machine.execFexp2 h t d a s
  | .flog2 h t d a => Sys2Proof.Machine.execFlog2 h t d a s
  | .fsin h t d a => Sys2Proof.Machine.execFsin h t d a s
  | .fcos h t d a => Sys2Proof.Machine.execFcos h t d a s
  | .ftanh h t d a => Sys2Proof.Machine.execFtanh h t d a s
  | .fstat h d mask => Sys2Proof.Machine.execFstat h d mask s
  | .fmode h d mode => Sys2Proof.Machine.execFmode h d mode s
  | .cvt h src dst r d a ss ds => Sys2Proof.Machine.execCvt h src dst r d a ss ds s
  | .cvtsr h src dst d a ss ds => Sys2Proof.Machine.execCvtsr h src dst d a ss ds s
  | .qscale h t d a bs ct => Sys2Proof.Machine.execQscale h t d a bs ct s
  | .qpack h t r d a b bs => Sys2Proof.Machine.execQpack h t r d a b bs s
  | .qunpk h t d a b bs => Sys2Proof.Machine.execQunpk h t d a b bs s
  | .plane h t d a => Sys2Proof.Machine.execPlane h t d a s
  | .lds h w d c x disp => Sys2Proof.Machine.execLds h w d c x disp s
  | .sts h w d c x disp => Sys2Proof.Machine.execSts h w d c x disp s
  | .atomsAdd h sc d c x disp => Sys2Proof.Machine.execAtomsAdd h sc d c x disp s
  | .atomsAnd h sc d c x disp => Sys2Proof.Machine.execAtomsAnd h sc d c x disp s
  | .atomsOr h sc d c x disp => Sys2Proof.Machine.execAtomsOr h sc d c x disp s
  | .atomsXor h sc d c x disp => Sys2Proof.Machine.execAtomsXor h sc d c x disp s
  | .atomsMin h sc d c x disp => Sys2Proof.Machine.execAtomsMin h sc d c x disp s
  | .atomsMax h sc d c x disp => Sys2Proof.Machine.execAtomsMax h sc d c x disp s
  | .atomsExch h sc d c x disp => Sys2Proof.Machine.execAtomsExch h sc d c x disp s
  | .atomsCas h sc d c x disp => Sys2Proof.Machine.execAtomsCas h sc d c x disp s
  | .atomsFadd h sc d c x disp => Sys2Proof.Machine.execAtomsFadd h sc d c x disp s
  | .taglk h f => Sys2Proof.Machine.execTaglk h f s
  | .tagset h d x => Sys2Proof.Machine.execTagset h d x s
  | .taginv h d => Sys2Proof.Machine.execTaginv h d s
  | .capld h d c x disp => Sys2Proof.Machine.execCapld h d c x disp s
  | .capst h d c x disp => Sys2Proof.Machine.execCapst h d c x disp s
  | .capsub h d c x => Sys2Proof.Machine.execCapsub h d c x s
  | .capperm h d c m => Sys2Proof.Machine.execCapperm h d c m s
  | .capget h d c f => Sys2Proof.Machine.execCapget h d c f s
  | .capoff h d c x => Sys2Proof.Machine.execCapoff h d c x s
  | .copy h t d g x4 a b c out plane => Sys2Proof.Machine.execCopy h t d g x4 a b c out plane s
  | .gather h t d g x4 a b c imm => Sys2Proof.Machine.execGather h t d g x4 a b c imm s
  | .scatter h t d g x4 a b c imm => Sys2Proof.Machine.execScatter h t d g x4 a b c imm s
  | .qld h t k c o x5 n => Sys2Proof.Machine.execQld h t k c o x5 n s
  | .qst h t k c o x5 n => Sys2Proof.Machine.execQst h t k c o x5 n s
  | .qclose h k => Sys2Proof.Machine.execQclose h k s
  | .qres h d k => Sys2Proof.Machine.execQres h d k s
  | .pagereq h d f => Sys2Proof.Machine.execPagereq h d f s
  | .atomgAdd h sc d b c o big sg acq => Sys2Proof.Machine.execAtomgAdd h sc d b c o big sg acq s
  | .atomgAnd h sc d b c o big sg acq => Sys2Proof.Machine.execAtomgAnd h sc d b c o big sg acq s
  | .atomgOr h sc d b c o big sg acq => Sys2Proof.Machine.execAtomgOr h sc d b c o big sg acq s
  | .atomgXor h sc d b c o big sg acq => Sys2Proof.Machine.execAtomgXor h sc d b c o big sg acq s
  | .atomgMin h sc d b c o big sg acq => Sys2Proof.Machine.execAtomgMin h sc d b c o big sg acq s
  | .atomgMax h sc d b c o big sg acq => Sys2Proof.Machine.execAtomgMax h sc d b c o big sg acq s
  | .atomgExch h sc d b c o big sg acq => Sys2Proof.Machine.execAtomgExch h sc d b c o big sg acq s
  | .atomgCas h sc d b c o sw big sg acq => Sys2Proof.Machine.execAtomgCas h sc d b c o sw big sg acq s
  | .atomgFadd h sc d b c o acq => Sys2Proof.Machine.execAtomgFadd h sc d b c o acq s
  | .fence h sc m => Sys2Proof.Machine.execFence h sc m s
  | .commit h sc => Sys2Proof.Machine.execCommit h sc s
  | .enq h d a b n => Sys2Proof.Machine.execEnq h d a b n s
  | .deq h a b => Sys2Proof.Machine.execDeq h a b s
  | .mma h t d v c x5 w o bsa bsb => Sys2Proof.Machine.execMma h t d v c x5 w o bsa bsb s
  | .mtbl h a q => Sys2Proof.Machine.execMtbl h a q s
  | .mtblsw h => Sys2Proof.Machine.execMtblsw h s
  | .baton h m => Sys2Proof.Machine.execBaton h m s
  | .fetchn h d c n o l => Sys2Proof.Machine.execFetchn h d c n o l s
  | .pubn h d c n o l => Sys2Proof.Machine.execPubn h d c n o l s
  | .sealn h d c n o l => Sys2Proof.Machine.execSealn h d c n o l s
  | .stopref h d n => Sys2Proof.Machine.execStopref h d n s
  | .subn h d n st m => Sys2Proof.Machine.execSubn h d n st m s
  | .put h t d c o w tg => Sys2Proof.Machine.execPut h t d c o w tg s
  | .wctr h d w v m => Sys2Proof.Machine.execWctr h d w v m s
  | .ared h d c w x4 ct => Sys2Proof.Machine.execAred h d c w x4 ct s
  | .a2av h t d ca cb w p q => Sys2Proof.Machine.execA2av h t d ca cb w p q s
  | .xchg h t v p => Sys2Proof.Machine.execXchg h t v p s
  | .sortk h d c k cn n => Sys2Proof.Machine.execSortk h d c k cn n s
  | .trace h a tag => Sys2Proof.Machine.execTrace h a tag s
  | .rdctr h d n seat => Sys2Proof.Machine.execRdctr h d n seat s
  | .icinv h sc d => Sys2Proof.Machine.execIcinv h sc d s
  | .tlbinv h sc d a => Sys2Proof.Machine.execTlbinv h sc d a s
  | .prd h d a seat => Sys2Proof.Machine.execPrd h d a seat s
  | .pwr h d a seat => Sys2Proof.Machine.execPwr h d a seat s
  | .eret h m => Sys2Proof.Machine.execEret h m s
  | .haltb h d k => Sys2Proof.Machine.execHaltb h d k s
  | .endBlock => Sys2Proof.Machine.execEndBlock s
  | .idleWake b g => Sys2Proof.Machine.execIdleWake b g s
  | .brokenChain => Sys2Proof.Machine.execBrokenChain s
  | .asyncComplete op => Sys2Proof.Machine.execAsyncComplete op s
  | .copyComplete op elem => Sys2Proof.Machine.execCopyComplete op elem s
  | .rangeEntryRelease id => Sys2Proof.Machine.execRangeEntryRelease id s
  | .loadQueueReadahead b g k => Sys2Proof.Machine.execLoadQueueReadahead b g k s
  | .storeQueueWrite op lane => Sys2Proof.Machine.execStoreQueueWrite op lane s
  | .atomgApply op => Sys2Proof.Machine.execAtomgApply op s
  | .mmaComplete op => Sys2Proof.Machine.execMmaComplete op s
  | .commitTakeEffect b => Sys2Proof.Machine.execCommitTakeEffect b s
  | .finalCommit b => Sys2Proof.Machine.execFinalCommit b s
  | .xchgSwap b g => Sys2Proof.Machine.execXchgSwap b g s
  | .enqAccept op => Sys2Proof.Machine.execEnqAccept op s
  | .blockPlacement part => Sys2Proof.Machine.execBlockPlacement part s
  | .idleBlockPreempt part => Sys2Proof.Machine.execIdleBlockPreempt part s
  | .stageRetire l n => Sys2Proof.Machine.execStageRetire l n s
  | .affinityReassign l => Sys2Proof.Machine.execAffinityReassign l s
  | .graphNodeStart g n => Sys2Proof.Machine.execGraphNodeStart g n s
  | .loopIteration g n => Sys2Proof.Machine.execLoopIteration g n s
  | .graphNodeComplete g n => Sys2Proof.Machine.execGraphNodeComplete g n s
  | .settleEvent l pset => Sys2Proof.Machine.execSettleEvent l pset s
  | .publishApply op => Sys2Proof.Machine.execPublishApply op s
  | .stoprefApply op => Sys2Proof.Machine.execStoprefApply op s
  | .subnRecord op => Sys2Proof.Machine.execSubnRecord op s
  | .interestArrival imm => Sys2Proof.Machine.execInterestArrival imm s
  | .tileArrival imm => Sys2Proof.Machine.execTileArrival imm s
  | .waiterExpiry stop name dir => Sys2Proof.Machine.execWaiterExpiry stop name dir s
  | .fetchnLifetimeExpiry op => Sys2Proof.Machine.execFetchnLifetimeExpiry op s
  | .fetchnDelivery op => Sys2Proof.Machine.execFetchnDelivery op s
  | .removalNotice part stop tid => Sys2Proof.Machine.execRemovalNotice part stop tid s
  | .putLanding op elem => Sys2Proof.Machine.execPutLanding op elem s
  | .a2avTransferLanding op j => Sys2Proof.Machine.execA2avTransferLanding op j s
  | .collectiveComplete op => Sys2Proof.Machine.execCollectiveComplete op s
  | .sortkComplete op => Sys2Proof.Machine.execSortkComplete op s
  | .pageResident part token => Sys2Proof.Machine.execPageResident part token s
  | .eviction page => Sys2Proof.Machine.execEviction page s
  | .lumberSpill part => Sys2Proof.Machine.execLumberSpill part s
  | .checkWordFailure site => Sys2Proof.Machine.execCheckWordFailure site s
  | .flitRetry link plane => Sys2Proof.Machine.execFlitRetry link plane s
  | .linkRetrain link => Sys2Proof.Machine.execLinkRetrain link s
  | .echoedMark core part cls => Sys2Proof.Machine.execEchoedMark core part cls s
  | .rateQuietExpiry core part cls => Sys2Proof.Machine.execRateQuietExpiry core part cls s
  | .trapDelivery b => Sys2Proof.Machine.execTrapDelivery b s
  | .handlerRunStart core => Sys2Proof.Machine.execHandlerRunStart core s
  | .sliceEnd fn => Sys2Proof.Machine.execSliceEnd fn s
  | .preemptStop b g => Sys2Proof.Machine.execPreemptStop b g s
  | .quiesce b => Sys2Proof.Machine.execQuiesce b s
  | .savedHandleUpdate op => Sys2Proof.Machine.execSavedHandleUpdate op s
  | .restore b => Sys2Proof.Machine.execRestore b s
  | .hangWatchdog b g => Sys2Proof.Machine.execHangWatchdog b g s
  | .hardwareErrorRefire b => Sys2Proof.Machine.execHardwareErrorRefire b s
  | .handlerErrorRestart core => Sys2Proof.Machine.execHandlerErrorRestart core s
  | .traceSample part => Sys2Proof.Machine.execTraceSample part s
  | .traceDrain cluster => Sys2Proof.Machine.execTraceDrain cluster s
  | .clusterPowerGate cluster => Sys2Proof.Machine.execClusterPowerGate cluster s
  | .holdSlotWrite part slot v => Sys2Proof.Machine.execHoldSlotWrite part slot v s
  | .traceAreaSet part len v => Sys2Proof.Machine.execTraceAreaSet part len v s
  | .blockRingSet part v => Sys2Proof.Machine.execBlockRingSet part v s
  | .status fn => Sys2Proof.Machine.execStatus fn s
  | .fwload fn img => Sys2Proof.Machine.execFwload fn img s
  | .cfgwrite fn rec => Sys2Proof.Machine.execCfgwrite fn rec s
  | .attest fn nonce => Sys2Proof.Machine.execAttest fn nonce s
  | .partset fn part regs => Sys2Proof.Machine.execPartset fn part regs s
  | .bindfn fn target part => Sys2Proof.Machine.execBindfn fn target part s
  | .handler fn part addr args caps => Sys2Proof.Machine.execHandler fn part addr args caps s
  | .evring fn addr len => Sys2Proof.Machine.execEvring fn addr len s
  | .resetfn fn target => Sys2Proof.Machine.execResetfn fn target s
  | .loadimg fn addr => Sys2Proof.Machine.execLoadimg fn addr s
  | .graphstart fn addr => Sys2Proof.Machine.execGraphstart fn addr s
  | .replay fn w => Sys2Proof.Machine.execReplay fn w s
  | .fltcancel fn w => Sys2Proof.Machine.execFltcancel fn w s
  | .winreg fn wid base length nranks myrank => Sys2Proof.Machine.execWinreg fn wid base length nranks myrank s
  | .rankmap fn imm v => Sys2Proof.Machine.execRankmap fn imm v s
  | .bar2base fn base => Sys2Proof.Machine.execBar2base fn base s
  | .syncsum fn cursor => Sys2Proof.Machine.execSyncsum fn cursor s
  | .doorbellWhileBusy fn => Sys2Proof.Machine.execDoorbellWhileBusy fn s
  | .mbstatDoneClear fn => Sys2Proof.Machine.execMbstatDoneClear fn s
  | .hostWrite fn off bytes => Sys2Proof.Machine.execHostWrite fn off bytes s
  | .hostRead fn off n => Sys2Proof.Machine.execHostRead fn off n s
  | .powerOnReset => Sys2Proof.Machine.execPowerOnReset s
  | .powerCap on => Sys2Proof.Machine.execPowerCap on s
  | .thermalSlowdown on => Sys2Proof.Machine.execThermalSlowdown on s
  | .thermalStop => Sys2Proof.Machine.execThermalStop s
  | .interestDropped imm => Sys2Proof.Machine.execInterestDropped imm s
  | .functionMigrationPause fn => Sys2Proof.Machine.execFunctionMigrationPause fn s
  | .functionMigrationResume fn => Sys2Proof.Machine.execFunctionMigrationResume fn s

end Sys2Proof.Machine
end

