-- ==== Sys2Proof/Machine/Issue.lean ====
section
/-! DEFINITION. The clock: which group issues next (R41, R296), what it fetches (R54), which device event goes on by itself, and what a clock
counts (R350, R361). -/
namespace Sys2Proof.Machine
open Sys2Proof

/-! ### Ready groups (R41, R296) -/

/-- The group may issue on its next selection: it stands on a core, awake, past its bubbles, and has not been tried this clock; the device leaves
clocks of its own choosing between the bytes of an access that it performs. -/
def mayIssue (b : Block) (g : Group) : Bool :=
  b.phase == .resident && !b.halted && (b.ending.isNone || b.kind == .handler) && (g.run == .issuing || g.run == .stalled) && !g.tried &&
    !g.issued && !g.stopped && g.bubbles == 0 && g.emul.all (fun e => e.gaps.headD 0 == 0)

/-- Groups of a block that may issue, with its number. -/
def readyIn (uid : Nat) (b : Block) : List (Nat × Nat × Block × Group) :=
  ((b.groups.zip (List.range b.groups.length)).filter (fun e => mayIssue b e.1)).map (fun e => (uid, e.2, b, e.1))

/-- Every group that may issue. -/
def readyAll (s : State) : List (Nat × Nat × Block × Group) := s.blocks.foldl (fun l e => l ++ readyIn e.1 e.2) []

/-- The order of R296: the handler context, then a group unserved for 12 clocks, then the oldest residency. -/
def issueKey (x : Nat × Nat × Block × Group) : List Nat :=
  [if x.2.2.1.kind = .handler then 0 else 1, if 12 ≤ x.2.2.2.waited then 0 else 1, x.2.2.2.since, x.1, x.2.1]

/-- Some group of the core has issued in this clock. -/
def issuedOn (s : State) (core : Nat) : Bool :=
  s.blocks.any (fun e => e.2.phase == .resident && blkCore e.2 == core && e.2.groups.any (fun g => g.issued))

/-- A group after a YIELD, `16 - yield` clocks ago, waits for the other ready groups of its core that have not issued since; its own pipe is
theirs in the first clock (R86). -/
def yields (s : State) (all : List (Nat × Nat × Block × Group)) (x : Nat × Nat × Block × Group) : Bool :=
  let core := blkCore x.2.2.1
  x.2.2.2.yield != 0 &&
    (all.any (fun y => y.2.2.2.yield == 0 && blkCore y.2.2.1 == core && decide (15 - x.2.2.2.yield ≤ y.2.2.2.waited)) ||
      (x.2.2.2.yield == 15 && issuedOn s core))

/-- The group that the next free pipe takes; four pipes serve a core in one clock. A group whose misaligned access the device performs byte by byte
takes no pipe. -/
def nextIssuer (s : State) : Option (Nat × Nat) :=
  if s.mgmt.stopped then none
  else
    let all := readyAll s
    let ok := all.filter (fun x => x.2.2.2.emul.isSome || (!yields s all x && decide ((coreOf s (blkCore x.2.2.1)).pipes < 4)))
    (ok.foldl (fun b x => match b with
      | none => some x
      | some y => if lexBefore (issueKey x) (issueKey y) then some x else some y) none).map (fun x => (x.1, x.2.1))

/-! ### Fetch (R54) -/

/-- What the issuing group fetches. -/
inductive Fetched
  | blockEnd
  | broken
  | instr (i : Instr)
  | reject (e : Reject)

/-- The word at the position, and the one after it. -/
def fetch (v : View) : Fetched :=
  if atBlockEnd v then .blockEnd
  else if chainBroken v then .broken
  else
    match posIdx v with
    | none => .broken
    | some i =>
      let ws := wordsOf v.st v.b v.g
      match decode (ws.getD i 0) (ws.getD (i + 1) 0) with
      | .ok x => .instr x
      | .error e => .reject e

/-- The issue slot of an instruction that waited and has taken effect since (R41, R360). -/
def takeSlot (v : View) : View :=
  { v with st := usePipe v.st (blkCore v.b)
           g := { ctrAdd v.g 0 with run := .issuing, stall := 0, tried := true, issued := true, waited := 0, yield := 0, hang := 0, owed := false } }

/-- The turn of a group: the next byte of an access that the device performs for it, a slot that is still to come, or the block ends, the chain is
broken, the word is illegal, or its instruction runs. -/
def turn (s : State) (uid gid : Nat) : Out :=
  let s := { s with cur := some (uid, gid) }
  match viewAt s uid gid with
  | none => .next s
  | some v =>
    match v.g.emul with
    | some e => .next (flush (emulStep v e))
    | none =>
      if v.g.owed then .next (flush (takeSlot v))
      else
      match fetch v with
      | .blockEnd => exec .endBlock s
      | .broken => exec .brokenChain s
      | .instr i => exec i s
      | .reject e => .next (flush (takeTrap v (faultAt v 0 0x0A 255 (BitVec.ofNat 8 (rejectStep e)) 0)))

/-! ### Events that go on by themselves -/

/-- A device event, or a step of the management controller, the firmware or the host link. -/
inductive Auto
  | ev (i : Instr)
  | cmd (f : Nat) (c : MbCmd)
  | writes (f : Nat)
  | reads (f : Nat)
  | dropped (i : Nat)
  | firm

/-- Run the command whose doorbell rang. -/
def runCmd (f : Nat) (c : MbCmd) (s : State) : Out :=
  match c with
  | .status => execStatus f s
  | .fwload img => execFwload f img s
  | .cfgwrite r => execCfgwrite f r s
  | .attest n => execAttest f n s
  | .partset p rs => execPartset f p rs s
  | .bindfn t p => execBindfn f t p s
  | .handler p a xs cs => execHandler f p a xs cs s
  | .evring a n => execEvring f a n s
  | .resetfn t => execResetfn f t s
  | .loadimg a => execLoadimg f a s
  | .graphstart a => execGraphstart f a s
  | .replay w => execReplay f w s
  | .fltcancel w => execFltcancel f w s
  | .winreg w b l n m => execWinreg f w b l n m s
  | .rankmap i v => execRankmap f i v s
  | .bar2base b => execBar2base f b s
  | .syncsum c => execSyncsum f c s
  | .unknown c => execUnknown f c s

def runAuto (a : Auto) (s : State) : Out :=
  match a with
  | .ev i => exec i s
  | .cmd f c => runCmd f c s
  | .writes f => execHostWrite f ⟨2, 0⟩ [] s
  | .reads f => execHostRead f ⟨2, 0⟩ 0 s
  | .dropped i => execInterestDropped i s
  | .firm => .next (runFirmware s)

/-- What the reading ahead of a load queue may do: begin an entry, or read the lowest element that an entry still lacks. -/
def queueEvents (uid gid k : Nat) (q : Queue) : List Auto :=
  if q.load then
    .ev (.loadQueueReadahead uid gid ⟨k, none⟩) ::
      ((q.buf.zip (List.range q.buf.length)).filterMap (fun e => (lowest e.1.left).map (fun l => .ev (.loadQueueReadahead uid gid ⟨k, some (e.2, l)⟩))))
  else []

/-- Events of one group. -/
def groupEvents (uid gid : Nat) (g : Group) : List Auto :=
  [.ev (.idleWake uid gid), .ev (.preemptStop uid gid), .ev (.hangWatchdog uid gid)] ++
    (if g.xreq.isSome then [.ev (.xchgSwap uid gid)] else []) ++
    g.q.foldl (fun l e => l ++ queueEvents uid gid e.1 e.2) []

/-- Events of one block. -/
def blockEvents (uid : Nat) (b : Block) : List Auto :=
  if b.kind = .handler then []
  else if b.phase = .complete then (if b.reported then [] else [.ev (.finalCommit uid)])
  else
    [.ev (.trapDelivery uid), .ev (.commitTakeEffect uid), .ev (.finalCommit uid), .ev (.quiesce uid), .ev (.restore uid)] ++
      (b.groups.zip (List.range b.groups.length)).foldl (fun l e => l ++ groupEvents uid e.2 e.1) []

/-- The events that an outstanding operation awaits. -/
def opEvents (id : Nat) (o : Op) : List Auto :=
  match o.body with
  | .copy c => [.ev (.copyComplete id ((copyElems c).find? (fun i => !c.moved.contains i)))]
  | .entry _ _ _ _ left => [.ev (.storeQueueWrite id (lowest left))]
  | .atomg .. => [.ev (.atomgApply id)]
  | .mma _ => [.ev (.mmaComplete ⟨id, none⟩)]
  | .spawn _ | .launch _ => []
  | .pages _ | .icinv _ | .tlbinv | .haltb _ | .ready _ => [.ev (.asyncComplete id), .ev (.savedHandleUpdate id)]
  | .enq .. => [.ev (.enqAccept id)]
  | .fetchn .. => [.ev (.fetchnDelivery ⟨id, none⟩), .ev (.fetchnLifetimeExpiry id)]
  | .publish .. => [.ev (.publishApply id)]
  | .stopref _ => [.ev (.stoprefApply id)]
  | .subn .. => [.ev (.subnRecord id)]
  | .put esz _ len _ _ _ landed => [.ev (.putLanding id ((List.range (len / esz)).find? (fun i => !landed.contains i)))]
  | .ared .. => [.ev (.collectiveComplete ⟨id, none⟩)]
  | .a2av _ _ _ _ _ _ send sent _ _ =>
    (List.range send.length).map (fun j =>
      .ev (.a2avTransferLanding id ⟨j, (List.range (send.getD j 0)).find? (fun e => !(sent.getD j []).contains e)⟩)) ++ [.ev (.collectiveComplete ⟨id, none⟩)]
  | .sortk .. => [.ev (.sortkComplete ⟨id, none⟩)]

/-- Events of a launch. -/
def launchEvents (s : State) (id : Nat) (l : Launch) : List Auto :=
  if l.done.isSome then []
  else
    (List.range l.stages.length).map (fun n => .ev (.stageRetire id n)) ++ [.ev (.affinityReassign id)] ++
      ((l.names.filterMap (fun t => (dirEntry s l.part t).map dPset)).foldl nput []).map (fun p => .ev (.settleEvent id p))

/-- Events of a graph. -/
def graphEvents (s : State) (id : Nat) (g : Graph) : List Auto :=
  if g.done.isSome then []
  else
    (match nextNode s g.part with
     | some (_, n, k) => if k = id then [.ev (.graphNodeStart id n)] else []
     | none => []) ++
    [.ev (.graphNodeComplete id 65536)] ++
    (g.nodes.filter (fun r => r.2.phase == .running)).foldl (fun l r => l ++ [.ev (.graphNodeComplete id r.1), .ev (.loopIteration id r.1)]) []

/-- Events of a partition. -/
def partEvents (part : Nat) (p : Part) : List Auto :=
  [.ev (.blockPlacement part), .ev (.idleBlockPreempt part), .ev (.lumberSpill part), .ev (.traceSample part)] ++
    p.wait.map (fun e => .ev (.pageResident part e.1)) ++ p.removals.map (fun r => .ev (.removalNotice part r.1 r.2))

/-- Events of the network. -/
def meshEvents (s : State) : List Auto :=
  (List.range s.tpkts.length).map (fun i => .ev (.tileArrival i)) ++
    (List.range s.ipkts.length).foldl (fun l i => l ++ [.ev (.interestArrival i), .dropped i]) [] ++
    s.stops.foldl (fun l st => st.2.ents.foldl (fun l e => l ++ e.ws.map (fun w => .ev (.waiterExpiry st.1 e.name w.dir))) l) []

/-- Events of a function. -/
def fnEvents (f : Nat) (x : Fn) : List Auto :=
  [.ev (.sliceEnd f)] ++ (match x.mb.cmd with
    | some c => [.cmd f c]
    | none => []) ++ (if x.writes.isEmpty then [] else [.writes f]) ++ (if x.reads.isEmpty then [] else [.reads f])

/-- Every event that may have something to do, from the state. -/
def autoEvents (s : State) : List Auto :=
  s.blocks.foldl (fun l e => l ++ blockEvents e.1 e.2) [] ++
  s.cores.foldl (fun l e => if e.2.hrun.isSome || !e.2.queue.isEmpty then l ++ [.ev (.handlerRunStart e.1)] else l) [] ++
  s.ops.foldl (fun l e => l ++ opEvents e.1 e.2) [] ++
  s.ranges.map (fun e => .ev (.rangeEntryRelease ⟨e.1, none⟩)) ++
  s.launches.foldl (fun l e => l ++ launchEvents s e.1 e.2) [] ++
  s.graphs.foldl (fun l e => l ++ graphEvents s e.1 e.2) [] ++
  s.parts.foldl (fun l e => l ++ partEvents e.1 e.2) [] ++
  s.pages.map (fun e => .ev (.eviction e.1)) ++
  meshEvents s ++
  s.fns.foldl (fun l e => l ++ fnEvents e.1 e.2) [] ++
  s.clusters.map (fun e => .ev (.traceDrain e.1)) ++
  (if s.firmware.isEmpty then [] else [.firm]) ++
  s.links.map (fun e => .ev (.linkRetrain e.1)) ++
  s.rates.map (fun e => .ev (.rateQuietExpiry (e.1 / 2048) (e.1 / 4 % 512) (e.1 % 4)))

/-- The list from a place on, and then its beginning: the place moves with the clock, so that no event waits for ever (R402). -/
def rotate {α : Type} (l : List α) (k : Nat) : List α :=
  let n := k % l.length
  l.drop n ++ l.take n

/-- Nothing has happened from `s` to `t`: an event that still waits may have looked a translation up, which leaves only the cached
translations, the requests of its walk and the counter of free values otherwise. -/
def nothingDone (s t : State) : Bool :=
  decide ({ t with free := s.free, tlb := s.tlb, flits := s.flits, nextFlit := s.nextFlit } = s)

/-- The first of the events that changes the state. -/
def firstChange (s : State) : List Auto → Option State
  | [] => none
  | a :: rest =>
    match runAuto a s with
    | .next t => if nothingDone s t then firstChange s rest else some t
    | _ => firstChange s rest

/-! ### The end of a clock (R333, R350, R361) -/

/-- The instruction at the group's position waits for a barrier object. -/
def atBarrier (v : View) : Bool :=
  match fetch v with
  | .instr (.barwt ..) => true
  | .instr (.bararr ..) => true
  | _ => false

/-- The reason under which a group that has not had its turn in this clock would be held, 0 where it would issue: what its turn would do, without
its effects. -/
def dryStall (v : View) : Nat :=
  match turn v.st v.uid v.gid with
  | .next t =>
    match viewAt t v.uid v.gid with
    | some w => if w.b.fault = v.b.fault ∧ w.g.issued = false ∧ w.g.run ≠ .ended then w.g.stall else 0
    | none => 0
  | _ => 0

/-- The reason of this clock: a group passed over by the pipes is not held by an old one (R296). -/
def freshStall (v : View) : Nat := if mayIssue v.b v.g ∧ v.g.emul.isNone then dryStall v else v.g.stall

/-- The group has trapped in this clock: its block leaves issue (log 28). -/
def trapsNow (v : View) : Bool := v.g.tried && v.b.fault.any (fun f => f.gid == v.gid)

/-- The counter of R361 that counts this clock for a group that did not issue: in the order of its table, and 15 while the device performs an access
for it (log 38) and in the clock of its trap (log 28). -/
def stallCounter (v : View) : Nat :=
  let why := freshStall v
  if v.g.run = .parked ∨ v.g.emul.isSome ∨ trapsNow v then 15
  else if v.g.stopped then 14
  else if v.g.run = .idle then (if lanesIn v.g .held ≠ 0 then 16 else 6)
  else if why = 7 ∧ dheld v.b ∧ atBarrier v then 16
  else if v.g.bubbles ≠ 0 then 10
  else if why ≠ 0 then why
  else 12

/-- Reasons under which the hang watchdog counts (R350). -/
def hangs (n : Nat) : Bool := n == 3 || n == 4 || n == 5 || n == 6 || n == 7

/-- One of the clocks that the device leaves before the next byte of an access is over. -/
def passGap (g : Group) : Group :=
  { g with stall := if g.emul.isSome then 0 else g.stall
           emul := g.emul.map (fun e => { e with gaps := (e.gaps.headD 0 - 1) :: e.gaps.tail }) }

/-- What one clock counts for a group; one that has just ended still has the clock of its last instruction or of its last Seek. -/
def countGroup (v : View) : Group :=
  let g := v.g
  if g.run = .ended then
    if g.issued then { ctrAdd g 17 with tried := false, issued := false, last := 0 }
    else if g.bubbles ≠ 0 then { ctrAdd (ctrAdd g 17) 10 with tried := false, bubbles := g.bubbles - 1, last := 10 }
    else { g with tried := false }
  else
    let g := ctrAdd g 17
    let g := if g.issued then { g with last := 0 }
      else
        let n := stallCounter v
        { ctrAdd g n with last := n, bubbles := if n = 10 then g.bubbles - 1 else g.bubbles, waited := if n = 12 then g.waited + 1 else g.waited,
                          hang := if hangs n then g.hang + 1 else g.hang }
    { passGap g with tried := false, issued := false, yield := g.yield - 1 }

/-- Groups of a block with a fault leave issue (R333). -/
def parkGroup (g : Group) : Group := if g.run = .ended then g else { g with run := .parked, xreq := none }

/-- A block at the end of a clock; the clock of a fault is that in which its groups leave issue. A block whose groups have all ended waits for its
children, not for its groups (R42). -/
def tickBlock (s : State) (uid : Nat) (b : Block) : Block :=
  if b.phase ≠ .resident then b
  else
    let gs := (b.groups.zip (List.range b.groups.length)).map (fun e => countGroup { st := s, uid := uid, gid := e.2, b := b, g := e.1 })
    let newFault := b.kind != .handler && b.fault.isSome && gs.any (fun g => g.run != .parked && g.run != .ended)
    let gs := if b.kind ≠ .handler ∧ b.fault.isSome then gs.map parkGroup else gs
    let quiet := gs.any (fun g => g.run != .ended) && gs.all (fun g => g.run == .ended || g.run == .stalled || g.run == .idle)
    { b with groups := gs, idle := if quiet then b.idle + 1 else 0, faultAt := if newFault then s.clock else b.faultAt }

/-- Every idle group with an eligible label wakes (R25). -/
def wakeIdle (s : State) : State :=
  s.blocks.foldl (fun s e => (List.range e.2.groups.length).foldl (fun s k =>
    match (e.2.groups[k]?).map (fun g => g.run) with
    | some .idle => (match execIdleWake e.1 k s with
      | .next t => t
      | _ => s)
    | _ => s) s) s

/-- What a home has moved to the overflow area is no more than what it keeps (R282). -/
def trimLumber (s : State) : State :=
  { s with lumber := s.lumber.filterMap (fun e => let n := min e.2 (lumberUsed s (e.1 / 256) (e.1 % 256)); if n = 0 then none else some (e.1, n)) }

/-- The clock goes on by one: the groups are counted, the mesh, the ports and the rate controllers have their clock, and in the new clock idle groups
wake and saves follow their handles; samples that are due show the groups as the clock just ended has left them (R367). -/
def tick (s : State) : State :=
  let s := { s with
    cur := none
    blocks := s.blocks.map (fun e => (e.1, tickBlock s e.1 e.2))
    cores := s.cores.map (fun e => (e.1, { e.2 with pipes := 0 })) }
  let s := portTick (meshTick (rateClock (trimLumber s)))
  let s := { s with clock := s.clock + 1, evDone := false }
  freshSaves (wakeIdle (s.parts.foldl (fun s e => samplePart s e.1) s))

/-- After the groups of a clock have issued, one device event goes on, and then the clock ends. -/
def goOn (s : State) : State :=
  if s.evDone then tick s
  else
    match firstChange s (rotate (autoEvents s) s.clock) with
    | some t => { t with evDone := true }
    | none => tick s

end Sys2Proof.Machine
end

