-- ==== Sys2Proof/Machine/Step.lean ====
section
/-! DEFINITION. One step of the machine: an event of the agenda, the turn of one group, one device event, or the end of a clock. -/
namespace Sys2Proof.Machine
open Sys2Proof

/-- One step. An event that the outside puts on the agenda comes first; an encoded instruction on the agenda is passed over, since an
instruction acts only for a group. Then each group that may issue has its turn, one a step; then one device event goes on; then the clock
ends. -/
def step (s : State) : Host.Outcome State Fault Refusal :=
  match s.agenda with
  | i :: rest => if i.hdr?.isSome then .next { s with agenda := rest } else exec i { s with agenda := rest }
  | [] =>
    match nextIssuer s with
    | some (u, k) => turn s u k
    | none => .next (goOn s)

/-! ### Placing one instruction where the next step fetches -/

/-- A marker word of kind 0 (R56). -/
def fetchMarker (l d : Nat) : W64 := BitVec.ofNat 64 (0x0400000000000000 + l * 2 ^ 32 + d * 2 ^ 16)

/-- The image of one instruction word, its mask word and the region end. -/
def fetchWords (w nx : W64) : List W64 := [fetchMarker 0 3, w, nx, 0x0403FFFF00000000]

/-- A group that stands at the word after marker 0 with all its lanes running. -/
def fetchGroup : Group :=
  { newGroup 1 0 [] [] 0 0 with active := allLanes, label := 0, offset := 1 }

/-- Its block: one group of 256 rows on core 0. -/
def fetchBlock (img : Nat) : Block :=
  { newBlock .launched 0 0 0 0 0 0 1 0 0 img 0 { groups := 1, rows := 256, scratch := 64, barriers := 16, carry := 0 } 0 [] [] with
    phase := .resident, place := some { core := 0, seat := 0, row := 0, scr := 0, bar := [] }, first := some 0, groups := [fetchGroup] }

/-- `s` with the instruction loaded as an image, and one group on core 0 about to fetch it (log 14). The other blocks and the agenda are
dropped, so that this group is the next to issue. -/
def State.withFetchWord (s : State) (nbits w : Nat) : State :=
  let v := w % 2 ^ nbits
  let im : Image := { part := 0, addr := 0, codeoff := 0, labels := 1, rows := 256,
                      head := [], versions := [fetchWords (BitVec.ofNat 64 v) (BitVec.ofNat 64 (v / 2 ^ 64))], status := 0 }
  { s with agenda := [], cur := none, images := tput s.images 1 im, blocks := [(1, fetchBlock 1)],
           cores := tput s.cores 0 { coreOf s 0 with pipes := 0 }, mgmt := { s.mgmt with stopped := false } }

end Sys2Proof.Machine
end

