-- ==== Sys2Proof/Safety.lean ====
section
/-! DEFINITION. The terms that claims use: when the current group's instruction gets past steps 4 to 7 of R54, what completes, the memory
invariant, and when a run is safe. -/
namespace Sys2Proof.Machine
open Sys2Proof

/-! ### Getting past the checks of R54 -/

/-- The current group stands at `v`, the predicate of the header is not void, and EXEC is not empty (R54 steps 4 and 5). -/
structure Issues (h : Hdr) (s : State) (v : View) : Prop where
  cur  : currentView s = some v
  pred : h.psel = 0 ∨ thas v.g.p h.psel.toNat = true
  exec : execOf h v.g ≠ 0

/-- No operand names a register outside the block's rows or a queue against its direction (step 6), is void (step 7), or waits for an
outstanding operation, for an entry of a queue or for room in one; and no s-register among them holds the old value of an ATOMG that acquires
when it is read (R186). -/
structure OperandsReady (ops : List Opd) (v : View) : Prop where
  regs   : step6 v [] ops = none
  handle : ops.any (waitsHandle v) = false
  matrix : ops.any (waitsMatrix v) = false
  void   : ops.any (voidSource v) = false
  queue  : queueHold v [] ops = none
  acq    : v.g.acq.any (fun k => ops.any (namesS (k / 64))) = false

/-- The instruction under header `h` at `v` completes, leaving the view `w` and raising the flags `fl`. -/
def completed (h : Hdr) (w : View) (fl : BitVec 6) : Out := .next (flush (settle h w fl))

/-- The instruction at `v` traps without effect. -/
def trapped (v : View) (cls code lane : Nat) (detail : BitVec 8) (data : W64) : Out :=
  .next (flush (takeTrap v (faultAt v cls code lane detail data)))

/-- A body's result as the checks pass it on: a hold keeps the view of before the queues were popped. -/
def passOn (v : View) (x : View × List Row) (r : Res) : Res :=
  match r with
  | .hold w c => .hold (if x.2.isEmpty then w else v) c
  | r => r

/-! ### Operations -/

/-- From `u` to `w` an operation with `body` has started for handle `d` (R31): it is outstanding under the current word, the handle is
PENDING on it, and no other register, no part of the block and no memory has changed. -/
structure Starts (u w : View) (d : HReg) (body : OpBody) : Prop where
  handle : tget w.g.h d.toNat = some (.pending u.st.nextOp)
  op     : ∃ o, tget w.st.ops u.st.nextOp = some o ∧ o.body = body ∧ o.blk = u.uid ∧ o.gid = u.gid ∧ o.label = u.g.label ∧ o.offset = u.g.offset
  regs   : w.g.v = u.g.v ∧ w.g.s = u.g.s ∧ w.g.p = u.g.p ∧ w.g.c = u.g.c ∧ w.g.q = u.g.q ∧ ∀ x, x ≠ d.toNat → tget w.g.h x = tget u.g.h x
  memory : w.b = u.b ∧ w.st.blocks = u.st.blocks ∧ w.st.pages = u.st.pages ∧ w.st.cellar = u.st.cellar

/-- From `s` to `t` operation `id` has finished with status `st`: it is no longer outstanding, and every handle register of its group that
was PENDING on it is COMPLETE with that status (R31). -/
structure Finishes (s t : State) (id : Nat) (st : W16) : Prop where
  gone    : tget t.ops id = none
  handles : ∀ o b g n, tget s.ops id = some o → tget s.blocks o.blk = some b → b.groups[o.gid]? = some g → tget g.h n = some (.pending id) →
    ∃ b' g' bm pg, tget t.blocks o.blk = some b' ∧ b'.groups[o.gid]? = some g' ∧ tget g'.h n = some (.complete st bm pg)

/-- A wait of one group: the views of a state hold the group's registers, and only its run status and stall reason have changed (R25). -/
def heldBack (h : Hdr) (v : View) (why : Nat) : Out := .next (flush (stallView h v why))

/-! ### Values -/

/-- `x` holds the number `y` reduced to the width of `t` and extended under `t` to 64 bits (Fit of R103). -/
def HoldsFit (t : Ty) (y : Int) (x : W64) : Prop :=
  (val t x - y) % 2 ^ tyWidth t = 0 ∧ (if tySigned t then x.toInt else (x.toNat : Int)) = val t x

/-- The registers of two groups are the same, queues and handles among them. -/
def SameRegisters (g k : Group) : Prop := g.v = k.v ∧ g.s = k.s ∧ g.p = k.p ∧ g.c = k.c ∧ g.h = k.h ∧ g.q = k.q

/-! ### Memory -/

/-- The cellar and every page in the attic are in canonical form: addresses strictly rising, no entry of value 0. -/
def MemoryCanonical (s : State) : Prop := Memory.wf s.cellar = true ∧ ∀ e ∈ s.pages, Memory.wf e.2.data = true

/-- A run is safe when no step of it ends in a fault or in a refusal. -/
def SafeRun (s : State) (n : Nat) : Prop := ∃ t, Sys2Proof.core.run n s = .next t

end Sys2Proof.Machine
end

