-- ==== Sys2Proof/Certificates/Slice0/Obligations.lean ====
section
/-! DEFINITION. The statements for the provers. -/
open Sys2Proof Sys2Proof.Machine

/-- When the agenda is empty and group k of block u is next to issue, the device performs no misaligned access for it (R158), it owes no turn
of an instruction that has taken effect while it waited (R41), and the word at its position, which is neither the end of its block nor a
broken chain, decodes (with the word after it) to an instruction, step is exec of that instruction at the state in which that group is the
current one, and nothing is added around it: the instruction's own meaning moves the position past its words (statement
CompletingMovesPastTheWord). (R54, R60) -/
def Obligations.StepRunsDecodedInstruction : Prop :=
  ∀ (s : State) (u k n : Nat) (v : View) (i : Instr),
    s.agenda = [] → nextIssuer s = some (u, k) → viewAt { s with cur := some (u, k) } u k = some v → v.g.emul = none → v.g.owed = false →
    atBlockEnd v = false → chainBroken v = false → posIdx v = some n →
    decode ((wordsOf v.st v.b v.g).getD n 0) ((wordsOf v.st v.b v.g).getD (n + 1) 0) = .ok i →
    step s = exec i { s with cur := some (u, k) }

/-- When the word at the position of the group that is next to issue, for which the device performs no misaligned access and which owes no
turn, fails step 1, 2 or 3 of R54, the step answers the state in which that group has taken a trap of class 0 and code 0x0A at its own
position with the step number as detail; when its block is not the handler context, nothing but the fault record of the block and the
group's turn differs from the state before: no register, no memory and no position. (R54, R55, R331) -/
def Obligations.IllegalWordTrapsWithoutEffect : Prop :=
  ∀ (s : State) (u k n : Nat) (v : View) (e : Reject),
    s.agenda = [] → nextIssuer s = some (u, k) → viewAt { s with cur := some (u, k) } u k = some v → v.g.emul = none → v.g.owed = false →
    atBlockEnd v = false → chainBroken v = false → posIdx v = some n →
    decode ((wordsOf v.st v.b v.g).getD n 0) ((wordsOf v.st v.b v.g).getD (n + 1) 0) = .error e →
    let f := faultAt v 0 0x0A 255 (BitVec.ofNat 8 (rejectStep e)) 0
    step s = .next (flush (takeTrap v f)) ∧
      (isHandler v = false → takeTrap v f = { v with b := markFault v.b f, g := { v.g with tried := true } })

/-- Six words, each packed by hand from the fields that the tables give (major, S, psel, neg, mod, minor and the format's fields), decode to
the instruction that the tables name: SADD.n64 s5, s6, s7; VCMP.s32 p2, v4, v5, lt; EXIT; WANT 3 under (!p2); LDS.n32 v8, [c2, v9, 16];
ERET mode 2. (R45, R46, R48, R63) -/
def Obligations.DecodedWordsOfTheManual : Prop :=
  decode 0x2007000506070000 0 = .ok (.sadd ⟨false, 0, false, 0⟩ .n64 5 6 7) ∧
  decode 0x4802000204050002 0 = .ok (.vcmp ⟨false, 0, false, 0⟩ .s32 2 4 5 .lt) ∧
  decode 0x0800050000000000 0 = .ok (.exit ⟨false, 0, false, 0⟩) ∧
  decode 0x08A0010000000003 0 = .ok (.want ⟨false, 2, true, 0⟩ 3) ∧
  decode 0xA002000820900010 0 = .ok (.lds ⟨false, 0, false, 0⟩ .w32 8 2 (.v 9) 16) ∧
  decode 0xFC00060000000002 0 = .ok (.eret ⟨false, 0, false, 0⟩ .refire)

/-- For every well-formed instruction, with every operand at every value its encoding admits, the bytes of its words (its mask word among them
when S is set), followed by any bytes, decode to that instruction and leave exactly those bytes. (R44, R45, R60, R63, 02_encoding.md) -/
def Obligations.EncodedInstructionsDecodeBack : Prop :=
  ∀ (i : Instr) (rest : List W8), WellFormed i = true →
    ∃ ws, encode i = ws ∧ decodeBytes (ws.flatMap bytesOfWord ++ rest) = .ok (i, rest)

/-- Every word that decodes to an instruction (with the word after it where S is set) is the word that the encoder writes for that
instruction, so that no bit of an accepted word is dropped and no two words name one instruction. The one exception is RDCTR of the group
itself, whose seat field the manual says is ignored. (R53, R54, R63, R361) -/
def Obligations.AcceptedWordsCarryNoOtherBit : Prop :=
  ∀ (w nx : W64) (i : Instr), decode w nx = .ok i → (∀ h d n, i ≠ .rdctr h d n none) →
    encode i = if wSafe w then [w, nx] else [w]

/-- Whatever two words are decoded, an accepted instruction passes every check of step 3 of R54 and has a header, so that no device event is
reached through a word, and the header says S exactly when bit 57 of the word is set, with the following word as mask, whose bits 63 to 56
are zero. (R45, R54, R60) -/
def Obligations.DecodedInstructionsAreWellFormed : Prop :=
  ∀ (w nx : W64) (i : Instr), decode w nx = .ok i →
    WellFormed i = true ∧ ∃ h, i.hdr? = some h ∧ h.safe = wSafe w ∧ h.mask = (if wSafe w then nx else 0) ∧ h.mask >>> 56 = 0

/-- If in a state the cellar and every page of the attic list their bytes at strictly rising addresses with no entry of value 0 (the value
that an unlisted byte reads as), then they do so after any step that answers a next state. The invariant is the one that
ResetMemoryIsCanonical states of the state after reset. (R264, R272, 12_memories_and_scheduling.md) -/
def Obligations.MemoryStaysCanonical : Prop :=
  ∀ s t : State, MemoryCanonical s → step s = .next t → MemoryCanonical t

/-- The cellar and the attic of State.reset are in canonical form; they list nothing. (R264, R384) -/
def Obligations.ResetMemoryIsCanonical : Prop :=
  MemoryCanonical State.reset

/-- For every encoded instruction and every state with a current group: when the header names a predicate register other than p0 that is void,
the group takes a trap of class 0 and code 1 with detail 4 and the instruction has no effect. Only ERET in the handler context, whose
fault ends the run (R337), is apart. For every encoded instruction and every state with a current group whose predicate is not void: when
EXEC is empty, the instruction only completes: no register, no memory and no flag changes, the position moves past the word and its mask
word, and an S bit still marks a safe point. For TLBINV, PRD, PWR, ERET, HALTB, and GETS and SETS of a register number from 0x100 on: in a
block that is not the handler context, with the predicate not void and EXEC not empty, the group takes a trap of class 0 and code 0x0B
with detail 5 and the instruction has no effect. (R24, R54, R55, R331, R34, R64) -/
def Obligations.PredicateAndPrivilegeChecks : Prop :=
  (∀ (i : Instr) (h : Hdr) (s : State) (v : View), i.hdr? = some h → currentView s = some v →
    ((∃ k m, i = .eret k m) → isHandler v = false) → h.psel ≠ 0 → thas v.g.p h.psel.toNat = false → exec i s = trapped v 0 1 255 4 0) ∧
  (∀ (i : Instr) (h : Hdr) (s : State) (v : View), i.hdr? = some h → currentView s = some v →
    (h.psel = 0 ∨ thas v.g.p h.psel.toNat = true) → execOf h v.g = 0 → exec i s = completed h v 0) ∧
  (∀ (h : Hdr) (s : State) (v : View), Issues h s v → isHandler v = false →
    (∀ sc d a, exec (.tlbinv h sc d a) s = trapped v 0 0x0B 255 5 0) ∧
    (∀ d a k, exec (.prd h d a k) s = trapped v 0 0x0B 255 5 0) ∧
    (∀ d a k, exec (.pwr h d a k) s = trapped v 0 0x0B 255 5 0) ∧
    (∀ m, exec (.eret h m) s = trapped v 0 0x0B 255 5 0) ∧
    (∀ d k, exec (.haltb h d k) s = trapped v 0 0x0B 255 5 0) ∧
    (∀ d (n : BitVec 10), 0x100 ≤ n.toNat → exec (.gets h d n) s = trapped v 0 0x0B 255 5 0) ∧
    (∀ (n : BitVec 10) a, 0x100 ≤ n.toNat → exec (.sets h n a) s = trapped v 0 0x0B 255 5 0))

/-- When an instruction completes with flags fl, the group still has an active lane and no enabled flag is raised: its position moves by one
word, or by two when S is set; fl is ORed into its flags; counter 0 counts the instruction and no other counter changes; it stands at a
safe point with its mask exactly when S is set; and its registers, lanes, frames and modes, its block, and every part of the machine but
the issue count of the core are unchanged. (R35, R60, R360, R361) -/
def Obligations.CompletingMovesPastTheWord : Prop :=
  ∀ (h : Hdr) (v : View) (fl : BitVec 6), v.g.active ≠ 0 → trapFlag (fl &&& v.g.ftrap) = none → v.g.ctrs.length = 20 →
    let w := settle h v fl
    w.g.offset = v.g.offset + (if h.safe then 2 else 1) ∧ w.g.label = v.g.label ∧ w.g.fflags = v.g.fflags ||| fl ∧
    ctrOf w.g 0 = ctrOf v.g 0 + 1 ∧ (∀ n, n ≠ 0 → ctrOf w.g n = ctrOf v.g n) ∧
    w.g.safe = (if h.safe then some h.mask else none) ∧
    SameRegisters w.g v.g ∧ w.g.lanes = v.g.lanes ∧ w.g.active = v.g.active ∧ w.g.frames = v.g.frames ∧
    w.g.frm = v.g.frm ∧ w.g.ftrap = v.g.ftrap ∧ w.g.sround = v.g.sround ∧
    w.b = v.b ∧ w.st = { v.st with cores := w.st.cores }

/-- When a completing instruction raises flags of which some are enabled in %ftrap, the instruction has completed as without the trap, and
then one trap of class 2 is taken whose code is the lowest-numbered enabled flag among those raised, at the position of that instruction;
in a block that is not the handler context and holds no fault yet, that is the block's fault record. (R35, R132, R331, R336) -/
def Obligations.EnabledFlagTrapsAfterTheInstruction : Prop :=
  ∀ (h : Hdr) (v : View) (fl : BitVec 6) (n : Nat), n < 6 → (fl &&& v.g.ftrap).getLsbD n = true →
    (∀ m < n, (fl &&& v.g.ftrap).getLsbD m = false) →
    let done := endIfEmpty (retire h v fl)
    let f := faultAt v 2 n 255 0 0
    settle h v fl = trapAfter done f ∧
      (isHandler done = false → done.b.fault = none → done.b.ending = none →
        settle h v fl = { done with b := { done.b with fault := some f } })

/-- SADD, SSUB, SMUL, SMULH, SAND, SOR, SXOR, SSHL, SSHR, SSRA, SMIN and SMAX under each integer type, once past the checks of R54, complete
and write s(D) with the number of the table of R107 (computed on unbounded integers), reduced modulo 2^W and extended under the type; the
shift amount is bits 7 to 0 of s(B). No flag is raised. SADDI, SANDI, SORI, SXORI, SSHLI, SSHRI (both forms) and SMOVI of mode 0 under
each integer type, once past the checks of R54, complete and write s(D) with the number of the table of R109 reduced modulo 2^W and
extended; immediates are sign-extended from their top bit. SMOVI of modes 1 to 4 replaces bits 16k+15 to 16k of s(D) and keeps its other
bits. SMOV copies all 64 bits. (R103, R104, R107, 04_integer_and_lanes.md, R109, R110, R111) -/
def Obligations.ScalarArithmeticResults : Prop :=
  (∀ (h : Hdr) (t : Ty) (d a b : SReg) (s : State) (v : View),
    tyInt t = true → Issues h s v → OperandsReady [ssrc a, ssrc b, sdst d] v →
    let x := readS v.g a
    let y := readS v.g b
    let w := tyWidth t
    let n := y.toNat % 256
    ∀ p ∈ ([(.sadd h t d a b, val t x + val t y), (.ssub h t d a b, val t x - val t y), (.smul h t d a b, val t x * val t y),
            (.smulh h t d a b, val t x * val t y / 2 ^ w), (.sand h t d a b, ((x &&& y).toNat : Int)),
            (.sor h t d a b, ((x ||| y).toNat : Int)), (.sxor h t d a b, ((x ^^^ y).toNat : Int)),
            (.sshl h t d a b, if w ≤ n then 0 else uns t x * 2 ^ n), (.sshr h t d a b, if w ≤ n then 0 else uns t x / 2 ^ n),
            (.ssra h t d a b, sgn t x / 2 ^ min n (w - 1)), (.smin h t d a b, min (val t x) (val t y)),
            (.smax h t d a b, max (val t x) (val t y))] : List (Instr × Int)),
      ∃ r, HoldsFit t p.2 r ∧ exec p.1 s = completed h { v with g := writeS v.g d r } 0) ∧
  (∀ (h : Hdr) (t : Ty) (d a : SReg) (i : BitVec 24) (n : BitVec 6) (s : State) (v : View), tyInt t = true → Issues h s v →
    let x := readS v.g a
    let y : W64 := i.signExtend 64
    let w := tyWidth t
    (OperandsReady [ssrc a, sdst d] v →
      (∀ p ∈ ([(.saddi h t d a i, val t x + val t y), (.sandi h t d a i, ((x &&& y).toNat : Int)),
              (.sori h t d a i, ((x ||| y).toNat : Int)), (.sxori h t d a i, ((x ^^^ y).toNat : Int)),
              (.sshli h t d a n, if w ≤ n.toNat then 0 else uns t x * 2 ^ n.toNat),
              (.sshri h t d a n false, if w ≤ n.toNat then 0 else uns t x / 2 ^ n.toNat),
              (.sshri h t d a n true, sgn t x / 2 ^ min n.toNat (w - 1))] : List (Instr × Int)),
        ∃ r, HoldsFit t p.2 r ∧ exec p.1 s = completed h { v with g := writeS v.g d r } 0) ∧
      exec (.smov h d a) s = completed h { v with g := writeS v.g d x } 0) ∧
    (OperandsReady [sdst d] v →
      ∃ r, HoldsFit t (val t y) r ∧ exec (.smovi h t d none i) s = completed h { v with g := writeS v.g d r } 0) ∧
    (∀ k : BitVec 2, OperandsReady [.s d.toNat 1 true true] v →
      ∃ r, exec (.smovi h .n64 d (some k) i) s = completed h { v with g := writeS v.g d r } 0 ∧
        ∀ j < 64, r.getLsbD j = if 16 * k.toNat ≤ j ∧ j < 16 * k.toNat + 16 then i.getLsbD (j - 16 * k.toNat)
          else (readS v.g d).getLsbD j))

/-- SSEL writes Fit(a) when all 64 bits of s(C) are not zero and else Fit(b); SCMP and SCMPI write 1 when the condition holds between the two
values read under the type and else 0, for each of the six conditions; no flag is raised. (R103, R107, R108, R109) -/
def Obligations.ScalarSelectAndCompareResults : Prop :=
  ∀ (h : Hdr) (t : Ty) (d a b c : SReg) (k : BitVec 20) (s : State) (v : View), tyInt t = true → Issues h s v →
    let x := readS v.g a
    let y := readS v.g b
    let z : W64 := k.signExtend 64
    (OperandsReady [ssrc a, ssrc b, ssrc c, sdst d] v →
      ∃ r, HoldsFit t (if readS v.g c = 0 then val t y else val t x) r ∧
        exec (.ssel h t d a b c) s = completed h { v with g := writeS v.g d r } 0) ∧
    (∀ p ∈ ([(.eq, val t x = val t y, val t x = val t z), (.ne, val t x ≠ val t y, val t x ≠ val t z),
             (.lt, val t x < val t y, val t x < val t z), (.le, val t x ≤ val t y, val t x ≤ val t z),
             (.gt, val t x > val t y, val t x > val t z), (.ge, val t x ≥ val t y, val t x ≥ val t z)] : List (Cond × Prop × Prop)),
      (OperandsReady [ssrc a, ssrc b, sdst d] v →
        ∃ r, exec (.scmp h t d a b p.1) s = completed h { v with g := writeS v.g d r } 0 ∧ (p.2.1 → r = 1) ∧ (¬ p.2.1 → r = 0)) ∧
      (OperandsReady [ssrc a, sdst d] v →
        ∃ r, exec (.scmpi h t d a p.1 k) s = completed h { v with g := writeS v.g d r } 0 ∧ (p.2.2 → r = 1) ∧ (¬ p.2.2 → r = 0)))

/-- VADD, VSUB, VMUL, VMULH, VAND, VOR, VXOR, VSHL, VSHR, VSRA, VMIN and VMAX under each integer type, once past the checks of R54, complete
and give each lane of EXEC the number that the scalar instruction of the same name computes from that lane's elements, reduced modulo 2^W
and extended; queue operands are popped in order before the destination is written. No flag is raised. The twelve operations of
VectorArithmeticResults in their forms with an immediate (sign-extended from 23 bits) or a broadcast s-register, once past the checks of
R54, complete and give each lane of EXEC the number computed from its element and the broadcast value, reduced and extended as there. No
flag is raised. (R103, R104, R105, R113, R49, R106, R115) -/
def Obligations.VectorArithmeticResults : Prop :=
  (∀ (h : Hdr) (t : Ty) (d a b : VReg) (s : State) (v : View),
    tyInt t = true → Issues h s v → OperandsReady [vsrc t a, vsrc t b, vdst t d] v →
    let ex := execOf h v.g
    let q := readRows ex [vsrc t a, vsrc t b, vdst t d] v
    let x := elem t q.2 0
    let y := elem t q.2 1
    let w := tyWidth t
    let n := fun l => (y l).toNat % 256
    ∀ p ∈ ([(.vadd h t d a b, fun l => val t (x l) + val t (y l)), (.vsub h t d a b, fun l => val t (x l) - val t (y l)),
            (.vmul h t d a b, fun l => val t (x l) * val t (y l)), (.vmulh h t d a b, fun l => val t (x l) * val t (y l) / 2 ^ w),
            (.vand h t d a b, fun l => ((x l &&& y l).toNat : Int)), (.vor h t d a b, fun l => ((x l ||| y l).toNat : Int)),
            (.vxor h t d a b, fun l => ((x l ^^^ y l).toNat : Int)),
            (.vshl h t d a b, fun l => if w ≤ n l then 0 else uns t (x l) * 2 ^ n l),
            (.vshr h t d a b, fun l => if w ≤ n l then 0 else uns t (x l) / 2 ^ n l),
            (.vsra h t d a b, fun l => sgn t (x l) / 2 ^ min (n l) (w - 1)),
            (.vmin h t d a b, fun l => min (val t (x l)) (val t (y l))),
            (.vmax h t d a b, fun l => max (val t (x l)) (val t (y l)))] : List (Instr × (Nat → Int))),
      ∃ f : Nat → W64, (∀ l < 64, ex.getLsbD l = true → HoldsFit t (p.2 l) (f l)) ∧
        exec p.1 s = completed h (writeElems q.1 t d ex f) 0) ∧
  (∀ (h : Hdr) (t : Ty) (d a : VReg) (b : VImm) (s : State) (v : View),
    tyInt t = true → Issues h s v → OperandsReady ([vsrc t a] ++ vimmOps b ++ [vdst t d]) v →
    let ex := execOf h v.g
    let q := readRows ex ([vsrc t a] ++ vimmOps b ++ [vdst t d]) v
    let x := elem t q.2 0
    let y : W64 := match b with
      | .imm i => i.signExtend 64
      | .s r => readS v.g r
    let w := tyWidth t
    let n := y.toNat % 256
    ∀ p ∈ ([(.vaddX h t d a b, fun l => val t (x l) + val t y), (.vsubX h t d a b, fun l => val t (x l) - val t y),
            (.vmulX h t d a b, fun l => val t (x l) * val t y), (.vmulhX h t d a b, fun l => val t (x l) * val t y / 2 ^ w),
            (.vandX h t d a b, fun l => ((x l &&& y).toNat : Int)), (.vorX h t d a b, fun l => ((x l ||| y).toNat : Int)),
            (.vxorX h t d a b, fun l => ((x l ^^^ y).toNat : Int)),
            (.vshlX h t d a b, fun l => if w ≤ n then 0 else uns t (x l) * 2 ^ n),
            (.vshrX h t d a b, fun l => if w ≤ n then 0 else uns t (x l) / 2 ^ n),
            (.vsraX h t d a b, fun l => sgn t (x l) / 2 ^ min n (w - 1)),
            (.vminX h t d a b, fun l => min (val t (x l)) (val t y)),
            (.vmaxX h t d a b, fun l => max (val t (x l)) (val t y))] : List (Instr × (Nat → Int))),
      ∃ f : Nat → W64, (∀ l < 64, ex.getLsbD l = true → HoldsFit t (p.2 l) (f l)) ∧
        exec p.1 s = completed h (writeElems q.1 t d ex f) 0)

/-- VADDS and VSUBS, with two vector sources or with a broadcast second operand, give each lane of EXEC the exact sum or difference clamped to
the least and greatest values of the type, and raise SA exactly when some lane of EXEC was clamped; no other flag is raised. When SA is
enabled in %ftrap, the results and the flag are written first, and then the arithmetic trap, class 2 code 5, is taken. (R114) -/
def Obligations.SaturatingVectorResults : Prop :=
  ∀ (h : Hdr) (t : Ty) (d a b : VReg) (c : VImm) (s : State) (v : View), tyInt t = true → Issues h s v →
    let ex := execOf h v.g
    let w := tyWidth t
    let least : Int := if tySigned t then -2 ^ (w - 1) else 0
    let most : Int := if tySigned t then 2 ^ (w - 1) - 1 else 2 ^ w - 1
    let Result := fun (i : Instr) (u : View) (z : Nat → Int) =>
      ∃ (f : Nat → W64) (fl : BitVec 6),
        (∀ l < 64, ex.getLsbD l = true → HoldsFit t (if z l < least then least else if most < z l then most else z l) (f l)) ∧
        (fl = 0 ∨ fl = fSA) ∧ (fl = fSA ↔ ∃ l < 64, ex.getLsbD l = true ∧ (z l < least ∨ most < z l)) ∧
        exec i s = completed h (writeElems u t d ex f) fl ∧
        (fl = fSA → v.g.ftrap.getLsbD 5 = true → ∃ w, w = endIfEmpty (retire h (writeElems u t d ex f) fSA) ∧ w.g.fflags.getLsbD 5 = true ∧
          exec i s = .next (flush (trapAfter w (faultAt (writeElems u t d ex f) 2 5 255 0 0))))
    (OperandsReady [vsrc t a, vsrc t b, vdst t d] v →
      let q := readRows ex [vsrc t a, vsrc t b, vdst t d] v
      Result (.vadds h t d a b) q.1 (fun l => val t (elem t q.2 0 l) + val t (elem t q.2 1 l)) ∧
      Result (.vsubs h t d a b) q.1 (fun l => val t (elem t q.2 0 l) - val t (elem t q.2 1 l))) ∧
    (OperandsReady ([vsrc t a] ++ vimmOps c ++ [vdst t d]) v →
      let q := readRows ex ([vsrc t a] ++ vimmOps c ++ [vdst t d]) v
      let y := vimmVal v.g c
      Result (.vaddsX h t d a c) q.1 (fun l => val t (elem t q.2 0 l) + val t y) ∧
      Result (.vsubsX h t d a c) q.1 (fun l => val t (elem t q.2 0 l) - val t y))

/-- Each lane of EXEC gets: for VMAD the product of the first two elements plus the third; for VNOT the complement; for VABS the magnitude;
for VCLZ the number n of zero bits above the highest one bit of the element (W when it is zero); for VPOPC the number of one bits; each
reduced modulo 2^W and extended. No flag is raised. (R103, R105, R113) -/
def Obligations.VectorUnaryResults : Prop :=
  ∀ (h : Hdr) (t : Ty) (d a b c : VReg) (s : State) (v : View), tyInt t = true → Issues h s v →
    let ex := execOf h v.g
    let w := tyWidth t
    (OperandsReady [vsrc t a, vsrc t b, vsrc t c, vdst t d] v →
      let q := readRows ex [vsrc t a, vsrc t b, vsrc t c, vdst t d] v
      ∃ f : Nat → W64, (∀ l < 64, ex.getLsbD l = true →
          HoldsFit t (val t (elem t q.2 0 l) * val t (elem t q.2 1 l) + val t (elem t q.2 2 l)) (f l)) ∧
        exec (.vmad h t d a b c) s = completed h (writeElems q.1 t d ex f) 0) ∧
    (OperandsReady [vsrc t a, vdst t d] v →
      let q := readRows ex [vsrc t a, vdst t d] v
      let x := elem t q.2 0
      (∀ p ∈ ([(.vnot h t d a, fun l => ((~~~(x l)).toNat : Int)), (.vabs h t d a, fun l => |val t (x l)|),
               (.vpopc h t d a, fun l => (((List.range w).filter (fun k => (x l).getLsbD k)).length : Int))] : List (Instr × (Nat → Int))),
        ∃ f : Nat → W64, (∀ l < 64, ex.getLsbD l = true → HoldsFit t (p.2 l) (f l)) ∧
          exec p.1 s = completed h (writeElems q.1 t d ex f) 0) ∧
      ∃ (f : Nat → W64) (n : Nat → Nat),
        (∀ l < 64, ex.getLsbD l = true → HoldsFit t (n l) (f l) ∧ n l ≤ w ∧ (∀ k < n l, (x l).getLsbD (w - 1 - k) = false) ∧
          (n l < w → (x l).getLsbD (w - 1 - n l) = true)) ∧
        exec (.vclz h t d a) s = completed h (writeElems q.1 t d ex f) 0)

/-- VSEL gives each lane of EXEC the element of its first source where the predicate is true and else of its second; VMOV copies the elements
of its vector source, or the broadcast s-register; VCMP writes, in the lanes of EXEC, whether the condition holds between the two elements
read under the type, and leaves the predicate's other lanes (p0 discards the write). No flag is raised. (R28, R29, R106, R108, R116) -/
def Obligations.VectorSelectAndMoveResults : Prop :=
  ∀ (h : Hdr) (t : Ty) (d a b : VReg) (c e : PReg) (r : SReg) (s : State) (v : View), Issues h s v →
    let ex := execOf h v.g
    (OperandsReady [vsrc t a, vsrc t b, .p c, vdst t d] v →
      let q := readRows ex [vsrc t a, vsrc t b, .p c, vdst t d] v
      exec (.vsel h t d a b c) s = completed h (writeElems q.1 t d ex
        (fun l => if (readP v.g c).getLsbD l then elem t q.2 0 l else elem t q.2 1 l)) 0) ∧
    (OperandsReady [vsrc t a, vdst t d] v →
      let q := readRows ex [vsrc t a, vdst t d] v
      exec (.vmov h t d (.v a)) s = completed h (writeElems q.1 t d ex (elem t q.2 0)) 0) ∧
    (OperandsReady [ssrc r, vdst t d] v →
      exec (.vmov h t d (.s r)) s = completed h (writeElems v t d ex (fun _ => readS v.g r)) 0) ∧
    (OperandsReady [vsrc t a, vsrc t b] v →
      let q := readRows ex [vsrc t a, vsrc t b] v
      let x := fun l => val t (elem t q.2 0 l)
      let y := fun l => val t (elem t q.2 1 l)
      ∀ k ∈ ([(.eq, fun l => x l = y l), (.ne, fun l => x l ≠ y l), (.lt, fun l => x l < y l), (.le, fun l => x l ≤ y l),
              (.gt, fun l => x l > y l), (.ge, fun l => x l ≥ y l)] : List (Cond × (Nat → Prop))),
        ∃ g : Group, exec (.vcmp h t e a b k.1) s = completed h { q.1 with g := g } 0 ∧ g = { q.1.g with p := g.p } ∧
          (∀ x, x ≠ e → readP g x = readP q.1.g x) ∧ (e = 0 → g = q.1.g) ∧
          (e ≠ 0 → ∀ l < 64, ((ex.getLsbD l = true → ((readP g e).getLsbD l = true ↔ k.2 l)) ∧
            (ex.getLsbD l = false → (readP g e).getLsbD l = (tgetD q.1.g.p e.toNat 0).getLsbD l))))

/-- Writing elements to a register of a type of at most 32 bits that is no armed queue name gives each lane of the mask the low 32 bits of its
element, keeps the other lanes (0 where the register was void), and changes no other register and nothing else; a 64-bit type writes the
even register with the low word and the next one with the high word; writing to an armed queue name changes no register: it pushes one
entry, whose lanes of the mask within the stream will be written to memory. (R28, R29, R104, R105, R178) -/
def Obligations.WritingAVectorDestination : Prop :=
  ∀ (v : View) (t : Ty) (d : VReg) (m : Lanes) (f : Nat → W64),
    let w := writeElems v t d m f
    let new := fun (r : Nat) (x : Nat → W32) (l : Nat) => if m.getLsbD l then x l else rget (readV v.g r) l
    (armed v.g d.toNat = none → tyBig t = false →
      w = { v with g := { v.g with v := w.g.v } } ∧ (∀ r, r ≠ d.toNat → tget w.g.v r = tget v.g.v r) ∧
      ∀ l < 64, rget (readV w.g d.toNat) l = new d.toNat (fun l => (f l).setWidth 32) l) ∧
    (armed v.g d.toNat = none → armed v.g (d.toNat + 1) = none → tyBig t = true →
      w = { v with g := { v.g with v := w.g.v } } ∧ (∀ r, r ≠ d.toNat → r ≠ d.toNat + 1 → tget w.g.v r = tget v.g.v r) ∧
      ∀ l < 64, rget (readV w.g d.toNat) l = new d.toNat (fun l => (f l).setWidth 32) l ∧
        rget (readV w.g (d.toNat + 1)) l = new (d.toNat + 1) (fun l => (f l).extractLsb' 32 32) l) ∧
    (∀ k q, armed v.g d.toNat = some (k, q) → tyBig t = false →
      w.g = { v.g with q := tput v.g.q k { q with pos := q.pos + 1 }, nStore := v.g.nStore + 1, nQueue := w.g.nQueue } ∧ w.b = v.b ∧
      ∃ o, tget w.st.ops v.st.nextOp = some o ∧ o.blk = v.uid ∧ o.gid = v.gid ∧
        (∀ i, i ≠ v.st.nextOp → tget w.st.ops i = tget v.st.ops i) ∧
        ∃ (addrs : List Nat) (row : Row) (left : Lanes), o.body = .entry (BitVec.ofNat 3 k) q.ty addrs row left ∧
          ∀ l < 64, rget row l = (f l).setWidth 32 ∧
            (left.getLsbD l = true ↔ m.getLsbD l = true ∧ 64 * q.pos + l < q.n) ∧
            addrs[l]? = some ((q.base : Int) + q.stride * (64 * q.pos + l)).toNat)

/-- Reading a vector operand of one register takes the register's row when its name is no armed queue, changing nothing; when it names an
armed load queue with an entry buffered, the lanes of EXEC get the elements of the oldest entry, the entry leaves the queue, its position
moves by one and its residency bits are ORed in, lane by lane; no register changes. QRES of a load queue writes bit l of its residency
mask to the predicate in each lane of EXEC, the other lanes keep theirs, and the mask is then clear. QCLOSE disarms its queue: a load
queue's buffered entries are gone with it, the entries that a store queue has pushed stay outstanding and counted, and an unarmed queue is
left as it is. (R179, R180) -/
def Obligations.PoppingAndClosingAQueue : Prop :=
  (∀ (ex : Lanes) (v : View) (r : Nat),
    (armed v.g r = none → readRows ex [.v r 1 true false] v = (v, [readV v.g r])) ∧
    (∀ k q e rest, armed v.g r = some (k, q) → q.buf = e :: rest →
      ∃ row st, readRows ex [.v r 1 true false] v =
          ({ v with st := st, g := { v.g with q := tput v.g.q k { q with pos := q.pos + 1, buf := rest, resid := q.resid ||| e.resid } } }, [row]) ∧
        st = { v.st with free := st.free } ∧
        ∀ l < 64, ex.getLsbD l = true → rget row l = rget e.data l)) ∧
  ∀ (h : Hdr) (k : QReg) (p : PReg) (s : State) (v : View), Issues h s v → OperandsReady [] v →
    (∃ w, exec (.qclose h k) s = completed h w 0 ∧ w = { v with g := { v.g with q := w.g.q } } ∧ tget w.g.q k.toNat = none ∧
      (∀ j, j ≠ k.toNat → tget w.g.q j = tget v.g.q j) ∧ (tget v.g.q k.toNat = none → w = v)) ∧
    (∀ q, tget v.g.q k.toNat = some q → q.load = true →
      ∃ w, exec (.qres h p k) s = completed h w 0 ∧ w = { v with g := { v.g with q := w.g.q, p := w.g.p } } ∧
        tget w.g.q k.toNat = some { q with resid := 0 } ∧ (∀ j, j ≠ k.toNat → tget w.g.q j = tget v.g.q j) ∧
        (∀ x, x ≠ p → readP w.g x = readP v.g x) ∧ (p = 0 → w.g.p = v.g.p) ∧
        (p ≠ 0 → ∀ l < 64, (readP w.g p).getLsbD l =
          if (execOf h v.g).getLsbD l then q.resid.getLsbD l else (tgetD v.g.p p.toNat 0).getLsbD l))

/-- PAND, POR, PXOR, PNOT, PMOV and PSET write, in the lanes of EXEC only, the and, or, exclusive or, complement or copy of their source
predicates (p0 reads true), or bit l of s(A) in lane l; the other lanes keep their value, false when the register was void; a write to p0
is discarded and no other register changes. PCNT writes the number of lanes of EXEC whose predicate is true. No flag is raised. (R28, R29,
R117) -/
def Obligations.PredicateInstructionResults : Prop :=
  ∀ (h : Hdr) (d a b : PReg) (e : SReg) (s : State) (v : View), Issues h s v →
    let ex := execOf h v.g
    let Result := fun (i : Instr) (z : Nat → Bool) =>
      ∃ g : Group, exec i s = completed h { v with g := g } 0 ∧ g = { v.g with p := g.p } ∧ (d = 0 → g = v.g) ∧
        (∀ x, x ≠ d → readP g x = readP v.g x) ∧
        (d ≠ 0 → ∀ l < 64, (readP g d).getLsbD l = if ex.getLsbD l then z l else (tgetD v.g.p d.toNat 0).getLsbD l)
    let x := fun l => (readP v.g a).getLsbD l
    let y := fun l => (readP v.g b).getLsbD l
    (OperandsReady [.p a, .p b] v →
      Result (.pand h d a b) (fun l => x l && y l) ∧ Result (.por h d a b) (fun l => x l || y l) ∧
      Result (.pxor h d a b) (fun l => x l != y l)) ∧
    (OperandsReady [.p a] v → Result (.pnot h d a) (fun l => !x l) ∧ Result (.pmov h d a) x) ∧
    (OperandsReady [ssrc e] v → Result (.pset h d e) (fun l => (readS v.g e).getLsbD l)) ∧
    (OperandsReady [.p a, sdst e] v →
      let n := ((List.range 64).filter (fun l => ex.getLsbD l && x l)).length
      exec (.pcnt h e a) s = completed h { v with g := writeS v.g e (BitVec.ofNat 64 n) } 0)

/-- SHFL gives each lane l of EXEC the element of lane idx mod 64 of its index (idx mode), of lane l - n or l + n where that is a lane and
else its own (up, down), or of lane l xor n; a source lane outside EXEC gives its contents. RDFL writes the element of the lowest lane of
EXEC to an s-register, sign-extended for .s32. VOTE writes the mask of the lanes of EXEC whose predicate is true, or 1 or 0 for any and
for all. (R118, R119, R120, R121) -/
def Obligations.CrossLaneResults : Prop :=
  ∀ (h : Hdr) (t : Ty) (d a b : VReg) (n : BitVec 6) (e : SReg) (p : PReg) (s : State) (v : View), Issues h s v →
    let ex := execOf h v.g
    (OperandsReady [vsrc t a, vsrc t b, vdst t d] v →
      let q := readRows ex [vsrc t a, vsrc t b, vdst t d] v
      exec (.shfl h t d a (.idx b)) s = completed h (writeElems q.1 t d ex
        (fun l => elem t q.2 0 ((elem t q.2 1 l).toNat % 2 ^ 32 % 64))) 0) ∧
    (OperandsReady [vsrc t a, vdst t d] v →
      let q := readRows ex [vsrc t a, vdst t d] v
      let x := elem t q.2 0
      exec (.shfl h t d a (.up n)) s =
        completed h (writeElems q.1 t d ex (fun l => if n.toNat ≤ l then x (l - n.toNat) else x l)) 0 ∧
      exec (.shfl h t d a (.down n)) s =
        completed h (writeElems q.1 t d ex (fun l => if l + n.toNat < 64 then x (l + n.toNat) else x l)) 0 ∧
      exec (.shfl h t d a (.xor n)) s = completed h (writeElems q.1 t d ex (fun l => x (l ^^^ n.toNat))) 0) ∧
    (OperandsReady [vsrc t a, sdst e] v →
      let q := readRows ex [vsrc t a, sdst e] v
      ∃ l < 64, ex.getLsbD l = true ∧ (∀ k < l, ex.getLsbD k = false) ∧
        let x := if t = .s32 then ((elem t q.2 0 l).setWidth 32).signExtend 64 else elem t q.2 0 l
        exec (.rdfl h t e a) s = completed h { q.1 with g := writeS q.1.g e x } 0) ∧
    (OperandsReady [.p p, sdst e] v →
      let m := ex &&& readP v.g p
      let put := fun x => completed h { v with g := writeS v.g e x } 0
      exec (.vote h e p .ballot) s = put m ∧
      ((∃ l < 64, m.getLsbD l = true) → exec (.vote h e p .any) s = put 1) ∧
      ((∀ l < 64, m.getLsbD l = false) → exec (.vote h e p .any) s = put 0) ∧
      ((∀ l < 64, ex.getLsbD l = true → (readP v.g p).getLsbD l = true) → exec (.vote h e p .all) s = put 1) ∧
      ((∃ l < 64, ex.getLsbD l = true ∧ (readP v.g p).getLsbD l = false) → exec (.vote h e p .all) s = put 0))

/-- Under an integer type REDUCE completes without a flag and writes, for add, the sum of the elements of the lanes of EXEC modulo 2^W, and
for min and max the least and the greatest of them, extended under the type. (R103, R122) -/
def Obligations.IntegerReductionFoldsTheLanes : Prop :=
  ∀ (h : Hdr) (t : Ty) (e : SReg) (a : VReg) (s : State) (v : View), Issues h s v → OperandsReady [vsrc t a, sdst e] v → tyInt t = true →
    let ex := execOf h v.g
    let q := readRows ex [vsrc t a, sdst e] v
    let x := fun l => val t (elem t q.2 0 l)
    let put := fun r => completed h { q.1 with g := writeS q.1.g e r } 0
    (∃ r, exec (.reduce h t e a .add) s = put r ∧ HoldsFit t (((laneList ex).map x).sum) r) ∧
    (∃ r l, exec (.reduce h t e a .min) s = put r ∧ l ∈ laneList ex ∧ HoldsFit t (x l) r ∧ ∀ k ∈ laneList ex, x l ≤ x k) ∧
    (∃ r l, exec (.reduce h t e a .max) s = put r ∧ l ∈ laneList ex ∧ HoldsFit t (x l) r ∧ ∀ k ∈ laneList ex, x k ≤ x l)

/-- Once past the checks of R54, REDUCE writes the value that six rounds of pairwise combination of neighbouring lanes leave (lanes outside
EXEC hold the identity) and raises the flags of the combinations; SCAN gives each lane of EXEC the value that six steps of distances 1, 2,
4, 8, 16 and 32 leave in it, or in the lane below it in the exclusive form (the identity in lane 0); SAMPLE writes the lane its weights
and draw choose and raises no flag but NV. (R122, R150) -/
def Obligations.ReduceScanAndSampleComplete : Prop :=
  ∀ (h : Hdr) (t : Ty) (e b : SReg) (d a : VReg) (op : RedOp) (s : State) (v : View), Issues h s v →
    let ex := execOf h v.g
    (OperandsReady [vsrc t a, sdst e] v →
      let q := readRows ex [vsrc t a, sdst e] v
      let r := reduceAll t op 6 (redStart t op ex (elem t q.2 0)) 0
      exec (.reduce h t e a op) s = completed h { q.1 with g := writeS q.1.g e r.1 } r.2) ∧
    (OperandsReady [vsrc t a, vdst t d] v →
      let q := readRows ex [vsrc t a, vdst t d] v
      let r := scanAll t op [1, 2, 4, 8, 16, 32] (redStart t op ex (elem t q.2 0)) 0
      exec (.scan h t d a op false) s = completed h (writeElems q.1 t d ex (fun l => r.1.getD l 0)) r.2 ∧
      exec (.scan h t d a op true) s =
        completed h (writeElems q.1 t d ex (fun l => if l = 0 then identOf t op else r.1.getD (l - 1) 0)) r.2) ∧
    (OperandsReady [vsrc .f32 a, ssrc b, sdst e] v →
      let q := readRows ex [vsrc .f32 a, ssrc b, sdst e] v
      let r := sampleOf ex (fun l => (elem .f32 q.2 0 l).toNat) ((readS v.g b).toNat % 2 ^ 32)
      exec (.sample h e a b) s = completed h { q.1 with g := writeS q.1.g e r.1 } r.2 ∧ (r.2 = 0 ∨ r.2 = fNV))

/-- Once past the checks of R54 each of these completes: WANT, WANT from a vector, and WANTS whose condition holds make each lane of EXEC wait
for its label, or DONE for label 0xFFFF; WANTS whose condition fails has no effect; WANTH gates the lanes on its handle; CALL of a
function makes them CALLING with the next label to return to; RET makes them wait for the frame's resume label, or DONE in the base frame.
A label that is not legal here, in any lane of EXEC of WANT from a vector (or one with higher bits set there), 0xFFFF for WANTH, and for
CALL one of no function entry or an illegal next label, raises contract fault 4 without effect; CALL at depth 8 raises contract fault 9.
The lanes leave ACTIVE. Lanes that become DONE leave the remaining set of every frame, lanes that RET returns that of the top frame, and
no other set changes. No other lane, no register, nothing else of the group or its block and nothing of the machine but a trace record
changes. (R19, R78, R81, R82, R83, R84, 03_control_and_waiting.md) -/
def Obligations.LaneWantResults : Prop :=
  ∀ (h : Hdr) (l f : Lab) (a : VReg) (neg : Bool) (r : SReg) (n : HReg) (s : State) (v : View), Issues h s v →
    let ex := execOf h v.g
    let gone : LaneState := { mode := .done, prior := .run, handle := 0, ret := 0xFFFF, label := 0xFFFF }
    let cut := fun (m : Lanes) (fr : Frame) => { fr with rem := fr.rem &&& ~~~m }
    let Result := fun (i : Instr) (u : View) (new : Nat → LaneState → LaneState) (frames : List Frame) =>
      ∃ w : View, exec i s = completed h w 0 ∧ w.b = u.b ∧ w.st = { u.st with clusters := w.st.clusters } ∧
        w.g = { u.g with lanes := w.g.lanes, active := u.g.active &&& ~~~ex, frames := frames } ∧
        ∀ k < 64, laneAt w.g k = if ex.getLsbD k then new k (laneAt u.g k) else laneAt u.g k
    let wanted := fun (L : Lab) (x : LaneState) => if L = 0xFFFF then gone else { x with mode := .wait, prior := .run, handle := 0, label := L }
    let left := fun (L : Lab) => if L = 0xFFFF then v.g.frames.map (cut ex) else v.g.frames
    let wantFault := trapped v 0 4 255 8 0
    (OperandsReady [] v →
      ((l = 0xFFFF ∨ labelOK v l = true) → Result (.want h l) v (fun _ => wanted l) (left l)) ∧
      (l ≠ 0xFFFF → labelOK v l = false → exec (.want h l) s = wantFault)) ∧
    (OperandsReady [vsrc .n32 a] v →
      let q := readRows ex [vsrc .n32 a] v
      let x := elem .n32 q.2 0
      let legal := fun k => x k >>> 16 = 0 ∧ ((x k).setWidth 16 = (0xFFFF : Lab) ∨ labelOK v ((x k).setWidth 16) = true)
      ((∀ k < 64, ex.getLsbD k = true → legal k) →
        Result (.wantVector h a) q.1 (fun k => wanted ((x k).setWidth 16))
          (v.g.frames.map (cut (maskOf (fun k => ex.getLsbD k && (x k).setWidth 16 == (0xFFFF : Lab)))))) ∧
      ((∃ k < 64, ex.getLsbD k = true ∧ ¬ legal k) → exec (.wantVector h a) s = wantFault)) ∧
    (OperandsReady [ssrc r] v →
      ((readS v.g r != 0) = neg → exec (.wants h neg r l) s = completed h v 0) ∧
      ((readS v.g r != 0) ≠ neg → (l = 0xFFFF ∨ labelOK v l = true) → Result (.wants h neg r l) v (fun _ => wanted l) (left l)) ∧
      ((readS v.g r != 0) ≠ neg → l ≠ 0xFFFF → labelOK v l = false → exec (.wants h neg r l) s = wantFault)) ∧
    (OperandsReady [.h n] v →
      (labelOK v l = true →
        Result (.wanth h n l) v (fun _ x => { x with mode := .gate, prior := .run, handle := n, label := l }) v.g.frames) ∧
      (labelOK v l = false → exec (.wanth h n l) s = wantFault)) ∧
    (OperandsReady [] v →
      (markerKind (wordsOf v.st v.b v.g) f = some 1 → labelOK v (v.g.label + 1) = true → frameDepth v.g ≠ 8 →
        Result (.call h f) v (fun _ x => { x with mode := .calling, prior := .run, handle := 0, label := f, ret := v.g.label + 1 }) v.g.frames) ∧
      (markerKind (wordsOf v.st v.b v.g) f ≠ some 1 ∨ labelOK v (v.g.label + 1) = false → exec (.call h f) s = wantFault) ∧
      (markerKind (wordsOf v.st v.b v.g) f = some 1 → labelOK v (v.g.label + 1) = true → frameDepth v.g = 8 →
        exec (.call h f) s = trapped v 0 9 255 8 0) ∧
      (frameDepth v.g = 0 → Result (.ret h) v (fun _ _ => gone) (v.g.frames.map (cut ex))) ∧
      (frameDepth v.g ≠ 0 →
        Result (.ret h) v (fun _ x => { x with mode := .wait, prior := .run, handle := 0, label := (topFrame v.g).resume })
          (cut ex (topFrame v.g) :: v.g.frames.tail)))

/-- NOP changes no register, flag, mode, lane or frame of its group, nothing of its block and nothing else but the core's issue count; the
position moves past it, and it is a safe point with its mask exactly when S = 1. YIELD completes and leaves the group 16 clocks in which
other ready groups go first. EXIT makes every lane DONE, discards the call frames, and ends the group, whatever lanes EXEC holds; no
register changes. (R80) -/
def Obligations.GroupControlResults : Prop :=
  ∀ (h : Hdr) (s : State) (v : View), Issues h s v → OperandsReady [] v →
    (∃ w, exec (.nop h) s = .next (flush w) ∧ SameRegisters w.g v.g ∧ w.g.lanes = v.g.lanes ∧ w.g.active = v.g.active ∧ w.g.frames = v.g.frames ∧
      w.g.fflags = v.g.fflags ∧ w.g.frm = v.g.frm ∧ w.g.ftrap = v.g.ftrap ∧ w.g.sround = v.g.sround ∧ w.g.label = v.g.label ∧
      w.g.offset = v.g.offset + (if h.safe then 2 else 1) ∧ w.g.safe = (if h.safe then some h.mask else none) ∧
      w.b = v.b ∧ w.st = { v.st with cores := w.st.cores }) ∧
    (∃ w, exec (.yield h) s = .next (flush w) ∧ w = { settle h v 0 with g := { (settle h v 0).g with yield := 16 } }) ∧
    ∃ w, exec (.exit h) s = completed h w 0 ∧ w.g.run = .ended ∧ w.g.active = 0 ∧ SameRegisters w.g v.g ∧
      w.g.frames.length = min 1 v.g.frames.length ∧ (∀ k < 64, (laneAt w.g k).mode = .done) ∧
      w.b.scratch = v.b.scratch ∧ w.st.cellar = v.st.cellar ∧ w.st.pages = v.st.pages

/-- When the current group stands at the end of its block: if no lane is calling and some lane is active, then the active lanes with the
eligible ones are admitted at the next label, past the body when a function entry stands there in the base frame. If none is active, the
eligible lanes of the lowest eligible label at or after the next one are admitted after one bubble; if there is none there but one earlier
in the region, that wrap adds 1 to %sweeps; if there is none at all the group goes idle. If a lane of the remaining set is calling, a
frame is pushed for the lowest callee label and its participants are admitted there, with their return label set, after one bubble. With
no lane remaining a call frame pops: the lanes that stood RUN in the outer frame are admitted with the eligible ones at its resume label,
or the next eligible ones after a second bubble; in the base frame the group ends. Active lanes that reach the region's end become DONE in
the base frame and wait for the resume label in a call frame, and a further label is sought, a frame popped or the group ended as without
them. An admission at a label, whose marker is reached along a sound chain and has no hold slot, while no fetch is awaited, puts the
position at its offset 1, makes the admitted lanes RUN with label 0xFFFF, leaves every other lane, and folds and counts in counters 18 and
19. Registers are unchanged; where no acquire waits to be observed, no memory and nothing of the block is changed. (R22, R75, R78, R84,
R85, R362) -/
def Obligations.EndOfABlock : Prop :=
  ∀ (s : State) (v : View), currentView s = some v → atBlockEnd v = true → v.g.ctrs.length = 20 → (∀ e ∈ v.st.ops, ∀ p, e.2.body ≠ .icinv p) →
    let ws := wordsOf v.st v.b v.g
    let L := v.g.label.toNat + 1
    let base := frameDepth v.g = 0
    let Sound := fun (g : Group) (K : Nat) => (frameDepth g = 0 → markerKind ws (lab K) ≠ some 1) ∧ K < (topFrame g).fend.toNat ∧
      (∃ i, findLabel ws K = .ok i) ∧ holdSlot v K = none
    let Admits := fun (K : Nat) (act : Lanes) (lane : Nat → LaneState) (frames : List Frame) (bubbles : Nat) =>
      ∃ w, exec .endBlock s = .next (flush w) ∧ w.g.label = lab K ∧ w.g.offset = 1 ∧ w.g.run = .issuing ∧ w.g.active = act ∧
        (∀ k < 64, laneAt w.g k = if act.getLsbD k then { lane k with mode := .run, prior := .run, handle := 0, label := 0xFFFF } else lane k) ∧
        w.g.frames = frames ∧ w.g.bubbles = v.g.bubbles + bubbles ∧ SameRegisters w.g v.g ∧
        ctrOf w.g 18 = foldSig (ctrOf v.g 18) (lab K) act ∧ ctrOf w.g 19 = ctrOf v.g 19 + 1 ∧
        (v.g.acq = [] → w.b = v.b ∧ w.st = { v.st with clusters := w.st.clusters })
    let swept := fun (g : Group) => (setTop g { topFrame g with sweeps := (topFrame g).sweeps + 1 }).frames
    let calling := lanesIn v.g .calling &&& remaining v.g
    let Pops := fun (g0 : Group) =>
      let g := (popFrame { g0 with active := 0 }).2
      let r := (topFrame g0).resume.toNat
      let ret := if frameDepth g = 0 then 0xFFFF else (topFrame g).resume
      let lane := fun k => if (topFrame g0).parts.getLsbD k && (laneAt g0 k).mode != .done then { laneAt g0 k with ret := ret } else laneAt g0 k
      let run := lanesIn g0 .run &&& remaining g
      lanesIn g0 .calling &&& remaining g = 0 →
        g.frames = g0.frames.tail ∧
        (run ≠ 0 → Sound g r → Admits r (run ||| eligible g (lab r)) lane g.frames 1) ∧
        (run = 0 → ∀ K, nextEligible g r = some K → Sound g K → Admits K (eligible g (lab K)) lane g.frames 2)
    (calling = 0 → v.g.active ≠ 0 →
      (Sound v.g L → Admits L (v.g.active ||| eligible v.g (lab L)) (laneAt v.g) v.g.frames 0) ∧
      (∀ E i w, base → markerKind ws (lab L) = some 1 → L < (topFrame v.g).fend.toNat → findFuncEnd ws L = .ok i → ws[i]? = some w →
        (mkLabel w).toNat = E → Sound v.g E → Admits E (v.g.active ||| eligible v.g (lab E)) (laneAt v.g) v.g.frames 1) ∧
      (L = (topFrame v.g).fend.toNat → (∃ i, findEnd ws (frameDepth v.g == 0) L = .ok i) →
        let g := retLanes v.g v.g.active
        (∀ k < 64, laneAt g k =
          if v.g.active.getLsbD k then
            (if frameDepth v.g = 0 then { mode := .done, prior := .run, handle := 0, ret := 0xFFFF, label := 0xFFFF }
             else { laneAt v.g k with mode := .wait, prior := .run, handle := 0, label := (topFrame v.g).resume })
          else laneAt v.g k) ∧
        remaining g = remaining v.g &&& ~~~v.g.active ∧
        (remaining g = 0 → base → ∃ w, exec .endBlock s = .next (flush w) ∧ w.g.run = .ended ∧ w.g.active = 0 ∧ SameRegisters w.g v.g) ∧
        (remaining g = 0 → ¬ base → Pops g) ∧
        ∀ K, nextEligible g (topFrame g).entry.toNat = some K → nextEligible g L = none → Sound g K →
          Admits K (eligible g (lab K)) (laneAt g) (swept g) 1)) ∧
    (calling = 0 → v.g.active = 0 →
      (∀ K, nextEligible v.g L = some K → Sound v.g K → Admits K (eligible v.g (lab K)) (laneAt v.g) v.g.frames 1) ∧
      (∀ K, nextEligible v.g L = none → nextEligible v.g (topFrame v.g).entry.toNat = some K → Sound v.g K →
        Admits K (eligible v.g (lab K)) (laneAt v.g) (swept v.g) 1) ∧
      (remaining v.g ≠ 0 → (∀ n, nextEligible v.g n = none) →
        ∃ w, exec .endBlock s = .next (flush w) ∧ w.g.run = .idle ∧ w.g.seek = lab L ∧ w.g.active = 0 ∧ SameRegisters w.g v.g) ∧
      (remaining v.g = 0 → base → ∃ w, exec .endBlock s = .next (flush w) ∧ w.g.run = .ended ∧ SameRegisters w.g v.g) ∧
      (remaining v.g = 0 → ¬ base → Pops v.g)) ∧
    (∀ F : Lab, ∀ E, (∃ k < 64, calling.getLsbD k = true ∧ (laneAt v.g k).label = F) →
      (∀ k < 64, calling.getLsbD k = true → F.toNat ≤ (laneAt v.g k).label.toNat) → (∃ i, findFuncEnd ws F.toNat = .ok i) →
      funcEnd ws F = some E → F.toNat < E.toNat → (∃ i, findLabel ws F.toNat = .ok i) → holdSlot v F.toNat = none →
      let parts := maskOf (fun k => calling.getLsbD k && (laneAt v.g k).label == F)
      let fr : Frame := { entry := F, fend := E, resume := lab L, parts := parts, rem := parts, sweeps := 0 }
      Admits F.toNat parts (fun k => if parts.getLsbD k then { laneAt v.g k with ret := lab L } else laneAt v.g k) (fr :: v.g.frames) 1)

/-- IDLE_WAKE of an idle, unstopped group of a live block in its base frame, whose lowest eligible label at or after the one it idled at is a
block marker of the region reached along a sound chain (with no hold slot and no fetch awaited), admits the eligible lanes there after one
bubble. BROKEN_CHAIN of the current group, where fetch met a marker out of place or the end of the image, raises the illegal-instruction
fault at the address of its current marker; that its detail is 0 is the model's reading (log 20, DEDUCED: no rule gives a detail). (R22,
R25, R54, R58, R75) -/
def Obligations.WakingAndBrokenChains : Prop :=
  (∀ (s : State) (u k L : Nat) (v : View), viewAt s u k = some v → blockLive v.b = true → v.g.run = .idle → v.g.stopped = false →
    frameDepth v.g = 0 → remaining v.g ≠ 0 → (nextEligible v.g (topFrame v.g).entry.toNat).isSome = true →
    nextEligible v.g v.g.seek.toNat = some L →
    let c := newestCode s v.b
    let ws := wordsOf v.st v.b { v.g with code := c }
    markerKind ws (lab L) = some 0 → L < (topFrame v.g).fend.toNat → (∃ i, findLabel ws L = .ok i) → holdSlot v L = none →
    (∀ e ∈ v.st.ops, ∀ p, e.2.body ≠ .icinv p) →
    ∃ w, exec (.idleWake u k) s = .next (flush w) ∧ w.g.label = lab L ∧ w.g.offset = 1 ∧ w.g.run = .issuing ∧
      w.g.active = eligible v.g (lab L) ∧ w.g.bubbles = v.g.bubbles + 1 ∧ SameRegisters w.g v.g) ∧
  (∀ (s : State) (v : View) (im : Image) (i : Nat), currentView s = some v → chainBroken v = true → isHandler v = false →
    v.b.ending = none → v.b.fault = none → imageOf v.st v.b = some im → markerIdx (wordsOf v.st v.b v.g) v.g.label = some i →
    ∃ w f, exec .brokenChain s = .next (flush w) ∧ w.b.fault = some f ∧ f.cls = 0 ∧ f.code = 0x0A ∧ f.detail = 0 ∧
      f.addr = BitVec.ofNat 64 (im.addr + im.codeoff + 8 * i) ∧ w.g = { v.g with tried := true } ∧ w.st = v.st)

/-- HWAIT and HTEST of a COMPLETE handle write its status, zero-extended, and where it is the handle of an ATOMG that acquires, the acquire
takes place first, once; of a PENDING one HWAIT is held back under stall reason 5 and HTEST writes all ones. HCANCEL of a COMPLETE handle
has no effect; of an outstanding copy, page request, ENQ, PUT, publication or STOPREF of the group it ends the operation at once with
status 0xFF. HMOV moves the binding, the source becoming void, and lanes gated on it follow; with D equal to N nothing changes. WAITCNT
completes when its count is at most N and is held back under reason 5 otherwise. (R91, R92, R94, R95, R96, R97) -/
def Obligations.HandleInstructionResults : Prop :=
  ∀ (h : Hdr) (d : SReg) (n m : HReg) (s : State) (v : View), Issues h s v →
    (∀ st bm pg, tget v.g.h n.toNat = some (.complete st bm pg) →
      (OperandsReady [.h n, sdst d] v → ∀ i ∈ [Instr.hwait h d n, .htest h d n],
        ∃ u, exec i s = completed h { u with g := writeS u.g d (st.setWidth 64) } 0 ∧
          ((∀ x ∈ v.g.acq, x % 64 ≠ n.toNat) → u = v) ∧
          ((∃ x ∈ v.g.acq, x % 64 = n.toNat) →
            u = { v with st := acquirePool v.st v.b.part, g := { v.g with acq := v.g.acq.filter (fun x => !(x % 64 == n.toNat)) } })) ∧
      (OperandsReady [.h n] v → exec (.hcancel h n) s = completed h v 0)) ∧
    (∀ id, tget v.g.h n.toNat = some (.pending id) →
      (OperandsReady [.h n, sdst d] v →
        exec (.hwait h d n) s = .next (flush (stallView h v 5)) ∧
        exec (.htest h d n) s = completed h { v with g := writeS v.g d 0xFFFFFFFFFFFFFFFF } 0) ∧
      (OperandsReady [.h n] v → ∀ o, tget s.ops id = some o → o.blk = v.uid → o.gid = v.gid →
        ((∃ c, o.body = .copy c) ∨ (∃ p, o.body = .pages p) ∨ (∃ k a b, o.body = .enq k a b) ∨
          (∃ a b c e f g i, o.body = .put a b c e f g i ∧ putEnded o.body = false) ∨ (∃ a b c e f g, o.body = .publish a b c e f g) ∨ (∃ a, o.body = .stopref a)) →
        ∃ w, exec (.hcancel h n) s = completed h w 0 ∧ tget w.g.h n.toNat = some (.complete 0xFF 0 []) ∧ tget w.st.ops id = none ∧
          w.g.s = v.g.s ∧ w.g.v = v.g.v ∧ w.g.p = v.g.p)) ∧
    (OperandsReady [.h n] v → exec (.hmov h n n) s = completed h v 0) ∧
    (m ≠ n → OperandsReady [.hd m, .h n] v →
      ∃ g : Group, exec (.hmov h m n) s = completed h { v with g := g } 0 ∧ tget g.h m.toNat = tget v.g.h n.toNat ∧
        tget g.h n.toNat = none ∧ (∀ x, x ≠ m.toNat → x ≠ n.toNat → tget g.h x = tget v.g.h x) ∧
        g = { v.g with h := g.h, lanes := g.lanes } ∧
        ∀ k < 64, let x := laneAt v.g k
          laneAt g k = if (x.mode = .gate ∨ (x.mode = .held ∧ x.prior = .gate)) ∧ x.handle = n then { x with handle := m } else x) ∧
    (OperandsReady [] v → ∀ (sel : WaitSel) (k : BitVec 8),
      (countOf v sel ≤ k.toNat → exec (.waitcnt h sel k) s = completed h v 0) ∧
      (k.toNat < countOf v sel → exec (.waitcnt h sel k) s = .next (flush (stallView h v 5))))

/-- BARINIT with another count than the one in force sets the phase to 0 and both counts; with the same count it changes nothing. BARARR at an
initialised barrier writes the token (the index with the phase before in bit 9) and counts C arrivals: it completes the phase (flipping it
and reloading the pending count) when C reaches the pending count, and else lowers that count; at an uninitialised one it is held back
under reason 7. BARTRY writes 1 or 0 and BARWT completes or is held back under reason 7, by whether the phase has left the token's. An
index at or above the declared number raises contract fault 6. No flag is raised. (R98, R99, R100) -/
def Obligations.BarrierInstructionResults : Prop :=
  ∀ (h : Hdr) (d t : SReg) (b : BitVec 9) (c : BarCount) (s : State) (v : View), Issues h s v →
    let o := barOf v.b b.toNat
    let n : W32 := match c with
      | .imm x => x.setWidth 32
      | .s x => (readS v.g x).setWidth 32
    let tok := readS v.g t
    let i := tok.toNat % 512
    let held := (barOf v.b i).phase = tok.getLsbD 9
    (OperandsReady (countOps c) v →
      (v.b.fp.barriers ≤ b.toNat → exec (.barinit h b c) s = trapped v 0 6 255 8 0) ∧
      (b.toNat < v.b.fp.barriers → o.expected = n → exec (.barinit h b c) s = completed h (setBar v b.toNat o) 0) ∧
      (b.toNat < v.b.fp.barriers → o.expected ≠ n →
        exec (.barinit h b c) s = completed h (setBar v b.toNat { phase := false, expected := n, pending := n }) 0)) ∧
    (OperandsReady (countOps c ++ [sdst d]) v →
      (v.b.fp.barriers ≤ b.toNat → exec (.bararr h d b c) s = trapped v 0 6 255 8 0) ∧
      (b.toNat < v.b.fp.barriers → o.expected = 0 → exec (.bararr h d b c) s = .next (flush (stallView h v 7))) ∧
      (b.toNat < v.b.fp.barriers → o.expected ≠ 0 →
        let o' : Barrier := if o.pending.toNat ≤ n.toNat then { o with phase := !o.phase, pending := o.expected }
          else { o with pending := o.pending - n }
        let token := BitVec.ofNat 64 (b.toNat + if o.phase then 512 else 0)
        exec (.bararr h d b c) s = completed h { setBar v b.toNat o' with g := writeS v.g d token } 0)) ∧
    (OperandsReady [ssrc t, sdst d] v →
      (v.b.fp.barriers ≤ i → exec (.bartry h d t) s = trapped v 0 6 255 8 0) ∧
      (i < v.b.fp.barriers → held → exec (.bartry h d t) s = completed h { v with g := writeS v.g d 0 } 0) ∧
      (i < v.b.fp.barriers → ¬ held → exec (.bartry h d t) s = completed h { v with g := writeS v.g d 1 } 0)) ∧
    (OperandsReady [ssrc t] v →
      (v.b.fp.barriers ≤ i → exec (.barwt h t) s = trapped v 0 6 255 8 0) ∧
      (i < v.b.fp.barriers → held → exec (.barwt h t) s = .next (flush (stallView h v 7))) ∧
      (i < v.b.fp.barriers → ¬ held → exec (.barwt h t) s = completed h v 0))

/-- A group arrives at its next phase, or stands at the phase it has already arrived at. When every other group of the block has ended or has
arrived at that phase, and, where the launch is phased and the block is of a stage of fire mode 0, all blocks of those stages have been
placed and each is complete or has only such groups, PHASE completes and writes the phase's number. When some group has neither ended nor
arrived, or a block is missing, it is held back under reason 7 with its arrival kept, and an attempt again changes nothing but the wait.
(R101, R102) -/
def Obligations.PhaseCompletesWhenAllHaveArrived : Prop :=
  ∀ (h : Hdr) (d : SReg) (s : State) (v : View), Issues h s v → OperandsReady [sdst d] v →
    let fresh := ∀ e sf m, v.g.arrival ≠ .phase e sf m
    let n := v.g.phases + 1
    let peer := fun (e : Nat × Block) => e.1 != v.uid && e.2.launch == v.b.launch && wideStage v.st e.2
    let spread := fun (n : Nat) => ∀ L, tget v.st.launches v.b.launch = some L →
      ((L.stages.filter (fun x => x.fire == 0)).map (fun x => x.count)).sum ≤ (v.st.blocks.filter peer).length + 1 ∧
      ∀ e ∈ v.st.blocks, peer e = true → e.2.phase = .complete ∨ ∀ g ∈ e.2.groups, g.run = .ended ∨ n ≤ g.phases
    let others := fun (n : Nat) => (∀ i (g : Group), i ≠ v.gid → v.b.groups[i]? = some g → g.run = .ended ∨ n ≤ g.phases) ∧
      (wideStage v.st v.b = true → spread n)
    (fresh → others n →
      exec (.phase h d) s =
        completed h { v with g := writeS { v.g with phases := n, arrival := .none } d (BitVec.ofNat 64 n) } 0) ∧
    (¬ fresh → others v.g.phases →
      exec (.phase h d) s =
        completed h { v with g := writeS { v.g with arrival := .none } d (BitVec.ofNat 64 v.g.phases) } 0) ∧
    (fresh → ¬ others n →
      exec (.phase h d) s =
        .next (flush (stallView h { v with g := { v.g with phases := n, arrival := .phase d h.safe h.mask } } 7))) ∧
    (¬ fresh → ¬ others v.g.phases → exec (.phase h d) s = .next (flush (stallView h v 7)))

/-- SPAWN at depth 4 completes its handle at once with status 0x11 and creates nothing. With an early status of none (depth, footprint, entry
and size as R88 asks) and no earlier run of the same operation to find, it creates a waiting child one level deeper, whose groups start
with copies of the named s-registers and capability registers, and binds the handle to it. LAUNCH of a readable 64-byte graph header
starts a graph at that address, at level 0, and binds the handle to it. Registers other than the handle keep their values. (R13, R88, R89,
R193) -/
def Obligations.SpawnAndLaunchResults : Prop :=
  ∀ (h : Hdr) (d : HReg) (f e a o : SReg) (c : CReg) (n m : BitVec 4) (s : State) (v : View), Issues h s v →
    logFind v.b (nextKey v) = none → opOfKey v.st v.uid (nextKey v) = none →
    let ops := [Opd.hd d, ssrc f, ssrc e] ++ (if n = 0 then [] else [Opd.s a.toNat n.toNat true false]) ++
      (List.range m.toNat).map (fun i => Opd.c (c + BitVec.ofNat 4 i))
    let kept := fun (w : View) => w.g.s = v.g.s ∧ w.g.v = v.g.v ∧ w.g.p = v.g.p ∧ w.g.c = v.g.c ∧
      (∀ x, x ≠ d.toNat → tget w.g.h x = tget v.g.h x)
    (OperandsReady ops v → 4 ≤ v.b.depth →
      ∃ w, exec (.spawn h d f e a c n m) s = completed h w 0 ∧ kept w ∧ w.st = v.st ∧ w.b = v.b ∧
        tget w.g.h d.toNat = some (.complete 0x11 0 [])) ∧
    (OperandsReady ops v → spawnStatus v (readS v.g f) (readS v.g e) = none →
      ∃ w b p, exec (.spawn h d f e a c n m) s = completed h w 0 ∧ kept w ∧ tget w.g.h d.toNat = some (.pending v.st.nextOp) ∧
        tget w.st.ops v.st.nextOp = some p ∧ p.body = .spawn v.st.nextUid ∧ p.blk = v.uid ∧
        tget w.st.blocks v.st.nextUid = some b ∧ b.kind = .spawned ∧ b.depth = v.b.depth + 1 ∧ b.parent = some v.uid ∧ b.phase = .waiting ∧
        b.entry = (readS v.g e).setWidth 16 ∧ b.image = v.b.image ∧ footprintOf (readS v.g f) = some b.fp ∧
        (∀ i < n.toNat, tget b.initS i = some (tgetD v.g.s (a.toNat + i) 0)) ∧
        ∀ i < m.toNat, ∃ x, tget b.initC i = some x ∧ x.bits = (tgetD v.g.c (c.toNat + i) { bits := 0, tag := false }).bits) ∧
    (OperandsReady [.hd d, .c c, ssrc o] v → checkRange v (readC v.g c) (readS v.g o).toNat 64 1 pR [0] = none →
      ∃ w p g, exec (.launch h d c o) s = completed h w 0 ∧ kept w ∧ tget w.g.h d.toNat = some (.pending v.st.nextOp) ∧
        tget w.st.ops v.st.nextOp = some p ∧ p.body = .launch v.st.nextGr ∧ tget w.st.graphs v.st.nextGr = some g ∧
        g.base = capBase (readC v.g c) + (readS v.g o).toNat ∧ g.level = 0 ∧ g.part = v.b.part ∧ g.done = none)

/-- TRAP completes (the position moves past it, it is counted) and then raises trap class 3 code 1 with its immediate as data, at its own
word; BRK does so with code 2 when the partition's debug enable is set, and is a NOP otherwise. In a block that is not the handler context
and holds no fault, the trap becomes the block's fault record; no register changes. (R90, R331, R336) -/
def Obligations.SystemTrapsFollowTheirWord : Prop :=
  ∀ (h : Hdr) (k : BitVec 14) (s : State) (v : View), Issues h s v → OperandsReady [] v → isHandler v = false → v.b.fault = none →
    v.b.ending = none → v.g.active ≠ 0 →
    let after := fun (i : Instr) (code : Nat) =>
      ∃ w, exec i s = .next (flush w) ∧ w.b = { v.b with fault := some (faultAt v 3 code 255 0 (k.setWidth 64)) } ∧
        w.g = (retire h v 0).g ∧ SameRegisters w.g v.g ∧ w.g.offset = v.g.offset + (if h.safe then 2 else 1)
    after (.trap h k) 1 ∧
    ((pctl v.st v.b.part 0x11B).getLsbD 0 = true → after (.brk h k) 2) ∧
    ((pctl v.st v.b.part 0x11B).getLsbD 0 = false → exec (.brk h k) s = completed h v 0)

/-- GETS of the identity, sweep, commit and float registers writes the group's or the block's value (in a handler run the handled block's),
zero-extended, to an s-register, or its low 32 bits to each lane of EXEC of a v-register; GETS of %lane writes lane numbers to a
v-register. SETS writes %fflags, %frm (a value up to 4) and %ftrap, and raises an illegal-instruction fault with detail 8 for a value out
of range and for every other number below 0x100; GETS of an unassigned number raises it too. SLDK writes the argument word of the launch,
or of the handler image, 0 past the last. In the handler context GETS of an assigned control register writes the value it reads, and of an
unassigned number raises an illegal-instruction fault. SETS of the cluster mask, bandwidth share, ceilings, children enabled (PCHILD) and
hang limit registers with no bit outside their field stores the value, which then reads back, and changes no other control register; a bit
outside the field, an unassigned number, or in a child partition what its parent lacks (clusters outside PCLUST, a larger share or a sum
of children's shares beyond it, a higher ceiling) raises the fault and stores nothing. (R33, R34, R35, R36, R37, R111, R112, R38, R348) -/
def Obligations.SpecialRegisterResults : Prop :=
  (∀ (h : Hdr) (d a : SReg) (e : VReg) (n : BitVec 10) (k : BitVec 9) (s : State) (v : View) (b : Block), Issues h s v →
    (isHandler v = false ∧ b = v.b ∨ isHandler v = true ∧ ∃ r, runOf v = some r ∧ tget v.st.blocks r.blk = some b) →
    let gid := if isHandler v then 0 else v.gid
    let x := readS v.g a
    let illegal := trapped v 0 0x0A 255 8 0
    (∀ p ∈ ([(0x001, 64), (0x002, BitVec.ofNat 64 gid), (0x003, BitVec.ofNat 64 b.groups.length), (0x004, b.index.setWidth 64),
             (0x005, b.nblocks.setWidth 64), (0x006, b.stage.setWidth 64), (0x007, b.lid.setWidth 64), (0x008, b.seqno.setWidth 64),
             (0x009, b.seed), (0x00A, BitVec.ofNat 64 b.part), (0x00B, BitVec.ofNat 64 (coreReg (blkCore v.b))),
             (0x00C, BitVec.ofNat 64 ((b.place.map (fun p => p.seat + gid)).getD 0)), (0x00D, BitVec.ofNat 64 b.depth),
             (0x00E, BitVec.ofNat 64 (frameDepth v.g)), (0x00F, (topFrame v.g).sweeps.setWidth 64), (0x010, v.g.sround.setWidth 64),
             (0x011, b.commits.setWidth 64), (0x018, v.g.fflags.setWidth 64), (0x019, v.g.frm.setWidth 64),
             (0x01A, v.g.ftrap.setWidth 64)] : List (Nat × W64)),
      (OperandsReady [sdst d] v → n = BitVec.ofNat 10 p.1 →
        exec (.gets h (.s d) n) s = completed h { v with g := writeS v.g d p.2 } 0) ∧
      (OperandsReady [.v e.toNat 1 false true] v → n = BitVec.ofNat 10 p.1 →
        exec (.gets h (.v e) n) s = completed h (writeRow v e.toNat (execOf h v.g) (rowOf (fun _ => p.2.setWidth 32))) 0)) ∧
    (OperandsReady [.v e.toNat 1 false true] v →
      exec (.gets h (.v e) 0) s = completed h (writeRow v e.toNat (execOf h v.g) (rowOf (fun l => BitVec.ofNat 32 l))) 0) ∧
    (OperandsReady [sdst d] v → n.toNat < 0x100 → readUser v n.toNat = none → exec (.gets h (.s d) n) s = illegal) ∧
    (OperandsReady [.v e.toNat 1 false true] v → n ≠ 0 → n.toNat < 0x100 → readUser v n.toNat = none → exec (.gets h (.v e) n) s = illegal) ∧
    (OperandsReady [ssrc a] v →
      (x.toNat < 64 → exec (.sets h 0x018 a) s = completed h { v with g := { v.g with fflags := x.setWidth 6 } } 0) ∧
      (x.toNat ≤ 4 → exec (.sets h 0x019 a) s = completed h { v with g := { v.g with frm := x.setWidth 3 } } 0) ∧
      (x.toNat < 64 → exec (.sets h 0x01A a) s = completed h { v with g := { v.g with ftrap := x.setWidth 6 } } 0) ∧
      (64 ≤ x.toNat → exec (.sets h 0x018 a) s = illegal ∧ exec (.sets h 0x01A a) s = illegal) ∧
      (4 < x.toNat → exec (.sets h 0x019 a) s = illegal) ∧
      (n.toNat < 0x100 → n ≠ 0x018 → n ≠ 0x019 → n ≠ 0x01A → exec (.sets h n a) s = illegal)) ∧
    (OperandsReady [sdst d] v →
      let Loads := fun (args : List W64) => exec (.sldk h d k) s = completed h { v with g := writeS v.g d (args.getD k.toNat 0) } 0
      (isHandler v = false → Loads (((tget v.st.launches v.b.launch).map (fun l => l.args)).getD [])) ∧
      (isHandler v = true → Loads (((partOf v.st v.b.part).himage.map (fun i => i.args)).getD [])))) ∧
  (∀ (h : Hdr) (d a : SReg) (n : BitVec 10) (s : State) (v : View), Issues h s v → isHandler v = true → 0x100 ≤ n.toNat →
    let x := readS v.g a
    let illegal := trapped v 0 0x0A 255 8 0
    (OperandsReady [sdst d] v →
      (∀ w, readCtl v n.toNat = some w → exec (.gets h (.s d) n) s = completed h { v with g := writeS v.g d w } 0) ∧
      (ctlAssigned n.toNat = false → exec (.gets h (.s d) n) s = illegal)) ∧
    (∀ e : VReg, OperandsReady [.v e.toNat 1 false true] v → ∀ w, readCtl v n.toNat = some w →
      exec (.gets h (.v e) n) s = completed h (writeRow v e.toNat (execOf h v.g) (rowOf (fun _ => w.setWidth 32))) 0) ∧
    (OperandsReady [ssrc a] v →
      (ctlAssigned n.toNat = false → exec (.sets h n a) s = illegal) ∧
      let parent := v.b.part % 16
      (128 ≤ v.b.part → v.b.part < 256 → n = 0x110 → x &&& ~~~(pctl v.st parent 0x110) ≠ 0 → exec (.sets h n a) s = illegal) ∧
      (128 ≤ v.b.part → v.b.part < 256 → n = 0x113 → (pctl v.st parent 0x113).toNat < x.toNat → exec (.sets h n a) s = illegal) ∧
      (128 ≤ v.b.part → v.b.part < 256 → n = 0x114 → ∀ i < 4, (fld (pctl v.st parent 0x114) (16 * i) 16).toNat < (fld x (16 * i) 16).toNat →
        exec (.sets h n a) s = illegal) ∧
      ∀ p ∈ ([(0x110, 0xFFFFFFFFFFFFFFFF), (0x113, 0xFF), (0x114, 0xFFFFFFFFFFFFFFFF), (0x117, 0xFFFFFFFF), (0x11A, 0xFF)] : List (Nat × W64)),
        n = BitVec.ofNat 10 p.1 →
        (x &&& ~~~p.2 ≠ 0 → exec (.sets h n a) s = illegal) ∧
        (128 ≤ v.b.part → childRange (flush v) parent v.b.part p.1 x = false → exec (.sets h n a) s = illegal) ∧
        (x &&& ~~~p.2 = 0 → (128 ≤ v.b.part → childRange (flush v) parent v.b.part p.1 x = true) → ∃ w, exec (.sets h n a) s = completed h w 0 ∧ pctl w.st v.b.part p.1 = x ∧
          (∀ q m, (q, m) ≠ (v.b.part, p.1) → pctl w.st q m = pctl v.st q m) ∧ w.g = v.g ∧ w.b.groups = listSet v.b.groups v.gid v.g)))

/-- FADD, FSUB, FMUL, FFMA and FSQRT, once past the checks of R54, give every slot of every lane of EXEC the operation of R133 or R138 on the
decoded elements, rounded once in the effective mode of R131 with that lane's draw; FMIN, FMAX, FABS and FNEG round nothing. The flags are
the OR over the lanes and slots, and a stochastic mode advances %sround once. (R126, R131, R133, R138, R143, R145) -/
def Obligations.FloatArithmeticResults : Prop :=
  ∀ (h : Hdr) (t : Ty) (r : Rm) (d a b c : VReg) (s : State) (v : View), Issues h s v →
    let ex := execOf h v.g
    let F := fmtOf t
    let Result := fun (i : Instr) (mode : RMode) (q : View × List Row) (f : Nat → (Nat → Nat) → Nat × Flg) =>
      ∃ (row : Row) (fl : BitVec 6), exec i s = completed h (bumpRound (writeRow q.1 d.toNat ex row) mode) fl ∧
        (∀ l < 64, ex.getLsbD l = true → rget row l =
          (perSlot t (fun j => f (drawOf q.1 mode l j) (fun m => slotVal t (rget (q.2.getD m zeroRow) l) j))).1) ∧
        ∀ k < 6, fl.getLsbD k = true ↔ ∃ l < 64, ex.getLsbD l = true ∧
          (perSlot t (fun j => f (drawOf q.1 mode l j) (fun m => slotVal t (rget (q.2.getD m zeroRow) l) j))).2.getLsbD k = true
    let m := effMode r v.g.frm
    let rn := effMode .rn v.g.frm
    (OperandsReady [vsrc t a, vsrc t b, vdst t d] v →
      let q := readRows ex [vsrc t a, vsrc t b, vdst t d] v
      Result (.fadd h t r d a b) m q (fun n x => addV F m n (decF F (x 0)) (decF F (x 1))) ∧
      Result (.fsub h t r d a b) m q (fun n x => addV F m n (decF F (x 0)) (negV (decF F (x 1)))) ∧
      Result (.fmul h t r d a b) m q (fun n x => mulV F m n (decF F (x 0)) (decF F (x 1))) ∧
      Result (.fmin h t d a b) rn q (fun _ x => minmaxF F false (x 0) (x 1)) ∧
      Result (.fmax h t d a b) rn q (fun _ x => minmaxF F true (x 0) (x 1))) ∧
    (OperandsReady [vsrc t a, vsrc t b, vsrc t c, vdst t d] v →
      let q := readRows ex [vsrc t a, vsrc t b, vsrc t c, vdst t d] v
      Result (.ffma h t r d a b c) m q (fun n x => fmaV F m n (decF F (x 0)) (decF F (x 1)) (decF F (x 2)))) ∧
    (OperandsReady [vsrc t a, vdst t d] v →
      let q := readRows ex [vsrc t a, vdst t d] v
      Result (.fsqrt h t r d a) m q (fun n x => fsqrtF F m n (x 0)) ∧
      Result (.fabs h t d a) rn q (fun _ x => (x 0 % signBit F, 0)) ∧
      Result (.fneg h t d a) rn q (fun _ x => ((x 0 + signBit F) % (2 * signBit F), 0)) ∧
      Result (.frcp h t d a) rn q (fun _ x => frcpF F (t == .f16) (x 0)) ∧
      Result (.frsq h t d a) rn q (fun _ x => frsqF F (t == .f16) (x 0)) ∧
      Result (.fexp2 h t d a) rn q (fun _ x => fexp2F F (t == .f16) (x 0)) ∧
      Result (.flog2 h t d a) rn q (fun _ x => flog2F F (t == .f16) (x 0)) ∧
      Result (.fsin h t d a) rn q (fun _ x => fsinF F (t == .f16) (x 0)) ∧
      Result (.fcos h t d a) rn q (fun _ x => fcosF F (t == .f16) (x 0)) ∧
      Result (.ftanh h t d a) rn q (fun _ x => ftanhF F (t == .f16) (x 0)))

/-- For each format: FMIN and FMAX of exactly one NaN give the other operand and of two NaNs the canonical NaN, with NV exactly for a
signalling one, and no other flag; of two other values FMIN gives the lesser and FMAX the greater, as FCMP orders them, without a flag,
with -0 below +0; FABS and FNEG raise no flag. Of the special functions, for .f32 and .f16, the table of R139: a NaN input gives the
canonical NaN, with NV exactly when it is signalling; FRCP and FRSQ of a zero give the infinity of its sign with DZ, FLOG2 of a zero
-infinity with DZ, FSQRT, FSIN and FTANH the zero itself, FEXP2 and FCOS one; FLOG2 of one gives +0; FRSQ, FSQRT and FLOG2 of a negative
number give the canonical NaN with NV, and so do FSIN and FCOS of an infinity; of an infinity FRCP gives the zero of its sign, FTANH the
unit of its sign, FEXP2 +0 or +infinity, and of +infinity FRSQ gives +0, FSQRT and FLOG2 +infinity; FEXP2 of a finite input whose power is
beyond the range gives +infinity with OF. (R133, R134, R138, R139) -/
def Obligations.FloatSpecialInputs : Prop :=
  (∀ t ∈ [Ty.f32, Ty.f16, Ty.bf16], ∀ (mx : Bool) (x y : Nat),
    let F := fmtOf t
    let nv := fun (s : Bool) => if s then fNV else 0
    let fx := decF F x
    let fy := decF F y
    (isNan fx = true → isNan fy = false → minmaxF F mx x y = (y, nv (isSnan fx))) ∧
    (isNan fx = false → isNan fy = true → minmaxF F mx x y = (x, nv (isSnan fy))) ∧
    (isNan fx = true → isNan fy = true → minmaxF F mx x y = (nanBits F, nv (isSnan fx || isSnan fy))) ∧
    (isNan fx = false → isNan fy = false → x < 2 * signBit F → y < 2 * signBit F → ∃ z, minmaxF F mx x y = (z, 0) ∧ (z = x ∨ z = y) ∧
      (mx = false → cmpF F z x ≤ 0 ∧ cmpF F z y ≤ 0) ∧ (mx = true → 0 ≤ cmpF F z x ∧ 0 ≤ cmpF F z y)) ∧
    minmaxF F false (signBit F) 0 = (signBit F, 0) ∧ minmaxF F false 0 (signBit F) = (signBit F, 0) ∧
    minmaxF F true (signBit F) 0 = (0, 0) ∧ minmaxF F true 0 (signBit F) = (0, 0)) ∧
  (∀ (h : Hdr) (t : Ty) (d a : VReg) (s : State) (v : View), Issues h s v → OperandsReady [vsrc t a, vdst t d] v →
    (∃ w, exec (.fabs h t d a) s = completed h w 0) ∧ ∃ w, exec (.fneg h t d a) s = completed h w 0) ∧
  (∀ t ∈ [Ty.f32, Ty.f16], ∀ (half : Bool) (m : RMode) (n x : Nat),
    let F := fmtOf t
    let nan := nanBits F
    let inf := infBits F
    let one := F.bias * 2 ^ F.fb
    (∀ sg, decF F x = .nan sg →
      ∀ f ∈ [frcpF F half, frsqF F half, fexp2F F half, flog2F F half, fsinF F half, fcosF F half, ftanhF F half, fsqrtF F m n],
        f x = (nan, if sg then fNV else 0)) ∧
    (∀ z, decF F x = .fin z → z.m = 0 →
      frcpF F half x = (withSign F z.neg inf, fDZ) ∧ frsqF F half x = (withSign F z.neg inf, fDZ) ∧ flog2F F half x = (withSign F true inf, fDZ) ∧
      fsqrtF F m n x = (withSign F z.neg 0, 0) ∧ fexp2F F half x = (one, 0) ∧ fsinF F half x = (x, 0) ∧ fcosF F half x = (one, 0) ∧
      ftanhF F half x = (x, 0)) ∧
    flog2F F half one = (0, 0) ∧
    (∀ z, decF F x = .fin z → z.neg = false → (0 ≤ z.e → F.bias + 1 ≤ z.m * 2 ^ z.e.toNat) →
      (z.e < 0 → (F.bias + 1) * 2 ^ (-z.e).toNat ≤ z.m) → fexp2F F half x = (inf, fOF)) ∧
    (∀ z, decF F x = .fin z → z.m ≠ 0 → z.neg = true →
      frsqF F half x = (nan, fNV) ∧ fsqrtF F m n x = (nan, fNV) ∧ flog2F F half x = (nan, fNV)) ∧
    (∀ neg, decF F x = .inf neg →
      fsinF F half x = (nan, fNV) ∧ fcosF F half x = (nan, fNV) ∧ frcpF F half x = (withSign F neg 0, 0) ∧
      fexp2F F half x = (if neg then 0 else inf, 0) ∧ ftanhF F half x = (withSign F neg one, 0) ∧
      (frsqF F half x = if neg then (nan, fNV) else (0, 0)) ∧ (flog2F F half x = if neg then (nan, fNV) else (inf, 0)) ∧
      fsqrtF F m n x = if neg then (nan, fNV) else (inf, 0)))

/-- For every format with a sign (FP32, FP16, BF16, E4M3, E5M2), every mode but stochastic, and every bit pattern of the format that decodes
to a finite number, rounding that number into the format gives the same pattern and raises no flag. (R124, R125, R131, R132) -/
def Obligations.RoundingKeepsRepresentableValues : Prop :=
  ∀ t ∈ [Ty.f32, Ty.f16, Ty.bf16, Ty.e4m3, Ty.e5m2], ∀ (m : RMode) (x : Nat) (z : Dy),
    x < 2 * signBit (fmtOf t) → m ≠ .st → decF (fmtOf t) x = .fin z → roundF (fmtOf t) m 0 z = (x, 0)

/-- FCMP writes, in the lanes of EXEC only, whether its condition holds between the elements of the slot it names, and raises NV as R135 gives
it: for lt, le, gt and ge on any NaN, else on a signalling one. FCLASS writes one class bit per slot. FSTAT waits under reason 1 while an
operation of the group may still raise flags; else it writes %fflags and clears the bits of its mask. FMODE writes %frm and sets it. (R29,
R135, R136, R137) -/
def Obligations.FloatCompareClassAndStatusResults : Prop :=
  ∀ (h : Hdr) (t : Ty) (d : PReg) (e : SReg) (a b c : VReg) (slot : Bool) (mask : BitVec 6) (mode : BitVec 3) (s : State) (v : View),
    Issues h s v →
    let ex := execOf h v.g
    let F := fmtOf t
    (OperandsReady [vsrc t a, vsrc t b] v →
      let q := readRows ex [vsrc t a, vsrc t b] v
      let x := fun l => slotVal t (rget (q.2.getD 0 zeroRow) l) (if slot then 1 else 0)
      let y := fun l => slotVal t (rget (q.2.getD 1 zeroRow) l) (if slot then 1 else 0)
      let un := fun l => isNan (decF F (x l)) || isNan (decF F (y l))
      let sn := fun l => isSnan (decF F (x l)) || isSnan (decF F (y l))
      let ord := fun l => cmpF F (x l) (y l)
      ∀ k ∈ ([(.eq, fun l => un l = false ∧ ord l = 0, sn), (.ne, fun l => un l = true ∨ ord l ≠ 0, sn),
              (.lt, fun l => un l = false ∧ ord l < 0, un), (.le, fun l => un l = false ∧ ord l ≤ 0, un),
              (.gt, fun l => un l = false ∧ ord l > 0, un), (.ge, fun l => un l = false ∧ ord l ≥ 0, un),
              (.un, fun l => un l = true, sn), (.ord, fun l => un l = false, sn)] : List (FCond × (Nat → Prop) × (Nat → Bool))),
        ∃ (g : Group) (fl : BitVec 6), exec (.fcmp h t d a b k.1 slot) s = completed h { q.1 with g := g } fl ∧
          g = { q.1.g with p := g.p } ∧ (∀ x, x ≠ d → readP g x = readP q.1.g x) ∧
          (d ≠ 0 → ∀ l < 64, (ex.getLsbD l = true → ((readP g d).getLsbD l = true ↔ k.2.1 l)) ∧
            (ex.getLsbD l = false → (readP g d).getLsbD l = (tgetD q.1.g.p d.toNat 0).getLsbD l)) ∧
          (fl = 0 ∨ fl = fNV) ∧ (fl = fNV ↔ ∃ l < 64, ex.getLsbD l = true ∧ k.2.2 l = true)) ∧
    (OperandsReady [vsrc t a, vdst t c] v →
      let q := readRows ex [vsrc t a, vdst t c] v
      let cls := fun l i => 2 ^ classF F (slotVal t (rget (q.2.getD 0 zeroRow) l) i)
      exec (.fclass h t c a) s = completed h (writeRow q.1 c.toNat ex
        (rowOf (fun l => BitVec.ofNat 32 (if tyWidth t = 16 then cls l 0 + cls l 1 * 65536 else cls l 0)))) 0) ∧
    (OperandsReady [sdst e] v →
      (flagsPending v = true → exec (.fstat h e mask) s = .next (flush (stallView h v 1))) ∧
      (flagsPending v = false →
        exec (.fstat h e mask) s =
          completed h { v with g := writeS { v.g with fflags := v.g.fflags &&& ~~~mask } e (v.g.fflags.setWidth 64) } 0) ∧
      exec (.fmode h e mode) s = completed h { v with g := writeS { v.g with frm := mode } e (v.g.frm.setWidth 64) } 0)

/-- CVT and CVTSR give each lane of EXEC the conversion of its source element in the effective mode (CVTSR: stochastic, advancing %sround
once) in the destination slot, the other slots keeping their contents (an element pushed to a queue: a free value, log 37), or in the
register or pair of a wide type. QSCALE writes the scale byte of the lane's block, QPACK its 32 codes, eight to a register, and QUNPK the
32 values of its codes; flags are the OR over the lanes of EXEC. (R128, R129, R140, R143, R145, R146, R147, R148) -/
def Obligations.ConversionResults : Prop :=
  ∀ (h : Hdr) (src dst t : Ty) (r : Rm) (d a b : VReg) (ss ds bs : BitVec 2) (ct : CodeTy) (s : State) (v : View), Issues h s v →
    let ex := execOf h v.g
    let n := Machine.blkRegs t
    (armed v.g d.toNat = none → keptRow v d = (readV v.g d.toNat, v)) ∧
    (OperandsReady [vsrc src a, vdst dst d] v →
      let q := readRows ex [vsrc src a, vdst dst d] v
      ∀ i m, ((i = .cvt h src dst r d a ss ds ∧ m = effMode r v.g.frm) ∨ (i = .cvtsr h src dst d a ss ds ∧ m = RMode.st)) →
        let u := (keptRow q.1 d).2
        let old := (keptRow q.1 d).1
        let z := fun l => convert src dst m (drawOf q.1 m l ds.toNat) (srcElem src q.2 ss.toNat l)
        ∃ (x : Nat → W64) (fl : BitVec 6), (∀ l < 64, ex.getLsbD l = true → x l = (z l).1) ∧
          (∀ k < 6, fl.getLsbD k = true ↔ ∃ l < 64, ex.getLsbD l = true ∧ (z l).2.getLsbD k = true) ∧
          exec i s = completed h (bumpRound (if tyWidth dst < 32
            then writeRow u d.toNat ex (rowOf (fun l => putSlot dst (rget old l) ds.toNat (x l)))
            else writeElems q.1 dst d ex x) m) fl) ∧
    (OperandsReady [.v a.toNat n true false, vdst .n32 d] v →
      let q := readRows ex [.v a.toNat n true false, vdst .n32 d] v
      let u := (keptRow q.1 d).2
      let old := (keptRow q.1 d).1
      let z := fun l => qscaleOf (ctNat ct) ((List.range 32).map (fun e => decF (fmtOf t) (blkElem t q.2 l e)))
      ∃ (row : Row) (fl : BitVec 6), exec (.qscale h t d a bs ct) s = completed h (writeRow u d.toNat ex row) fl ∧
        (∀ l < 64, ex.getLsbD l = true → rget row l = putByte (rget old l) bs.toNat (ctNat ct * 64 + (z l).1)) ∧
        ∀ k < 6, fl.getLsbD k = true ↔ ∃ l < 64, ex.getLsbD l = true ∧ (z l).2.getLsbD k = true) ∧
    (OperandsReady [.v a.toNat n true false, vsrc .n32 b, .v d.toNat 4 false true] v →
      let q := readRows ex [.v a.toNat n true false, vsrc .n32 b, .v d.toNat 4 false true] v
      let m := effMode r v.g.frm
      let z := fun l e => qcode (byteOf (rget (q.2.getD n zeroRow) l) bs.toNat) m (drawOf q.1 m l e) (decF (fmtOf t) (blkElem t q.2 l e))
      ∃ (rs : List Row) (fl : BitVec 6), rs.length = 4 ∧
        exec (.qpack h t r d a b bs) s = completed h (bumpRound (writeRows q.1 d.toNat ex rs) m) fl ∧
        (∀ l < 64, ex.getLsbD l = true → ∀ k < 4, rget (rs.getD k zeroRow) l =
          BitVec.ofNat 32 (((List.range 8).map (fun i => (z l (8 * k + i)).1 * 16 ^ i)).sum)) ∧
        ∀ k < 6, fl.getLsbD k = true ↔ ∃ l < 64, ex.getLsbD l = true ∧ ∃ e < 32, (z l e).2.getLsbD k = true) ∧
    (OperandsReady [.v a.toNat 4 true false, vsrc .n32 b, .v d.toNat n false true] v →
      let q := readRows ex [.v a.toNat 4 true false, vsrc .n32 b, .v d.toNat n false true] v
      let x := fun l e => unpackCode (fmtOf t) (byteOf (rget (q.2.getD 4 zeroRow) l) bs.toNat)
        ((rget (q.2.getD (e / 8) zeroRow) l).toNat / 16 ^ (e % 8) % 16)
      ∃ rs : List Row, rs.length = n ∧ exec (.qunpk h t d a b bs) s = completed h (writeRows q.1 d.toNat ex rs) 0 ∧
        ∀ l < 64, (t = .f32 → ∀ e < 32, rget (rs.getD e zeroRow) l = BitVec.ofNat 32 (x l e)) ∧
          (t ≠ .f32 → ∀ k < 16, rget (rs.getD k zeroRow) l = BitVec.ofNat 32 (x l (2 * k) + 65536 * x l (2 * k + 1))))

/-- PLANE of a matrix type of P bits, once past the checks of R54, writes P registers: bit e of plane p of a lane is bit p of element e of
that lane, elements lying 32/P to a register from the lowest bits up. No flag is raised. (R197) -/
def Obligations.PlaneTransposesBits : Prop :=
  ∀ (h : Hdr) (t : Ty) (d a : VReg) (s : State) (v : View), Issues h s v → tyMat t = true →
    let P := tyWidth t
    OperandsReady [.v a.toNat P true false, .v d.toNat P false true] v →
    let ex := execOf h v.g
    let q := readRows ex [.v a.toNat P true false, .v d.toNat P false true] v
    ∃ rs : List Row, rs.length = P ∧ exec (.plane h t d a) s = completed h (writeRows q.1 d.toNat ex rs) 0 ∧
      ∀ p < P, ∀ l < 64, ∀ e < 32, (rget (rs.getD p zeroRow) l).getLsbD e =
        (rget (q.2.getD (e / (32 / P)) zeroRow) l).getLsbD (P * (e % (32 / P)) + p)

/-- Once past the checks of R54, with every lane of EXEC passing CheckAccess and no range entry of the group in the way, LDS completes without
a flag and gives each lane of EXEC the little-endian value of the bytes at its address (zero-extended, over two or four registers for the
wide forms), or for .cap a predicate with the tag of its granule. In an ordinary block and space 1 these are the bytes of the block's
scratchpad. The block and the memory are unchanged. A lane that fails CheckAccess makes the lowest such lane's access trap, and an
overlapping inbound range holds the load under reason 2. (R157, R163, R164, R173, 06_memory_instructions.md) -/
def Obligations.ScratchpadLoadResults : Prop :=
  ∀ (h : Hdr) (w : Width) (d : VReg) (c : CReg) (x : MemOff) (disp : W16) (s : State) (v : View), Issues h s v →
    OperandsReady (ldsOps w d c x) v →
    let ex := execOf h v.g
    let q := readRows ex (ldsOps w d c x) v
    let cap := readC v.g c
    let off := memOff v.g x disp q.2
    let at' := fun l => (capBase cap + off l).toNat
    let n := widthBytes w
    (∀ r, ldsCheck q.1 w ex cap off = some r → exec (.lds h w d c x disp) s = .next (flush (conclude h v (passOn v q r)))) ∧
    (ldsCheck q.1 w ex cap off = none → bytesHeld q.1 (allBytes cap ex off n) false = true →
      ∃ u, exec (.lds h w d c x disp) s = .next (flush (stallView h u 2)) ∧ (q.2 ≠ [] → u = v)) ∧
    (ldsCheck q.1 w ex cap off = none → bytesHeld q.1 (allBytes cap ex off n) false = false →
      (w ≠ .wcap → ∃ val : Nat → Nat,
        (∀ l < 64, ex.getLsbD l = true → val l = leNat (loadBytes q.1 (capSpace cap) (at' l) n l) ∧
          (isHandler v = false → capSpace cap = 1 → val l = leNat (bgets v.b.scratch (at' l) n))) ∧
        exec (.lds h w d c x disp) s = completed h ((List.range (widthRegs w)).foldl (fun u k =>
          writeRow u (d.toNat + k) ex (rowOf (fun l => BitVec.ofNat 32 (val l / 2 ^ (32 * k))))) q.1) 0) ∧
      (w = .wcap → exec (.lds h w d c x disp) s = completed h
        { q.1 with g := writeP q.1.g (d.setWidth 3) ex (maskOf (fun l => (scrBlock q.1).tags.contains (at' l / 16))) } 0))

/-- Once past the checks, with every lane of EXEC passing CheckAccess and no range entry of the group in the way, STS completes without a
flag. In an ordinary block and space 1: every scratchpad byte outside the bytes of the lanes' accesses reads as before; a byte that a lane
of EXEC stores to and no higher lane does holds that lane's byte, little-endian; the tags of the granules stored to are cleared;
registers, queues but those popped, the rest of the block and the rest of the machine are unchanged. (R155, R157, R164, R173) -/
def Obligations.ScratchpadStoreResults : Prop :=
  ∀ (h : Hdr) (w : Width) (d : VReg) (c : CReg) (x : MemOff) (disp : W16) (s : State) (v : View), Issues h s v →
    OperandsReady (stsOps w d c x) v →
    let ex := execOf h v.g
    let q := readRows ex (stsOps w d c x) v
    let cap := readC v.g c
    let off := memOff v.g x disp q.2
    let at' := fun l => (capBase cap + off l).toNat
    let n := widthBytes w
    let rows := dataRows x q.2
    let word := fun l => ((List.range (widthRegs w)).map (fun k => (rget (rows.getD k zeroRow) l).toNat * 2 ^ (32 * k))).sum
    (∀ r, checkLanes q.1 ex cap off n pW [1, 2] false = some r →
      exec (.sts h w d c x disp) s = .next (flush (conclude h v (passOn v q r)))) ∧
    (checkLanes q.1 ex cap off n pW [1, 2] false = none → bytesHeld q.1 (allBytes cap ex off n) true = false →
      exec (.sts h w d c x disp) s = completed h (storeEffect q.1 w rows cap ex off) 0 ∧
      (isHandler v = false → capSpace cap = 1 →
        let u := storeEffect q.1 w rows cap ex off
        u.g = q.1.g ∧ u.st = q.1.st ∧ u.b = { v.b with scratch := u.b.scratch, tags := u.b.tags } ∧
        (∀ a, (∀ l < 64, ex.getLsbD l = true → a < at' l ∨ at' l + n ≤ a) → bget u.b.scratch a = bget v.b.scratch a) ∧
        (∀ l < 64, ex.getLsbD l = true → ∀ i < n,
          (∀ k, l < k → k < 64 → ex.getLsbD k = true → at' l + i < at' k ∨ at' k + n ≤ at' l + i) →
          bget u.b.scratch (at' l + i) = BitVec.ofNat 8 (word l / 256 ^ i)) ∧
        (∀ l < 64, ex.getLsbD l = true → ∀ i < n, (at' l + i) / 16 ∉ u.b.tags)))

/-- Once past the checks, with every lane of EXEC passing CheckAccess and no range entry in the way, each ATOMS lets the lanes of EXEC act in
ascending order, each on the word the lanes before it left, and writes the old values to v(D). With one lane in EXEC, in an ordinary block
and space 1, the word at its address becomes the sum, and, or, exclusive or, signed minimum or maximum, the operand, the second operand
when the word equals the first (CAS), or the FP32 sum whose flags are raised (FADD), no other byte changes, and the lane gets the word's
old value. (R155, R166, 06_memory_instructions.md) -/
def Obligations.ScratchpadAtomicResults : Prop :=
  ∀ (h : Hdr) (sc : Scope) (d : VReg) (c : CReg) (x : MemOff) (disp : W16) (s : State) (v : View), Issues h s v →
    let ex := execOf h v.g
    let cap := readC v.g c
    ∀ p ∈ ([(.atomsAdd h sc d c x disp, .add), (.atomsAnd h sc d c x disp, .and), (.atomsOr h sc d c x disp, .or),
            (.atomsXor h sc d c x disp, .xor), (.atomsMin h sc d c x disp, .min), (.atomsMax h sc d c x disp, .max),
            (.atomsExch h sc d c x disp, .exch), (.atomsCas h sc d c x disp, .cas),
            (.atomsFadd h sc d c x disp, .fadd)] : List (Instr × AtomOp)),
      let ops := [Opd.c c] ++ offOps x ++
        (if p.2 = .cas then [Opd.v d.toNat 2 true false, Opd.v d.toNat 1 false true] else [Opd.v d.toNat 1 true true])
      OperandsReady ops v →
      let q := readRows ex ops v
      let off := memOff v.g x disp q.2
      checkLanes q.1 ex cap off 4 pA [1, 2] false = none → bytesHeld q.1 (allBytes cap ex off 4) true = false →
      let r := (laneList ex).foldl (atomsLane p.2 (dataRows x q.2) cap off) (scrBlock q.1, [], 0)
      exec p.1 s = completed h (writeRow (setScr q.1 r.1) d.toNat ex (rowOf (fun l => tgetD r.2.1 l 0))) r.2.2 ∧
      ∀ l, laneList ex = [l] → isHandler v = false → capSpace cap = 1 →
        let a := (capBase cap + off l).toNat
        let old := leNat (bgets v.b.scratch a 4)
        let y := (rget ((dataRows x q.2).getD 0 zeroRow) l).toNat
        let z := (rget ((dataRows x q.2).getD 1 zeroRow) l).toNat
        let int := fun (n : Nat) => (BitVec.ofNat 32 n).toInt
        let new : Nat := match p.2 with
          | .add => (old + y) % 2 ^ 32
          | .and => old &&& y
          | .or => old ||| y
          | .xor => old ^^^ y
          | .min => if int y < int old then y else old
          | .max => if int old < int y then y else old
          | .exch => y
          | .cas => if old = y then z else old
          | .fadd => (add32 old y).1 % 2 ^ 32
        leNat (bgets r.1.scratch a 4) = new ∧ (∀ b, b < a ∨ a + 4 ≤ b → bget r.1.scratch b = bget v.b.scratch b) ∧
        tgetD r.2.1 l 0 = BitVec.ofNat 32 old ∧ (p.2 ≠ .fadd → r.2.2 = 0) ∧ (p.2 = .fadd → r.2.2 = (add32 old y).2)

/-- TAGLK writes the lowest valid slot that holds the key, or 0xFFFF, to an s-register, or for each lane of EXEC to a v-register. TAGSET puts
the key into its slot and makes every other slot that held it invalid; TAGINV makes its slot invalid; other slots stay, and a slot number
at or above the slot count (one per KiB of scratchpad) raises contract fault 6. No flag is raised. (R167, R168) -/
def Obligations.TagTableResults : Prop :=
  ∀ (h : Hdr) (d x : SReg) (e y : VReg) (s : State) (v : View), Issues h s v → tsorted v.b.slots = true →
    let found := fun (key : W64) (n : Nat) =>
      (n = 0xFFFF ∧ ∀ k, tget v.b.slots k ≠ some key) ∨ (tget v.b.slots n = some key ∧ ∀ k < n, tget v.b.slots k ≠ some key)
    let k := readS v.g d
    (OperandsReady [ssrc x, sdst d] v →
      ∃ n, found (readS v.g x) n ∧ exec (.taglk h (.s d x)) s = completed h { v with g := writeS v.g d (BitVec.ofNat 64 n) } 0) ∧
    (OperandsReady [vsrc .n64 y, vdst .n32 e] v →
      let q := readRows (execOf h v.g) [vsrc .n64 y, vdst .n32 e] v
      ∃ n : Nat → Nat, (∀ l, found (elem .n64 q.2 0 l) (n l)) ∧
        exec (.taglk h (.v e y)) s = completed h (writeRow q.1 e.toNat (execOf h v.g) (rowOf (fun l => BitVec.ofNat 32 (n l)))) 0) ∧
    (OperandsReady [ssrc x, ssrc d] v →
      (v.b.fp.scratch ≤ k.toNat → exec (.tagset h d x) s = trapped v 0 6 255 8 0) ∧
      (k.toNat < v.b.fp.scratch → ∃ t, exec (.tagset h d x) s = completed h { v with b := { v.b with slots := t } } 0 ∧
        tget t k.toNat = some (readS v.g x) ∧
        ∀ j, j ≠ k.toNat → tget t j = if tget v.b.slots j = some (readS v.g x) then none else tget v.b.slots j)) ∧
    (OperandsReady [ssrc d] v →
      (v.b.fp.scratch ≤ k.toNat → exec (.taginv h d) s = trapped v 0 6 255 8 0) ∧
      (k.toNat < v.b.fp.scratch → ∃ t, exec (.taginv h d) s = completed h { v with b := { v.b with slots := t } } 0 ∧
        tget t k.toNat = none ∧ ∀ j, j ≠ k.toNat → tget t j = tget v.b.slots j))

/-- CAPSUB of a tagged capability with D whose part [o, o + n) lies within it writes that part, other fields kept; an untagged source, one
without D and a part outside it trap as failures 1, 4 and 5 of CheckAccess. CAPPERM ANDs the permissions. CAPGET reads one field; CAPOFF
writes a generic address as an offset under a tagged capability, or all ones outside it. CAPLD loads 16 bytes and keeps the granule's tag
only through a capability with L; CAPST stores 16 bytes and sets the granule's tag exactly when the value is tagged (and the check then
asks for T). No flag is raised. (R154, R155, R159, R160, R161, R162) -/
def Obligations.CapabilityResults : Prop :=
  ∀ (h : Hdr) (d c : CReg) (e x : SReg) (m : BitVec 8) (f : BitVec 3) (o : CapOff) (disp : W16) (s : State) (v : View), Issues h s v →
    let cap := readC v.g c
    let size : Int := (capLimit cap : Int) - capBase cap
    let fails := fun (n : Nat) => (.next (flush (conclude h v (capFault n cap))) : Out)
    let put := fun (y : Cap) => completed h { v with g := writeC v.g d y } 0
    let putS := fun (y : W64) => completed h { v with g := writeS v.g e y } 0
    (OperandsReady [.c c, .s x.toNat 2 true false] v →
      let p := (readS v.g x).toNat
      let n := (readS v.g (x + 1)).toNat
      (cap.tag = false → exec (.capsub h d c x) s = fails 1) ∧
      (cap.tag = true → capPerm cap &&& pD = 0 → exec (.capsub h d c x) s = fails 4) ∧
      (cap.tag = true → capPerm cap &&& pD ≠ 0 → size < (p + n : Nat) → exec (.capsub h d c x) s = fails 5) ∧
      (cap.tag = true → capPerm cap &&& pD ≠ 0 → ((p + n : Nat) : Int) ≤ size →
        ∃ y, exec (.capsub h d c x) s = put y ∧ y.tag = true ∧ capBase y = capBase cap + p ∧ capLimit y = capBase cap + p + n ∧
          capPerm y = capPerm cap ∧ capSpace y = capSpace cap)) ∧
    (OperandsReady [.c c] v →
      (cap.tag = false → exec (.capperm h d c m) s = fails 1) ∧
      (cap.tag = true → m.getLsbD 0 = false → ∃ y, exec (.capperm h d c m) s = put y ∧ y.tag = true ∧ capPerm y = capPerm cap &&& m ∧
        capBase y = capBase cap ∧ capLimit y = capLimit cap ∧ capSpace y = capSpace cap)) ∧
    (OperandsReady [.c c, sdst e] v →
      (f = 0 → exec (.capget h e c f) s = putS (BitVec.ofNat 64 (apertureBase (capSpace cap) + capBase cap))) ∧
      (f = 1 → exec (.capget h e c f) s = putS (BitVec.ofNat 64 (apertureBase (capSpace cap) + capLimit cap))) ∧
      (f = 2 → exec (.capget h e c f) s = putS ((capPerm cap).setWidth 64)) ∧
      (f = 3 → exec (.capget h e c f) s = putS (BitVec.ofNat 64 (capSpace cap))) ∧
      (f = 4 → exec (.capget h e c f) s = putS (if cap.tag then 1 else 0)) ∧
      (f = 5 → exec (.capget h e c f) s = putS (BitVec.ofInt 64 size))) ∧
    (OperandsReady [.c c, ssrc x, sdst e] v →
      let a := (readS v.g x).toNat
      let lo := apertureBase (capSpace cap) + capBase cap
      (cap.tag = false → exec (.capoff h e c x) s = fails 1) ∧
      (cap.tag = true → lo ≤ a → a < apertureBase (capSpace cap) + capLimit cap → exec (.capoff h e c x) s = putS (BitVec.ofNat 64 (a - lo))) ∧
      (cap.tag = true → (a < lo ∨ apertureBase (capSpace cap) + capLimit cap ≤ a) → exec (.capoff h e c x) s = putS 0xFFFFFFFFFFFFFFFF)) ∧
    (let off := capOffVal v.g o disp
     let a := (capBase cap + off).toNat
     let val := readC v.g d
     (OperandsReady ([.c c] ++ capOffOps o) v → isHandler v = false → check1 v cap off 16 pR [1] = none →
       bytesHeld v (byteAddrs 1 a 16 0) false = false →
       exec (.capld h d c o disp) s = put { bits := BitVec.ofNat 128 (leNat (bgets v.b.scratch a 16)),
                                            tag := v.b.tags.contains (a / 16) && (capPerm cap &&& pL != 0) }) ∧
     (OperandsReady ([.c c] ++ capOffOps o ++ [.c d]) v → isHandler v = false →
       check1 v cap off 16 (if val.tag then pW ||| pT else pW) [1] = none → bytesHeld v (byteAddrs 1 a 16 0) true = false →
       ∃ u : Block, exec (.capst h d c o disp) s = completed h { v with b := u } 0 ∧ u = { v.b with scratch := u.scratch, tags := u.tags } ∧
         bgets u.scratch a 16 = leBytes 16 val.bits.toNat ∧ (∀ k, k < a ∨ a + 16 ≤ k → bget u.scratch k = bget v.b.scratch k) ∧
         (a / 16 ∈ u.tags ↔ val.tag = true) ∧
         ∀ g, g ≠ a / 16 → g ≠ (a + 15) / 16 → (g ∈ u.tags ↔ g ∈ v.b.tags)))

/-- Once past the checks of R54 and of R169 to R171, with an entry of the range scoreboard free, COPY starts a copy of the command that its
registers hold, and GATHER or SCATTER one of the rows of EXEC's lanes, each with a range entry over its scratchpad span; a reserved bit or
an extent of 0 is illegal, a failed check traps, a full scoreboard holds the instruction under reason 2, and a rate controller whose
bucket lacks a flit under reason 13; every other register and memory keep their contents. The engine then moves an inbound element to the
scratchpad bytes at its address and no others, and stores an outbound one, the scratchpad bytes at its address, as provisional bytes of
its block at its global address and nowhere else; a command whose elements have all moved releases its range entry and finishes with
status 0, or 0x0101 when a page was not resident. (R169, R170, R172, R173, R174, R187, R31, 06_memory_instructions.md) -/
def Obligations.CopyEngineResults : Prop :=
  (∀ (h : Hdr) (t : Ty) (d : HReg) (g c : CReg) (a b x : SReg) (i : VReg) (out plane : Bool) (s : State) (v : View), Issues h s v →
    let cg := readC v.g g
    let cs := readC v.g c
    let Goes := fun (ins : Instr) (u : View) (k : CopyCmd) =>
      ∃ w, exec ins s = completed h w 0 ∧ Starts u w d (.copy (copyBased cg cs k)) ∧
        ∃ e, tget w.st.ranges u.st.nextRng = some e ∧ e.blk = v.uid ∧ e.gid = v.gid ∧ (e.lo, e.hi) = copySpan (copyBased cg cs k) ∧
          e.inb = k.inb ∧ e.op = u.st.nextOp
    let copy := Instr.copy h t d g c a b x out plane
    (OperandsReady (copyOps d g c a b x) v →
      (copyOf v t plane (!out) a b x = none → exec copy s = trapped v 0 0x0A 255 8 0) ∧
      (∀ k, copyOf v t plane (!out) a b x = some k → (plane = true → planeShape k = true) →
        k.goff = (readS v.g a).toNat ∧ k.soff = (readS v.g b).toNat ∧ k.e0 = (readS v.g x).toNat % 2 ^ 24 ∧ k.inb = !out ∧ k.e0 ≠ 0 ∧
        (∀ r, copyChecks v cg cs k = some r → exec copy s = .next (flush (conclude h v (passOn v (v, []) r)))) ∧
        (copyChecks v cg cs k = none → 32 ≤ rangesOf v.st (blkCore v.b) → exec copy s = heldBack h v 2) ∧
        (copyChecks v cg cs k = none → rangesOf v.st (blkCore v.b) < 32 → bucketHolds v.st (blkCore v.b) v.b.part 0 128 = false →
          exec copy s = heldBack h v 13) ∧
        (copyChecks v cg cs k = none → rangesOf v.st (blkCore v.b) < 32 → bucketHolds v.st (blkCore v.b) v.b.part 0 128 = true → Goes copy v k))) ∧
    (let ops := copyOps d g c a b x ++ [vsrc .n32 i]
     OperandsReady ops v →
      let q := readRows (execOf h v.g) ops v
      ∀ p ∈ [(Instr.gather h t d g c a b x i, true), (Instr.scatter h t d g c a b x i, false)],
        ∀ k, copyOf v t false p.2 a b x = some k → k.e1 = 1 → k.e2 = 1 →
          let k' := { k with rows := some (q.2.headD zeroRow, execOf h v.g) }
          copyChecks q.1 cg cs k' = none → rangesOf q.1.st (blkCore q.1.b) < 32 → bucketHolds q.1.st (blkCore q.1.b) v.b.part 0 128 = true →
            Goes p.1 q.1 k')) ∧
  (∀ (s : State) (id : Nat) (o : Op) (k : CopyCmd), tget s.ops id = some o → o.body = .copy k → opSaved s o = false →
    (∀ i ∈ copyElems k, i ∉ k.moved → orderFree k i = true → opMaySend s o = true → k.inb = true → k.plane = false →
      let r := engineRead s o (copyAddr k i).1 k.esz
      ∀ b, tget r.1.blocks o.sblk = some b →
        ∃ t b', exec (.copyComplete id (some i)) s = .next t ∧ tget t.blocks o.sblk = some b' ∧
          bgets b'.scratch (copyAddr k i).2 k.esz = r.2.1 ∧
          ∀ a, a < (copyAddr k i).2 ∨ (copyAddr k i).2 + k.esz ≤ a → bget b'.scratch a = bget b.scratch a) ∧
    (∀ i ∈ copyElems k, i ∉ k.moved → orderFree k i = true → opMaySend s o = true → k.inb = false →
      let a := (copyAddr k i).1
      let bs := opScratch s o (copyAddr k i).2 k.esz
      ∀ t, engineStore s o a bs = .done t →
        exec (.copyComplete id (some i)) s = .next (setBody t id (.copy { k with moved := nput k.moved i })) ∧
        ∀ b, tget s.blocks o.blk = some b → ∃ b', tget t.blocks o.blk = some b' ∧ b'.scratch = b.scratch ∧
          (∀ j < k.esz, tget b'.prov (a + j) = some (bs.getD j 0)) ∧
          ∀ j, j < a ∨ a + k.esz ≤ j → tget b'.prov j = tget b.prov j) ∧
    (allMoved k = true → k.bad = none →
      ∃ t, exec (.copyComplete id none) s = .next t ∧ Finishes s t id (if k.resid = 0 then 0 else 0x0101)) ∧
    (allMoved k = true → ∀ n e, tget s.ranges n = some e → e.op = id →
      exec (.rangeEntryRelease ⟨n, none⟩) s = .next { s with ranges := tdel s.ranges n }))

/-- Once past the checks of R54: QLD and QST of a free queue with a legal stream arm it, with nothing read or written yet, and of an armed one
raise contract fault 3; QRES of a queue that is no armed load queue raises it too (its result and QCLOSE stand in
PoppingAndClosingAQueue); PAGEREQ of a range binds its handle to the pages still to come; PAGEREQ of a copy that found pages absent writes
its bitmap and awaits those still to come, and of one that ended otherwise writes 0 and completes its handle at once. A load queue with
room begins the next entry, whose elements within the count are still to be read, and reads one element of a buffered entry in any order,
while its rate controller's bucket holds a flit; a store queue's engine stores one element of an entry, and an entry with none left
finishes with status 0. (R176, R177, R178, R181, R184, 06_memory_instructions.md) -/
def Obligations.QueueStreamAndPageResults : Prop :=
  (∀ (h : Hdr) (t : Ty) (k : QReg) (c : CReg) (o st n : SReg) (d m : HReg) (p : PReg) (s : State) (v : View), Issues h s v →
    (OperandsReady [.hd d, .h m, .hd m, sdst o] v → ∀ code bm pg, tget v.g.h m.toNat = some (.complete code bm pg) →
      (code ≠ 0x0101 → exec (.pagereq h d (.copy o m)) s = completed h { v with g := writeH (writeS v.g o 0) d (.complete 0 0 []) } 0) ∧
      (code = 0x0101 → ∀ l, pagesLeft v.st v.b.part pg = some l → l ≠ [] →
        ∃ w, exec (.pagereq h d (.copy o m)) s = completed h w 0 ∧ Starts { v with g := writeS v.g o bm } w d (.pages l))) ∧
    (OperandsReady [.c c, ssrc o, ssrc st, ssrc n] v →
      let cap := readC v.g c
      let off := (readS v.g o).toNat
      let stride := (readS v.g st).toInt
      let cnt := (readS v.g n).toNat
      ∀ x ∈ [(Instr.qld h t k c o st n, true, pR), (Instr.qst h t k c o st n, false, pW)],
        ((tget v.g.q k.toNat).isSome = true → exec x.1 s = trapped v 0 3 255 8 0) ∧
        (tget v.g.q k.toNat = none → cnt ≠ 0 → cnt < 2 ^ 32 → check1 v cap off (eszOf t) x.2.2 [0] = none →
          check1 v cap (off + stride * ((cnt - 1 : Nat) : Int)) (eszOf t) x.2.2 [0] = none → off % eszOf t = 0 → stride % (eszOf t : Int) = 0 →
          bucketHolds v.st (blkCore v.b) v.b.part 1 128 = true →
          ∃ q : Queue, exec x.1 s = completed h { v with g := { v.g with q := tput v.g.q k.toNat q } } 0 ∧ q.load = x.2.1 ∧ q.ty = t ∧
            q.base = capBase cap + off ∧ q.stride = stride ∧ q.n = cnt ∧ q.pos = 0 ∧ q.fetched = 0 ∧ q.buf = [] ∧ q.resid = 0)) ∧
    (OperandsReady [] v →
      ((∀ q, tget v.g.q k.toNat = some q → q.load = false) → exec (.qres h p k) s = trapped v 0 3 255 8 0)) ∧
    (OperandsReady [.hd d, .c c, ssrc o, ssrc n] v →
      let off := (readS v.g o).toNat
      let len := (readS v.g n).toNat
      let cap := readC v.g c
      let lo := vpnOf (capBase cap + off)
      let left := pagesLeft v.st v.b.part ((List.range (vpnOf (capBase cap + off + len - 1) - lo + 1)).map (fun i => lo + i))
      len ≠ 0 → checkRange v cap off len 1 pR [0] = none → capPerm cap &&& pR ≠ 0 →
      ∃ w, exec (.pagereq h d (.range c o n)) s = completed h w 0 ∧
        (∀ l, left = some l → l ≠ [] → Starts v w d (.pages l)) ∧ (left = some [] → Starts v w d (.ready 0)) ∧
        (left = none → Starts v w d (.ready 0x0102)))) ∧
  (∀ (s : State) (u g k : Nat) (v : View) (q : Queue), viewAt s u g = some v → tget v.g.q k = some q → v.b.phase = .resident → q.load = true →
    (q.buf.length < 16 → q.fetched < queueEntries q →
      ∃ t w q' e, exec (.loadQueueReadahead u g ⟨k, none⟩) s = .next t ∧ viewAt t u g = some w ∧ tget w.g.q k = some q' ∧ q'.buf = q.buf ++ [e] ∧
        q'.fetched = q.fetched + 1 ∧ e.data.length = 64 ∧ e.resid = 0 ∧ (∀ l < 64, rget e.data l = 0) ∧
        ∀ l < 64, e.left.getLsbD l = true ↔ 64 * q.fetched + l < q.n) ∧
    ∀ i l e, q.buf[i]? = some e → e.left.getLsbD l = true → e.data.length = 64 → bucketHolds s (blkCore v.b) v.b.part 1 128 = true →
      let r := engineRead s (queueOp u g k q) (entryAddr q i l) (eszOf q.ty)
      r.2.2.2 = none →
      ∃ t w q' e', exec (.loadQueueReadahead u g ⟨k, some (i, l)⟩) s = .next t ∧ viewAt t u g = some w ∧ tget w.g.q k = some q' ∧
        q'.buf[i]? = some e' ∧ (∀ j, j ≠ i → q'.buf[j]? = q.buf[j]?) ∧ rget e'.data l = queueElem q.ty r.2.1 ∧
        (∀ m, m ≠ l → rget e'.data m = rget e.data m ∧ e'.left.getLsbD m = e.left.getLsbD m ∧ e'.resid.getLsbD m = e.resid.getLsbD m) ∧
        e'.left.getLsbD l = false ∧ (e'.resid.getLsbD l = true ↔ e.resid.getLsbD l = true ∨ r.2.2.1 = true) ∧
        w.g = { v.g with q := w.g.q }) ∧
  ∀ (s : State) (id : Nat) (o : Op) (k : QReg) (ty : Ty) (addrs : List Nat) (data : Row) (left : Lanes), tget s.ops id = some o →
    o.body = .entry k ty addrs data left →
    (left = 0 → ∃ t, exec (.storeQueueWrite id none) s = .next t ∧ Finishes s t id 0) ∧
    ∀ l t, left.getLsbD l = true → opMaySend s o = true →
      engineStore s o (addrs.getD l 0) (leBytes (eszOf ty) ((rget data l).toNat % 2 ^ tyWidth ty)) = .done t →
      exec (.storeQueueWrite id (some l)) s = .next (setBody t id (.entry k ty addrs data (left &&& ~~~(BitVec.twoPow 64 l))))

/-- Once past the checks of R54, with an access that passes CheckAccess and no logged result, each ATOMG starts one atomic on the 4 or 8 bytes
at its address with its operands. At its home, on a resident page, the atomic waits while the home's lumber room has no room for its log
entry and can still spill (R282, R353, log 6); where it has room, it reads the value the block sees, commits the new value at once, and
finishes with status 0 and the old value in s(B), and where neither the room nor the overflow area has any it ends without a store; where
it acquires, the acquire takes place when s(B) is next read or written, as SMOV shows. FENCE completes and leaves the registers and the
block as they were. COMMIT without its mask word raises contract fault 7; with it the group has arrived and waits for the other groups of
the block: its own effect is COMMIT_TAKE_EFFECT, whose completion BlockLifeResults states. ENQ starts an entry of its two words for its
stage, which a stage that has room accepts at the end of its queue once the log has room too. DEQ writes the two words of the entry that
fired the block, or all ones. (R185, R186, R188, R189, R194, 06_memory_instructions.md) -/
def Obligations.GlobalAtomicAndOrderingResults : Prop :=
  (∀ (h : Hdr) (sc : Scope) (d : HReg) (b a x : SReg) (c : CReg) (o : SReg) (big sg acq : Bool) (n : BitVec 3) (m : FenceMode) (s : State) (v : View),
    Issues h s v →
    (∀ p ∈ ([(.atomgAdd h sc d b c o big sg acq, .add), (.atomgAnd h sc d b c o big sg acq, .and), (.atomgOr h sc d b c o big sg acq, .or),
             (.atomgXor h sc d b c o big sg acq, .xor), (.atomgMin h sc d b c o big sg acq, .min), (.atomgMax h sc d b c o big sg acq, .max),
             (.atomgExch h sc d b c o big sg acq, .exch)] : List (Instr × AtomOp)),
      OperandsReady [.hd d, .c c, ssrc o, .s b.toNat 1 true true] v → logFind v.b (nextKey v) = none →
      check1 v (readC v.g c) (readS v.g o).toNat (if big then 8 else 4) pA [0] = none →
      ∃ w, exec p.1 s = completed h w 0 ∧
        Starts v w d (.atomg p.2 big sg acq sc b (capBase (readC v.g c) + (readS v.g o).toNat) (readS v.g b) 0)) ∧
    (OperandsReady [.hd d, .c c, ssrc o, .s b.toNat 1 true true, ssrc x] v → logFind v.b (nextKey v) = none →
      check1 v (readC v.g c) (readS v.g o).toNat (if big then 8 else 4) pA [0] = none →
      ∃ w, exec (.atomgCas h sc d b c o x big sg acq) s = completed h w 0 ∧
        Starts v w d (.atomg .cas big sg acq sc b (capBase (readC v.g c) + (readS v.g o).toNat) (readS v.g b) (readS v.g x))) ∧
    (OperandsReady [.hd d, .c c, ssrc o, .s b.toNat 1 true true] v → logFind v.b (nextKey v) = none →
      check1 v (readC v.g c) (readS v.g o).toNat 4 pA [0] = none →
      ∃ w, exec (.atomgFadd h sc d b c o acq) s = completed h w 0 ∧
        Starts v w d (.atomg .fadd false false acq sc b (capBase (readC v.g c) + (readS v.g o).toNat) (readS v.g b) 0)) ∧
    (OperandsReady [] v → exec (.fence h sc m) s =
      completed h { v with st := if m ≠ .rel ∧ widePool sc = true then acquirePool v.st v.b.part else v.st } 0) ∧
    (OperandsReady [] v →
      (h.safe = false → exec (.commit h sc) s = trapped v 0 7 255 8 0) ∧
      (h.safe = true → exec (.commit h sc) s = heldBack h { v with g := { v.g with arrival := .commit sc h.mask } } 7)) ∧
    (OperandsReady [.hd d, ssrc a, ssrc b] v → logFind v.b (nextKey v) = none → opOfKey v.st v.uid (nextKey v) = none →
      ∃ w, exec (.enq h d a b n) s = completed h w 0 ∧ Starts v w d (.enq n (readS v.g a) (readS v.g b))) ∧
    (OperandsReady [sdst a, sdst b] v →
      (∀ e, v.b.entryW = some e → exec (.deq h a b) s = completed h { v with g := writeS (writeS v.g a e.1) b e.2 } 0) ∧
      (v.b.entryW = none →
        exec (.deq h a b) s = completed h { v with g := writeS (writeS v.g a 0xFFFFFFFFFFFFFFFF) b 0xFFFFFFFFFFFFFFFF } 0))) ∧
  (∀ (s s' : State) (id : Nat) (o : Op) (op : AtomOp) (big sg acq : Bool) (sc : Scope) (b : SReg) (addr : Nat) (x y : W64) (pid off : Nat) (v : View),
    tget s.ops id = some o → o.body = .atomg op big sg acq sc b addr x y → viewAt s o.blk o.gid = some v →
    meet s (opCore s o) (partOfBlk s o.blk) addr true true = (s', .page pid off) → widePool sc = false →
    let n := if big then 8 else 4
    let old := BitVec.ofNat 64 (leNat (viewBytes s' o.blk pid off addr n))
    ∃ t, exec (.atomgApply id) s = .next t ∧
      if lumberForLog s' (partOfBlk s o.blk) o.body = .room then
        Finishes s t id 0 ∧ ∃ w pg, viewAt t o.blk o.gid = some w ∧ tget w.g.s b.toNat = some old ∧
          tget t.pages pid = some pg ∧ bgets pg.data off n = leBytes n ((atomNew op (atomgTy op big sg) old x y).1.toNat % 2 ^ (8 * n))
      else if lumberForLog s' (partOfBlk s o.blk) o.body = .wait then t = s'
      else tget t.ops id = none ∧ t.pages = s'.pages) ∧
  (∀ (h : Hdr) (d a : SReg) (s : State) (v : View), Issues h s v → OperandsReady [ssrc a, sdst d] { v with g := { v.g with acq := [] } } →
    let mine := fun (x : Nat) => x / 64 = a.toNat ∨ x / 64 = d.toNat
    (∃ x ∈ v.g.acq, mine x) → ∃ q, (∀ x, x ∈ q ↔ x ∈ v.g.acq ∧ ¬ mine x) ∧
      exec (.smov h d a) s = completed h { v with st := acquirePool v.st v.b.part, g := writeS { v.g with acq := q } d (readS v.g a) } 0) ∧
  ∀ (s : State) (id : Nat) (o : Op) (n : BitVec 3) (a b : W64) (bl : Block) (st : Stage), tget s.ops id = some o → o.body = .enq n a b →
    enqEarlier s id o n = false → tget s.blocks o.blk = some bl → stageOf s bl.launch n.toNat = some st → st.fire = 2 → st.retired = false →
    st.queue.length < st.qcap →
    ∃ t, exec (.enqAccept id) s = .next t ∧
      if lumberForLog s bl.part o.body = .room then
        Finishes s t id 0 ∧ stageOf t bl.launch n.toNat = some { st with queue := st.queue ++ [(a, b, s.clock)] }
      else if lumberForLog s bl.part o.body = .wait then t = s
      else tget t.ops id = none ∧ stageOf t bl.launch n.toNat = some st

/-- An MMA outside whole groups raises contract fault 5; one past the checks of R202 is held back under reason 2 while an inbound entry of its
group overlaps what it reads or fewer than two entries of the range scoreboard are free, then under reason 8 while another group holds the
baton, then under reason 9 while four MMAs are outstanding on its core or a register it uses is pending on another MMA, and otherwise
starts with its command as read. A plane or bias word may be read at a moment of its own before the completion. Completing, the MMA writes
each accumulator element its accumulation over every K-block, and its handle takes status 0; without the output chain no scratchpad byte
changes, and with it each row of the output holds the elements of the chain packed by their width, the scale bytes of smode 2 follow the
rows, and no other byte changes. An INT4 or INT2 block adds its exact products and saturates once. MTBL writes the lanes of EXEC to the
inactive bank, MTBLSW exchanges the banks, and BATON takes (held back under reason 8 without it), passes or tests the baton. (R202, R203,
R207, R208, R209, R210, R212, R215, R217, 07_matrix.md) -/
def Obligations.MatrixEngineResults : Prop :=
  (∀ (h : Hdr) (t : Ty) (d : HReg) (dv : BitVec 3) (c : CReg) (r w o : SReg) (fa fb : BitVec 2) (a : VReg) (x : SReg) (s : State) (v : View), Issues h s v →
    let mma := Instr.mma h t d dv c r w o fa fb
    let cap := readC v.g c
    let sw := readS v.g r
    let m := mmaOf v t dv cap sw (readS v.g w) (readS v.g o) (readS v.g (o + 1)) fa fb
    let kb := m.k / 32
    let scales := if m.scaled then scaleRegs (fld sw 48 8).toNat fa.toNat kb ++ scaleRegs (fld sw 56 8).toNat fb.toNat kb else []
    (OperandsReady [.hd d, .c c, ssrc r, ssrc w, .s o.toNat (min 2 (64 - o.toNat)) true false, .m t dv r fa fb] v →
      (execOf h v.g ≠ allLanes → exec mma s = trapped v 0 5 255 8 0) ∧
      (execOf h v.g = allLanes → shapeOK t sw = true → commandOK (readS v.g w) (fld sw 8 8).toNat = true → mmaRegs v m scales = none →
        mmaAccess v cap m = none → (m.rq && (mmaReads m).any (overlaps (m.ooff, m.ooff + lenOut m))) = false →
        let full := 4 ≤ (mmasOn v.st (blkCore v.b)).length
        let ranged := (mmaReads m).any (fun r => rangeHolds v r.1 r.2 false) = true ∨ 30 < rangesOf v.st (blkCore v.b)
        (ranged → exec mma s = heldBack h v 2) ∧
        (¬ ranged → v.b.baton ≠ v.gid → exec mma s = heldBack h v 8) ∧
        (¬ ranged → v.b.baton = v.gid → (full ∨ otherPending v m scales = true) → exec mma s = heldBack h v 9) ∧
        (¬ ranged → v.b.baton = v.gid → ¬ full → otherPending v m scales = false →
          ∃ u m', exec mma s = completed h u 0 ∧ Starts v u d (.mma m') ∧ m' = { m with rm := m'.rm }))) ∧
    (OperandsReady [vsrc .n32 a, ssrc x] v →
      let q := readRows (execOf h v.g) [vsrc .n32 a, ssrc x] v
      let k := readS v.g x
      k >>> 16 = 0 → fld k 3 5 = 0 → bankBound q.1 (!v.b.act.sel) = false →
      ∃ tb : ActTable, exec (.mtbl h a x) s = completed h { q.1 with b := { v.b with act := tb } } 0 ∧ tb.sel = v.b.act.sel ∧
        let bank := fun (y : ActTable) (z : Bool) => if z then y.bank1 else y.bank0
        bank tb v.b.act.sel = bank v.b.act v.b.act.sel ∧
        (∀ l < 64, (execOf h v.g).getLsbD l = true →
          tget (bank tb (!v.b.act.sel)) (64 * (fld k 0 2).toNat + l) = some (rget (q.2.headD zeroRow) l)) ∧
        ∀ j, (∀ l < 64, (execOf h v.g).getLsbD l = true → j ≠ 64 * (fld k 0 2).toNat + l) →
          tget (bank tb (!v.b.act.sel)) j = tget (bank v.b.act (!v.b.act.sel)) j) ∧
    (OperandsReady [] v →
      exec (.mtblsw h) s = completed h { v with b := { v.b with act := { v.b.act with sel := !v.b.act.sel } } } 0 ∧
      (v.b.baton = v.gid → exec (.baton h .take) s = completed h v 0 ∧
        exec (.baton h .pass) s = completed h { v with b := { v.b with baton := batonNext v.b.groups v.gid } } 0) ∧
      (v.b.baton ≠ v.gid → exec (.baton h .take) s = heldBack h v 8 ∧ exec (.baton h .pass) s = completed h v 0)) ∧
    (OperandsReady [sdst x] v →
      exec (.baton h (.test x)) s = completed h { v with g := writeS v.g x (if v.b.baton = v.gid then 1 else 0) } 0)) ∧
  (∀ (s : State) (id : Nat) (o : Op) (m : MmaCmd) (v : View) (b : Block), tget s.ops id = some o → o.body = .mma m → mmaFirst s id o = true →
    viewAt s o.blk o.gid = some v → tget s.blocks o.sblk = some b → o.cancel = false →
    let mem := mmaFound s o
    let acc := fun i j => (accElem mem m (accOld v.g m i j) i j (m.k / 32)).1
    let W := tyWidth m.otype
    let rb := m.n * W / 8
    let y := fun i j => (chainVal v.b m mem (acc i j) j).1
    let scale := fun i k => (outScale m ((List.range 32).map (fun q => y i (32 * k + q)))).1
    let draw := fun i j => if m.rm = 4 then noiseOf (identW v (fun b => b.seed)) (noiseKey v i) j m.sround else 0
    let byte := fun i j => if m.smode = 2 then (if j / 32 < m.n / 32 then scale i (j / 32) else 0) else m.oscale.toNat
    let out := fun i j => (outElem m (byte i j) (draw i j) (y i j)).1
    (o.got = [] → mem = b.scratch) ∧
    (∀ i a, (mmaWords m)[i]? = some a → thas o.got a = false → ∃ t o', exec (.mmaComplete ⟨id, some i⟩) s = .next t ∧
      tget t.ops id = some o' ∧ t.blocks = s.blocks ∧ ∀ k < 4, tget o'.got (a + k) = some (bget b.scratch (a + k))) ∧
    ∃ t u b', exec (.mmaComplete ⟨id, none⟩) s = .next t ∧ Finishes s t id 0 ∧ viewAt t o.blk o.gid = some u ∧
      tget t.blocks o.sblk = some b' ∧
      (∀ j < m.n, ∀ i < m.m, i < 64 → rget (readV u.g (m.d + j)) i = BitVec.ofNat 32 (acc i j)) ∧
      (m.rq = false → b'.scratch = b.scratch) ∧
      (m.rq = true → o.wrote = [] →
        (∀ i < m.m, bgets b'.scratch (m.ooff + rb * i) rb = leBytes rb ((List.range m.n).map (fun j => out i j * 2 ^ (W * j))).sum) ∧
        (m.smode = 2 → ∀ i < m.m, ∀ k < m.n / 32, bget b'.scratch (m.ooff + rb * m.m + i * (m.n / 32) + k) = BitVec.ofNat 8 (scale i k)) ∧
        ∀ a, a < m.ooff ∨ m.ooff + lenOut m ≤ a → bget b'.scratch a = bget b.scratch a)) ∧
  ∀ (m : MmaCmd) (acc : Nat) (fa fb : W8) (xs ys : List Nat), (m.ty = .i4 ∨ m.ty = .i2) →
    let n := fun (x : Nat) => if m.ty = .i4 then (BitVec.ofNat 4 x).toInt else (BitVec.ofNat 2 x).toInt
    (accBlock m acc fa fb xs ys).1 =
      (BitVec.ofInt 32 (clampTo .s32 ((BitVec.ofNat 32 acc).toInt + ((xs.zip ys).map (fun p => n p.1 * n p.2)).sum))).toNat

/-- Once past the checks of R54 and R223, FETCHN sends an interest from its own stop with a lifetime of 1,700 clocks per unit and starts a
fetch with a range entry; PUBN and SEAL start a publication, STOPREF and SUBN their operations. A delivered tile is written, cut to the
length accepted (bytes of it may be written before the others), the result word is its version and length, and the status is 0x0203 when
it was cut; an expired fetch ends with 0x0201 and result 0. Publications, STOPREF and SUBN wait until they have reached the home and,
where keyed, until the log has room there (log 6). Then a publication ends with 0x0204, 0x0213, 0x0212, 0x0210, 0x0211 or 0x0214 in that
order of checks, or else, when no subscription or interest waits and units are free, is stored and ends with 0. STOPREF and SUBN record
the stop or the subscription, or end with the status of what is missing. (R219, R223, R224, R225, R226, R227, R228, R231,
08_names_and_collectives.md) -/
def Obligations.NamedTileResults : Prop :=
  (∀ (h : Hdr) (d : HReg) (c : CReg) (n o l : SReg) (st : BitVec 3) (m : SubMode) (s : State) (v : View) (name ver life : Nat), Issues h s v →
    namePairOf v n = some (name, ver, life) →
    let off := (readS v.g o).toNat
    let lo := capBase (readC v.g c) + off
    let fresh := logFind v.b (nextKey v) = none ∧ opOfKey v.st v.uid (nextKey v) = none
    name = nameOf ((readS v.g (n + 1)).toNat % 2 ^ 24) ((readS v.g n).toNat / 2 ^ 32 % 2 ^ 16) ((readS v.g n).toNat % 2 ^ 32) ∧
    (OperandsReady [.hd d, .c c, pairOpd n, ssrc o, .s l.toNat 1 true true] v → ∀ len, lengthOf (readS v.g l) false = some len → ver ≠ 0 → life ≠ 0 →
      payloadCheck v c off len pW = none → rangesOf v.st (blkCore v.b) < 32 →
      (bucketHolds v.st (blkCore v.b) v.b.part 3 128 = false → exec (.fetchn h d c n o l) s = heldBack h v 13) ∧
      (bucketHolds v.st (blkCore v.b) v.b.part 3 128 = true →
      ∃ w hd, exec (.fetchn h d c n o l) s = completed h w 0 ∧ Starts v w d (.fetchn name ver (v.st.clock + 1700 * life) lo len l none) ∧
        w.st.ipkts = v.st.ipkts ++
          [{ part := v.b.part, name := name, vmin := ver, deadline := v.st.clock + 1700 * life, stop := blkCore v.b, dir := 0, hdr := hd }] ∧
        hd.tenant = v.b.part ∧ hd.dst = blkCore v.b ∧ hd.born = v.st.clock ∧ hd.echo = false ∧
        ∃ e, tget w.st.ranges v.st.nextRng = some e ∧ e.lo = lo ∧ e.hi = lo + len ∧ e.inb = true ∧ e.op = v.st.nextOp)) ∧
    (OperandsReady [.hd d, .c c, pairOpd n, ssrc o, ssrc l] v → life = 0 → fresh → payloadCheck v c off (fld (readS v.g l) 0 17).toNat pR = none →
      (∀ len, lengthOf (readS v.g l) false = some len → ver ≠ 0 → ver ≠ 255 → rangesOf v.st (blkCore v.b) < 32 →
        ∃ w, exec (.pubn h d c n o l) s = completed h w 0 ∧ Starts v w d (.publish name ver false lo len none)) ∧
      (∀ len, lengthOf (readS v.g l) true = some len → ver = 0 → rangesOf v.st (blkCore v.b) < 32 →
        ∃ w, exec (.sealn h d c n o l) s = completed h w 0 ∧
          Starts v w d (.publish name 255 true lo len (if len = 0 then some [] else none)))) ∧
    (OperandsReady [.hd d, pairOpd n] v → ver = 0 → life = 0 →
      (∃ w, exec (.stopref h d n) s = completed h w 0 ∧ Starts v w d (.stopref name)) ∧
      (fresh → ∃ w, exec (.subn h d n st m) s = completed h w 0 ∧ Starts v w d (.subn name st m)))) ∧
  ∀ (s : State) (id : Nat) (o : Op) (v : View) (name : Nat), tget s.ops id = some o → viewAt s o.blk o.gid = some v →
    let r := nameRec s v.b.part name
    let room := o.key.isSome = true → lumberForLog s v.b.part o.body = .room
    (∀ n m ver sl src len bs,
      (o.body = .publish name ver sl src len (some bs) → nameOpArrived s id = false ∨ o.key.isSome = true ∧ lumberForLog s v.b.part o.body = .wait →
        exec (.publishApply id) s = .next s) ∧
      (o.body = .stopref name → nameOpArrived s id = false → exec (.stoprefApply id) s = .next s) ∧
      (o.body = .subn name n m → nameOpArrived s id = false ∨ o.key.isSome = true ∧ lumberForLog s v.b.part o.body = .wait →
        exec (.subnRecord id) s = .next s)) ∧
    (∀ vm d dst len l ver bs b, o.body = .fetchn name vm d dst len l (some (ver, bs)) → tget s.blocks o.sblk = some b →
      let n := min bs.length len
      (∃ t w b', exec (.fetchnDelivery ⟨id, none⟩) s = .next t ∧ Finishes s t id (if len < bs.length then 0x0203 else 0) ∧
        viewAt t o.blk o.gid = some w ∧ tget w.g.s l.toNat = some (BitVec.ofNat 64 (ver * 2 ^ 32 + n)) ∧
        tget t.blocks o.sblk = some b' ∧
        (∀ i < n, bget b'.scratch (dst + i) = if i ∈ o.wrote then bget b.scratch (dst + i) else bs.getD i 0) ∧
        ∀ a, a < dst ∨ dst + n ≤ a → bget b'.scratch a = bget b.scratch a) ∧
      ∀ i, i < n → i ∉ o.wrote → ∃ t b', exec (.fetchnDelivery ⟨id, some i⟩) s = .next t ∧
        tget t.ops id = some { o with wrote := nput o.wrote i } ∧ tget t.blocks o.sblk = some b' ∧ bget b'.scratch (dst + i) = bs.getD i 0 ∧
        ∀ a, a ≠ dst + i → bget b'.scratch a = bget b.scratch a) ∧
    (∀ vm d dst len l, o.body = .fetchn name vm d dst len l none → v.b.phase = .resident → d < s.clock → noTiles s (blkCore v.b) = true →
      ∃ t w, exec (.fetchnLifetimeExpiry id) s = .next t ∧ Finishes s t id 0x0201 ∧ viewAt t o.blk o.gid = some w ∧ tget w.g.s l.toNat = some 0) ∧
    (∀ ver sl src len bs, o.body = .publish name ver sl src len (some bs) → nameOpArrived s id = true → room →
      let Ends := fun (st : W16) => ∃ t, exec (.publishApply id) s = .next t ∧ Finishes s t id st
      (dirEntry s v.b.part (nameTid name) = none → Ends 0x0204) ∧
      ∀ e k, dirEntry s v.b.part (nameTid name) = some e → nameHome s v.b.part name = some k →
        (dMaxlen e < bs.length → Ends 0x0213) ∧
        (bs.length ≤ dMaxlen e →
          (r.ver = 255 → Ends 0x0212) ∧
          (r.ver ≠ 255 → sl = false → ver ≤ r.ver → Ends 0x0210) ∧
          (r.ver ≠ 255 → sl = false → r.ver < ver → r.stop = true → Ends 0x0211) ∧
          (r.ver ≠ 255 → sl = true → bs = [] → r.ver = 0 → Ends 0x0214) ∧
          (r.ver ≠ 255 → (sl = true ∨ r.ver < ver ∧ r.stop = false) → (sl = true → bs ≠ []) → r.subs = [] → (stopAt s k).ents = [] →
            (stopAt s k).shelves = [] → unitsOf bs.length ≤ freeUnits s v.b.part k →
            ∃ t, exec (.publishApply id) s = .next t ∧ Finishes s t id 0 ∧
              (nameRec t v.b.part name).ver = ver ∧ (nameRec t v.b.part name).payload = bs ∧
              (nameRec t v.b.part name).words = checkWords bs))) ∧
    (o.body = .stopref name → nameOpArrived s id = true → room →
      (dirEntry s v.b.part (nameTid name) = none → ∃ t, exec (.stoprefApply id) s = .next t ∧ Finishes s t id 0x0204) ∧
      (dirEntry s v.b.part (nameTid name) ≠ none → r.ver = 255 → ∃ t, exec (.stoprefApply id) s = .next t ∧ Finishes s t id 0x0212) ∧
      (dirEntry s v.b.part (nameTid name) ≠ none → r.ver ≠ 255 →
        ∃ t, exec (.stoprefApply id) s = .next t ∧ Finishes s t id 0 ∧ nameRec t v.b.part name = { r with stop := true })) ∧
    (∀ n m, o.body = .subn name n m → nameOpArrived s id = true → room →
      (subStage s v.b.launch n = false → ∃ t, exec (.subnRecord id) s = .next t ∧ Finishes s t id 0x0104) ∧
      (subStage s v.b.launch n = true → dirEntry s v.b.part (nameTid name) ≠ none → m ≠ .unsub → r.ver = 0 →
        r.subs.any (fun x => x.launch == v.b.launch && x.stage == n) = false → r.subs.length < 8 →
        ∃ t, exec (.subnRecord id) s = .next t ∧ Finishes s t id 0 ∧
          nameRec t v.b.part name = { r with subs := r.subs ++ [{ launch := v.b.launch, stage := n, mode := m, owed := false }] }))

/-- An interest or a tile behind an earlier one at its router input waits, and so does a tile while an older one that may leave by one of the
same outputs stands at another input. An interest in its turn, with no tile at its stop, is answered from the shelf of the stop with a
tile sent back where it came from, a mark echoed, or kept to leave that way once it may (log 6); one that the stop itself sends on goes
one hop; with no answer, away from the home and with an entry free, it makes an entry with one waiter and goes one hop on along the
X-then-Y path; in a tensor without a directory entry it is answered by a removal notice. A tile that has waited to leave goes one hop, and
one that answers the one waiter of an entry goes on in its direction and frees the entry. A waiter past its deadline is removed, an
interest past its deadline is dropped, and a removal notice at a stop without waiters drops the tensor's shelves and is acknowledged.
(R300, R301, R302, R306, R307, R310, 12_memories_and_scheduling.md) -/
def Obligations.TileNetworkResults : Prop :=
  (∀ (s : State) (i : Nat) (p : IPkt) , s.ipkts[i]? = some p →
    (p.deadline < s.clock → exec (.interestDropped i) s = .next { s with ipkts := s.ipkts.eraseIdx i }) ∧
    (heldUp s i p = true ∨ noTiles s p.stop = false → exec (.interestArrival i) s = .next s) ∧
    (interestTurn s i p = true → noTiles s p.stop = true →
      let Answers := fun (a : TPkt) =>
        ∃ t hd, exec (.interestArrival i) s = .next t ∧ t.ipkts = s.ipkts.eraseIdx i ∧ hd.tenant = p.part ∧ hd.echo = p.hdr.mark ∧
          t.tpkts = s.tpkts ++ [if tileLeaves s a p.dir then { a with stop := neighbour p.stop p.dir, dir := opposite p.dir, hdr := hd }
                                else { a with out := p.dir, hdr := hd }] ∧ t.blocks = s.blocks
      (dirEntry s p.part (nameTid p.name) = none → p.dir ≠ 0 → p.dir ≠ 5 → Answers (newTile s p.part p.name 0 [] .removed p.stop)) ∧
      ∀ e home, dirEntry s p.part (nameTid p.name) = some e → nameHome s p.part p.name = some home →
        (∀ a, shelfAnswer s p.part p.stop p.name p.vmin = some a → p.dir ≠ 0 → p.dir ≠ 5 → Answers a) ∧
        (p.dir = 5 → p.stop ≠ home →
          let d := dirTo p.stop home
          ∃ t hd, exec (.interestArrival i) s = .next t ∧ t.tpkts = s.tpkts ∧ t.blocks = s.blocks ∧ hd.dst = home ∧ hd.born = s.clock ∧
            t.ipkts = s.ipkts.eraseIdx i ++
              [{ part := p.part, name := p.name, vmin := p.vmin, deadline := p.deadline, stop := neighbour p.stop d, dir := opposite d, hdr := hd }]) ∧
        (p.dir ≠ 5 → shelfAnswer s p.part p.stop p.name p.vmin = none → findEnt s p.stop p.part p.name = none → entryFree s p.stop p.part = true →
          p.stop ≠ home →
          let d := dirTo p.stop home
          ∃ t hd, exec (.interestArrival i) s = .next t ∧ t.tpkts = s.tpkts ∧ t.blocks = s.blocks ∧ hd.dst = home ∧ hd.born = p.hdr.born ∧
            (p.hdr.mark = true → hd.mark = true) ∧
            t.ipkts = s.ipkts.eraseIdx i ++
              [{ part := p.part, name := p.name, vmin := p.vmin, deadline := p.deadline, stop := neighbour p.stop d, dir := opposite d, hdr := hd }] ∧
            findEnt t p.stop p.part p.name =
              some { part := p.part, name := p.name, up := some (p.vmin, p.deadline),
                     ws := [{ dir := p.dir, vmin := p.vmin, deadline := p.deadline, mark := p.hdr.mark }] }))) ∧
  (∀ (s : State) (i j : Nat) (p q : TPkt), s.tpkts[i]? = some p → s.tpkts[j]? = some q → q.stop = p.stop →
    (j < i → q.dir = p.dir → q.out = p.out → exec (.tileArrival i) s = .next s) ∧
    (¬ (q.dir = p.dir ∧ q.out = p.out) → tileReady s j q = true → (∃ d ∈ tileOuts s q, d ∈ tileOuts s p) → q.hdr.born < p.hdr.born →
      exec (.tileArrival i) s = .next s)) ∧
  (∀ (s : State) (i : Nat) (p : TPkt), s.tpkts[i]? = some p → tileTurn s i p = true → p.out ≠ 0 →
    ∃ t hd, exec (.tileArrival i) s = .next t ∧ hd.tenant = p.part ∧ hd.born = s.clock ∧ hd.echo = p.hdr.echo ∧ t.stops = s.stops ∧
      t.tpkts = s.tpkts.eraseIdx i ++ [{ p with stop := neighbour p.stop p.out, dir := opposite p.out, out := 0, hdr := hd }]) ∧
  (∀ (s : State) (i : Nat) (p : TPkt) (e : IEnt) (w : Waiter), s.tpkts[i]? = some p → tileTurn s i p = true → p.kind = .tile → findEnt s p.stop p.part p.name = some e →
    p.out = 0 → p.dir ≠ 0 → e.ws = [w] → w.dir ≠ 0 → w.vmin ≤ p.ver → s.clock ≤ w.deadline → olderShelf s p = false →
    ∃ t hd, exec (.tileArrival i) s = .next t ∧ hd.tenant = p.part ∧ hd.echo = (p.hdr.echo || w.mark) ∧
      t.tpkts = s.tpkts.eraseIdx i ++ [{ p with stop := neighbour p.stop w.dir, dir := opposite w.dir, out := 0, hdr := hd }] ∧
      findEnt t p.stop p.part p.name = none ∧ t.blocks = s.blocks) ∧
  (∀ (s : State) (stop : Nat) (e : IEnt) (w : Waiter), noTiles s stop = true → (stopAt s stop).ents = [e] → e.ws = [w] → w.deadline < s.clock →
    ∃ t, exec (.waiterExpiry stop e.name w.dir) s = .next t ∧ findEnt t stop e.part e.name = none ∧ t.blocks = s.blocks) ∧
  ∀ (s : State) (part stop tid : Nat), (stop, tid) ∈ (partOf s part).removals → (stopAt s stop).ents = [] →
    ∃ t, exec (.removalNotice part stop tid) s = .next t ∧ (stop, tid) ∉ (partOf t part).removals ∧
      ∀ sh ∈ (stopAt t stop).shelves, sh.part = part → nameTid sh.name ≠ tid

/-- Once past the checks of R54 and their own, PUT, SORTK, ARED and A2AV start their operations (a PUT to an unregistered window, a rank or a
range that is not there with status 0x0301, 0x0302 or 0x0303), ARED and A2AV taking the next collective number of their window. A PUT
whose elements have all landed adds 1 to both counters; so does an A2AV transfer, whose elements land in any order. A collective with an
unreachable rank ends with 0x0302, with a withdrawn rank 0x0307, with ranks that disagree 0x0306; an ARED writes the combined blocks of
its ranks, an A2AV its received counts and offsets. SORTK ends with 0x0311 on a key out of range and else writes for each k below its
range the number of keys equal to k and the number below k, and the token numbers in the order of their keys, equal ones in ascending
order. A result whose log entry needs room ends once there is room (R353, log 6). WCTR reads, waits for (modulo 2^64) or subtracts from a
counter. XCHG waits with its request, or traps with the first group that waits for it when it names another; its own effect is XCHG_SWAP:
when two requests name each other their rows cross the exchange plane (within a cluster at once), the lanes active in both are exchanged
and both groups go on. (R236, R238, R239, R240, R241, R242, R243, R244, 08_names_and_collectives.md) -/
def Obligations.WindowAndCollectiveResults : Prop :=
  (∀ (h : Hdr) (t : Ty) (d : HReg) (c ca : CReg) (o w g x y : SReg) (r : VReg) (m : CodeTy) (s : State) (v : View), Issues h s v →
    let fresh := logFind v.b (nextKey v) = none ∧ opOfKey v.st v.uid (nextKey v) = none
    let free := rangesOf v.st (blkCore v.b)
    let val := fun (r : SReg) => (readS v.g r).toNat
    (∀ wid rank, windowWord (readS v.g w) = some (wid, rank) → fresh →
      (OperandsReady [.hd d, .c c, ssrc o, ssrc w, .s g.toNat (min 2 (64 - g.toNat)) true false] v →
        let len := val (g + 1)
        len ≠ 0 → len < 2 ^ 24 → checkRange v (readC v.g c) (val o) len (eszOf t) pR [1] = none →
        val o % eszOf t = 0 → val g % eszOf t = 0 → len % eszOf t = 0 →
        (∀ st, putStatus v.st v.b.part wid rank (val g) len = some st →
          ∃ u, exec (.put h t d c o w g) s = completed h u 0 ∧ Starts v u d (.ready st)) ∧
        (putStatus v.st v.b.part wid rank (val g) len = none → free < 32 → bucketHolds v.st (blkCore v.b) v.b.part 2 128 = false →
          exec (.put h t d c o w g) s = heldBack h v 13) ∧
        (putStatus v.st v.b.part wid rank (val g) len = none → free < 32 → bucketHolds v.st (blkCore v.b) v.b.part 2 128 = true →
          ∃ u, exec (.put h t d c o w g) s = completed h u 0 ∧
            Starts v u d (.put (eszOf t) (capBase (readC v.g c) + val o) len wid rank (val g) []))) ∧
      (∀ win, windowOf v.st v.b.part wid = some win →
        (OperandsReady [.hd d, .c c, ssrc w, .s g.toNat (min 3 (64 - g.toNat)) true false] v →
          let n := (fld (readS v.g (g + 2)) 0 17).toNat
          n ≠ 0 → n ≤ 65536 → checkRange v (readC v.g c) (val g) (17 * n) 1 pR [1] = none →
          checkRange v (readC v.g c) (val (g + 1)) (17 * n) 1 pW [1] = none →
          ∃ u, exec (.ared h d c w g m) s = completed h u 0 ∧ windowOf u.st v.b.part wid = some { win with coll := win.coll + 1 } ∧
            Starts v u d (.ared wid win.coll (capBase (readC v.g c) + val g) (capBase (readC v.g c) + val (g + 1)) n m)) ∧
        (OperandsReady [.hd d, .c c, .c ca, ssrc w, ssrc o, .s g.toNat (min 2 (64 - g.toNat)) true false] v → isHandler v = false →
          let n := win.nranks
          let lo := capBase (readC v.g c) + val o
          let send := (List.range n).map (fun i => leNat (bgets v.b.scratch (lo + 4 * i) 4))
          checkRange v (readC v.g c) (val o) (4 * n) 4 pR [1] = none →
          checkRange v (readC v.g c) (val o + 4 * n) (8 * n) 4 pW [1] = none →
          checkRange v (readC v.g ca) (val g) (eszOf t * send.sum) (eszOf t) pR [0] = none → val o % 4 = 0 → val g % eszOf t = 0 →
          val (g + 1) % eszOf t = 0 → bucketHolds v.st (blkCore v.b) v.b.part 2 128 = true →
          ∃ u y, exec (.a2av h t d c ca w o g) s = completed h u 0 ∧ windowOf u.st v.b.part wid = some y ∧ y.coll = win.coll + 1 ∧
            y.cin = win.cin ∧ y.cout = win.cout ∧
            (win.myrank < n → rankAt v.st v.b.part win.myrank = some (.here v.b.part) →
              tget y.issued (collKey win.coll win.myrank) =
                some { RColl.init with esz := eszOf t, send := send, dst := val (g + 1), len := win.length }) ∧
            Starts v u d (.a2av wid win.coll (eszOf t) lo (capBase (readC v.g ca) + val g) (val (g + 1)) send (List.replicate n []) [] none)))) ∧
    (OperandsReady [.hd d, .c c, .s x.toNat (min 2 (64 - x.toNat)) true false, .s y.toNat (min 2 (64 - y.toNat)) true false, ssrc o] v →
      let n := (fld (readS v.g o) 0 17).toNat
      let e := (fld (readS v.g o) 32 16).toNat
      let cap := readC v.g c
      let b := capBase cap
      let apart := fun (a k : Nat) => b + a + k ≤ b + val x ∨ b + val x + 2 * n ≤ b + a
      n ≠ 0 → n ≤ 65536 → e ≠ 0 → e ≤ 4096 → fld (readS v.g o) 17 15 = 0 → fld (readS v.g o) 48 16 = 0 →
      checkRange v cap (val x) (2 * n) 2 pR [1] = none → checkRange v cap (val (x + 1)) (2 * n) 2 pW [1] = none →
      checkRange v cap (val y) (4 * e) 4 pW [1] = none → checkRange v cap (val (y + 1)) (4 * e) 4 pW [1] = none →
      apart (val (x + 1)) (2 * n) → apart (val y) (4 * e) → apart (val (y + 1)) (4 * e) → free ≤ 30 →
      ∃ u, exec (.sortk h d c x y o) s = completed h u 0 ∧
        Starts v u d (.sortk (b + val x) (b + val (x + 1)) (b + val y) (b + val (y + 1)) n e)) ∧
    (∀ wid win, windowWord (readS v.g w) = some (wid, 0) → windowOf v.st v.b.part wid = some win →
      (OperandsReady [ssrc w, sdst x] v →
        exec (.wctr h x w y .rdIn) s = completed h { v with g := writeS v.g x win.cin } 0 ∧
        exec (.wctr h x w y .rdOut) s = completed h { v with g := writeS v.g x win.cout } 0) ∧
      (OperandsReady [ssrc w, ssrc y, sdst x] v →
        let a := readS v.g y
        (∀ p ∈ [(WctrMode.waitIn, win.cin), (WctrMode.waitOut, win.cout)],
          ((p.2 - a).toNat < 2 ^ 63 → exec (.wctr h x w y p.1) s = completed h { v with g := writeS v.g x p.2 } 0) ∧
          (2 ^ 63 ≤ (p.2 - a).toNat → exec (.wctr h x w y p.1) s = heldBack h v 5)) ∧
        ∀ p ∈ [(WctrMode.subIn, { win with cin := win.cin - a }, win.cin - a), (WctrMode.subOut, { win with cout := win.cout - a }, win.cout - a)],
          ∃ u, exec (.wctr h x w y p.1) s = completed h u 0 ∧ u.g = writeS v.g x p.2.2 ∧ u.b = v.b ∧ windowOf u.st v.b.part wid = some p.2.1)) ∧
    (OperandsReady [ssrc x] v → v.b.depth = 0 → ∀ k st gr n, partnerWord (readS v.g x) (tyBig t) = some (k, st, gr, n) →
      (tyBig t && r.toNat % 2 == 1) = false → indexFaults v r.toNat true n = none → rangeAny (vPending v) r.toNat n = false →
      rangeAny (fun i => !thas v.g.v i) r.toNat n = false →
      let q : XReq := { block := k, stage := st, group := gr, cnt := n, big := tyBig t, v := r.toNat, exec := execOf h v.g, safe := h.safe, mask := h.mask,
                        sent := (v.g.xreq.map (fun y => y.sent)).getD false, since := (v.g.xreq.map (fun y => y.since)).getD v.st.clock }
      let named := partnerBlock v.st v.b.launch k st
      let first := firstWaiter v (named.map (fun e => e.1), gr)
      namesMe q v.b v.gid = false →
      (named = none → first = none → exec (.xchg h t r x) s = heldBack h { v with g := { v.g with xreq := some q } } 7) ∧
      (∀ fu fg, first = some (fu, fg) → isHandler v = false → v.b.fault = none → v.b.ending = none →
        ∃ u f, exec (.xchg h t r x) s = .next (flush u) ∧ u.b.fault = some f ∧ (f.cls, f.code) = (0, 8) ∧
          (fu ≠ v.uid → (tget s.blocks fu).any (fun b => b.ending.isNone) = true →
            ∃ b f', tget (flush u).blocks fu = some b ∧ b.fault = some f' ∧ (f'.cls, f'.code) = (0, 8))))) ∧
  (∀ (s : State) (u k pu : Nat) (v p : View) (x y : XReq), viewAt s u k = some v → v.g.xreq = some x →
    partnerBlock s v.b.launch x.block x.stage = some (pu, p.b) → viewAt s pu x.group = some p → p.g.xreq = some y → (pu, x.group) ≠ (u, k) →
    namesMe y v.b k = true → y.cnt = x.cnt → y.big = x.big → v.b.fault = none → p.b.fault = none → v.b.phase = .resident → p.b.phase = .resident →
    v.g.run = .stalled → p.g.run = .stalled →
    let near := clusterOf (blkCore v.b) = clusterOf (blkCore p.b)
    (¬ near → (x.sent && y.sent) = false →
      ∃ t v' p', exec (.xchgSwap u k) s = .next t ∧ viewAt t u k = some v' ∧ viewAt t pu x.group = some p' ∧
        t.flits.length = s.flits.length + x.cnt + y.cnt ∧ v'.g = { v.g with xreq := some { x with sent := true } } ∧
        p'.g = { p.g with xreq := some { y with sent := true } }) ∧
    (¬ near → (x.sent && y.sent) = true → (exchArrived s u k && exchArrived s pu x.group) = false → exec (.xchgSwap u k) s = .next s) ∧
    (near ∨ (x.sent && y.sent) = true ∧ (exchArrived s u k && exchArrived s pu x.group) = true →
    ∃ t v' p', exec (.xchgSwap u k) s = .next t ∧ viewAt t u k = some v' ∧ viewAt t pu x.group = some p' ∧
      v'.g.offset = v.g.offset + (if x.safe then 2 else 1) ∧ p'.g.offset = p.g.offset + (if y.safe then 2 else 1) ∧
      v'.g.run = .issuing ∧ p'.g.run = .issuing ∧ ∀ i < x.cnt, ∀ l < 64,
        rget (readV v'.g (x.v + i)) l = rget (if (x.exec &&& y.exec).getLsbD l then readV p.g (y.v + i) else readV v.g (x.v + i)) l ∧
        rget (readV p'.g (y.v + i)) l = rget (if (x.exec &&& y.exec).getLsbD l then readV v.g (x.v + i) else readV p.g (y.v + i)) l)) ∧
  ∀ (s : State) (id : Nat) (o : Op) (wid : Nat) (w : Window), tget s.ops id = some o → windowOf s (partOfBlk s o.blk) wid = some w →
    let part := partOfBlk s o.blk
    (∀ esz src len rank off landed q x, o.body = .put esz src len wid rank off landed → opBound s id o = true → rankWindow s part wid rank = some (q, x) →
      (len / esz ≤ landed.length → lumberForLog s part o.body = .room → ∃ t y z, exec (.putLanding id none) s = .next t ∧ Finishes s t id 0 ∧
        windowOf t q wid = some y ∧ y.cin = x.cin + 1 ∧ windowOf t part wid = some z ∧ z.cout = w.cout + 1) ∧
      ∀ i t, i < len / esz → i ∉ landed → opMaySend s o = true →
        landBytes s o q (x.base + off + i * esz) (opScratch s o (src + i * esz) esz) = .done t →
        exec (.putLanding id (some i)) s = .next (setBody t id (.put esz src len wid rank off (nput landed i)))) ∧
    (∀ k, collOf o.body = some (wid, k) → opBound s id o = true →
      let own := collKey k w.myrank
      let Ends := fun (st : W16) => ∃ t, exec (.collectiveComplete ⟨id, none⟩) s = .next t ∧ Finishes s t id st
      let Writes := fun (dst : Nat) (bs : List W8) (b b' : Block) =>
        ∀ i < bs.length, bget b'.scratch (dst + i) = if i ∈ o.wrote then bget b.scratch (dst + i) else bs.getD i 0
      (rankMissing s part wid w = true → Ends 0x0302) ∧
      (rankMissing s part wid w = false → rankGone k w = true → Ends 0x0307) ∧
      (rankMissing s part wid w = false → rankGone k w = false → thas w.issued own = true → ∀ cs b, ranksOf w k = some cs →
        tget s.blocks o.sblk = some b →
        (cs.all (agree (cs.getD w.myrank RColl.init)) = false → Ends 0x0306) ∧
        (cs.all (agree (cs.getD w.myrank RColl.init)) = true →
          (∀ src dst n ct, o.body = .ared wid k src dst n ct → lumberForLog s part o.body = .room →
            ∃ t b', exec (.collectiveComplete ⟨id, none⟩) s = .next t ∧ Finishes s t id 0 ∧ tget t.blocks o.sblk = some b' ∧
              Writes dst (aredOutput (ctNat ct) n (cs.map (fun c => c.bytes))).1 b b') ∧
          ∀ esz cnts src dst send sent ends, o.body = .a2av wid k esz cnts src dst send sent ends none → allLanded w k esz cs ends = true →
            lumberForLog s part o.body = .room →
            ∃ t b', exec (.collectiveComplete ⟨id, none⟩) s = .next t ∧
              Finishes s t id (if (List.range cs.length).any (refuses cs esz) then 0x0305 else 0) ∧ tget t.blocks o.sblk = some b' ∧
              ∀ i < cs.length,
                (i ∉ o.wrote → leNat (bgets b'.scratch (cnts + 4 * cs.length + 4 * i) 4) = sendCount cs i w.myrank % 2 ^ 32) ∧
                (cs.length + i ∉ o.wrote →
                  leNat (bgets b'.scratch (cnts + 8 * cs.length + 4 * i) 4) = sumTo (fun q => sendCount cs q w.myrank) i % 2 ^ 32))) ∧
      (∀ src dst n ct b, o.body = .ared wid k src dst n ct → rankMissing s part wid w = false → rankGone k w = false → thas w.issued own = false →
        w.nranks = 1 → w.myrank = 0 → rankAt s part 0 = some (.here part) → tget s.blocks o.sblk = some b → lumberForLog s part o.body = .room →
        ∃ t b', exec (.collectiveComplete ⟨id, none⟩) s = .next t ∧ Finishes s t id 0 ∧ tget t.blocks o.sblk = some b' ∧
          Writes dst (aredOutput (ctNat ct) n [gotOver o src (bgets b.scratch src (17 * n))]).1 b b')) ∧
    (∀ k esz cnts src dst send sent ends bad cs j p x, o.body = .a2av wid k esz cnts src dst send sent ends bad → opBound s id o = true →
      ranksOf w k = some cs → cs.all (agree (cs.getD w.myrank RColl.init)) = true → rankGone k w = false → refuses cs esz j = false →
      j ∉ ends → j < cs.length → rankWindow s part wid j = some (p, x) →
      (∀ e t, e < send.getD j 0 → e ∉ sent.getD j [] → opMaySend s o = true →
        let a := src + esz * (sumTo (fun q => send.getD q 0) j + e)
        let r := engineRead s o a esz
        landBytes (noteFirst r.1 id a bad r.2.2.2) o p (x.base + (recvOffset cs esz w.myrank j + esz * e)) r.2.1 = .done t →
        exec (.a2avTransferLanding id ⟨j, some e⟩) s =
          .next (setBody t id (.a2av wid k esz cnts src dst send (listSet sent j (nput (sent.getD j []) e)) ends (bad.orElse (fun _ => r.2.2.2))))) ∧
      (send.getD j 0 ≤ (sent.getD j []).length →
        ∃ t z, exec (.a2avTransferLanding id ⟨j, none⟩) s = .next t ∧ windowOf t p wid = some z ∧ z.cin = x.cin + 1 ∧
          tget t.ops id = some { o with body := .a2av wid k esz cnts src dst send sent (nput ends j) bad })) ∧
    (∀ a p c f n e b, o.body = .sortk a p c f n e → tget s.blocks o.sblk = some b → o.cancel = false → n ≤ 65536 →
      let keys := sortkKeys s o a n
      let below := fun (x : Nat) => (keys.filter (fun y => decide (y < x))).length
      let place := fun (i : Nat) => below (keys.getD i 0) + ((keys.take i).filter (fun y => y == keys.getD i 0)).length
      let apart := fun (x m y k : Nat) => x + m ≤ y ∨ y + k ≤ x
      (o.got = [] → keys = (List.range n).map (fun i => leNat (bgets b.scratch (a + 2 * i) 2))) ∧
      (keys.any (fun k => decide (e ≤ k) && k != 0xFFFF) = true →
        ∃ t, exec (.sortkComplete ⟨id, none⟩) s = .next t ∧ Finishes s t id 0x0311) ∧
      (keys.any (fun k => decide (e ≤ k) && k != 0xFFFF) = false → e ≤ 0xFFFF →
        ∃ t b', exec (.sortkComplete ⟨id, none⟩) s = .next t ∧ Finishes s t id 0 ∧ tget t.blocks o.sblk = some b' ∧
          (∀ k < e, n + e + k ∉ o.wrote → leNat (bgets b'.scratch (f + 4 * k) 4) = below k) ∧
          (apart c (4 * e) f (4 * e) → ∀ k < e, n + k ∉ o.wrote →
            leNat (bgets b'.scratch (c + 4 * k) 4) = (keys.filter (fun x => x == k)).length) ∧
          (apart p (2 * n) c (4 * e) → apart p (2 * n) f (4 * e) → ∀ i < n, place i ∉ o.wrote →
            leNat (bgets b'.scratch (p + 2 * place i) 2) = i)))

/-- TRACE appends one record of its path, value and tag to the cluster's buffer when the partition traces kind 1, and otherwise only
completes. RDCTR of the caller, or of the group at a seat of the handled block, writes counter n, or the package clock for n = 20, and
raises the illegal-instruction fault for a larger n and for a seat without such a group. ICINV and, in the handler context, TLBINV start
an operation; a TLBINV drops from the TLBs within its scope (a cluster's own TLB from .cluster on, log 35) the cached translations of the
partition, or of the page, and no others. In the handler context PRD writes the selected item of the group at the seat, PWR changes the
selected item of a PARKED group and nothing of its own registers, an item that may not be written or a group that is not parked raises the
illegal-instruction fault, and HALTB halts the handled block, with k = 1 cancels its operations, and starts an operation that awaits that
block's operations. (R338, R339, R341, R342, R343, R358, R359, R360) -/
def Obligations.SystemInstructionResults : Prop :=
  ∀ (h : Hdr) (a d : SReg) (g : HReg) (tag : BitVec 14) (n : BitVec 8) (sc : Scope) (seat : BitVec 4) (s : State) (v : View), Issues h s v →
    let illegal := trapped v 0 0x0A 255 8 0
    (OperandsReady [ssrc a] v →
      (traceOn v.st v.b.part 2 = false → exec (.trace h a tag) s = completed h v 0) ∧
      (traceOn v.st v.b.part 2 = true → bufUnits (tgetD v.st.clusters (clusterOf (blkCore v.b)) Cluster.init).buf < 1024 →
        ∃ w r, exec (.trace h a tag) s = completed h w 0 ∧ w.g = v.g ∧ w.b = v.b ∧ w.st = { v.st with clusters := w.st.clusters } ∧
          (tgetD w.st.clusters (clusterOf (blkCore v.b)) Cluster.init).buf =
            (tgetD v.st.clusters (clusterOf (blkCore v.b)) Cluster.init).buf ++ [r] ∧
          r.kind = 1 ∧ r.label = v.g.label ∧ r.offset = v.g.offset ∧ r.mask = v.g.active ∧ r.a = readS v.g a ∧ r.b = tag.setWidth 64)) ∧
    (OperandsReady [sdst d] v →
      (n.toNat < 20 → exec (.rdctr h d n none) s = completed h { v with g := writeS v.g d (ctrOf v.g n.toNat) } 0) ∧
      (n = 20 → exec (.rdctr h d n none) s = completed h { v with g := writeS v.g d (BitVec.ofNat 64 v.st.clock) } 0) ∧
      (20 < n.toNat → exec (.rdctr h d n none) s = illegal) ∧
      (seatGroup v seat = none ∨ 20 < n.toNat → exec (.rdctr h d n (some seat)) s = illegal) ∧
      ∀ u k b y, seatGroup v seat = some (u, k, b, y) →
        (n.toNat < 20 → exec (.rdctr h d n (some seat)) s = completed h { v with g := writeS v.g d (ctrOf y n.toNat) } 0) ∧
        (n = 20 → exec (.rdctr h d n (some seat)) s = completed h { v with g := writeS v.g d (BitVec.ofNat 64 v.st.clock) } 0)) ∧
    (OperandsReady [.hd g] v → ∃ w l, exec (.icinv h sc g) s = completed h w 0 ∧ Starts v w g (.icinv l)) ∧
    (isHandler v = true →
      (let own := blkCore v.b
       let within := fun (e : TlbEnt) => match sc, e.core with
         | .core, c => c = some own
         | .cluster, some c => clusterOf c = clusterOf own
         | .cluster, none => e.cluster = clusterOf own
         | .die, some c => (coreX c < 8 ↔ coreX own < 8)
         | .die, none => (e.cluster % 8 < 4 ↔ coreX own < 8)
         | _, _ => True
       (OperandsReady [.hd g] v → ∃ w, exec (.tlbinv h sc g none) s = completed h w 0 ∧ Starts v w g .tlbinv ∧
         ∀ e, e ∈ w.st.tlb ↔ e ∈ v.st.tlb ∧ ¬ (e.part = v.b.part ∧ within e)) ∧
       (OperandsReady [.hd g, ssrc a] v → ∃ w, exec (.tlbinv h sc g (some a)) s = completed h w 0 ∧ Starts v w g .tlbinv ∧
         ∀ e, e ∈ w.st.tlb ↔ e ∈ v.st.tlb ∧ ¬ (e.part = v.b.part ∧ within e ∧ e.vpn = pageVpn e.leaf (vpnOf (readS v.g a).toNat)))) ∧
      (∀ x u k b y, selectorOf (readS v.g a) = some x → seatGroup v seat = some (u, k, b, y) →
        (OperandsReady [ssrc a, sdst d] v →
          exec (.prd h d a seat) s = completed h { v with g := writeS v.g d (readItem b y x) } 0 ∧
          (x.1 = 5 → readItem b y x = tgetD y.s x.2.1 0) ∧ (x.1 = 1 → readItem b y x = y.active)) ∧
        (OperandsReady [ssrc a, ssrc d] v →
          (y.run ≠ .parked → exec (.pwr h d a seat) s = illegal) ∧
          (writeItem v.st b y x (readS v.g d) = none → exec (.pwr h d a seat) s = illegal) ∧
          (y.run = .parked → ∀ y', writeItem v.st b y x (readS v.g d) = some y' →
            ∃ w b', exec (.pwr h d a seat) s = completed h w 0 ∧ w.g = v.g ∧ tget w.st.blocks u = some b' ∧ b'.groups[k]? = some y' ∧
              (x.1 = 5 → y' = { y with s := tput y.s x.2.1 (readS v.g d) }) ∧ (x.1 = 1 → y' = { y with active := readS v.g d })))) ∧
      (OperandsReady [.hd g] v → ∀ u b, handledBlk v = some u → tget v.st.blocks u = some b → u ≠ v.uid →
        ∃ w b', exec (.haltb h g false) s = completed h w 0 ∧ tget w.g.h g.toNat = some (.pending v.st.nextOp) ∧
          (∃ o, tget w.st.ops v.st.nextOp = some o ∧ o.body = .haltb u) ∧
          tget w.st.blocks u = some b' ∧ b'.halted = true ∧ b'.groups = b.groups) ∧
      (OperandsReady [.hd g] v → ∀ u b, handledBlk v = some u → tget v.st.blocks u = some b → u ≠ v.uid →
        ∃ w b', exec (.haltb h g true) s = completed h w 0 ∧ (∃ id o, tget w.g.h g.toNat = some (.pending id) ∧ tget w.st.ops id = some o ∧
          o.body = .haltb u) ∧ tget w.st.blocks u = some b' ∧ b'.halted = true ∧
          ∀ id o, tget v.st.ops id = some o → o.blk = u →
            ((∃ c, o.body = .copy c) ∨ (∃ p, o.body = .pages p) ∨ (∃ k x y, o.body = .enq k x y)) →
            tget w.st.ops id = none ∧ ∀ k y n, b.groups[k]? = some y → o.gid = k → tget y.h n = some (.pending id) →
              ∃ y', b'.groups[k]? = some y' ∧ tget y'.h n = some (.complete 0xFF 0 [])))

/-- Once every group is parked, a fault whose vector is enabled is queued for its core's handler context in the order in which faults
occurred, and with no entry a fault other than an arithmetic trap, a breakpoint or an access to be emulated retires the block with status
0x400 + class x 0x40 + code, its provisional bytes kept until its operations have completed. The oldest queued fault gets a run that
enters the handler image at the vector's label with all lanes active. ERET ends the run: mode 0 lets every parked group issue again at its
own position with its registers, mode 1 retires with the status given, mode 2 re-fires from the resume record, mode 3 has the device
perform the faulting group's access, whose operands it reads then, and the group stands past it after the last byte (one byte each turn,
in any order, each waiting for the group's copies: the model's choice, log 38); for a fatal trap mode 0 retires with 0x04FF. A hardware
error re-fires, at the ninth time from one record it is the re-fire limit; a restarted run has HFLT 0 and the registers of the last run's
end; a hung group takes class 3 code 3. (R332, R333, R334, R335, R337, R340, R350, R352, R353) -/
def Obligations.HandlerRunResults : Prop :=
  (∀ (s : State) (u : Nat) (b : Block) (f : FaultRec), tget s.blocks u = some b → b.fault = some f → b.queued = false → b.phase = .resident →
    b.ending = none → b.kind ≠ .handler → allParked b = true →
    let q := (coreOf s (blkCore b)).queue
    (∀ L, handlerEntry s b.part f = some L → q.length < 17 →
      (earlierFault s b = true → exec (.trapDelivery u) s = .next s) ∧
      (earlierFault s b = false →
        ∃ t, exec (.trapDelivery u) s = .next t ∧ tget t.blocks u = some { b with queued := true } ∧
          (coreOf t (blkCore b)).queue = insertFault s q u b.faultAt ∧
          ((∀ x ∈ q, (tget s.blocks x).all (fun y => decide (y.faultAt ≤ b.faultAt)) = true) → (coreOf t (blkCore b)).queue = q ++ [u]))) ∧
    (handlerEntry s b.part f = none → emulable s b f = false → f.cls ≠ 2 → ¬ (f.cls = 3 ∧ f.code = 2) →
      ∃ t b', exec (.trapDelivery u) s = .next t ∧ tget t.blocks u = some b' ∧ b'.ending = some (BitVec.ofNat 16 (0x400 + f.cls * 0x40 + f.code)) ∧
        b'.fault = none ∧ b'.prov = b.prov ∧ ∀ g ∈ b'.groups, g.run = .ended ∧ g.active = 0)) ∧
  (∀ (s : State) (c u : Nat) (rest : List Nat) (b : Block) (f : FaultRec) (L : Lab) (hi : HImage) (im : Image), (coreOf s c).hrun = none →
    (coreOf s c).queue = u :: rest → tget s.blocks u = some b → b.fault = some f → handlerEntry s b.part f = some L →
    (partOf s b.part).himage = some hi → tget s.images hi.image = some im → (∃ i, findLabel (im.versions.headD []) L.toNat = .ok i) →
    L.toNat < im.labels → im.labels < 65536 → tget s.blocks (handlerUid c) = none → (partOf s b.part).holds = [] →
    (∀ e ∈ s.ops, ∀ p, e.2.body ≠ .icinv p) →
    ∃ t w, exec (.handlerRunStart c) s = .next t ∧ (coreOf t c).hrun = some { blk := u, live := true, fault := f, hflt := 0, kill := false } ∧
      (coreOf t c).queue = rest ∧ viewAt t (handlerUid c) 0 = some w ∧ w.b.kind = .handler ∧ w.b.part = b.part ∧ w.g.label = L ∧
      w.g.offset = 1 ∧ w.g.active = allLanes ∧ w.g.run = .issuing ∧ ∀ i < 16, tget w.g.s i = hi.args[i]?) ∧
  (∀ (h : Hdr) (a : SReg) (s : State) (v : View) (r : HRun) (b : Block), Issues h s v → isHandler v = true → runOf v = some r → r.live = true →
    r.kill = false → tget v.st.blocks r.blk = some b → r.blk ≠ v.uid →
    let fatal := fatalTrap r.fault.cls r.fault.code
    let Ends := fun (m : EretMode) (P : State → Block → Prop) => ∃ t b', exec (.eret h m) s = .next t ∧
      (coreOf t (blkCore v.b)).hrun = none ∧ tget t.blocks r.blk = some b' ∧ P t b'
    let Issuing := fun (g g' : Group) => g.run = .parked → g'.run = (if g.active = 0 then .idle else .issuing) ∧ SameRegisters g' g ∧
      g'.label = g.label ∧ g'.offset = g.offset ∧ g'.lanes = g.lanes ∧ g'.active = g.active
    (OperandsReady [] v →
      (fatal = false → b.halted = false → Ends .resume (fun _ b' => b'.fault = none ∧ b'.queued = false ∧
        ∀ (k : Nat) (g : Group), b.groups[k]? = some g → ∃ g', b'.groups[k]? = some g' ∧ Issuing g g')) ∧
      (fatal = true → Ends .resume (fun _ b' => b'.ending = some 0x04FF)) ∧
      (∀ x, mayRefire b = true → b.record = some x → b.partners = [] → b.refires < 8 → Ends .refire (fun _ b' => b'.fault = none ∧ b'.halted = false ∧
        b'.prov = [] ∧ b'.scratch = x.scratch ∧ b'.commits = x.commits ∧ b'.refires = b.refires + 1 ∧ b'.total = b.total + 1)) ∧
      (∀ (g : Group) (i : Instr) (k : Hdr), b.groups[r.fault.gid]? = some g → fatal = false → b.halted = false → b.kind ≠ .handler →
        g.run = .parked → emulable v.st b r.fault = true → faultInstr v.st b r.fault = some i → i.hdr? = some k →
        Ends .emulate (fun _ b' => b'.fault = none ∧ ∃ g' e, b'.groups[r.fault.gid]? = some g' ∧ g'.emul = some e ∧ g'.offset = g.offset ∧
          e.exec = execOf k g ∧ e.safe = k.safe ∧ e.got = []))) ∧
    (OperandsReady [ssrc a] v → readS v.g a >>> 16 = 0 → 0x400 ≤ (readS v.g a).toNat → (readS v.g a).toNat ≤ 0x4FF →
      Ends (.retire a) (fun _ b' => b'.ending = some ((readS v.g a).setWidth 16) ∧ b'.prov = b.prov ∧ ∀ g ∈ b'.groups, g.run = .ended))) ∧
  (∀ (s : State) (u k : Nat) (v : View) (e : Emul) (l i a : Nat) (x : W8) (rest : List (Nat × Nat × Nat × W8)), s.agenda = [] →
    nextIssuer s = some (u, k) → viewAt { s with cur := some (u, k) } u k = some v → isHandler v = false → v.g.emul = some e →
    e.todo = (l, i, a, x) :: rest → v.g.active ≠ 0 →
    ∃ w, step s = .next (flush w) ∧
      (bytesHeld v [a] (!e.load) = true → w.b = v.b ∧ w.g.emul = some e ∧ w.g.stall = 2) ∧
      (bytesHeld v [a] (!e.load) = false → w.b.scratch = (if e.load then v.b.scratch else bput v.b.scratch a x) ∧
        (rest ≠ [] → ∃ e', w.g.emul = some e' ∧ e'.todo = rest ∧ SameRegisters w.g v.g) ∧
        (rest = [] → w.g.emul = none ∧ w.g.offset = v.g.offset + (if e.safe then 2 else 1)))) ∧
  (∀ (s : State) (u : Nat) (b : Block) (x : Snapshot), tget s.blocks u = some b → b.kind ≠ .handler → b.phase = .resident → b.ending = none →
    b.fault = none → b.record = some x → b.partners = [] →
    (b.refires < 8 → ∃ t b', exec (.hardwareErrorRefire u) s = .next t ∧ tget t.blocks u = some b' ∧ b'.prov = [] ∧ b'.scratch = x.scratch ∧
      b'.commits = x.commits ∧ b'.refires = b.refires + 1) ∧
    (8 ≤ b.refires → ∃ t b' f, exec (.hardwareErrorRefire u) s = .next t ∧ tget t.blocks u = some b' ∧ b'.fault = some f ∧ f.cls = 1 ∧ f.code = 0x0A)) ∧
  (∀ (s : State) (c : Nat) (r : HRun) (b : Block) (x : Snapshot) (old : Group) (im : Image), (coreOf s c).hrun = some r →
    tget s.blocks (handlerUid c) = some b → b.record = some x → x.groups = [old] → tget s.images b.image = some im →
    markerKind (im.versions.headD []) b.entry = some 0 → (∃ i, findLabel (im.versions.headD []) b.entry.toNat = .ok i) →
    b.entry.toNat < im.labels → im.labels < 65536 → (partOf s b.part).holds = [] → (∀ e ∈ s.ops, ∀ p, e.2.body ≠ .icinv p) →
    ∃ t w, exec (.handlerErrorRestart c) s = .next t ∧ (coreOf t c).hrun = some { r with hflt := 0 } ∧ viewAt t (handlerUid c) 0 = some w ∧
      w.g.label = b.entry ∧ w.g.offset = 1 ∧ w.g.active = allLanes ∧ w.g.s = old.s ∧ w.g.c = old.c ∧ w.g.v = old.v) ∧
  ∀ (s : State) (u k : Nat) (v : View), viewAt s u k = some v → v.b.kind ≠ .handler → blockLive v.b = true → pctl s v.b.part 0x117 ≠ 0 →
    (pctl s v.b.part 0x117).toNat < v.g.hang →
    exec (.hangWatchdog u k) s = .next (setBlk s u { v.b with fault := some (faultAt v 3 3 255 0 0) })

/-- An operation that only awaits its status, a TLBINV, a HALTB of a block with no operation left, or a page request whose pages are resident
completes its handle (in a saved block by SAVED_HANDLE_UPDATE). When every group has arrived and no operation is outstanding, a commit
takes effect: the commit number rises, provisional bytes and log are empty, a record is kept and each group goes on two words further with
its registers. A block whose groups have ended completes, and is reported only once the earlier blocks of its launch have been. A
context's resident blocks are asked to stop when its slice ends; a group asked stops at a safe point; a stopped block is saved, in two
slices, with what its masks keep and without the entries of load queues that are not wholly read, or runs on when no trunk space remains;
and a saved block whose turn it is returns to a place with its registers. (R31, R62, R85, R190, R191, R293, R344, R345, R346, R347, R349,
R354) -/
def Obligations.BlockLifeResults : Prop :=
  (∀ (s : State) (id : Nat) (o : Op), tget s.ops id = some o →
    let Completes := fun (i : Instr) (st : W16) => ∃ t, exec i s = .next t ∧ Finishes s t id st
    (opSaved s o = false →
      (∀ st, o.body = .ready st → Completes (.asyncComplete id) st) ∧ (o.body = .tlbinv → Completes (.asyncComplete id) 0) ∧
      (∀ l, o.body = .icinv l → icLeft s l = [] → Completes (.asyncComplete id) 0) ∧
      (∀ b, o.body = .haltb b → opsOf s b = [] → Completes (.asyncComplete id) 0) ∧
      (∀ l, o.body = .pages l → l.any (pageDead s (partOfBlk s o.blk)) = false → pagesLeft s (partOfBlk s o.blk) l = some [] →
        Completes (.asyncComplete id) 0)) ∧
    (opSaved s o = true → ∀ st, o.body = .ready st → Completes (.savedHandleUpdate id) st)) ∧
  (∀ (s : State) (u : Nat) (b : Block), tget s.blocks u = some b → b.phase = .resident →
    (b.fault = none → b.ending = none → allArrived b = true → opsOf s u = [] →
      ∃ t b', exec (.commitTakeEffect u) s = .next t ∧ tget t.blocks u = some b' ∧ b'.commits = b.commits + 1 ∧ b'.prov = [] ∧ b'.log = [] ∧
        b'.record.isSome = true ∧ ∀ (k : Nat) (g : Group) (sc : Scope) (m : W64), b.groups[k]? = some g → g.arrival = .commit sc m →
          ∃ g', b'.groups[k]? = some g' ∧ g'.offset = g.offset + 2 ∧ g'.run = .issuing ∧ g'.arrival = .none ∧ SameRegisters g' g) ∧
    (b.kind ≠ .handler → b.fault = none → opsOf s u = [] → b.sub = none → (pctl s b.part 0x170).getLsbD 7 = false →
      (∀ g ∈ b.groups, g.run = .ended ∧ g.bubbles = 0 ∧ g.issued = false) →
      ∃ t b', exec (.finalCommit u) s = .next t ∧ tget t.blocks u = some b' ∧ b'.phase = .complete ∧ b'.place = none ∧
        b'.status = b.ending.getD 0 ∧ b'.groups = [] ∧ b'.prov = [] ∧
        (b.kind = .launched → ∀ x e, x ≠ u → tget s.blocks x = some e → e.launch = b.launch → e.kind = .launched → e.phase = .resident →
          e.reported = false → e.seqno.toNat < b.seqno.toNat → b'.reported = false)) ∧
    (mayQuiesce s u b = true → (∀ e ∈ opsOf s u, awaited e.2.body = false) → (partOf s b.part).drain = none →
      let bytes := saveBytes s u (savedBlock s u b)
      ∃ t b', exec (.quiesce u) s = .next t ∧ tget t.blocks u = some b' ∧ b'.preempt = false ∧
        if trunkSlices s b.part (blkCore b) bytes.length = none then b'.phase = .resident ∧ b'.place = b.place
        else b'.phase = .saved ∧ b'.place = none ∧
          (∃ r, tget t.trunk (trunkKey u true) = some r ∧ r.bytes = bytes ∧ r.slices.length = 2 ∧
            trunkSlices s b.part (blkCore b) bytes.length = some r.slices) ∧
          (b.fault = none → ∀ (k : Nat) (g : Group) (m : W64), b.groups[k]? = some g → saveMask g = some m →
            ∃ g', b'.groups[k]? = some g' ∧ SameRegisters { g' with q := (keepGroup g m).q } (keepGroup g m) ∧ g'.label = g.label ∧
              g'.offset = g.offset ∧ g'.q = (keepGroup g m).q.map (fun e => (e.1, if e.2.load then dropUnread e.2 else e.2))))) ∧
  (∀ (s : State) (f part : Nat), (fnOf s f).part = some part → pctl s part 0x115 ≠ 0 →
    let p := partOf s part
    p.sliceLen ≠ 0 → p.ctx = f → p.drain = none → p.sliceAt + p.sliceLen ≤ s.clock → residentOf s part f ≠ [] →
    ∃ t, exec (.sliceEnd f) s = .next t ∧ (partOf t part).drain = some s.clock ∧
      ∀ u ∈ residentOf s part f, ∃ b, tget t.blocks u = some b ∧ b.preempt = true) ∧
  (∀ (s : State) (u k : Nat) (v : View), viewAt s u k = some v → v.b.preempt = true → v.b.phase = .resident → v.b.fault = none →
    v.g.stopped = false → v.g.run ≠ .ended → v.g.run ≠ .parked → (saveMask v.g).isSome = true →
    exec (.preemptStop u k) s = .next (flush { v with g := { v.g with stopped := true, xreq := none } })) ∧
  ∀ (s : State) (u : Nat) (b : Block) (p : Place), tget s.blocks u = some b → b.phase = .saved →
    restoreTurn s b.part u (candidates s b.part) = true → choosePlace s b.part b.launch b.stage.toNat b.ready b.fp = some p →
    rangesOf s p.core + replayRanges s u ≤ 32 →
    ∃ t b', exec (.restore u) s = .next t ∧ tget t.blocks u = some b' ∧ b'.phase = .resident ∧ b'.place = some p ∧ b'.scratch = b.scratch ∧
      ∀ (k : Nat) (g : Group), b.groups[k]? = some g → ∃ g', b'.groups[k]? = some g' ∧ SameRegisters g' g ∧ g'.label = g.label ∧
        g'.offset = g.offset ∧ g'.lanes = g.lanes

/-- When the oldest candidate is the next block of a stage and finds a place, BLOCK_PLACEMENT makes it resident there with zeroed scratchpad,
all its groups and the launch's next sequence number. IDLE_BLOCK_PREEMPT asks the chosen idle block to give up its place to the one that
waits. STAGE_RETIRE retires a stage that may retire and fires a following stage of mode 1; with the last stage (of a launch without names,
whose function has no event ring) the launch completes with 0x0000, or 0x0240 after an error, and posts that as an event. SETTLE_EVENT
posts a set once: with the status already decided, or 0 when it is settled and 1 when it cannot be, noting it for its tensors.
AFFINITY_REASSIGN, every 4,096 clocks, gives cores only to stages of its launch, and none without demand. (R12, R26, R27, R42, R234, R292,
R293, R294, R295, R332) -/
def Obligations.SchedulingResults : Prop :=
  (∀ (s s1 : State) (part l n uid : Nat) (p : Place) (c : Cand) (rest : List Cand) (la : Launch) (b : Block), candidates s part = c :: rest →
    c.src = .fresh l n → tget s.launches l = some la → makeBlock s l n = some (s1, uid) → tget s1.blocks uid = some b →
    choosePlace s1 part b.launch b.stage.toNat b.ready b.fp = some p →
    ∃ t b', exec (.blockPlacement part) s = .next t ∧ tget t.blocks uid = some b' ∧ b'.phase = .resident ∧ b'.place = some p ∧
      b'.first = some s.clock ∧ b'.scratch = [] ∧ b'.index = b.index ∧ b'.groups.length = b.fp.groups ∧ b'.seqno = BitVec.ofNat 32 la.seq) ∧
  (∀ (s : State) (part u w : Nat) (c : Cand) (b : Block), idleVictim s part (candidates s part) = some (c, u) →
    (c.src = .waiting w ∨ c.src = .saved w ∧ u ≠ w) → tget s.blocks u = some b →
    ∃ t, exec (.idleBlockPreempt part) s = .next t ∧ tget t.blocks u = some { b with preempt := true, behind := some w }) ∧
  (∀ (s : State) (id n : Nat) (l : Launch) (st : Stage), tget s.launches id = some l → l.done = none → l.stages[n]? = some st →
    mayRetire s id l n st = true → producedBy s l n = [] →
    ((∃ (m : Nat) (x : Stage), m ≠ n ∧ l.stages[m]? = some x ∧ x.retired = false) →
      ∃ t, exec (.stageRetire id n) s = .next t ∧ stageOf t id n = some { st with retired := true } ∧ t.blocks = s.blocks ∧
        ∀ x, l.stages[n + 1]? = some x → x.fire = 1 → stageOf t id (n + 1) = some { x with fired := true, ready := s.clock }) ∧
    ((∀ (m : Nat) (x : Stage), m ≠ n → l.stages[m]? = some x → x.retired = true) → l.names = [] → (fnOf s l.fn).ring = none →
      (fnOf s l.fn).held = [] → (fnOf s l.fn).dropped = 0 →
      let code : W16 := if l.error then 0x0240 else 0
      ∃ t l' e, exec (.stageRetire id n) s = .next t ∧ tget t.launches id = some l' ∧ l'.done = some code ∧ (fnOf t l.fn).held = [e] ∧
        e.value = code.setWidth 64 ∧ e.gen = (fnOf s l.fn).gen)) ∧
  (∀ (s : State) (id pset : Nat) (l : Launch), tget s.launches id = some l → l.done = none → pset ≠ 0 → l.posted.contains pset = false →
    setEntries s l pset ≠ [] → (fnOf s l.fn).ring = none →
    let Posts := fun (st : Nat) (add : List (Nat × Nat × Nat)) =>
      ∃ t l', exec (.settleEvent id pset) s = .next t ∧ tget t.launches id = some l' ∧ l'.posted = pset :: l.posted ∧
        tget l'.decided pset = some st ∧ (partOf t l.part).settles = (partOf s l.part).settles ++ add
    let all := fun (st : Nat) => (setEntries s l pset).map (fun e => (e.1, s.clock, st))
    (∀ st, tget l.decided pset = some st → Posts st (all st)) ∧
    (tget l.decided pset = none → (settled s l pset = true → Posts 0 (all 0)) ∧
      (settled s l pset = false → unsettled s l pset = true → Posts 1 (all 1)))) ∧
  ∀ (s : State) (id : Nat) (l : Launch), tget s.launches id = some l → l.done = none → 2 ≤ l.stages.length → l.affAt + 4096 ≤ s.clock →
    ∃ t, exec (.affinityReassign id) s = .next t ∧ tget t.launches id = some { l with affAt := s.clock } ∧ t.blocks = s.blocks ∧
      ((∀ (n : Nat) (st : Stage), l.stages[n]? = some st → demand s id l n st = 0) → t.cores = s.cores) ∧
      ∀ c, coreOf t c = coreOf s c ∨ ∃ n < l.stages.length, coreOf t c = { coreOf s c with affinity := some (id, n) }

/-- The next node of a partition starts while fewer than 64 run: a malformed one ends its graph with 0x0230, a COPY, BRANCH, LOOP, WAITNAME or
SIGNAL node is running, a SUBGRAPH node below level 8 starts a graph one level deeper, a LAUNCH node the launch of its descriptor. A
running node whose work is over completes with that work's status, halts the graph when a failed status meets its halt flag, and gives its
successor one completion; SIGNAL posts its event; a COPY completes once it has read and then written every byte. A LOOP checks its body at
its start (the model's reading, log 26), leaves at its bound, reads its word once for a test, enters its body afresh when its test, if
first, holds (a body node with predecessors ends the graph with 0x0230, R355), and tests again after the body. A graph with nothing
running or ready completes with its status, and so does the LAUNCH that awaits it, with the load status of a node that has one (log 25).
(R284, R285, R286, R287, R289, R290, R291, R89, R355) -/
def Obligations.GraphResults : Prop :=
  (∀ (s : State) (gid n r : Nat) (g : Graph) (bs : List W8), tget s.graphs gid = some g → nextNode s g.part = some (r, n, gid) →
    running s g.part < 64 → g.base % 64 = 0 → readNode s g n = .done bs → g.halted = none → gid < s.nextGr →
    let Starts' := fun (P : State → Graph → NodeRun → Prop) =>
      ∃ t g', exec (.graphNodeStart gid n) s = .next t ∧ tget t.graphs gid = some g' ∧ P t g' (nodeRun g' n)
    let s1 := modNode s gid n (fun r =>
      { r with phase := .running, child := 0, iter := 0, body := [], ready := 0, buf := [], held := none, wrote := false })
    (nodeOK n bs = false → Starts' (fun _ g' x => x.phase = .done ∧ g'.halted = some 0x0230)) ∧
    (nodeOK n bs = true → 2 ≤ nKind bs → nKind bs ≤ 6 → Starts' (fun t _ x => x.phase = .running ∧ x.iter = 0 ∧ t.blocks = s.blocks)) ∧
    (nodeOK n bs = true → nKind bs = 7 → g.level < 8 → Starts' (fun t _ x => x.phase = .running ∧ x.child = s.nextGr ∧
      ∃ c, tget t.graphs s.nextGr = some c ∧ c.base = u bs 0x10 8 ∧ c.level = g.level + 1 ∧ c.part = g.part ∧ c.done = none)) ∧
    (nodeOK n bs = true → nKind bs = 1 → ∀ t id, launchNode s1 g.part g.fn (u bs 0x10 8) (u bs 0x18 8) = .started t id →
      exec (.graphNodeStart gid n) s = .next (modNode t gid n (fun r => { r with child := id })) ∧
      ∃ l, tget t.launches id = some l ∧ l.part = g.part ∧ l.fn = g.fn ∧ l.done = none ∧ l.seq = 0)) ∧
  (∀ (s : State) (gid n : Nat) (g : Graph) (bs : List W8), tget s.graphs gid = some g → (nodeRun g n).phase = .running →
    readNode s g n = .done bs →
    let r := nodeRun g n
    let Goes := fun (i : Instr) (P : State → Graph → NodeRun → Prop) =>
      ∃ t g', exec i s = .next t ∧ tget t.graphs gid = some g' ∧ P t g' (nodeRun g' n)
    let hasEnded := fun (st : W16) => (nKind bs = 1 ∧ r.child ≠ 0 ∧ (tget s.launches r.child).bind (fun l => l.done) = some st) ∨
      (nKind bs = 2 ∧ u bs 0x20 8 ≤ r.buf.length ∧ u bs 0x20 8 ≤ r.iter ∧ st = 0) ∨ (nKind bs = 3 ∧ (∃ x, testNode s g bs = .holds x) ∧ st = 0) ∨
      (nKind bs = 5 ∧ waitedStatus s g bs = some st) ∨ (nKind bs = 7 ∧ (tget s.graphs r.child).bind (fun x => x.done) = some st)
    (∀ st, hasEnded st → nSuccs bs = [] → Goes (.graphNodeComplete gid n) (fun _ g' x => x.phase = .done ∧ x.status = st ∧
      (st ≠ 0 → nHalts bs = true → g.halted = none → g'.halted = some 0x0231))) ∧
    (∀ j bj, hasEnded 0 → nKind bs ≠ 3 → nSuccs bs = [j] → j ≠ n → readNode s g j = .done bj → g.halted = none → (nodeRun g j).phase = .idle →
      Goes (.graphNodeComplete gid n) (fun _ g' x => x.phase = .done ∧ (nodeRun g' j).got = (nodeRun g j).got + 1 ∧
        ((nodeRun g j).got + 1 = max (nPreds bj) 1 → (nodeRun g' j).ready = s.clock + 1))) ∧
    (nKind bs = 6 → u bs 0x10 8 = 0 → nSuccs bs = [] → (fnOf s g.fn).ring = none →
      Goes (.graphNodeComplete gid n) (fun t _ x => x.phase = .done ∧ x.status = 0 ∧ (partOf t g.part).events =
        (partOf s g.part).events ++ [(BitVec.ofNat 32 (u bs 0x20 4), BitVec.ofNat 64 (u bs 0x18 8))])) ∧
    (nKind bs = 4 → g.halted = none →
      let go := Goes (.loopIteration gid n)
      (r.body = [] → (∀ ns, loopBody s g n bs = .body ns → go (fun _ _ x => x.phase = .running ∧ x.body = ns)) ∧
        (loopBody s g n bs = .malformed → go (fun _ g' x => x.phase = .done ∧ g'.halted = some 0x0230))) ∧
      (r.body ≠ [] → r.child = 0 → u bs 0x30 8 = 0 →
        (u bs 0x2C 4 ≤ r.iter → nSuccs bs = [] → go (fun _ _ x => x.phase = .done ∧ x.status = 0)) ∧
        (r.iter < u bs 0x2C 4 → nTestFirst bs = true → r.held = none → ∀ y, testNode s g bs = .holds y →
          go (fun _ _ x => x.phase = .running ∧ x.held = some y ∧ x.iter = r.iter ∧ x.child = 0)) ∧
        (r.iter < u bs 0x2C 4 → nTestFirst bs = true → r.held = some false → nSuccs bs = [] → go (fun _ _ x => x.phase = .done ∧ x.status = 0)) ∧
        (r.iter < u bs 0x2C 4 → (nTestFirst bs = false ∨ r.held = some true) → n ∉ r.body → u bs 0x2A 2 ∈ r.body →
          ∀ first, readNode s g (u bs 0x2A 2) = .done first →
          (nPreds first ≠ 0 → go (fun _ g' x => x.phase = .done ∧ g'.halted = some 0x0230)) ∧
          (nPreds first = 0 →
          go (fun _ g' x => x.phase = .running ∧ x.child = 1 ∧ x.iter = r.iter ∧ (nodeRun g' (u bs 0x2A 2)).ready = s.clock + 1 ∧
            ∀ j ∈ r.body, j ≠ u bs 0x2A 2 → nodeRun g' j = NodeRun.init)))) ∧
      (r.body ≠ [] → r.child = 1 → bodyBusy g r.body = false →
        (nTestFirst bs = true → go (fun _ _ x => x.iter = r.iter + 1 ∧ x.child = 0)) ∧
        (nTestFirst bs = false → ∀ y, testNode s g bs = .holds y → go (fun _ _ x => x.iter = r.iter + 1 ∧ x.child = if y then 0 else 2))))) ∧
  ∀ (s : State) (gid n : Nat) (g : Graph), tget s.graphs gid = some g → g.done = none → (∀ e ∈ g.nodes, e.2.phase ≠ .running) →
    (nodeRun g n).phase ≠ .running → readyNodes gid g = [] →
    ∃ t, exec (.graphNodeComplete gid n) s = .next t ∧ tget t.graphs gid = some { g with done := some (graphStatus g) } ∧
      ∀ id o, s.ops.find? (fun e => e.2.body == .launch gid) = some (id, o) → Finishes s t id (handleStatus g (graphStatus g))

/-- PAGE_RESIDENT makes a fetched page with room resident with the cellar's bytes and their check words, and asks the cellar port for its
lines. EVICTION begins when the page may leave and must, and ends with its dirty lines in the cellar and no other byte changed.
LUMBER_SPILL moves one entry of the model's size out of a home's full room (one entry an event: the model's choice, log 6). A flit that
its output serves moves one stop on while its link is up and there is room ahead, keeping its mark; one whose sectors fail at a die
crossing or at its destination is sent again from its source, and one whose header fails its link check word is counted and sent again
over the link; a tile and an interest likewise. A failed check word is met by its clean source (the sender for a sector in transit, the
cellar for a clean line, a re-fire for provisional lines, the home for a shelf, the other trunk copy) or marks the sector or shelf lost;
with both trunk copies failed a saved block takes fault 9 of class 1. FLIT_RETRY counts a retry and sends the flits of its plane that the
sender keeps again, LINK_RETRAIN comes after 64 in a row; an echoed mark cuts a rate by an eighth, down to a 64th of its ceiling, and
4,096 quiet clocks raise it by a 64th, up to the ceiling. (R273, R274, R277, R282, R302, R304, R315, R316, R317, R318, R319, R353) -/
def Obligations.MemoryAndLinkEvents : Prop :=
  (∀ (s : State) (part tok : Nat) (e : WaitEnt) (l : Leaf), tget (partOf s part).wait tok = some e → e.state = .fetching →
    walk s part e.vpn = .ok l → findPage s part e.vpn l.frame = none → framesFit s part l e.vpn = true → (∀ f ∈ s.fns, f.2.held = []) →
    ∃ t id pg, exec (.pageResident part tok) s = .next t ∧ tget (partOf t part).wait tok = none ∧ tget t.pages id = some pg ∧ pg.part = part ∧
      pg.vpn = pageVpn l e.vpn ∧ pg.leaf = l ∧ pg.data = frameData s.cellar l.frame (pageSize l) ∧ pg.dirty = [] ∧ pg.evicting = false ∧
      pg.words = wordsOfPage pg.data ∧ t.fills = s.fills ++ [pageFill pg []]) ∧
  (∀ (s : State) (id : Nat) (pg : Page), tget s.pages id = some pg →
    (pg.evicting = false → canEvict s pg = true → mustGo s id pg = true →
      exec (.eviction id) s = .next { s with pages := tput s.pages id { pg with evicting := true } }) ∧
    (pg.evicting = true → ∃ t, exec (.eviction id) s = .next t ∧ tget t.pages id = none ∧
      (∀ k ∈ pg.dirty, bgets t.cellar (pg.leaf.frame + 128 * k) 128 = bgets pg.data (128 * k) 128) ∧
      ∀ a, (∀ k ∈ pg.dirty, a < pg.leaf.frame + 128 * k ∨ pg.leaf.frame + 128 * k + 128 ≤ a) → bget t.cellar a = bget s.cellar a)) ∧
  (∀ (s : State) (part : Nat),
    let Full := fun (h : Nat) => lumberRoom s part (some h) lineEntry = false ∧ lumberCanSpill s part (some h) = true
    ((∀ h ∈ stopsOf s part, ¬ Full h) → exec (.lumberSpill part) s = .next s) ∧
    ((∃ h ∈ stopsOf s part, Full h) → ∃ h ∈ stopsOf s part, Full h ∧ exec (.lumberSpill part) s =
      .next { s with lumber := tput s.lumber (lumberKey part h) (spilled s part h + lineEntry) })) ∧
  (∀ (s : State) (f : Flit),
    let dir := routeDir f.plane f.at' f.hdr.dst
    let next := neighbour f.at' dir
    let bad := sectorsGood f.sectors = false
    let Moves := fun (P : State → Flit → Prop) => ∃ t f', moveFlit s f = t ∧ f' ∈ t.flits ∧ f'.hdr.num = f.hdr.num ∧ P t f'
    f ∈ s.flits → (∀ g ∈ s.flits, g.hdr.num = f.hdr.num → g = f) →
    (bad → (dir = 0 ∨ linkUp s (linkId f.at' dir) = true ∧ served s f = true ∧ roomAhead s f next = true ∧ crossesDie f.at' dir = true) →
      Moves (fun t f' => f'.at' = f.src ∧ f'.entered = false ∧ sectorsGood f'.sectors = true ∧ f'.sectors.map (fun x => x.1) = f.sectors.map (fun x => x.1) ∧
        f'.hdr = f.hdr ∧ t.errs.transit = s.errs.transit + 1 ∧
        let k := if dir = 0 then inputLink f.at' f.inp else linkId f.at' dir
        (linkOf t k).refetch = (linkOf s k).refetch + 1)) ∧
    (dir ≠ 0 → linkUp s (linkId f.at' dir) = true → served s f = true → roomAhead s f next = true → ¬ (crossesDie f.at' dir = true ∧ bad) →
      Moves (fun t f' => f'.at' = next ∧ f'.inp = opposite dir ∧ f'.prev = f.inp ∧ f'.sectors = f.sectors ∧ f'.hdr.dst = f.hdr.dst ∧
        (f.hdr.mark = true → f'.hdr.mark = true) ∧ (linkOf t (linkId f.at' dir)).run = 0)) ∧
    (dir ≠ 0 → (linkUp s (linkId f.at' dir) = false ∨ served s f = false ∨ roomAhead s f next = false) → moveFlit s f = s) ∧
    (hdrGood f.plane f.hdr = true ∨ dir = 0 ∨ flitReady s f = false → crossFlit s f = moveFlit s f) ∧
    (dir ≠ 0 → flitReady s f = true → served s f = true → hdrGood f.plane f.hdr = false →
      ∃ t f', crossFlit s f = t ∧ f' ∈ t.flits ∧ f'.hdr.num = f.hdr.num ∧ f'.at' = f.at' ∧ hdrGood f'.plane f'.hdr = true ∧
        (linkOf t (linkId f.at' dir)).retries = (linkOf s (linkId f.at' dir)).retries + 1)) ∧
  (∀ (s : State) (i : Nat),
    let Again := fun (e : Instr) (P : State → Prop) => ∃ t, exec e s = .next t ∧ P t
    (∀ p, s.tpkts[i]? = some p → tileFirst s i p = true →
      let k := inputLink p.stop p.dir
      (badHdr .tile p.dir p.hdr = true → Again (.tileArrival i) (fun t => (linkOf t k).retries = (linkOf s k).retries + 1 ∧
        ∃ q, t.tpkts[i]? = some q ∧ q.stop = p.stop ∧ q.payload = p.payload ∧ hdrGood .tile q.hdr = true)) ∧
      (badHdr .tile p.dir p.hdr = false → badTile s p = true → Again (.tileArrival i) (fun t =>
        (linkOf t k).refetch = (linkOf s k).refetch + 1 ∧ t.errs.transit = s.errs.transit + 1 ∧
        ∃ q, t.tpkts[i]? = some q ∧ q.stop = p.stop ∧ q.payload = p.payload ∧ checkWords q.payload = q.words))) ∧
    ∀ p, s.ipkts[i]? = some p → interestFirst s i p = true → noTiles s p.stop = true → badHdr .interest p.dir p.hdr = true →
      let k := inputLink p.stop p.dir
      Again (.interestArrival i) (fun t => (linkOf t k).retries = (linkOf s k).retries + 1 ∧
        ∃ q, t.ipkts[i]? = some q ∧ q.stop = p.stop ∧ q.name = p.name ∧ hdrGood .interest q.hdr = true)) ∧
  (∀ (s : State) (part addr stop name u : Nat),
    let Meets := fun (x : CheckSite) (P : State → Prop) => ∃ t, exec (.checkWordFailure x) s = .next t ∧ P t
    (∀ num, Meets (.transit num) (fun t => t = { s with flits := t.flits, ipkts := t.ipkts, tpkts := t.tpkts } ∧
      (∀ (i : Nat) (f : Flit), s.flits[i]? = some f → ∃ f', t.flits[i]? = some f' ∧ f'.at' = f.at' ∧ (f.hdr.num ≠ num → f' = f) ∧
        (f.hdr.num = num → (f.sectors ≠ [] → f'.hdr = f.hdr ∧ (sectorsGood f.sectors = true → sectorsGood f'.sectors = false)) ∧
          (f.sectors = [] → hdrGood f.plane f.hdr = true → hdrGood f'.plane f'.hdr = false))) ∧
      (∀ (i : Nat) (p : IPkt), s.ipkts[i]? = some p → ∃ p', t.ipkts[i]? = some p' ∧ p'.stop = p.stop ∧ (p.hdr.num ≠ num → p' = p) ∧
        (p.hdr.num = num → hdrGood .interest p.hdr = true → hdrGood .interest p'.hdr = false)) ∧
      ∀ (i : Nat) (p : TPkt), s.tpkts[i]? = some p → ∃ p', t.tpkts[i]? = some p' ∧ p'.payload = p.payload ∧ (p.hdr.num ≠ num → p' = p) ∧
        (p.hdr.num = num → p.words ≠ [] → checkWords p.payload = p.words → checkWords p'.payload ≠ p'.words))) ∧
    (∀ id pg, pageAt s part addr = some (id, pg) → pg.dirty.contains ((addr - pg.vpn * 65536) / 128) = false →
      Meets (.cleanLine part addr) (fun t => ∃ pg', tget t.pages id = some pg' ∧
        let off := (addr - pg.vpn * 65536) / 128 * 128
        bgets pg'.data off 128 = bgets s.cellar (pg.leaf.frame + off) 128 ∧ (∀ a, a < off ∨ off + 128 ≤ a → bget pg'.data a = bget pg.data a) ∧
          t.errs.refetch = s.errs.refetch + 1)) ∧
    (∀ b x, tget s.blocks u = some b → mayRefire b = true → b.prov ≠ [] → b.record = some x → b.partners = [] → b.refires < 8 →
      Meets (.provisional u) (fun t => ∃ b', tget t.blocks u = some b' ∧ b'.prov = [] ∧ b'.scratch = x.scratch ∧ b'.commits = x.commits ∧
        b'.refires = b.refires + 1)) ∧
    ((∀ h ∈ (stopAt s stop).shelves, h.payload ≠ []) → nameHome s part name ≠ some stop →
      Meets (.cacheShelf stop part name) (fun t => ∀ vmin, shelfAnswer t part stop name vmin = none)) ∧
    ((nameRec s part name).payload ≠ [] → pubLogged s (nameRec s part name) = false →
      Meets (.homeShelf part name) (fun t => t.lost.contains (lostName part name) = true)) ∧
    Meets (.dirtyLine part addr) (fun t => t.lost.contains (lostKey part addr) = true) ∧
    (∀ b r x y, tget s.blocks u = some b → b.phase = .saved → b.fault = none → b.ending = none → tget s.trunk (trunkKey u true) = some r →
      r.slices = [x, y] → x ≠ y →
      (r.bad = [] → Meets (.trunkCopies u) (fun t => t.blocks = s.blocks ∧ t.errs.refetch = s.errs.refetch + 1)) ∧
      (r.bad = [x] → Meets (.trunkCopies u) (fun t => ∃ b' f, tget t.blocks u = some b' ∧ b'.fault = some f ∧ f.cls = 1 ∧ f.code = 9)))) ∧
  (∀ (s : State) (k plane : Nat),
    let l := linkOf s k
    (l.run < 64 → exec (.flitRetry k plane) s =
      .next { s with links := tput s.links k { l with retries := l.retries + 1, run := l.run + 1 }, flits := s.flits.map (sentAgain s k plane) }) ∧
    (∀ f, planeNum f.plane = plane → f.at' = neighbour (k / 8) (k % 8) → f.inp = opposite (k % 8) → f.since = s.clock →
      ((tget l.kept plane).getD []).contains f.hdr.num = true → sentAgain s k plane f = { f with at' := k / 8, inp := f.prev }) ∧
    (64 ≤ l.run → exec (.linkRetrain k) s = .next { s with links := tput s.links k { l with run := 0, retrain := l.retrain + 1 } })) ∧
  ∀ (s : State) (core part cls : Nat), cls < 4 →
    let c := ceilingOf s part cls
    let x := rateOf s core part cls
    (∃ t, exec (.echoedMark core part cls) s = .next t ∧ rateOf t core part cls = { x with r := max (c / 64) (x.r - x.r / 8), quiet := 0 } ∧
      t.blocks = s.blocks ∧ t.pages = s.pages) ∧
    (thas s.rates (rateKey core part cls) = true → 4096 ≤ x.quiet →
      ∃ t, exec (.rateQuietExpiry core part cls) s = .next t ∧ rateOf t core part cls = { x with r := min c (x.r + c / 64), quiet := 0 } ∧
        t.blocks = s.blocks ∧ t.pages = s.pages)

/-- TRACE_SAMPLE, between two clocks once its period has passed, appends a record of the partition's one resident group with its position,
lanes, the counter of the clock just ended and its issue count (the moment is the model's choice, log 39). TRACE_DRAIN writes the oldest
record to the trace area and advances TPTR by 64, or, with an area of no length, drops it and counts it (the model's reading, log 19);
once there is room again one loss record gives the count. An idle cluster starts to drain, is gated once its buffer is empty, and after
108,800 clocks with only loss records left. A cleared hold slot releases the lanes it holds; one that is set takes its place and the block
being handled. Setting TBASE or TLEN clears TPTR, and setting BRING clears BPTR. (R363, R364, R365, R366, R367, R371, R20) -/
def Obligations.TraceAndGatingEvents : Prop :=
  (∀ (s : State) (part u : Nat) (b : Block) (g : Group), s.blocks = [(u, b)] → b.part = part → b.kind ≠ .handler → b.phase = .resident →
    b.groups = [g] → g.run ≠ .ended → pctl s part 0x175 ≠ 0 → traceOn s part 4 = true →
    (partOf s part).sampled + (pctl s part 0x175).toNat ≤ s.clock → clockFresh s part = true →
    let buf := fun (s : State) => (tgetD s.clusters (clusterOf (blkCore b)) Cluster.init).buf
    bufUnits (buf s) < 1024 →
    ∃ t r, exec (.traceSample part) s = .next t ∧ t.blocks = s.blocks ∧ (partOf t part).sampled = s.clock ∧ buf t = buf s ++ [r] ∧ r.kind = 4 ∧
      r.label = g.label ∧ r.offset = g.offset ∧ r.mask = g.active ∧ r.a = BitVec.ofNat 64 g.last ∧ r.b = ctrOf g 0 ∧ r.time = s.clock - 1) ∧
  (∀ (s : State) (cl : Nat) (r : TRec) (rest : List TRec),
    let c := fun (s : State) => tgetD s.clusters cl Cluster.init
    let len := (pctl s r.part 0x172).toNat * 4096
    let ptr := (pctl s r.part 0x173).toNat
    (c s).buf = r :: rest → bufUnits (c s).buf ≤ 1024 → (c s).lost = [] →
    (len = 0 → ∃ t, exec (.traceDrain cl) s = .next t ∧ (c t).buf = rest ∧ tget (c t).lost r.part = some (recWeight r)) ∧
    (∀ s1 pid off, len ≠ 0 → r.ext = [] → (pctl s r.part 0x170).getLsbD 15 = false → traceOn s r.part 6 = false →
      meet s none r.part ((pctl s r.part 0x171).toNat + ptr % len) false true = (s1, .page pid off) →
      ∃ t pg, exec (.traceDrain cl) s = .next t ∧ (c t).buf = rest ∧ tget t.pages pid = some pg ∧ bgets pg.data off 64 = recBytes r ∧
        pctl t r.part 0x173 = pctl s r.part 0x173 + 64)) ∧
  (∀ (s : State) (cl part n : Nat),
    let c := fun (s : State) => tgetD s.clusters cl Cluster.init
    (c s).buf = [] → (c s).lost = [(part, n)] →
    (areaReady s part = false → exec (.traceDrain cl) s = .next s) ∧
    (areaReady s part = true → ∃ t x, exec (.traceDrain cl) s = .next t ∧ (c t).buf = [x] ∧ (c t).lost = [] ∧ x.kind = 8 ∧ x.part = part ∧
      x.time = s.clock ∧ x.a = BitVec.ofNat 64 n)) ∧
  (∀ (s : State) (cl : Nat), clusterIdle s cl = true →
    let c := fun (s : State) => tgetD s.clusters cl Cluster.init
    let Gates := fun (P : State → Prop) => ∃ t, exec (.clusterPowerGate cl) s = .next t ∧ P t
    (c s).gated = false →
    ((c s).gateAt = none → Gates (fun t => (c t).gateAt = some s.clock ∧ (c t).buf = (c s).buf ∧ (c t).gated = false)) ∧
    ∀ at', (c s).gateAt = some at' →
      ((c s).buf = [] → (c s).lost = [] → Gates (fun t => (c t).gated = true ∧ (c t).buf = [])) ∧
      (at' + 108800 ≤ s.clock → Gates (fun t => (c t).gated = true ∧ ∀ r ∈ (c t).buf, r.kind = 8))) ∧
  (∀ (s : State) (part k : Nat) (x : W64), k < 8 → x &&& ~~~0xC00FFFFF0000007F = 0 →
    let n := 0x178 + k
    (x.getLsbD 63 = false →
      ∃ t, exec (.holdSlotWrite part k x) s = .next t ∧ pctl t part n = x &&& 0x000FFFFF00000000 ∧ tget (partOf t part).holds k = none ∧
        ∀ u m v, tget (partOf s part).holds k = some (u, m) → viewAt s u (fld (pctl s part n) 48 4).toNat = some v →
          ∃ w, viewAt t u v.gid = some w ∧ SameRegisters w.g v.g ∧ ∀ l < 64, laneAt w.g l =
            let y := laneAt v.g l
            if m.getLsbD l = true ∧ y.mode = .held then { y with mode := y.prior, prior := .run } else y) ∧
    (∀ u b, x.getLsbD 63 = true → partBinder s part = some u → (pctl s part n).getLsbD 63 = false → tget s.blocks u = some b →
      (fld x 32 16).toNat < labelCount s b →
      ∃ t, exec (.holdSlotWrite part k x) s = .next t ∧ pctl t part n = x &&& 0x800FFFFF00000000 ∧
        tget (partOf t part).holds k = some (u, 0) ∧ t.blocks = s.blocks)) ∧
  ∀ (s : State) (part : Nat) (len : Bool) (x : W64),
    (let n := if len then 0x172 else 0x171
     (∃ m, ctlMask n = some m ∧ x &&& ~~~m = 0) →
     traceReach s part (if len then pctl s part 0x171 else x) (if len then x else pctl s part 0x172) = true →
     ∃ t, exec (.traceAreaSet part len x) s = .next t ∧ pctl t part n = x ∧ pctl t part 0x173 = 0 ∧ t.blocks = s.blocks) ∧
    (x >>> 48 = 0 → ringReach s part x = true →
      ∃ t, exec (.blockRingSet part x) s = .next t ∧ pctl t part 0x176 = x ∧ pctl t part 0x177 = 0 ∧ t.blocks = s.blocks)

/-- A function that the host link exposes has a doorbell accepted while it is not busy. The command that rang runs once every earlier doorbell
has begun and the function's host writes have been applied: its effect takes place, then done is set with its status and busy is clear.
FWLOAD stores a verified image in the other bank; CFGWRITE keeps a record for the next reset; ATTEST reports its nonce; PARTSET sets
budgets; BINDFN binds; HANDLER and LOADIMG load an image and extend M3; EVRING sets the ring; RESETFN raises the generation; GRAPHSTART
starts a graph; REPLAY and FLTCANCEL act on a wait-table entry; WINREG, RANKMAP and BAR2BASE set their registers; SYNCSUM returns its
snapshot. A virtual function is refused the physical one's commands. A doorbell while busy is counted, and done is cleared by a write. The
model's choices: the layouts of response words and what RESETFN clears and keeps (log 15), status 2 for an invalid payload (log 33).
(R236, R275, R276, R284, R321, R385, R386, R388, R389, R390, R391, R392) -/
def Obligations.MailboxResults : Prop :=
  ∀ (s : State) (f : Nat), exposed s f = true →
    let m := (fnOf s f).mb
    (∀ i c, (i, c) ∈ ([(.status f, .status)] : List (Instr × MbCmd)) ∨ (∃ x, (i, c) = (.fwload f x, .fwload x)) ∨
        (∃ x, (i, c) = (.cfgwrite f x, .cfgwrite x)) ∨ (∃ x, (i, c) = (.attest f x, .attest x)) ∨ (∃ p x, (i, c) = (.partset f p x, .partset p x)) ∨
        (∃ a p, (i, c) = (.bindfn f a p, .bindfn a p)) ∨ (∃ p a x y, (i, c) = (.handler f p a x y, .handler p a x y)) ∨
        (∃ a n, (i, c) = (.evring f a n, .evring a n)) ∨ (∃ x, (i, c) = (.resetfn f x, .resetfn x)) ∨ (∃ a, (i, c) = (.loadimg f a, .loadimg a)) ∨
        (∃ a, (i, c) = (.graphstart f a, .graphstart a)) ∨ (∃ w, (i, c) = (.replay f w, .replay w)) ∨ (∃ w, (i, c) = (.fltcancel f w, .fltcancel w)) ∨
        (∃ w b l n r, (i, c) = (.winreg f w b l n r, .winreg w b l n r)) ∨ (∃ k v, (i, c) = (.rankmap f k v, .rankmap k v)) ∨
        (∃ b, (i, c) = (.bar2base f b, .bar2base b)) ∨ (∃ k, (i, c) = (.syncsum f k, .syncsum k)) →
      m.busy = false → exec i s = .next (setFn s f { fnOf s f with mb := { m with busy := true, mbcmd := w64 (cmdCode c), cmd := some c, turn := nextTurn s, begun := false } })) ∧
    (m.busy = true → exec (.doorbellWhileBusy f) s = .next (setFn s f { fnOf s f with mb := { m with missed := m.missed + 1 } })) ∧
    exec (.mbstatDoneClear f) s = .next (setFn s f { fnOf s f with mb := { m with done := false } }) ∧
    (m.busy = true → hasTurn s m = true → (fnOf s f).writes = [] → s.mgmt.recovery = false →
      let Measures := fun (s t : State) (im : Image) => t.mgmt.m3 = extend s.mgmt.m3 (im.head ++ wordBytes (im.versions.headD []))
      let Loaded := fun (part addr id : Nat) (im : Image) => findImage s part addr = some (id, im) ∧ tget s.images id = some im ∧ im.status = 0 ∧
        cpRead s part addr 32 = .done im.head
      let Ends := fun (i : Instr) (c : MbCmd) (st : W16) (P : State → List W8 → Prop) => m.cmd = some c →
        ∃ t resp, exec i s = .next t ∧ P t resp ∧
          (fnOf t f).mb = { m with busy := false, done := true, status := st, resp := resp, cmd := none, begun := false }
      (Ends (.status f) .status 0 (fun t resp => t.mgmt = s.mgmt ∧ leNat ((resp.drop 8).take 8) = activeSvn s.mgmt % 2 ^ 64)) ∧
      (∀ code, m.cmd = some (.unknown code) → ∃ t, execUnknown f code s = .next t ∧ (fnOf t f).mb.busy = false ∧ (fnOf t f).mb.done = true ∧
        (fnOf t f).mb.status = 2 ∧ t.parts = s.parts) ∧
      (f ≠ 0 → ∀ p rs a n, Ends (.partset f p rs) (.partset p rs) 3 (fun t _ => t.parts = s.parts) ∧
        Ends (.bindfn f a n) (.bindfn a n) 3 (fun t _ => t.parts = s.parts) ∧ Ends (.resetfn f a) (.resetfn a) 3 (fun t _ => t.parts = s.parts)) ∧
      (f = 0 →
        (∀ x r, s.mgmt.record = some r → m.cmd = some (.fwload x) →
          ∃ t, exec (.fwload f x) s = .next t ∧ (fnOf t f).mb.busy = false ∧ (fnOf t f).mb.done = true ∧
            if firmwareOK r x then (fnOf t f).mb.status = 0 ∧ t.mgmt.useNext = true ∧
              (if s.mgmt.active then t.mgmt.bank0 else t.mgmt.bank1) = some x
            else (fnOf t f).mb.status = 4 ∧ t.mgmt = s.mgmt) ∧
        (∀ x, Ends (.cfgwrite f x) (.cfgwrite x) 0 (fun t _ => t.mgmt = { s.mgmt with next := some x })) ∧
        (∀ part rs, part < 16 → (∀ p, putBudgets (partOf s part) rs = some p →
            Ends (.partset f part rs) (.partset part rs) 0 (fun t _ => partOf t part = p)) ∧
          (putBudgets (partOf s part) rs = none → Ends (.partset f part rs) (.partset part rs) 2 (fun t _ => t.parts = s.parts))) ∧
        (∀ a part, thas s.parts part = true → exposed s a = true →
          Ends (.bindfn f a part) (.bindfn a part) 0 (fun t _ => (fnOf t a).part = some part)) ∧
        (∀ part addr xs cs id im, thas s.parts part = true → Loaded part addr id im →
          Ends (.handler f part addr xs cs) (.handler part addr xs cs) 0 (fun t _ =>
            (∃ hi, (partOf t part).himage = some hi ∧ hi.image = id ∧ hi.args = xs.take 16) ∧ Measures s t im)) ∧
        (∀ a, exposed s a = true → m.cmd = some (.resetfn a) → ∃ t, exec (.resetfn f a) s = .next t ∧ (fnOf t f).mb.busy = false ∧
          (fnOf t f).mb.done = true ∧ (fnOf t f).mb.status = 0 ∧ (fnOf t a).gen = (fnOf s a).gen + 1 ∧ (fnOf t a).held = [] ∧ (fnOf t a).bar2 = 0 ∧
          (fnOf t a).stale = (fnOf s a).stale + (fnOf s a).held.length + (fnOf s a).dropped ∧ (fnOf t a).part = (fnOf s a).part ∧
          (a ≠ f → (fnOf t a).mb = Mailbox.init))) ∧
      (∀ x, x.length = 4 → Ends (.attest f x) (.attest x) 0 (fun t resp => t.mgmt = s.mgmt ∧ resp.take 32 = wordBytes x ∧
        cut resp 48 48 = digestBytes s.mgmt.m0)) ∧
      (∀ b, Ends (.bar2base f b) (.bar2base b) 0 (fun t _ => (fnOf t f).bar2 = b)) ∧
      (∀ k, k ≠ 0 → Ends (.syncsum f k) (.syncsum k) 0 (fun t resp => resp = wordBytes ((fnOf s f).snap.take 480) ∧ (fnOf t f).snap = (fnOf s f).snap.drop 480)) ∧
      Ends (.syncsum f 0) (.syncsum 0) 0 (fun t resp => resp.length ≤ 3840 ∧ t.blocks = s.blocks ∧ t.parts = s.parts) ∧
      (∀ p, (fnOf s f).part = some p →
        (∀ a n, n ≠ 0 → n % 32 = 0 → inReach s p a (a + n) = true → (fnOf s f).held = [] → (fnOf s f).dropped = 0 →
          Ends (.evring f a n) (.evring a n) 0 (fun t _ => (fnOf t f).ring = some (a, n) ∧ (fnOf t f).ptr = 0)) ∧
        (∀ a id im, Loaded p a id im →
          Ends (.loadimg f a) (.loadimg a) 0 (fun t resp => resp = wordBytes [0, 0] ∧ Measures s t im)) ∧
        (∀ a, Ends (.graphstart f a) (.graphstart a) 0 (fun t _ => ∃ g, tget t.graphs s.nextGr = some g ∧ g.base = a ∧ g.fn = f ∧ g.part = p ∧
          g.level = 0 ∧ g.started = s.clock ∧ g.done = none)) ∧
        (∀ w, liveEntry s p w = none → Ends (.replay f w) (.replay w) 1 (fun t _ => t.parts = s.parts) ∧
          Ends (.fltcancel f w) (.fltcancel w) 1 (fun t _ => t.parts = s.parts)) ∧
        (∀ w tok e, liveEntry s p w = some (tok, e) →
          (e.state ≠ .replay → Ends (.replay f w) (.replay w) 0 (fun t _ => t.parts = s.parts)) ∧
          (∀ l, e.state = .replay → walk s p e.vpn = .ok l →
            Ends (.replay f w) (.replay w) 0 (fun t _ => tget (partOf t p).wait tok = some { e with state := .fetching })) ∧
          (s.ops = [] → Ends (.fltcancel f w) (.fltcancel w) 0 (fun t _ => tget (partOf t p).wait tok = none)) ∧
          (∀ id o vs, s.ops = [(id, o)] → o.body = .pages vs → partOfBlk s o.blk = p → e.vpn ∈ vs →
            Ends (.fltcancel f w) (.fltcancel w) 0 (fun t _ => tget (partOf t p).wait tok = none ∧ Finishes s t id 0x0103) ∧
            ∀ x, e.state = .replay → walk s p e.vpn = .error x →
              Ends (.replay f w) (.replay w) 0 (fun t _ => tget (partOf t p).wait tok = none ∧ Finishes s t id 0x0102 ∧
                ∀ u b, tget s.blocks u = some b → ∃ b', tget t.blocks u = some b' ∧ b'.fault = b.fault))) ∧
        (∀ wid b len n r, wid < 2 ^ 16 → 0 < n → n ≤ 4096 → r < n → len < 2 ^ 48 → inReach s p b (b + len) = true →
          ((partOf s p).wins.length < 256 ∨ thas (partOf s p).wins wid = true) →
          Ends (.winreg f wid b len n r) (.winreg wid b len n r) 0 (fun t _ => ∃ x, tget (partOf t p).wins wid = some x ∧ x.base = b ∧ x.length = len ∧
            x.nranks = n ∧ x.myrank = r ∧ x.cin = 0 ∧ x.cout = 0)) ∧
        (∀ k v, k < 4096 → fld v 48 16 = 0 → fld v 2 10 = 0 → (v.getLsbD 1 = true → fld v 36 12 = 0 ∧ fld v 12 16 = 0) →
          Ends (.rankmap f k v) (.rankmap k v) 0 (fun t _ => tget (partOf t p).ranks k = some v))))

/-- A host write through BAR2 of bytes on one resident page stores them; a host read returns the committed bytes. Through BAR0 a write fills
the payload window or rings the doorbell with the command it names, and a read of MBSTAT returns its word. POWER_ON_RESET leaves the reset
state with the flash and the cellar kept (the cellar lies outside the device: the model's reading, log 34): the device is either ready,
with a record and a firmware image that verify and are measured, ports and links that do not train down, or in recovery mode, M0 holds the
boot ROM and M3 is 0, and the record's minimum version never falls. The power cap and the thermal slowdown change nothing else; the
thermal stop ends issue on every core and posts an event to function 0. Pausing a function asks its resident blocks to stop (the model's
reading, log 34); resuming it drops held events of an older generation and counts them. (R3, R322, R345, R351, R384, R385, R386, R388,
R393) -/
def Obligations.HostAndPowerEvents : Prop :=
  (∀ (s : State) (f off p : Nat), (fnOf s f).part = some p →
    (∀ bs s1 pid o, inBar2 s f off bs.length = true → bs ≠ [] → (fnOf s f).writes = [] → ((fnOf s f).bar2 + off) % 8 = 0 → bs.length ≤ 8 →
      let x := fnOf s f
      meet (setFn s f { x with writes := [(x.bar2 + off, bs)] }) none p (x.bar2 + off) false true = (s1, .page pid o) →
      ∃ t pg, exec (.hostWrite f ⟨2, off⟩ bs) s = .next t ∧ tget t.pages pid = some pg ∧ bgets pg.data o bs.length = bs ∧ (fnOf t f).writes = [] ∧
        t.blocks = s.blocks) ∧
    (∀ n bs, inBar2 s f off n = true → n ≠ 0 → (fnOf s f).reads = [] → devLoad s p ((fnOf s f).bar2 + off) n = .done bs →
      ∃ t, exec (.hostRead f ⟨2, off⟩ n) s = .next t ∧ (fnOf t f).rdata = bs ∧ (fnOf t f).reads = [] ∧ t.pages = s.pages ∧ t.blocks = s.blocks)) ∧
  (∀ (s : State) (f off : Nat) (bs : List W8), exposed s f = true →
    let m := (fnOf s f).mb
    (0x100 ≤ off → off + bs.length ≤ 0x1000 → bs ≠ [] →
      ∃ t, exec (.hostWrite f ⟨0, off⟩ bs) s = .next t ∧ bgets (fnOf t f).mb.pay (off - 0x100) bs.length = bs ∧ (fnOf t f).mb.busy = m.busy ∧
        (fnOf t f).mb.done = m.done) ∧
    (bs.length = 8 → m.busy = false → leNat bs < 2 ^ 20 →
      ∃ t, exec (.hostWrite f ⟨0, 0⟩ bs) s = .next t ∧ (fnOf t f).mb.busy = true ∧ (fnOf t f).mb.mbcmd = BitVec.ofNat 64 (leNat bs) ∧
        (fnOf t f).mb.cmd = some (payloadCmd (leNat bs % 256) (bgets m.pay 0 (leNat bs / 256)))) ∧
    (exec (.hostRead f ⟨0, 8⟩ 8) s = .next (setFn s f { fnOf s f with rdata := leBytes 8 (mbstat m) }))) ∧
  (∀ s : State, ∃ t, exec .powerOnReset s = .next t ∧ t.cellar = s.cellar ∧ t.mgmt.bank0 = s.mgmt.bank0 ∧ t.mgmt.bank1 = s.mgmt.bank1 ∧
    t = { State.reset with mgmt := t.mgmt, cellar := s.cellar, agenda := s.agenda, free := s.free, firmware := s.firmware, ports := t.ports,
                           links := t.links } ∧
    t.mgmt.m0 = extend 0 Config.bootRom ∧ t.mgmt.m3 = 0 ∧ t.mgmt.recovery = !t.mgmt.ready ∧
    (t.mgmt.ready = true → ∃ r fw, t.mgmt.record = some r ∧ recordOK r = true ∧
      (if t.mgmt.active then s.mgmt.bank1 else s.mgmt.bank0) = some fw ∧ firmwareOK r fw = true ∧
      t.mgmt.m1 = extend 0 fw.bytes ∧ t.mgmt.m2 = extend 0 r.bytes ∧ t.mgmt.ilv = recIlv r ∧ t.mgmt.downCellar = s.mgmt.badCellar ∧
      (∀ p, (portOf t p).down = true ↔ p ∈ s.mgmt.badPorts) ∧ ∀ k, (linkOf t k).down = true ↔ k ∈ s.mgmt.badLinks) ∧
    ∀ r r', s.mgmt.record = some r → t.mgmt.record = some r' → recMinsvn r ≤ recMinsvn r') ∧
  (∀ (s : State) (on : Bool), exec (.powerCap on) s = .next { s with mgmt := { s.mgmt with slow := on } } ∧
    exec (.thermalSlowdown on) s = .next { s with mgmt := { s.mgmt with hot := on } }) ∧
  (∀ s : State, s.mgmt.stopped = false → (fnOf s 0).ring = none → (fnOf s 0).held = [] → (fnOf s 0).dropped = 0 →
    ∃ t e, exec .thermalStop s = .next t ∧ t.mgmt.stopped = true ∧ nextIssuer t = none ∧ (fnOf t 0).held = [e] ∧ t.blocks = s.blocks) ∧
  ∀ (s : State) (f : Nat),
    let x := fnOf s f
    (x.paused = false → ∃ t, exec (.functionMigrationPause f) s = .next t ∧ (fnOf t f).paused = true ∧
      ∀ p, x.part = some p → ∀ u ∈ residentOf s p f, ∃ b, tget t.blocks u = some b ∧ b.preempt = true) ∧
    (x.paused = true → x.running = true → x.dropped = 0 → (∀ e ∈ x.held, e.gen ≠ x.gen) → x.held.length ≤ 255 →
      ∃ t, exec (.functionMigrationResume f) s = .next t ∧ (fnOf t f).paused = false ∧ (fnOf t f).held = [] ∧
        (fnOf t f).stale = x.stale + x.held.length ∧ t.blocks = s.blocks)
end

