-- ==== Sys2Proof/Laws/Arith.lean ====
section
/-! SUPPORT. What Fit and Sat of R103 hold: the number modulo the width, extended under the type. -/
namespace Sys2Proof.Machine
open Sys2Proof

theorem tyWidth_pos (t : Ty) : 0 < tyWidth t := by cases t <;> decide

/-- The integer types are at most 64 bits wide. -/
theorem tyWidth_le (t : Ty) : tyWidth t ≤ 64 := by cases t <;> decide

theorem toInt_setWidth_signExtend {w : Nat} (hw : w ≤ 64) (b : BitVec w) : ((b.signExtend 64).setWidth w) = b := by
  apply BitVec.eq_of_getLsbD_eq
  intro i hi
  simp only [BitVec.getLsbD_setWidth, BitVec.getLsbD_signExtend]
  simp [hi, show i < 64 by omega]

/-- A value that fits within the width is the number it was made from, modulo the width. -/
theorem holdsFit_fit (t : Ty) (y : Int) : HoldsFit t y (fit t y) := by
  have hw := tyWidth_le t
  have h0 := tyWidth_pos t
  unfold HoldsFit fit val
  cases hs : tySigned t
  · simp only [Bool.false_eq_true, if_false, uns]
    have h1 : ((BitVec.ofInt (tyWidth t) y).setWidth 64).setWidth (tyWidth t) = BitVec.ofInt (tyWidth t) y := by
      apply BitVec.eq_of_toNat_eq
      have := (BitVec.ofInt (tyWidth t) y).isLt
      have h2 : 2 ^ tyWidth t ≤ 2 ^ 64 := Nat.pow_le_pow_right (by omega) hw
      simp only [BitVec.toNat_setWidth]
      rw [Nat.mod_eq_of_lt (Nat.lt_of_lt_of_le this h2), Nat.mod_eq_of_lt this]
    rw [h1]
    constructor
    · rw [BitVec.toNat_ofInt]
      have hp : (0 : Int) < 2 ^ tyWidth t := by positivity
      have hn : 0 ≤ y % ((2 ^ tyWidth t : Nat) : Int) := Int.emod_nonneg _ (by positivity)
      rw [Int.toNat_of_nonneg hn]
      push_cast
      rw [Int.sub_emod, Int.emod_emod_of_dvd _ (dvd_refl _), sub_self, Int.zero_emod]
    · have := (BitVec.ofInt (tyWidth t) y).isLt
      have h2 : 2 ^ tyWidth t ≤ 2 ^ 64 := Nat.pow_le_pow_right (by omega) hw
      simp only [BitVec.toNat_setWidth]
      rw [Nat.mod_eq_of_lt (Nat.lt_of_lt_of_le this h2)]
  · simp only [if_true, sgn]
    rw [toInt_setWidth_signExtend hw]
    constructor
    · rw [BitVec.toInt_ofInt]
      rw [show (2 : Int) ^ tyWidth t = ((2 ^ tyWidth t : Nat) : Int) by push_cast; rfl]
      have h1 : Int.ModEq ((2 ^ tyWidth t : Nat) : Int) (y.bmod (2 ^ tyWidth t)) y := Int.bmod_emod
      exact Int.emod_eq_zero_of_dvd h1.symm.dvd
    · exact BitVec.toInt_signExtend_of_le hw

end Sys2Proof.Machine
end

