-- ==== Sys2Proof/Laws/Table.lean ====
section
/-! SUPPORT. Laws of the finite maps and byte memories: read after write, and that every operation keeps the canonical form. -/
namespace Sys2Proof.Machine
open Sys2Proof

/-! ### Reading after writing -/

@[simp] theorem tget_nil {α : Type} (n : Nat) : tget ([] : Tbl α) n = none := rfl

@[simp] theorem tget_tput_same {α : Type} (t : Tbl α) (n : Nat) (a : α) : tget (tput t n a) n = some a := by
  induction t with
  | nil => simp [tput, tget]
  | cons e t ih =>
    obtain ⟨k, b⟩ := e
    simp only [tput]
    split
    · simp [tget]
    · split
      · simp [tget]
      · rename_i h1 h2
        simp [tget, Ne.symm h2, ih]

theorem tget_tput_ne {α : Type} (t : Tbl α) {n m : Nat} (a : α) (h : m ≠ n) : tget (tput t n a) m = tget t m := by
  induction t with
  | nil => simp [tput, tget, Ne.symm h]
  | cons e t ih =>
    obtain ⟨k, b⟩ := e
    simp only [tput]
    split
    · simp [tget, Ne.symm h]
    · split
      · rename_i h1 h2
        subst h2
        simp [tget, Ne.symm h]
      · simp only [tget]
        split
        · rfl
        · exact ih

theorem tget_tput {α : Type} (t : Tbl α) (n m : Nat) (a : α) : tget (tput t n a) m = if m = n then some a else tget t m := by
  split
  · rename_i h; subst h; simp
  · exact tget_tput_ne t a ‹_›

@[simp] theorem tgetD_tput_same {α : Type} (t : Tbl α) (n : Nat) (a d : α) : tgetD (tput t n a) n d = a := by simp [tgetD]

theorem tgetD_tput_ne {α : Type} (t : Tbl α) {n m : Nat} (a d : α) (h : m ≠ n) : tgetD (tput t n a) m d = tgetD t m d := by
  simp [tgetD, tget_tput_ne t a h]

@[simp] theorem thas_tput_same {α : Type} (t : Tbl α) (n : Nat) (a : α) : thas (tput t n a) n = true := by simp [thas]

theorem thas_iff {α : Type} (t : Tbl α) (n : Nat) : thas t n = true ↔ ∃ a, tget t n = some a := by
  simp [thas, Option.isSome_iff_exists]

@[simp] theorem tget_tdel_same {α : Type} (t : Tbl α) (n : Nat) : tget (tdel t n) n = none := by
  induction t with
  | nil => rfl
  | cons e t ih =>
    obtain ⟨k, b⟩ := e
    simp only [tdel, List.filter_cons, bne_iff_ne, ne_eq] at ih ⊢
    by_cases h : k = n
    · simpa [h] using ih
    · simpa [h, tget] using ih

theorem tget_tdel_ne {α : Type} (t : Tbl α) {n m : Nat} (h : m ≠ n) : tget (tdel t n) m = tget t m := by
  induction t with
  | nil => rfl
  | cons e t ih =>
    obtain ⟨k, b⟩ := e
    simp only [tdel, List.filter_cons, bne_iff_ne, ne_eq] at ih ⊢
    by_cases hk : k = n
    · subst hk; simpa [tget, Ne.symm h] using ih
    · simp only [hk, not_false_eq_true, if_true, tget, ih]

/-! ### Keys strictly rising -/

theorem tsorted_cons_iff {α : Type} (k : Nat) (a : α) (t : Tbl α) :
    tsorted ((k, a) :: t) = true ↔ (∀ e ∈ t, k < e.1) ∧ tsorted t = true := by
  induction t generalizing k a with
  | nil => simp [tsorted]
  | cons e t ih =>
    obtain ⟨l, b⟩ := e
    simp only [tsorted, Bool.and_eq_true, decide_eq_true_eq, List.mem_cons, forall_eq_or_imp]
    constructor
    · rintro ⟨h1, h2⟩
      exact ⟨⟨h1, fun x hx => Nat.lt_trans h1 (((ih l b).1 h2).1 x hx)⟩, h2⟩
    · rintro ⟨⟨h1, _⟩, h2⟩
      exact ⟨h1, h2⟩

theorem tput_keys {α : Type} (t : Tbl α) (n : Nat) (a : α) : ∀ e ∈ tput t n a, e.1 = n ∨ e ∈ t := by
  induction t with
  | nil => simp [tput]
  | cons e t ih =>
    obtain ⟨k, b⟩ := e
    simp only [tput]
    split
    · intro x hx
      rcases List.mem_cons.1 hx with rfl | hx
      · exact .inl rfl
      · exact .inr hx
    · split
      · intro x hx
        rcases List.mem_cons.1 hx with rfl | hx
        · exact .inl rfl
        · exact .inr (List.mem_cons_of_mem _ hx)
      · intro x hx
        rcases List.mem_cons.1 hx with rfl | hx
        · simp
        · rcases ih x hx with h | h
          · exact .inl h
          · exact .inr (List.mem_cons_of_mem _ h)

theorem tsorted_tput {α : Type} (t : Tbl α) (n : Nat) (a : α) (h : tsorted t = true) : tsorted (tput t n a) = true := by
  induction t with
  | nil => rfl
  | cons e t ih =>
    obtain ⟨k, b⟩ := e
    obtain ⟨h1, h2⟩ := (tsorted_cons_iff k b t).1 h
    simp only [tput]
    split
    · rename_i hn
      exact (tsorted_cons_iff n a _).2 ⟨fun x hx => by
        rcases List.mem_cons.1 hx with rfl | hx
        · exact hn
        · exact Nat.lt_trans hn (h1 x hx), h⟩
    · split
      · rename_i hn
        subst hn
        exact (tsorted_cons_iff _ a t).2 ⟨h1, h2⟩
      · rename_i hn1 hn2
        refine (tsorted_cons_iff k b _).2 ⟨fun x hx => ?_, ih h2⟩
        rcases tput_keys t n a x hx with h' | h'
        · omega
        · exact h1 x h'

theorem tsorted_filter {α : Type} (p : Nat × α → Bool) (t : Tbl α) (h : tsorted t = true) : tsorted (t.filter p) = true := by
  induction t with
  | nil => rfl
  | cons e t ih =>
    obtain ⟨k, b⟩ := e
    obtain ⟨h1, h2⟩ := (tsorted_cons_iff k b t).1 h
    simp only [List.filter_cons]
    split
    · exact (tsorted_cons_iff k b _).2 ⟨fun x hx => h1 x (List.mem_filter.1 hx).1, ih h2⟩
    · exact ih h2

theorem tsorted_tdel {α : Type} (t : Tbl α) (n : Nat) (h : tsorted t = true) : tsorted (tdel t n) = true := tsorted_filter _ t h

theorem tsorted_tmod {α : Type} (t : Tbl α) (n : Nat) (f : α → α) (h : tsorted t = true) : tsorted (tmod t n f) = true := by
  unfold tmod
  split
  · exact tsorted_tput _ _ _ h
  · exact h

/-! ### Byte memories -/

theorem Memory.wf_iff (m : Cells) : Memory.wf m = true ↔ tsorted m = true ∧ ∀ e ∈ m, e.2 ≠ 0 := by
  simp [Memory.wf]

theorem Memory.wf_nil : Memory.wf [] = true := rfl

theorem Memory.wf_filter (p : Nat × W8 → Bool) (m : Cells) (h : Memory.wf m = true) : Memory.wf (m.filter p) = true := by
  rw [Memory.wf_iff] at h ⊢
  exact ⟨tsorted_filter p m h.1, fun e he => h.2 e (List.mem_filter.1 he).1⟩

theorem Memory.wf_bput (m : Cells) (a : Nat) (b : W8) (h : Memory.wf m = true) : Memory.wf (bput m a b) = true := by
  unfold bput
  split
  · exact Memory.wf_filter _ m h
  · rename_i hb
    rw [Memory.wf_iff] at h ⊢
    refine ⟨tsorted_tput _ _ _ h.1, ?_⟩
    have key : ∀ (t : Cells), (∀ e ∈ t, e.2 ≠ 0) → ∀ e ∈ tput t a b, e.2 ≠ 0 := by
      intro t ht
      induction t with
      | nil => intro e he; simp [tput] at he; simpa [he] using hb
      | cons x t ih =>
        obtain ⟨k, c⟩ := x
        simp only [tput]
        have ht' : ∀ e ∈ t, e.2 ≠ 0 := fun e he => ht e (List.mem_cons_of_mem _ he)
        split
        · intro e he
          rcases List.mem_cons.1 he with rfl | he
          · exact hb
          · exact ht e he
        · split
          · intro e he
            rcases List.mem_cons.1 he with rfl | he
            · exact hb
            · exact ht' e he
          · intro e he
            rcases List.mem_cons.1 he with rfl | he
            · exact ht _ (List.mem_cons_self ..)
            · exact ih ht' e he
    exact key m h.2

theorem Memory.wf_bputs (bs : List W8) (m : Cells) (a : Nat) (h : Memory.wf m = true) : Memory.wf (bputs m a bs) = true := by
  induction bs generalizing m a with
  | nil => exact h
  | cons b bs ih => exact ih _ _ (Memory.wf_bput m a b h)

theorem Memory.wf_bclear (m : Cells) (lo hi : Nat) (h : Memory.wf m = true) : Memory.wf (bclear m lo hi) = true := Memory.wf_filter _ m h

@[simp] theorem bget_nil (a : Nat) : bget [] a = 0 := rfl

@[simp] theorem bget_bput_same (m : Cells) (a : Nat) (b : W8) : bget (bput m a b) a = b := by
  unfold bput bget
  split
  · rename_i h; subst h; simp
  · simp

theorem bget_bput_ne (m : Cells) {a c : Nat} (b : W8) (h : c ≠ a) : bget (bput m a b) c = bget m c := by
  unfold bput bget
  split
  · rw [tget_tdel_ne _ h]
  · rw [tget_tput_ne _ _ h]

/-- A write leaves every byte outside it alone. -/
theorem bget_bputs_outside (bs : List W8) (m : Cells) (a c : Nat) (h : c < a ∨ a + bs.length ≤ c) : bget (bputs m a bs) c = bget m c := by
  induction bs generalizing m a with
  | nil => rfl
  | cons b bs ih =>
    simp only [List.length_cons] at h
    simp only [bputs]
    rw [ih _ _ (by omega), bget_bput_ne _ _ (by omega)]

/-- A byte inside a write reads as the byte written. -/
theorem bget_bputs_inside (bs : List W8) (m : Cells) (a i : Nat) (h : i < bs.length) : bget (bputs m a bs) (a + i) = bs[i] := by
  induction bs generalizing m a i with
  | nil => simp at h
  | cons b bs ih =>
    simp only [bputs]
    cases i with
    | zero =>
      rw [bget_bputs_outside _ _ _ _ (by omega)]
      simp
    | succ i =>
      have := ih (bput m a b) (a + 1) i (by simpa using h)
      rw [show a + (i + 1) = a + 1 + i by omega, this]
      simp

@[simp] theorem bgets_length (m : Cells) (a n : Nat) : (bgets m a n).length = n := by
  induction n generalizing a with
  | zero => rfl
  | succ n ih => simp [bgets, ih]

/-- Reading back what was written. -/
theorem bgets_bputs (bs : List W8) (m : Cells) (a : Nat) : bgets (bputs m a bs) a bs.length = bs := by
  induction bs generalizing m a with
  | nil => rfl
  | cons b bs ih =>
    simp only [List.length_cons, bgets, bputs]
    rw [ih, bget_bputs_outside _ _ _ _ (by omega)]
    simp

/-! ### Little-endian numbers -/

@[simp] theorem leBytes_length (n v : Nat) : (leBytes n v).length = n := by
  induction n generalizing v with
  | zero => rfl
  | succ n ih => simp [leBytes, ih]

theorem leNat_leBytes (n v : Nat) : leNat (leBytes n v) = v % 256 ^ n := by
  induction n generalizing v with
  | zero => simp [leBytes, leNat, Nat.mod_one]
  | succ n ih =>
    simp only [leBytes, leNat, ih, BitVec.toNat_ofNat]
    rw [show 256 ^ (n + 1) = 256 * 256 ^ n from by rw [Nat.pow_succ, Nat.mul_comm], Nat.mod_mul]

theorem leNat_lt (bs : List W8) : leNat bs < 256 ^ bs.length := by
  induction bs with
  | nil => simp [leNat]
  | cons b bs ih =>
    have := b.isLt
    simp only [leNat, List.length_cons, Nat.pow_succ]
    omega

theorem leBytes_leNat (bs : List W8) : leBytes bs.length (leNat bs) = bs := by
  induction bs with
  | nil => rfl
  | cons b bs ih =>
    have hb := b.isLt
    have h1 : (b.toNat + 256 * leNat bs) / 256 = leNat bs := by omega
    simp only [List.length_cons, leBytes, leNat, h1, ih]
    congr 1
    apply BitVec.eq_of_toNat_eq
    simp only [BitVec.toNat_ofNat]
    omega

/-! ### Lanes and rows -/

theorem getLsbD_maskUpTo (p : Nat → Bool) (n l : Nat) (hn : n ≤ 64) : (maskUpTo p n).getLsbD l = (decide (l < n) && p l) := by
  induction n with
  | zero => simp [maskUpTo]
  | succ n ih =>
    have ih := ih (by omega)
    simp only [maskUpTo]
    by_cases hl : l = n
    · subst hl
      split <;> simp_all
    · have h1 : (l < n + 1) = (l < n) := by simp; omega
      split
      · simp only [BitVec.getLsbD_or, ih, BitVec.getLsbD_twoPow, h1]
        have : (n = l) = False := by simp; omega
        simp [this]
      · simp [ih, h1]

/-- A lane is in `maskOf p` when it is one of the 64 and `p` holds of it. -/
@[simp] theorem getLsbD_maskOf (p : Nat → Bool) (l : Nat) : (maskOf p).getLsbD l = (decide (l < 64) && p l) := getLsbD_maskUpTo p 64 l (by omega)

@[simp] theorem rget_rowOf (f : Nat → W32) (l : Nat) (h : l < 64) : rget (rowOf f) l = f l := by
  simp [rget, rowOf, List.getD_eq_getElem?_getD, List.getElem?_map, List.getElem?_range h]

@[simp] theorem rowOf_length (f : Nat → W32) : (rowOf f).length = 64 := by simp [rowOf]

theorem rget_rowMerge (m : Lanes) (new old : Row) (l : Nat) (h : l < 64) :
    rget (rowMerge m new old) l = if m.getLsbD l then rget new l else rget old l := by
  simp [rowMerge, rget_rowOf _ l h]

@[simp] theorem mem_laneList (m : Lanes) (l : Nat) : l ∈ laneList m ↔ l < 64 ∧ m.getLsbD l = true := by simp [laneList]

/-! ### Lists changed at one place -/

@[simp] theorem listSet_length {α : Type} (l : List α) (n : Nat) (a : α) : (listSet l n a).length = l.length := by
  induction l generalizing n with
  | nil => rfl
  | cons b l ih => cases n <;> simp [listSet, ih]

theorem getElem?_listSet_same {α : Type} (l : List α) (n : Nat) (a : α) (h : n < l.length) : (listSet l n a)[n]? = some a := by
  induction l generalizing n with
  | nil => simp at h
  | cons b l ih =>
    cases n with
    | zero => rfl
    | succ n => simpa [listSet] using ih n (by simpa using h)

theorem getElem?_listSet_ne {α : Type} (l : List α) (n m : Nat) (a : α) (h : m ≠ n) : (listSet l n a)[m]? = l[m]? := by
  induction l generalizing n m with
  | nil => rfl
  | cons b l ih =>
    cases n with
    | zero =>
      cases m with
      | zero => exact absurd rfl h
      | succ m => rfl
    | succ n =>
      cases m with
      | zero => rfl
      | succ m => simpa [listSet] using ih n m (by omega)

end Sys2Proof.Machine
end

