-- ==== Sys2Proof/Laws/State.lean ====
section
/-! SUPPORT. One lemma per field per update of the state, of a group and of a view, each true by unfolding the update once. -/
namespace Sys2Proof.Machine
open Sys2Proof

/-! ### Updates of the state -/

@[simp] theorem setBlk_clock (s : State) (u : Nat) (b : Block) : (setBlk s u b).clock = s.clock := rfl
@[simp] theorem setBlk_free (s : State) (u : Nat) (b : Block) : (setBlk s u b).free = s.free := rfl
@[simp] theorem setBlk_agenda (s : State) (u : Nat) (b : Block) : (setBlk s u b).agenda = s.agenda := rfl
@[simp] theorem setBlk_cur (s : State) (u : Nat) (b : Block) : (setBlk s u b).cur = s.cur := rfl
@[simp] theorem setBlk_evDone (s : State) (u : Nat) (b : Block) : (setBlk s u b).evDone = s.evDone := rfl
@[simp] theorem setBlk_nextUid (s : State) (u : Nat) (b : Block) : (setBlk s u b).nextUid = s.nextUid := rfl
@[simp] theorem setBlk_ops (s : State) (u : Nat) (b : Block) : (setBlk s u b).ops = s.ops := rfl
@[simp] theorem setBlk_nextOp (s : State) (u : Nat) (b : Block) : (setBlk s u b).nextOp = s.nextOp := rfl
@[simp] theorem setBlk_ranges (s : State) (u : Nat) (b : Block) : (setBlk s u b).ranges = s.ranges := rfl
@[simp] theorem setBlk_nextRng (s : State) (u : Nat) (b : Block) : (setBlk s u b).nextRng = s.nextRng := rfl
@[simp] theorem setBlk_images (s : State) (u : Nat) (b : Block) : (setBlk s u b).images = s.images := rfl
@[simp] theorem setBlk_nextImg (s : State) (u : Nat) (b : Block) : (setBlk s u b).nextImg = s.nextImg := rfl
@[simp] theorem setBlk_launches (s : State) (u : Nat) (b : Block) : (setBlk s u b).launches = s.launches := rfl
@[simp] theorem setBlk_nextLch (s : State) (u : Nat) (b : Block) : (setBlk s u b).nextLch = s.nextLch := rfl
@[simp] theorem setBlk_graphs (s : State) (u : Nat) (b : Block) : (setBlk s u b).graphs = s.graphs := rfl
@[simp] theorem setBlk_nextGr (s : State) (u : Nat) (b : Block) : (setBlk s u b).nextGr = s.nextGr := rfl
@[simp] theorem setBlk_parts (s : State) (u : Nat) (b : Block) : (setBlk s u b).parts = s.parts := rfl
@[simp] theorem setBlk_cores (s : State) (u : Nat) (b : Block) : (setBlk s u b).cores = s.cores := rfl
@[simp] theorem setBlk_clusters (s : State) (u : Nat) (b : Block) : (setBlk s u b).clusters = s.clusters := rfl
@[simp] theorem setBlk_cellar (s : State) (u : Nat) (b : Block) : (setBlk s u b).cellar = s.cellar := rfl
@[simp] theorem setBlk_pages (s : State) (u : Nat) (b : Block) : (setBlk s u b).pages = s.pages := rfl
@[simp] theorem setBlk_lost (s : State) (u : Nat) (b : Block) : (setBlk s u b).lost = s.lost := rfl
@[simp] theorem setBlk_lumber (s : State) (u : Nat) (b : Block) : (setBlk s u b).lumber = s.lumber := rfl
@[simp] theorem setBlk_tlb (s : State) (u : Nat) (b : Block) : (setBlk s u b).tlb = s.tlb := rfl
@[simp] theorem setBlk_stops (s : State) (u : Nat) (b : Block) : (setBlk s u b).stops = s.stops := rfl
@[simp] theorem setBlk_ipkts (s : State) (u : Nat) (b : Block) : (setBlk s u b).ipkts = s.ipkts := rfl
@[simp] theorem setBlk_tpkts (s : State) (u : Nat) (b : Block) : (setBlk s u b).tpkts = s.tpkts := rfl
@[simp] theorem setBlk_links (s : State) (u : Nat) (b : Block) : (setBlk s u b).links = s.links := rfl
@[simp] theorem setBlk_rates (s : State) (u : Nat) (b : Block) : (setBlk s u b).rates = s.rates := rfl
@[simp] theorem setBlk_fns (s : State) (u : Nat) (b : Block) : (setBlk s u b).fns = s.fns := rfl
@[simp] theorem setBlk_mgmt (s : State) (u : Nat) (b : Block) : (setBlk s u b).mgmt = s.mgmt := rfl
@[simp] theorem setBlk_flits (s : State) (u : Nat) (b : Block) : (setBlk s u b).flits = s.flits := rfl
@[simp] theorem setBlk_nextFlit (s : State) (u : Nat) (b : Block) : (setBlk s u b).nextFlit = s.nextFlit := rfl
@[simp] theorem setBlk_fills (s : State) (u : Nat) (b : Block) : (setBlk s u b).fills = s.fills := rfl
@[simp] theorem setBlk_ports (s : State) (u : Nat) (b : Block) : (setBlk s u b).ports = s.ports := rfl
@[simp] theorem setBlk_trunk (s : State) (u : Nat) (b : Block) : (setBlk s u b).trunk = s.trunk := rfl
@[simp] theorem setBlk_errs (s : State) (u : Nat) (b : Block) : (setBlk s u b).errs = s.errs := rfl
@[simp] theorem setBlk_firmware (s : State) (u : Nat) (b : Block) : (setBlk s u b).firmware = s.firmware := rfl

@[simp] theorem setBlk_blocks (s : State) (u : Nat) (b : Block) : (setBlk s u b).blocks = tput s.blocks u b := rfl

@[simp] theorem setPart_clock (s : State) (p : Nat) (x : Part) : (setPart s p x).clock = s.clock := rfl
@[simp] theorem setPart_free (s : State) (p : Nat) (x : Part) : (setPart s p x).free = s.free := rfl
@[simp] theorem setPart_agenda (s : State) (p : Nat) (x : Part) : (setPart s p x).agenda = s.agenda := rfl
@[simp] theorem setPart_cur (s : State) (p : Nat) (x : Part) : (setPart s p x).cur = s.cur := rfl
@[simp] theorem setPart_evDone (s : State) (p : Nat) (x : Part) : (setPart s p x).evDone = s.evDone := rfl
@[simp] theorem setPart_blocks (s : State) (p : Nat) (x : Part) : (setPart s p x).blocks = s.blocks := rfl
@[simp] theorem setPart_nextUid (s : State) (p : Nat) (x : Part) : (setPart s p x).nextUid = s.nextUid := rfl
@[simp] theorem setPart_ops (s : State) (p : Nat) (x : Part) : (setPart s p x).ops = s.ops := rfl
@[simp] theorem setPart_nextOp (s : State) (p : Nat) (x : Part) : (setPart s p x).nextOp = s.nextOp := rfl
@[simp] theorem setPart_ranges (s : State) (p : Nat) (x : Part) : (setPart s p x).ranges = s.ranges := rfl
@[simp] theorem setPart_nextRng (s : State) (p : Nat) (x : Part) : (setPart s p x).nextRng = s.nextRng := rfl
@[simp] theorem setPart_images (s : State) (p : Nat) (x : Part) : (setPart s p x).images = s.images := rfl
@[simp] theorem setPart_nextImg (s : State) (p : Nat) (x : Part) : (setPart s p x).nextImg = s.nextImg := rfl
@[simp] theorem setPart_launches (s : State) (p : Nat) (x : Part) : (setPart s p x).launches = s.launches := rfl
@[simp] theorem setPart_nextLch (s : State) (p : Nat) (x : Part) : (setPart s p x).nextLch = s.nextLch := rfl
@[simp] theorem setPart_graphs (s : State) (p : Nat) (x : Part) : (setPart s p x).graphs = s.graphs := rfl
@[simp] theorem setPart_nextGr (s : State) (p : Nat) (x : Part) : (setPart s p x).nextGr = s.nextGr := rfl
@[simp] theorem setPart_cores (s : State) (p : Nat) (x : Part) : (setPart s p x).cores = s.cores := rfl
@[simp] theorem setPart_clusters (s : State) (p : Nat) (x : Part) : (setPart s p x).clusters = s.clusters := rfl
@[simp] theorem setPart_cellar (s : State) (p : Nat) (x : Part) : (setPart s p x).cellar = s.cellar := rfl
@[simp] theorem setPart_pages (s : State) (p : Nat) (x : Part) : (setPart s p x).pages = s.pages := rfl
@[simp] theorem setPart_lost (s : State) (p : Nat) (x : Part) : (setPart s p x).lost = s.lost := rfl
@[simp] theorem setPart_lumber (s : State) (p : Nat) (x : Part) : (setPart s p x).lumber = s.lumber := rfl
@[simp] theorem setPart_tlb (s : State) (p : Nat) (x : Part) : (setPart s p x).tlb = s.tlb := rfl
@[simp] theorem setPart_stops (s : State) (p : Nat) (x : Part) : (setPart s p x).stops = s.stops := rfl
@[simp] theorem setPart_ipkts (s : State) (p : Nat) (x : Part) : (setPart s p x).ipkts = s.ipkts := rfl
@[simp] theorem setPart_tpkts (s : State) (p : Nat) (x : Part) : (setPart s p x).tpkts = s.tpkts := rfl
@[simp] theorem setPart_links (s : State) (p : Nat) (x : Part) : (setPart s p x).links = s.links := rfl
@[simp] theorem setPart_rates (s : State) (p : Nat) (x : Part) : (setPart s p x).rates = s.rates := rfl
@[simp] theorem setPart_fns (s : State) (p : Nat) (x : Part) : (setPart s p x).fns = s.fns := rfl
@[simp] theorem setPart_mgmt (s : State) (p : Nat) (x : Part) : (setPart s p x).mgmt = s.mgmt := rfl
@[simp] theorem setPart_flits (s : State) (p : Nat) (x : Part) : (setPart s p x).flits = s.flits := rfl
@[simp] theorem setPart_nextFlit (s : State) (p : Nat) (x : Part) : (setPart s p x).nextFlit = s.nextFlit := rfl
@[simp] theorem setPart_fills (s : State) (p : Nat) (x : Part) : (setPart s p x).fills = s.fills := rfl
@[simp] theorem setPart_ports (s : State) (p : Nat) (x : Part) : (setPart s p x).ports = s.ports := rfl
@[simp] theorem setPart_trunk (s : State) (p : Nat) (x : Part) : (setPart s p x).trunk = s.trunk := rfl
@[simp] theorem setPart_errs (s : State) (p : Nat) (x : Part) : (setPart s p x).errs = s.errs := rfl
@[simp] theorem setPart_firmware (s : State) (p : Nat) (x : Part) : (setPart s p x).firmware = s.firmware := rfl

@[simp] theorem setPart_parts (s : State) (p : Nat) (x : Part) : (setPart s p x).parts = tput s.parts p x := rfl

@[simp] theorem setFn_clock (s : State) (f : Nat) (x : Fn) : (setFn s f x).clock = s.clock := rfl
@[simp] theorem setFn_free (s : State) (f : Nat) (x : Fn) : (setFn s f x).free = s.free := rfl
@[simp] theorem setFn_agenda (s : State) (f : Nat) (x : Fn) : (setFn s f x).agenda = s.agenda := rfl
@[simp] theorem setFn_cur (s : State) (f : Nat) (x : Fn) : (setFn s f x).cur = s.cur := rfl
@[simp] theorem setFn_evDone (s : State) (f : Nat) (x : Fn) : (setFn s f x).evDone = s.evDone := rfl
@[simp] theorem setFn_blocks (s : State) (f : Nat) (x : Fn) : (setFn s f x).blocks = s.blocks := rfl
@[simp] theorem setFn_nextUid (s : State) (f : Nat) (x : Fn) : (setFn s f x).nextUid = s.nextUid := rfl
@[simp] theorem setFn_ops (s : State) (f : Nat) (x : Fn) : (setFn s f x).ops = s.ops := rfl
@[simp] theorem setFn_nextOp (s : State) (f : Nat) (x : Fn) : (setFn s f x).nextOp = s.nextOp := rfl
@[simp] theorem setFn_ranges (s : State) (f : Nat) (x : Fn) : (setFn s f x).ranges = s.ranges := rfl
@[simp] theorem setFn_nextRng (s : State) (f : Nat) (x : Fn) : (setFn s f x).nextRng = s.nextRng := rfl
@[simp] theorem setFn_images (s : State) (f : Nat) (x : Fn) : (setFn s f x).images = s.images := rfl
@[simp] theorem setFn_nextImg (s : State) (f : Nat) (x : Fn) : (setFn s f x).nextImg = s.nextImg := rfl
@[simp] theorem setFn_launches (s : State) (f : Nat) (x : Fn) : (setFn s f x).launches = s.launches := rfl
@[simp] theorem setFn_nextLch (s : State) (f : Nat) (x : Fn) : (setFn s f x).nextLch = s.nextLch := rfl
@[simp] theorem setFn_graphs (s : State) (f : Nat) (x : Fn) : (setFn s f x).graphs = s.graphs := rfl
@[simp] theorem setFn_nextGr (s : State) (f : Nat) (x : Fn) : (setFn s f x).nextGr = s.nextGr := rfl
@[simp] theorem setFn_parts (s : State) (f : Nat) (x : Fn) : (setFn s f x).parts = s.parts := rfl
@[simp] theorem setFn_cores (s : State) (f : Nat) (x : Fn) : (setFn s f x).cores = s.cores := rfl
@[simp] theorem setFn_clusters (s : State) (f : Nat) (x : Fn) : (setFn s f x).clusters = s.clusters := rfl
@[simp] theorem setFn_cellar (s : State) (f : Nat) (x : Fn) : (setFn s f x).cellar = s.cellar := rfl
@[simp] theorem setFn_pages (s : State) (f : Nat) (x : Fn) : (setFn s f x).pages = s.pages := rfl
@[simp] theorem setFn_lost (s : State) (f : Nat) (x : Fn) : (setFn s f x).lost = s.lost := rfl
@[simp] theorem setFn_lumber (s : State) (f : Nat) (x : Fn) : (setFn s f x).lumber = s.lumber := rfl
@[simp] theorem setFn_tlb (s : State) (f : Nat) (x : Fn) : (setFn s f x).tlb = s.tlb := rfl
@[simp] theorem setFn_stops (s : State) (f : Nat) (x : Fn) : (setFn s f x).stops = s.stops := rfl
@[simp] theorem setFn_ipkts (s : State) (f : Nat) (x : Fn) : (setFn s f x).ipkts = s.ipkts := rfl
@[simp] theorem setFn_tpkts (s : State) (f : Nat) (x : Fn) : (setFn s f x).tpkts = s.tpkts := rfl
@[simp] theorem setFn_links (s : State) (f : Nat) (x : Fn) : (setFn s f x).links = s.links := rfl
@[simp] theorem setFn_rates (s : State) (f : Nat) (x : Fn) : (setFn s f x).rates = s.rates := rfl
@[simp] theorem setFn_mgmt (s : State) (f : Nat) (x : Fn) : (setFn s f x).mgmt = s.mgmt := rfl
@[simp] theorem setFn_flits (s : State) (f : Nat) (x : Fn) : (setFn s f x).flits = s.flits := rfl
@[simp] theorem setFn_nextFlit (s : State) (f : Nat) (x : Fn) : (setFn s f x).nextFlit = s.nextFlit := rfl
@[simp] theorem setFn_fills (s : State) (f : Nat) (x : Fn) : (setFn s f x).fills = s.fills := rfl
@[simp] theorem setFn_ports (s : State) (f : Nat) (x : Fn) : (setFn s f x).ports = s.ports := rfl
@[simp] theorem setFn_trunk (s : State) (f : Nat) (x : Fn) : (setFn s f x).trunk = s.trunk := rfl
@[simp] theorem setFn_errs (s : State) (f : Nat) (x : Fn) : (setFn s f x).errs = s.errs := rfl
@[simp] theorem setFn_firmware (s : State) (f : Nat) (x : Fn) : (setFn s f x).firmware = s.firmware := rfl

@[simp] theorem setFn_fns (s : State) (f : Nat) (x : Fn) : (setFn s f x).fns = tput s.fns f x := rfl

@[simp] theorem setCore_clock (s : State) (c : Nat) (x : Core) : (setCore s c x).clock = s.clock := rfl
@[simp] theorem setCore_free (s : State) (c : Nat) (x : Core) : (setCore s c x).free = s.free := rfl
@[simp] theorem setCore_agenda (s : State) (c : Nat) (x : Core) : (setCore s c x).agenda = s.agenda := rfl
@[simp] theorem setCore_cur (s : State) (c : Nat) (x : Core) : (setCore s c x).cur = s.cur := rfl
@[simp] theorem setCore_evDone (s : State) (c : Nat) (x : Core) : (setCore s c x).evDone = s.evDone := rfl
@[simp] theorem setCore_blocks (s : State) (c : Nat) (x : Core) : (setCore s c x).blocks = s.blocks := rfl
@[simp] theorem setCore_nextUid (s : State) (c : Nat) (x : Core) : (setCore s c x).nextUid = s.nextUid := rfl
@[simp] theorem setCore_ops (s : State) (c : Nat) (x : Core) : (setCore s c x).ops = s.ops := rfl
@[simp] theorem setCore_nextOp (s : State) (c : Nat) (x : Core) : (setCore s c x).nextOp = s.nextOp := rfl
@[simp] theorem setCore_ranges (s : State) (c : Nat) (x : Core) : (setCore s c x).ranges = s.ranges := rfl
@[simp] theorem setCore_nextRng (s : State) (c : Nat) (x : Core) : (setCore s c x).nextRng = s.nextRng := rfl
@[simp] theorem setCore_images (s : State) (c : Nat) (x : Core) : (setCore s c x).images = s.images := rfl
@[simp] theorem setCore_nextImg (s : State) (c : Nat) (x : Core) : (setCore s c x).nextImg = s.nextImg := rfl
@[simp] theorem setCore_launches (s : State) (c : Nat) (x : Core) : (setCore s c x).launches = s.launches := rfl
@[simp] theorem setCore_nextLch (s : State) (c : Nat) (x : Core) : (setCore s c x).nextLch = s.nextLch := rfl
@[simp] theorem setCore_graphs (s : State) (c : Nat) (x : Core) : (setCore s c x).graphs = s.graphs := rfl
@[simp] theorem setCore_nextGr (s : State) (c : Nat) (x : Core) : (setCore s c x).nextGr = s.nextGr := rfl
@[simp] theorem setCore_parts (s : State) (c : Nat) (x : Core) : (setCore s c x).parts = s.parts := rfl
@[simp] theorem setCore_clusters (s : State) (c : Nat) (x : Core) : (setCore s c x).clusters = s.clusters := rfl
@[simp] theorem setCore_cellar (s : State) (c : Nat) (x : Core) : (setCore s c x).cellar = s.cellar := rfl
@[simp] theorem setCore_pages (s : State) (c : Nat) (x : Core) : (setCore s c x).pages = s.pages := rfl
@[simp] theorem setCore_lost (s : State) (c : Nat) (x : Core) : (setCore s c x).lost = s.lost := rfl
@[simp] theorem setCore_lumber (s : State) (c : Nat) (x : Core) : (setCore s c x).lumber = s.lumber := rfl
@[simp] theorem setCore_tlb (s : State) (c : Nat) (x : Core) : (setCore s c x).tlb = s.tlb := rfl
@[simp] theorem setCore_stops (s : State) (c : Nat) (x : Core) : (setCore s c x).stops = s.stops := rfl
@[simp] theorem setCore_ipkts (s : State) (c : Nat) (x : Core) : (setCore s c x).ipkts = s.ipkts := rfl
@[simp] theorem setCore_tpkts (s : State) (c : Nat) (x : Core) : (setCore s c x).tpkts = s.tpkts := rfl
@[simp] theorem setCore_links (s : State) (c : Nat) (x : Core) : (setCore s c x).links = s.links := rfl
@[simp] theorem setCore_rates (s : State) (c : Nat) (x : Core) : (setCore s c x).rates = s.rates := rfl
@[simp] theorem setCore_fns (s : State) (c : Nat) (x : Core) : (setCore s c x).fns = s.fns := rfl
@[simp] theorem setCore_mgmt (s : State) (c : Nat) (x : Core) : (setCore s c x).mgmt = s.mgmt := rfl
@[simp] theorem setCore_flits (s : State) (c : Nat) (x : Core) : (setCore s c x).flits = s.flits := rfl
@[simp] theorem setCore_nextFlit (s : State) (c : Nat) (x : Core) : (setCore s c x).nextFlit = s.nextFlit := rfl
@[simp] theorem setCore_fills (s : State) (c : Nat) (x : Core) : (setCore s c x).fills = s.fills := rfl
@[simp] theorem setCore_ports (s : State) (c : Nat) (x : Core) : (setCore s c x).ports = s.ports := rfl
@[simp] theorem setCore_trunk (s : State) (c : Nat) (x : Core) : (setCore s c x).trunk = s.trunk := rfl
@[simp] theorem setCore_errs (s : State) (c : Nat) (x : Core) : (setCore s c x).errs = s.errs := rfl
@[simp] theorem setCore_firmware (s : State) (c : Nat) (x : Core) : (setCore s c x).firmware = s.firmware := rfl

@[simp] theorem setCore_cores (s : State) (c : Nat) (x : Core) : (setCore s c x).cores = tput s.cores c x := rfl

@[simp] theorem flush_clock (v : View) : (flush v).clock = v.st.clock := rfl
@[simp] theorem flush_free (v : View) : (flush v).free = v.st.free := rfl
@[simp] theorem flush_agenda (v : View) : (flush v).agenda = v.st.agenda := rfl
@[simp] theorem flush_cur (v : View) : (flush v).cur = v.st.cur := rfl
@[simp] theorem flush_evDone (v : View) : (flush v).evDone = v.st.evDone := rfl
@[simp] theorem flush_nextUid (v : View) : (flush v).nextUid = v.st.nextUid := rfl
@[simp] theorem flush_ops (v : View) : (flush v).ops = v.st.ops := rfl
@[simp] theorem flush_nextOp (v : View) : (flush v).nextOp = v.st.nextOp := rfl
@[simp] theorem flush_ranges (v : View) : (flush v).ranges = v.st.ranges := rfl
@[simp] theorem flush_nextRng (v : View) : (flush v).nextRng = v.st.nextRng := rfl
@[simp] theorem flush_images (v : View) : (flush v).images = v.st.images := rfl
@[simp] theorem flush_nextImg (v : View) : (flush v).nextImg = v.st.nextImg := rfl
@[simp] theorem flush_launches (v : View) : (flush v).launches = v.st.launches := rfl
@[simp] theorem flush_nextLch (v : View) : (flush v).nextLch = v.st.nextLch := rfl
@[simp] theorem flush_graphs (v : View) : (flush v).graphs = v.st.graphs := rfl
@[simp] theorem flush_nextGr (v : View) : (flush v).nextGr = v.st.nextGr := rfl
@[simp] theorem flush_parts (v : View) : (flush v).parts = v.st.parts := rfl
@[simp] theorem flush_cores (v : View) : (flush v).cores = v.st.cores := rfl
@[simp] theorem flush_clusters (v : View) : (flush v).clusters = v.st.clusters := rfl
@[simp] theorem flush_cellar (v : View) : (flush v).cellar = v.st.cellar := rfl
@[simp] theorem flush_pages (v : View) : (flush v).pages = v.st.pages := rfl
@[simp] theorem flush_lost (v : View) : (flush v).lost = v.st.lost := rfl
@[simp] theorem flush_lumber (v : View) : (flush v).lumber = v.st.lumber := rfl
@[simp] theorem flush_tlb (v : View) : (flush v).tlb = v.st.tlb := rfl
@[simp] theorem flush_stops (v : View) : (flush v).stops = v.st.stops := rfl
@[simp] theorem flush_ipkts (v : View) : (flush v).ipkts = v.st.ipkts := rfl
@[simp] theorem flush_tpkts (v : View) : (flush v).tpkts = v.st.tpkts := rfl
@[simp] theorem flush_links (v : View) : (flush v).links = v.st.links := rfl
@[simp] theorem flush_rates (v : View) : (flush v).rates = v.st.rates := rfl
@[simp] theorem flush_fns (v : View) : (flush v).fns = v.st.fns := rfl
@[simp] theorem flush_mgmt (v : View) : (flush v).mgmt = v.st.mgmt := rfl
@[simp] theorem flush_flits (v : View) : (flush v).flits = v.st.flits := rfl
@[simp] theorem flush_nextFlit (v : View) : (flush v).nextFlit = v.st.nextFlit := rfl
@[simp] theorem flush_fills (v : View) : (flush v).fills = v.st.fills := rfl
@[simp] theorem flush_ports (v : View) : (flush v).ports = v.st.ports := rfl
@[simp] theorem flush_trunk (v : View) : (flush v).trunk = v.st.trunk := rfl
@[simp] theorem flush_errs (v : View) : (flush v).errs = v.st.errs := rfl
@[simp] theorem flush_firmware (v : View) : (flush v).firmware = v.st.firmware := rfl

@[simp] theorem flush_blocks (v : View) :
    (flush v).blocks = tput v.st.blocks v.uid { v.b with groups := listSet v.b.groups v.gid v.g } := rfl

@[simp] theorem usePipe_clock (s : State) (c : Nat) : (usePipe s c).clock = s.clock := rfl
@[simp] theorem usePipe_free (s : State) (c : Nat) : (usePipe s c).free = s.free := rfl
@[simp] theorem usePipe_agenda (s : State) (c : Nat) : (usePipe s c).agenda = s.agenda := rfl
@[simp] theorem usePipe_cur (s : State) (c : Nat) : (usePipe s c).cur = s.cur := rfl
@[simp] theorem usePipe_evDone (s : State) (c : Nat) : (usePipe s c).evDone = s.evDone := rfl
@[simp] theorem usePipe_blocks (s : State) (c : Nat) : (usePipe s c).blocks = s.blocks := rfl
@[simp] theorem usePipe_nextUid (s : State) (c : Nat) : (usePipe s c).nextUid = s.nextUid := rfl
@[simp] theorem usePipe_ops (s : State) (c : Nat) : (usePipe s c).ops = s.ops := rfl
@[simp] theorem usePipe_nextOp (s : State) (c : Nat) : (usePipe s c).nextOp = s.nextOp := rfl
@[simp] theorem usePipe_ranges (s : State) (c : Nat) : (usePipe s c).ranges = s.ranges := rfl
@[simp] theorem usePipe_nextRng (s : State) (c : Nat) : (usePipe s c).nextRng = s.nextRng := rfl
@[simp] theorem usePipe_images (s : State) (c : Nat) : (usePipe s c).images = s.images := rfl
@[simp] theorem usePipe_nextImg (s : State) (c : Nat) : (usePipe s c).nextImg = s.nextImg := rfl
@[simp] theorem usePipe_launches (s : State) (c : Nat) : (usePipe s c).launches = s.launches := rfl
@[simp] theorem usePipe_nextLch (s : State) (c : Nat) : (usePipe s c).nextLch = s.nextLch := rfl
@[simp] theorem usePipe_graphs (s : State) (c : Nat) : (usePipe s c).graphs = s.graphs := rfl
@[simp] theorem usePipe_nextGr (s : State) (c : Nat) : (usePipe s c).nextGr = s.nextGr := rfl
@[simp] theorem usePipe_parts (s : State) (c : Nat) : (usePipe s c).parts = s.parts := rfl
@[simp] theorem usePipe_clusters (s : State) (c : Nat) : (usePipe s c).clusters = s.clusters := rfl
@[simp] theorem usePipe_cellar (s : State) (c : Nat) : (usePipe s c).cellar = s.cellar := rfl
@[simp] theorem usePipe_pages (s : State) (c : Nat) : (usePipe s c).pages = s.pages := rfl
@[simp] theorem usePipe_lost (s : State) (c : Nat) : (usePipe s c).lost = s.lost := rfl
@[simp] theorem usePipe_lumber (s : State) (c : Nat) : (usePipe s c).lumber = s.lumber := rfl
@[simp] theorem usePipe_tlb (s : State) (c : Nat) : (usePipe s c).tlb = s.tlb := rfl
@[simp] theorem usePipe_stops (s : State) (c : Nat) : (usePipe s c).stops = s.stops := rfl
@[simp] theorem usePipe_ipkts (s : State) (c : Nat) : (usePipe s c).ipkts = s.ipkts := rfl
@[simp] theorem usePipe_tpkts (s : State) (c : Nat) : (usePipe s c).tpkts = s.tpkts := rfl
@[simp] theorem usePipe_links (s : State) (c : Nat) : (usePipe s c).links = s.links := rfl
@[simp] theorem usePipe_rates (s : State) (c : Nat) : (usePipe s c).rates = s.rates := rfl
@[simp] theorem usePipe_fns (s : State) (c : Nat) : (usePipe s c).fns = s.fns := rfl
@[simp] theorem usePipe_mgmt (s : State) (c : Nat) : (usePipe s c).mgmt = s.mgmt := rfl
@[simp] theorem usePipe_flits (s : State) (c : Nat) : (usePipe s c).flits = s.flits := rfl
@[simp] theorem usePipe_nextFlit (s : State) (c : Nat) : (usePipe s c).nextFlit = s.nextFlit := rfl
@[simp] theorem usePipe_fills (s : State) (c : Nat) : (usePipe s c).fills = s.fills := rfl
@[simp] theorem usePipe_ports (s : State) (c : Nat) : (usePipe s c).ports = s.ports := rfl
@[simp] theorem usePipe_trunk (s : State) (c : Nat) : (usePipe s c).trunk = s.trunk := rfl
@[simp] theorem usePipe_errs (s : State) (c : Nat) : (usePipe s c).errs = s.errs := rfl
@[simp] theorem usePipe_firmware (s : State) (c : Nat) : (usePipe s c).firmware = s.firmware := rfl

@[simp] theorem setLink_clock (s : State) (k : Nat) (l : Link) : (setLink s k l).clock = s.clock := rfl
@[simp] theorem setLink_free (s : State) (k : Nat) (l : Link) : (setLink s k l).free = s.free := rfl
@[simp] theorem setLink_agenda (s : State) (k : Nat) (l : Link) : (setLink s k l).agenda = s.agenda := rfl
@[simp] theorem setLink_cur (s : State) (k : Nat) (l : Link) : (setLink s k l).cur = s.cur := rfl
@[simp] theorem setLink_evDone (s : State) (k : Nat) (l : Link) : (setLink s k l).evDone = s.evDone := rfl
@[simp] theorem setLink_blocks (s : State) (k : Nat) (l : Link) : (setLink s k l).blocks = s.blocks := rfl
@[simp] theorem setLink_nextUid (s : State) (k : Nat) (l : Link) : (setLink s k l).nextUid = s.nextUid := rfl
@[simp] theorem setLink_ops (s : State) (k : Nat) (l : Link) : (setLink s k l).ops = s.ops := rfl
@[simp] theorem setLink_nextOp (s : State) (k : Nat) (l : Link) : (setLink s k l).nextOp = s.nextOp := rfl
@[simp] theorem setLink_ranges (s : State) (k : Nat) (l : Link) : (setLink s k l).ranges = s.ranges := rfl
@[simp] theorem setLink_nextRng (s : State) (k : Nat) (l : Link) : (setLink s k l).nextRng = s.nextRng := rfl
@[simp] theorem setLink_images (s : State) (k : Nat) (l : Link) : (setLink s k l).images = s.images := rfl
@[simp] theorem setLink_nextImg (s : State) (k : Nat) (l : Link) : (setLink s k l).nextImg = s.nextImg := rfl
@[simp] theorem setLink_launches (s : State) (k : Nat) (l : Link) : (setLink s k l).launches = s.launches := rfl
@[simp] theorem setLink_nextLch (s : State) (k : Nat) (l : Link) : (setLink s k l).nextLch = s.nextLch := rfl
@[simp] theorem setLink_graphs (s : State) (k : Nat) (l : Link) : (setLink s k l).graphs = s.graphs := rfl
@[simp] theorem setLink_nextGr (s : State) (k : Nat) (l : Link) : (setLink s k l).nextGr = s.nextGr := rfl
@[simp] theorem setLink_parts (s : State) (k : Nat) (l : Link) : (setLink s k l).parts = s.parts := rfl
@[simp] theorem setLink_cores (s : State) (k : Nat) (l : Link) : (setLink s k l).cores = s.cores := rfl
@[simp] theorem setLink_clusters (s : State) (k : Nat) (l : Link) : (setLink s k l).clusters = s.clusters := rfl
@[simp] theorem setLink_cellar (s : State) (k : Nat) (l : Link) : (setLink s k l).cellar = s.cellar := rfl
@[simp] theorem setLink_pages (s : State) (k : Nat) (l : Link) : (setLink s k l).pages = s.pages := rfl
@[simp] theorem setLink_lost (s : State) (k : Nat) (l : Link) : (setLink s k l).lost = s.lost := rfl
@[simp] theorem setLink_lumber (s : State) (k : Nat) (l : Link) : (setLink s k l).lumber = s.lumber := rfl
@[simp] theorem setLink_tlb (s : State) (k : Nat) (l : Link) : (setLink s k l).tlb = s.tlb := rfl
@[simp] theorem setLink_stops (s : State) (k : Nat) (l : Link) : (setLink s k l).stops = s.stops := rfl
@[simp] theorem setLink_ipkts (s : State) (k : Nat) (l : Link) : (setLink s k l).ipkts = s.ipkts := rfl
@[simp] theorem setLink_tpkts (s : State) (k : Nat) (l : Link) : (setLink s k l).tpkts = s.tpkts := rfl
@[simp] theorem setLink_rates (s : State) (k : Nat) (l : Link) : (setLink s k l).rates = s.rates := rfl
@[simp] theorem setLink_fns (s : State) (k : Nat) (l : Link) : (setLink s k l).fns = s.fns := rfl
@[simp] theorem setLink_mgmt (s : State) (k : Nat) (l : Link) : (setLink s k l).mgmt = s.mgmt := rfl
@[simp] theorem setLink_flits (s : State) (k : Nat) (l : Link) : (setLink s k l).flits = s.flits := rfl
@[simp] theorem setLink_nextFlit (s : State) (k : Nat) (l : Link) : (setLink s k l).nextFlit = s.nextFlit := rfl
@[simp] theorem setLink_fills (s : State) (k : Nat) (l : Link) : (setLink s k l).fills = s.fills := rfl
@[simp] theorem setLink_ports (s : State) (k : Nat) (l : Link) : (setLink s k l).ports = s.ports := rfl
@[simp] theorem setLink_trunk (s : State) (k : Nat) (l : Link) : (setLink s k l).trunk = s.trunk := rfl
@[simp] theorem setLink_errs (s : State) (k : Nat) (l : Link) : (setLink s k l).errs = s.errs := rfl
@[simp] theorem setLink_firmware (s : State) (k : Nat) (l : Link) : (setLink s k l).firmware = s.firmware := rfl

@[simp] theorem sendPort_clock (s : State) (p : Nat) (m : XMsg) : (sendPort s p m).clock = s.clock := rfl
@[simp] theorem sendPort_free (s : State) (p : Nat) (m : XMsg) : (sendPort s p m).free = s.free := rfl
@[simp] theorem sendPort_agenda (s : State) (p : Nat) (m : XMsg) : (sendPort s p m).agenda = s.agenda := rfl
@[simp] theorem sendPort_cur (s : State) (p : Nat) (m : XMsg) : (sendPort s p m).cur = s.cur := rfl
@[simp] theorem sendPort_evDone (s : State) (p : Nat) (m : XMsg) : (sendPort s p m).evDone = s.evDone := rfl
@[simp] theorem sendPort_blocks (s : State) (p : Nat) (m : XMsg) : (sendPort s p m).blocks = s.blocks := rfl
@[simp] theorem sendPort_nextUid (s : State) (p : Nat) (m : XMsg) : (sendPort s p m).nextUid = s.nextUid := rfl
@[simp] theorem sendPort_ops (s : State) (p : Nat) (m : XMsg) : (sendPort s p m).ops = s.ops := rfl
@[simp] theorem sendPort_nextOp (s : State) (p : Nat) (m : XMsg) : (sendPort s p m).nextOp = s.nextOp := rfl
@[simp] theorem sendPort_ranges (s : State) (p : Nat) (m : XMsg) : (sendPort s p m).ranges = s.ranges := rfl
@[simp] theorem sendPort_nextRng (s : State) (p : Nat) (m : XMsg) : (sendPort s p m).nextRng = s.nextRng := rfl
@[simp] theorem sendPort_images (s : State) (p : Nat) (m : XMsg) : (sendPort s p m).images = s.images := rfl
@[simp] theorem sendPort_nextImg (s : State) (p : Nat) (m : XMsg) : (sendPort s p m).nextImg = s.nextImg := rfl
@[simp] theorem sendPort_launches (s : State) (p : Nat) (m : XMsg) : (sendPort s p m).launches = s.launches := rfl
@[simp] theorem sendPort_nextLch (s : State) (p : Nat) (m : XMsg) : (sendPort s p m).nextLch = s.nextLch := rfl
@[simp] theorem sendPort_graphs (s : State) (p : Nat) (m : XMsg) : (sendPort s p m).graphs = s.graphs := rfl
@[simp] theorem sendPort_nextGr (s : State) (p : Nat) (m : XMsg) : (sendPort s p m).nextGr = s.nextGr := rfl
@[simp] theorem sendPort_parts (s : State) (p : Nat) (m : XMsg) : (sendPort s p m).parts = s.parts := rfl
@[simp] theorem sendPort_cores (s : State) (p : Nat) (m : XMsg) : (sendPort s p m).cores = s.cores := rfl
@[simp] theorem sendPort_clusters (s : State) (p : Nat) (m : XMsg) : (sendPort s p m).clusters = s.clusters := rfl
@[simp] theorem sendPort_cellar (s : State) (p : Nat) (m : XMsg) : (sendPort s p m).cellar = s.cellar := rfl
@[simp] theorem sendPort_pages (s : State) (p : Nat) (m : XMsg) : (sendPort s p m).pages = s.pages := rfl
@[simp] theorem sendPort_lost (s : State) (p : Nat) (m : XMsg) : (sendPort s p m).lost = s.lost := rfl
@[simp] theorem sendPort_lumber (s : State) (p : Nat) (m : XMsg) : (sendPort s p m).lumber = s.lumber := rfl
@[simp] theorem sendPort_tlb (s : State) (p : Nat) (m : XMsg) : (sendPort s p m).tlb = s.tlb := rfl
@[simp] theorem sendPort_stops (s : State) (p : Nat) (m : XMsg) : (sendPort s p m).stops = s.stops := rfl
@[simp] theorem sendPort_ipkts (s : State) (p : Nat) (m : XMsg) : (sendPort s p m).ipkts = s.ipkts := rfl
@[simp] theorem sendPort_tpkts (s : State) (p : Nat) (m : XMsg) : (sendPort s p m).tpkts = s.tpkts := rfl
@[simp] theorem sendPort_links (s : State) (p : Nat) (m : XMsg) : (sendPort s p m).links = s.links := rfl
@[simp] theorem sendPort_rates (s : State) (p : Nat) (m : XMsg) : (sendPort s p m).rates = s.rates := rfl
@[simp] theorem sendPort_fns (s : State) (p : Nat) (m : XMsg) : (sendPort s p m).fns = s.fns := rfl
@[simp] theorem sendPort_mgmt (s : State) (p : Nat) (m : XMsg) : (sendPort s p m).mgmt = s.mgmt := rfl
@[simp] theorem sendPort_flits (s : State) (p : Nat) (m : XMsg) : (sendPort s p m).flits = s.flits := rfl
@[simp] theorem sendPort_nextFlit (s : State) (p : Nat) (m : XMsg) : (sendPort s p m).nextFlit = s.nextFlit := rfl
@[simp] theorem sendPort_fills (s : State) (p : Nat) (m : XMsg) : (sendPort s p m).fills = s.fills := rfl
@[simp] theorem sendPort_trunk (s : State) (p : Nat) (m : XMsg) : (sendPort s p m).trunk = s.trunk := rfl
@[simp] theorem sendPort_errs (s : State) (p : Nat) (m : XMsg) : (sendPort s p m).errs = s.errs := rfl
@[simp] theorem sendPort_firmware (s : State) (p : Nat) (m : XMsg) : (sendPort s p m).firmware = s.firmware := rfl

@[simp] theorem dropFlit_clock (s : State) (f : Flit) : (dropFlit s f).clock = s.clock := rfl
@[simp] theorem dropFlit_free (s : State) (f : Flit) : (dropFlit s f).free = s.free := rfl
@[simp] theorem dropFlit_agenda (s : State) (f : Flit) : (dropFlit s f).agenda = s.agenda := rfl
@[simp] theorem dropFlit_cur (s : State) (f : Flit) : (dropFlit s f).cur = s.cur := rfl
@[simp] theorem dropFlit_evDone (s : State) (f : Flit) : (dropFlit s f).evDone = s.evDone := rfl
@[simp] theorem dropFlit_blocks (s : State) (f : Flit) : (dropFlit s f).blocks = s.blocks := rfl
@[simp] theorem dropFlit_nextUid (s : State) (f : Flit) : (dropFlit s f).nextUid = s.nextUid := rfl
@[simp] theorem dropFlit_ops (s : State) (f : Flit) : (dropFlit s f).ops = s.ops := rfl
@[simp] theorem dropFlit_nextOp (s : State) (f : Flit) : (dropFlit s f).nextOp = s.nextOp := rfl
@[simp] theorem dropFlit_ranges (s : State) (f : Flit) : (dropFlit s f).ranges = s.ranges := rfl
@[simp] theorem dropFlit_nextRng (s : State) (f : Flit) : (dropFlit s f).nextRng = s.nextRng := rfl
@[simp] theorem dropFlit_images (s : State) (f : Flit) : (dropFlit s f).images = s.images := rfl
@[simp] theorem dropFlit_nextImg (s : State) (f : Flit) : (dropFlit s f).nextImg = s.nextImg := rfl
@[simp] theorem dropFlit_launches (s : State) (f : Flit) : (dropFlit s f).launches = s.launches := rfl
@[simp] theorem dropFlit_nextLch (s : State) (f : Flit) : (dropFlit s f).nextLch = s.nextLch := rfl
@[simp] theorem dropFlit_graphs (s : State) (f : Flit) : (dropFlit s f).graphs = s.graphs := rfl
@[simp] theorem dropFlit_nextGr (s : State) (f : Flit) : (dropFlit s f).nextGr = s.nextGr := rfl
@[simp] theorem dropFlit_parts (s : State) (f : Flit) : (dropFlit s f).parts = s.parts := rfl
@[simp] theorem dropFlit_cores (s : State) (f : Flit) : (dropFlit s f).cores = s.cores := rfl
@[simp] theorem dropFlit_clusters (s : State) (f : Flit) : (dropFlit s f).clusters = s.clusters := rfl
@[simp] theorem dropFlit_cellar (s : State) (f : Flit) : (dropFlit s f).cellar = s.cellar := rfl
@[simp] theorem dropFlit_pages (s : State) (f : Flit) : (dropFlit s f).pages = s.pages := rfl
@[simp] theorem dropFlit_lost (s : State) (f : Flit) : (dropFlit s f).lost = s.lost := rfl
@[simp] theorem dropFlit_lumber (s : State) (f : Flit) : (dropFlit s f).lumber = s.lumber := rfl
@[simp] theorem dropFlit_tlb (s : State) (f : Flit) : (dropFlit s f).tlb = s.tlb := rfl
@[simp] theorem dropFlit_stops (s : State) (f : Flit) : (dropFlit s f).stops = s.stops := rfl
@[simp] theorem dropFlit_ipkts (s : State) (f : Flit) : (dropFlit s f).ipkts = s.ipkts := rfl
@[simp] theorem dropFlit_tpkts (s : State) (f : Flit) : (dropFlit s f).tpkts = s.tpkts := rfl
@[simp] theorem dropFlit_links (s : State) (f : Flit) : (dropFlit s f).links = s.links := rfl
@[simp] theorem dropFlit_rates (s : State) (f : Flit) : (dropFlit s f).rates = s.rates := rfl
@[simp] theorem dropFlit_fns (s : State) (f : Flit) : (dropFlit s f).fns = s.fns := rfl
@[simp] theorem dropFlit_mgmt (s : State) (f : Flit) : (dropFlit s f).mgmt = s.mgmt := rfl
@[simp] theorem dropFlit_nextFlit (s : State) (f : Flit) : (dropFlit s f).nextFlit = s.nextFlit := rfl
@[simp] theorem dropFlit_fills (s : State) (f : Flit) : (dropFlit s f).fills = s.fills := rfl
@[simp] theorem dropFlit_ports (s : State) (f : Flit) : (dropFlit s f).ports = s.ports := rfl
@[simp] theorem dropFlit_trunk (s : State) (f : Flit) : (dropFlit s f).trunk = s.trunk := rfl
@[simp] theorem dropFlit_errs (s : State) (f : Flit) : (dropFlit s f).errs = s.errs := rfl
@[simp] theorem dropFlit_firmware (s : State) (f : Flit) : (dropFlit s f).firmware = s.firmware := rfl

/-- Sending a transfer adds flits and numbers them, and changes nothing else. -/
theorem sendSectors_eq (s : State) (p : Plane) (t a d : Nat) (e : Bool) (x : FBody) (l : List (List W8 × W32)) :
    ∃ fs n, sendSectors s p t a d e x l = { s with flits := fs, nextFlit := n } := by
  unfold sendSectors
  generalize flitsOf p l = ls
  suffices h : ∀ (r : State) (e : Bool), (∃ fs n, r = { s with flits := fs, nextFlit := n }) → ∃ fs n,
      (ls.foldl (fun (a' : State × Bool) y => (sendOne a'.1 p t a d a'.2 x y, false)) (r, e)).1 = { s with flits := fs, nextFlit := n } from
    h s e ⟨s.flits, s.nextFlit, rfl⟩
  induction ls with
  | nil => exact fun r e h => h
  | cons y ys ih =>
    rintro r e ⟨fs, n, rfl⟩
    exact ih _ _ ⟨_, _, rfl⟩

/-- An operation of a name that is over takes its flits away and sends the reply, and changes nothing else. -/
theorem nameOpDone_eq (s : State) (op : Nat) : ∃ fs n, nameOpDone s op = { s with flits := fs, nextFlit := n } := by
  unfold nameOpDone
  split
  · exact ⟨s.flits, s.nextFlit, rfl⟩
  · obtain ⟨fs, n, h⟩ := sendSectors_eq { s with flits := s.flits.filter (fun f => f.body != .nameOp op) } .reply _ _ _ _ _ _
    exact ⟨fs, n, h⟩

@[simp] theorem sendFlit_clock (s : State) (p : Plane) (t a d : Nat) (e : Bool) (x : FBody) (l : List W8) : (sendFlit s p t a d e x l).clock = s.clock := by obtain ⟨_, _, h⟩ := sendSectors_eq s p t a d e x (sectors l); rw [sendFlit, h]
@[simp] theorem sendFlit_free (s : State) (p : Plane) (t a d : Nat) (e : Bool) (x : FBody) (l : List W8) : (sendFlit s p t a d e x l).free = s.free := by obtain ⟨_, _, h⟩ := sendSectors_eq s p t a d e x (sectors l); rw [sendFlit, h]
@[simp] theorem sendFlit_agenda (s : State) (p : Plane) (t a d : Nat) (e : Bool) (x : FBody) (l : List W8) : (sendFlit s p t a d e x l).agenda = s.agenda := by obtain ⟨_, _, h⟩ := sendSectors_eq s p t a d e x (sectors l); rw [sendFlit, h]
@[simp] theorem sendFlit_cur (s : State) (p : Plane) (t a d : Nat) (e : Bool) (x : FBody) (l : List W8) : (sendFlit s p t a d e x l).cur = s.cur := by obtain ⟨_, _, h⟩ := sendSectors_eq s p t a d e x (sectors l); rw [sendFlit, h]
@[simp] theorem sendFlit_evDone (s : State) (p : Plane) (t a d : Nat) (e : Bool) (x : FBody) (l : List W8) : (sendFlit s p t a d e x l).evDone = s.evDone := by obtain ⟨_, _, h⟩ := sendSectors_eq s p t a d e x (sectors l); rw [sendFlit, h]
@[simp] theorem sendFlit_blocks (s : State) (p : Plane) (t a d : Nat) (e : Bool) (x : FBody) (l : List W8) : (sendFlit s p t a d e x l).blocks = s.blocks := by obtain ⟨_, _, h⟩ := sendSectors_eq s p t a d e x (sectors l); rw [sendFlit, h]
@[simp] theorem sendFlit_nextUid (s : State) (p : Plane) (t a d : Nat) (e : Bool) (x : FBody) (l : List W8) : (sendFlit s p t a d e x l).nextUid = s.nextUid := by obtain ⟨_, _, h⟩ := sendSectors_eq s p t a d e x (sectors l); rw [sendFlit, h]
@[simp] theorem sendFlit_ops (s : State) (p : Plane) (t a d : Nat) (e : Bool) (x : FBody) (l : List W8) : (sendFlit s p t a d e x l).ops = s.ops := by obtain ⟨_, _, h⟩ := sendSectors_eq s p t a d e x (sectors l); rw [sendFlit, h]
@[simp] theorem sendFlit_nextOp (s : State) (p : Plane) (t a d : Nat) (e : Bool) (x : FBody) (l : List W8) : (sendFlit s p t a d e x l).nextOp = s.nextOp := by obtain ⟨_, _, h⟩ := sendSectors_eq s p t a d e x (sectors l); rw [sendFlit, h]
@[simp] theorem sendFlit_ranges (s : State) (p : Plane) (t a d : Nat) (e : Bool) (x : FBody) (l : List W8) : (sendFlit s p t a d e x l).ranges = s.ranges := by obtain ⟨_, _, h⟩ := sendSectors_eq s p t a d e x (sectors l); rw [sendFlit, h]
@[simp] theorem sendFlit_nextRng (s : State) (p : Plane) (t a d : Nat) (e : Bool) (x : FBody) (l : List W8) : (sendFlit s p t a d e x l).nextRng = s.nextRng := by obtain ⟨_, _, h⟩ := sendSectors_eq s p t a d e x (sectors l); rw [sendFlit, h]
@[simp] theorem sendFlit_images (s : State) (p : Plane) (t a d : Nat) (e : Bool) (x : FBody) (l : List W8) : (sendFlit s p t a d e x l).images = s.images := by obtain ⟨_, _, h⟩ := sendSectors_eq s p t a d e x (sectors l); rw [sendFlit, h]
@[simp] theorem sendFlit_nextImg (s : State) (p : Plane) (t a d : Nat) (e : Bool) (x : FBody) (l : List W8) : (sendFlit s p t a d e x l).nextImg = s.nextImg := by obtain ⟨_, _, h⟩ := sendSectors_eq s p t a d e x (sectors l); rw [sendFlit, h]
@[simp] theorem sendFlit_launches (s : State) (p : Plane) (t a d : Nat) (e : Bool) (x : FBody) (l : List W8) : (sendFlit s p t a d e x l).launches = s.launches := by obtain ⟨_, _, h⟩ := sendSectors_eq s p t a d e x (sectors l); rw [sendFlit, h]
@[simp] theorem sendFlit_nextLch (s : State) (p : Plane) (t a d : Nat) (e : Bool) (x : FBody) (l : List W8) : (sendFlit s p t a d e x l).nextLch = s.nextLch := by obtain ⟨_, _, h⟩ := sendSectors_eq s p t a d e x (sectors l); rw [sendFlit, h]
@[simp] theorem sendFlit_graphs (s : State) (p : Plane) (t a d : Nat) (e : Bool) (x : FBody) (l : List W8) : (sendFlit s p t a d e x l).graphs = s.graphs := by obtain ⟨_, _, h⟩ := sendSectors_eq s p t a d e x (sectors l); rw [sendFlit, h]
@[simp] theorem sendFlit_nextGr (s : State) (p : Plane) (t a d : Nat) (e : Bool) (x : FBody) (l : List W8) : (sendFlit s p t a d e x l).nextGr = s.nextGr := by obtain ⟨_, _, h⟩ := sendSectors_eq s p t a d e x (sectors l); rw [sendFlit, h]
@[simp] theorem sendFlit_parts (s : State) (p : Plane) (t a d : Nat) (e : Bool) (x : FBody) (l : List W8) : (sendFlit s p t a d e x l).parts = s.parts := by obtain ⟨_, _, h⟩ := sendSectors_eq s p t a d e x (sectors l); rw [sendFlit, h]
@[simp] theorem sendFlit_cores (s : State) (p : Plane) (t a d : Nat) (e : Bool) (x : FBody) (l : List W8) : (sendFlit s p t a d e x l).cores = s.cores := by obtain ⟨_, _, h⟩ := sendSectors_eq s p t a d e x (sectors l); rw [sendFlit, h]
@[simp] theorem sendFlit_clusters (s : State) (p : Plane) (t a d : Nat) (e : Bool) (x : FBody) (l : List W8) : (sendFlit s p t a d e x l).clusters = s.clusters := by obtain ⟨_, _, h⟩ := sendSectors_eq s p t a d e x (sectors l); rw [sendFlit, h]
@[simp] theorem sendFlit_cellar (s : State) (p : Plane) (t a d : Nat) (e : Bool) (x : FBody) (l : List W8) : (sendFlit s p t a d e x l).cellar = s.cellar := by obtain ⟨_, _, h⟩ := sendSectors_eq s p t a d e x (sectors l); rw [sendFlit, h]
@[simp] theorem sendFlit_pages (s : State) (p : Plane) (t a d : Nat) (e : Bool) (x : FBody) (l : List W8) : (sendFlit s p t a d e x l).pages = s.pages := by obtain ⟨_, _, h⟩ := sendSectors_eq s p t a d e x (sectors l); rw [sendFlit, h]
@[simp] theorem sendFlit_lost (s : State) (p : Plane) (t a d : Nat) (e : Bool) (x : FBody) (l : List W8) : (sendFlit s p t a d e x l).lost = s.lost := by obtain ⟨_, _, h⟩ := sendSectors_eq s p t a d e x (sectors l); rw [sendFlit, h]
@[simp] theorem sendFlit_lumber (s : State) (p : Plane) (t a d : Nat) (e : Bool) (x : FBody) (l : List W8) : (sendFlit s p t a d e x l).lumber = s.lumber := by obtain ⟨_, _, h⟩ := sendSectors_eq s p t a d e x (sectors l); rw [sendFlit, h]
@[simp] theorem sendFlit_tlb (s : State) (p : Plane) (t a d : Nat) (e : Bool) (x : FBody) (l : List W8) : (sendFlit s p t a d e x l).tlb = s.tlb := by obtain ⟨_, _, h⟩ := sendSectors_eq s p t a d e x (sectors l); rw [sendFlit, h]
@[simp] theorem sendFlit_stops (s : State) (p : Plane) (t a d : Nat) (e : Bool) (x : FBody) (l : List W8) : (sendFlit s p t a d e x l).stops = s.stops := by obtain ⟨_, _, h⟩ := sendSectors_eq s p t a d e x (sectors l); rw [sendFlit, h]
@[simp] theorem sendFlit_ipkts (s : State) (p : Plane) (t a d : Nat) (e : Bool) (x : FBody) (l : List W8) : (sendFlit s p t a d e x l).ipkts = s.ipkts := by obtain ⟨_, _, h⟩ := sendSectors_eq s p t a d e x (sectors l); rw [sendFlit, h]
@[simp] theorem sendFlit_tpkts (s : State) (p : Plane) (t a d : Nat) (e : Bool) (x : FBody) (l : List W8) : (sendFlit s p t a d e x l).tpkts = s.tpkts := by obtain ⟨_, _, h⟩ := sendSectors_eq s p t a d e x (sectors l); rw [sendFlit, h]
@[simp] theorem sendFlit_links (s : State) (p : Plane) (t a d : Nat) (e : Bool) (x : FBody) (l : List W8) : (sendFlit s p t a d e x l).links = s.links := by obtain ⟨_, _, h⟩ := sendSectors_eq s p t a d e x (sectors l); rw [sendFlit, h]
@[simp] theorem sendFlit_rates (s : State) (p : Plane) (t a d : Nat) (e : Bool) (x : FBody) (l : List W8) : (sendFlit s p t a d e x l).rates = s.rates := by obtain ⟨_, _, h⟩ := sendSectors_eq s p t a d e x (sectors l); rw [sendFlit, h]
@[simp] theorem sendFlit_fns (s : State) (p : Plane) (t a d : Nat) (e : Bool) (x : FBody) (l : List W8) : (sendFlit s p t a d e x l).fns = s.fns := by obtain ⟨_, _, h⟩ := sendSectors_eq s p t a d e x (sectors l); rw [sendFlit, h]
@[simp] theorem sendFlit_mgmt (s : State) (p : Plane) (t a d : Nat) (e : Bool) (x : FBody) (l : List W8) : (sendFlit s p t a d e x l).mgmt = s.mgmt := by obtain ⟨_, _, h⟩ := sendSectors_eq s p t a d e x (sectors l); rw [sendFlit, h]
@[simp] theorem sendFlit_fills (s : State) (p : Plane) (t a d : Nat) (e : Bool) (x : FBody) (l : List W8) : (sendFlit s p t a d e x l).fills = s.fills := by obtain ⟨_, _, h⟩ := sendSectors_eq s p t a d e x (sectors l); rw [sendFlit, h]
@[simp] theorem sendFlit_ports (s : State) (p : Plane) (t a d : Nat) (e : Bool) (x : FBody) (l : List W8) : (sendFlit s p t a d e x l).ports = s.ports := by obtain ⟨_, _, h⟩ := sendSectors_eq s p t a d e x (sectors l); rw [sendFlit, h]
@[simp] theorem sendFlit_trunk (s : State) (p : Plane) (t a d : Nat) (e : Bool) (x : FBody) (l : List W8) : (sendFlit s p t a d e x l).trunk = s.trunk := by obtain ⟨_, _, h⟩ := sendSectors_eq s p t a d e x (sectors l); rw [sendFlit, h]
@[simp] theorem sendFlit_errs (s : State) (p : Plane) (t a d : Nat) (e : Bool) (x : FBody) (l : List W8) : (sendFlit s p t a d e x l).errs = s.errs := by obtain ⟨_, _, h⟩ := sendSectors_eq s p t a d e x (sectors l); rw [sendFlit, h]
@[simp] theorem sendFlit_firmware (s : State) (p : Plane) (t a d : Nat) (e : Bool) (x : FBody) (l : List W8) : (sendFlit s p t a d e x l).firmware = s.firmware := by obtain ⟨_, _, h⟩ := sendSectors_eq s p t a d e x (sectors l); rw [sendFlit, h]

@[simp] theorem nameOpDone_clock (s : State) (op : Nat) : (nameOpDone s op).clock = s.clock := by obtain ⟨_, _, h⟩ := nameOpDone_eq s op; rw [h]
@[simp] theorem nameOpDone_free (s : State) (op : Nat) : (nameOpDone s op).free = s.free := by obtain ⟨_, _, h⟩ := nameOpDone_eq s op; rw [h]
@[simp] theorem nameOpDone_agenda (s : State) (op : Nat) : (nameOpDone s op).agenda = s.agenda := by obtain ⟨_, _, h⟩ := nameOpDone_eq s op; rw [h]
@[simp] theorem nameOpDone_cur (s : State) (op : Nat) : (nameOpDone s op).cur = s.cur := by obtain ⟨_, _, h⟩ := nameOpDone_eq s op; rw [h]
@[simp] theorem nameOpDone_evDone (s : State) (op : Nat) : (nameOpDone s op).evDone = s.evDone := by obtain ⟨_, _, h⟩ := nameOpDone_eq s op; rw [h]
@[simp] theorem nameOpDone_blocks (s : State) (op : Nat) : (nameOpDone s op).blocks = s.blocks := by obtain ⟨_, _, h⟩ := nameOpDone_eq s op; rw [h]
@[simp] theorem nameOpDone_nextUid (s : State) (op : Nat) : (nameOpDone s op).nextUid = s.nextUid := by obtain ⟨_, _, h⟩ := nameOpDone_eq s op; rw [h]
@[simp] theorem nameOpDone_ops (s : State) (op : Nat) : (nameOpDone s op).ops = s.ops := by obtain ⟨_, _, h⟩ := nameOpDone_eq s op; rw [h]
@[simp] theorem nameOpDone_nextOp (s : State) (op : Nat) : (nameOpDone s op).nextOp = s.nextOp := by obtain ⟨_, _, h⟩ := nameOpDone_eq s op; rw [h]
@[simp] theorem nameOpDone_ranges (s : State) (op : Nat) : (nameOpDone s op).ranges = s.ranges := by obtain ⟨_, _, h⟩ := nameOpDone_eq s op; rw [h]
@[simp] theorem nameOpDone_nextRng (s : State) (op : Nat) : (nameOpDone s op).nextRng = s.nextRng := by obtain ⟨_, _, h⟩ := nameOpDone_eq s op; rw [h]
@[simp] theorem nameOpDone_images (s : State) (op : Nat) : (nameOpDone s op).images = s.images := by obtain ⟨_, _, h⟩ := nameOpDone_eq s op; rw [h]
@[simp] theorem nameOpDone_nextImg (s : State) (op : Nat) : (nameOpDone s op).nextImg = s.nextImg := by obtain ⟨_, _, h⟩ := nameOpDone_eq s op; rw [h]
@[simp] theorem nameOpDone_launches (s : State) (op : Nat) : (nameOpDone s op).launches = s.launches := by obtain ⟨_, _, h⟩ := nameOpDone_eq s op; rw [h]
@[simp] theorem nameOpDone_nextLch (s : State) (op : Nat) : (nameOpDone s op).nextLch = s.nextLch := by obtain ⟨_, _, h⟩ := nameOpDone_eq s op; rw [h]
@[simp] theorem nameOpDone_graphs (s : State) (op : Nat) : (nameOpDone s op).graphs = s.graphs := by obtain ⟨_, _, h⟩ := nameOpDone_eq s op; rw [h]
@[simp] theorem nameOpDone_nextGr (s : State) (op : Nat) : (nameOpDone s op).nextGr = s.nextGr := by obtain ⟨_, _, h⟩ := nameOpDone_eq s op; rw [h]
@[simp] theorem nameOpDone_parts (s : State) (op : Nat) : (nameOpDone s op).parts = s.parts := by obtain ⟨_, _, h⟩ := nameOpDone_eq s op; rw [h]
@[simp] theorem nameOpDone_cores (s : State) (op : Nat) : (nameOpDone s op).cores = s.cores := by obtain ⟨_, _, h⟩ := nameOpDone_eq s op; rw [h]
@[simp] theorem nameOpDone_clusters (s : State) (op : Nat) : (nameOpDone s op).clusters = s.clusters := by obtain ⟨_, _, h⟩ := nameOpDone_eq s op; rw [h]
@[simp] theorem nameOpDone_cellar (s : State) (op : Nat) : (nameOpDone s op).cellar = s.cellar := by obtain ⟨_, _, h⟩ := nameOpDone_eq s op; rw [h]
@[simp] theorem nameOpDone_pages (s : State) (op : Nat) : (nameOpDone s op).pages = s.pages := by obtain ⟨_, _, h⟩ := nameOpDone_eq s op; rw [h]
@[simp] theorem nameOpDone_lost (s : State) (op : Nat) : (nameOpDone s op).lost = s.lost := by obtain ⟨_, _, h⟩ := nameOpDone_eq s op; rw [h]
@[simp] theorem nameOpDone_lumber (s : State) (op : Nat) : (nameOpDone s op).lumber = s.lumber := by obtain ⟨_, _, h⟩ := nameOpDone_eq s op; rw [h]
@[simp] theorem nameOpDone_tlb (s : State) (op : Nat) : (nameOpDone s op).tlb = s.tlb := by obtain ⟨_, _, h⟩ := nameOpDone_eq s op; rw [h]
@[simp] theorem nameOpDone_stops (s : State) (op : Nat) : (nameOpDone s op).stops = s.stops := by obtain ⟨_, _, h⟩ := nameOpDone_eq s op; rw [h]
@[simp] theorem nameOpDone_ipkts (s : State) (op : Nat) : (nameOpDone s op).ipkts = s.ipkts := by obtain ⟨_, _, h⟩ := nameOpDone_eq s op; rw [h]
@[simp] theorem nameOpDone_tpkts (s : State) (op : Nat) : (nameOpDone s op).tpkts = s.tpkts := by obtain ⟨_, _, h⟩ := nameOpDone_eq s op; rw [h]
@[simp] theorem nameOpDone_links (s : State) (op : Nat) : (nameOpDone s op).links = s.links := by obtain ⟨_, _, h⟩ := nameOpDone_eq s op; rw [h]
@[simp] theorem nameOpDone_rates (s : State) (op : Nat) : (nameOpDone s op).rates = s.rates := by obtain ⟨_, _, h⟩ := nameOpDone_eq s op; rw [h]
@[simp] theorem nameOpDone_fns (s : State) (op : Nat) : (nameOpDone s op).fns = s.fns := by obtain ⟨_, _, h⟩ := nameOpDone_eq s op; rw [h]
@[simp] theorem nameOpDone_mgmt (s : State) (op : Nat) : (nameOpDone s op).mgmt = s.mgmt := by obtain ⟨_, _, h⟩ := nameOpDone_eq s op; rw [h]
@[simp] theorem nameOpDone_fills (s : State) (op : Nat) : (nameOpDone s op).fills = s.fills := by obtain ⟨_, _, h⟩ := nameOpDone_eq s op; rw [h]
@[simp] theorem nameOpDone_ports (s : State) (op : Nat) : (nameOpDone s op).ports = s.ports := by obtain ⟨_, _, h⟩ := nameOpDone_eq s op; rw [h]
@[simp] theorem nameOpDone_trunk (s : State) (op : Nat) : (nameOpDone s op).trunk = s.trunk := by obtain ⟨_, _, h⟩ := nameOpDone_eq s op; rw [h]
@[simp] theorem nameOpDone_errs (s : State) (op : Nat) : (nameOpDone s op).errs = s.errs := by obtain ⟨_, _, h⟩ := nameOpDone_eq s op; rw [h]
@[simp] theorem nameOpDone_firmware (s : State) (op : Nat) : (nameOpDone s op).firmware = s.firmware := by obtain ⟨_, _, h⟩ := nameOpDone_eq s op; rw [h]

/-! ### Register writes of a group -/

@[simp] theorem writeS_lanes (g : Group) (r : SReg) (x : W64) : (writeS g r x).lanes = g.lanes := rfl
@[simp] theorem writeS_active (g : Group) (r : SReg) (x : W64) : (writeS g r x).active = g.active := rfl
@[simp] theorem writeS_label (g : Group) (r : SReg) (x : W64) : (writeS g r x).label = g.label := rfl
@[simp] theorem writeS_offset (g : Group) (r : SReg) (x : W64) : (writeS g r x).offset = g.offset := rfl
@[simp] theorem writeS_frames (g : Group) (r : SReg) (x : W64) : (writeS g r x).frames = g.frames := rfl
@[simp] theorem writeS_sround (g : Group) (r : SReg) (x : W64) : (writeS g r x).sround = g.sround := rfl
@[simp] theorem writeS_fflags (g : Group) (r : SReg) (x : W64) : (writeS g r x).fflags = g.fflags := rfl
@[simp] theorem writeS_frm (g : Group) (r : SReg) (x : W64) : (writeS g r x).frm = g.frm := rfl
@[simp] theorem writeS_ftrap (g : Group) (r : SReg) (x : W64) : (writeS g r x).ftrap = g.ftrap := rfl
@[simp] theorem writeS_v (g : Group) (r : SReg) (x : W64) : (writeS g r x).v = g.v := rfl
@[simp] theorem writeS_p (g : Group) (r : SReg) (x : W64) : (writeS g r x).p = g.p := rfl
@[simp] theorem writeS_c (g : Group) (r : SReg) (x : W64) : (writeS g r x).c = g.c := rfl
@[simp] theorem writeS_h (g : Group) (r : SReg) (x : W64) : (writeS g r x).h = g.h := rfl
@[simp] theorem writeS_q (g : Group) (r : SReg) (x : W64) : (writeS g r x).q = g.q := rfl
@[simp] theorem writeS_run (g : Group) (r : SReg) (x : W64) : (writeS g r x).run = g.run := rfl
@[simp] theorem writeS_seek (g : Group) (r : SReg) (x : W64) : (writeS g r x).seek = g.seek := rfl
@[simp] theorem writeS_stall (g : Group) (r : SReg) (x : W64) : (writeS g r x).stall = g.stall := rfl
@[simp] theorem writeS_waitS (g : Group) (r : SReg) (x : W64) : (writeS g r x).waitS = g.waitS := rfl
@[simp] theorem writeS_safe (g : Group) (r : SReg) (x : W64) : (writeS g r x).safe = g.safe := rfl
@[simp] theorem writeS_stopped (g : Group) (r : SReg) (x : W64) : (writeS g r x).stopped = g.stopped := rfl
@[simp] theorem writeS_arrival (g : Group) (r : SReg) (x : W64) : (writeS g r x).arrival = g.arrival := rfl
@[simp] theorem writeS_phases (g : Group) (r : SReg) (x : W64) : (writeS g r x).phases = g.phases := rfl
@[simp] theorem writeS_xreq (g : Group) (r : SReg) (x : W64) : (writeS g r x).xreq = g.xreq := rfl
@[simp] theorem writeS_ctrs (g : Group) (r : SReg) (x : W64) : (writeS g r x).ctrs = g.ctrs := rfl
@[simp] theorem writeS_bubbles (g : Group) (r : SReg) (x : W64) : (writeS g r x).bubbles = g.bubbles := rfl
@[simp] theorem writeS_tried (g : Group) (r : SReg) (x : W64) : (writeS g r x).tried = g.tried := rfl
@[simp] theorem writeS_issued (g : Group) (r : SReg) (x : W64) : (writeS g r x).issued = g.issued := rfl
@[simp] theorem writeS_waited (g : Group) (r : SReg) (x : W64) : (writeS g r x).waited = g.waited := rfl
@[simp] theorem writeS_since (g : Group) (r : SReg) (x : W64) : (writeS g r x).since = g.since := rfl
@[simp] theorem writeS_yield (g : Group) (r : SReg) (x : W64) : (writeS g r x).yield = g.yield := rfl
@[simp] theorem writeS_keyed (g : Group) (r : SReg) (x : W64) : (writeS g r x).keyed = g.keyed := rfl
@[simp] theorem writeS_spawns (g : Group) (r : SReg) (x : W64) : (writeS g r x).spawns = g.spawns := rfl
@[simp] theorem writeS_nCopy (g : Group) (r : SReg) (x : W64) : (writeS g r x).nCopy = g.nCopy := rfl
@[simp] theorem writeS_nStore (g : Group) (r : SReg) (x : W64) : (writeS g r x).nStore = g.nStore := rfl
@[simp] theorem writeS_nQueue (g : Group) (r : SReg) (x : W64) : (writeS g r x).nQueue = g.nQueue := rfl
@[simp] theorem writeS_code (g : Group) (r : SReg) (x : W64) : (writeS g r x).code = g.code := rfl
@[simp] theorem writeS_hang (g : Group) (r : SReg) (x : W64) : (writeS g r x).hang = g.hang := rfl
@[simp] theorem writeS_last (g : Group) (r : SReg) (x : W64) : (writeS g r x).last = g.last := rfl
@[simp] theorem writeS_emul (g : Group) (r : SReg) (x : W64) : (writeS g r x).emul = g.emul := rfl
@[simp] theorem writeS_acq (g : Group) (r : SReg) (x : W64) : (writeS g r x).acq = g.acq := rfl
@[simp] theorem writeS_owed (g : Group) (r : SReg) (x : W64) : (writeS g r x).owed = g.owed := rfl

@[simp] theorem writeC_lanes (g : Group) (r : CReg) (x : Cap) : (writeC g r x).lanes = g.lanes := rfl
@[simp] theorem writeC_active (g : Group) (r : CReg) (x : Cap) : (writeC g r x).active = g.active := rfl
@[simp] theorem writeC_label (g : Group) (r : CReg) (x : Cap) : (writeC g r x).label = g.label := rfl
@[simp] theorem writeC_offset (g : Group) (r : CReg) (x : Cap) : (writeC g r x).offset = g.offset := rfl
@[simp] theorem writeC_frames (g : Group) (r : CReg) (x : Cap) : (writeC g r x).frames = g.frames := rfl
@[simp] theorem writeC_sround (g : Group) (r : CReg) (x : Cap) : (writeC g r x).sround = g.sround := rfl
@[simp] theorem writeC_fflags (g : Group) (r : CReg) (x : Cap) : (writeC g r x).fflags = g.fflags := rfl
@[simp] theorem writeC_frm (g : Group) (r : CReg) (x : Cap) : (writeC g r x).frm = g.frm := rfl
@[simp] theorem writeC_ftrap (g : Group) (r : CReg) (x : Cap) : (writeC g r x).ftrap = g.ftrap := rfl
@[simp] theorem writeC_v (g : Group) (r : CReg) (x : Cap) : (writeC g r x).v = g.v := rfl
@[simp] theorem writeC_s (g : Group) (r : CReg) (x : Cap) : (writeC g r x).s = g.s := rfl
@[simp] theorem writeC_p (g : Group) (r : CReg) (x : Cap) : (writeC g r x).p = g.p := rfl
@[simp] theorem writeC_h (g : Group) (r : CReg) (x : Cap) : (writeC g r x).h = g.h := rfl
@[simp] theorem writeC_q (g : Group) (r : CReg) (x : Cap) : (writeC g r x).q = g.q := rfl
@[simp] theorem writeC_run (g : Group) (r : CReg) (x : Cap) : (writeC g r x).run = g.run := rfl
@[simp] theorem writeC_seek (g : Group) (r : CReg) (x : Cap) : (writeC g r x).seek = g.seek := rfl
@[simp] theorem writeC_stall (g : Group) (r : CReg) (x : Cap) : (writeC g r x).stall = g.stall := rfl
@[simp] theorem writeC_waitS (g : Group) (r : CReg) (x : Cap) : (writeC g r x).waitS = g.waitS := rfl
@[simp] theorem writeC_safe (g : Group) (r : CReg) (x : Cap) : (writeC g r x).safe = g.safe := rfl
@[simp] theorem writeC_stopped (g : Group) (r : CReg) (x : Cap) : (writeC g r x).stopped = g.stopped := rfl
@[simp] theorem writeC_arrival (g : Group) (r : CReg) (x : Cap) : (writeC g r x).arrival = g.arrival := rfl
@[simp] theorem writeC_phases (g : Group) (r : CReg) (x : Cap) : (writeC g r x).phases = g.phases := rfl
@[simp] theorem writeC_xreq (g : Group) (r : CReg) (x : Cap) : (writeC g r x).xreq = g.xreq := rfl
@[simp] theorem writeC_ctrs (g : Group) (r : CReg) (x : Cap) : (writeC g r x).ctrs = g.ctrs := rfl
@[simp] theorem writeC_bubbles (g : Group) (r : CReg) (x : Cap) : (writeC g r x).bubbles = g.bubbles := rfl
@[simp] theorem writeC_tried (g : Group) (r : CReg) (x : Cap) : (writeC g r x).tried = g.tried := rfl
@[simp] theorem writeC_issued (g : Group) (r : CReg) (x : Cap) : (writeC g r x).issued = g.issued := rfl
@[simp] theorem writeC_waited (g : Group) (r : CReg) (x : Cap) : (writeC g r x).waited = g.waited := rfl
@[simp] theorem writeC_since (g : Group) (r : CReg) (x : Cap) : (writeC g r x).since = g.since := rfl
@[simp] theorem writeC_yield (g : Group) (r : CReg) (x : Cap) : (writeC g r x).yield = g.yield := rfl
@[simp] theorem writeC_keyed (g : Group) (r : CReg) (x : Cap) : (writeC g r x).keyed = g.keyed := rfl
@[simp] theorem writeC_spawns (g : Group) (r : CReg) (x : Cap) : (writeC g r x).spawns = g.spawns := rfl
@[simp] theorem writeC_nCopy (g : Group) (r : CReg) (x : Cap) : (writeC g r x).nCopy = g.nCopy := rfl
@[simp] theorem writeC_nStore (g : Group) (r : CReg) (x : Cap) : (writeC g r x).nStore = g.nStore := rfl
@[simp] theorem writeC_nQueue (g : Group) (r : CReg) (x : Cap) : (writeC g r x).nQueue = g.nQueue := rfl
@[simp] theorem writeC_code (g : Group) (r : CReg) (x : Cap) : (writeC g r x).code = g.code := rfl
@[simp] theorem writeC_hang (g : Group) (r : CReg) (x : Cap) : (writeC g r x).hang = g.hang := rfl
@[simp] theorem writeC_last (g : Group) (r : CReg) (x : Cap) : (writeC g r x).last = g.last := rfl
@[simp] theorem writeC_emul (g : Group) (r : CReg) (x : Cap) : (writeC g r x).emul = g.emul := rfl
@[simp] theorem writeC_acq (g : Group) (r : CReg) (x : Cap) : (writeC g r x).acq = g.acq := rfl
@[simp] theorem writeC_owed (g : Group) (r : CReg) (x : Cap) : (writeC g r x).owed = g.owed := rfl

@[simp] theorem writeH_lanes (g : Group) (r : HReg) (x : HVal) : (writeH g r x).lanes = g.lanes := rfl
@[simp] theorem writeH_active (g : Group) (r : HReg) (x : HVal) : (writeH g r x).active = g.active := rfl
@[simp] theorem writeH_label (g : Group) (r : HReg) (x : HVal) : (writeH g r x).label = g.label := rfl
@[simp] theorem writeH_offset (g : Group) (r : HReg) (x : HVal) : (writeH g r x).offset = g.offset := rfl
@[simp] theorem writeH_frames (g : Group) (r : HReg) (x : HVal) : (writeH g r x).frames = g.frames := rfl
@[simp] theorem writeH_sround (g : Group) (r : HReg) (x : HVal) : (writeH g r x).sround = g.sround := rfl
@[simp] theorem writeH_fflags (g : Group) (r : HReg) (x : HVal) : (writeH g r x).fflags = g.fflags := rfl
@[simp] theorem writeH_frm (g : Group) (r : HReg) (x : HVal) : (writeH g r x).frm = g.frm := rfl
@[simp] theorem writeH_ftrap (g : Group) (r : HReg) (x : HVal) : (writeH g r x).ftrap = g.ftrap := rfl
@[simp] theorem writeH_v (g : Group) (r : HReg) (x : HVal) : (writeH g r x).v = g.v := rfl
@[simp] theorem writeH_s (g : Group) (r : HReg) (x : HVal) : (writeH g r x).s = g.s := rfl
@[simp] theorem writeH_p (g : Group) (r : HReg) (x : HVal) : (writeH g r x).p = g.p := rfl
@[simp] theorem writeH_c (g : Group) (r : HReg) (x : HVal) : (writeH g r x).c = g.c := rfl
@[simp] theorem writeH_q (g : Group) (r : HReg) (x : HVal) : (writeH g r x).q = g.q := rfl
@[simp] theorem writeH_run (g : Group) (r : HReg) (x : HVal) : (writeH g r x).run = g.run := rfl
@[simp] theorem writeH_seek (g : Group) (r : HReg) (x : HVal) : (writeH g r x).seek = g.seek := rfl
@[simp] theorem writeH_stall (g : Group) (r : HReg) (x : HVal) : (writeH g r x).stall = g.stall := rfl
@[simp] theorem writeH_waitS (g : Group) (r : HReg) (x : HVal) : (writeH g r x).waitS = g.waitS := rfl
@[simp] theorem writeH_safe (g : Group) (r : HReg) (x : HVal) : (writeH g r x).safe = g.safe := rfl
@[simp] theorem writeH_stopped (g : Group) (r : HReg) (x : HVal) : (writeH g r x).stopped = g.stopped := rfl
@[simp] theorem writeH_arrival (g : Group) (r : HReg) (x : HVal) : (writeH g r x).arrival = g.arrival := rfl
@[simp] theorem writeH_phases (g : Group) (r : HReg) (x : HVal) : (writeH g r x).phases = g.phases := rfl
@[simp] theorem writeH_xreq (g : Group) (r : HReg) (x : HVal) : (writeH g r x).xreq = g.xreq := rfl
@[simp] theorem writeH_ctrs (g : Group) (r : HReg) (x : HVal) : (writeH g r x).ctrs = g.ctrs := rfl
@[simp] theorem writeH_bubbles (g : Group) (r : HReg) (x : HVal) : (writeH g r x).bubbles = g.bubbles := rfl
@[simp] theorem writeH_tried (g : Group) (r : HReg) (x : HVal) : (writeH g r x).tried = g.tried := rfl
@[simp] theorem writeH_issued (g : Group) (r : HReg) (x : HVal) : (writeH g r x).issued = g.issued := rfl
@[simp] theorem writeH_waited (g : Group) (r : HReg) (x : HVal) : (writeH g r x).waited = g.waited := rfl
@[simp] theorem writeH_since (g : Group) (r : HReg) (x : HVal) : (writeH g r x).since = g.since := rfl
@[simp] theorem writeH_yield (g : Group) (r : HReg) (x : HVal) : (writeH g r x).yield = g.yield := rfl
@[simp] theorem writeH_keyed (g : Group) (r : HReg) (x : HVal) : (writeH g r x).keyed = g.keyed := rfl
@[simp] theorem writeH_spawns (g : Group) (r : HReg) (x : HVal) : (writeH g r x).spawns = g.spawns := rfl
@[simp] theorem writeH_nCopy (g : Group) (r : HReg) (x : HVal) : (writeH g r x).nCopy = g.nCopy := rfl
@[simp] theorem writeH_nStore (g : Group) (r : HReg) (x : HVal) : (writeH g r x).nStore = g.nStore := rfl
@[simp] theorem writeH_nQueue (g : Group) (r : HReg) (x : HVal) : (writeH g r x).nQueue = g.nQueue := rfl
@[simp] theorem writeH_code (g : Group) (r : HReg) (x : HVal) : (writeH g r x).code = g.code := rfl
@[simp] theorem writeH_hang (g : Group) (r : HReg) (x : HVal) : (writeH g r x).hang = g.hang := rfl
@[simp] theorem writeH_last (g : Group) (r : HReg) (x : HVal) : (writeH g r x).last = g.last := rfl
@[simp] theorem writeH_emul (g : Group) (r : HReg) (x : HVal) : (writeH g r x).emul = g.emul := rfl

@[simp] theorem writeVreg_lanes (g : Group) (r : Nat) (m : Lanes) (x : Row) : (writeVreg g r m x).lanes = g.lanes := rfl
@[simp] theorem writeVreg_active (g : Group) (r : Nat) (m : Lanes) (x : Row) : (writeVreg g r m x).active = g.active := rfl
@[simp] theorem writeVreg_label (g : Group) (r : Nat) (m : Lanes) (x : Row) : (writeVreg g r m x).label = g.label := rfl
@[simp] theorem writeVreg_offset (g : Group) (r : Nat) (m : Lanes) (x : Row) : (writeVreg g r m x).offset = g.offset := rfl
@[simp] theorem writeVreg_frames (g : Group) (r : Nat) (m : Lanes) (x : Row) : (writeVreg g r m x).frames = g.frames := rfl
@[simp] theorem writeVreg_sround (g : Group) (r : Nat) (m : Lanes) (x : Row) : (writeVreg g r m x).sround = g.sround := rfl
@[simp] theorem writeVreg_fflags (g : Group) (r : Nat) (m : Lanes) (x : Row) : (writeVreg g r m x).fflags = g.fflags := rfl
@[simp] theorem writeVreg_frm (g : Group) (r : Nat) (m : Lanes) (x : Row) : (writeVreg g r m x).frm = g.frm := rfl
@[simp] theorem writeVreg_ftrap (g : Group) (r : Nat) (m : Lanes) (x : Row) : (writeVreg g r m x).ftrap = g.ftrap := rfl
@[simp] theorem writeVreg_s (g : Group) (r : Nat) (m : Lanes) (x : Row) : (writeVreg g r m x).s = g.s := rfl
@[simp] theorem writeVreg_p (g : Group) (r : Nat) (m : Lanes) (x : Row) : (writeVreg g r m x).p = g.p := rfl
@[simp] theorem writeVreg_c (g : Group) (r : Nat) (m : Lanes) (x : Row) : (writeVreg g r m x).c = g.c := rfl
@[simp] theorem writeVreg_h (g : Group) (r : Nat) (m : Lanes) (x : Row) : (writeVreg g r m x).h = g.h := rfl
@[simp] theorem writeVreg_q (g : Group) (r : Nat) (m : Lanes) (x : Row) : (writeVreg g r m x).q = g.q := rfl
@[simp] theorem writeVreg_run (g : Group) (r : Nat) (m : Lanes) (x : Row) : (writeVreg g r m x).run = g.run := rfl
@[simp] theorem writeVreg_seek (g : Group) (r : Nat) (m : Lanes) (x : Row) : (writeVreg g r m x).seek = g.seek := rfl
@[simp] theorem writeVreg_stall (g : Group) (r : Nat) (m : Lanes) (x : Row) : (writeVreg g r m x).stall = g.stall := rfl
@[simp] theorem writeVreg_waitS (g : Group) (r : Nat) (m : Lanes) (x : Row) : (writeVreg g r m x).waitS = g.waitS := rfl
@[simp] theorem writeVreg_safe (g : Group) (r : Nat) (m : Lanes) (x : Row) : (writeVreg g r m x).safe = g.safe := rfl
@[simp] theorem writeVreg_stopped (g : Group) (r : Nat) (m : Lanes) (x : Row) : (writeVreg g r m x).stopped = g.stopped := rfl
@[simp] theorem writeVreg_arrival (g : Group) (r : Nat) (m : Lanes) (x : Row) : (writeVreg g r m x).arrival = g.arrival := rfl
@[simp] theorem writeVreg_phases (g : Group) (r : Nat) (m : Lanes) (x : Row) : (writeVreg g r m x).phases = g.phases := rfl
@[simp] theorem writeVreg_xreq (g : Group) (r : Nat) (m : Lanes) (x : Row) : (writeVreg g r m x).xreq = g.xreq := rfl
@[simp] theorem writeVreg_ctrs (g : Group) (r : Nat) (m : Lanes) (x : Row) : (writeVreg g r m x).ctrs = g.ctrs := rfl
@[simp] theorem writeVreg_bubbles (g : Group) (r : Nat) (m : Lanes) (x : Row) : (writeVreg g r m x).bubbles = g.bubbles := rfl
@[simp] theorem writeVreg_tried (g : Group) (r : Nat) (m : Lanes) (x : Row) : (writeVreg g r m x).tried = g.tried := rfl
@[simp] theorem writeVreg_issued (g : Group) (r : Nat) (m : Lanes) (x : Row) : (writeVreg g r m x).issued = g.issued := rfl
@[simp] theorem writeVreg_waited (g : Group) (r : Nat) (m : Lanes) (x : Row) : (writeVreg g r m x).waited = g.waited := rfl
@[simp] theorem writeVreg_since (g : Group) (r : Nat) (m : Lanes) (x : Row) : (writeVreg g r m x).since = g.since := rfl
@[simp] theorem writeVreg_yield (g : Group) (r : Nat) (m : Lanes) (x : Row) : (writeVreg g r m x).yield = g.yield := rfl
@[simp] theorem writeVreg_keyed (g : Group) (r : Nat) (m : Lanes) (x : Row) : (writeVreg g r m x).keyed = g.keyed := rfl
@[simp] theorem writeVreg_spawns (g : Group) (r : Nat) (m : Lanes) (x : Row) : (writeVreg g r m x).spawns = g.spawns := rfl
@[simp] theorem writeVreg_nCopy (g : Group) (r : Nat) (m : Lanes) (x : Row) : (writeVreg g r m x).nCopy = g.nCopy := rfl
@[simp] theorem writeVreg_nStore (g : Group) (r : Nat) (m : Lanes) (x : Row) : (writeVreg g r m x).nStore = g.nStore := rfl
@[simp] theorem writeVreg_nQueue (g : Group) (r : Nat) (m : Lanes) (x : Row) : (writeVreg g r m x).nQueue = g.nQueue := rfl
@[simp] theorem writeVreg_code (g : Group) (r : Nat) (m : Lanes) (x : Row) : (writeVreg g r m x).code = g.code := rfl
@[simp] theorem writeVreg_hang (g : Group) (r : Nat) (m : Lanes) (x : Row) : (writeVreg g r m x).hang = g.hang := rfl
@[simp] theorem writeVreg_last (g : Group) (r : Nat) (m : Lanes) (x : Row) : (writeVreg g r m x).last = g.last := rfl
@[simp] theorem writeVreg_emul (g : Group) (r : Nat) (m : Lanes) (x : Row) : (writeVreg g r m x).emul = g.emul := rfl
@[simp] theorem writeVreg_acq (g : Group) (r : Nat) (m : Lanes) (x : Row) : (writeVreg g r m x).acq = g.acq := rfl
@[simp] theorem writeVreg_owed (g : Group) (r : Nat) (m : Lanes) (x : Row) : (writeVreg g r m x).owed = g.owed := rfl

@[simp] theorem writeP_lanes (g : Group) (r : PReg) (m x : Lanes) : (writeP g r m x).lanes = g.lanes := by unfold writeP; split <;> rfl
@[simp] theorem writeP_active (g : Group) (r : PReg) (m x : Lanes) : (writeP g r m x).active = g.active := by unfold writeP; split <;> rfl
@[simp] theorem writeP_label (g : Group) (r : PReg) (m x : Lanes) : (writeP g r m x).label = g.label := by unfold writeP; split <;> rfl
@[simp] theorem writeP_offset (g : Group) (r : PReg) (m x : Lanes) : (writeP g r m x).offset = g.offset := by unfold writeP; split <;> rfl
@[simp] theorem writeP_frames (g : Group) (r : PReg) (m x : Lanes) : (writeP g r m x).frames = g.frames := by unfold writeP; split <;> rfl
@[simp] theorem writeP_sround (g : Group) (r : PReg) (m x : Lanes) : (writeP g r m x).sround = g.sround := by unfold writeP; split <;> rfl
@[simp] theorem writeP_fflags (g : Group) (r : PReg) (m x : Lanes) : (writeP g r m x).fflags = g.fflags := by unfold writeP; split <;> rfl
@[simp] theorem writeP_frm (g : Group) (r : PReg) (m x : Lanes) : (writeP g r m x).frm = g.frm := by unfold writeP; split <;> rfl
@[simp] theorem writeP_ftrap (g : Group) (r : PReg) (m x : Lanes) : (writeP g r m x).ftrap = g.ftrap := by unfold writeP; split <;> rfl
@[simp] theorem writeP_v (g : Group) (r : PReg) (m x : Lanes) : (writeP g r m x).v = g.v := by unfold writeP; split <;> rfl
@[simp] theorem writeP_s (g : Group) (r : PReg) (m x : Lanes) : (writeP g r m x).s = g.s := by unfold writeP; split <;> rfl
@[simp] theorem writeP_c (g : Group) (r : PReg) (m x : Lanes) : (writeP g r m x).c = g.c := by unfold writeP; split <;> rfl
@[simp] theorem writeP_h (g : Group) (r : PReg) (m x : Lanes) : (writeP g r m x).h = g.h := by unfold writeP; split <;> rfl
@[simp] theorem writeP_q (g : Group) (r : PReg) (m x : Lanes) : (writeP g r m x).q = g.q := by unfold writeP; split <;> rfl
@[simp] theorem writeP_run (g : Group) (r : PReg) (m x : Lanes) : (writeP g r m x).run = g.run := by unfold writeP; split <;> rfl
@[simp] theorem writeP_seek (g : Group) (r : PReg) (m x : Lanes) : (writeP g r m x).seek = g.seek := by unfold writeP; split <;> rfl
@[simp] theorem writeP_stall (g : Group) (r : PReg) (m x : Lanes) : (writeP g r m x).stall = g.stall := by unfold writeP; split <;> rfl
@[simp] theorem writeP_waitS (g : Group) (r : PReg) (m x : Lanes) : (writeP g r m x).waitS = g.waitS := by unfold writeP; split <;> rfl
@[simp] theorem writeP_safe (g : Group) (r : PReg) (m x : Lanes) : (writeP g r m x).safe = g.safe := by unfold writeP; split <;> rfl
@[simp] theorem writeP_stopped (g : Group) (r : PReg) (m x : Lanes) : (writeP g r m x).stopped = g.stopped := by unfold writeP; split <;> rfl
@[simp] theorem writeP_arrival (g : Group) (r : PReg) (m x : Lanes) : (writeP g r m x).arrival = g.arrival := by unfold writeP; split <;> rfl
@[simp] theorem writeP_phases (g : Group) (r : PReg) (m x : Lanes) : (writeP g r m x).phases = g.phases := by unfold writeP; split <;> rfl
@[simp] theorem writeP_xreq (g : Group) (r : PReg) (m x : Lanes) : (writeP g r m x).xreq = g.xreq := by unfold writeP; split <;> rfl
@[simp] theorem writeP_ctrs (g : Group) (r : PReg) (m x : Lanes) : (writeP g r m x).ctrs = g.ctrs := by unfold writeP; split <;> rfl
@[simp] theorem writeP_bubbles (g : Group) (r : PReg) (m x : Lanes) : (writeP g r m x).bubbles = g.bubbles := by unfold writeP; split <;> rfl
@[simp] theorem writeP_tried (g : Group) (r : PReg) (m x : Lanes) : (writeP g r m x).tried = g.tried := by unfold writeP; split <;> rfl
@[simp] theorem writeP_issued (g : Group) (r : PReg) (m x : Lanes) : (writeP g r m x).issued = g.issued := by unfold writeP; split <;> rfl
@[simp] theorem writeP_waited (g : Group) (r : PReg) (m x : Lanes) : (writeP g r m x).waited = g.waited := by unfold writeP; split <;> rfl
@[simp] theorem writeP_since (g : Group) (r : PReg) (m x : Lanes) : (writeP g r m x).since = g.since := by unfold writeP; split <;> rfl
@[simp] theorem writeP_yield (g : Group) (r : PReg) (m x : Lanes) : (writeP g r m x).yield = g.yield := by unfold writeP; split <;> rfl
@[simp] theorem writeP_keyed (g : Group) (r : PReg) (m x : Lanes) : (writeP g r m x).keyed = g.keyed := by unfold writeP; split <;> rfl
@[simp] theorem writeP_spawns (g : Group) (r : PReg) (m x : Lanes) : (writeP g r m x).spawns = g.spawns := by unfold writeP; split <;> rfl
@[simp] theorem writeP_nCopy (g : Group) (r : PReg) (m x : Lanes) : (writeP g r m x).nCopy = g.nCopy := by unfold writeP; split <;> rfl
@[simp] theorem writeP_nStore (g : Group) (r : PReg) (m x : Lanes) : (writeP g r m x).nStore = g.nStore := by unfold writeP; split <;> rfl
@[simp] theorem writeP_nQueue (g : Group) (r : PReg) (m x : Lanes) : (writeP g r m x).nQueue = g.nQueue := by unfold writeP; split <;> rfl
@[simp] theorem writeP_code (g : Group) (r : PReg) (m x : Lanes) : (writeP g r m x).code = g.code := by unfold writeP; split <;> rfl
@[simp] theorem writeP_hang (g : Group) (r : PReg) (m x : Lanes) : (writeP g r m x).hang = g.hang := by unfold writeP; split <;> rfl
@[simp] theorem writeP_last (g : Group) (r : PReg) (m x : Lanes) : (writeP g r m x).last = g.last := by unfold writeP; split <;> rfl
@[simp] theorem writeP_emul (g : Group) (r : PReg) (m x : Lanes) : (writeP g r m x).emul = g.emul := by unfold writeP; split <;> rfl
@[simp] theorem writeP_acq (g : Group) (r : PReg) (m x : Lanes) : (writeP g r m x).acq = g.acq := by unfold writeP; split <;> rfl
@[simp] theorem writeP_owed (g : Group) (r : PReg) (m x : Lanes) : (writeP g r m x).owed = g.owed := by unfold writeP; split <;> rfl

@[simp] theorem ctrAdd_lanes (g : Group) (n : Nat) : (ctrAdd g n).lanes = g.lanes := rfl
@[simp] theorem ctrAdd_active (g : Group) (n : Nat) : (ctrAdd g n).active = g.active := rfl
@[simp] theorem ctrAdd_label (g : Group) (n : Nat) : (ctrAdd g n).label = g.label := rfl
@[simp] theorem ctrAdd_offset (g : Group) (n : Nat) : (ctrAdd g n).offset = g.offset := rfl
@[simp] theorem ctrAdd_frames (g : Group) (n : Nat) : (ctrAdd g n).frames = g.frames := rfl
@[simp] theorem ctrAdd_sround (g : Group) (n : Nat) : (ctrAdd g n).sround = g.sround := rfl
@[simp] theorem ctrAdd_fflags (g : Group) (n : Nat) : (ctrAdd g n).fflags = g.fflags := rfl
@[simp] theorem ctrAdd_frm (g : Group) (n : Nat) : (ctrAdd g n).frm = g.frm := rfl
@[simp] theorem ctrAdd_ftrap (g : Group) (n : Nat) : (ctrAdd g n).ftrap = g.ftrap := rfl
@[simp] theorem ctrAdd_v (g : Group) (n : Nat) : (ctrAdd g n).v = g.v := rfl
@[simp] theorem ctrAdd_s (g : Group) (n : Nat) : (ctrAdd g n).s = g.s := rfl
@[simp] theorem ctrAdd_p (g : Group) (n : Nat) : (ctrAdd g n).p = g.p := rfl
@[simp] theorem ctrAdd_c (g : Group) (n : Nat) : (ctrAdd g n).c = g.c := rfl
@[simp] theorem ctrAdd_h (g : Group) (n : Nat) : (ctrAdd g n).h = g.h := rfl
@[simp] theorem ctrAdd_q (g : Group) (n : Nat) : (ctrAdd g n).q = g.q := rfl
@[simp] theorem ctrAdd_run (g : Group) (n : Nat) : (ctrAdd g n).run = g.run := rfl
@[simp] theorem ctrAdd_seek (g : Group) (n : Nat) : (ctrAdd g n).seek = g.seek := rfl
@[simp] theorem ctrAdd_stall (g : Group) (n : Nat) : (ctrAdd g n).stall = g.stall := rfl
@[simp] theorem ctrAdd_waitS (g : Group) (n : Nat) : (ctrAdd g n).waitS = g.waitS := rfl
@[simp] theorem ctrAdd_safe (g : Group) (n : Nat) : (ctrAdd g n).safe = g.safe := rfl
@[simp] theorem ctrAdd_stopped (g : Group) (n : Nat) : (ctrAdd g n).stopped = g.stopped := rfl
@[simp] theorem ctrAdd_arrival (g : Group) (n : Nat) : (ctrAdd g n).arrival = g.arrival := rfl
@[simp] theorem ctrAdd_phases (g : Group) (n : Nat) : (ctrAdd g n).phases = g.phases := rfl
@[simp] theorem ctrAdd_xreq (g : Group) (n : Nat) : (ctrAdd g n).xreq = g.xreq := rfl
@[simp] theorem ctrAdd_bubbles (g : Group) (n : Nat) : (ctrAdd g n).bubbles = g.bubbles := rfl
@[simp] theorem ctrAdd_tried (g : Group) (n : Nat) : (ctrAdd g n).tried = g.tried := rfl
@[simp] theorem ctrAdd_issued (g : Group) (n : Nat) : (ctrAdd g n).issued = g.issued := rfl
@[simp] theorem ctrAdd_waited (g : Group) (n : Nat) : (ctrAdd g n).waited = g.waited := rfl
@[simp] theorem ctrAdd_since (g : Group) (n : Nat) : (ctrAdd g n).since = g.since := rfl
@[simp] theorem ctrAdd_yield (g : Group) (n : Nat) : (ctrAdd g n).yield = g.yield := rfl
@[simp] theorem ctrAdd_keyed (g : Group) (n : Nat) : (ctrAdd g n).keyed = g.keyed := rfl
@[simp] theorem ctrAdd_spawns (g : Group) (n : Nat) : (ctrAdd g n).spawns = g.spawns := rfl
@[simp] theorem ctrAdd_nCopy (g : Group) (n : Nat) : (ctrAdd g n).nCopy = g.nCopy := rfl
@[simp] theorem ctrAdd_nStore (g : Group) (n : Nat) : (ctrAdd g n).nStore = g.nStore := rfl
@[simp] theorem ctrAdd_nQueue (g : Group) (n : Nat) : (ctrAdd g n).nQueue = g.nQueue := rfl
@[simp] theorem ctrAdd_code (g : Group) (n : Nat) : (ctrAdd g n).code = g.code := rfl
@[simp] theorem ctrAdd_hang (g : Group) (n : Nat) : (ctrAdd g n).hang = g.hang := rfl
@[simp] theorem ctrAdd_last (g : Group) (n : Nat) : (ctrAdd g n).last = g.last := rfl
@[simp] theorem ctrAdd_emul (g : Group) (n : Nat) : (ctrAdd g n).emul = g.emul := rfl
@[simp] theorem ctrAdd_acq (g : Group) (n : Nat) : (ctrAdd g n).acq = g.acq := rfl
@[simp] theorem ctrAdd_owed (g : Group) (n : Nat) : (ctrAdd g n).owed = g.owed := rfl

/-! ### Reading a register after writing one -/

@[simp] theorem readS_writeS_same (g : Group) (r : SReg) (x : W64) : readS (writeS g r x) r = x := by simp [readS, writeS]

theorem readS_writeS_ne (g : Group) {r q : SReg} (x : W64) (h : q ≠ r) : readS (writeS g r x) q = readS g q := by
  have : q.toNat ≠ r.toNat := fun e => h (BitVec.eq_of_toNat_eq e)
  simp [readS, writeS, tgetD_tput_ne _ _ _ this]

@[simp] theorem readC_writeC_same (g : Group) (r : CReg) (x : Cap) : readC (writeC g r x) r = x := by simp [readC, writeC]

theorem readC_writeC_ne (g : Group) {r q : CReg} (x : Cap) (h : q ≠ r) : readC (writeC g r x) q = readC g q := by
  have : q.toNat ≠ r.toNat := fun e => h (BitVec.eq_of_toNat_eq e)
  simp [readC, writeC, tgetD_tput_ne _ _ _ this]

/-- p0 discards writes and reads true in every lane (R28). -/
@[simp] theorem readP_zero (g : Group) : readP g 0 = allLanes := rfl

@[simp] theorem writeP_zero (g : Group) (m x : Lanes) : writeP g 0 m x = g := rfl

/-- A write reaches the lanes of the mask and no other (R29). -/
theorem readP_writeP_same (g : Group) (r : PReg) (m x : Lanes) (h : r ≠ 0) :
    readP (writeP g r m x) r = (x &&& m) ||| (tgetD g.p r.toNat 0 &&& ~~~m) := by
  simp only [readP, writeP, if_neg h, tgetD_tput_same]

theorem readP_writeP_ne (g : Group) {r q : PReg} (m x : Lanes) (h : q ≠ r) : readP (writeP g r m x) q = readP g q := by
  have : q.toNat ≠ r.toNat := fun e => h (BitVec.eq_of_toNat_eq e)
  unfold readP writeP
  split
  · rfl
  · split
    · rfl
    · simp [tgetD_tput_ne _ _ _ this]

theorem readV_writeVreg_same (g : Group) (r : Nat) (m : Lanes) (x : Row) : readV (writeVreg g r m x) r = rowMerge m x (readV g r) := by
  simp [readV, writeVreg]

theorem readV_writeVreg_ne (g : Group) {r q : Nat} (m : Lanes) (x : Row) (h : q ≠ r) : readV (writeVreg g r m x) q = readV g q := by
  simp [readV, writeVreg, tgetD_tput_ne _ _ _ h]

/-! ### Views -/

theorem viewAt_eq_some {s : State} {u k : Nat} {v : View} :
    viewAt s u k = some v ↔ v.st = s ∧ v.uid = u ∧ v.gid = k ∧ tget s.blocks u = some v.b ∧ v.b.groups[k]? = some v.g := by
  unfold viewAt
  constructor
  · intro h
    split at h
    · cases h
    · rename_i b hb
      split at h
      · cases h
      · rename_i g hg
        cases h
        exact ⟨rfl, rfl, rfl, hb, hg⟩
  · rintro ⟨rfl, rfl, rfl, hb, hg⟩
    simp [hb, hg]

theorem currentView_eq_some {s : State} {v : View} :
    currentView s = some v ↔ ∃ u k, s.cur = some (u, k) ∧ viewAt s u k = some v := by
  unfold currentView
  split
  · simp_all
  · rename_i u k h
    simp [h]

/-- The block of a view that is written back holds the view's group, and other groups stay. -/
theorem viewAt_flush {s : State} {u k : Nat} {v w : View} (h : viewAt s u k = some v) (hu : w.uid = u) (hk : w.gid = k)
    (hl : w.b.groups.length = v.b.groups.length) :
    viewAt (flush w) u k = some { w with st := flush w, b := { w.b with groups := listSet w.b.groups k w.g } } := by
  obtain ⟨_, _, _, _, hg⟩ := viewAt_eq_some.1 h
  have hlt : k < w.b.groups.length := by
    rw [hl]
    exact (List.getElem?_eq_some_iff.1 hg).1
  subst hu hk
  simp [viewAt, getElem?_listSet_same _ _ _ hlt]

theorem tget_blocks_flush_ne (v : View) {u : Nat} (h : u ≠ v.uid) : tget (flush v).blocks u = tget v.st.blocks u := by
  simp [tget_tput_ne _ _ h]

end Sys2Proof.Machine
end

