-- ==== Sys2Proof/Laws/Device.lean ====
section
/-! SUPPORT. What the command processor and the other agents without a TLB read from one resident page, and how they store one word. -/
namespace Sys2Proof.Machine
open Sys2Proof

theorem bgets_succ (m : Cells) (n : Nat) : ∀ a : Nat, bgets m a (n + 1) = bgets m a n ++ [bget m (a + n)] := by
  induction n with
  | zero => intro a; rfl
  | succ n ih =>
    intro a
    have h := ih (a + 1)
    rw [bgets, h, bgets, List.cons_append, Nat.add_assoc, Nat.add_comm 1 n]

/-- A walk reads the partition's registers and the cellar only. -/
theorem walk_eq {s t : State} (hp : s.parts = t.parts) (hc : s.cellar = t.cellar) (part vpn : Nat) : walk s part vpn = walk t part vpn := by
  have hq : ∀ k, pctl s k = pctl t k := fun k => by funext n; simp only [pctl, partOf, hp]
  have hr : partOf s = partOf t := by funext k; simp only [partOf, hp]
  have hi : inWindow s part = inWindow t part := by funext a n; simp only [inWindow, hr]
  have hp' : pteAt s = pteAt t := by funext a; simp only [pteAt, hc]
  have he : walkEntry s part vpn = walkEntry t part vpn := by funext n b; simp only [walkEntry, hp', hi]
  have hf : ∀ n base, walkFrom s part vpn n base = walkFrom t part vpn n base := by
    intro n
    induction n with
    | zero => intro base; simp only [walkFrom, he]
    | succ n ih => intro base; simp only [walkFrom, he, ih]
  simp only [walk, hq, hi, hf]

/-- A walk's fetches through the cellar ports are flits, and change nothing else. -/
theorem walkFlits_eq (s : State) (stop part vpn : Nat) : ∃ fs n, walkFlits s stop part vpn = { s with flits := fs, nextFlit := n } := by
  unfold walkFlits
  simp only
  split
  · generalize walkReads s part vpn 2 _ = as
    suffices h : ∀ r : State, (∃ fs n, r = { s with flits := fs, nextFlit := n }) →
        ∃ fs n, as.foldl (fun s a => cellarMiss s part stop a 8) r = { s with flits := fs, nextFlit := n } from h s ⟨s.flits, s.nextFlit, rfl⟩
    induction as with
    | nil => exact fun r h => h
    | cons a as ih =>
      rintro r ⟨fs, n, rfl⟩
      obtain ⟨fs', n', h⟩ := sendSectors_eq { s with flits := fs, nextFlit := n } .request part stop
        (cellarStop { s with flits := fs, nextFlit := n } a) false (.miss stop a 8) (sectors [])
      exact ih _ ⟨fs', n', h⟩
  · exact ⟨s.flits, s.nextFlit, rfl⟩

/-- A readable byte of a resident page is found there. -/
theorem meet_page {s : State} {part addr id : Nat} {l : Leaf} {pg : Page} (hw : walk s part (vpnOf addr) = .ok l) (hr : l.rd = true)
    (hp : findPage s part (vpnOf addr) l.frame = some (id, pg)) (he : pg.evicting = false) (hl : s.lost.contains (lostKey part addr) = false) :
    meet s none part addr true false =
      ({ walkFlits s (procStop part) part (vpnOf addr) with pages := tput s.pages id { pg with used := s.clock } },
        .page id (addr - pg.vpn * 65536)) := by
  obtain ⟨fs, n, h⟩ := walkFlits_eq s (procStop part) part (vpnOf addr)
  have hp' : findPage { s with flits := fs, nextFlit := n } part (vpnOf addr) l.frame = some (id, pg) := hp
  simp only [meet, translate, hw, hr, h, hp', he, hl]
  rfl

/-- Bytes of one resident page are read from it. -/
theorem devLoad_page {s : State} {part addr id : Nat} {l : Leaf} {pg : Page} (hw : walk s part (vpnOf addr) = .ok l) (hr : l.rd = true)
    (hp : findPage s part (vpnOf addr) l.frame = some (id, pg)) (he : pg.evicting = false) (hb : pg.vpn * 65536 ≤ addr) (n : Nat)
    (hn : addr % 65536 + n ≤ 65536) (hl : ∀ i < n, s.lost.contains (lostKey part (addr + i)) = false) :
    devLoad s part addr n = .done (bgets pg.data (addr - pg.vpn * 65536) n) := by
  induction n with
  | zero => rfl
  | succ n ih =>
    have hv : vpnOf (addr + n) = vpnOf addr := by simp only [vpnOf]; omega
    have hm := meet_page (addr := addr + n) (hv ▸ hw) hr (hv ▸ hp) he (hl n (Nat.lt_succ_self n))
    have ha : addr + n - pg.vpn * 65536 = addr - pg.vpn * 65536 + n := by omega
    rw [devLoad, ih (by omega) (fun i hi => hl i (Nat.lt_succ_of_lt hi)), bgets_succ]
    simp [hm, ha, pageBytes, bgets]

/-- The command processor reads bytes of one resident page from it. -/
theorem cpRead_page {s : State} {part addr id : Nat} {l : Leaf} {pg : Page} {n : Nat} (hi : inReach s part addr (addr + n) = true)
    (hw : walk s part (vpnOf addr) = .ok l) (hr : l.rd = true) (hp : findPage s part (vpnOf addr) l.frame = some (id, pg))
    (he : pg.evicting = false) (hb : pg.vpn * 65536 ≤ addr) (hn : addr % 65536 + n ≤ 65536)
    (hl : ∀ i < n, s.lost.contains (lostKey part (addr + i)) = false) :
    cpRead s part addr n = .done (bgets pg.data (addr - pg.vpn * 65536) n) := by
  by_cases h : n = 0
  · subst h; rfl
  · simp only [cpRead, h, hi, if_true, if_false, devLoad_page hw hr hp he hb n hn hl]

theorem wordPieces_nil (a : Nat) : ∀ n, wordPieces n a [] = []
  | 0 => rfl
  | _ + 1 => rfl

/-- Bytes within one word are one piece. -/
theorem wordPieces_word {a : Nat} {bs : List W8} (hb : bs ≠ []) (hl : a % 8 + bs.length ≤ 8) : wordPieces bs.length a bs = [(a, bs)] := by
  have hn : bs.length = bs.length - 1 + 1 := by have := List.length_pos_iff.2 hb; omega
  have he : bs.isEmpty = false := by cases bs with
    | nil => exact absurd rfl hb
    | cons => rfl
  rw [hn, wordPieces, he, List.take_of_length_le (by omega), List.drop_eq_nil_of_le (by omega), wordPieces_nil]
  rfl

/-- A write of less than a sector clears no mark. -/
theorem clearLost_small {s : State} {part addr n : Nat} (h : n < 128) : clearLost s part (rangeCovers addr n) = s := by
  have hc : rangeCovers addr n = fun _ => false := by
    funext i
    simp only [rangeCovers, Bool.and_eq_false_iff, decide_eq_false_iff_not]
    omega
  simp [clearLost, hc]

theorem coverDone_small {part addr n : Nat} {r : StoreRes} (h : n < 128) : coverDone part addr n r = r := by
  cases r <;> simp [coverDone, clearLost_small h]

/-- Bytes within one word are stored by one write, or not at all. -/
theorem devStoreAll_word {s : State} {part addr : Nat} {w : Writer} {bs : List W8} (hb : bs ≠ []) (hl : addr % 8 + bs.length ≤ 8) :
    devStoreAll s part w addr bs = devStore s part addr bs w := by
  rw [devStoreAll, wordPieces_word hb hl]
  cases h : devStore s part addr bs w <;> simp [h, coverDone_small (show bs.length < 128 by omega)]

end Sys2Proof.Machine
end

