-- ==== Sys2Proof/Laws/Encode.lean ====
section
/-! SUPPORT. The fields of a packed word: what the decoder reads where the encoder wrote. -/
namespace Sys2Proof

/-! ### The header -/

@[simp] theorem wMajor_packWord (maj : BitVec 6) (h : Hdr) (mod : BitVec 5) (min : BitVec 8) (body : BitVec 40) :
    wMajor (packWord maj h mod min body) = maj.toNat := by
  have : fld (packWord maj h mod min body) 58 6 = maj := by
    apply BitVec.eq_of_getLsbD_eq
    intro i hi
    simp only [fld, packWord, BitVec.getLsbD_extractLsb', BitVec.getLsbD_append]
    simp [hi, show ¬ 58 + i < 40 by omega, show ¬ 58 + i - 40 < 8 by omega, show ¬ 58 + i - 40 - 8 < 5 by omega,
      show ¬ 58 + i - 40 - 8 - 5 < 1 by omega, show ¬ 58 + i - 40 - 8 - 5 - 1 < 3 by omega,
      show ¬ 58 + i - 40 - 8 - 5 - 1 - 3 < 1 by omega, show 58 + i - 40 - 8 - 5 - 1 - 3 - 1 = i by omega]
  simp [wMajor, this]

@[simp] theorem wMinor_packWord (maj : BitVec 6) (h : Hdr) (mod : BitVec 5) (min : BitVec 8) (body : BitVec 40) :
    wMinor (packWord maj h mod min body) = min.toNat := by
  have : fld (packWord maj h mod min body) 40 8 = min := by
    apply BitVec.eq_of_getLsbD_eq
    intro i hi
    simp only [fld, packWord, BitVec.getLsbD_extractLsb', BitVec.getLsbD_append]
    simp [hi, show ¬ 40 + i < 40 by omega, show 40 + i - 40 = i by omega]
  simp [wMinor, this]

@[simp] theorem wMod_packWord (maj : BitVec 6) (h : Hdr) (mod : BitVec 5) (min : BitVec 8) (body : BitVec 40) :
    wMod (packWord maj h mod min body) = mod := by
  apply BitVec.eq_of_getLsbD_eq
  intro i hi
  simp only [wMod, fld, packWord, BitVec.getLsbD_extractLsb', BitVec.getLsbD_append]
  simp [hi, show ¬ 48 + i < 40 by omega, show ¬ 48 + i - 40 < 8 by omega, show 48 + i - 40 - 8 = i by omega]

@[simp] theorem wSafe_packWord (maj : BitVec 6) (h : Hdr) (mod : BitVec 5) (min : BitVec 8) (body : BitVec 40) :
    wSafe (packWord maj h mod min body) = h.safe := by
  simp only [wSafe, packWord, BitVec.getLsbD_append]
  simp

@[simp] theorem neg_packWord (maj : BitVec 6) (h : Hdr) (mod : BitVec 5) (min : BitVec 8) (body : BitVec 40) :
    (packWord maj h mod min body).getLsbD 53 = h.neg := by
  simp only [packWord, BitVec.getLsbD_append]
  simp

@[simp] theorem psel_packWord (maj : BitVec 6) (h : Hdr) (mod : BitVec 5) (min : BitVec 8) (body : BitVec 40) :
    fld (packWord maj h mod min body) 54 3 = h.psel := by
  apply BitVec.eq_of_getLsbD_eq
  intro i hi
  simp only [fld, packWord, BitVec.getLsbD_extractLsb', BitVec.getLsbD_append]
  simp [hi, show ¬ 54 + i < 40 by omega, show ¬ 54 + i - 40 < 8 by omega, show ¬ 54 + i - 40 - 8 < 5 by omega,
    show ¬ 54 + i - 40 - 8 - 5 < 1 by omega, show 54 + i - 40 - 8 - 5 - 1 = i by omega]

/-- The decoder reads back the header of a packed word, followed by its mask word. -/
@[simp] theorem hdrOf_packWord (maj : BitVec 6) (h : Hdr) (mod : BitVec 5) (min : BitVec 8) (body : BitVec 40) (hm : h.safe = true ∨ h.mask = 0) :
    hdrOf (packWord maj h mod min body) h.mask = h := by
  unfold hdrOf
  rw [wSafe_packWord, neg_packWord, psel_packWord]
  cases h with
  | mk safe psel neg mask =>
    rcases hm with hm | hm <;> simp only at hm <;> subst hm <;> simp

theorem Hdr.ok_mask {h : Hdr} (ho : h.ok = true) : h.safe = true ∨ h.mask = 0 := by
  unfold Hdr.ok at ho
  cases hs : h.safe
  · simp [hs] at ho
    exact .inr ho.2
  · exact .inl rfl

/-! ### The body -/

/-- A field of the low 40 bits is a field of the body. -/
theorem fld_packWord (maj : BitVec 6) (h : Hdr) (mod : BitVec 5) (min : BitVec 8) (body : BitVec 40) (lo n : Nat) (hn : lo + n ≤ 40) :
    fld (packWord maj h mod min body) lo n = body.extractLsb' lo n := by
  apply BitVec.eq_of_getLsbD_eq
  intro i hi
  simp only [fld, packWord, BitVec.getLsbD_extractLsb', BitVec.getLsbD_append]
  simp [hi, show lo + i < 40 by omega]

theorem bit_packWord (maj : BitVec 6) (h : Hdr) (mod : BitVec 5) (min : BitVec 8) (body : BitVec 40) (k : Nat) (hk : k < 40) :
    (packWord maj h mod min body).getLsbD k = body.getLsbD k := by
  simp only [packWord, BitVec.getLsbD_append]
  simp [hk]

end Sys2Proof
end

