-- ==== Sys2Proof/Laws/Ops.lean ====
section
/-! SUPPORT. What the shared operations can do, once each: an instruction that gets past the checks of R54, one that does not, completing,
trapping, and the reading of operands. -/
namespace Sys2Proof.Machine
open Sys2Proof

@[simp] theorem passOn_done (v : View) (x : View × List Row) (w : View) (fl : BitVec 6) : passOn v x (.done w fl) = .done w fl := rfl
@[simp] theorem passOn_trap (v : View) (x : View × List Row) (c k l : Nat) (d : BitVec 8) (a : W64) :
    passOn v x (.trap c k l d a) = .trap c k l d a := rfl
@[simp] theorem passOn_after (v : View) (x : View × List Row) (w : View) (c k : Nat) (a : W64) :
    passOn v x (.after w c k a) = .after w c k a := rfl
@[simp] theorem passOn_raw (v : View) (x : View × List Row) (w : View) : passOn v x (.raw w) = .raw w := rfl
@[simp] theorem passOn_hold_nil (v w : View) (c : Nat) : passOn v (v, []) (.hold w c) = .hold w c := rfl

/-- Where no pending acquire is observed nothing happens. -/
theorem observeAcq_none {v : View} {p : Nat → Bool} (h : v.g.acq.any p = false) : observeAcq v p = v := by
  simp only [observeAcq, h]
  rfl

@[simp] theorem observeAcq_nil {v : View} {p : Nat → Bool} (h : v.g.acq = []) : observeAcq v p = v := observeAcq_none (by rw [h]; rfl)

/-- Past the checks, an attempt is the instruction's own body. -/
theorem attempt_ready {h : Hdr} {s : State} {v : View} {priv : Bool} {ops : List Opd} {body : View → List Row → Res}
    (hi : Issues h s v) (hp : priv = true → isHandler v = true) (ho : OperandsReady ops v) :
    attempt h priv ops body v =
      passOn v (readRows (execOf h v.g) ops v) (body (readRows (execOf h v.g) ops v).1 (readRows (execOf h v.g) ops v).2) := by
  have h1 : (h.psel ≠ 0 && !thas v.g.p h.psel.toNat) = false := by
    rcases hi.pred with h0 | h0 <;> simp [h0]
  have h2 : (priv && !isHandler v) = false := by
    cases priv
    · rfl
    · simp [hp rfl]
  simp only [attempt, h1, hi.exec, h2, ho.regs, ho.handle, ho.matrix, ho.void, ho.queue, observeAcq_none ho.acq]
  rfl

theorem issue_ready {h : Hdr} {s : State} {v : View} {ops : List Opd} {body : View → List Row → Res}
    (hi : Issues h s v) (ho : OperandsReady ops v) :
    issue h ops body s = .next (flush (conclude h v (passOn v (readRows (execOf h v.g) ops v)
      (body (readRows (execOf h v.g) ops v).1 (readRows (execOf h v.g) ops v).2)))) := by
  simp only [issue, hi.cur]
  rw [attempt_ready hi (by simp) ho]

theorem issueP_ready {h : Hdr} {s : State} {v : View} {ops : List Opd} {body : View → List Row → Res}
    (hi : Issues h s v) (hp : isHandler v = true) (ho : OperandsReady ops v) :
    issueP h ops body s = .next (flush (conclude h v (passOn v (readRows (execOf h v.g) ops v)
      (body (readRows (execOf h v.g) ops v).1 (readRows (execOf h v.g) ops v).2)))) := by
  simp only [issueP, hi.cur]
  rw [attempt_ready hi (fun _ => hp) ho]

/-- No operand reads a vector register. -/
def noRows : List Opd → Bool
  | [] => true
  | .v _ _ true _ :: _ => false
  | _ :: rest => noRows rest

theorem readRows_noRows (ex : Lanes) (ops : List Opd) (v : View) (h : noRows ops = true) : readRows ex ops v = (v, []) := by
  induction ops with
  | nil => rfl
  | cons o rest ih =>
    cases o with
    | v r n src dst =>
      cases src
      · exact ih h
      · cases h
    | s r n src dst => exact ih h
    | p r => exact ih h
    | c r => exact ih h
    | h r => exact ih h
    | hd r => exact ih h
    | m t d w a b => exact ih h
    | x r p big => exact ih h

/-- The same for an instruction that reads no vector register. -/
theorem issue_scalar {h : Hdr} {s : State} {v : View} {ops : List Opd} {body : View → List Row → Res}
    (hi : Issues h s v) (ho : OperandsReady ops v) (hn : noRows ops = true) :
    issue h ops body s = .next (flush (conclude h v (body v []))) := by
  rw [issue_ready hi ho, readRows_noRows _ _ _ hn]
  cases hb : body v [] <;> simp

theorem issueP_scalar {h : Hdr} {s : State} {v : View} {ops : List Opd} {body : View → List Row → Res}
    (hi : Issues h s v) (hp : isHandler v = true) (ho : OperandsReady ops v) (hn : noRows ops = true) :
    issueP h ops body s = .next (flush (conclude h v (body v []))) := by
  rw [issueP_ready hi hp ho, readRows_noRows _ _ _ hn]
  cases hb : body v [] <;> simp

/-- With EXEC empty an instruction completes without effect (R54). -/
theorem attempt_noLanes {h : Hdr} {v : View} {priv : Bool} {ops : List Opd} {body : View → List Row → Res}
    (hp : h.psel = 0 ∨ thas v.g.p h.psel.toNat = true) (he : execOf h v.g = 0) : attempt h priv ops body v = .done v 0 := by
  have h1 : (h.psel ≠ 0 && !thas v.g.p h.psel.toNat) = false := by
    rcases hp with h0 | h0 <;> simp [h0]
  simp only [attempt, h1, he]
  rfl

/-- With a void predicate an instruction traps (R54 step 4). -/
theorem attempt_voidPredicate {h : Hdr} {v : View} {priv : Bool} {ops : List Opd} {body : View → List Row → Res}
    (hp : h.psel ≠ 0) (hv : thas v.g.p h.psel.toNat = false) : attempt h priv ops body v = .trap 0 1 255 4 0 := by
  have h1 : (h.psel ≠ 0 && !thas v.g.p h.psel.toNat) = true := by
    rw [hv]
    simpa using hp
  simp only [attempt, h1]
  rfl

/-- Outside the handler context a privileged instruction traps (R54 step 5). -/
theorem attempt_privileged {h : Hdr} {s : State} {v : View} {ops : List Opd} {body : View → List Row → Res}
    (hi : Issues h s v) (hn : isHandler v = false) : attempt h true ops body v = .trap 0 0x0B 255 5 0 := by
  have h1 : (h.psel ≠ 0 && !thas v.g.p h.psel.toNat) = false := by
    rcases hi.pred with h0 | h0 <;> simp [h0]
  simp only [attempt, h1, hi.exec, hn]
  rfl

/-! ### What concludes an instruction -/

@[simp] theorem conclude_done (h : Hdr) (v w : View) (fl : BitVec 6) : conclude h v (.done w fl) = settle h w fl := rfl
@[simp] theorem conclude_hold (h : Hdr) (v w : View) (n : Nat) : conclude h v (.hold w n) = stallView h w n := rfl
@[simp] theorem conclude_trap (h : Hdr) (v : View) (c k l : Nat) (d : BitVec 8) (a : W64) :
    conclude h v (.trap c k l d a) = takeTrap v (faultAt v c k l d a) := rfl
@[simp] theorem conclude_raw (h : Hdr) (v w : View) : conclude h v (.raw w) = w := rfl
theorem conclude_after (h : Hdr) (v w : View) (c k : Nat) (a : W64) :
    conclude h v (.after w c k a) = trapAfter (endIfEmpty (retire h w 0)) (faultAt v c k 255 0 a) := rfl

/-- Without lanes to end the block and without an enabled flag, completing is retiring. -/
theorem settle_quiet {h : Hdr} {v : View} {fl : BitVec 6} (ha : v.g.active ≠ 0) (hf : trapFlag (fl &&& v.g.ftrap) = none) :
    settle h v fl = retire h v fl := by
  have h1 : endIfEmpty (retire h v fl) = retire h v fl := by
    have h2 : ((retire h v fl).g.active = 0 && (retire h v fl).g.run = .issuing) = false := by
      have : decide ((retire h v fl).g.active = 0) = false := decide_eq_false ha
      simp only [this, Bool.false_and]
    simp only [endIfEmpty, h2]
    rfl
  simp only [settle, h1, hf]

/-- A trap of a block that is not the handler context changes nothing but the fault record and the group's turn. -/
theorem takeTrap_block {v : View} (f : FaultRec) (h : isHandler v = false) :
    takeTrap v f = { v with b := markFault v.b f, g := { v.g with tried := true } } := by
  unfold takeTrap
  cases hk : v.b.kind
  · rfl
  · rfl
  · simp [isHandler, hk] at h

/-! ### Instructions and the checks -/

theorem issue_noIssuer {h : Hdr} {s : State} {ops : List Opd} {body : View → List Row → Res} (hc : currentView s = none) :
    issue h ops body s = .fault .noIssuer := by simp [issue, hc]

/-- An encoded instruction answers a next state whenever a group is current. -/
theorem issue_next {h : Hdr} {s : State} {v : View} {ops : List Opd} {body : View → List Row → Res} (hc : currentView s = some v) :
    ∃ w, issue h ops body s = .next (flush w) := by
  simp [issue, hc]

end Sys2Proof.Machine
end

