-- ==== Sys2Proof/Laws/Operands.lean ====
section
/-! SUPPORT. What reading and writing operands can do, once each. -/
namespace Sys2Proof.Machine
open Sys2Proof

/-! ### Reading -/

/-- Popping changes the queues of the group and the counter of free values, nothing else. -/
theorem popQueue_frame (v : View) (k : Nat) (q : Queue) (ex : Lanes) :
    ∃ fr qs, (popQueue v k q ex).1 = { v with st := { v.st with free := fr }, g := { v.g with q := qs } } := by
  unfold popQueue
  split
  · exact ⟨v.st.free, v.g.q, rfl⟩
  · dsimp only [freeLanes]
    split
    · exact ⟨v.st.free, _, rfl⟩
    · exact ⟨v.st.free + 64, _, rfl⟩

/-- Reading the operands changes the queues of the group and the counter of free values, nothing else. -/
theorem readRows_frame (ex : Lanes) (ops : List Opd) (v : View) :
    ∃ fr qs, (readRows ex ops v).1 = { v with st := { v.st with free := fr }, g := { v.g with q := qs } } := by
  induction ops generalizing v with
  | nil => exact ⟨_, _, rfl⟩
  | cons o rest ih =>
    have skip : (readRows ex (o :: rest) v).1 = (readRows ex rest v).1 →
        ∃ fr qs, (readRows ex (o :: rest) v).1 = { v with st := { v.st with free := fr }, g := { v.g with q := qs } } := by
      intro he
      rw [he]
      exact ih v
    cases o with
    | v r n src dst =>
      cases src
      · exact skip rfl
      · by_cases hn : n = 1
        · subst hn
          cases ha : armed v.g r with
          | none => exact skip (by simp only [readRows, ha, if_true])
          | some kq =>
            obtain ⟨k, q⟩ := kq
            have he : (readRows ex (.v r 1 true dst :: rest) v).1 = (readRows ex rest (popQueue v k q ex).1).1 := by
              simp only [readRows, ha, if_true]
            obtain ⟨fr, qs, h1⟩ := ih (popQueue v k q ex).1
            obtain ⟨fr', qs', h2⟩ := popQueue_frame v k q ex
            rw [he, h1, h2]
            exact ⟨fr, qs, rfl⟩
        · exact skip (by simp only [readRows, if_neg hn])
    | s r n src dst => exact skip rfl
    | p r => exact skip rfl
    | c r => exact skip rfl
    | h r => exact skip rfl
    | hd r => exact skip rfl
    | x r p big => exact skip rfl
    | m t d w a b => exact skip rfl

/-- The operands that reading leaves as they were: everything but the queues. -/
theorem readRows_g (ex : Lanes) (ops : List Opd) (v : View) :
    (readRows ex ops v).1.g = { v.g with q := (readRows ex ops v).1.g.q } := by
  obtain ⟨fr, qs, h⟩ := readRows_frame ex ops v
  rw [h]

@[simp] theorem readRows_b (ex : Lanes) (ops : List Opd) (v : View) : (readRows ex ops v).1.b = v.b := by
  obtain ⟨fr, qs, h⟩ := readRows_frame ex ops v
  rw [h]

@[simp] theorem readRows_uid (ex : Lanes) (ops : List Opd) (v : View) : (readRows ex ops v).1.uid = v.uid := by
  obtain ⟨fr, qs, h⟩ := readRows_frame ex ops v
  rw [h]

@[simp] theorem readRows_gid (ex : Lanes) (ops : List Opd) (v : View) : (readRows ex ops v).1.gid = v.gid := by
  obtain ⟨fr, qs, h⟩ := readRows_frame ex ops v
  rw [h]

/-- EXEC is the same before and after the operands are read. -/
@[simp] theorem execOf_readRows (h : Hdr) (ex : Lanes) (ops : List Opd) (v : View) : execOf h (readRows ex ops v).1.g = execOf h v.g := by
  rw [readRows_g]
  rfl

@[simp] theorem readS_readRows (ex : Lanes) (ops : List Opd) (v : View) (r : SReg) : readS (readRows ex ops v).1.g r = readS v.g r := by
  rw [readRows_g]
  rfl

@[simp] theorem readP_readRows (ex : Lanes) (ops : List Opd) (v : View) (r : PReg) : readP (readRows ex ops v).1.g r = readP v.g r := by
  rw [readRows_g]
  rfl

@[simp] theorem readC_readRows (ex : Lanes) (ops : List Opd) (v : View) (r : CReg) : readC (readRows ex ops v).1.g r = readC v.g r := by
  rw [readRows_g]
  rfl

@[simp] theorem vimmVal_readRows (ex : Lanes) (ops : List Opd) (v : View) (b : VImm) :
    vimmVal (readRows ex ops v).1.g b = vimmVal v.g b := by
  cases b with
  | imm i => rfl
  | s x => exact readS_readRows ..

/-! ### Flags -/

theorem foldl_or_zero (L : List Nat) (f : Nat → Flg) (a : Flg) (hf : ∀ l ∈ L, f l = 0) : L.foldl (fun a l => a ||| f l) a = a := by
  induction L generalizing a with
  | nil => rfl
  | cons x t ih =>
    rw [List.foldl_cons, hf x (List.mem_cons_self ..), show a ||| 0 = a from BitVec.or_zero]
    exact ih a (fun l hl => hf l (List.mem_cons_of_mem _ hl))

/-- No lane raises a flag, so none is raised. -/
theorem orFlags_zero (m : Lanes) (f : Nat → Flg) (hf : ∀ l ∈ laneList m, f l = 0) : orFlags m f = 0 := foldl_or_zero _ _ _ hf

theorem foldl_or_bit (L : List Nat) (f : Nat → Flg) (a : Flg) (n : Nat) :
    (L.foldl (fun a l => a ||| f l) a).getLsbD n = (a.getLsbD n || L.any (fun l => (f l).getLsbD n)) := by
  induction L generalizing a with
  | nil => simp
  | cons x t ih => simp [ih, Bool.or_assoc]

/-- A flag is raised when some lane of the mask raises it (R35). -/
theorem orFlags_bit (m : Lanes) (f : Nat → Flg) (n : Nat) : (orFlags m f).getLsbD n = (laneList m).any (fun l => (f l).getLsbD n) := by
  simp [orFlags, foldl_or_bit]

/-! ### Writing -/

/-- Writing a register that is no armed queue name. -/
theorem writeRow_reg (v : View) (r : Nat) (m : Lanes) (row : Row) (h : armed v.g r = none) :
    writeRow v r m row = { v with g := writeVreg v.g r m row } := by
  simp only [writeRow, h]

theorem writeRow_queue (v : View) (r k : Nat) (q : Queue) (m : Lanes) (row : Row) (h : armed v.g r = some (k, q)) :
    writeRow v r m row = pushQueue v k q m row := by
  simp only [writeRow, h]

/-- Arming is a matter of the queues alone. -/
theorem armed_of_q {g k : Group} (h : g.q = k.q) (r : Nat) : armed g r = armed k r := by
  simp [armed, h]

end Sys2Proof.Machine
end

