-- ==== Sys2Proof/Laws/Families.lean ====
section
/-! SUPPORT. What the shared shapes of instructions do once past the checks of R54: scalar, vector and predicate instructions. -/
namespace Sys2Proof.Machine
open Sys2Proof

theorem scalar2_ready {h : Hdr} {t : Ty} {d a b : SReg} {f : Ty → W64 → W64 → W64} {s : State} {v : View}
    (hi : Issues h s v) (ho : OperandsReady [ssrc a, ssrc b, sdst d] v) :
    scalar2 h t d a b f s = completed h { v with g := writeS v.g d (f t (readS v.g a) (readS v.g b)) } 0 := by
  unfold scalar2
  rw [issue_scalar hi ho rfl]
  rfl

theorem scalar1_ready {h : Hdr} {d a : SReg} {f : W64 → W64} {s : State} {v : View}
    (hi : Issues h s v) (ho : OperandsReady [ssrc a, sdst d] v) :
    scalar1 h d a f s = completed h { v with g := writeS v.g d (f (readS v.g a)) } 0 := by
  unfold scalar1
  rw [issue_scalar hi ho rfl]
  rfl

theorem vector2_ready {h : Hdr} {t : Ty} {d a b : VReg} {f : W64 → W64 → W64} {fl : W64 → W64 → Flg} {s : State} {v : View}
    (hi : Issues h s v) (ho : OperandsReady [vsrc t a, vsrc t b, vdst t d] v) :
    vector2 h t d a b f fl s =
      completed h
        (writeElems (readRows (execOf h v.g) [vsrc t a, vsrc t b, vdst t d] v).1 t d (execOf h v.g)
          (fun l => f (elem t (readRows (execOf h v.g) [vsrc t a, vsrc t b, vdst t d] v).2 0 l)
            (elem t (readRows (execOf h v.g) [vsrc t a, vsrc t b, vdst t d] v).2 1 l)))
        (orFlags (execOf h v.g)
          (fun l => fl (elem t (readRows (execOf h v.g) [vsrc t a, vsrc t b, vdst t d] v).2 0 l)
            (elem t (readRows (execOf h v.g) [vsrc t a, vsrc t b, vdst t d] v).2 1 l))) := by
  unfold vector2
  rw [issue_ready hi ho]
  simp only [passOn_done, conclude_done, execOf_readRows]
  rfl

theorem vector1_ready {h : Hdr} {t : Ty} {d a : VReg} {f : W64 → W64} {s : State} {v : View}
    (hi : Issues h s v) (ho : OperandsReady [vsrc t a, vdst t d] v) :
    vector1 h t d a f s =
      completed h
        (writeElems (readRows (execOf h v.g) [vsrc t a, vdst t d] v).1 t d (execOf h v.g)
          (fun l => f (elem t (readRows (execOf h v.g) [vsrc t a, vdst t d] v).2 0 l))) 0 := by
  unfold vector1
  rw [issue_ready hi ho]
  simp only [passOn_done, conclude_done, execOf_readRows]
  rfl

theorem vectorX_ready {h : Hdr} {t : Ty} {d a : VReg} {b : VImm} {f : W64 → W64 → W64} {fl : W64 → W64 → Flg} {s : State} {v : View}
    (hi : Issues h s v) (ho : OperandsReady ([vsrc t a] ++ vimmOps b ++ [vdst t d]) v) :
    vectorX h t d a b f fl s =
      completed h
        (writeElems (readRows (execOf h v.g) ([vsrc t a] ++ vimmOps b ++ [vdst t d]) v).1 t d (execOf h v.g)
          (fun l => f (elem t (readRows (execOf h v.g) ([vsrc t a] ++ vimmOps b ++ [vdst t d]) v).2 0 l) (vimmVal v.g b)))
        (orFlags (execOf h v.g)
          (fun l => fl (elem t (readRows (execOf h v.g) ([vsrc t a] ++ vimmOps b ++ [vdst t d]) v).2 0 l) (vimmVal v.g b))) := by
  unfold vectorX
  rw [issue_ready hi ho]
  simp only [passOn_done, conclude_done, execOf_readRows, vimmVal_readRows]
  rfl

theorem pred2_ready {h : Hdr} {d a b : PReg} {f : Lanes → Lanes → Lanes} {s : State} {v : View}
    (hi : Issues h s v) (ho : OperandsReady [.p a, .p b] v) :
    pred2 h d a b f s = completed h { v with g := writeP v.g d (execOf h v.g) (f (readP v.g a) (readP v.g b)) } 0 := by
  unfold pred2
  rw [issue_scalar hi ho rfl]
  rfl

theorem pred1_ready {h : Hdr} {d a : PReg} {f : Lanes → Lanes} {s : State} {v : View} (hi : Issues h s v) (ho : OperandsReady [.p a] v) :
    pred1 h d a f s = completed h { v with g := writeP v.g d (execOf h v.g) (f (readP v.g a)) } 0 := by
  unfold pred1
  rw [issue_scalar hi ho rfl]
  rfl

end Sys2Proof.Machine
end

