-- ==== Sys2Proof/Laws/IssueForm.lean ====
section
/-! SUPPORT. Every encoded instruction but ERET is one attempt under its header: one lemma per instruction, and the case split over them. -/
namespace Sys2Proof.Machine
open Sys2Proof

/-- The instruction is one attempt of the current group under header `h`: the checks of R54, then its own body. -/
def IssueForm (i : Instr) (h : Hdr) : Prop :=
  ∃ (priv : Bool) (ops : List Opd) (body : View → List Row → Res), ∀ s, exec i s = if priv then issueP h ops body s else issue h ops body s

theorem issueForm_nop {h : Hdr} : IssueForm (.nop h) h := ⟨false, _, _, fun _ => rfl⟩
theorem issueForm_want {h : Hdr} {l} : IssueForm (.want h l) h := ⟨false, _, _, fun _ => rfl⟩
theorem issueForm_wantVector {h : Hdr} {a} : IssueForm (.wantVector h a) h := ⟨false, _, _, fun _ => rfl⟩
theorem issueForm_wants {h : Hdr} {neg} {a} {l} : IssueForm (.wants h neg a l) h := ⟨false, _, _, fun _ => rfl⟩
theorem issueForm_wanth {h : Hdr} {n} {l} : IssueForm (.wanth h n l) h := ⟨false, _, _, fun _ => rfl⟩
theorem issueForm_exit {h : Hdr} : IssueForm (.exit h) h := ⟨false, _, _, fun _ => rfl⟩
theorem issueForm_call {h : Hdr} {f} : IssueForm (.call h f) h := ⟨false, _, _, fun _ => rfl⟩
theorem issueForm_ret {h : Hdr} : IssueForm (.ret h) h := ⟨false, _, _, fun _ => rfl⟩
theorem issueForm_yield {h : Hdr} : IssueForm (.yield h) h := ⟨false, _, _, fun _ => rfl⟩
theorem issueForm_spawn {h : Hdr} {d} {f} {e} {a} {c} {n} {m} : IssueForm (.spawn h d f e a c n m) h := ⟨false, _, _, fun _ => rfl⟩
theorem issueForm_launch {h : Hdr} {d} {c} {o} : IssueForm (.launch h d c o) h := ⟨false, _, _, fun _ => rfl⟩
theorem issueForm_trap {h : Hdr} {code} : IssueForm (.trap h code) h := ⟨false, _, _, fun _ => rfl⟩
theorem issueForm_brk {h : Hdr} {code} : IssueForm (.brk h code) h := ⟨false, _, _, fun _ => rfl⟩
theorem issueForm_hwait {h : Hdr} {d} {n} : IssueForm (.hwait h d n) h := ⟨false, _, _, fun _ => rfl⟩
theorem issueForm_htest {h : Hdr} {d} {n} : IssueForm (.htest h d n) h := ⟨false, _, _, fun _ => rfl⟩
theorem issueForm_hcancel {h : Hdr} {n} : IssueForm (.hcancel h n) h := ⟨false, _, _, fun _ => rfl⟩
theorem issueForm_waitcnt {h : Hdr} {sel} {n} : IssueForm (.waitcnt h sel n) h := ⟨false, _, _, fun _ => rfl⟩
theorem issueForm_barinit {h : Hdr} {b} {n} : IssueForm (.barinit h b n) h := ⟨false, _, _, fun _ => rfl⟩
theorem issueForm_bararr {h : Hdr} {d} {b} {n} : IssueForm (.bararr h d b n) h := ⟨false, _, _, fun _ => rfl⟩
theorem issueForm_barwt {h : Hdr} {t} : IssueForm (.barwt h t) h := ⟨false, _, _, fun _ => rfl⟩
theorem issueForm_bartry {h : Hdr} {d} {t} : IssueForm (.bartry h d t) h := ⟨false, _, _, fun _ => rfl⟩
theorem issueForm_phase {h : Hdr} {d} : IssueForm (.phase h d) h := ⟨false, _, _, fun _ => rfl⟩
theorem issueForm_sadd {h : Hdr} {t} {d} {a} {b} : IssueForm (.sadd h t d a b) h := ⟨false, _, _, fun _ => rfl⟩
theorem issueForm_ssub {h : Hdr} {t} {d} {a} {b} : IssueForm (.ssub h t d a b) h := ⟨false, _, _, fun _ => rfl⟩
theorem issueForm_smul {h : Hdr} {t} {d} {a} {b} : IssueForm (.smul h t d a b) h := ⟨false, _, _, fun _ => rfl⟩
theorem issueForm_smulh {h : Hdr} {t} {d} {a} {b} : IssueForm (.smulh h t d a b) h := ⟨false, _, _, fun _ => rfl⟩
theorem issueForm_sand {h : Hdr} {t} {d} {a} {b} : IssueForm (.sand h t d a b) h := ⟨false, _, _, fun _ => rfl⟩
theorem issueForm_sor {h : Hdr} {t} {d} {a} {b} : IssueForm (.sor h t d a b) h := ⟨false, _, _, fun _ => rfl⟩
theorem issueForm_sxor {h : Hdr} {t} {d} {a} {b} : IssueForm (.sxor h t d a b) h := ⟨false, _, _, fun _ => rfl⟩
theorem issueForm_sshl {h : Hdr} {t} {d} {a} {b} : IssueForm (.sshl h t d a b) h := ⟨false, _, _, fun _ => rfl⟩
theorem issueForm_sshr {h : Hdr} {t} {d} {a} {b} : IssueForm (.sshr h t d a b) h := ⟨false, _, _, fun _ => rfl⟩
theorem issueForm_ssra {h : Hdr} {t} {d} {a} {b} : IssueForm (.ssra h t d a b) h := ⟨false, _, _, fun _ => rfl⟩
theorem issueForm_smin {h : Hdr} {t} {d} {a} {b} : IssueForm (.smin h t d a b) h := ⟨false, _, _, fun _ => rfl⟩
theorem issueForm_smax {h : Hdr} {t} {d} {a} {b} : IssueForm (.smax h t d a b) h := ⟨false, _, _, fun _ => rfl⟩
theorem issueForm_ssel {h : Hdr} {t} {d} {a} {b} {c} : IssueForm (.ssel h t d a b c) h := ⟨false, _, _, fun _ => rfl⟩
theorem issueForm_scmp {h : Hdr} {t} {d} {a} {b} {cond} : IssueForm (.scmp h t d a b cond) h := ⟨false, _, _, fun _ => rfl⟩
theorem issueForm_saddi {h : Hdr} {t} {d} {a} {i} : IssueForm (.saddi h t d a i) h := ⟨false, _, _, fun _ => rfl⟩
theorem issueForm_sandi {h : Hdr} {t} {d} {a} {i} : IssueForm (.sandi h t d a i) h := ⟨false, _, _, fun _ => rfl⟩
theorem issueForm_sori {h : Hdr} {t} {d} {a} {i} : IssueForm (.sori h t d a i) h := ⟨false, _, _, fun _ => rfl⟩
theorem issueForm_sxori {h : Hdr} {t} {d} {a} {i} : IssueForm (.sxori h t d a i) h := ⟨false, _, _, fun _ => rfl⟩
theorem issueForm_sshli {h : Hdr} {t} {d} {a} {n} : IssueForm (.sshli h t d a n) h := ⟨false, _, _, fun _ => rfl⟩
theorem issueForm_sshri {h : Hdr} {t} {d} {a} {n} {arith} : IssueForm (.sshri h t d a n arith) h := ⟨false, _, _, fun _ => rfl⟩
theorem issueForm_scmpi {h : Hdr} {t} {d} {a} {cond} {i} : IssueForm (.scmpi h t d a cond i) h := ⟨false, _, _, fun _ => rfl⟩
theorem issueForm_smov {h : Hdr} {d} {a} : IssueForm (.smov h d a) h := ⟨false, _, _, fun _ => rfl⟩
theorem issueForm_sldk {h : Hdr} {d} {k} : IssueForm (.sldk h d k) h := ⟨false, _, _, fun _ => rfl⟩
theorem issueForm_vadd {h : Hdr} {t} {d} {a} {b} : IssueForm (.vadd h t d a b) h := ⟨false, _, _, fun _ => rfl⟩
theorem issueForm_vsub {h : Hdr} {t} {d} {a} {b} : IssueForm (.vsub h t d a b) h := ⟨false, _, _, fun _ => rfl⟩
theorem issueForm_vmul {h : Hdr} {t} {d} {a} {b} : IssueForm (.vmul h t d a b) h := ⟨false, _, _, fun _ => rfl⟩
theorem issueForm_vmulh {h : Hdr} {t} {d} {a} {b} : IssueForm (.vmulh h t d a b) h := ⟨false, _, _, fun _ => rfl⟩
theorem issueForm_vmad {h : Hdr} {t} {d} {a} {b} {c} : IssueForm (.vmad h t d a b c) h := ⟨false, _, _, fun _ => rfl⟩
theorem issueForm_vand {h : Hdr} {t} {d} {a} {b} : IssueForm (.vand h t d a b) h := ⟨false, _, _, fun _ => rfl⟩
theorem issueForm_vor {h : Hdr} {t} {d} {a} {b} : IssueForm (.vor h t d a b) h := ⟨false, _, _, fun _ => rfl⟩
theorem issueForm_vxor {h : Hdr} {t} {d} {a} {b} : IssueForm (.vxor h t d a b) h := ⟨false, _, _, fun _ => rfl⟩
theorem issueForm_vnot {h : Hdr} {t} {d} {a} : IssueForm (.vnot h t d a) h := ⟨false, _, _, fun _ => rfl⟩
theorem issueForm_vshl {h : Hdr} {t} {d} {a} {b} : IssueForm (.vshl h t d a b) h := ⟨false, _, _, fun _ => rfl⟩
theorem issueForm_vshr {h : Hdr} {t} {d} {a} {b} : IssueForm (.vshr h t d a b) h := ⟨false, _, _, fun _ => rfl⟩
theorem issueForm_vsra {h : Hdr} {t} {d} {a} {b} : IssueForm (.vsra h t d a b) h := ⟨false, _, _, fun _ => rfl⟩
theorem issueForm_vmin {h : Hdr} {t} {d} {a} {b} : IssueForm (.vmin h t d a b) h := ⟨false, _, _, fun _ => rfl⟩
theorem issueForm_vmax {h : Hdr} {t} {d} {a} {b} : IssueForm (.vmax h t d a b) h := ⟨false, _, _, fun _ => rfl⟩
theorem issueForm_vabs {h : Hdr} {t} {d} {a} : IssueForm (.vabs h t d a) h := ⟨false, _, _, fun _ => rfl⟩
theorem issueForm_vclz {h : Hdr} {t} {d} {a} : IssueForm (.vclz h t d a) h := ⟨false, _, _, fun _ => rfl⟩
theorem issueForm_vpopc {h : Hdr} {t} {d} {a} : IssueForm (.vpopc h t d a) h := ⟨false, _, _, fun _ => rfl⟩
theorem issueForm_vadds {h : Hdr} {t} {d} {a} {b} : IssueForm (.vadds h t d a b) h := ⟨false, _, _, fun _ => rfl⟩
theorem issueForm_vsubs {h : Hdr} {t} {d} {a} {b} : IssueForm (.vsubs h t d a b) h := ⟨false, _, _, fun _ => rfl⟩
theorem issueForm_vaddX {h : Hdr} {t} {d} {a} {b} : IssueForm (.vaddX h t d a b) h := ⟨false, _, _, fun _ => rfl⟩
theorem issueForm_vsubX {h : Hdr} {t} {d} {a} {b} : IssueForm (.vsubX h t d a b) h := ⟨false, _, _, fun _ => rfl⟩
theorem issueForm_vmulX {h : Hdr} {t} {d} {a} {b} : IssueForm (.vmulX h t d a b) h := ⟨false, _, _, fun _ => rfl⟩
theorem issueForm_vmulhX {h : Hdr} {t} {d} {a} {b} : IssueForm (.vmulhX h t d a b) h := ⟨false, _, _, fun _ => rfl⟩
theorem issueForm_vandX {h : Hdr} {t} {d} {a} {b} : IssueForm (.vandX h t d a b) h := ⟨false, _, _, fun _ => rfl⟩
theorem issueForm_vorX {h : Hdr} {t} {d} {a} {b} : IssueForm (.vorX h t d a b) h := ⟨false, _, _, fun _ => rfl⟩
theorem issueForm_vxorX {h : Hdr} {t} {d} {a} {b} : IssueForm (.vxorX h t d a b) h := ⟨false, _, _, fun _ => rfl⟩
theorem issueForm_vshlX {h : Hdr} {t} {d} {a} {b} : IssueForm (.vshlX h t d a b) h := ⟨false, _, _, fun _ => rfl⟩
theorem issueForm_vshrX {h : Hdr} {t} {d} {a} {b} : IssueForm (.vshrX h t d a b) h := ⟨false, _, _, fun _ => rfl⟩
theorem issueForm_vsraX {h : Hdr} {t} {d} {a} {b} : IssueForm (.vsraX h t d a b) h := ⟨false, _, _, fun _ => rfl⟩
theorem issueForm_vminX {h : Hdr} {t} {d} {a} {b} : IssueForm (.vminX h t d a b) h := ⟨false, _, _, fun _ => rfl⟩
theorem issueForm_vmaxX {h : Hdr} {t} {d} {a} {b} : IssueForm (.vmaxX h t d a b) h := ⟨false, _, _, fun _ => rfl⟩
theorem issueForm_vaddsX {h : Hdr} {t} {d} {a} {b} : IssueForm (.vaddsX h t d a b) h := ⟨false, _, _, fun _ => rfl⟩
theorem issueForm_vsubsX {h : Hdr} {t} {d} {a} {b} : IssueForm (.vsubsX h t d a b) h := ⟨false, _, _, fun _ => rfl⟩
theorem issueForm_vcmp {h : Hdr} {t} {d} {a} {b} {cond} : IssueForm (.vcmp h t d a b cond) h := ⟨false, _, _, fun _ => rfl⟩
theorem issueForm_vsel {h : Hdr} {t} {d} {a} {b} {c} : IssueForm (.vsel h t d a b c) h := ⟨false, _, _, fun _ => rfl⟩
theorem issueForm_pand {h : Hdr} {d} {a} {b} : IssueForm (.pand h d a b) h := ⟨false, _, _, fun _ => rfl⟩
theorem issueForm_por {h : Hdr} {d} {a} {b} : IssueForm (.por h d a b) h := ⟨false, _, _, fun _ => rfl⟩
theorem issueForm_pxor {h : Hdr} {d} {a} {b} : IssueForm (.pxor h d a b) h := ⟨false, _, _, fun _ => rfl⟩
theorem issueForm_pnot {h : Hdr} {d} {a} : IssueForm (.pnot h d a) h := ⟨false, _, _, fun _ => rfl⟩
theorem issueForm_pmov {h : Hdr} {d} {a} : IssueForm (.pmov h d a) h := ⟨false, _, _, fun _ => rfl⟩
theorem issueForm_pset {h : Hdr} {d} {a} : IssueForm (.pset h d a) h := ⟨false, _, _, fun _ => rfl⟩
theorem issueForm_pcnt {h : Hdr} {d} {a} : IssueForm (.pcnt h d a) h := ⟨false, _, _, fun _ => rfl⟩
theorem issueForm_shfl {h : Hdr} {t} {d} {a} {m} : IssueForm (.shfl h t d a m) h := ⟨false, _, _, fun _ => rfl⟩
theorem issueForm_rdfl {h : Hdr} {t} {d} {a} : IssueForm (.rdfl h t d a) h := ⟨false, _, _, fun _ => rfl⟩
theorem issueForm_vote {h : Hdr} {d} {a} {m} : IssueForm (.vote h d a m) h := ⟨false, _, _, fun _ => rfl⟩
theorem issueForm_reduce {h : Hdr} {t} {d} {a} {op} : IssueForm (.reduce h t d a op) h := ⟨false, _, _, fun _ => rfl⟩
theorem issueForm_scan {h : Hdr} {t} {d} {a} {op} {excl} : IssueForm (.scan h t d a op excl) h := ⟨false, _, _, fun _ => rfl⟩
theorem issueForm_sample {h : Hdr} {d} {a} {b} : IssueForm (.sample h d a b) h := ⟨false, _, _, fun _ => rfl⟩
theorem issueForm_fadd {h : Hdr} {t} {r} {d} {a} {b} : IssueForm (.fadd h t r d a b) h := ⟨false, _, _, fun _ => rfl⟩
theorem issueForm_fsub {h : Hdr} {t} {r} {d} {a} {b} : IssueForm (.fsub h t r d a b) h := ⟨false, _, _, fun _ => rfl⟩
theorem issueForm_fmul {h : Hdr} {t} {r} {d} {a} {b} : IssueForm (.fmul h t r d a b) h := ⟨false, _, _, fun _ => rfl⟩
theorem issueForm_ffma {h : Hdr} {t} {r} {d} {a} {b} {c} : IssueForm (.ffma h t r d a b c) h := ⟨false, _, _, fun _ => rfl⟩
theorem issueForm_fmin {h : Hdr} {t} {d} {a} {b} : IssueForm (.fmin h t d a b) h := ⟨false, _, _, fun _ => rfl⟩
theorem issueForm_fmax {h : Hdr} {t} {d} {a} {b} : IssueForm (.fmax h t d a b) h := ⟨false, _, _, fun _ => rfl⟩
theorem issueForm_fabs {h : Hdr} {t} {d} {a} : IssueForm (.fabs h t d a) h := ⟨false, _, _, fun _ => rfl⟩
theorem issueForm_fneg {h : Hdr} {t} {d} {a} : IssueForm (.fneg h t d a) h := ⟨false, _, _, fun _ => rfl⟩
theorem issueForm_fcmp {h : Hdr} {t} {d} {a} {b} {cond} {slot} : IssueForm (.fcmp h t d a b cond slot) h := ⟨false, _, _, fun _ => rfl⟩
theorem issueForm_fclass {h : Hdr} {t} {d} {a} : IssueForm (.fclass h t d a) h := ⟨false, _, _, fun _ => rfl⟩
theorem issueForm_frcp {h : Hdr} {t} {d} {a} : IssueForm (.frcp h t d a) h := ⟨false, _, _, fun _ => rfl⟩
theorem issueForm_frsq {h : Hdr} {t} {d} {a} : IssueForm (.frsq h t d a) h := ⟨false, _, _, fun _ => rfl⟩
theorem issueForm_fsqrt {h : Hdr} {t} {r} {d} {a} : IssueForm (.fsqrt h t r d a) h := ⟨false, _, _, fun _ => rfl⟩
theorem issueForm_fexp2 {h : Hdr} {t} {d} {a} : IssueForm (.fexp2 h t d a) h := ⟨false, _, _, fun _ => rfl⟩
theorem issueForm_flog2 {h : Hdr} {t} {d} {a} : IssueForm (.flog2 h t d a) h := ⟨false, _, _, fun _ => rfl⟩
theorem issueForm_fsin {h : Hdr} {t} {d} {a} : IssueForm (.fsin h t d a) h := ⟨false, _, _, fun _ => rfl⟩
theorem issueForm_fcos {h : Hdr} {t} {d} {a} : IssueForm (.fcos h t d a) h := ⟨false, _, _, fun _ => rfl⟩
theorem issueForm_ftanh {h : Hdr} {t} {d} {a} : IssueForm (.ftanh h t d a) h := ⟨false, _, _, fun _ => rfl⟩
theorem issueForm_fstat {h : Hdr} {d} {mask} : IssueForm (.fstat h d mask) h := ⟨false, _, _, fun _ => rfl⟩
theorem issueForm_fmode {h : Hdr} {d} {mode} : IssueForm (.fmode h d mode) h := ⟨false, _, _, fun _ => rfl⟩
theorem issueForm_cvt {h : Hdr} {src} {dst} {r} {d} {a} {ss} {ds} : IssueForm (.cvt h src dst r d a ss ds) h := ⟨false, _, _, fun _ => rfl⟩
theorem issueForm_cvtsr {h : Hdr} {src} {dst} {d} {a} {ss} {ds} : IssueForm (.cvtsr h src dst d a ss ds) h := ⟨false, _, _, fun _ => rfl⟩
theorem issueForm_qscale {h : Hdr} {t} {d} {a} {bs} {ct} : IssueForm (.qscale h t d a bs ct) h := ⟨false, _, _, fun _ => rfl⟩
theorem issueForm_qpack {h : Hdr} {t} {r} {d} {a} {b} {bs} : IssueForm (.qpack h t r d a b bs) h := ⟨false, _, _, fun _ => rfl⟩
theorem issueForm_qunpk {h : Hdr} {t} {d} {a} {b} {bs} : IssueForm (.qunpk h t d a b bs) h := ⟨false, _, _, fun _ => rfl⟩
theorem issueForm_plane {h : Hdr} {t} {d} {a} : IssueForm (.plane h t d a) h := ⟨false, _, _, fun _ => rfl⟩
theorem issueForm_lds {h : Hdr} {w} {d} {c} {x} {disp} : IssueForm (.lds h w d c x disp) h := ⟨false, _, _, fun _ => rfl⟩
theorem issueForm_sts {h : Hdr} {w} {d} {c} {x} {disp} : IssueForm (.sts h w d c x disp) h := ⟨false, _, _, fun _ => rfl⟩
theorem issueForm_atomsAdd {h : Hdr} {sc} {d} {c} {x} {disp} : IssueForm (.atomsAdd h sc d c x disp) h := ⟨false, _, _, fun _ => rfl⟩
theorem issueForm_atomsAnd {h : Hdr} {sc} {d} {c} {x} {disp} : IssueForm (.atomsAnd h sc d c x disp) h := ⟨false, _, _, fun _ => rfl⟩
theorem issueForm_atomsOr {h : Hdr} {sc} {d} {c} {x} {disp} : IssueForm (.atomsOr h sc d c x disp) h := ⟨false, _, _, fun _ => rfl⟩
theorem issueForm_atomsXor {h : Hdr} {sc} {d} {c} {x} {disp} : IssueForm (.atomsXor h sc d c x disp) h := ⟨false, _, _, fun _ => rfl⟩
theorem issueForm_atomsMin {h : Hdr} {sc} {d} {c} {x} {disp} : IssueForm (.atomsMin h sc d c x disp) h := ⟨false, _, _, fun _ => rfl⟩
theorem issueForm_atomsMax {h : Hdr} {sc} {d} {c} {x} {disp} : IssueForm (.atomsMax h sc d c x disp) h := ⟨false, _, _, fun _ => rfl⟩
theorem issueForm_atomsExch {h : Hdr} {sc} {d} {c} {x} {disp} : IssueForm (.atomsExch h sc d c x disp) h := ⟨false, _, _, fun _ => rfl⟩
theorem issueForm_atomsCas {h : Hdr} {sc} {d} {c} {x} {disp} : IssueForm (.atomsCas h sc d c x disp) h := ⟨false, _, _, fun _ => rfl⟩
theorem issueForm_atomsFadd {h : Hdr} {sc} {d} {c} {x} {disp} : IssueForm (.atomsFadd h sc d c x disp) h := ⟨false, _, _, fun _ => rfl⟩
theorem issueForm_tagset {h : Hdr} {d} {x} : IssueForm (.tagset h d x) h := ⟨false, _, _, fun _ => rfl⟩
theorem issueForm_taginv {h : Hdr} {d} : IssueForm (.taginv h d) h := ⟨false, _, _, fun _ => rfl⟩
theorem issueForm_capld {h : Hdr} {d} {c} {x} {disp} : IssueForm (.capld h d c x disp) h := ⟨false, _, _, fun _ => rfl⟩
theorem issueForm_capst {h : Hdr} {d} {c} {x} {disp} : IssueForm (.capst h d c x disp) h := ⟨false, _, _, fun _ => rfl⟩
theorem issueForm_capsub {h : Hdr} {d} {c} {x} : IssueForm (.capsub h d c x) h := ⟨false, _, _, fun _ => rfl⟩
theorem issueForm_capperm {h : Hdr} {d} {c} {m} : IssueForm (.capperm h d c m) h := ⟨false, _, _, fun _ => rfl⟩
theorem issueForm_capget {h : Hdr} {d} {c} {f} : IssueForm (.capget h d c f) h := ⟨false, _, _, fun _ => rfl⟩
theorem issueForm_capoff {h : Hdr} {d} {c} {x} : IssueForm (.capoff h d c x) h := ⟨false, _, _, fun _ => rfl⟩
theorem issueForm_copy {h : Hdr} {t} {d} {g} {x4} {a} {b} {c} {out} {plane} : IssueForm (.copy h t d g x4 a b c out plane) h := ⟨false, _, _, fun _ => rfl⟩
theorem issueForm_gather {h : Hdr} {t} {d} {g} {x4} {a} {b} {c} {i} : IssueForm (.gather h t d g x4 a b c i) h := ⟨false, _, _, fun _ => rfl⟩
theorem issueForm_scatter {h : Hdr} {t} {d} {g} {x4} {a} {b} {c} {i} : IssueForm (.scatter h t d g x4 a b c i) h := ⟨false, _, _, fun _ => rfl⟩
theorem issueForm_qld {h : Hdr} {t} {k} {c} {o} {x5} {n} : IssueForm (.qld h t k c o x5 n) h := ⟨false, _, _, fun _ => rfl⟩
theorem issueForm_qst {h : Hdr} {t} {k} {c} {o} {x5} {n} : IssueForm (.qst h t k c o x5 n) h := ⟨false, _, _, fun _ => rfl⟩
theorem issueForm_qclose {h : Hdr} {k} : IssueForm (.qclose h k) h := ⟨false, _, _, fun _ => rfl⟩
theorem issueForm_qres {h : Hdr} {d} {k} : IssueForm (.qres h d k) h := ⟨false, _, _, fun _ => rfl⟩
theorem issueForm_atomgAdd {h : Hdr} {sc} {d} {b} {c} {o} {big} {sg} {acq} : IssueForm (.atomgAdd h sc d b c o big sg acq) h := ⟨false, _, _, fun _ => rfl⟩
theorem issueForm_atomgAnd {h : Hdr} {sc} {d} {b} {c} {o} {big} {sg} {acq} : IssueForm (.atomgAnd h sc d b c o big sg acq) h := ⟨false, _, _, fun _ => rfl⟩
theorem issueForm_atomgOr {h : Hdr} {sc} {d} {b} {c} {o} {big} {sg} {acq} : IssueForm (.atomgOr h sc d b c o big sg acq) h := ⟨false, _, _, fun _ => rfl⟩
theorem issueForm_atomgXor {h : Hdr} {sc} {d} {b} {c} {o} {big} {sg} {acq} : IssueForm (.atomgXor h sc d b c o big sg acq) h := ⟨false, _, _, fun _ => rfl⟩
theorem issueForm_atomgMin {h : Hdr} {sc} {d} {b} {c} {o} {big} {sg} {acq} : IssueForm (.atomgMin h sc d b c o big sg acq) h := ⟨false, _, _, fun _ => rfl⟩
theorem issueForm_atomgMax {h : Hdr} {sc} {d} {b} {c} {o} {big} {sg} {acq} : IssueForm (.atomgMax h sc d b c o big sg acq) h := ⟨false, _, _, fun _ => rfl⟩
theorem issueForm_atomgExch {h : Hdr} {sc} {d} {b} {c} {o} {big} {sg} {acq} : IssueForm (.atomgExch h sc d b c o big sg acq) h := ⟨false, _, _, fun _ => rfl⟩
theorem issueForm_atomgCas {h : Hdr} {sc} {d} {b} {c} {o} {sw} {big} {sg} {acq} : IssueForm (.atomgCas h sc d b c o sw big sg acq) h := ⟨false, _, _, fun _ => rfl⟩
theorem issueForm_atomgFadd {h : Hdr} {sc} {d} {b} {c} {o} {acq} : IssueForm (.atomgFadd h sc d b c o acq) h := ⟨false, _, _, fun _ => rfl⟩
theorem issueForm_fence {h : Hdr} {sc} {m} : IssueForm (.fence h sc m) h := ⟨false, _, _, fun _ => rfl⟩
theorem issueForm_commit {h : Hdr} {sc} : IssueForm (.commit h sc) h := ⟨false, _, _, fun _ => rfl⟩
theorem issueForm_enq {h : Hdr} {d} {a} {b} {n} : IssueForm (.enq h d a b n) h := ⟨false, _, _, fun _ => rfl⟩
theorem issueForm_deq {h : Hdr} {a} {b} : IssueForm (.deq h a b) h := ⟨false, _, _, fun _ => rfl⟩
theorem issueForm_mma {h : Hdr} {t} {d} {v} {c} {x5} {w} {o} {bsa} {bsb} : IssueForm (.mma h t d v c x5 w o bsa bsb) h := ⟨false, _, _, fun _ => rfl⟩
theorem issueForm_mtbl {h : Hdr} {a} {q} : IssueForm (.mtbl h a q) h := ⟨false, _, _, fun _ => rfl⟩
theorem issueForm_mtblsw {h : Hdr} : IssueForm (.mtblsw h) h := ⟨false, _, _, fun _ => rfl⟩
theorem issueForm_fetchn {h : Hdr} {d} {c} {n} {o} {l} : IssueForm (.fetchn h d c n o l) h := ⟨false, _, _, fun _ => rfl⟩
theorem issueForm_pubn {h : Hdr} {d} {c} {n} {o} {l} : IssueForm (.pubn h d c n o l) h := ⟨false, _, _, fun _ => rfl⟩
theorem issueForm_sealn {h : Hdr} {d} {c} {n} {o} {l} : IssueForm (.sealn h d c n o l) h := ⟨false, _, _, fun _ => rfl⟩
theorem issueForm_stopref {h : Hdr} {d} {n} : IssueForm (.stopref h d n) h := ⟨false, _, _, fun _ => rfl⟩
theorem issueForm_subn {h : Hdr} {d} {n} {st} {m} : IssueForm (.subn h d n st m) h := ⟨false, _, _, fun _ => rfl⟩
theorem issueForm_put {h : Hdr} {t} {d} {c} {o} {w} {tg} : IssueForm (.put h t d c o w tg) h := ⟨false, _, _, fun _ => rfl⟩
theorem issueForm_wctr {h : Hdr} {d} {w} {v} {m} : IssueForm (.wctr h d w v m) h := ⟨false, _, _, fun _ => rfl⟩
theorem issueForm_ared {h : Hdr} {d} {c} {w} {x4} {ct} : IssueForm (.ared h d c w x4 ct) h := ⟨false, _, _, fun _ => rfl⟩
theorem issueForm_a2av {h : Hdr} {t} {d} {ca} {cb} {w} {p} {q} : IssueForm (.a2av h t d ca cb w p q) h := ⟨false, _, _, fun _ => rfl⟩
theorem issueForm_xchg {h : Hdr} {t} {v} {p} : IssueForm (.xchg h t v p) h := ⟨false, _, _, fun _ => rfl⟩
theorem issueForm_sortk {h : Hdr} {d} {c} {k} {cn} {n} : IssueForm (.sortk h d c k cn n) h := ⟨false, _, _, fun _ => rfl⟩
theorem issueForm_trace {h : Hdr} {a} {tag} : IssueForm (.trace h a tag) h := ⟨false, _, _, fun _ => rfl⟩
theorem issueForm_rdctr {h : Hdr} {d} {n} {seat} : IssueForm (.rdctr h d n seat) h := ⟨false, _, _, fun _ => rfl⟩
theorem issueForm_icinv {h : Hdr} {sc} {d} : IssueForm (.icinv h sc d) h := ⟨false, _, _, fun _ => rfl⟩
theorem issueForm_tlbinv {h : Hdr} {sc} {d} {a} : IssueForm (.tlbinv h sc d a) h := ⟨true, _, _, fun _ => rfl⟩
theorem issueForm_prd {h : Hdr} {d} {a} {seat} : IssueForm (.prd h d a seat) h := ⟨true, _, _, fun _ => rfl⟩
theorem issueForm_pwr {h : Hdr} {d} {a} {seat} : IssueForm (.pwr h d a seat) h := ⟨true, _, _, fun _ => rfl⟩
theorem issueForm_haltb {h : Hdr} {d} {k} : IssueForm (.haltb h d k) h := ⟨true, _, _, fun _ => rfl⟩
theorem issueForm_hmov {h : Hdr} {d n : HReg} : IssueForm (.hmov h d n) h := by
  by_cases e : d = n
  · exact ⟨false, _, _, fun s => by simp only [exec, execHmov, e, if_true]; rfl⟩
  · exact ⟨false, _, _, fun s => by simp only [exec, execHmov, e, if_false]; rfl⟩
theorem issueForm_smovi {h : Hdr} {t : Ty} {d : SReg} {k : Option (BitVec 2)} {i : BitVec 24} : IssueForm (.smovi h t d k i) h := by
  cases k <;> exact ⟨false, _, _, fun _ => rfl⟩
theorem issueForm_gets {h : Hdr} {d : SVReg} {sr : BitVec 10} : IssueForm (.gets h d sr) h :=
  ⟨decide (0x100 ≤ sr.toNat), _, _, fun _ => rfl⟩
theorem issueForm_sets {h : Hdr} {sr : BitVec 10} {a : SReg} : IssueForm (.sets h sr a) h := by
  by_cases e : 0x100 ≤ sr.toNat
  · exact ⟨true, _, _, fun s => by simp only [exec, execSets, e, if_true]; rfl⟩
  · exact ⟨false, _, _, fun s => by simp only [exec, execSets, e, if_false]; rfl⟩
theorem issueForm_vmov {h : Hdr} {t : Ty} {d : VReg} {a : SVReg} : IssueForm (.vmov h t d a) h := by
  cases a <;> exact ⟨false, _, _, fun _ => rfl⟩
theorem issueForm_taglk {h : Hdr} {f : TagForm} : IssueForm (.taglk h f) h := by cases f <;> exact ⟨false, _, _, fun _ => rfl⟩
theorem issueForm_pagereq {h : Hdr} {d : HReg} {f : PageForm} : IssueForm (.pagereq h d f) h := by
  cases f <;> exact ⟨false, _, _, fun _ => rfl⟩
theorem issueForm_baton {h : Hdr} {m : BatonMode} : IssueForm (.baton h m) h := by cases m <;> exact ⟨false, _, _, fun _ => rfl⟩

/-- A device event, ERET, or an instruction in issue form. -/
def FormOf (i : Instr) : Prop := i.hdr? = none ∨ (∃ h m, i = .eret h m) ∨ ∃ h, i.hdr? = some h ∧ IssueForm i h

theorem formOf (i : Instr) : FormOf i :=
  Instr.casesOn (motive := FormOf) i
    (fun _ => .inr (.inr ⟨_, rfl, issueForm_nop⟩)) (fun _ _ => .inr (.inr ⟨_, rfl, issueForm_want⟩))
    (fun _ _ => .inr (.inr ⟨_, rfl, issueForm_wantVector⟩)) (fun _ _ _ _ => .inr (.inr ⟨_, rfl, issueForm_wants⟩))
    (fun _ _ _ => .inr (.inr ⟨_, rfl, issueForm_wanth⟩)) (fun _ => .inr (.inr ⟨_, rfl, issueForm_exit⟩))
    (fun _ _ => .inr (.inr ⟨_, rfl, issueForm_call⟩)) (fun _ => .inr (.inr ⟨_, rfl, issueForm_ret⟩))
    (fun _ => .inr (.inr ⟨_, rfl, issueForm_yield⟩)) (fun _ _ _ _ _ _ _ _ => .inr (.inr ⟨_, rfl, issueForm_spawn⟩))
    (fun _ _ _ _ => .inr (.inr ⟨_, rfl, issueForm_launch⟩)) (fun _ _ => .inr (.inr ⟨_, rfl, issueForm_trap⟩))
    (fun _ _ => .inr (.inr ⟨_, rfl, issueForm_brk⟩)) (fun _ _ _ => .inr (.inr ⟨_, rfl, issueForm_hwait⟩))
    (fun _ _ _ => .inr (.inr ⟨_, rfl, issueForm_htest⟩)) (fun _ _ => .inr (.inr ⟨_, rfl, issueForm_hcancel⟩))
    (fun _ _ _ => .inr (.inr ⟨_, rfl, issueForm_hmov⟩)) (fun _ _ _ => .inr (.inr ⟨_, rfl, issueForm_waitcnt⟩))
    (fun _ _ _ => .inr (.inr ⟨_, rfl, issueForm_barinit⟩)) (fun _ _ _ _ => .inr (.inr ⟨_, rfl, issueForm_bararr⟩))
    (fun _ _ => .inr (.inr ⟨_, rfl, issueForm_barwt⟩)) (fun _ _ _ => .inr (.inr ⟨_, rfl, issueForm_bartry⟩))
    (fun _ _ => .inr (.inr ⟨_, rfl, issueForm_phase⟩)) (fun _ _ _ _ _ => .inr (.inr ⟨_, rfl, issueForm_sadd⟩))
    (fun _ _ _ _ _ => .inr (.inr ⟨_, rfl, issueForm_ssub⟩)) (fun _ _ _ _ _ => .inr (.inr ⟨_, rfl, issueForm_smul⟩))
    (fun _ _ _ _ _ => .inr (.inr ⟨_, rfl, issueForm_smulh⟩)) (fun _ _ _ _ _ => .inr (.inr ⟨_, rfl, issueForm_sand⟩))
    (fun _ _ _ _ _ => .inr (.inr ⟨_, rfl, issueForm_sor⟩)) (fun _ _ _ _ _ => .inr (.inr ⟨_, rfl, issueForm_sxor⟩))
    (fun _ _ _ _ _ => .inr (.inr ⟨_, rfl, issueForm_sshl⟩)) (fun _ _ _ _ _ => .inr (.inr ⟨_, rfl, issueForm_sshr⟩))
    (fun _ _ _ _ _ => .inr (.inr ⟨_, rfl, issueForm_ssra⟩)) (fun _ _ _ _ _ => .inr (.inr ⟨_, rfl, issueForm_smin⟩))
    (fun _ _ _ _ _ => .inr (.inr ⟨_, rfl, issueForm_smax⟩)) (fun _ _ _ _ _ _ => .inr (.inr ⟨_, rfl, issueForm_ssel⟩))
    (fun _ _ _ _ _ _ => .inr (.inr ⟨_, rfl, issueForm_scmp⟩)) (fun _ _ _ _ _ => .inr (.inr ⟨_, rfl, issueForm_saddi⟩))
    (fun _ _ _ _ _ => .inr (.inr ⟨_, rfl, issueForm_sandi⟩)) (fun _ _ _ _ _ => .inr (.inr ⟨_, rfl, issueForm_sori⟩))
    (fun _ _ _ _ _ => .inr (.inr ⟨_, rfl, issueForm_sxori⟩)) (fun _ _ _ _ _ => .inr (.inr ⟨_, rfl, issueForm_sshli⟩))
    (fun _ _ _ _ _ _ => .inr (.inr ⟨_, rfl, issueForm_sshri⟩)) (fun _ _ _ _ _ _ => .inr (.inr ⟨_, rfl, issueForm_scmpi⟩))
    (fun _ _ _ _ _ => .inr (.inr ⟨_, rfl, issueForm_smovi⟩)) (fun _ _ _ => .inr (.inr ⟨_, rfl, issueForm_smov⟩))
    (fun _ _ _ => .inr (.inr ⟨_, rfl, issueForm_gets⟩)) (fun _ _ _ => .inr (.inr ⟨_, rfl, issueForm_sets⟩))
    (fun _ _ _ => .inr (.inr ⟨_, rfl, issueForm_sldk⟩)) (fun _ _ _ _ _ => .inr (.inr ⟨_, rfl, issueForm_vadd⟩))
    (fun _ _ _ _ _ => .inr (.inr ⟨_, rfl, issueForm_vsub⟩)) (fun _ _ _ _ _ => .inr (.inr ⟨_, rfl, issueForm_vmul⟩))
    (fun _ _ _ _ _ => .inr (.inr ⟨_, rfl, issueForm_vmulh⟩)) (fun _ _ _ _ _ _ => .inr (.inr ⟨_, rfl, issueForm_vmad⟩))
    (fun _ _ _ _ _ => .inr (.inr ⟨_, rfl, issueForm_vand⟩)) (fun _ _ _ _ _ => .inr (.inr ⟨_, rfl, issueForm_vor⟩))
    (fun _ _ _ _ _ => .inr (.inr ⟨_, rfl, issueForm_vxor⟩)) (fun _ _ _ _ => .inr (.inr ⟨_, rfl, issueForm_vnot⟩))
    (fun _ _ _ _ _ => .inr (.inr ⟨_, rfl, issueForm_vshl⟩)) (fun _ _ _ _ _ => .inr (.inr ⟨_, rfl, issueForm_vshr⟩))
    (fun _ _ _ _ _ => .inr (.inr ⟨_, rfl, issueForm_vsra⟩)) (fun _ _ _ _ _ => .inr (.inr ⟨_, rfl, issueForm_vmin⟩))
    (fun _ _ _ _ _ => .inr (.inr ⟨_, rfl, issueForm_vmax⟩)) (fun _ _ _ _ => .inr (.inr ⟨_, rfl, issueForm_vabs⟩))
    (fun _ _ _ _ => .inr (.inr ⟨_, rfl, issueForm_vclz⟩)) (fun _ _ _ _ => .inr (.inr ⟨_, rfl, issueForm_vpopc⟩))
    (fun _ _ _ _ _ => .inr (.inr ⟨_, rfl, issueForm_vadds⟩)) (fun _ _ _ _ _ => .inr (.inr ⟨_, rfl, issueForm_vsubs⟩))
    (fun _ _ _ _ _ => .inr (.inr ⟨_, rfl, issueForm_vaddX⟩)) (fun _ _ _ _ _ => .inr (.inr ⟨_, rfl, issueForm_vsubX⟩))
    (fun _ _ _ _ _ => .inr (.inr ⟨_, rfl, issueForm_vmulX⟩)) (fun _ _ _ _ _ => .inr (.inr ⟨_, rfl, issueForm_vmulhX⟩))
    (fun _ _ _ _ _ => .inr (.inr ⟨_, rfl, issueForm_vandX⟩)) (fun _ _ _ _ _ => .inr (.inr ⟨_, rfl, issueForm_vorX⟩))
    (fun _ _ _ _ _ => .inr (.inr ⟨_, rfl, issueForm_vxorX⟩)) (fun _ _ _ _ _ => .inr (.inr ⟨_, rfl, issueForm_vshlX⟩))
    (fun _ _ _ _ _ => .inr (.inr ⟨_, rfl, issueForm_vshrX⟩)) (fun _ _ _ _ _ => .inr (.inr ⟨_, rfl, issueForm_vsraX⟩))
    (fun _ _ _ _ _ => .inr (.inr ⟨_, rfl, issueForm_vminX⟩)) (fun _ _ _ _ _ => .inr (.inr ⟨_, rfl, issueForm_vmaxX⟩))
    (fun _ _ _ _ _ => .inr (.inr ⟨_, rfl, issueForm_vaddsX⟩)) (fun _ _ _ _ _ => .inr (.inr ⟨_, rfl, issueForm_vsubsX⟩))
    (fun _ _ _ _ _ _ => .inr (.inr ⟨_, rfl, issueForm_vcmp⟩)) (fun _ _ _ _ _ _ => .inr (.inr ⟨_, rfl, issueForm_vsel⟩))
    (fun _ _ _ _ => .inr (.inr ⟨_, rfl, issueForm_vmov⟩)) (fun _ _ _ _ => .inr (.inr ⟨_, rfl, issueForm_pand⟩))
    (fun _ _ _ _ => .inr (.inr ⟨_, rfl, issueForm_por⟩)) (fun _ _ _ _ => .inr (.inr ⟨_, rfl, issueForm_pxor⟩))
    (fun _ _ _ => .inr (.inr ⟨_, rfl, issueForm_pnot⟩)) (fun _ _ _ => .inr (.inr ⟨_, rfl, issueForm_pmov⟩))
    (fun _ _ _ => .inr (.inr ⟨_, rfl, issueForm_pset⟩)) (fun _ _ _ => .inr (.inr ⟨_, rfl, issueForm_pcnt⟩))
    (fun _ _ _ _ _ => .inr (.inr ⟨_, rfl, issueForm_shfl⟩)) (fun _ _ _ _ => .inr (.inr ⟨_, rfl, issueForm_rdfl⟩))
    (fun _ _ _ _ => .inr (.inr ⟨_, rfl, issueForm_vote⟩)) (fun _ _ _ _ _ => .inr (.inr ⟨_, rfl, issueForm_reduce⟩))
    (fun _ _ _ _ _ _ => .inr (.inr ⟨_, rfl, issueForm_scan⟩)) (fun _ _ _ _ => .inr (.inr ⟨_, rfl, issueForm_sample⟩))
    (fun _ _ _ _ _ _ => .inr (.inr ⟨_, rfl, issueForm_fadd⟩)) (fun _ _ _ _ _ _ => .inr (.inr ⟨_, rfl, issueForm_fsub⟩))
    (fun _ _ _ _ _ _ => .inr (.inr ⟨_, rfl, issueForm_fmul⟩)) (fun _ _ _ _ _ _ _ => .inr (.inr ⟨_, rfl, issueForm_ffma⟩))
    (fun _ _ _ _ _ => .inr (.inr ⟨_, rfl, issueForm_fmin⟩)) (fun _ _ _ _ _ => .inr (.inr ⟨_, rfl, issueForm_fmax⟩))
    (fun _ _ _ _ => .inr (.inr ⟨_, rfl, issueForm_fabs⟩)) (fun _ _ _ _ => .inr (.inr ⟨_, rfl, issueForm_fneg⟩))
    (fun _ _ _ _ _ _ _ => .inr (.inr ⟨_, rfl, issueForm_fcmp⟩)) (fun _ _ _ _ => .inr (.inr ⟨_, rfl, issueForm_fclass⟩))
    (fun _ _ _ _ => .inr (.inr ⟨_, rfl, issueForm_frcp⟩)) (fun _ _ _ _ => .inr (.inr ⟨_, rfl, issueForm_frsq⟩))
    (fun _ _ _ _ _ => .inr (.inr ⟨_, rfl, issueForm_fsqrt⟩)) (fun _ _ _ _ => .inr (.inr ⟨_, rfl, issueForm_fexp2⟩))
    (fun _ _ _ _ => .inr (.inr ⟨_, rfl, issueForm_flog2⟩)) (fun _ _ _ _ => .inr (.inr ⟨_, rfl, issueForm_fsin⟩))
    (fun _ _ _ _ => .inr (.inr ⟨_, rfl, issueForm_fcos⟩)) (fun _ _ _ _ => .inr (.inr ⟨_, rfl, issueForm_ftanh⟩))
    (fun _ _ _ => .inr (.inr ⟨_, rfl, issueForm_fstat⟩)) (fun _ _ _ => .inr (.inr ⟨_, rfl, issueForm_fmode⟩))
    (fun _ _ _ _ _ _ _ _ => .inr (.inr ⟨_, rfl, issueForm_cvt⟩)) (fun _ _ _ _ _ _ _ => .inr (.inr ⟨_, rfl, issueForm_cvtsr⟩))
    (fun _ _ _ _ _ _ => .inr (.inr ⟨_, rfl, issueForm_qscale⟩)) (fun _ _ _ _ _ _ _ => .inr (.inr ⟨_, rfl, issueForm_qpack⟩))
    (fun _ _ _ _ _ _ => .inr (.inr ⟨_, rfl, issueForm_qunpk⟩)) (fun _ _ _ _ => .inr (.inr ⟨_, rfl, issueForm_plane⟩))
    (fun _ _ _ _ _ _ => .inr (.inr ⟨_, rfl, issueForm_lds⟩)) (fun _ _ _ _ _ _ => .inr (.inr ⟨_, rfl, issueForm_sts⟩))
    (fun _ _ _ _ _ _ => .inr (.inr ⟨_, rfl, issueForm_atomsAdd⟩)) (fun _ _ _ _ _ _ => .inr (.inr ⟨_, rfl, issueForm_atomsAnd⟩))
    (fun _ _ _ _ _ _ => .inr (.inr ⟨_, rfl, issueForm_atomsOr⟩)) (fun _ _ _ _ _ _ => .inr (.inr ⟨_, rfl, issueForm_atomsXor⟩))
    (fun _ _ _ _ _ _ => .inr (.inr ⟨_, rfl, issueForm_atomsMin⟩)) (fun _ _ _ _ _ _ => .inr (.inr ⟨_, rfl, issueForm_atomsMax⟩))
    (fun _ _ _ _ _ _ => .inr (.inr ⟨_, rfl, issueForm_atomsExch⟩)) (fun _ _ _ _ _ _ => .inr (.inr ⟨_, rfl, issueForm_atomsCas⟩))
    (fun _ _ _ _ _ _ => .inr (.inr ⟨_, rfl, issueForm_atomsFadd⟩)) (fun _ _ => .inr (.inr ⟨_, rfl, issueForm_taglk⟩))
    (fun _ _ _ => .inr (.inr ⟨_, rfl, issueForm_tagset⟩)) (fun _ _ => .inr (.inr ⟨_, rfl, issueForm_taginv⟩))
    (fun _ _ _ _ _ => .inr (.inr ⟨_, rfl, issueForm_capld⟩)) (fun _ _ _ _ _ => .inr (.inr ⟨_, rfl, issueForm_capst⟩))
    (fun _ _ _ _ => .inr (.inr ⟨_, rfl, issueForm_capsub⟩)) (fun _ _ _ _ => .inr (.inr ⟨_, rfl, issueForm_capperm⟩))
    (fun _ _ _ _ => .inr (.inr ⟨_, rfl, issueForm_capget⟩)) (fun _ _ _ _ => .inr (.inr ⟨_, rfl, issueForm_capoff⟩))
    (fun _ _ _ _ _ _ _ _ _ _ => .inr (.inr ⟨_, rfl, issueForm_copy⟩)) (fun _ _ _ _ _ _ _ _ _ => .inr (.inr ⟨_, rfl, issueForm_gather⟩))
    (fun _ _ _ _ _ _ _ _ _ => .inr (.inr ⟨_, rfl, issueForm_scatter⟩)) (fun _ _ _ _ _ _ _ => .inr (.inr ⟨_, rfl, issueForm_qld⟩))
    (fun _ _ _ _ _ _ _ => .inr (.inr ⟨_, rfl, issueForm_qst⟩)) (fun _ _ => .inr (.inr ⟨_, rfl, issueForm_qclose⟩))
    (fun _ _ _ => .inr (.inr ⟨_, rfl, issueForm_qres⟩)) (fun _ _ _ => .inr (.inr ⟨_, rfl, issueForm_pagereq⟩))
    (fun _ _ _ _ _ _ _ _ _ => .inr (.inr ⟨_, rfl, issueForm_atomgAdd⟩)) (fun _ _ _ _ _ _ _ _ _ => .inr (.inr ⟨_, rfl, issueForm_atomgAnd⟩))
    (fun _ _ _ _ _ _ _ _ _ => .inr (.inr ⟨_, rfl, issueForm_atomgOr⟩)) (fun _ _ _ _ _ _ _ _ _ => .inr (.inr ⟨_, rfl, issueForm_atomgXor⟩))
    (fun _ _ _ _ _ _ _ _ _ => .inr (.inr ⟨_, rfl, issueForm_atomgMin⟩)) (fun _ _ _ _ _ _ _ _ _ => .inr (.inr ⟨_, rfl, issueForm_atomgMax⟩))
    (fun _ _ _ _ _ _ _ _ _ => .inr (.inr ⟨_, rfl, issueForm_atomgExch⟩)) (fun _ _ _ _ _ _ _ _ _ _ => .inr (.inr ⟨_, rfl, issueForm_atomgCas⟩))
    (fun _ _ _ _ _ _ _ => .inr (.inr ⟨_, rfl, issueForm_atomgFadd⟩)) (fun _ _ _ => .inr (.inr ⟨_, rfl, issueForm_fence⟩))
    (fun _ _ => .inr (.inr ⟨_, rfl, issueForm_commit⟩)) (fun _ _ _ _ _ => .inr (.inr ⟨_, rfl, issueForm_enq⟩))
    (fun _ _ _ => .inr (.inr ⟨_, rfl, issueForm_deq⟩)) (fun _ _ _ _ _ _ _ _ _ _ => .inr (.inr ⟨_, rfl, issueForm_mma⟩))
    (fun _ _ _ => .inr (.inr ⟨_, rfl, issueForm_mtbl⟩)) (fun _ => .inr (.inr ⟨_, rfl, issueForm_mtblsw⟩))
    (fun _ _ => .inr (.inr ⟨_, rfl, issueForm_baton⟩)) (fun _ _ _ _ _ _ => .inr (.inr ⟨_, rfl, issueForm_fetchn⟩))
    (fun _ _ _ _ _ _ => .inr (.inr ⟨_, rfl, issueForm_pubn⟩)) (fun _ _ _ _ _ _ => .inr (.inr ⟨_, rfl, issueForm_sealn⟩))
    (fun _ _ _ => .inr (.inr ⟨_, rfl, issueForm_stopref⟩)) (fun _ _ _ _ _ => .inr (.inr ⟨_, rfl, issueForm_subn⟩))
    (fun _ _ _ _ _ _ _ => .inr (.inr ⟨_, rfl, issueForm_put⟩)) (fun _ _ _ _ _ => .inr (.inr ⟨_, rfl, issueForm_wctr⟩))
    (fun _ _ _ _ _ _ => .inr (.inr ⟨_, rfl, issueForm_ared⟩)) (fun _ _ _ _ _ _ _ _ => .inr (.inr ⟨_, rfl, issueForm_a2av⟩))
    (fun _ _ _ _ => .inr (.inr ⟨_, rfl, issueForm_xchg⟩)) (fun _ _ _ _ _ _ => .inr (.inr ⟨_, rfl, issueForm_sortk⟩))
    (fun _ _ _ => .inr (.inr ⟨_, rfl, issueForm_trace⟩)) (fun _ _ _ _ => .inr (.inr ⟨_, rfl, issueForm_rdctr⟩))
    (fun _ _ _ => .inr (.inr ⟨_, rfl, issueForm_icinv⟩)) (fun _ _ _ _ => .inr (.inr ⟨_, rfl, issueForm_tlbinv⟩))
    (fun _ _ _ _ => .inr (.inr ⟨_, rfl, issueForm_prd⟩)) (fun _ _ _ _ => .inr (.inr ⟨_, rfl, issueForm_pwr⟩))
    (fun _ _ => .inr (.inl ⟨_, _, rfl⟩)) (fun _ _ _ => .inr (.inr ⟨_, rfl, issueForm_haltb⟩))
    (.inl rfl) (by intros; exact .inl rfl)
    (.inl rfl) (by intros; exact .inl rfl)
    (by intros; exact .inl rfl) (by intros; exact .inl rfl)
    (by intros; exact .inl rfl) (by intros; exact .inl rfl)
    (by intros; exact .inl rfl) (by intros; exact .inl rfl)
    (by intros; exact .inl rfl) (by intros; exact .inl rfl)
    (by intros; exact .inl rfl) (by intros; exact .inl rfl)
    (by intros; exact .inl rfl) (by intros; exact .inl rfl)
    (by intros; exact .inl rfl) (by intros; exact .inl rfl)
    (by intros; exact .inl rfl) (by intros; exact .inl rfl)
    (by intros; exact .inl rfl) (by intros; exact .inl rfl)
    (by intros; exact .inl rfl) (by intros; exact .inl rfl)
    (by intros; exact .inl rfl) (by intros; exact .inl rfl)
    (by intros; exact .inl rfl) (by intros; exact .inl rfl)
    (by intros; exact .inl rfl) (by intros; exact .inl rfl)
    (by intros; exact .inl rfl) (by intros; exact .inl rfl)
    (by intros; exact .inl rfl) (by intros; exact .inl rfl)
    (by intros; exact .inl rfl) (by intros; exact .inl rfl)
    (by intros; exact .inl rfl) (by intros; exact .inl rfl)
    (by intros; exact .inl rfl) (by intros; exact .inl rfl)
    (by intros; exact .inl rfl) (by intros; exact .inl rfl)
    (by intros; exact .inl rfl) (by intros; exact .inl rfl)
    (by intros; exact .inl rfl) (by intros; exact .inl rfl)
    (by intros; exact .inl rfl) (by intros; exact .inl rfl)
    (by intros; exact .inl rfl) (by intros; exact .inl rfl)
    (by intros; exact .inl rfl) (by intros; exact .inl rfl)
    (by intros; exact .inl rfl) (by intros; exact .inl rfl)
    (by intros; exact .inl rfl) (by intros; exact .inl rfl)
    (by intros; exact .inl rfl) (by intros; exact .inl rfl)
    (by intros; exact .inl rfl) (by intros; exact .inl rfl)
    (by intros; exact .inl rfl) (by intros; exact .inl rfl)
    (by intros; exact .inl rfl) (by intros; exact .inl rfl)
    (by intros; exact .inl rfl) (by intros; exact .inl rfl)
    (by intros; exact .inl rfl) (by intros; exact .inl rfl)
    (by intros; exact .inl rfl) (by intros; exact .inl rfl)
    (by intros; exact .inl rfl) (by intros; exact .inl rfl)
    (by intros; exact .inl rfl) (by intros; exact .inl rfl)
    (by intros; exact .inl rfl) (by intros; exact .inl rfl)
    (by intros; exact .inl rfl) (by intros; exact .inl rfl)
    (by intros; exact .inl rfl) (by intros; exact .inl rfl)
    (.inl rfl) (by intros; exact .inl rfl)
    (by intros; exact .inl rfl) (.inl rfl)
    (by intros; exact .inl rfl) (by intros; exact .inl rfl)
    (by intros; exact .inl rfl)

/-- Every encoded instruction but ERET is in issue form. -/
theorem issueForm {i : Instr} {h : Hdr} (hh : i.hdr? = some h) (he : ∀ m, i ≠ .eret h m) : IssueForm i h := by
  rcases formOf i with h0 | ⟨k, m, rfl⟩ | ⟨k, hk, hf⟩
  · rw [hh] at h0
    cases h0
  · cases hh
    exact absurd rfl (he m)
  · rw [hh] at hk
    cases hk
    exact hf

end Sys2Proof.Machine
end

