-- ==== Sys2Proof/Laws/Step.lean ====
section
/-! SUPPORT. What a step can do: an event of the agenda, the turn of one group, or the rest of the clock. -/
namespace Sys2Proof.Machine
open Sys2Proof

/-- With an empty agenda and a group next to issue, a step is that group's turn. -/
theorem step_turn {s : State} {u k : Nat} (ha : s.agenda = []) (hn : nextIssuer s = some (u, k)) : step s = turn s u k := by
  unfold step
  rw [ha]
  simp only [hn]

/-- With an empty agenda and no group to issue, a step is a device event or the end of the clock. -/
theorem step_goOn {s : State} (ha : s.agenda = []) (hn : nextIssuer s = none) : step s = .next (goOn s) := by
  unfold step
  rw [ha]
  simp only [hn]

/-- An event at the head of the agenda comes first. -/
theorem step_agenda {s : State} {i : Instr} {rest : List Instr} (ha : s.agenda = i :: rest) (hi : i.hdr? = none) :
    step s = exec i { s with agenda := rest } := by
  unfold step
  rw [ha]
  simp only [hi]
  rfl

/-- Every step is one of these four. -/
theorem step_cases (s : State) :
    (∃ i rest, s.agenda = i :: rest ∧ i.hdr? ≠ none ∧ step s = .next { s with agenda := rest }) ∨
    (∃ i rest, s.agenda = i :: rest ∧ i.hdr? = none ∧ step s = exec i { s with agenda := rest }) ∨
    (∃ u k, s.agenda = [] ∧ nextIssuer s = some (u, k) ∧ step s = turn s u k) ∨
    (s.agenda = [] ∧ nextIssuer s = none ∧ step s = .next (goOn s)) := by
  cases ha : s.agenda with
  | cons i rest =>
    cases hi : i.hdr? with
    | none => exact .inr (.inl ⟨i, rest, rfl, hi, step_agenda ha hi⟩)
    | some h =>
      refine .inl ⟨i, rest, rfl, by simp [hi], ?_⟩
      unfold step
      rw [ha]
      simp only [hi]
      rfl
  | nil =>
    cases hn : nextIssuer s with
    | none => exact .inr (.inr (.inr ⟨rfl, rfl, step_goOn ha hn⟩))
    | some x => exact .inr (.inr (.inl ⟨x.1, x.2, rfl, rfl, step_turn ha hn⟩))

/-- What a group fetches when it stands on a word of its block. -/
theorem fetch_decode {v : View} {n : Nat} (he : atBlockEnd v = false) (hb : chainBroken v = false) (hp : posIdx v = some n) :
    fetch v = match decode ((wordsOf v.st v.b v.g).getD n 0) ((wordsOf v.st v.b v.g).getD (n + 1) 0) with
      | .ok x => .instr x
      | .error e => .reject e := by
  unfold fetch
  simp only [he, hb, hp]
  rfl

/-- The turn of a group that fetches an instruction, where the device performs no access for it (R158). -/
theorem turn_instr {s : State} {u k : Nat} {v : View} {i : Instr} (hv : viewAt { s with cur := some (u, k) } u k = some v)
    (he : v.g.emul = none) (ho : v.g.owed = false) (hf : fetch v = .instr i) : turn s u k = exec i { s with cur := some (u, k) } := by
  unfold turn
  simp only [hv, he, ho, hf]
  rfl

/-- The turn of a group for which the device performs an access is one byte of it (R158). -/
theorem turn_emul {s : State} {u k : Nat} {v : View} {e : Emul} (hv : viewAt { s with cur := some (u, k) } u k = some v)
    (he : v.g.emul = some e) : turn s u k = .next (flush (emulStep v e)) := by
  unfold turn
  simp only [hv, he]

/-- The turn of a group that fetches a word which is no instruction. -/
theorem turn_reject {s : State} {u k : Nat} {v : View} {e : Reject} (hv : viewAt { s with cur := some (u, k) } u k = some v)
    (he : v.g.emul = none) (ho : v.g.owed = false) (hf : fetch v = .reject e) :
    turn s u k = .next (flush (takeTrap v (faultAt v 0 0x0A 255 (BitVec.ofNat 8 (rejectStep e)) 0))) := by
  unfold turn
  simp only [hv, he, ho, hf]
  rfl

/-- A group that owes the turn of an instruction that ended outside a turn takes it, and does nothing else (R41). -/
theorem turn_owed {s : State} {u k : Nat} {v : View} (hv : viewAt { s with cur := some (u, k) } u k = some v)
    (he : v.g.emul = none) (ho : v.g.owed = true) : turn s u k = .next (flush (takeSlot v)) := by
  unfold turn
  simp only [hv, he, ho, if_true]

end Sys2Proof.Machine
end

