-- ==== Sys2Proof/Laws/Sweep.lean ====
section
/-! SUPPORT. What the walk of a group through the markers can change (EndBlock, Arrive, Seek of R75), and what starting the groups of a block
leaves. -/
namespace Sys2Proof.Machine
open Sys2Proof

/-- From `v` to `w` a group has only moved: its place, its lanes and frames, its counters; its block may have passed the baton or taken a
fault; registers, memories and the other blocks are as they were. -/
structure Walks (v w : View) : Prop where
  uid    : w.uid = v.uid
  gid    : w.gid = v.gid
  block  : w.b = { v.b with groups := w.b.groups, baton := w.b.baton, fault := w.b.fault }
  count  : w.b.groups.length = v.b.groups.length
  others : ∀ k, k ≠ v.gid → w.b.groups[k]? = v.b.groups[k]?
  regs   : SameRegisters w.g v.g
  blocks : w.st.blocks = v.st.blocks
  pages  : w.st.pages = v.st.pages
  cellar : w.st.cellar = v.st.cellar
  acq    : w.g.acq = v.g.acq
  rest   : w.st = { v.st with ops := w.st.ops, parts := w.st.parts, cores := w.st.cores, clusters := w.st.clusters }

theorem Walks.refl (v : View) : Walks v v := ⟨rfl, rfl, rfl, rfl, fun _ _ => rfl, ⟨rfl, rfl, rfl, rfl, rfl, rfl⟩, rfl, rfl, rfl, rfl, rfl⟩

theorem Walks.trans {u v w : View} (a : Walks u v) (b : Walks v w) : Walks u w where
  uid := b.uid.trans a.uid
  gid := b.gid.trans a.gid
  block := by rw [b.block, a.block]
  count := b.count.trans a.count
  others := fun k hk => (b.others k (by rw [a.gid]; exact hk)).trans (a.others k hk)
  regs := by
    obtain ⟨h1, h2, h3, h4, h5, h6⟩ := a.regs
    obtain ⟨k1, k2, k3, k4, k5, k6⟩ := b.regs
    exact ⟨k1.trans h1, k2.trans h2, k3.trans h3, k4.trans h4, k5.trans h5, k6.trans h6⟩
  blocks := b.blocks.trans a.blocks
  pages := b.pages.trans a.pages
  cellar := b.cellar.trans a.cellar
  acq := b.acq.trans a.acq
  rest := by rw [b.rest, a.rest]

/-- A change of the group that keeps its registers is a walk. -/
theorem Walks.ofG (v : View) (g : Group) (h : SameRegisters g v.g) (ha : g.acq = v.g.acq) : Walks v { v with g := g } :=
  ⟨rfl, rfl, rfl, rfl, fun _ _ => rfl, h, rfl, rfl, rfl, ha, rfl⟩

/-- A change of the partitions, cores, clusters and operations is a walk. -/
theorem Walks.ofSt (v : View) (st : State)
    (h : st = { v.st with ops := st.ops, parts := st.parts, cores := st.cores, clusters := st.clusters }) : Walks v { v with st := st } :=
  ⟨rfl, rfl, rfl, rfl, fun _ _ => rfl, ⟨rfl, rfl, rfl, rfl, rfl, rfl⟩, by simpa using congrArg State.blocks h, by simpa using congrArg State.pages h,
    by simpa using congrArg State.cellar h, rfl, h⟩

@[simp] theorem mapLanes_acq (g : Group) (m : Lanes) (f : LaneState → LaneState) : (mapLanes g m f).acq = g.acq := rfl

@[simp] theorem setTop_acq (g : Group) (f : Frame) : (setTop g f).acq = g.acq := by
  unfold setTop; split <;> rfl

@[simp] theorem retLanes_acq (g : Group) (m : Lanes) : (retLanes g m).acq = g.acq := by
  unfold retLanes; split <;> simp [makeDone]

theorem sameRegisters_mapLanes (g : Group) (m : Lanes) (f : LaneState → LaneState) : SameRegisters (mapLanes g m f) g :=
  ⟨rfl, rfl, rfl, rfl, rfl, rfl⟩

theorem sameRegisters_setTop (g : Group) (f : Frame) : SameRegisters (setTop g f) g := by
  unfold setTop; split <;> exact ⟨rfl, rfl, rfl, rfl, rfl, rfl⟩

theorem sameRegisters_retLanes (g : Group) (m : Lanes) : SameRegisters (retLanes g m) g := by
  unfold retLanes
  split
  · exact ⟨rfl, rfl, rfl, rfl, rfl, rfl⟩
  · exact sameRegisters_setTop _ _

theorem walks_bubble (v : View) : Walks v (bubble v) := Walks.ofG v _ ⟨rfl, rfl, rfl, rfl, rfl, rfl⟩ rfl

theorem walks_tracePath (v : View) (k : Nat) (l : Lab) (o : W16) (m : Lanes) (a b : W64) (e : List Lab) :
    Walks v (tracePath v k l o m a b e) := Walks.ofSt v _ rfl

theorem walks_passMarker (v : View) : Walks v (passMarker v) := by
  simp only [passMarker]
  split
  · exact ⟨rfl, rfl, rfl, rfl, fun _ _ => rfl, ⟨rfl, rfl, rfl, rfl, rfl, rfl⟩, rfl, rfl, rfl, rfl, rfl⟩
  · exact Walks.refl v

theorem walks_enterMarker (v : View) (L : Nat) (act : Lanes) (ha : v.g.acq = []) : Walks v (enterMarker v L act) := by
  simp only [enterMarker, observeAcq_nil ha]
  split
  · exact ⟨rfl, rfl, rfl, rfl, fun _ _ => rfl, ⟨rfl, rfl, rfl, rfl, rfl, rfl⟩, rfl, rfl, rfl, rfl, rfl⟩
  · exact ⟨rfl, rfl, rfl, rfl, fun _ _ => rfl, ⟨rfl, rfl, rfl, rfl, rfl, rfl⟩, rfl, rfl, rfl, rfl, rfl⟩

theorem walks_holdLanes (v : View) (k L : Nat) (m : Lanes) : Walks v (holdLanes v k L m) := by
  simp only [holdLanes]
  split
  · exact ⟨rfl, rfl, rfl, rfl, fun _ _ => rfl, ⟨rfl, rfl, rfl, rfl, rfl, rfl⟩, rfl, rfl, rfl, rfl, rfl⟩
  · exact ⟨rfl, rfl, rfl, rfl, fun _ _ => rfl, ⟨rfl, rfl, rfl, rfl, rfl, rfl⟩, rfl, rfl, rfl, rfl, rfl⟩

theorem markFault_frame (b : Block) (f : FaultRec) : markFault b f = { b with fault := (markFault b f).fault } := by
  unfold markFault
  split <;> (try split) <;> rfl

theorem walks_takeTrap (v : View) (f : FaultRec) : Walks v (takeTrap v f) := by
  simp only [takeTrap]
  split
  · simp only [handlerFault]
    refine ⟨rfl, rfl, rfl, rfl, fun _ _ => rfl, ⟨rfl, rfl, rfl, rfl, rfl, rfl⟩, ?_, ?_, ?_, rfl, ?_⟩ <;> (simp only; split <;> rfl)
  · refine ⟨rfl, rfl, ?_, ?_, ?_, ⟨rfl, rfl, rfl, rfl, rfl, rfl⟩, rfl, rfl, rfl, rfl, rfl⟩
    · simp only
      rw [markFault_frame]
    · simp only
      rw [markFault_frame]
    · intro k _
      simp only
      rw [markFault_frame]

theorem walks_brokenChainAt (v : View) (i : Nat) : Walks v (brokenChainAt v i) := walks_takeTrap v _

theorem walks_endGroup (v : View) : Walks v (endGroup v) := by
  simp only [endGroup]
  split
  · exact ⟨rfl, rfl, rfl, by simp, fun k hk => getElem?_listSet_ne _ _ _ _ hk, ⟨rfl, rfl, rfl, rfl, rfl, rfl⟩, rfl, rfl, rfl, rfl, rfl⟩
  · exact ⟨rfl, rfl, rfl, by simp, fun k hk => getElem?_listSet_ne _ _ _ _ hk, ⟨rfl, rfl, rfl, rfl, rfl, rfl⟩, rfl, rfl, rfl, rfl, rfl⟩

theorem walks_pushFrame (v : View) (r : Nat) : Walks v (pushFrame v r).2 := Walks.ofG v _ ⟨rfl, rfl, rfl, rfl, rfl, rfl⟩ rfl

theorem sameRegisters_popFrame (g : Group) : SameRegisters (popFrame g).2 g := ⟨rfl, rfl, rfl, rfl, rfl, rfl⟩

/-- Everything a walk can do, where no acquire is waited for: at an admission a group observes the handles its lanes were gated on (R186). -/
theorem walks_sweep (n : Nat) (t : Task) (v : View) (ha : v.g.acq = []) : Walks v (sweep n t v) := by
  induction n generalizing t v with
  | zero => exact Walks.refl v
  | succ n ih =>
    have go : ∀ {w : View} (t : Task), Walks v w → Walks v (sweep n t w) := fun t hw => hw.trans (ih t _ (hw.acq.trans ha))
    cases t with
    | endBlock nx run =>
      simp only [sweep]
      split
      · split
        · exact go _ ((walks_pushFrame v nx).trans (walks_bubble _))
        · exact walks_brokenChainAt v _
      · split
        · exact go _ (Walks.refl v)
        · exact go _ (Walks.refl v)
    | arrive L run =>
      simp only [sweep]
      split
      · split
        · exact go _ (walks_bubble v)
        · exact walks_brokenChainAt v _
      · split
        · split
          · exact walks_brokenChainAt v _
          · exact go _ (Walks.ofG v _ (sameRegisters_retLanes _ _) (retLanes_acq _ _))
        · have hp := walks_passMarker v
          split
          · exact hp.trans (walks_brokenChainAt _ _)
          · split
            · exact go _ (hp.trans (walks_holdLanes _ _ _ _))
            · split
              · exact go _ hp
              · exact hp.trans (walks_enterMarker _ _ _ (hp.acq.trans ha))
    | seek L =>
      simp only [sweep]
      have h0 : Walks v { bubble v with g := { (bubble v).g with active := 0 } } := Walks.ofG v _ ⟨rfl, rfl, rfl, rfl, rfl, rfl⟩ rfl
      split
      · split
        · exact h0.trans (walks_endGroup _)
        · exact go _ (h0.trans (Walks.ofG _ _ (sameRegisters_popFrame _) rfl))
      · split
        · exact go _ h0
        · split
          · exact go _ (h0.trans (Walks.ofG _ _ (sameRegisters_setTop _ _) (setTop_acq _ _)))
          · exact h0.trans (Walks.ofG _ _ ⟨rfl, rfl, rfl, rfl, rfl, rfl⟩ rfl)

theorem walks_runSweep (t : Task) (v : View) (ha : v.g.acq = []) : Walks v (runSweep t v) := walks_sweep _ t v ha

theorem walks_endBlockWith (v : View) (run : Lanes) (ha : v.g.acq = []) : Walks v (endBlockWith v run) := walks_runSweep _ v ha

theorem walks_startGroup (v : View) (ha : v.g.acq = []) : Walks v (startGroup v) :=
  (Walks.ofG v { v.g with since := v.st.clock } ⟨rfl, rfl, rfl, rfl, rfl, rfl⟩ rfl).trans (walks_runSweep _ _ ha)

/-- What starting the first `n` groups of a block leaves, where no acquire is waited for (a group starts with none, R26): the block is there
with as many groups, the later ones as they were, and differs only in its groups, its baton and its fault. -/
theorem startGroups_block (s : State) (u n : Nat) (b : Block) (hb : tget s.blocks u = some b) (ha : ∀ g ∈ b.groups, g.acq = []) :
    ∃ b', tget (startGroups s u n).blocks u = some b' ∧ b'.groups.length = b.groups.length ∧
      (∀ k, n ≤ k → b'.groups[k]? = b.groups[k]?) ∧ b' = { b with groups := b'.groups, baton := b'.baton, fault := b'.fault } := by
  induction n with
  | zero => exact ⟨b, hb, rfl, fun _ _ => rfl, rfl⟩
  | succ n ih =>
    obtain ⟨c, hc, hl, ho, he⟩ := ih
    simp only [startGroups]
    split
    · rename_i v hv
      simp only [viewAt, hc] at hv
      split at hv
      · simp at hv
      · rename_i g hg
        simp only [Option.some.injEq] at hv
        have hw := walks_startGroup v (by subst hv; exact ha g (List.mem_of_getElem? ((ho n (Nat.le_refl n)).symm.trans hg)))
        subst hv
        refine ⟨_, by simp only [flush]; rw [hw.uid]; exact tget_tput_same _ _ _, ?_, fun k hk => ?_, ?_⟩
        · simp only [listSet_length]
          rw [hw.count]; exact hl
        · simp only
          rw [getElem?_listSet_ne _ _ _ _ (by rw [hw.gid]; simp only; omega), hw.others k (by simp only; omega)]
          exact ho k (by omega)
        · have hk := hw.block
          simp only at hk ⊢
          rw [hk]
          simp only
          rw [he]
    · exact ⟨c, hc, hl, fun k hk => ho k (by omega), he⟩

end Sys2Proof.Machine
end

