-- ==== Sys2Proof/Tests/Slice0.lean ====
section
/-! SUPPORT. The model's own tests: words written out from the encodings of 02_encoding.md and the words the manual prints (R48 to R53), terms
that WellFormed refuses, a witness for the hypotheses of every obligation that has some, clause by clause at boundary values, and the
manual's worked examples. -/
section
set_option Elab.async false
open Sys2Proof Sys2Proof.Machine

/-! ### Decoding -/

theorem test_decode_sequencer :
  decode 0x0800000000000000 0 = .ok (.nop ⟨false, 0, false, 0⟩) ∧
  decode 0x08000200C8000000 0 = .ok (.wantVector ⟨false, 0, false, 0⟩ 200) ∧
  decode 0x080003010900FFFF 0 = .ok (.wants ⟨false, 0, false, 0⟩ true 9 0xFFFF) ∧
  decode 0x0800040000B00012 0 = .ok (.wanth ⟨false, 0, false, 0⟩ 11 0x12) ∧
  decode 0x0800060000000007 0 = .ok (.call ⟨false, 0, false, 0⟩ 7) ∧
  decode 0x0800070000000000 0 = .ok (.ret ⟨false, 0, false, 0⟩) ∧
  decode 0x0800080000000000 0 = .ok (.yield ⟨false, 0, false, 0⟩) := by decide +kernel

theorem test_decode_safe_point :
  decode 0xD202010000000000 0x001103000000000F = .ok (.commit ⟨true, 0, false, 0x001103000000000F⟩ .block) := by decide +kernel

theorem test_decode_spawn_launch_trap_brk :
  decode 0x0C00003500422824 0 = .ok (.spawn ⟨false, 0, false, 0⟩ 3 1 2 10 5 4 2) ∧
  decode 0x0C00014601C00000 0 = .ok (.launch ⟨false, 0, false, 0⟩ 4 6 7) ∧
  decode 0x0C00020000003FFF 0 = .ok (.trap ⟨false, 0, false, 0⟩ 0x3FFF) ∧
  decode 0x0C00030000000005 0 = .ok (.brk ⟨false, 0, false, 0⟩ 5) := by decide +kernel

theorem test_decode_handles :
  decode 0x1000003002000000 0 = .ok (.hwait ⟨false, 0, false, 0⟩ 8 3) ∧
  decode 0x1000014002400000 0 = .ok (.htest ⟨false, 0, false, 0⟩ 9 4) ∧
  decode 0x100002F000000000 0 = .ok (.hcancel ⟨false, 0, false, 0⟩ 15) ∧
  decode 0x1000036000000007 0 = .ok (.hmov ⟨false, 0, false, 0⟩ 6 7) ∧
  decode 0x10000410000000C8 0 = .ok (.waitcnt ⟨false, 0, false, 0⟩ .stores 0xC8) := by decide +kernel

theorem test_decode_barriers :
  decode 0x1400000000000DFF 0 = .ok (.barinit ⟨false, 0, false, 0⟩ 511 (.imm 3)) ∧
  decode 0x1400010405000206 0 = .ok (.bararr ⟨false, 0, false, 0⟩ 4 6 (.s 5)) ∧
  decode 0x1400020007000000 0 = .ok (.barwt ⟨false, 0, false, 0⟩ 7) ∧
  decode 0x1400030809000000 0 = .ok (.bartry ⟨false, 0, false, 0⟩ 8 9) ∧
  decode 0x1400040A00000000 0 = .ok (.phase ⟨false, 0, false, 0⟩ 10) := by decide +kernel

theorem test_decode_scalar_registers :
  decode 0x20010C0102030400 0 = .ok (.ssel ⟨false, 0, false, 0⟩ .s16 1 2 3 4) ∧
  decode 0x20040D05063F0005 0 = .ok (.scmp ⟨false, 0, false, 0⟩ .n8 5 6 63 .ge) := by decide +kernel

theorem test_decode_scalar_immediates :
  decode 0x2403000202FFFFC0 0 = .ok (.saddi ⟨false, 0, false, 0⟩ .s64 2 2 0xFFFFC0) ∧
  decode 0x240208010200005F 0 = .ok (.sshri ⟨false, 0, false, 0⟩ .s32 1 2 31 true) ∧
  decode 0x24000D03042FFFFF 0 = .ok (.scmpi ⟨false, 0, false, 0⟩ .s8 3 4 .lt 0xFFFFF) ∧
  decode 0x24070E0503000012 0 = .ok (.smovi ⟨false, 0, false, 0⟩ .n64 5 (some 2) 0x12) := by decide +kernel

theorem test_decode_scalar_moves :
  decode 0x280000033F000000 0 = .ok (.smov ⟨false, 0, false, 0⟩ 3 63) ∧
  decode 0x280001FF00000001 0 = .ok (.gets ⟨false, 0, false, 0⟩ (.v 255) 0) ∧
  decode 0x2800020006FFC000 0 = .ok (.sets ⟨false, 0, false, 0⟩ 0x3FF 6) ∧
  decode 0x28000304000001FF 0 = .ok (.sldk ⟨false, 0, false, 0⟩ 4 511) := by decide +kernel

theorem test_decode_vector_integer :
  decode 0x40A2000404050000 0 = .ok (.vadd ⟨false, 2, true, 0⟩ .s32 4 4 5) ∧
  decode 0x4007040204060800 0 = .ok (.vmad ⟨false, 0, false, 0⟩ .n64 2 4 6 8) ∧
  decode 0x4005120102030000 0 = .ok (.vsubs ⟨false, 0, false, 0⟩ .n16 1 2 3) := by decide +kernel

theorem test_decode_vector_broadcast :
  decode 0x44C2000808800004 0 = .ok (.vaddX ⟨false, 3, false, 0⟩ .s32 8 8 (.s 4)) ∧
  decode 0x4400110102400000 0 = .ok (.vaddsX ⟨false, 0, false, 0⟩ .s8 1 2 (.imm 0x400000)) := by decide +kernel

theorem test_decode_compare_and_select :
  decode 0x4808010102030700 0 = .ok (.vsel ⟨false, 0, false, 0⟩ .f32 1 2 3 7) ∧
  decode 0x4803020209000001 0 = .ok (.vmov ⟨false, 0, false, 0⟩ .s64 2 (.s 9)) := by decide +kernel

theorem test_decode_predicates :
  decode 0x4C00020102030000 0 = .ok (.pxor ⟨false, 0, false, 0⟩ 1 2 3) ∧
  decode 0x4C00050428000000 0 = .ok (.pset ⟨false, 0, false, 0⟩ 4 40) ∧
  decode 0x4C00062805000000 0 = .ok (.pcnt ⟨false, 0, false, 0⟩ 40 5) := by decide +kernel

theorem test_decode_cross_lane :
  decode 0x5006000A03000301 0 = .ok (.shfl ⟨false, 0, false, 0⟩ .n32 10 3 (.xor 1)) ∧
  decode 0x5002010304000000 0 = .ok (.rdfl ⟨false, 0, false, 0⟩ .s32 3 4) ∧
  decode 0x5007020304000001 0 = .ok (.vote ⟨false, 0, false, 0⟩ 3 4 .any) ∧
  decode 0x5008040102000008 0 = .ok (.scan ⟨false, 0, false, 0⟩ .f32 1 2 .add true) ∧
  decode 0x5008050602070000 0 = .ok (.sample ⟨false, 0, false, 0⟩ 6 2 7) := by decide +kernel

theorem test_decode_float_arithmetic :
  decode 0x6008000102030005 0 = .ok (.fadd ⟨false, 0, false, 0⟩ .f32 .rs 1 2 3) ∧
  decode 0x600A030102030402 0 = .ok (.ffma ⟨false, 0, false, 0⟩ .bf16 .rz 1 2 3 4) ∧
  decode 0x6009070102000000 0 = .ok (.fneg ⟨false, 0, false, 0⟩ .f16 1 2) := by decide +kernel

theorem test_decode_float_compare :
  decode 0x6409000203040016 0 = .ok (.fcmp ⟨false, 0, false, 0⟩ .f16 2 3 4 .un true) ∧
  decode 0x6408010506000000 0 = .ok (.fclass ⟨false, 0, false, 0⟩ .f32 5 6) := by decide +kernel

/-- R138's bounds, worked by hand from 2^(1/2) = 1.41421356…, sin 1 = 0.84147098…: the nearest FP32 values lie within them, values
some 16 units away do not; 2^3 is exact and FP16's 2^0.5 may be off by one unit but not by two. -/
theorem test_special_function_bounds :
    let h : Dy := { neg := false, m := 1, e := -1 }
    let o : Dy := { neg := false, m := 1, e := 0 }
    nearFix (fmtOf .f32) 0x3FB504F3 (exp2Fix (dyFix h)) (boundFix (fmtOf .f32) 3 false h (exp2Fix (dyFix h))) = true ∧
    nearFix (fmtOf .f32) 0x3FB50503 (exp2Fix (dyFix h)) (boundFix (fmtOf .f32) 3 false h (exp2Fix (dyFix h))) = false ∧
    nearFix (fmtOf .f32) 0x3F576AA4 (sinFix (dyFix o)) (boundFix (fmtOf .f32) 5 false o (sinFix (dyFix o))) = true ∧
    nearFix (fmtOf .f32) 0x3F576AB4 (sinFix (dyFix o)) (boundFix (fmtOf .f32) 5 false o (sinFix (dyFix o))) = false ∧
    nearFix (fmtOf .f16) 0x3DA9 (exp2Fix (dyFix h)) (boundFix (fmtOf .f16) 3 true h (exp2Fix (dyFix h))) = true ∧
    nearFix (fmtOf .f16) 0x3DAA (exp2Fix (dyFix h)) (boundFix (fmtOf .f16) 3 true h (exp2Fix (dyFix h))) = false ∧
    fexp2F (fmtOf .f32) false 0x40400000 = (0x41000000, 0) := by decide +kernel

theorem test_decode_special_functions :
  decode 0x6808000102000000 0 = .ok (.frcp ⟨false, 0, false, 0⟩ .f32 1 2) ∧
  decode 0x6809020102000001 0 = .ok (.fsqrt ⟨false, 0, false, 0⟩ .f16 .rn 1 2) ∧
  decode 0x6808070102000000 0 = .ok (.ftanh ⟨false, 0, false, 0⟩ .f32 1 2) := by decide +kernel

theorem test_decode_float_status :
  decode 0x6C0000090000003F 0 = .ok (.fstat ⟨false, 0, false, 0⟩ 9 0x3F) ∧
  decode 0x6C00010900000004 0 = .ok (.fmode ⟨false, 0, false, 0⟩ 9 4) := by decide +kernel

theorem test_decode_conversions :
  decode 0x800800010200610B 0 = .ok (.cvt ⟨false, 0, false, 0⟩ .f32 .e4m3 .rn 1 2 0 3) ∧
  decode 0x800A010202000803 0 = .ok (.cvtsr ⟨false, 0, false, 0⟩ .bf16 .s64 2 2 1 0) := by decide +kernel

theorem test_decode_block_formats :
  decode 0x840A0003F000000D 0 = .ok (.qscale ⟨false, 0, false, 0⟩ .bf16 3 240 1 .hyb) ∧
  decode 0x840801FC08050E0D 0 = .ok (.qpack ⟨false, 0, false, 0⟩ .f32 .rp 252 8 5 2) ∧
  decode 0x840D02E004050308 0 = .ok (.qunpk ⟨false, 0, false, 0⟩ .f32 224 4 5 3) ∧
  decode 0x840F030204000000 0 = .ok (.plane ⟨false, 0, false, 0⟩ .i2 2 4) := by decide +kernel

theorem test_decode_scratchpad :
  decode 0xA00400042090FFF0 0 = .ok (.lds ⟨false, 0, false, 0⟩ .w128 4 2 (.v 9) 0xFFF0) ∧
  decode 0xA000010420980000 0 = .ok (.sts ⟨false, 0, false, 0⟩ .w8 4 2 (.s 9) 0) ∧
  decode 0xA005000710040020 0 = .ok (.lds ⟨false, 0, false, 0⟩ .wcap 7 1 .none 32) := by decide +kernel

theorem test_decode_scratchpad_atomics :
  decode 0xA401040420900000 0 = .ok (.atomsMin ⟨false, 0, false, 0⟩ .group 4 2 (.v 9) 0) ∧
  decode 0xA402070630040008 0 = .ok (.atomsCas ⟨false, 0, false, 0⟩ .block 6 3 .none 8) := by decide +kernel

theorem test_decode_tag_table :
  decode 0xA800000300480000 0 = .ok (.taglk ⟨false, 0, false, 0⟩ (.s 3 4)) ∧
  decode 0xA800000300400000 0 = .ok (.taglk ⟨false, 0, false, 0⟩ (.v 3 4)) ∧
  decode 0xA800010500680000 0 = .ok (.tagset ⟨false, 0, false, 0⟩ 5 6) ∧
  decode 0xA800020700040000 0 = .ok (.taginv ⟨false, 0, false, 0⟩ 7) := by decide +kernel

theorem test_decode_capabilities :
  decode 0xB00000012038FFF0 0 = .ok (.capld ⟨false, 0, false, 0⟩ 1 2 (.s 3) 0xFFF0) ∧
  decode 0xB000020123E80000 0 = .ok (.capsub ⟨false, 0, false, 0⟩ 1 2 62) ∧
  decode 0xB0000301200400FE 0 = .ok (.capperm ⟨false, 0, false, 0⟩ 1 2 0xFE) ∧
  decode 0xB000042820040005 0 = .ok (.capget ⟨false, 0, false, 0⟩ 40 2 5) ∧
  decode 0xB000052820380000 0 = .ok (.capoff ⟨false, 0, false, 0⟩ 40 2 3) := by decide +kernel

theorem test_decode_copy_engine :
  decode 0xC006001231051801 0 = .ok (.copy ⟨false, 0, false, 0⟩ .n32 1 2 3 4 5 6 true false) ∧
  decode 0xC0040112310518C8 0 = .ok (.gather ⟨false, 0, false, 0⟩ .n8 1 2 3 4 5 6 200) := by decide +kernel

theorem test_decode_queue_streams :
  decode 0xC409000201051807 0 = .ok (.qld ⟨false, 0, false, 0⟩ .f16 7 2 4 5 6) ∧
  decode 0xC400020000000003 0 = .ok (.qclose ⟨false, 0, false, 0⟩ 3) ∧
  decode 0xC400030000000053 0 = .ok (.qres ⟨false, 0, false, 0⟩ 5 3) := by decide +kernel

theorem test_decode_residency :
  decode 0xC800002301050000 0 = .ok (.pagereq ⟨false, 0, false, 0⟩ 2 (.range 3 4 5)) := by decide +kernel

theorem test_decode_global_atomics :
  decode 0xCC06041200C4000D 0 = .ok (.atomgMin ⟨false, 0, false, 0⟩ .pkg 1 4 2 3 true true true) ∧
  decode 0xCC02071200C41400 0 = .ok (.atomgCas ⟨false, 0, false, 0⟩ .block 1 4 2 3 5 false false false) ∧
  decode 0xCC0A081200C40008 0 = .ok (.atomgFadd ⟨false, 0, false, 0⟩ .sys 1 4 2 3 true) := by decide +kernel

theorem test_decode_ordering :
  decode 0xD00A000000000001 0 = .ok (.fence ⟨false, 0, false, 0⟩ .sys .acq) ∧
  decode 0xD002000000000003 0 = .ok (.fence ⟨false, 0, false, 0⟩ .block .acqrel) := by decide +kernel

theorem test_decode_stage_queues :
  decode 0xD400001000830004 0 = .ok (.enq ⟨false, 0, false, 0⟩ 1 2 3 4) ∧
  decode 0xD400010000830000 0 = .ok (.deq ⟨false, 0, false, 0⟩ 2 3) := by decide +kernel

theorem test_decode_matrix :
  decode 0xE00E001200C41436 0 = .ok (.mma ⟨false, 0, false, 0⟩ .i4 1 6 2 3 4 5 2 1) ∧
  decode 0xE000010000C000C8 0 = .ok (.mtbl ⟨false, 0, false, 0⟩ 200 3) ∧
  decode 0xE000020000000000 0 = .ok (.mtblsw ⟨false, 0, false, 0⟩) ∧
  decode 0xE000030002400002 0 = .ok (.baton ⟨false, 0, false, 0⟩ (.test 9)) := by decide +kernel

theorem test_decode_names :
  decode 0xF000001201051800 0 = .ok (.fetchn ⟨false, 0, false, 0⟩ 1 2 4 5 6) ∧
  decode 0xF000021201051800 0 = .ok (.sealn ⟨false, 0, false, 0⟩ 1 2 4 5 6) ∧
  decode 0xF000041001000013 0 = .ok (.subn ⟨false, 0, false, 0⟩ 1 4 3 .final) := by decide +kernel

theorem test_decode_windows :
  decode 0xF407001200C4F800 0 = .ok (.put ⟨false, 0, false, 0⟩ .n64 1 2 3 4 62) ∧
  decode 0xF400010000C41404 0 = .ok (.wctr ⟨false, 0, false, 0⟩ 3 4 5 .subIn) ∧
  decode 0xF40D021200FD0001 0 = .ok (.ared ⟨false, 0, false, 0⟩ 1 2 3 61 .e2m1) ∧
  decode 0xF405031231051800 0 = .ok (.a2av ⟨false, 0, false, 0⟩ .n16 1 2 3 4 5 6) ∧
  decode 0xF4070400010000C8 0 = .ok (.xchg ⟨false, 0, false, 0⟩ .n64 200 4) := by decide +kernel

theorem test_decode_routing_engine :
  decode 0xF800001200C41400 0 = .ok (.sortk ⟨false, 0, false, 0⟩ 1 2 3 4 5) := by decide +kernel

theorem test_decode_system :
  decode 0xFC00000005001234 0 = .ok (.trace ⟨false, 0, false, 0⟩ 5 0x1234) ∧
  decode 0xFC00010600001307 0 = .ok (.rdctr ⟨false, 0, false, 0⟩ 6 7 (some 3)) ∧
  decode 0xFC03020100000000 0 = .ok (.icinv ⟨false, 0, false, 0⟩ .core 1) ∧
  decode 0xFC06030104000000 0 = .ok (.tlbinv ⟨false, 0, false, 0⟩ .pkg 1 (some 4)) ∧
  decode 0xFC05030100000001 0 = .ok (.tlbinv ⟨false, 0, false, 0⟩ .die 1 none) ∧
  decode 0xFC0004010200000F 0 = .ok (.prd ⟨false, 0, false, 0⟩ 1 2 15) ∧
  decode 0xFC00050102000003 0 = .ok (.pwr ⟨false, 0, false, 0⟩ 1 2 3) ∧
  decode 0xFC00060009000001 0 = .ok (.eret ⟨false, 0, false, 0⟩ (.retire 9)) ∧
  decode 0xFC00070300000001 0 = .ok (.haltb ⟨false, 0, false, 0⟩ 3 true) := by decide +kernel

theorem test_decode_printed_1 :
  decode 0x0840060000000002 0 = .ok (.call ⟨false, 1, false, 0⟩ 2) ∧
  decode 0x0860010000000004 0 = .ok (.want ⟨false, 1, true, 0⟩ 4) ∧
  decode 0x080001000000FFFF 0 = .ok (.want ⟨false, 0, false, 0⟩ 0xFFFF) ∧
  decode 0x0800070000000000 0 = .ok (.ret ⟨false, 0, false, 0⟩) ∧
  decode 0x6008030405060702 0 = .ok (.ffma ⟨false, 0, false, 0⟩ .f32 .rz 4 5 6 7) ∧
  decode 0x800800090300400B 0 = .ok (.cvt ⟨false, 0, false, 0⟩ .f32 .e4m3 .dyn 9 3 0 2) ∧
  decode 0x840801280802010D 0 = .ok (.qpack ⟨false, 0, false, 0⟩ .f32 .dyn 40 8 2 1) ∧
  decode 0xA002000820400010 0 = .ok (.lds ⟨false, 0, false, 0⟩ .w32 8 2 (.v 4) 16) ∧
  decode 0xA003010A2058FFF8 0 = .ok (.sts ⟨false, 0, false, 0⟩ .w64 10 2 (.s 5) 0xFFF8) ∧
  decode 0xC006001322092800 0 = .ok (.copy ⟨false, 0, false, 0⟩ .n32 1 3 2 8 9 10 false false) ∧
  decode 0xE00B0032028B300A 0 = .ok (.mma ⟨false, 0, false, 0⟩ .e4m3 3 2 2 10 11 12 1 0) ∧
  decode 0x840D031428000000 0 = .ok (.plane ⟨false, 0, false, 0⟩ .q4 20 40) ∧
  decode 0xE000030000000000 0 = .ok (.baton ⟨false, 0, false, 0⟩ .take) := by decide +kernel

theorem test_decode_printed_2 :
  decode 0xF000001207A08400 0 = .ok (.fetchn ⟨false, 0, false, 0⟩ 1 2 30 32 33) ∧
  decode 0xF000012205165C00 0 = .ok (.pubn ⟨false, 0, false, 0⟩ 2 2 20 22 23) ∧
  decode 0xF000044005000001 0 = .ok (.subn ⟨false, 0, false, 0⟩ 4 20 1 .restart) ∧
  decode 0x4406050501000001 0 = .ok (.vandX ⟨false, 0, false, 0⟩ .n32 5 1 (.imm 1)) ∧
  decode 0x44060A0101000001 0 = .ok (.vshrX ⟨false, 0, false, 0⟩ .n32 1 1 (.imm 1)) ∧
  decode 0x0A00010000000001 0x0012030000000001 = .ok (.want ⟨true, 0, false, 0x0012030000000001⟩ 1) ∧
  decode 0xC409000000080C00 0 = .ok (.qld ⟨false, 0, false, 0⟩ .f16 0 0 0 8 3) ∧
  decode 0xC4090100008B0C01 0 = .ok (.qst ⟨false, 0, false, 0⟩ .f16 1 0 2 11 3) ∧
  decode 0x480602030A000001 0 = .ok (.vmov ⟨false, 0, false, 0⟩ .n32 3 (.s 10)) ∧
  decode 0x48460201F8000000 0 = .ok (.vmov ⟨false, 1, false, 0⟩ .n32 1 (.v 248)) ∧
  decode 0x0A00030009000001 0x0003030300000001 = .ok (.wants ⟨true, 0, false, 0x0003030300000001⟩ false 9 1) ∧
  decode 0x1000049000000000 0 = .ok (.waitcnt ⟨false, 0, false, 0⟩ (.queue 1) 0) ∧
  decode 0x5066011501000000 0 = .ok (.rdfl ⟨false, 1, true, 0⟩ .n32 21 1) := by decide +kernel

theorem test_decode_printed_3 :
  decode 0xA102000810700004 0 = .ok (.lds ⟨false, 4, false, 0⟩ .w32 8 1 (.v 7) 4) ∧
  decode 0x4C00061601000000 0 = .ok (.pcnt ⟨false, 0, false, 0⟩ 22 1) ∧
  decode 0x1400011516000200 0 = .ok (.bararr ⟨false, 0, false, 0⟩ 21 0 (.s 22)) ∧
  decode 0xA4C2080E10A00000 0 = .ok (.atomsFadd ⟨false, 3, false, 0⟩ .block 14 1 (.v 10) 0) ∧
  decode 0xC00B0010100E4002 0 = .ok (.copy ⟨false, 0, false, 0⟩ .e4m3 1 0 1 0 14 16 false true) ∧
  decode 0xF0000261029B7400 0 = .ok (.sealn ⟨false, 0, false, 0⟩ 6 1 10 27 29) ∧
  decode 0xD400010002090000 0 = .ok (.deq ⟨false, 0, false, 0⟩ 8 9) ∧
  decode 0xE000010006000001 0 = .ok (.mtbl ⟨false, 0, false, 0⟩ 1 24) ∧
  decode 0xA004004010002000 0 = .ok (.lds ⟨false, 0, false, 0⟩ .w128 64 1 (.v 0) 0x2000) ∧
  decode 0xF000036002800000 0 = .ok (.stopref ⟨false, 0, false, 0⟩ 6 10) ∧
  decode 0xCC060670015E0001 0 = .ok (.atomgExch ⟨false, 0, false, 0⟩ .pkg 7 30 0 5 true false false) ∧
  decode 0xFC06020200000000 0 = .ok (.icinv ⟨false, 0, false, 0⟩ .pkg 2) ∧
  decode 0xFC06030308000000 0 = .ok (.tlbinv ⟨false, 0, false, 0⟩ .pkg 3 (some 8)) := by decide +kernel

theorem test_decode_printed_4 :
  decode 0xFC00040406000002 0 = .ok (.prd ⟨false, 0, false, 0⟩ 4 6 2) ∧
  decode 0xFC00050906000002 0 = .ok (.pwr ⟨false, 0, false, 0⟩ 9 6 2) ∧
  decode 0xFC00060005000001 0 = .ok (.eret ⟨false, 0, false, 0⟩ (.retire 5)) ∧
  decode 0xFC00070100000001 0 = .ok (.haltb ⟨false, 0, false, 0⟩ 1 true) ∧
  decode 0x5006000201000202 0 = .ok (.shfl ⟨false, 0, false, 0⟩ .n32 2 1 (.down 2)) ∧
  decode 0x6008020202030000 0 = .ok (.fmul ⟨false, 0, false, 0⟩ .f32 .dyn 2 2 3) ∧
  decode 0x5008030A07000002 0 = .ok (.reduce ⟨false, 0, false, 0⟩ .f32 10 7 .max) ∧
  decode 0x6408000104050005 0 = .ok (.fcmp ⟨false, 0, false, 0⟩ .f32 1 4 5 .ge false) ∧
  decode 0x5007020B01000001 0 = .ok (.vote ⟨false, 0, false, 0⟩ 11 1 .any) ∧
  decode 0xFC00000005000012 0 = .ok (.trace ⟨false, 0, false, 0⟩ 5 0x12) ∧
  decode 0xFC00010700000003 0 = .ok (.rdctr ⟨false, 0, false, 0⟩ 7 3 none) ∧
  decode 0x0800020002000000 0 = .ok (.wantVector ⟨false, 0, false, 0⟩ 2) := by decide +kernel

/-! ### Ill-formed instructions -/

theorem test_refused_header : ∀ i ∈ (
    [.nop ⟨false, 0, true, 0⟩, .nop ⟨false, 0, false, 1⟩, .nop ⟨true, 0, false, 0x0100000000000000⟩] : List Instr), WellFormed i = false := by decide

theorem test_refused_events : ∀ i ∈ (
    [.endBlock, .restore 1, .status 0] : List Instr), WellFormed i = false := by decide

theorem test_refused_control : ∀ i ∈ (
    [.want ⟨false, 0, false, 0⟩ 0xFFFE, .wants ⟨false, 0, false, 0⟩ false 1 0xFFFE, .wanth ⟨false, 0, false, 0⟩ 1 0xFFFE, .call ⟨false, 0, false,
      0⟩ 0xFFFE, .spawn ⟨false, 0, false, 0⟩ 1 2 3 50 0 15 0, .spawn ⟨false, 0, false, 0⟩ 1 2 3 0 8 0 9, .spawn ⟨false, 0, false, 0⟩ 1 2 3 0 15 0
      2, .spawn ⟨false, 0, false, 0⟩ 1 2 3 4 0 0 0, .spawn ⟨false, 0, false, 0⟩ 1 2 3 0 4 0 0, .barinit ⟨false, 0, false, 0⟩ 1 (.imm 0), .bararr
      ⟨false, 0, false, 0⟩ 1 1 (.imm 0)] : List Instr), WellFormed i = false := by decide

theorem test_refused_scalar : ∀ i ∈ (
    [.sadd ⟨false, 0, false, 0⟩ .f32 1 2 3, .ssub ⟨false, 0, false, 0⟩ .q4 1 2 3, .ssel ⟨false, 0, false, 0⟩ .bf16 1 2 3 4, .scmp ⟨false, 0,
      false, 0⟩ .f16 1 2 3 .eq, .saddi ⟨false, 0, false, 0⟩ .f32 1 2 3, .sshli ⟨false, 0, false, 0⟩ .f32 1 2 3, .sshri ⟨false, 0, false, 0⟩ .i2 1
      2 3 true, .scmpi ⟨false, 0, false, 0⟩ .f32 1 2 .eq 0, .smovi ⟨false, 0, false, 0⟩ .f32 1 none 0, .smovi ⟨false, 0, false, 0⟩ .s64 1 (some 0)
      0, .smovi ⟨false, 0, false, 0⟩ .n64 1 (some 0) 0x10000] : List Instr), WellFormed i = false := by decide

theorem test_refused_vector : ∀ i ∈ (
    [.vadd ⟨false, 0, false, 0⟩ .f32 2 4 6, .vadd ⟨false, 0, false, 0⟩ .s64 1 4 6, .vsub ⟨false, 0, false, 0⟩ .s64 2 5 6, .vmul ⟨false, 0, false,
      0⟩ .n64 2 4 7, .vmad ⟨false, 0, false, 0⟩ .n64 2 4 6 9, .vnot ⟨false, 0, false, 0⟩ .s64 2 3, .vabs ⟨false, 0, false, 0⟩ .n32 1 2, .vaddX
      ⟨false, 0, false, 0⟩ .s64 3 4 (.imm 0), .vaddX ⟨false, 0, false, 0⟩ .e4m3 3 4 (.imm 0), .vcmp ⟨false, 0, false, 0⟩ .f32 1 2 3 .eq, .vcmp
      ⟨false, 0, false, 0⟩ .s64 1 3 4 .eq, .vsel ⟨false, 0, false, 0⟩ .s8 1 2 3 4, .vsel ⟨false, 0, false, 0⟩ .n64 1 2 4 4, .vmov ⟨false, 0,
      false, 0⟩ .f16 1 (.v 2), .vmov ⟨false, 0, false, 0⟩ .s64 2 (.v 3)] : List Instr), WellFormed i = false := by decide

theorem test_refused_cross_lane : ∀ i ∈ (
    [.shfl ⟨false, 0, false, 0⟩ .s8 1 2 (.up 1), .shfl ⟨false, 0, false, 0⟩ .n64 2 4 (.idx 3), .rdfl ⟨false, 0, false, 0⟩ .f16 1 2, .rdfl ⟨false,
      0, false, 0⟩ .s64 1 3, .reduce ⟨false, 0, false, 0⟩ .f32 1 2 .xor, .reduce ⟨false, 0, false, 0⟩ .f16 1 2 .add, .reduce ⟨false, 0, false, 0⟩
      .s64 1 3 .add, .scan ⟨false, 0, false, 0⟩ .f32 1 2 .and false, .scan ⟨false, 0, false, 0⟩ .s64 3 2 .add false] : List Instr), WellFormed i = false := by decide

theorem test_refused_float : ∀ i ∈ (
    [.fadd ⟨false, 0, false, 0⟩ .s32 .rn 1 2 3, .ffma ⟨false, 0, false, 0⟩ .e4m3 .rn 1 2 3 4, .fmin ⟨false, 0, false, 0⟩ .e5m2 1 2 3, .fabs
      ⟨false, 0, false, 0⟩ .n32 1 2, .fcmp ⟨false, 0, false, 0⟩ .f32 1 2 3 .eq true, .fcmp ⟨false, 0, false, 0⟩ .s32 1 2 3 .eq false, .fclass
      ⟨false, 0, false, 0⟩ .q4 1 2, .frcp ⟨false, 0, false, 0⟩ .bf16 1 2, .fsqrt ⟨false, 0, false, 0⟩ .bf16 .rn 1 2, .fmode ⟨false, 0, false, 0⟩ 1
      5] : List Instr), WellFormed i = false := by decide

theorem test_refused_conversion : ∀ i ∈ (
    [.cvt ⟨false, 0, false, 0⟩ .q4 .s8 .rn 1 2 0 0, .cvt ⟨false, 0, false, 0⟩ .s8 .i4 .rn 1 2 0 0, .cvt ⟨false, 0, false, 0⟩ .f32 .f32 .rn 1 2 0
      0, .cvt ⟨false, 0, false, 0⟩ .f16 .f32 .rn 1 2 2 0, .cvt ⟨false, 0, false, 0⟩ .f32 .f16 .rn 1 2 0 2, .cvt ⟨false, 0, false, 0⟩ .f32 .s32 .rn
      1 2 1 0, .cvtsr ⟨false, 0, false, 0⟩ .s64 .f32 1 3 0 0, .cvtsr ⟨false, 0, false, 0⟩ .f32 .s64 1 2 0 0, .qscale ⟨false, 0, false, 0⟩ .f16 1 8
      0 .int, .qscale ⟨false, 0, false, 0⟩ .f32 1 4 0 .int, .qscale ⟨false, 0, false, 0⟩ .f32 1 232 0 .int, .qpack ⟨false, 0, false, 0⟩ .f32 .rn 2
      8 1 0, .qpack ⟨false, 0, false, 0⟩ .bf16 .rn 4 4 1 0, .qpack ⟨false, 0, false, 0⟩ .f32 .rn 4 232 1 0, .qunpk ⟨false, 0, false, 0⟩ .f32 4 4 1
      0, .qunpk ⟨false, 0, false, 0⟩ .f32 8 2 1 0, .qunpk ⟨false, 0, false, 0⟩ .f32 232 4 1 0, .plane ⟨false, 0, false, 0⟩ .f32 0 32, .plane
      ⟨false, 0, false, 0⟩ .bf16 8 16, .plane ⟨false, 0, false, 0⟩ .e4m3 8 4] : List Instr), WellFormed i = false := by decide

theorem test_refused_memory : ∀ i ∈ (
    [.lds ⟨false, 0, false, 0⟩ .w64 1 2 .none 0, .lds ⟨false, 0, false, 0⟩ .w128 2 2 .none 0, .lds ⟨false, 0, false, 0⟩ .wcap 8 2 .none 0, .sts
      ⟨false, 0, false, 0⟩ .wcap 1 2 .none 0, .sts ⟨false, 0, false, 0⟩ .w64 1 2 .none 0, .atomsAdd ⟨false, 0, false, 0⟩ .core 1 2 .none 0,
      .atomsCas ⟨false, 0, false, 0⟩ .block 1 2 .none 0, .atomsFadd ⟨false, 0, false, 0⟩ .lane 1 2 .none 0, .taglk ⟨false, 0, false, 0⟩ (.v 1 3),
      .capsub ⟨false, 0, false, 0⟩ 1 2 63, .capget ⟨false, 0, false, 0⟩ 1 2 6] : List Instr), WellFormed i = false := by decide

theorem test_refused_engines : ∀ i ∈ (
    [.copy ⟨false, 0, false, 0⟩ .f32 1 2 3 4 5 6 false false, .copy ⟨false, 0, false, 0⟩ .bf16 1 2 3 4 5 6 true true, .copy ⟨false, 0, false, 0⟩
      .n8 1 2 3 4 5 6 false true, .gather ⟨false, 0, false, 0⟩ .s32 1 2 3 4 5 6 7, .scatter ⟨false, 0, false, 0⟩ .f32 1 2 3 4 5 6 7, .qld ⟨false,
      0, false, 0⟩ .s64 1 2 3 4 5, .qst ⟨false, 0, false, 0⟩ .q4 1 2 3 4 5, .atomgAdd ⟨false, 0, false, 0⟩ .group 1 2 3 4 false false false,
      .atomgCas ⟨false, 0, false, 0⟩ .lane 1 2 3 4 5 false false false, .atomgFadd ⟨false, 0, false, 0⟩ .group 1 2 3 4 false, .fence ⟨false, 0,
      false, 0⟩ .core .rel, .fence ⟨false, 0, false, 0⟩ .die .acqrel, .commit ⟨false, 0, false, 0⟩ .group, .mma ⟨false, 0, false, 0⟩ .f32 1 0 1 2
      3 4 0 0, .mma ⟨false, 0, false, 0⟩ .q4 1 7 1 2 3 4 0 0, .mma ⟨false, 0, false, 0⟩ .q4 1 0 1 2 3 63 0 0] : List Instr), WellFormed i = false := by decide

theorem test_refused_collectives_and_system : ∀ i ∈ (
    [.put ⟨false, 0, false, 0⟩ .f32 1 2 3 4 5, .put ⟨false, 0, false, 0⟩ .n8 1 2 3 4 63, .ared ⟨false, 0, false, 0⟩ 1 2 3 62 .int, .a2av ⟨false,
      0, false, 0⟩ .s8 1 2 3 4 5 6, .a2av ⟨false, 0, false, 0⟩ .n8 1 2 3 4 5 63, .xchg ⟨false, 0, false, 0⟩ .s32 1 2, .sortk ⟨false, 0, false, 0⟩
      1 2 63 4 5, .sortk ⟨false, 0, false, 0⟩ 1 2 3 63 5, .icinv ⟨false, 0, false, 0⟩ .block 1, .tlbinv ⟨false, 0, false, 0⟩ .host 1 none] : List Instr), WellFormed i = false := by decide

/-! ### Small states for tests and witnesses: one group of 256 rows on core 0 with every register written -/

abbrev h0 : Hdr := ⟨false, 0, false, 0⟩
abbrev hS : Hdr := ⟨true, 0, false, 0x00FFFFFFFFFFFFFF⟩

/-- A tagged capability with every permission. -/
def capT (space base limit : Nat) : Cap := { bits := BitVec.ofNat 128 (base * 2 ^ 80 + limit * 2 ^ 32 + 0xFE * 2 ^ 24 + space * 2 ^ 20), tag := true }

def gT : Group :=
  { fetchGroup with
    s := (List.range 64).map (fun i => (i, BitVec.ofNat 64 i))
    v := (List.range 256).map (fun i => (i, rowOf (fun l => BitVec.ofNat 32 (4 * l))))
    p := (List.range 7).map (fun i => (i + 1, 0xF0F0#64))
    c := (List.range 16).map (fun i => (i, if i < 8 then capT 1 0 65536 else capT 0 0x10000 0x30000))
    h := [(2, .complete 0x12 0 [])] }

def bW (k : Block → Block) (f : Group → Group) : Block := k { fetchBlock 1 with groups := [f gT] }
def stW (k : Block → Block) (w : State → State) (f : Group → Group) : State :=
  w { State.reset.withFetchWord 64 0 with cur := some (1, 0), blocks := [(1, bW k f)] }
def viW (k : Block → Block) (w : State → State) (f : Group → Group) : View := { st := stW k w f, uid := 1, gid := 0, b := bW k f, g := f gT }

def readyB (ops : List Opd) (v : View) : Bool :=
  (step6 v [] ops).isNone && !ops.any (waitsHandle v) && !ops.any (waitsMatrix v) && !ops.any (voidSource v) && (queueHold v [] ops).isNone &&
    !v.g.acq.any (fun k => ops.any (namesS (k / 64)))

theorem ready_of {ops : List Opd} {v : View} (h : readyB ops v = true) : OperandsReady ops v := by
  simp only [readyB, Bool.and_eq_true, Bool.not_eq_true', Option.isNone_iff_eq_none] at h
  exact ⟨h.1.1.1.1.1, h.1.1.1.1.2, h.1.1.1.2, h.1.1.2, h.1.2, h.2⟩

theorem ready_all {L : List (List Opd)} {v : View} (h : L.all (fun o => readyB o v) = true) : ∀ ops ∈ L, OperandsReady ops v :=
  fun ops ho => ready_of (List.all_eq_true.1 h ops ho)

theorem view_of {s : State} {u k : Nat} {b : Block} {g : Group} (hb : tget s.blocks u = some b) (hg : b.groups[k]? = some g) :
    viewAt s u k = some { st := s, uid := u, gid := k, b := b, g := g } := by
  simp [viewAt, hb, hg]

theorem issues_of {h : Hdr} {k : Block → Block} {w : State → State} {f : Group → Group} (hc : (stW k w f).cur = some (1, 0))
    (hb : tget (stW k w f).blocks 1 = some (bW k f)) (hg : (bW k f).groups[0]? = some (f gT))
    (hp : h.psel = 0 ∨ thas (f gT).p h.psel.toNat = true) (he : (execOf h (f gT) == 0) = false) : Issues h (stW k w f) (viW k w f) :=
  ⟨by simp only [currentView, hc, view_of hb hg, viW], hp, by simpa [viW] using he⟩

abbrev sT : State := stW id id id
abbrev vT : View := viW id id id
theorem issuesT : Issues h0 sT vT := issues_of rfl rfl rfl (.inl rfl) (by decide +kernel)

/-! ### Witnesses: concrete states and operands that meet the hypotheses of each statement -/

/-- The state in which the next step fetches `w`, and the view of its group at its turn. -/
def sF (w : Nat) : State := State.reset.withFetchWord 64 w
def vF (w : Nat) : View := { st := { sF w with cur := some (1, 0) }, uid := 1, gid := 0, b := fetchBlock 1, g := fetchGroup }

theorem test_witness_StepRunsDecodedInstruction :
    let v := vF 0x0800050000000000
    let s := sF 0x0800050000000000
    s.agenda = [] ∧ nextIssuer s = some (1, 0) ∧ viewAt { s with cur := some (1, 0) } 1 0 = some v ∧ v.g.emul = none ∧
      v.g.owed = false ∧ atBlockEnd v = false ∧ chainBroken v = false ∧ posIdx v = some 1 ∧
      decode ((wordsOf v.st v.b v.g).getD 1 0) ((wordsOf v.st v.b v.g).getD 2 0) = .ok (.exit h0) :=
  ⟨rfl, by decide +kernel, rfl, rfl, rfl, by decide +kernel, by decide +kernel, by decide +kernel, by decide +kernel⟩

theorem test_witness_IllegalWordTrapsWithoutEffect :
    let v := vF 0
    let s := sF 0
    s.agenda = [] ∧ nextIssuer s = some (1, 0) ∧ viewAt { s with cur := some (1, 0) } 1 0 = some v ∧ v.g.emul = none ∧
      v.g.owed = false ∧ atBlockEnd v = false ∧ chainBroken v = false ∧ posIdx v = some 1 ∧ isHandler v = false ∧
      ∃ e, decode ((wordsOf v.st v.b v.g).getD 1 0) ((wordsOf v.st v.b v.g).getD 2 0) = .error e ∧ rejectStep e = 1 :=
  ⟨rfl, by decide +kernel, rfl, rfl, rfl, by decide +kernel, by decide +kernel, by decide +kernel, by decide +kernel, _, rfl, by decide +kernel⟩

theorem test_witness_EncodedInstructionsDecodeBack :
    WellFormed (.commit hS .sys) = true ∧ WellFormed (.plane h0 .bf16 240 240) = true ∧ WellFormed (.spawn h0 15 63 63 49 8 15 8) = true := by
  decide

theorem test_witness_AcceptedWordsCarryNoOtherBit :
    decode 0xFC00010700001103 0 = .ok (.rdctr h0 7 3 (some 1)) ∧ wSafe 0xFC00010700001103 = false ∧
      decode 0xD202010000000000 0x00FFFFFFFFFFFFFF = .ok (.commit hS .block) ∧ wSafe 0xD202010000000000 = true := by
  decide +kernel

theorem test_witness_MemoryStaysCanonical :
    MemoryCanonical { State.reset with cellar := [(5, 1)] } ∧ step { State.reset with cellar := [(5, 1)] } = .next (tick { State.reset with cellar := [(5, 1)] }) :=
  ⟨⟨by decide, by decide⟩, by rfl⟩

theorem test_witness_PredicateAndPrivilegeChecks :
    currentView (stW id id (fun g => { g with p := [] })) = some (viW id id (fun g => { g with p := [] })) ∧
    thas (viW id id (fun g => { g with p := [] })).g.p 7 = false ∧ isHandler vT = false ∧ (0x100 : BitVec 10).toNat = 0x100 ∧
    currentView (stW id id (fun g => { g with active := 0 })) = some (viW id id (fun g => { g with active := 0 })) ∧
    execOf h0 (viW id id (fun g => { g with active := 0 })).g = 0 ∧ Issues h0 sT vT :=
  ⟨rfl, by decide +kernel, by decide +kernel, rfl, rfl, by decide +kernel, issuesT⟩

theorem test_witness_CompletingMovesPastTheWord :
    vT.g.active ≠ 0 ∧ trapFlag (0x3F &&& vT.g.ftrap) = none ∧ vT.g.ctrs.length = 20 := by decide +kernel

theorem test_witness_EnabledFlagTrapsAfterTheInstruction :
    let v := viW id id (fun g => { g with ftrap := 0x21 })
    (0x3F &&& v.g.ftrap).getLsbD 0 = true ∧ (0x20 &&& v.g.ftrap).getLsbD 5 = true ∧ (∀ m < 5, (0x20 &&& v.g.ftrap).getLsbD m = false) ∧
      isHandler (endIfEmpty (retire h0 v 0x20)) = false ∧ (endIfEmpty (retire h0 v 0x20)).b.fault = none ∧
      (endIfEmpty (retire h0 v 0x20)).b.ending = none := by decide +kernel

theorem test_witness_ScalarArithmeticResults : tyInt .s8 = true ∧ tyInt .n64 = true ∧ Issues h0 sT vT ∧
    ∀ ops ∈ [[ssrc 63, ssrc 0, sdst 63], [ssrc 0, sdst 63], [sdst 0], [.s 63 1 true true]], OperandsReady ops vT :=
  ⟨rfl, rfl, issuesT, ready_all (by decide +kernel)⟩

theorem test_witness_ScalarSelectAndCompareResults : tyInt .s8 = true ∧ Issues h0 sT vT ∧ readS vT.g 0 = 0 ∧ readS vT.g 1 ≠ 0 ∧
    ∀ ops ∈ [[ssrc 63, ssrc 1, ssrc 0, sdst 63], [ssrc 1, ssrc 2, sdst 3], [ssrc 1, sdst 2]], OperandsReady ops vT :=
  ⟨rfl, issuesT, by decide +kernel, by decide +kernel, ready_all (by decide +kernel)⟩

/-- With q0 armed as a load queue of one entry, which is buffered, and q1 as a store queue of two. -/
def qF (g : Group) : Group :=
  { g with q := [(0, { load := true, ty := .n32, base := 0x10000, stride := 4, n := 64, pos := 0, fetched := 1,
                       buf := [{ data := rowOf (fun l => BitVec.ofNat 32 l), resid := 5, left := 0 }], resid := 2, label := 0, offset := 1,
                       frame := 0, sweeps := 0, mask := allLanes }),
                 (1, { load := false, ty := .n32, base := 0x20000, stride := -4, n := 65, pos := 0, fetched := 0, buf := [], resid := 0,
                       label := 0, offset := 1, frame := 0, sweeps := 0, mask := allLanes })] }

theorem test_witness_VectorArithmeticResults : tyInt .s8 = true ∧ tyInt .n64 = true ∧ Issues h0 sT vT ∧
    (∀ ops ∈ [[vsrc .s8 0, vsrc .s8 255, vdst .s8 255], [vsrc .n64 0, vsrc .n64 254, vdst .n64 254], [vsrc .s8 1] ++ vimmOps (.s 63) ++ [vdst .s8 1],
      [vsrc .n64 2] ++ vimmOps (.imm 0x400000) ++ [vdst .n64 2]], OperandsReady ops vT) ∧
    Issues h0 (stW id id qF) (viW id id qF) ∧ OperandsReady [vsrc .n32 248, vsrc .n32 0, vdst .n32 249] (viW id id qF) :=
  ⟨rfl, rfl, issuesT, ready_all (by decide +kernel), issues_of rfl rfl rfl (.inl rfl) (by decide +kernel), ready_of (by decide +kernel)⟩

theorem test_witness_SaturatingVectorResults : tyInt .s16 = true ∧
    Issues h0 (stW id id (fun g => { g with ftrap := 0x20 })) (viW id id (fun g => { g with ftrap := 0x20 })) ∧
    ∀ ops ∈ [[vsrc .s16 0, vsrc .s16 1, vdst .s16 2], [vsrc .s16 0] ++ vimmOps (.s 1) ++ [vdst .s16 2]],
      OperandsReady ops (viW id id (fun g => { g with ftrap := 0x20 })) :=
  ⟨rfl, issues_of rfl rfl rfl (.inl rfl) (by decide +kernel), ready_all (by decide +kernel)⟩

theorem test_witness_VectorUnaryResults : tyInt .s64 = true ∧ Issues h0 sT vT ∧
    ∀ ops ∈ [[vsrc .s64 0, vsrc .s64 2, vsrc .s64 4, vdst .s64 0], [vsrc .s64 254, vdst .s64 254]], OperandsReady ops vT :=
  ⟨rfl, issuesT, ready_all (by decide +kernel)⟩

theorem test_witness_VectorSelectAndMoveResults : Issues h0 sT vT ∧
    ∀ ops ∈ [[vsrc .f32 0, vsrc .f32 1, .p 7, vdst .f32 2], [vsrc .s64 0, vdst .s64 254], [ssrc 63, vdst .n32 9], [vsrc .s32 4, vsrc .s32 5]],
      OperandsReady ops vT :=
  ⟨issuesT, ready_all (by decide +kernel)⟩

theorem test_witness_WritingAVectorDestination :
    armed vT.g 255 = none ∧ armed vT.g 254 = none ∧ tyBig .s64 = true ∧ tyBig .s32 = false ∧
      (armed (viW id id qF).g 249).map (fun e => e.1) = some 1 := by decide +kernel

theorem test_witness_PoppingAndClosingAQueue :
    let v := viW id id qF
    armed v.g 7 = none ∧ (∃ q e rest, armed v.g 248 = some (0, q) ∧ q.buf = e :: rest) ∧ Issues h0 (stW id id qF) v ∧ OperandsReady [] v ∧
      ∃ q, tget v.g.q (0 : QReg).toNat = some q ∧ q.load = true :=
  ⟨by decide +kernel, ⟨_, _, _, rfl, rfl⟩, issues_of rfl rfl rfl (.inl rfl) (by decide +kernel), ready_of (by decide +kernel), _, rfl, rfl⟩

theorem test_witness_PredicateInstructionResults : Issues h0 sT vT ∧
    ∀ ops ∈ [[.p 0, .p 7], [.p 1], [ssrc 63], [.p 0, sdst 0]], OperandsReady ops vT :=
  ⟨issuesT, ready_all (by decide +kernel)⟩

theorem test_witness_CrossLaneResults : Issues h0 sT vT ∧
    (∀ ops ∈ [[vsrc .n32 0, vsrc .n32 1, vdst .n32 2], [vsrc .n64 0, vdst .n64 2], [vsrc .s32 0, sdst 63], [.p 1, sdst 0], [.p 0, sdst 0]],
      OperandsReady ops vT) ∧
    (∃ l < 64, (execOf h0 vT.g &&& readP vT.g 1).getLsbD l = true) ∧
    (∀ l < 64, (execOf h0 vT.g).getLsbD l = true → (readP vT.g 0).getLsbD l = true) ∧
    (∃ l < 64, (execOf h0 vT.g).getLsbD l = true ∧ (readP vT.g 1).getLsbD l = false) ∧
    ∀ l < 64, (execOf h0 vT.g &&& readP (viW id id (fun g => { g with p := [(1, 0)] })).g 1).getLsbD l = false :=
  ⟨issuesT, ready_all (by decide +kernel), ⟨4, by decide +kernel, by decide +kernel⟩, by decide +kernel, ⟨0, by decide +kernel, by decide +kernel⟩, by decide +kernel⟩

theorem test_witness_IntegerReductionFoldsTheLanes : Issues h0 sT vT ∧ tyInt .n64 = true ∧ OperandsReady [vsrc .n64 254, sdst 63] vT :=
  ⟨issuesT, rfl, ready_of (by decide +kernel)⟩

theorem test_witness_ReduceScanAndSampleComplete : Issues h0 sT vT ∧
    ∀ ops ∈ [[vsrc .f32 0, sdst 1], [vsrc .f32 0, vdst .f32 1], [vsrc .f32 255, ssrc 0, sdst 63]], OperandsReady ops vT :=
  ⟨issuesT, ready_all (by decide +kernel)⟩

theorem test_witness_DecodedInstructionsAreWellFormed : decode 0xD202010000000000 0x00FFFFFFFFFFFFFF = .ok (.commit hS .block) := by
  decide +kernel

/-! Images: the manual's call example (label 0 calls the function of label 2), and two blocks. -/

def imgT (n : Nat) (ws : List W64) (s : State) : State :=
  { s with images := [(1, { part := 0, addr := 0x1000, codeoff := 0x40, labels := n, rows := 256, head := [], versions := [ws], status := 0 })] }
def callWords : List W64 :=
  [0x0400000000030000, 0x0840060000000002, 0x0860010000000004, 0x0400000100020000, 0x080001000000FFFF, 0x0401000200020000,
   0x0800010000000003, 0x0400000300020000, 0x0800070000000000, 0x0402000400020000, 0x0800010000000001, 0x0403FFFF00000000]
def twoWords : List W64 := [0x0400000000020000, 0x0800000000000000, 0x0400000100020000, 0x0800000000000000, 0x0403FFFF00000000]
def frame (n : Nat) : Frame := { Frame.zero with fend := BitVec.ofNat 16 n }
def atF (n : Nat) (off : W16) (g : Group) : Group := { g with frames := [frame n], offset := off }

theorem test_witness_LaneWantResults :
    let f := fun g => { atF 5 1 g with v := tput g.v 7 zeroRow }
    let v := viW id (imgT 5 callWords) f
    let deep := fun k g => { f g with frames := List.replicate k (frame 5) }
    Issues h0 (stW id (imgT 5 callWords) f) v ∧
    (∀ ops ∈ [[], [vsrc .n32 7], [ssrc 0], [ssrc 63], [.h 2]], OperandsReady ops v) ∧
    (labelOK v 0 = true ∧ labelOK v 1 = true ∧ labelOK v 2 = false ∧ labelOK v 0xFFFD = false) ∧
    (∀ k < 64, elem .n32 (readRows (execOf h0 v.g) [vsrc .n32 7] v).2 0 k = 0) ∧
    (let x := elem .n32 (readRows (execOf h0 v.g) [vsrc .n32 1] v).2 0 63
     OperandsReady [vsrc .n32 1] v ∧ (execOf h0 v.g).getLsbD 63 = true ∧ x >>> 16 = 0 ∧ x.setWidth 16 ≠ (0xFFFF : Lab) ∧ labelOK v (x.setWidth 16) = false) ∧
    (readS v.g 0 != 0) = false ∧ (readS v.g 63 != 0) = true ∧
    (markerKind (wordsOf v.st v.b v.g) 2 = some 1 ∧ labelOK v (v.g.label + 1) = true ∧ frameDepth v.g = 0) ∧
    (let w := viW id (imgT 5 callWords) (deep 9)
     Issues h0 (stW id (imgT 5 callWords) (deep 9)) w ∧ OperandsReady [] w ∧ markerKind (wordsOf w.st w.b w.g) 2 = some 1 ∧
       labelOK w (w.g.label + 1) = true ∧ frameDepth w.g = 8) ∧
    frameDepth (deep 8 gT) = 7 :=
  ⟨issues_of rfl rfl rfl (.inl rfl) (by decide +kernel), ready_all (by decide +kernel), by decide +kernel, by decide +kernel,
   ⟨ready_of (by decide +kernel), by decide +kernel, by decide +kernel, by decide +kernel, by decide +kernel⟩, by decide +kernel,
   by decide +kernel, by decide +kernel, ⟨issues_of rfl rfl rfl (.inl rfl) (by decide +kernel), ready_of (by decide +kernel), by decide +kernel⟩,
   by decide +kernel⟩

theorem test_witness_GroupControlResults : Issues h0 sT vT ∧ Issues hS sT vT ∧ OperandsReady [] vT :=
  ⟨issuesT, issues_of rfl rfl rfl (.inl rfl) (by decide +kernel), ready_of (by decide +kernel)⟩

/-- Every lane waits on the handle h3, which is PENDING. -/
def gated : List LaneState := List.replicate 64 { mode := .gate, prior := .run, handle := 3, ret := 0xFFFF, label := 1 }

theorem test_gated_none (n : Nat) : nextEligible { gT with lanes := gated, active := 0 } n = none := rfl

theorem test_witness_EndOfABlock :
    (let v := viW id (imgT 2 twoWords) (atF 2 2)
     let ws := wordsOf v.st v.b v.g
     currentView (stW id (imgT 2 twoWords) (atF 2 2)) = some v ∧ atBlockEnd v = true ∧ lanesIn v.g .calling = 0 ∧ frameDepth v.g = 0 ∧
       v.g.ctrs.length = 20 ∧ markerKind ws (lab 1) = some 0 ∧ 1 < (topFrame v.g).fend.toNat ∧ (∃ i, findLabel ws 1 = .ok i) ∧
       holdSlot v 1 = none ∧ v.st.ops = [] ∧ v.g.active ≠ 0) ∧
    (let f := fun g => { atF 2 2 g with lanes := gated, active := 0 }
     let v := viW id (imgT 2 twoWords) f
     currentView (stW id (imgT 2 twoWords) f) = some v ∧ atBlockEnd v = true ∧ lanesIn v.g .calling = 0 ∧ frameDepth v.g = 0 ∧
       v.g.active = 0 ∧ remaining v.g ≠ 0 ∧ ∀ n, nextEligible v.g n = none) ∧
    (let f := fun g => { atF 2 2 g with frames := [{ frame 2 with rem := 0 }], active := 0 }
     let v := viW id (imgT 2 twoWords) f
     currentView (stW id (imgT 2 twoWords) f) = some v ∧ atBlockEnd v = true ∧ lanesIn v.g .calling = 0 ∧ frameDepth v.g = 0 ∧
       v.g.active = 0 ∧ remaining v.g = 0) :=
  ⟨⟨rfl, by decide +kernel, by decide +kernel, by decide +kernel, by decide +kernel, by decide +kernel, by decide +kernel, ⟨2, rfl⟩, by decide +kernel, rfl, by decide +kernel⟩,
   ⟨rfl, by decide +kernel, by decide +kernel, by decide +kernel, by decide +kernel, by decide +kernel, fun _ => rfl⟩,
   ⟨rfl, by decide +kernel, by decide +kernel, by decide +kernel, by decide +kernel, by decide +kernel⟩⟩

/-- One lane's state, the others as given. -/
def laneIs (k : Nat) (x y : LaneState) : List LaneState := (List.range 64).map (fun i => if i = k then x else y)
def waitT (n : Lab) : LaneState := { mode := .wait, prior := .run, handle := 0, ret := 0xFFFF, label := n }
def doneT : LaneState := { mode := .done, prior := .run, handle := 0, ret := 0xFFFF, label := 0xFFFF }
def callT : LaneState := { mode := .calling, prior := .run, handle := 0, ret := 2, label := 2 }
/-- The function of label 2, called by lane 0 from label 0 or 1, which will go on at label 1. -/
def calledT : Frame := { entry := 2, fend := 4, resume := 1, parts := 1, rem := 0, sweeps := 0 }

theorem test_witness_EndOfABlock_regions :
    (let f := fun g => { atF 5 2 g with label := 1 }
     let v := viW id (imgT 5 callWords) f
     let ws := wordsOf v.st v.b v.g
     currentView (stW id (imgT 5 callWords) f) = some v ∧ atBlockEnd v = true ∧ lanesIn v.g .calling &&& remaining v.g = 0 ∧ v.g.active ≠ 0 ∧
       frameDepth v.g = 0 ∧ markerKind ws (lab 2) = some 1 ∧ 2 < (topFrame v.g).fend.toNat ∧ ((findFuncEnd ws 2).toOption.bind (fun i => ws[i]?)).map (fun w => (mkLabel w).toNat) = some 4 ∧
       markerKind ws (lab 4) ≠ some 1 ∧ 4 < (topFrame v.g).fend.toNat ∧ (findLabel ws 4).toOption.isSome = true ∧ holdSlot v 4 = none) ∧
    (let all := fun g => { atF 2 2 g with label := 1 }
     let one := fun g => { all g with active := ~~~1, lanes := laneIs 0 (waitT 0) (laneAt g 1) }
     let v := viW id (imgT 2 twoWords) all
     let x := viW id (imgT 2 twoWords) one
     let ws := wordsOf v.st v.b v.g
     atBlockEnd v = true ∧ (topFrame v.g).fend = 2 ∧ (findEnd ws true 2).toOption.isSome = true ∧ remaining (retLanes v.g v.g.active) = 0 ∧ atBlockEnd x = true ∧
       (let g := retLanes x.g x.g.active
        nextEligible g (topFrame g).entry.toNat = some 0 ∧ nextEligible g 2 = none ∧ markerKind ws (lab 0) ≠ some 1 ∧ (findLabel ws 0).toOption.isSome = true ∧
          holdSlot x 0 = none)) ∧
    (let f := fun n (l : Lab) g => { atF 2 2 g with label := l, active := 0, lanes := laneIs 5 (waitT n) doneT }
     let v := fun n l => viW id (imgT 2 twoWords) (f n l)
     atBlockEnd (v 1 0) = true ∧ lanesIn (v 1 0).g .calling = 0 ∧ nextEligible (v 1 0).g 1 = some 1 ∧ atBlockEnd (v 0 1) = true ∧
       nextEligible (v 0 1).g 2 = none ∧ nextEligible (v 0 1).g 0 = some 0) := by
  decide +kernel

theorem test_witness_EndOfABlock_frames :
    (let f := fun g => { atF 5 2 g with label := 0, active := 0xFFFFFFFFFFFFFFF0, lanes := (List.range 64).map (fun i => if i < 4 then callT else laneAt g i) }
     let v := viW id (imgT 5 callWords) f
     let ws := wordsOf v.st v.b v.g
     let calling := lanesIn v.g .calling &&& remaining v.g
     currentView (stW id (imgT 5 callWords) f) = some v ∧ v.g.ctrs.length = 20 ∧ calling = 15 ∧ (∀ k < 64, calling.getLsbD k = true → (laneAt v.g k).label = 2) ∧
       (findFuncEnd ws 2).toOption.isSome = true ∧ funcEnd ws 2 = some 4 ∧ (findLabel ws 2).toOption.isSome = true ∧ holdSlot v 2 = none) ∧
    (let f := fun (outer : LaneState) g => { atF 5 2 g with label := 3, active := 0, frames := [calledT, frame 5], lanes := laneIs 0 outer doneT }
     let v := fun o => viW id (imgT 5 callWords) (f o)
     let run := v { mode := .run, prior := .run, handle := 0, ret := 2, label := 0xFFFF }
     let wait := v (waitT 4)
     (∀ x ∈ [run, wait], atBlockEnd x = true ∧ frameDepth x.g = 1 ∧ remaining x.g = 0 ∧ lanesIn x.g .calling = 0 ∧ frameDepth (popFrame x.g).2 = 0) ∧
       lanesIn run.g .run &&& remaining (popFrame run.g).2 = 1 ∧ lanesIn wait.g .run &&& remaining (popFrame wait.g).2 = 0 ∧
       nextEligible (popFrame wait.g).2 1 = some 4 ∧
       ∀ n ∈ [1, 4], n < 5 ∧ markerKind callWords (lab n) ≠ some 1 ∧ (findLabel callWords n).toOption.isSome = true ∧ holdSlot run n = none) := by
  decide +kernel

theorem test_witness_WakingAndBrokenChains :
    (let f := fun g => { atF 2 2 g with run := .idle, active := 0, seek := 1,
                                        lanes := List.replicate 64 { mode := .wait, prior := .run, handle := 0, ret := 0xFFFF, label := 1 } }
     let v := viW id (imgT 2 twoWords) f
     viewAt (stW id (imgT 2 twoWords) f) 1 0 = some v ∧ blockLive v.b = true ∧ v.g.run = .idle ∧ v.g.stopped = false ∧ frameDepth v.g = 0 ∧
       remaining v.g ≠ 0 ∧ (nextEligible v.g (topFrame v.g).entry.toNat).isSome = true ∧ nextEligible v.g v.g.seek.toNat = some 1 ∧
       (∃ i, findLabel (wordsOf v.st v.b { v.g with code := newestCode v.st v.b }) 1 = .ok i)) ∧
    (let f := atF 1 2
     let w := imgT 2 [0x0400000000030000, 0x0800000000000000, 0x0400000100010000, 0x0403FFFF00000000]
     let v := viW id w f
     currentView (stW id w f) = some v ∧ chainBroken v = true ∧ isHandler v = false ∧ v.b.ending = none ∧ v.b.fault = none ∧
       (∃ im, imageOf v.st v.b = some im) ∧ markerIdx (wordsOf v.st v.b v.g) v.g.label = some 0) :=
  ⟨⟨rfl, by decide +kernel, rfl, rfl, by decide +kernel, by decide +kernel, by decide +kernel, by decide +kernel, ⟨2, rfl⟩⟩,
   ⟨rfl, by decide +kernel, by decide +kernel, rfl, rfl, ⟨_, rfl⟩, by decide +kernel⟩⟩

/-- An outstanding operation of the group, bound to h3. -/
def opT (body : OpBody) : Op :=
  { blk := 1, gid := 0, sblk := 1, ord := 0, ordq := 0, h := 3, label := 0, offset := 1, frame := 0, sweeps := 0, mask := allLanes, key := none,
    cancel := false, faddr := 0, got := [], wrote := [], body := body }
def withOp (body : OpBody) (s : State) : State := { s with ops := [(7, opT body)], nextOp := 8 }
def pendT (g : Group) : Group := { g with h := [(2, .complete 0x12 0 []), (3, .pending 7)], nStore := 1, nQueue := [(1, 1)] }
def entryT : OpBody := .entry 1 .n32 [0x20000] zeroRow 1

theorem test_witness_HandleInstructionResults :
    let s := stW id (withOp (.stopref 5)) pendT
    let v := viW id (withOp (.stopref 5)) pendT
    let x := viW id (withOp entryT) pendT
    Issues h0 s v ∧ (∀ ops ∈ [[.h 2, sdst 63], [.h 3, sdst 0], [.h 2], [.h 3], [.hd 15, .h 3], [.hd 3], []], OperandsReady ops v ∨ ops = [.hd 3]) ∧
    tget v.g.h (2 : HReg).toNat = some (.complete 0x12 0 []) ∧ tget v.g.h (3 : HReg).toNat = some (.pending 7) ∧
    (∃ o, tget s.ops 7 = some o ∧ o.blk = v.uid ∧ o.gid = v.gid ∧ o.body = .stopref 5) ∧
    Issues h0 (stW id (withOp entryT) pendT) x ∧ OperandsReady [] x ∧ countOf x .stores = 1 ∧ countOf x (.queue 1) = 1 ∧ countOf x .copies = 0 ∧
    (∀ l ∈ [[], [0]], putEnded (.put 4 0 4 9 0 56 l) = false) ∧
    (let f := fun (g : Group) => { g with acq := [5 * 64 + 2] }
     Issues h0 (stW id id f) (viW id id f) ∧ OperandsReady [.h 2, sdst 63] (viW id id f) ∧ 5 * 64 + 2 ∈ (viW id id f).g.acq) :=
  ⟨issues_of rfl rfl rfl (.inl rfl) (by decide +kernel),
   fun ops ho => (List.mem_cons.1 (show ops ∈ [.hd 3] :: [[.h 2, sdst 63], [.h 3, sdst 0], [.h 2], [.h 3], [.hd 15, .h 3], []] by
     simp only [List.mem_cons, List.not_mem_nil, or_false] at ho ⊢; tauto)).elim .inr
     (fun h => .inl (ready_all (by decide +kernel) ops h)),
   by decide +kernel, by decide +kernel, ⟨_, rfl, rfl, rfl, rfl⟩, issues_of rfl rfl rfl (.inl rfl) (by decide +kernel), ready_of (by decide +kernel),
   by decide +kernel, by decide +kernel, by decide +kernel, by decide,
   ⟨issues_of rfl rfl rfl (.inl rfl) (by decide +kernel), ready_of (by decide +kernel), by decide⟩⟩

/-- Barrier 15 of 16 expects 5 arrivals of which 2 are still to come, in phase 1. -/
def barT (b : Block) : Block := { b with bars := [(15, { phase := true, expected := 5, pending := 2 })] }

theorem test_witness_BarrierInstructionResults :
    let v := viW barT id id
    Issues h0 (stW barT id id) v ∧
    (∀ ops ∈ [countOps (.imm 5), countOps (.s 5), countOps (.imm 1) ++ [sdst 0], countOps (.s 2) ++ [sdst 63], [ssrc 15, sdst 1], [ssrc 16, sdst 1], [ssrc 15]], OperandsReady ops v) ∧
    v.b.fp.barriers = (16 : BitVec 9).toNat ∧ (15 : BitVec 9).toNat < v.b.fp.barriers ∧ (barOf v.b 15).expected = 5 ∧ (barOf v.b 0).expected = 0 ∧
    (readS v.g 5).setWidth 32 = (5 : W32) ∧ (readS v.g 15).toNat % 512 = 15 ∧ (readS v.g 16).toNat % 512 = 16 ∧
    ((barOf v.b 15).phase = (readS v.g 15).getLsbD 9) = False ∧ (barOf v.b 0).phase = (readS v.g 0).getLsbD 9 :=
  ⟨issues_of rfl rfl rfl (.inl rfl) (by decide +kernel), ready_all (by decide +kernel), by decide +kernel, by decide +kernel, by decide +kernel,
   by decide +kernel, by decide +kernel, by decide +kernel, by decide +kernel, by simp; decide +kernel, by decide +kernel⟩

/-- A launch without stages whose argument block has two words. -/
def launchT : Launch :=
  { part := 0, fn := 0, lid := 0, image := 1, seed := 0, scope := .pkg, phased := false, args := [5, 6], caps := [], stages := [], seq := 0,
    start := 0, names := [], decided := [], posted := [], error := false, affAt := 0, done := none }

def stageT (fire : Nat) : Stage :=
  { fire := fire, count := 2, qcap := 2, entry := 0, fp := { groups := 1, rows := 8, scratch := 1, barriers := 0, carry := 0 }, fired := false, retired := false,
    next := 0, ready := 0, queue := [], firings := [] }

theorem test_witness_PhaseCompletesWhenAllHaveArrived :
    Issues h0 sT vT ∧ OperandsReady [sdst 63] vT ∧ wideStage vT.st vT.b = false ∧ vT.g.arrival = .none ∧ vT.b.groups.length = 1 ∧
    (let f := fun g => { g with arrival := .phase 1 false 0, phases := 4 }
     Issues h0 (stW id id f) (viW id id f) ∧ OperandsReady [sdst 1] (viW id id f) ∧ (viW id id f).g.arrival = .phase 1 false 0) ∧
    (let k := fun b => { b with groups := b.groups ++ [gT] }
     Issues h0 (stW k id id) (viW k id id) ∧ OperandsReady [sdst 1] (viW k id id) ∧ (viW k id id).b.groups[1]? = some gT ∧
       ¬ (gT.run = .ended ∨ (viW k id id).g.phases + 1 ≤ gT.phases)) ∧
    (let k := fun b => { b with groups := b.groups ++ [gT] }
     let f := fun g => { g with arrival := .phase 1 false 0, phases := 4 }
     let x := viW k id f
     Issues h0 (stW k id f) x ∧ OperandsReady [sdst 1] x ∧ x.b.groups[1]? = some gT ∧ ¬ (gT.run = .ended ∨ x.g.phases ≤ gT.phases)) ∧
    (let w := fun (phase : BPhase) (s : State) =>
       { s with launches := [(0, { launchT with phased := true, stages := [stageT 0] })], blocks := s.blocks ++ [(2, { fetchBlock 1 with phase := phase })] }
     let x := fun phase => viW id (w phase) id
     let peers := fun phase => (x phase).st.blocks.filter (fun e => e.1 != (x phase).uid && e.2.launch == (x phase).b.launch && wideStage (x phase).st e.2)
     (∀ p ∈ [BPhase.complete, .resident], Issues h0 (stW id (w p) id) (x p) ∧ OperandsReady [sdst 1] (x p)) ∧
       ∀ p ∈ [BPhase.complete, .resident], wideStage (x p).st (x p).b = true ∧ ((peers p).map (fun e => e.2.phase)) = [p] ∧ (stageT 0).count = 2 ∧
         fetchGroup.run ≠ .ended ∧ fetchGroup.phases = 0) :=
  ⟨issuesT, ready_of (by decide +kernel), by decide +kernel, rfl, rfl,
   ⟨issues_of rfl rfl rfl (.inl rfl) (by decide +kernel), ready_of (by decide +kernel), rfl⟩,
   ⟨issues_of rfl rfl rfl (.inl rfl) (by decide +kernel), ready_of (by decide +kernel), rfl, by decide +kernel⟩,
   ⟨issues_of rfl rfl rfl (.inl rfl) (by decide +kernel), ready_of (by decide +kernel), rfl, by decide +kernel⟩,
   ⟨by
     simp only [List.forall_mem_cons, List.not_mem_nil, false_imp_iff, implies_true, and_true]
     exact ⟨⟨issues_of rfl rfl rfl (.inl rfl) (by decide +kernel), ready_of (by decide +kernel)⟩,
       issues_of rfl rfl rfl (.inl rfl) (by decide +kernel), ready_of (by decide +kernel)⟩, by decide +kernel⟩⟩

theorem test_witness_SpawnAndLaunchResults :
    let f := fun g => { g with s := tput g.s 1 0x2000 }
    let v := viW id id f
    let k := fun b => { b with depth := 4 }
    let ops := fun (a : SReg) (c : CReg) (n m : BitVec 4) => [Opd.hd 2, ssrc 1, ssrc 0] ++ (if n = 0 then [] else [Opd.s a.toNat n.toNat true false]) ++
      (List.range m.toNat).map (fun i => Opd.c (c + BitVec.ofNat 4 i))
    Issues h0 (stW id id f) v ∧ (∀ o ∈ [ops 49 8 15 8, ops 0 0 0 0, [.hd 2, .c 8, ssrc 0]], OperandsReady o v) ∧
    logFind v.b (nextKey v) = none ∧ opOfKey v.st v.uid (nextKey v) = none ∧ spawnStatus v (readS v.g 1) (readS v.g 0) = none ∧
    (checkRange v (readC v.g 8) (readS v.g 0).toNat 64 1 pR [0]).isNone = true ∧
    Issues h0 (stW k id f) (viW k id f) ∧ OperandsReady (ops 0 0 0 0) (viW k id f) ∧ 4 ≤ (viW k id f).b.depth :=
  ⟨issues_of rfl rfl rfl (.inl rfl) (by decide +kernel), ready_all (by decide +kernel), by decide +kernel, by decide +kernel, by decide +kernel,
   by decide +kernel, issues_of rfl rfl rfl (.inl rfl) (by decide +kernel), ready_of (by decide +kernel), by decide +kernel⟩

theorem test_witness_SystemTrapsFollowTheirWord :
    let w := fun s => { s with parts := [(0, setCtl Part.init 0x11B 1)] }
    Issues h0 sT vT ∧ OperandsReady [] vT ∧ isHandler vT = false ∧ vT.b.fault = none ∧ vT.b.ending = none ∧ vT.g.active ≠ 0 ∧
    (pctl vT.st vT.b.part 0x11B).getLsbD 0 = false ∧ Issues h0 (stW id w id) (viW id w id) ∧ OperandsReady [] (viW id w id) ∧
    (pctl (viW id w id).st 0 0x11B).getLsbD 0 = true :=
  ⟨issuesT, ready_of (by decide +kernel), rfl, rfl, rfl, by decide +kernel, by decide +kernel, issues_of rfl rfl rfl (.inl rfl) (by decide +kernel),
   ready_of (by decide +kernel), by decide +kernel⟩

/-- In the handler context. -/
def handT (b : Block) : Block := { b with kind := .handler }

/-! A handler run on core 0 that handles block 2, whose two groups sit at seats 14 and 15. -/

def faultT (cls code : Nat) : FaultRec :=
  { cls := cls, code := code, lane := 255, gid := 0, handle := 0, detail := 0, frame := 0, label := 0, offset := 1, addr := 0, data := 0 }
def hrunT (f : FaultRec) : HRun := { blk := 2, live := true, fault := f, hflt := 0, kill := false }
def snapT (l : Nat) : Snapshot :=
  { groups := List.replicate l gT, scratch := [(0, 5)], tags := [], slots := [], bars := [], baton := 0, act := ActTable.init, commits := 4,
    tokens := [] }
def trapB (f : Option FaultRec) (n : Nat) : Block :=
  { fetchBlock 1 with groups := [{ gT with run := .parked }, { gT with run := .parked, active := 0 }], place := some { core := 0, seat := 14, row := 0, scr := 0, bar := [] },
                      fault := f, record := some (snapT 2), refires := n }
def runT (f : FaultRec) (k : Block → Block) (s : State) : State :=
  { s with blocks := s.blocks ++ [(2, k (trapB (some f) 7))], cores := [(0, { Core.init with hrun := some (hrunT f) })] }

theorem test_witness_SpecialRegisterResults :
    let w := fun s => { s with launches := [(0, launchT)] }
    let v := viW id w id
    Issues h0 (stW id w id) v ∧ isHandler v = false ∧ (∀ o ∈ [[sdst 63], [.v 255 1 false true], [ssrc 63]], OperandsReady o v) ∧
    readUser v 0x0FF = none ∧ readUser v 0x012 = none ∧
    (let r := runT (faultT 1 6) id
     let x := viW handT r id
     Issues h0 (stW handT r id) x ∧ isHandler x = true ∧ (runOf x).map (fun y => y.blk) = some 2 ∧ (tget x.st.blocks 2).isSome = true ∧
       (∀ o ∈ [[sdst 63], [.v 255 1 false true], [ssrc 63]], OperandsReady o x) ∧
       (readCtl x 0x100).isSome = true ∧ (readCtl x 0x187).isSome = true ∧ (readCtl x 0x10F).isSome = true ∧ ctlAssigned 0x3FF = false ∧
       readS x.g 63 &&& ~~~(0xFF : W64) = 0 ∧ readS (viW handT r (fun g => { g with s := tput g.s 1 0x100 })).g 1 &&& ~~~(0xFF : W64) ≠ 0) ∧
    (let k := fun (b : Block) => { handT b with part := 129 }
     let f := fun (g : Group) => { g with s := tput (tput (tput (tput g.s 1 2) 2 1) 3 0x20000) 4 0x10000 }
     let r := fun s => { s with parts := [(1, (setCtl (setCtl (setCtl Part.init 0x110 1) 0x113 1) 0x114 0x10000))] }
     let x := viW k r f
     let reg := fun (a : SReg) => readS x.g a
     Issues h0 (stW k r f) x ∧ isHandler x = true ∧ (∀ a ∈ [1, 2, 3, 4], OperandsReady [ssrc a] x) ∧ 128 ≤ x.b.part ∧ x.b.part < 256 ∧ x.b.part % 16 = 1 ∧
       reg 1 &&& ~~~(pctl x.st 1 0x110) ≠ 0 ∧ (pctl x.st 1 0x113).toNat < (reg 1).toNat ∧
       (fld (pctl x.st 1 0x114) (16 * 1) 16).toNat < (fld (reg 3) (16 * 1) 16).toNat ∧
       childRange (flush x) 1 129 0x110 (reg 2) = true ∧ childRange (flush x) 1 129 0x110 (reg 1) = false ∧
       childRange (flush x) 1 129 0x113 (reg 2) = true ∧ childRange (flush x) 1 129 0x114 (reg 4) = true) :=
  ⟨issues_of rfl rfl rfl (.inl rfl) (by decide +kernel), rfl, ready_all (by decide +kernel), by decide +kernel, by decide +kernel,
   ⟨issues_of rfl rfl rfl (.inl rfl) (by decide +kernel), rfl, by decide +kernel, by decide +kernel, ready_all (by decide +kernel), by decide +kernel⟩,
   ⟨issues_of rfl rfl rfl (.inl rfl) (by decide +kernel), rfl,
    fun a ha => ready_all (L := [[ssrc 1], [ssrc 2], [ssrc 3], [ssrc 4]]) (by decide +kernel) [ssrc a] (List.mem_map_of_mem (f := fun a => [ssrc a]) ha),
    by decide +kernel⟩⟩

theorem test_witness_FloatArithmeticResults : Issues h0 sT vT ∧
    ∀ ops ∈ [[vsrc .f32 0, vsrc .f32 1, vdst .f32 0], [vsrc .f16 0, vsrc .f16 1, vsrc .f16 2, vdst .f16 255], [vsrc .bf16 7, vdst .bf16 7]],
      OperandsReady ops vT :=
  ⟨issuesT, ready_all (by decide +kernel)⟩

theorem test_witness_FloatSpecialInputs :
    Issues h0 sT vT ∧ OperandsReady [vsrc .f32 0, vdst .f32 255] vT ∧
    isNan (decF (fmtOf .f32) 0x7FC00000) = true ∧ isSnan (decF (fmtOf .f32) 0x7F800001) = true ∧ isNan (decF (fmtOf .f32) 0x7F800000) = false ∧
    isNan (decF (fmtOf .f16) 0x7C01) = true ∧ isNan (decF (fmtOf .bf16) 0x7F80) = false ∧
    decF (fmtOf .f32) 0x7F800001 = .nan true ∧ decF (fmtOf .f16) 0x7E00 = .nan false ∧ decF (fmtOf .f32) 0xFF800000 = .inf true ∧
    decF (fmtOf .f16) 0x7C00 = .inf false ∧ (∃ z, decF (fmtOf .f32) 0x80000000 = .fin z ∧ z.m = 0) ∧
    (∃ z, decF (fmtOf .f16) 0x8001 = .fin z ∧ z.m ≠ 0 ∧ z.neg = true) ∧
    (0xFFFF < 2 * signBit (fmtOf .f16) ∧ isNan (decF (fmtOf .f16) 0x8000) = false ∧ isNan (decF (fmtOf .f16) 0) = false) ∧
    (∃ z, decF (fmtOf .f16) 0x4C00 = .fin z ∧ z.neg = false ∧ z.e < 0 ∧ ((fmtOf .f16).bias + 1) * 2 ^ (-z.e).toNat ≤ z.m) ∧
    ∃ z, decF (fmtOf .f16) 0x7BFF = .fin z ∧ z.neg = false ∧ 0 ≤ z.e ∧ (fmtOf .f16).bias + 1 ≤ z.m * 2 ^ z.e.toNat :=
  by and_intros <;> first | exact issuesT | exact ready_of (by decide +kernel) | decide +kernel | exact ⟨_, rfl, by decide +kernel⟩

theorem test_witness_RoundingKeepsRepresentableValues :
    (∃ z, decF (fmtOf .f32) 0xFF7FFFFF = .fin z) ∧ (∃ z, decF (fmtOf .f16) 1 = .fin z) ∧ (∃ z, decF (fmtOf .bf16) 0x8000 = .fin z) ∧
    (∃ z, decF (fmtOf .e4m3) 0x7E = .fin z) ∧ (∃ z, decF (fmtOf .e5m2) 0xFB = .fin z) ∧ 0xFF < 2 * signBit (fmtOf .e4m3) ∧ RMode.ne ≠ .st :=
  ⟨⟨_, rfl⟩, ⟨_, rfl⟩, ⟨_, rfl⟩, ⟨_, rfl⟩, ⟨_, rfl⟩, by decide, by decide⟩

theorem test_witness_FloatCompareClassAndStatusResults :
    let w := withOp (.atomg .fadd false false false .pkg 9 0x10000 0 0)
    Issues h0 sT vT ∧ (∀ ops ∈ [[vsrc .f32 0, vsrc .f32 1], [vsrc .f16 0, vdst .f16 255], [sdst 63]], OperandsReady ops vT) ∧
    flagsPending vT = false ∧ Issues h0 (stW id w pendT) (viW id w pendT) ∧ OperandsReady [sdst 0] (viW id w pendT) ∧
    flagsPending (viW id w pendT) = true :=
  ⟨issuesT, ready_all (by decide +kernel), by decide +kernel, issues_of rfl rfl rfl (.inl rfl) (by decide +kernel), ready_of (by decide +kernel),
   by decide +kernel⟩

theorem test_witness_ConversionResults : Issues h0 sT vT ∧
    ∀ ops ∈ [[vsrc .f32 0, vdst .e4m3 0], [vsrc .s64 254, vdst .f16 0], [vsrc .f16 1, vdst .n64 0], [.v 224 (Machine.blkRegs .f32) true false, vdst .n32 0],
      [.v 240 (Machine.blkRegs .bf16) true false, vdst .n32 255], [.v 0 32 true false, vsrc .n32 5, .v 252 4 false true],
      [.v 252 4 true false, vsrc .n32 5, .v 224 32 false true], [.v 4 4 true false, vsrc .n32 5, .v 240 16 false true]], OperandsReady ops vT :=
  ⟨issuesT, ready_all (by decide +kernel)⟩

theorem test_witness_PlaneTransposesBits : Issues h0 sT vT ∧ tyMat .bf16 = true ∧ tyMat .i2 = true ∧
    ∀ ops ∈ [[.v 240 16 true false, .v 240 16 false true], [.v 0 2 true false, .v 254 2 false true]], OperandsReady ops vT :=
  ⟨issuesT, rfl, rfl, ready_all (by decide +kernel)⟩

/-- An outstanding inbound range of the group over the first 64 bytes of its scratchpad. -/
def rangeT (s : State) : State := { s with ranges := [(1, { core := 0, blk := 1, gid := 0, lo := 0, hi := 64, inb := true, op := 7 })] }

theorem test_witness_ScratchpadLoadResults :
    (∀ ops ∈ [ldsOps .w32 0 1 (.v 1), ldsOps .w64 254 1 (.s 0), ldsOps .w128 252 1 .none, ldsOps .wcap 7 1 (.s 16)], OperandsReady ops vT) ∧
    Issues h0 sT vT ∧
    (ldsCheck vT .w32 allLanes (readC vT.g 1) (memOff vT.g (.v 1) 0 [readV vT.g 1])).isNone = true ∧
    (ldsCheck vT .w128 allLanes (readC vT.g 1) (memOff vT.g .none 0xFFF0 [])).isSome = true ∧
    (ldsCheck vT .w128 allLanes (readC vT.g 1) (memOff vT.g .none 0x7FF0 [])).isNone = true ∧
    (ldsCheck vT .wcap allLanes (readC vT.g 1) (memOff vT.g (.s 16) 0 [])).isNone = true ∧
    (ldsCheck vT .wcap allLanes (readC vT.g 1) (memOff vT.g (.s 8) 8 [])).isNone = true ∧
    (ldsCheck vT .wcap allLanes { bits := BitVec.ofNat 128 (8 * 2 ^ 80 + 65536 * 2 ^ 32 + 0xFE * 2 ^ 24 + 2 ^ 20), tag := true } (fun _ => 8)).isSome = true ∧
    (ldsCheck vT .w32 allLanes (readC vT.g 1) (memOff vT.g (.v 1) 2 [readV vT.g 1])).isSome = true ∧
    bytesHeld vT (allBytes (readC vT.g 1) allLanes (memOff vT.g (.v 1) 0 [readV vT.g 1]) 4) false = false ∧
    Issues h0 (stW id rangeT id) (viW id rangeT id) ∧ OperandsReady (ldsOps .w32 0 1 (.v 1)) (viW id rangeT id) ∧
    bytesHeld (viW id rangeT id) (allBytes (readC vT.g 1) allLanes (memOff vT.g (.v 1) 0 [readV vT.g 1]) 4) false = true ∧
    isHandler vT = false ∧ capSpace (readC vT.g 1) = 1 :=
  ⟨ready_all (by decide +kernel), issuesT, by decide +kernel, by decide +kernel, by decide +kernel, by decide +kernel, by decide +kernel, by decide +kernel, by decide +kernel, by decide +kernel,
   issues_of rfl rfl rfl (.inl rfl) (by decide +kernel), ready_of (by decide +kernel), by decide +kernel, rfl, by decide +kernel⟩

theorem test_witness_ScratchpadStoreResults :
    (∀ ops ∈ [stsOps .w8 0 1 (.v 1), stsOps .w128 252 1 .none], OperandsReady ops vT) ∧ Issues h0 sT vT ∧
    (checkLanes vT allLanes (readC vT.g 1) (memOff vT.g (.v 1) 0x7F03 [readV vT.g 1]) 1 pW [1, 2] false).isNone = true ∧
    (checkLanes vT allLanes (readC vT.g 1) (memOff vT.g .none 0xFFFC []) 4 pW [1, 2] false).isSome = true ∧
    bytesHeld vT (allBytes (readC vT.g 1) allLanes (memOff vT.g (.v 1) 0x7F03 [readV vT.g 1]) 1) true = false ∧
    isHandler vT = false ∧ capSpace (readC vT.g 1) = 1 :=
  ⟨ready_all (by decide +kernel), issuesT, by decide +kernel, by decide +kernel, by decide +kernel, rfl, by decide +kernel⟩

theorem test_witness_ScratchpadAtomicResults :
    let f := fun g => { g with active := 0x8000000000000000 }
    let v := viW id id f
    Issues h0 (stW id id f) v ∧ (∀ ops ∈ [[Opd.c 1] ++ offOps (.v 2) ++ [Opd.v 4 2 true false, Opd.v 4 1 false true],
      [Opd.c 1] ++ offOps .none ++ [Opd.v 255 1 true true], [Opd.c 1] ++ offOps (.s 0) ++ [Opd.v 0 1 true true]], OperandsReady ops v) ∧
    (checkLanes v (execOf h0 v.g) (readC v.g 1) (memOff v.g (.v 2) 0 [readV v.g 2]) 4 pA [1, 2] false).isNone = true ∧
    bytesHeld v (allBytes (readC v.g 1) (execOf h0 v.g) (memOff v.g (.v 2) 0 [readV v.g 2]) 4) true = false ∧
    laneList (execOf h0 v.g) = [63] ∧ isHandler v = false ∧ capSpace (readC v.g 1) = 1 :=
  ⟨issues_of rfl rfl rfl (.inl rfl) (by decide +kernel), ready_all (by decide +kernel), by decide +kernel, by decide +kernel, by decide +kernel, rfl,
   by decide +kernel⟩

theorem test_witness_TagTableResults :
    let k := fun b => { b with slots := [(3, 63), (63, 5)] }
    let f := fun g => { g with s := tput g.s 1 64 }
    let v := viW k id f
    Issues h0 (stW k id f) v ∧ tsorted v.b.slots = true ∧ (∀ ops ∈ [[ssrc 63, sdst 0], [vsrc .n64 254, vdst .n32 255], [ssrc 5, ssrc 63], [ssrc 1]], OperandsReady ops v) ∧
    (readS v.g 63).toNat < v.b.fp.scratch ∧ v.b.fp.scratch ≤ (readS v.g 1).toNat ∧ (readS v.g 0).toNat < v.b.fp.scratch :=
  ⟨issues_of rfl rfl rfl (.inl rfl) (by decide +kernel), by decide +kernel, ready_all (by decide +kernel), by decide +kernel, by decide +kernel, by decide +kernel⟩

theorem test_witness_CapabilityResults :
    let cs := fun (g : Group) => { g with c := tput (tput g.c 3 { capT 1 0 65536 with tag := false }) 4 { bits := BitVec.ofNat 128 (65536 * 2 ^ 32 + 0xF0 * 2 ^ 24 + 2 ^ 20), tag := true } }
    let f := fun (g : Group) => { cs g with s := tput (tput g.s 8 (BitVec.ofNat 64 (0xFFFF * 2 ^ 48 + 65535))) 10 65520 }
    let v := viW id id f
    Issues h0 (stW id id f) v ∧ (∀ ops ∈ [[.c 1, .s 62 2 true false], [.c 3], [.c 1, sdst 63], [.c 1, ssrc 8, sdst 0], [.c 1] ++ capOffOps (.s 10),
      [.c 1] ++ capOffOps .none ++ [.c 15]], OperandsReady ops v) ∧
    (readC v.g 3).tag = false ∧ (readC v.g 1).tag = true ∧ capPerm (readC v.g 4) &&& pD = 0 ∧ capPerm (readC v.g 1) &&& pD ≠ 0 ∧
    ((((readS v.g 10).toNat + (readS v.g 11).toNat : Nat) : Int) ≤ (capLimit (readC v.g 1) : Int) - capBase (readC v.g 1)) ∧
    ((capLimit (readC v.g 1) : Int) - capBase (readC v.g 1) < ((readS v.g 8).toNat + (readS v.g 9).toNat : Nat)) ∧
    (0xFE : BitVec 8).getLsbD 0 = false ∧
    (let a := (readS v.g 8).toNat
     let lo := apertureBase (capSpace (readC v.g 1)) + capBase (readC v.g 1)
     lo ≤ a ∧ a < apertureBase (capSpace (readC v.g 1)) + capLimit (readC v.g 1)) ∧
    (readS v.g 0).toNat < apertureBase (capSpace (readC v.g 1)) ∧
    (check1 v (readC v.g 1) (capOffVal v.g (.s 10) 0) 16 pR [1]).isNone = true ∧
    (check1 v (readC v.g 1) (capOffVal v.g .none 16) 16 (pW ||| pT) [1]).isNone = true ∧
    bytesHeld v (byteAddrs 1 65520 16 0) true = false ∧ isHandler v = false :=
  ⟨issues_of rfl rfl rfl (.inl rfl) (by decide +kernel), ready_all (by decide +kernel), by decide +kernel⟩

/-! Partition 0 with every cluster, a root table at cellar 0x8000, and pages 1 and 2 mapped; page 1 is resident. -/

def leafT (n : Nat) : Leaf := { frame := 0x100000 + 65536 * n, large := false, pin := false, shr := false, fill := false, wr := true, rd := true }
def mapCells : Cells :=
  bputs (bputs (bputs (bputs [] 0x8000 (leBytes 8 0x10001)) 0x10000 (leBytes 8 0x14001)) 0x14008 (leBytes 8 0x11001A)) 0x14010 (leBytes 8 0x12001A)
def partT : Part :=
  [(0x100, 0x8001#64), (0x101, 0x1000000000000000#64 ||| 0x0FFFFFFF00000000), (0x110, 0xFFFFFFFFFFFFFFFF), (0x111, 64)].foldl (fun p e => setCtl p e.1 e.2) Part.init
def pageT : Page := { part := 0, vpn := 1, leaf := leafT 1, data := [(0, 5), (4, 7)], dirty := [], since := 0, used := 0, evicting := false, words := wordsOfPage [(0, 5), (4, 7)] }
def mapT (s : State) : State := { s with cellar := mapCells, parts := [(0, partT)], pages := [(1, pageT)] }
/-- With a rate ceiling of 1 for every class, and core 0 without a flit's worth in its buckets (R319). -/
def poorT (s : State) : State :=
  { mapT s with parts := [(0, setCtl partT 0x114 0x0001000100010001)],
                rates := (List.range 4).map (fun k => (rateKey 0 0 k, { r := 1, quiet := 0, bucket := 127 })) }

/-- s8..s15 set up a copy of 2 rows of 64 bytes from global offset 0 (c8) to scratchpad offset 0x100 (c1). -/
def copyT (g : Group) : Group :=
  { g with s := [8, 9, 10, 11, 12, 13].zip [0#64, 0x100#64, BitVec.ofNat 64 (64 + 2 * 2 ^ 24), 0x100#64, 64#64, BitVec.ofNat 64 64] |>.foldl (fun s e => tput s e.1 e.2) g.s }
/-- Every entry of the range scoreboard taken, by another block of the core. -/
def fullT (s : State) : State :=
  { s with ranges := (List.range 32).map (fun i => (i + 1, { core := 0, blk := 9, gid := 0, lo := 0, hi := 64, inb := true, op := 7 })), nextRng := 33 }

def copyCmdT : CopyCmd :=
  { inb := true, plane := false, bits := 32, rows := none, esz := 4, goff := 0x10000, soff := 0x100, e0 := 8, e1 := 1, e2 := 1, gs1 := 0, gs2 := 0,
    ss1 := 0, ss2 := 0, moved := [], resid := 0, pages := [], bad := none }

theorem test_witness_CopyEngineResults :
    let v := viW id id copyT
    let one := fun (g : Group) => { copyT g with s := tput (copyT g).s 10 64 }
    Issues h0 (stW id id copyT) v ∧ (∀ ops ∈ [copyOps 2 8 1 8 9 10, copyOps 15 8 1 8 9 62, copyOps 15 8 1 8 9 0, copyOps 4 8 1 8 9 10 ++ [vsrc .n32 0]], OperandsReady ops v) ∧
    copyOf v .n32 false true 8 9 62 = none ∧ copyOf v .n32 false true 8 9 0 = none ∧
    (∃ k, copyOf v .n32 false true 8 9 10 = some k ∧ (copyChecks v (readC v.g 8) (readC v.g 1) k).isNone = true) ∧
    (∃ k, copyOf v .n64 false true 8 1 10 = some k ∧ (copyChecks v (readC v.g 8) (readC v.g 1) k).isSome = true) ∧
    rangesOf v.st (blkCore v.b) < 32 ∧ bucketHolds v.st (blkCore v.b) v.b.part 0 128 = true ∧
    (let y := viW id poorT copyT
     Issues h0 (stW id poorT copyT) y ∧ OperandsReady (copyOps 2 8 1 8 9 10) y ∧ rangesOf y.st 0 < 32 ∧ bucketHolds y.st 0 0 0 128 = false ∧
       ∃ k, copyOf y .n32 false true 8 9 10 = some k ∧ (copyChecks y (readC y.g 8) (readC y.g 1) k).isNone = true) ∧
    Issues h0 (stW id fullT copyT) (viW id fullT copyT) ∧ OperandsReady (copyOps 2 8 1 8 9 10) (viW id fullT copyT) ∧
    32 ≤ rangesOf (viW id fullT copyT).st 0 ∧
    (let x := viW id id one
     Issues h0 (stW id id one) x ∧ OperandsReady (copyOps 2 8 1 8 9 10 ++ [vsrc .n32 0]) x ∧
     ∃ k, copyOf x .n32 false false 8 9 10 = some k ∧ k.e1 = 1 ∧ k.e2 = 1 ∧
       (copyChecks x (readC x.g 8) (readC x.g 1) { k with rows := some (readV x.g 0, allLanes) }).isNone = true) ∧
    (let s := stW id (fun s => rangeT (withOp (.copy copyCmdT) s)) pendT
     tget s.ops 7 = some (opT (.copy copyCmdT)) ∧ opSaved s (opT (.copy copyCmdT)) = false ∧ copyElems copyCmdT = [0, 1] ∧
       orderFree copyCmdT 1 = true ∧ opMaySend s (opT (.copy copyCmdT)) = true ∧ (tget (engineRead s (opT (.copy copyCmdT)) (copyAddr copyCmdT 1).1 4).1.blocks 1).isSome = true ∧
       allMoved { copyCmdT with moved := [0, 1] } = true ∧ ∃ e, tget s.ranges 1 = some e ∧ e.op = 7) ∧
    (let c := { copyCmdT with inb := false, goff := 0x10000 }
     let s := stW (fun b => { b with prov := [(0x10004, 9)] }) (fun s => withOp (.copy c) (mapT s)) pendT
     tget s.ops 7 = some (opT (.copy c)) ∧ copyElems c = [0, 1] ∧ orderFree c 1 = true ∧ opMaySend s (opT (.copy c)) = true ∧ c.inb = false ∧
       ∃ t, engineStore s (opT (.copy c)) (copyAddr c 1).1 (opScratch s (opT (.copy c)) (copyAddr c 1).2 c.esz) = .done t) :=
  ⟨issues_of rfl rfl rfl (.inl rfl) (by decide +kernel), ready_all (by decide +kernel), by decide +kernel, by decide +kernel, ⟨_, rfl, by decide +kernel⟩,
   ⟨_, rfl, by decide +kernel⟩, by decide +kernel, by decide +kernel,
   ⟨issues_of rfl rfl rfl (.inl rfl) (by decide +kernel), ready_of (by decide +kernel), by decide +kernel, by decide +kernel, _, rfl, by decide +kernel⟩,
   issues_of rfl rfl rfl (.inl rfl) (by decide +kernel), ready_of (by decide +kernel), by decide +kernel,
   ⟨issues_of rfl rfl rfl (.inl rfl) (by decide +kernel), ready_of (by decide +kernel), _, rfl, by decide +kernel, by decide +kernel, by decide +kernel⟩,
   ⟨rfl, by decide +kernel, by decide +kernel, by decide +kernel, by decide +kernel, by decide +kernel, by decide +kernel, _, rfl, rfl⟩,
   ⟨rfl, by decide +kernel, by decide +kernel, by decide +kernel, rfl, _, rfl⟩⟩

theorem test_map_walks : walk (mapT State.reset) 0 1 = .ok (leafT 1) ∧ walk (mapT State.reset) 0 2 = .ok (leafT 2) ∧ walk (mapT State.reset) 0 3 = .error 1 := by
  decide +kernel

def qF2 (g : Group) : Group :=
  { g with q := [(0, { load := true, ty := .n32, base := 0x10000, stride := 4, n := 65, pos := 0, fetched := 1, buf := [], resid := 0, label := 0, offset := 1,
                       frame := 0, sweeps := 0, mask := allLanes })] }

theorem test_witness_QueueStreamAndPageResults :
    let v := viW id mapT id
    let qv := viW id mapT qF
    let f := fun (g : Group) => { g with s := tput (tput g.s 8 0x10000) 9 0x1FFFF }
    let x := viW id mapT f
    Issues h0 (stW id mapT id) v ∧ (∀ ops ∈ [[.c 8, ssrc 0, ssrc 4, ssrc 3], [], [.hd 2, .c 8, ssrc 0, ssrc 5], [.hd 4, .h 2, .hd 2, sdst 1]], OperandsReady ops v) ∧
    tget v.g.q (7 : QReg).toNat = none ∧ (readS v.g 3).toNat ≠ 0 ∧ (check1 v (readC v.g 8) (readS v.g 0).toNat (eszOf .n32) pW [0]).isNone = true ∧
    (check1 v (readC v.g 8) ((readS v.g 0).toNat + (readS v.g 4).toInt * 2) (eszOf .n32) pR [0]).isNone = true ∧
    bucketHolds v.st (blkCore v.b) v.b.part 1 128 = true ∧ (readS v.g 0).toNat % eszOf .n32 = 0 ∧ (readS v.g 4).toInt % (eszOf .n32 : Int) = 0 ∧
    Issues h0 (stW id mapT qF) qv ∧ OperandsReady [.c 8, ssrc 0, ssrc 4, ssrc 3] qv ∧ (tget qv.g.q (0 : QReg).toNat).isSome = true ∧ OperandsReady [] qv ∧
    (∃ q, tget qv.g.q (1 : QReg).toNat = some q ∧ q.load = false) ∧
    (checkRange v (readC v.g 8) 0 5 1 pR [0]).isNone = true ∧ capPerm (readC v.g 8) &&& pR ≠ 0 ∧ pagesLeft v.st 0 [1] = some [] ∧
    Issues h0 (stW id mapT f) x ∧ OperandsReady [.hd 2, .c 8, ssrc 0, ssrc 9] x ∧ (checkRange x (readC x.g 8) 0 0x1FFFF 1 pR [0]).isNone = true ∧
    pagesLeft x.st 0 [1, 2] = some [2] ∧ pagesLeft x.st 0 [3] = none ∧ tget v.g.h (2 : HReg).toNat = some (.complete 0x12 0 []) ∧
    (let g := fun (g : Group) => { g with h := [(2, .complete 0x0101 9 [1, 2])] }
     Issues h0 (stW id mapT g) (viW id mapT g) ∧ OperandsReady [.hd 4, .h 2, .hd 2, sdst 1] (viW id mapT g) ∧
       pagesLeft (viW id mapT g).st (viW id mapT g).b.part [1, 2] = some [2]) ∧
    (let s := stW id mapT qF2
     let y := viW id mapT qF2
     ∃ q, viewAt s 1 0 = some y ∧ tget y.g.q 0 = some q ∧ y.b.phase = .resident ∧ q.load = true ∧ q.buf.length < 16 ∧ q.fetched < queueEntries q ∧
       (let e : QEntry := { data := zeroRow, resid := 0, left := 0x8000000000000001 }
        let q := { q with buf := [e], fetched := 2 }
        e.data.length = 64 ∧ bucketHolds s (blkCore y.b) y.b.part 1 128 = true ∧
          ∀ l ∈ [0, 63], e.left.getLsbD l = true ∧ (engineRead s (queueOp 1 0 0 q) (entryAddr q 0 l) (eszOf q.ty)).2.2.2 = none)) ∧
    (let o := fun (l : Lanes) => OpBody.entry 1 .n32 (List.replicate 64 0x10004) zeroRow l
     let k := fun (b : Block) => { b with prov := [(0x10004, 9)] }
     let s := stW k (fun s => withOp (o 0x8000000000000000) (mapT s)) pendT
     tget (stW id (withOp (o 0)) pendT).ops 7 = some (opT (o 0)) ∧ tget s.ops 7 = some (opT (o 0x8000000000000000)) ∧
       opMaySend s (opT (o 0x8000000000000000)) = true ∧ ∃ t, engineStore s (opT (o 0x8000000000000000)) 0x10004 (leBytes 4 0) = .done t) :=
  ⟨issues_of rfl rfl rfl (.inl rfl) (by decide +kernel), ready_all (by decide +kernel), by decide +kernel, by decide +kernel, by decide +kernel,
   by decide +kernel, by decide +kernel, by decide +kernel, by decide +kernel, issues_of rfl rfl rfl (.inl rfl) (by decide +kernel), ready_of (by decide +kernel),
   by decide +kernel, ready_of (by decide +kernel), ⟨_, rfl, rfl⟩, by decide +kernel, by decide +kernel, by decide +kernel,
   issues_of rfl rfl rfl (.inl rfl) (by decide +kernel), ready_of (by decide +kernel), by decide +kernel, by decide +kernel, by decide +kernel,
   by decide +kernel, ⟨issues_of rfl rfl rfl (.inl rfl) (by decide +kernel), ready_of (by decide +kernel), by decide +kernel⟩,
   ⟨_, rfl, rfl, rfl, rfl, by decide +kernel, by decide +kernel, rfl, by decide +kernel, by decide +kernel⟩,
   ⟨rfl, rfl, by decide +kernel, _, rfl⟩⟩

theorem test_witness_GlobalAtomicAndOrderingResults :
    let v := viW id mapT id
    let a := OpBody.atomg .add false true false .pkg 9 0x10004 5 0
    Issues h0 (stW id mapT id) v ∧ Issues hS (stW id mapT id) v ∧
    (∀ ops ∈ [[.hd 2, .c 8, ssrc 0, .s 63 1 true true], [.hd 2, .c 8, ssrc 8, .s 1 1 true true, ssrc 1], [], [.hd 15, ssrc 0, ssrc 63], [sdst 0, sdst 63]],
      OperandsReady ops v) ∧
    logFind v.b (nextKey v) = none ∧ opOfKey v.st v.uid (nextKey v) = none ∧ (check1 v (readC v.g 8) (readS v.g 8).toNat 8 pA [0]).isNone = true ∧
    (check1 v (readC v.g 8) (readS v.g 4).toNat 4 pA [0]).isNone = true ∧ widePool .pkg = false ∧ v.b.entryW = none ∧
    (let k := fun (b : Block) => { b with entryW := some (1, 2) }
     Issues h0 (stW k id id) (viW k id id) ∧ OperandsReady [sdst 0, sdst 63] (viW k id id) ∧ (viW k id id).b.entryW = some (1, 2)) ∧
    (let s := stW id (fun s => withOp a (mapT s)) pendT
     tget s.ops 7 = some (opT a) ∧ viewAt s 1 0 = some (viW id (fun s => withOp a (mapT s)) pendT) ∧
       (meet s (opCore s (opT a)) (partOfBlk s 1) 0x10004 true true).2 = .page 1 4 ∧
       lumberForLog (meet s (opCore s (opT a)) (partOfBlk s 1) 0x10004 true true).1 0 a = .room) ∧
    (let f := fun (g : Group) => { g with acq := [63 * 64 + 2, 9 * 64 + 3] }
     let x := viW id id f
     Issues h0 (stW id id f) x ∧ OperandsReady [ssrc 63, sdst 9] { x with g := { x.g with acq := [] } } ∧
       63 * 64 + 2 ∈ x.g.acq ∧ (63 * 64 + 2) / 64 = (63 : SReg).toNat ∧ (9 * 64 + 3) / 64 = (9 : SReg).toNat) ∧
    (let w := fun s => { withOp (.enq 0 3 4) s with launches := [(0, { launchT with stages := [stageT 2] })] }
     let s := stW id w pendT
     tget s.ops 7 = some (opT (.enq 0 3 4)) ∧ enqEarlier s 7 (opT (.enq 0 3 4)) 0 = false ∧ (tget s.blocks 1).map (fun b => b.launch) = some 0 ∧
       stageOf s 0 (0 : BitVec 3).toNat = some (stageT 2) ∧ (stageT 2).retired = false ∧ (stageT 2).queue.length < (stageT 2).qcap ∧
       lumberForLog s 0 (.enq 0 3 4) = .room) :=
  ⟨issues_of rfl rfl rfl (.inl rfl) (by decide +kernel), issues_of rfl rfl rfl (.inl rfl) (by decide +kernel), ready_all (by decide +kernel),
   by decide +kernel, by decide +kernel, by decide +kernel, by decide +kernel, by decide +kernel, rfl,
   ⟨issues_of rfl rfl rfl (.inl rfl) (by decide +kernel), ready_of (by decide +kernel), rfl⟩,
   ⟨rfl, rfl, by decide +kernel, by decide +kernel⟩, ⟨issues_of rfl rfl rfl (.inl rfl) (by decide +kernel), ready_of (by decide +kernel), by decide, by decide, by decide⟩,
   ⟨rfl, by decide +kernel, rfl, rfl, rfl, by decide +kernel, by decide +kernel⟩⟩

/-- The registers of the manual's MMA example in s8..s11. -/
def mmaT (g : Group) : Group := { g with s := tput (tput (tput (tput g.s 8 0x0000000200000808) 9 0x0000000020000000) 10 0x0000020000000000) 11 0 }
def mmaCmdT : MmaCmd :=
  { ty := .e4m3, d := 64, base := 0, m := 8, n := 8, k := 64, scaled := false, sa := [], sb := [], aoff := 0, boff := 512, bias := none, ooff := 0, rq := false,
    act := none, zinit := true, rm := 0, sround := 0, smode := 0, otype := .f32, oscale := 0 }

theorem test_witness_MatrixEngineResults :
    let v := viW id id mmaT
    let m := mmaOf v .e4m3 2 (readC v.g 1) (readS v.g 8) (readS v.g 9) (readS v.g 10) (readS v.g 11) 0 0
    let ops := [Opd.hd 3, .c 1, ssrc 8, ssrc 9, .s 10 2 true false, .m .e4m3 2 8 0 0]
    Issues h0 (stW id id mmaT) v ∧ (∀ o ∈ [ops, [vsrc .n32 255, ssrc 3], [], [sdst 63]], OperandsReady o v) ∧ execOf h0 v.g = allLanes ∧
    shapeOK .e4m3 (readS v.g 8) = true ∧ commandOK (readS v.g 9) (fld (readS v.g 8) 8 8).toNat = true ∧ (mmaRegs v m []).isNone = true ∧ m.scaled = false ∧
    (mmaAccess v (readC v.g 1) m).isNone = true ∧ m.rq = false ∧ otherPending v m [] = false ∧ v.b.baton = v.gid ∧ (mmasOn v.st (blkCore v.b)).length < 4 ∧
    (mmaReads m).any (fun r => rangeHolds v r.1 r.2 false) = false ∧ rangesOf v.st (blkCore v.b) ≤ 30 ∧
    (let w := fun s => { s with ranges := (fullT s).ranges.take 31, nextRng := 33 }
     Issues h0 (stW id w mmaT) (viW id w mmaT) ∧ OperandsReady ops (viW id w mmaT) ∧ 30 < rangesOf (viW id w mmaT).st 0) ∧
    (let four := fun s => { s with ops := (List.range 4).map (fun i => (i + 1, opT (.mma mmaCmdT))), nextOp := 8 }
     Issues h0 (stW id four mmaT) (viW id four mmaT) ∧ OperandsReady ops (viW id four mmaT) ∧ 4 ≤ (mmasOn (viW id four mmaT).st 0).length) ∧
    (let f := fun g => { mmaT g with active := 1 }
     Issues h0 (stW id id f) (viW id id f) ∧ OperandsReady ops (viW id id f) ∧ execOf h0 (viW id id f).g ≠ allLanes) ∧
    (let k := fun (b : Block) => { b with baton := 1 }
     Issues h0 (stW k id mmaT) (viW k id mmaT) ∧ OperandsReady ops (viW k id mmaT) ∧ OperandsReady [] (viW k id mmaT) ∧ (viW k id mmaT).b.baton ≠ 0) ∧
    readS v.g 3 >>> 16 = 0 ∧ fld (readS v.g 3) 3 5 = 0 ∧ bankBound v (!v.b.act.sel) = false ∧
    (let s := stW id (withOp (.mma mmaCmdT)) pendT
     tget s.ops 7 = some (opT (.mma mmaCmdT)) ∧ mmaFirst s 7 (opT (.mma mmaCmdT)) = true ∧ viewAt s 1 0 = some (viW id (withOp (.mma mmaCmdT)) pendT) ∧
       (tget s.blocks 1).isSome = true ∧ mmaCmdT.rq = false ∧
       (mmaWords mmaCmdT)[0]? = some 0 ∧ (mmaWords mmaCmdT).length = 256 ∧ (mmaWords mmaCmdT)[255]? = some 1020 ∧ thas (opT (.mma mmaCmdT)).got 1020 = false) ∧
    (let m := { mmaCmdT with n := 32, rq := true, ooff := 4096, otype := .e4m3, smode := 2 }
     let s := stW id (withOp (.mma m)) pendT
     tget s.ops 7 = some (opT (.mma m)) ∧ mmaFirst s 7 (opT (.mma m)) = true ∧ (viewAt s 1 0).isSome = true ∧ (opT (.mma m)).wrote = [] ∧
       m.n / 32 = 1 ∧ lenOut m = 264) :=
  ⟨issues_of rfl rfl rfl (.inl rfl) (by decide +kernel), ready_all (by decide +kernel), by decide +kernel, by decide +kernel, by decide +kernel, by decide +kernel,
   rfl, by decide +kernel, by decide +kernel, by decide +kernel, rfl, by decide +kernel, rfl, by decide +kernel,
   ⟨issues_of rfl rfl rfl (.inl rfl) (by decide +kernel), ready_of (by decide +kernel), by decide +kernel⟩,
   ⟨issues_of rfl rfl rfl (.inl rfl) (by decide +kernel), ready_of (by decide +kernel), by decide +kernel⟩,
   ⟨issues_of rfl rfl rfl (.inl rfl) (by decide +kernel), ready_of (by decide +kernel), by decide +kernel⟩,
   ⟨issues_of rfl rfl rfl (.inl rfl) (by decide +kernel), ready_of (by decide +kernel), ready_of (by decide +kernel), by decide +kernel⟩,
   by decide +kernel, by decide +kernel, by decide +kernel,
   ⟨rfl, by decide +kernel, rfl, rfl, rfl, by decide +kernel, by decide +kernel, by decide +kernel, rfl⟩,
   ⟨rfl, by decide +kernel, rfl, rfl, by decide, by decide⟩⟩

/-! Names of tensor 5 in partition 0, whose home is core 0. -/

def nmT : Nat := nameOf 5 1 7
def recT (ver : Nat) (pay : List W8) (st : Bool) (subs : List Sub) : NameRec := { ver := ver, payload := pay, words := checkWords pay, stop := st, subs := subs, pub := none }
def dirT (ln : Nat) (names : Tbl NameRec) (s : State) : State :=
  { mapT s with parts := [(0, { partT with dir := [(5, BitVec.ofNat 256 (ln * 2 ^ 175))], names := names })] }
def nmF (ver life len : Nat) (g : Group) : Group :=
  { g with s := tput (tput (tput g.s 10 (BitVec.ofNat 64 (2 ^ 32 + 7))) 11 (BitVec.ofNat 64 (life * 2 ^ 32 + ver * 2 ^ 24 + 5))) 12 (BitVec.ofNat 64 len) }
def opS (body : OpBody) (w : State → State) : State := stW id (fun s => withOp body (w s)) pendT
def opV (body : OpBody) (w : State → State) : View := viW id (fun s => withOp body (w s)) pendT

/-- A header with its link check word. -/
def hdrT (p : Plane) (dst born num : Nat) (mark : Bool) : FHdr :=
  sealHdr p { dst := dst, tenant := 0, mark := mark, echo := false, born := born, num := num, arr := num, chk := 0 }

/-- A request flit with one sector, whose check word is right unless told otherwise. -/
def flitT (at' dst num : Nat) (good : Bool) : Flit :=
  { plane := .request, hdr := hdrT .request dst 0 num true, src := 3, at' := at', inp := 0, prev := 0, entered := true,
    body := .cellar, sectors := [([7], if good then crc32c [7] else 0)], since := 0 }

theorem test_witness_NamedTileResults :
    let V := fun (ver life len : Nat) => viW id (dirT 65536 []) (nmF ver life len)
    let I := fun (ver life len : Nat) => Issues h0 (stW id (dirT 65536 []) (nmF ver life len)) (V ver life len)
    let fresh := fun (v : View) => logFind v.b (nextKey v) = none ∧ opOfKey v.st v.uid (nextKey v) = none
    I 255 1 16 ∧ I 1 65535 65536 ∧ I 1 0 16 ∧ I 254 0 65536 ∧ I 0 0 0 ∧ I 0 0 65536 ∧
    (∀ v ∈ [V 255 1 16, V 1 65535 65536, V 1 0 16, V 254 0 65536, V 0 0 0, V 0 0 65536], fresh v ∧ rangesOf v.st (blkCore v.b) < 32 ∧
      ∀ o ∈ [[.hd 2, .c 1, pairOpd 10, ssrc 0, .s 12 1 true true], [.hd 2, .c 1, pairOpd 10, ssrc 0, ssrc 12], [Opd.hd 2, pairOpd 10]], OperandsReady o v) ∧
    (∀ e ∈ [((255, 1, 16) : Nat × Nat × Nat), (1, 65535, 65536), (1, 0, 16), (254, 0, 65536), (0, 0, 0), (0, 0, 65536)],
      namePairOf (V e.1 e.2.1 e.2.2) 10 = some (nmT, e.1, e.2.1) ∧ lengthOf (readS (V e.1 e.2.1 e.2.2).g 12) (e.1 == 0) = some e.2.2 ∧
      (payloadCheck (V e.1 e.2.1 e.2.2) 1 0 e.2.2 pW).isNone = true ∧ (payloadCheck (V e.1 e.2.1 e.2.2) 1 0 (fld (readS (V e.1 e.2.1 e.2.2).g 12) 0 17).toNat pR).isNone = true) ∧
    (let v := V 255 1 16
     let w := fun s => { dirT 65536 [] s with parts := (poorT s).parts, rates := (poorT s).rates }
     let x := viW id w (nmF 255 1 16)
     bucketHolds v.st (blkCore v.b) v.b.part 3 128 = true ∧ Issues h0 (stW id w (nmF 255 1 16)) x ∧ OperandsReady [.hd 2, .c 1, pairOpd 10, ssrc 0, .s 12 1 true true] x ∧
       namePairOf x 10 = some (nmT, 255, 1) ∧ (payloadCheck x 1 0 16 pW).isNone = true ∧ rangesOf x.st 0 < 32 ∧ bucketHolds x.st 0 0 3 128 = false) ∧
    (let fl := fun (s : State) => { s with flits := [{ flitT 0 17 1 true with body := .nameOp 7 }] }
     ∀ o ∈ [OpBody.publish nmT 2 false 0 1 (some [9]), .stopref nmT, .subn nmT 0 .restart],
       nameOpArrived (opS o fl) 7 = false ∧ nameOpArrived (opS o id) 7 = true ∧ tget (opS o fl).ops 7 = some (opT o) ∧ (viewAt (opS o fl) 1 0).isSome = true ∧
         lumberForLog (opS o (dirT 16 [])) 0 o = .room) ∧
    (let o := OpBody.fetchn nmT 1 9 32 16 8 (some (255, List.replicate 32 7))
     let p := OpBody.fetchn nmT 1 9 32 16 8 (some (1, List.replicate 16 7))
     tget (opS o id).ops 7 = some (opT o) ∧ viewAt (opS o id) 1 0 = some (opV o id) ∧ (tget (opS o id).blocks 1).isSome = true ∧
       tget (opS p id).ops 7 = some (opT p) ∧ viewAt (opS p id) 1 0 = some (opV p id) ∧ (tget (opS p id).blocks 1).isSome = true ∧
       (0 < 16 ∧ 0 ∉ (opT p).wrote) ∧ 15 ∉ (opT p).wrote) ∧
    (let o := OpBody.fetchn nmT 1 4 32 16 8 none
     let w := fun s => { s with clock := 5 }
     tget (opS o w).ops 7 = some (opT o) ∧ viewAt (opS o w) 1 0 = some (opV o w) ∧ (opV o w).b.phase = .resident ∧ 4 < (opS o w).clock ∧
       noTiles (opS o w) (blkCore (opV o w).b) = true) ∧
    (let P := fun (sl : Bool) (bs : List W8) => OpBody.publish nmT (if sl then 255 else 2) sl 0 bs.length (some bs)
     let S := fun (sl : Bool) (bs : List W8) (ln : Nat) (r : NameRec) => opS (P sl bs) (dirT ln [(nmT, r)])
     let bs := List.replicate 32 (9 : W8)
     viewAt (opS (P false bs) mapT) 1 0 = some (opV (P false bs) mapT) ∧ dirEntry (opS (P false bs) mapT) 0 (nameTid nmT) = none ∧
     (∀ x ∈ [S false bs 16 (recT 0 [] false []), S false bs 32 (recT 255 [] false []), S false bs 32 (recT 2 [] false []), S false bs 32 (recT 1 [] true []),
             S true [] 32 (recT 0 [] false []), S true bs 32 (recT 254 [] true []), S false bs 32 (recT 1 [] false [])],
       (dirEntry x 0 (nameTid nmT)).isSome = true ∧ nameHome x 0 nmT = some 0 ∧ (stopAt x 0).ents = [] ∧ (stopAt x 0).shelves = [] ∧ (viewAt x 1 0).isSome = true ∧
         unitsOf bs.length ≤ freeUnits x 0 0) ∧
     (dirEntry (S false bs 16 (recT 0 [] false [])) 0 (nameTid nmT)).map dMaxlen = some 16 ∧ (nameRec (S false bs 32 (recT 255 [] false [])) 0 nmT).ver = 255 ∧
     nameRec (S false bs 32 (recT 2 [] false [])) 0 nmT = recT 2 [] false [] ∧ nameRec (S false bs 32 (recT 1 [] true [])) 0 nmT = recT 1 [] true []) ∧
    (let w := fun (r : NameRec) => opS (.stopref nmT) (dirT 16 [(nmT, r)])
     dirEntry (opS (.stopref nmT) mapT) 0 (nameTid nmT) = none ∧ dirEntry (w (recT 255 [] false [])) 0 (nameTid nmT) ≠ none ∧
       (nameRec (w (recT 255 [] false [])) 0 nmT).ver = 255 ∧ (nameRec (w (recT 254 [] false [])) 0 nmT).ver ≠ 255) ∧
    (let w := fun (n : Nat) => opS (.subn nmT 0 .restart) (fun s => { dirT 16 [(nmT, recT 0 [] false (List.replicate n { launch := 9, stage := 0, mode := .restart, owed := false }))] s with
                launches := [(0, { launchT with stages := [stageT (if n = 0 then 2 else 3)] })] })
     (viewAt (w 7) 1 0).isSome = true ∧ subStage (w 0) 0 0 = false ∧ subStage (w 7) 0 0 = true ∧ dirEntry (w 7) 0 (nameTid nmT) ≠ none ∧ (nameRec (w 7) 0 nmT).ver = 0 ∧
       (nameRec (w 7) 0 nmT).subs.any (fun x => x.launch == 0 && x.stage == 0) = false ∧ (nameRec (w 7) 0 nmT).subs.length < 8) := by
  refine ⟨issues_of rfl rfl rfl (.inl rfl) (by decide +kernel), issues_of rfl rfl rfl (.inl rfl) (by decide +kernel), issues_of rfl rfl rfl (.inl rfl) (by decide +kernel),
    issues_of rfl rfl rfl (.inl rfl) (by decide +kernel), issues_of rfl rfl rfl (.inl rfl) (by decide +kernel), issues_of rfl rfl rfl (.inl rfl) (by decide +kernel), ?_,
    by decide +kernel, ⟨by decide +kernel, issues_of rfl rfl rfl (.inl rfl) (by decide +kernel), ready_of (by decide +kernel), by decide +kernel⟩, by decide +kernel,
    by decide +kernel, ⟨rfl, rfl, rfl, by decide +kernel, by decide +kernel⟩, ⟨rfl, by decide +kernel⟩, by decide +kernel, by decide +kernel⟩
  simp only [List.forall_mem_cons, List.not_mem_nil, false_imp_iff, implies_true, and_true]
  refine ⟨?_, ?_, ?_, ?_, ?_, ?_⟩ <;>
    exact ⟨by decide +kernel, by decide +kernel, ready_of (by decide +kernel), ready_of (by decide +kernel), ready_of (by decide +kernel)⟩

theorem test_witness_TileNetworkResults :
    let p : IPkt := { part := 0, name := nmT, vmin := 3, deadline := 4, stop := 5, dir := 2, hdr := hdrT .interest 0 1 1 true }
    let q : IPkt := { part := 0, name := nmT, vmin := 9, deadline := 4, stop := 5, dir := 1, hdr := hdrT .interest 0 2 2 false }
    let d := dirT 65536 [(nmT, recT 3 [] false [])]
    let s := fun (w : State → State) (k : Nat) => { w State.reset with clock := k, ipkts := [q, p] }
    let x : TPkt := { part := 0, name := nmT, ver := 3, payload := [], words := [], kind := .tile, stop := 5, dir := 1, out := 0, hdr := hdrT .tile 9 2 3 false }
    let e : IEnt := { part := 0, name := nmT, ws := [{ dir := 4, vmin := 3, deadline := 4, mark := false }], up := some (3, 4) }
    let sh := fun (v : Nat) => ({ part := 0, name := nmT, ver := v, payload := [], used := 0, words := [] } : Shelf)
    (s d 5).ipkts[1]? = some p ∧ p.deadline < (s d 5).clock ∧
    (let t := { s mapT 4 with ipkts := [p, p] }
     t.ipkts[1]? = some p ∧ heldUp t 1 p = true ∧ noTiles { s mapT 4 with tpkts := [x] } 5 = false) ∧
    interestTurn (s mapT 4) 1 p = true ∧ noTiles (s mapT 4) p.stop = true ∧ dirEntry (s mapT 4) 0 (nameTid p.name) = none ∧ p.dir ≠ 0 ∧ p.dir ≠ 5 ∧
    tileLeaves (s mapT 4) (newTile (s mapT 4) 0 p.name 0 [] .removed 5) 2 = true ∧
    interestTurn (s d 4) 1 p = true ∧ noTiles (s d 4) p.stop = true ∧ (dirEntry (s d 4) 0 (nameTid p.name)).isSome = true ∧ nameHome (s d 4) 0 p.name = some 0 ∧
    shelfAnswer (s d 4) 0 p.stop p.name p.vmin = none ∧ findEnt (s d 4) p.stop 0 p.name = none ∧ entryFree (s d 4) p.stop 0 = true ∧ p.stop ≠ 0 ∧
    (let t := { s d 4 with stops := [(5, { ents := [], shelves := [sh 3] })] }
     interestTurn t 1 p = true ∧ noTiles t p.stop = true ∧ nameHome t 0 p.name = some 0 ∧ (shelfAnswer t 0 p.stop p.name p.vmin).isSome = true ∧
         (shelfAnswer { t with tpkts := [{ x with dir := 0, out := 2 }] } 0 p.stop p.name p.vmin).map
           (fun a => tileLeaves { t with tpkts := [{ x with dir := 0, out := 2 }] } a 2) = some false) ∧
    (let r := { p with dir := 5 }
     let t := { s d 4 with ipkts := [r] }
     t.ipkts[0]? = some r ∧ interestTurn t 0 r = true ∧ noTiles t r.stop = true ∧ (dirEntry t 0 (nameTid r.name)).isSome = true ∧
       nameHome t 0 r.name = some 0 ∧ r.stop ≠ 0) ∧
    (shelfAnswer (s d 4) 0 0 p.name p.vmin).isSome = true ∧
    (let two := { s d 4 with tpkts := [x, { x with hdr := hdrT .tile 9 3 4 false }] }
     let y := { x with dir := 2, hdr := hdrT .tile 9 1 4 false }
     let cross := { s d 4 with tpkts := [x, y], stops := [(5, { ents := [e], shelves := [] })] }
     two.tpkts.length = 2 ∧ ¬ (y.dir = x.dir ∧ y.out = x.out) ∧ tileReady cross 1 y = true ∧ 4 ∈ tileOuts cross y ∧ 4 ∈ tileOuts cross x ∧
       y.hdr.born < x.hdr.born) ∧
    (let y := { x with dir := 0, out := 2 }
     let t := { s d 4 with tpkts := [y] }
     t.tpkts[0]? = some y ∧ tileTurn t 0 y = true ∧ y.out ≠ 0) ∧
    (let t := { s d 4 with tpkts := [x], stops := [(5, { ents := [e], shelves := [sh 3] })] }
     t.tpkts[0]? = some x ∧ tileTurn t 0 x = true ∧ x.kind = .tile ∧ findEnt t x.stop x.part x.name = some e ∧ x.out = 0 ∧ x.dir ≠ 0 ∧ t.clock ≤ 4 ∧
       olderShelf t x = false) ∧
    (let t := { s d 5 with stops := [(5, { ents := [e], shelves := [] })] }
     noTiles t 5 = true ∧ (stopAt t 5).ents = [e] ∧ 4 < t.clock) ∧
    (let t := { State.reset with parts := [(0, { partT with removals := [(5, 4), (5, 5)] })], stops := [(5, { ents := [], shelves := [sh 3] })] }
     (5, 5) ∈ (partOf t 0).removals ∧ (stopAt t 5).ents = []) := by
  and_intros <;> decide +kernel

/-! Window 9 of one rank over page 1, and what the collectives read. -/

def winT (w : Window) (s : State) : State := { mapT s with parts := [(0, { partT with wins := [(9, w)], ranks := [(0, 3)] })] }
def win1 : Window := { base := 0x10000, length := 64, nranks := 1, myrank := 0, cin := 5, cout := 6, coll := 3, gone := [], issued := [] }
def colF (put : List (Nat × Nat)) (g : Group) : Group :=
  { g with s := (([(13, 9), (20, 0), (21, 32768), (22, 1), (24, 0), (30, 0), (31, 16384), (32, 32768), (33, 49152), (34, 4096 * 2 ^ 32 + 8192)] ++ put)
    : List (Nat × Nat)).foldl (fun t e => tput t e.1 (BitVec.ofNat 64 e.2)) g.s }
def cntB (b : Block) : Block := { b with scratch := [(0, 2)] }

def xreqT (blk : W32) (grp : Nat) (m : Lanes) : XReq :=
  { block := blk, stage := 0, group := grp, cnt := 2, big := false, v := 254, exec := m, safe := true, mask := 0x00FFFFFFFFFFFFFF, sent := false, since := 0 }
def xchgT (blk : W32) (grp : Nat) (m : Lanes) : Group := { gT with run := .stalled, xreq := some (xreqT blk grp m) }

theorem test_witness_WindowAndCollectiveResults_issue :
    let V := fun (put : List (Nat × Nat)) => viW cntB (winT win1) (colF put)
    let I := fun (put : List (Nat × Nat)) => Issues h0 (stW cntB (winT win1) (colF put)) (V put)
    let puts := fun (tg len w : Nat) => V [(14, tg), (15, len), (13, w)]
    let v := V []
    I [] ∧ I [(14, 60), (15, 4), (13, 9)] ∧ I [(14, 64), (15, 4), (13, 9)] ∧ I [(14, 0), (15, 65536), (13, 8)] ∧ I [(14, 0), (15, 4), (13, 65536 + 9)] ∧ I [(22, 1927)] ∧
    I [(34, 2 ^ 32 + 1)] ∧ I [(35, 5)] ∧ I [(35, 6)] ∧ I [(35, 7)] ∧ I [(36, 2 ^ 40 + 77)] ∧ I [(36, 32 * 2 ^ 40 + 77)] ∧
    (logFind v.b (nextKey v) = none ∧ opOfKey v.st v.uid (nextKey v) = none ∧ rangesOf v.st (blkCore v.b) ≤ 30 ∧ isHandler v = false ∧ v.b.depth = 0) ∧
    (∀ o ∈ [[.hd 2, .c 1, ssrc 0, ssrc 13, .s 14 2 true false], [.hd 2, .c 1, ssrc 13, .s 20 3 true false], [.hd 2, .c 1, .c 8, ssrc 13, ssrc 0, .s 23 2 true false],
            [.hd 2, .c 1, .s 30 2 true false, .s 32 2 true false, ssrc 34], [ssrc 13, sdst 63], [ssrc 13, ssrc 35, sdst 63], [Opd.s 36 1 true false]], OperandsReady o v) ∧
    (∀ p ∈ [puts 60 4 9, puts 64 4 9, puts 0 4 (65536 + 9), puts 0 65536 8], (windowWord (readS p.g 13)).isSome = true ∧ (readS p.g 15).toNat % 4 = 0 ∧
      (readS p.g 14).toNat % 4 = 0 ∧ (readS p.g 15).toNat ≠ 0 ∧ (readS p.g 15).toNat < 2 ^ 24 ∧ (checkRange p (readC p.g 1) 0 (readS p.g 15).toNat 4 pR [1]).isNone = true) ∧
    windowWord (readS v.g 13) = some (9, 0) ∧ windowOf v.st 0 9 = some win1 ∧ rankAt v.st 0 0 = some (.here 0) ∧ bucketHolds v.st (blkCore v.b) v.b.part 2 128 = true ∧
    (let w := fun s => { winT win1 s with parts := [(0, { setCtl partT 0x114 0x0001000100010001 with wins := [(9, win1)], ranks := [(0, 3)] })], rates := (poorT s).rates }
     putStatus (w State.reset) 0 9 0 60 4 = none ∧ bucketHolds (w State.reset) 0 0 2 128 = false) ∧
    putStatus v.st 0 9 0 60 4 = none ∧ putStatus v.st 0 9 0 64 4 = some 0x0303 ∧ putStatus v.st 0 9 1 0 4 = some 0x0302 ∧ putStatus v.st 0 8 0 0 65536 = some 0x0301 ∧
    (∀ n ∈ [1, 1927], (checkRange v (readC v.g 1) 0 (17 * n) 1 pR [1]).isNone = true ∧ (checkRange v (readC v.g 1) 32768 (17 * n) 1 pW [1]).isNone = true) ∧
    ((checkRange v (readC v.g 1) 0 4 4 pR [1]).isNone = true ∧ (checkRange v (readC v.g 1) 4 8 4 pW [1]).isNone = true ∧ leNat (bgets v.b.scratch 0 4) = 2 ∧
      (checkRange v (readC v.g 8) 0 8 4 pR [0]).isNone = true) ∧
    ((checkRange v (readC v.g 1) 0 16384 2 pR [1]).isNone = true ∧ (checkRange v (readC v.g 1) 16384 16384 2 pW [1]).isNone = true ∧
      (checkRange v (readC v.g 1) 32768 16384 4 pW [1]).isNone = true ∧ (checkRange v (readC v.g 1) 49152 16384 4 pW [1]).isNone = true ∧
      fld (readS v.g 34) 0 17 = 8192 ∧ fld (readS v.g 34) 32 16 = 4096 ∧ fld (readS v.g 34) 17 15 = 0 ∧ fld (readS v.g 34) 48 16 = 0) ∧
    (∀ n ∈ [1, 32], partnerWord (BitVec.ofNat 64 (n * 2 ^ 40 + 77)) false = some (77, 0, 0, n) ∧ (indexFaults v 0 true n).isNone = true ∧ rangeAny (vPending v) 0 n = false ∧
      rangeAny (fun i => !thas v.g.v i) 0 n = false) ∧
    v.b.index ≠ 77 ∧ (partnerBlock v.st v.b.launch 77 0).isNone = true ∧ firstWaiter v (none, 0) = none ∧
    (let other := { fetchBlock 1 with index := 1, groups := [{ gT with run := .stalled, xreq := some { xreqT v.b.index 0 1 with since := 3 } }] }
     firstWaiter { v with st := { v.st with blocks := v.st.blocks ++ [(2, other)] } } (none, 0) = some (2, 0) ∧ 2 ≠ v.uid ∧ other.ending.isNone = true ∧
       v.b.fault = none ∧ v.b.ending = none) := by
  refine ⟨issues_of rfl rfl rfl (.inl rfl) (by decide +kernel), issues_of rfl rfl rfl (.inl rfl) (by decide +kernel), issues_of rfl rfl rfl (.inl rfl) (by decide +kernel),
    issues_of rfl rfl rfl (.inl rfl) (by decide +kernel), issues_of rfl rfl rfl (.inl rfl) (by decide +kernel), issues_of rfl rfl rfl (.inl rfl) (by decide +kernel),
    issues_of rfl rfl rfl (.inl rfl) (by decide +kernel), issues_of rfl rfl rfl (.inl rfl) (by decide +kernel), issues_of rfl rfl rfl (.inl rfl) (by decide +kernel),
    issues_of rfl rfl rfl (.inl rfl) (by decide +kernel), issues_of rfl rfl rfl (.inl rfl) (by decide +kernel), issues_of rfl rfl rfl (.inl rfl) (by decide +kernel),
    by decide +kernel, ready_all (by decide +kernel), by and_intros <;> decide +kernel⟩

def aredT : OpBody := .ared 9 3 0 64 1 .e2m1
def a2avT (send : Nat) (ends : List Nat) : OpBody := .a2av 9 3 4 0 0x10000 0 [send] [[]] ends none
def sortT (e : Nat) : OpBody := .sortk 0 16 32 48 2 e
def aredC (n : Nat) : RColl := { RColl.init with ared := true, esz := ctNat .e2m1, n := n, bytes := List.replicate (17 * n) 0 }
def a2avC (send : Nat) (landed : Bool) : RColl := { RColl.init with esz := 4, send := [send], len := 64, landed := landed }
/-- What the one rank of window 9 has issued as collective 3. -/
def issuedT (c : RColl) : Window := { win1 with issued := [(collKey 3 0, c)] }

theorem test_witness_WindowAndCollectiveResults_swap :
    (let a := fun (sent : Bool) => { fetchBlock 1 with groups := [{ gT with run := .stalled, xreq := some { xreqT 1 0 1 with sent := sent } }] }
     let b := fun (core : Nat) (sent : Bool) =>
       { fetchBlock 1 with index := 1, groups := [{ gT with run := .stalled, xreq := some { xreqT 0 0 3 with sent := sent } }],
                           place := some { core := core, seat := 0, row := 0, scr := 0, bar := [] } }
     let s := fun (core : Nat) (sent : Bool) => { State.reset with blocks := [(1, a sent), (2, b core sent)] }
     (∀ p ∈ [(1, false), (255, false), (255, true)], (viewAt (s p.1 p.2) 1 0).isSome = true ∧ (viewAt (s p.1 p.2) 2 0).isSome = true ∧
        partnerBlock (s p.1 p.2) (a p.2).launch 1 0 = some (2, b p.1 p.2) ∧ (b p.1 p.2).fault = none ∧ (b p.1 p.2).phase = .resident) ∧
     namesMe (xreqT 0 0 3) (a false) 0 = true ∧ (a false).phase = .resident ∧ (a false).fault = none ∧ (xreqT 0 0 3).cnt = (xreqT 1 0 1).cnt ∧
     clusterOf (blkCore (a false)) = clusterOf 1 ∧ clusterOf (blkCore (a false)) ≠ clusterOf 255 ∧ exchArrived (s 255 true) 1 0 = true ∧
     exchArrived { s 255 true with flits := [{ flitT 0 255 1 true with plane := .exchange, body := .exch 1 0 }] } 1 0 = false) ∧
    (let a := { fetchBlock 1 with groups := [xchgT 0 1 1, xchgT 0 0 3] }
     let s := { State.reset with blocks := [(1, a)] }
     partnerBlock s a.launch 0 0 = some (1, a) ∧ (viewAt s 1 1).isSome = true ∧ (1, 1) ≠ (1, 0) ∧ namesMe (xreqT 0 0 3) a 0 = true) := by
  decide +kernel

theorem test_witness_WindowAndCollectiveResults :
    (let o := fun l => OpBody.put 4 0 8 9 0 56 l
     let s := fun l => opS (o l) (winT win1)
     windowOf (s [0]) (partOfBlk (s [0]) 1) 9 = some win1 ∧ rankWindow (s [0]) 0 9 0 = some (0, win1) ∧ 8 / 4 ≤ [0, 1].length ∧
       opBound (s [0]) 7 (opT (o [0])) = true ∧ opMaySend (s [0]) (opT (o [0])) = true ∧ lumberForLog (s [0, 1]) 0 (o [0, 1]) = .room ∧
       tget (s [0]).ops 7 = some (opT (o [0])) ∧ tget (s [0, 1]).ops 7 = some (opT (o [0, 1])) ∧ 1 < 8 / 4 ∧ 1 ∉ [0] ∧
       (landBytes (s [0]) (opT (o [0])) 0 (0x10000 + 56 + 1 * 4) (opScratch (s [0]) (opT (o [0])) 4 4) matches .done _) = true) ∧
    (let two := fun (n : Nat) => { win1 with nranks := 2, issued := [(collKey 3 0, aredC 1), (collKey 3 1, aredC n)] }
     let s := fun w => opS aredT (winT w)
     let both := fun w => { s w with parts := [(0, { partT with wins := [(9, w)], ranks := [(0, 3), (1, 3)] })] }
     collOf aredT = some (9, 3) ∧ opBound (s win1) 7 (opT aredT) = true ∧ rankMissing (s (two 1)) 0 9 (two 1) = true ∧ rankMissing (s win1) 0 9 win1 = false ∧
       rankGone 3 { win1 with gone := [3] } = true ∧ rankGone 3 win1 = false ∧ thas win1.issued (collKey 3 0) = false ∧
       rankAt (s win1) 0 0 = some (.here 0) ∧ (tget (s win1).blocks 1).isSome = true ∧ lumberForLog (s win1) 0 aredT = .room ∧
       lumberForLog (s (issuedT (aredC 1))) 0 aredT = .room ∧ (opT aredT).wrote = [] ∧
       thas (issuedT (aredC 1)).issued (collKey 3 0) = true ∧ ranksOf (issuedT (aredC 1)) 3 = some [aredC 1] ∧ [aredC 1].all (agree (aredC 1)) = true ∧
       rankMissing (both (two 2)) 0 9 (two 2) = false ∧ ranksOf (two 2) 3 = some [aredC 1, aredC 2] ∧ [aredC 1, aredC 2].all (agree (aredC 1)) = false) ∧
    (let w := issuedT (a2avC 1 true)
     let s := opS (a2avT 1 []) (winT w)
     let cs := [a2avC 1 true]
     let r := engineRead s (opT (a2avT 1 [])) 0x10000 4
     collOf (a2avT 1 []) = some (9, 3) ∧ ranksOf w 3 = some cs ∧ cs.all (agree (a2avC 1 true)) = true ∧ rankGone 3 w = false ∧ rankMissing s 0 9 w = false ∧
       refuses cs 4 0 = false ∧ opBound s 7 (opT (a2avT 1 [])) = true ∧ rankWindow s 0 9 0 = some (0, w) ∧ opMaySend s (opT (a2avT 1 [])) = true ∧
       (landBytes (noteFirst r.1 7 0x10000 none r.2.2.2) (opT (a2avT 1 [])) 0 (0x10000 + (recvOffset cs 4 0 0 + 4 * 0)) r.2.1 matches .done _) = true ∧
       allLanded w 3 4 cs [0] = true ∧ lumberForLog (opS (a2avT 1 [0]) (winT w)) 0 (a2avT 1 [0]) = .room ∧
       refuses [{ a2avC 1 true with len := 3 }] 4 0 = true ∧ allLanded (issuedT { a2avC 1 false with len := 3 }) 3 4 [{ a2avC 1 false with len := 3 }] [] = true ∧
       (let v := issuedT (a2avC 0 false)
        ranksOf v 3 = some [a2avC 0 false] ∧ [0].getD 0 0 ≤ (([[]] : List (List Nat)).getD 0 []).length)) ∧
    (let s := fun e (x : Cells) => stW (fun b => { b with scratch := x }) (fun s => withOp (sortT e) (winT win1 s)) pendT
     let keys := fun e x => (List.range 2).map (fun i => leNat (bgets ((tget (s e x).blocks 1).map (fun b => b.scratch) |>.getD []) (0 + 2 * i) 2))
     tget (s 1 []).ops 7 = some (opT (sortT 1)) ∧ (opT (sortT 1)).cancel = false ∧ (opT (sortT 1)).got = [] ∧ (opT (sortT 1)).wrote = [] ∧
       2 ≤ 65536 ∧ 16 + 2 * 2 ≤ 32 ∧ 32 + 4 * 4 ≤ 48 ∧ keys 1 [(0, 1)] = [1, 0] ∧ (keys 1 [(0, 1)]).any (fun k => decide (1 ≤ k) && k != 0xFFFF) = true ∧
       keys 4096 [(0, 255), (1, 255), (2, 255), (3, 15)] = [0xFFFF, 4095] ∧
       (keys 4096 [(0, 255), (1, 255), (2, 255), (3, 15)]).any (fun k => decide (4096 ≤ k) && k != 0xFFFF) = false) := by
  refine ⟨by decide +kernel, by decide +kernel, by decide +kernel, by decide +kernel⟩

def selF (g : Group) : Group :=
  { g with s := ([(37, 0x053F0000), (38, 0x01000000), (39, 0x0B000000)] : List (Nat × W64)).foldl (fun t e => tput t e.1 e.2) g.s }
def busyB (b : Block) : Block := { b with groups := [gT, gT] }
def trOn (s : State) : State := { s with parts := [(0, { Part.init with ctl := [(0x170, 5)] })] }

theorem test_witness_SystemInstructionResults :
    let v := viW handT (runT (faultT 1 6) id) selF
    let u := viW id trOn id
    let n := viW handT (runT (faultT 1 6) busyB) selF
    Issues h0 sT vT ∧ OperandsReady [ssrc 63] vT ∧ OperandsReady [sdst 63] vT ∧ traceOn vT.st vT.b.part 2 = false ∧ OperandsReady [.hd 15] vT ∧
    Issues h0 (stW id trOn id) u ∧ OperandsReady [ssrc 63] u ∧ traceOn u.st u.b.part 2 = true ∧
    bufUnits (tgetD u.st.clusters (clusterOf (blkCore u.b)) Cluster.init).buf < 1024 ∧
    Issues h0 (stW handT (runT (faultT 1 6) id) selF) v ∧ isHandler v = true ∧
    (∀ o ∈ [[Opd.hd 15], [.hd 15, ssrc 63], [ssrc 37, sdst 63], [ssrc 38, sdst 0], [ssrc 37, ssrc 63], [ssrc 38, ssrc 0], [ssrc 39, ssrc 0]], OperandsReady o v) ∧
    selectorOf (readS v.g 37) = some (5, 63, 0, 0) ∧ selectorOf (readS v.g 38) = some (1, 0, 0, 0) ∧ selectorOf (readS v.g 39) = some (11, 0, 0, 0) ∧
    (∀ k ∈ [(14, 0), (15, 1)], seatGroup v (BitVec.ofNat 4 k.1) = (trapB (some (faultT 1 6)) 7).groups[k.2]?.map (fun g => (2, k.2, trapB (some (faultT 1 6)) 7, g))) ∧
    (∀ g ∈ (trapB (some (faultT 1 6)) 7).groups, g.run = .parked ∧ (writeItem v.st (trapB (some (faultT 1 6)) 7) g (11, 0, 0, 0) (readS v.g 0)).isNone = true ∧
      (writeItem v.st (trapB (some (faultT 1 6)) 7) g (5, 63, 0, 0) (readS v.g 63)).isSome = true ∧
      (writeItem v.st (trapB (some (faultT 1 6)) 7) g (1, 0, 0, 0) (readS v.g 0)).isSome = true) ∧
    Issues h0 (stW handT (runT (faultT 1 6) busyB) selF) n ∧ isHandler n = true ∧ OperandsReady [ssrc 37, ssrc 63] n ∧
    (seatGroup n 14).map (fun x => x.2.2.2.run) = some .issuing ∧
    handledBlk v = some 2 ∧ (tget v.st.blocks 2).isSome = true ∧ 2 ≠ v.uid ∧
    (OperandsReady [sdst 63] v ∧ seatGroup v 13 = none ∧ seatGroup vT 0 = none ∧ (20 : BitVec 8) = 20 ∧ 20 < (21 : BitVec 8).toNat) ∧
    (OperandsReady [.hd 15] v ∧ OperandsReady [.hd 15, ssrc 63] v) ∧
    (let c := opT (.copy copyCmdT)
     let w := fun s => { runT (faultT 1 6) (fun b => { b with groups := b.groups.map (fun g => { g with h := [(3, .pending 7)] }) }) s with ops := [(7, { c with blk := 2, sblk := 2 })], nextOp := 8 }
     let x := viW handT w selF
     Issues h0 (stW handT w selF) x ∧ isHandler x = true ∧ OperandsReady [.hd 15] x ∧ handledBlk x = some 2 ∧
       (tget x.st.blocks 2).map (fun b => b.groups.map (fun g => tget g.h 3)) = some [some (.pending 7), some (.pending 7)]) := by
  refine ⟨issuesT, ready_of (by decide +kernel), ready_of (by decide +kernel), by decide +kernel, ready_of (by decide +kernel),
    issues_of rfl rfl rfl (.inl rfl) (by decide +kernel), ready_of (by decide +kernel), by decide +kernel, by decide +kernel,
    issues_of rfl rfl rfl (.inl rfl) (by decide +kernel), rfl, ready_all (by decide +kernel), by decide +kernel, by decide +kernel, by decide +kernel, by decide +kernel,
    by decide +kernel, issues_of rfl rfl rfl (.inl rfl) (by decide +kernel), rfl, ready_of (by decide +kernel), by decide +kernel, by decide +kernel, by decide +kernel,
    by decide +kernel, ⟨ready_of (by decide +kernel), by decide +kernel, by decide +kernel, rfl, by decide⟩, ⟨ready_of (by decide +kernel), ready_of (by decide +kernel)⟩,
    issues_of rfl rfl rfl (.inl rfl) (by decide +kernel), rfl, ready_of (by decide +kernel), by decide +kernel, by decide +kernel⟩

/-- Vectors of classes 0 to 3 at label 1, with a handler image. -/
def vecT (n : Nat) (s : State) : State :=
  { imgT 2 twoWords s with
    parts := [(0, { Part.init with ctl := [(n, 0x10001)], himage := some { image := 1, args := [8, 9], caps := [] } })] }
def ldsWords : List W64 := [0x0400000000030000, 0xA002000820400010, 0x0800000000000000, 0x0400000100020000, 0x0800000000000000, 0x0403FFFF00000000]

theorem test_witness_HandlerRunResults :
    (let s := fun (n q : Nat) (f : FaultRec) => { vecT n State.reset with blocks := [(2, trapB (some f) 0)], cores := [(0, { Core.init with queue := List.replicate q 9 })] }
     (∀ p ∈ [(0x130, faultT 0 1), (0x14B, faultT 3 15), (0x139, faultT 1 6)], handlerEntry (s p.1 16 p.2) 0 p.2 = some 1 ∧ allParked (trapB (some p.2) 0) = true) ∧
       (coreOf (s 0x130 16 (faultT 0 1)) 0).queue.length < 17 ∧ (handlerEntry (s 0x130 0 (faultT 3 3)) 0 (faultT 3 3)).isNone = true ∧
       emulable (s 0x130 0 (faultT 3 3)) (trapB (some (faultT 3 3)) 0) (faultT 3 3) = false ∧ (trapB (some (faultT 3 3)) 0).queued = false ∧
       (trapB (some (faultT 3 3)) 0).kind ≠ .handler ∧ (trapB none 0).phase = .resident ∧ (trapB none 0).ending = none ∧
       (let b := { trapB (some (faultT 0 1)) 0 with faultAt := 5 }
        let e := fun (at' : Nat) => { s 0x130 0 (faultT 0 1) with blocks := [(2, b), (3, { b with faultAt := at' })], cores := [(0, { Core.init with queue := [4] })] }
        earlierFault (e 4) b = true ∧ earlierFault (e 5) b = false ∧ [4].all (fun x => (tget (e 5).blocks x).all (fun y => decide (y.faultAt ≤ b.faultAt))) = true)) ∧
    (let s := { vecT 0x130 State.reset with blocks := [(2, trapB (some (faultT 0 1)) 0)], cores := [(0, { Core.init with queue := [2] })] }
     (coreOf s 0).hrun = none ∧ (coreOf s 0).queue = [2] ∧ handlerEntry s 0 (faultT 0 1) = some 1 ∧ (partOf s 0).himage.isSome = true ∧
       findLabel twoWords 1 = .ok 2 ∧ 1 < 2 ∧ 2 < 65536 ∧ (tget s.images 1).map (fun i => i.labels) = some 2 ∧ (tget s.blocks (handlerUid 0)).isNone = true ∧ (partOf s 0).holds = [] ∧
       s.ops = []) ∧
    (let f := faultT 3 3
     let w := runT f id
     let v := viW handT w id
     Issues h0 (stW handT w id) v ∧ isHandler v = true ∧ runOf v = some (hrunT f) ∧ (hrunT f).live = true ∧ (hrunT f).kill = false ∧ tget v.st.blocks 2 = some (trapB (some f) 7) ∧ 2 ≠ v.uid ∧ OperandsReady [] v ∧
       fatalTrap 3 3 = false ∧ fatalTrap 3 4 = true ∧ (trapB (some f) 7).halted = false ∧ (trapB (some f) 7).record = some (snapT 2) ∧ (trapB (some f) 7).partners = [] ∧
       mayRefire (trapB (some f) 7) = true ∧ (trapB (some f) 7).refires < 8) ∧
    (let w := runT (faultT 3 4) id
     Issues h0 (stW handT w id) (viW handT w id) ∧ OperandsReady [] (viW handT w id) ∧ runOf (viW handT w id) = some (hrunT (faultT 3 4))) ∧
    (let f := faultT 1 6
     let w := fun s => imgT 2 ldsWords (runT f id s)
     let v := viW handT w id
     Issues h0 (stW handT w id) v ∧ OperandsReady [] v ∧ emulable v.st (trapB (some f) 7) f = true ∧
       faultInstr v.st (trapB (some f) 7) f = some (.lds h0 .w32 8 2 (.v 4) 16) ∧ (trapB (some f) 7).groups[f.gid]?.map (fun g => g.run) = some .parked) ∧
    (∀ n ∈ [0x400, 0x4FF],
      let f := fun (g : Group) => { g with s := tput g.s 63 n }
      let w := runT (faultT 3 3) id
      Issues h0 (stW handT w f) (viW handT w f) ∧ OperandsReady [ssrc 63] (viW handT w f) ∧ readS (viW handT w f).g 63 = n ∧ n >>> 16 = 0 ∧ 0x400 ≤ n.toNat ∧ n.toNat ≤ 0x4FF) ∧
    (let e : Emul := { load := true, v := 8, regs := 1, todo := [(0, 0, 4, 0), (0, 1, 5, 0)], got := [], gaps := [], exec := 1, safe := false, mask := 0 }
     let s := fun (e : Emul) (w : State → State) => w { State.reset.withFetchWord 64 0 with blocks := [(1, bW id (fun g => { g with emul := some e }))] }
     let v := fun (e : Emul) (w : State → State) => viewAt { s e w with cur := some (1, 0) } 1 0
     ∀ p ∈ [(e, 4), ({ e with todo := [(0, 1, 5, 0)] }, 5)], (s p.1 id).agenda = [] ∧ nextIssuer (s p.1 id) = some (1, 0) ∧
       ((v p.1 id).map (fun v => (isHandler v, v.g.emul, bytesHeld v [p.2] false, v.g.active == 0))) = some (false, some p.1, false, false) ∧
       ((v p.1 rangeT).map (fun v => (isHandler v, bytesHeld v [p.2] false))) = some (false, true) ∧ nextIssuer (s p.1 rangeT) = some (1, 0)) ∧
    (let s := fun n => { State.reset with blocks := [(2, trapB none n)] }
     (∀ n ∈ [7, 8], tget (s n).blocks 2 = some (trapB none n) ∧ (trapB none n).record = some (snapT 2) ∧ (trapB none n).refires = n ∧ (trapB none n).fault = none)) ∧
    (let b := { fetchBlock 1 with kind := .handler, entry := 1, record := some (snapT 1) }
     let s := { vecT 0x130 State.reset with blocks := [(handlerUid 0, b)], cores := [(0, { Core.init with hrun := some (hrunT (faultT 0 1)) })] }
     (coreOf s 0).hrun = some (hrunT (faultT 0 1)) ∧ tget s.blocks (handlerUid 0) = some b ∧ (snapT 1).groups = [gT] ∧ markerKind twoWords b.entry = some 0 ∧
       (tget s.images b.image).map (fun i => i.versions.headD []) = some twoWords ∧ (partOf s b.part).holds = []) ∧
    (let s := { State.reset with blocks := [(2, { fetchBlock 1 with groups := [{ gT with hang := 101 }] })], parts := [(0, { Part.init with ctl := [(0x117, 100)] })] }
     (viewAt s 2 0).map (fun v => v.g.hang) = some 101 ∧ pctl s 0 0x117 = 100 ∧ blockLive (fetchBlock 1) = true) := by
  refine ⟨by decide +kernel, by decide +kernel, ⟨issues_of rfl rfl rfl (.inl rfl) (by decide +kernel), rfl, rfl, rfl, rfl, by decide +kernel, by decide +kernel, ready_of (by decide +kernel), by decide +kernel⟩,
    ⟨issues_of rfl rfl rfl (.inl rfl) (by decide +kernel), ready_of (by decide +kernel), rfl⟩,
    ⟨issues_of rfl rfl rfl (.inl rfl) (by decide +kernel), ready_of (by decide +kernel), by decide +kernel, by decide +kernel, by decide +kernel⟩, ?_,
    by decide +kernel, by decide +kernel, by decide +kernel, by decide +kernel⟩
  simp only [List.forall_mem_cons, List.not_mem_nil, false_imp_iff, implies_true, and_true]
  refine ⟨⟨issues_of rfl rfl rfl (.inl rfl) (by decide +kernel), ready_of (by decide +kernel), by decide +kernel⟩,
    issues_of rfl rfl rfl (.inl rfl) (by decide +kernel), ready_of (by decide +kernel), by decide +kernel⟩

/-- Partition 0 with one cluster. -/
def smallT (ctl : List (Nat × W64)) (s : State) : State := { s with parts := [(0, { Part.init with ctl := [(0x110, 1)] ++ ctl })] }
def commitG (g : Group) : Group := { g with arrival := .commit .pkg 0x00FFFFFFFFFFFFFF, run := .stalled }
def endG (g : Group) : Group := { g with run := .ended, active := 0 }
def bS (b : Block) (s : State) : State := { s with blocks := [(1, b)] }

theorem test_witness_BlockLifeResults :
    (∀ o ∈ [OpBody.ready 0x1234, .tlbinv, .icinv [], .icinv [(9, 0)], .haltb 2, .pages [], .pages [1]],
      tget (opS o mapT).ops 7 = some (opT o) ∧ opSaved (opS o mapT) (opT o) = false) ∧
    icLeft (opS (.icinv [(9, 0)]) mapT) [(9, 0)] = [] ∧ (opsOf (opS (.haltb 2) mapT) 2) = [] ∧
    (∀ l ∈ [[], [1]], l.any (pageDead (opS (.pages l) mapT) (partOfBlk (opS (.pages l) mapT) 1)) = false ∧ pagesLeft (opS (.pages l) mapT) 0 l = some []) ∧
    opSaved (stW (fun b => { b with phase := .saved }) (withOp (.ready 1)) pendT) (opT (.ready 1)) = true ∧
    (let b := { fetchBlock 1 with groups := [commitG gT, endG gT] }
     let s := bS b State.reset
     tget s.blocks 1 = some b ∧ b.phase = .resident ∧ b.fault = none ∧ b.ending = none ∧ allArrived b = true ∧ opsOf s 1 = []) ∧
    (let b := { fetchBlock 1 with groups := [endG gT] }
     let s := bS b State.reset
     b.kind ≠ .handler ∧ b.fault = none ∧ opsOf s 1 = [] ∧ b.sub = none ∧ (pctl s b.part 0x170).getLsbD 7 = false ∧
       (∀ g ∈ b.groups, g.run = .ended ∧ g.bubbles = 0 ∧ g.issued = false) ∧
       (let e := { fetchBlock 1 with seqno := 0 }
        let t := { s with blocks := [(1, { b with seqno := 1 }), (2, e)] }
        b.kind = .launched ∧ opsOf t 1 = [] ∧ tget t.blocks 2 = some e ∧ e.launch = b.launch ∧ e.kind = .launched ∧ e.phase = .resident ∧ e.reported = false ∧
          e.seqno.toNat < (1 : W32).toNat)) ∧
    (let b := { fetchBlock 1 with groups := [{ gT with stopped := true, safe := some 0x00FFFFFFFFFFFFFF }], preempt := true }
     let s := bS b State.reset
     mayQuiesce s 1 b = true ∧ opsOf s 1 = [] ∧ (partOf s b.part).drain = none ∧ trunkSlices s b.part (blkCore b) 65536 = none ∧
       trunkSlices (smallT [] s) b.part (blkCore b) 65536 = some [0, 1] ∧ ∀ g ∈ b.groups, saveMask g = some 0x00FFFFFFFFFFFFFF) ∧
    (let f := { Fn.init with part := some 0 }
     let s := { smallT [(0x115, 100)] (bS (fetchBlock 1) State.reset) with fns := [(0, f)], clock := 100 }
     let t := { s with parts := s.parts.map (fun e => (e.1, { e.2 with sliceLen := 100 })) }
     (fnOf t 0).part = some 0 ∧ pctl t 0 0x115 ≠ 0 ∧ (partOf t 0).sliceLen ≠ 0 ∧ (partOf t 0).ctx = 0 ∧ (partOf t 0).drain = none ∧
       (partOf t 0).sliceAt + (partOf t 0).sliceLen ≤ t.clock ∧ residentOf t 0 0 = [1]) ∧
    (let g := { gT with safe := some 0x00FFFFFFFFFFFFFF }
     let b := { fetchBlock 1 with groups := [g], preempt := true }
     (viewAt (bS b State.reset) 1 0).map (fun v => v.g) = some g ∧ b.preempt = true ∧ b.fault = none ∧ g.stopped = false ∧ g.run ≠ .ended ∧ g.run ≠ .parked ∧
       (saveMask g).isSome = true) ∧
    (let b := { fetchBlock 1 with groups := [gT], phase := .saved, place := none }
     let s := smallT [] (bS b State.reset)
     tget s.blocks 1 = some b ∧ restoreTurn s b.part 1 (candidates s b.part) = true ∧
       choosePlace s b.part b.launch b.stage.toNat b.ready b.fp = some { core := 0, seat := 0, row := 0, scr := 0, bar := List.range 16 } ∧
       rangesOf s 0 + replayRanges s 1 ≤ 32 ∧ rangesOf (fullT s) 0 + replayRanges (fullT s) 1 ≤ 32) := by
  and_intros <;> decide +kernel

def waitB (b : Block) : Block := { b with phase := .waiting, place := none, first := none, groups := [] }
def launchS (ss : List Stage) (s : State) : State := { s with launches := [(0, { launchT with stages := ss })] }
def fullFp : Footprint := { groups := 16, rows := 128, scratch := 760, barriers := 512, carry := 0 }

theorem test_witness_SchedulingResults :
    (let s := smallT [] (imgT 2 twoWords (launchS [{ stageT 0 with fired := true }] State.reset))
     ∃ x c, candidates s 0 = [c] ∧ c.src = .fresh 0 0 ∧ (tget s.launches 0).isSome = true ∧ makeBlock s 0 0 = some x ∧
       (tget x.1.blocks x.2).map (fun b => choosePlace x.1 0 b.launch b.stage.toNat b.ready b.fp) = some (some { core := 0, seat := 0, row := 0, scr := 0, bar := [] })) ∧
    (let full := { fetchBlock 1 with fp := fullFp, idle := 65536 }
     let s := smallT [] { launchS [] State.reset with
       blocks := (List.range 4).map (fun i => (i + 1, { full with place := some { core := [0, 1, 16, 17].getD i 0, seat := 0, row := 0, scr := 0, bar := [] } })) ++ [(5, waitB (fetchBlock 1))] }
     (idleVictim s 0 (candidates s 0)).map (fun x => (x.1.src, x.2)) = some (.waiting 5, 1) ∧ (tget s.blocks 1).isSome = true ∧
       (let t := { s with blocks := tput s.blocks 5 { fetchBlock 1 with phase := .saved, place := none } }
        (idleVictim t 0 (candidates t 0)).map (fun x => (x.1.src, x.2)) = some (.saved 5, 1) ∧ 1 ≠ 5)) ∧
    (let st := { stageT 0 with fired := true, next := 2 }
     let s := launchS [st, stageT 1] State.reset
     let e := launchS [{ stageT 0 with retired := true }, { stageT 3 with next := 5 }] State.reset
     tget s.launches 0 = some { launchT with stages := [st, stageT 1] } ∧ mayRetire s 0 { launchT with stages := [st, stageT 1] } 0 st = true ∧
       producedBy s { launchT with stages := [st, stageT 1] } 0 = [] ∧ (stageT 1).retired = false ∧ (stageT 1).fire = 1 ∧
       mayRetire e 0 { launchT with stages := [{ stageT 0 with retired := true }, { stageT 3 with next := 5 }] } 1 { stageT 3 with next := 5 } = true ∧
       launchT.names = [] ∧ (fnOf e launchT.fn).ring = none ∧ (fnOf e launchT.fn).held = [] ∧ (fnOf e launchT.fn).dropped = 0) ∧
    (let e := fun (b : Nat) => BitVec.ofNat 256 (b * 2 ^ 230 + 16 * 2 ^ 175 + 3 * 2 ^ 160 + 2 ^ 96)
     let l := { launchT with names := [5], stages := [{ stageT 0 with retired := true }] }
     let s := fun (b v : Nat) => { State.reset with
       launches := [(0, l)], parts := [(0, { Part.init with dir := [(5, e b)], names := [(nameOf 5 0 0, recT v [] false [])] })] }
     tget l.decided 3 = none ∧ tget { l with decided := [(3, 1)] }.decided 3 = some 1 ∧ setEntries (s 0 255) l 3 = [(5, e 0)] ∧ settled (s 0 255) l 3 = true ∧ settled (s 1 254) l 3 = false ∧ unsettled (s 1 254) l 3 = true ∧
       setEntries (s 1 254) l 3 = [(5, e 1)] ∧ l.posted.contains 3 = false ∧ (fnOf (s 0 255) l.fn).ring = none) ∧
    (let s := { launchS [stageT 0, stageT 0] State.reset with clock := 4096 }
     let l := { launchT with stages := [stageT 0, stageT 0] }
     tget s.launches 0 = some l ∧ 2 ≤ l.stages.length ∧ l.affAt + 4096 ≤ s.clock ∧ demand s 0 l 0 (stageT 0) = 0 ∧ demand s 0 l 1 (stageT 0) = 0) := by
  refine ⟨⟨_, _, rfl, by decide +kernel, rfl, rfl, by decide +kernel⟩, by decide +kernel, by decide +kernel, by decide +kernel, by decide +kernel⟩

/-! Graphs in page 1 at 0x10000: a node is its fields as (offset, width, value). -/

def nodeT (fields : List (Nat × Nat × Nat)) : Cells := fields.foldl (fun m f => bputs m f.1 (leBytes f.2.1 f.2.2)) []
def graphT (rs : Tbl NodeRun) : Graph :=
  { part := 0, fn := 0, base := 0x10000, level := 7, nodes := rs, halted := none, failed := [], started := 9, done := none }
def graphS (m : Cells) (rs : Tbl NodeRun) (w : State → State) : State :=
  { w (mapT State.reset) with parts := [(0, partT)], cellar := mapCells, lost := [], pages := [(1, { pageT with data := m })], graphs := [(5, graphT rs)], nextGr := 6, clock := 10 }
def runN (r : NodeRun) : NodeRun := { r with phase := .running }

/-- What these graphs read is what the page holds. -/
theorem test_page_read (m : Cells) (rs : Tbl NodeRun) (w : State → State) (addr n : Nat) (hv : vpnOf addr = 1) (h : 1 * 65536 ≤ addr)
    (hn : addr % 65536 + n ≤ 65536) (hp : addr + n ≤ 2 ^ 48) : cpRead (graphS m rs w) 0 addr n = .done (bgets m (addr - 1 * 65536) n) := by
  have hw : walk (graphS m rs w) 0 (vpnOf addr) = .ok (leafT 1) := by rw [hv]; exact (walk_eq rfl rfl 0 1).trans test_map_walks.1
  have hf : findPage (graphS m rs w) 0 (vpnOf addr) (leafT 1).frame = some (1, { pageT with data := m }) := by rw [hv]; rfl
  have hr : (pctl (graphS m rs w) 0 0x100).getLsbD 0 = true := (by decide +kernel : (ctl partT 0x100).getLsbD 0 = true)
  have hi : inReach (graphS m rs w) 0 addr (addr + n) = true := by
    simp only [inReach, hr, decide_eq_true hp, decide_eq_true (Nat.le_add_right addr n), Bool.and_true]
  exact cpRead_page hi hw rfl hf rfl h hn (fun _ _ => rfl)

theorem test_node_read (m : Cells) (rs : Tbl NodeRun) (w : State → State) (g : Graph) (k : Nat) (hg : g.part = 0) (hb : g.base = 1 * 65536) (hk : k < 1024) :
    readNode (graphS m rs w) g k = .done (bgets m (64 * k) 64) := by
  have h := test_page_read m rs w (1 * 65536 + 64 * k) 64 (by simp only [vpnOf]; omega) (by omega) (by omega) (by omega)
  rw [Nat.add_sub_cancel_left] at h
  rw [readNode, hg, hb, h]

theorem test_witness_GraphResults :
    (let ks : List (List (Nat × Nat × Nat)) :=
       [[(0, 1, 2), (0x20, 8, 2 ^ 40)], [(0, 1, 3), (0x28, 1, 5)], [(0, 1, 4), (3, 1, 3), (0x2C, 4, 1)], [(0, 1, 5), (0x18, 3, 5)], [(0, 1, 6)], [(0, 1, 7)],
        [(0, 1, 1), (0x10, 8, 0x1000), (0x18, 8, 0x10400)], []]
     ∀ k ∈ ks, let s := graphS (nodeT k) [] id
       let bs := bgets (nodeT k) 0 64
       tget s.graphs 5 = some (graphT []) ∧ nextNode s 0 = some (10, 0, 5) ∧ running s 0 < 64 ∧ (graphT []).base % 64 = 0 ∧
         nodeOK 0 bs = (k != []) ∧ nKind bs = (k.headD (0, 0, 0)).2.2 ∧ (graphT []).level < 8 ∧ 5 < s.nextGr) ∧
    (let d := nodeT [(0, 1, 1), (0x10, 8, 0x1000), (0x18, 8, 0x10400), (0x408, 1, 1), (0x409, 1, 10), (0x430, 8, 8 * 2 ^ 10 + 2 ^ 48), (0x438, 4, 1)]
     let s := graphS d [] (imgT 2 twoWords)
     let s1 := modNode s 5 0 (fun r => { r with phase := .running, child := 0, iter := 0, body := [], ready := 0, buf := [], held := none, wrote := false })
     (launchNode s1 0 0 (u (bgets d 0 64) 0x10 8) (u (bgets d 0 64) 0x18 8) matches .started _ 1) = true) ∧
    (let c := [(0, 1, 2), (0x20, 8, 1)]
     let b := [(0, 1, 3), (0x10, 8, 0x10100)]
     let w := [(0, 1, 5), (0x18, 3, 5)]
     let bs := fun k => bgets (nodeT k) 0 64
     (nodeRun (graphT [(0, runN NodeRun.init)]) 0).phase = .running ∧ (∀ k ∈ [c, b, w], nKind (bs k) = (k.headD (0, 0, 0)).2.2 ∧ nSuccs (bs k) = []) ∧
       u (bs c) 0x20 8 ≤ (runN { NodeRun.init with iter := 1, buf := [7] }).buf.length ∧ u (bs c) 0x20 8 ≤ (runN { NodeRun.init with iter := 1, buf := [7] }).iter ∧
       (testNode (graphS (nodeT b) [] id) (graphT []) (bs b) matches .holds true) = true ∧
       waitedStatus { State.reset with parts := [(0, { partT with seals := [(nameOf 5 0 0, 9)] })] } (graphT []) (bs w) = some 0 ∧
       (tget { State.reset with launches := [(3, { launchT with done := some 0x240 })] }.launches 3).bind (fun l => l.done) = some 0x240 ∧
       nHalts (bs [(0, 1, 1), (3, 1, 1)]) = true ∧
       (tget { State.reset with graphs := [(6, { graphT [] with done := some 0x237 })] }.graphs 6).bind (fun x => x.done) = some 0x237) ∧
    (let m := nodeT [(0, 1, 2), (2, 1, 1), (8, 2, 1), (0x20, 8, 1), (65, 1, 1)]
     let g := graphT [(0, runN { NodeRun.init with iter := 1, buf := [7] })]
     nSuccs (bgets m 0 64) = [1] ∧ 1 ≠ 0 ∧ g.halted = none ∧ (nodeRun g 1).phase = .idle ∧ (nodeRun g 1).got + 1 = max (nPreds (bgets m 64 64)) 1) ∧
    (let bs := bgets (nodeT [(0, 1, 6), (0x18, 8, 4)]) 0 64
     nKind bs = 6 ∧ u bs 0x10 8 = 0 ∧ nSuccs bs = [] ∧ (fnOf (graphS [] [] id) 0).ring = none) ∧
    (let k := bgets (nodeT [(0, 1, 4), (3, 1, 2), (0x2A, 2, 1), (0x2C, 4, 2)]) 0 64
     let R : NodeRun := { NodeRun.init with body := [1] }
     R.body ≠ [] ∧ R.child = 0 ∧ u k 0x30 8 = 0 ∧ u k 0x2C 4 ≤ 2 ∧ R.iter < u k 0x2C 4 ∧ 0 ∉ R.body ∧ u k 0x2A 2 ∈ R.body ∧ nTestFirst k = true ∧
       R.held = none ∧ nTestFirst (bgets (nodeT [(0, 1, 4), (0x2C, 4, 2)]) 0 64) = false ∧ bodyBusy (graphT [(0, runN R)]) [1] = false ∧
       (let m := nodeT [(0, 1, 4), (3, 1, 2), (0x10, 8, 0x10100), (0x2A, 2, 1), (0x2C, 4, 2)]
        (testNode (graphS m [] id) (graphT []) (bgets m 0 64) matches .holds _) = true)) ∧
    (∀ f ∈ [(0, 0), (1, 1)],
      let m := nodeT [(0, 1, 4), (3, 1, 2), (0x2A, 2, 1), (0x2C, 4, 2), (64, 1, 6), (65, 1, f.1)]
      nPreds (bgets m (64 * 1) 64) = f.2) ∧
    (let g := graphT [(0, { NodeRun.init with phase := .done })]
     g.done = none ∧ (∀ e ∈ g.nodes, e.2.phase ≠ .running) ∧ (nodeRun g 0).phase ≠ .running ∧ readyNodes 5 g = [] ∧
       (opS (.launch 5) id).ops.find? (fun e => e.2.body == .launch 5) = some (7, opT (.launch 5))) := by
  and_intros <;> decide +kernel

/-- The bodies of a LOOP whose body is node 1, and of one that names itself. -/
theorem test_witness_loop_bodies :
    (let m := nodeT [(0, 1, 4), (3, 1, 2), (0x2A, 2, 1), (0x2C, 4, 2)]
     (loopBody (graphS m [(0, runN NodeRun.init)] id) (graphT []) 0 (bgets m 0 64) matches .body [1]) = true) ∧
    (let m := nodeT [(0, 1, 4), (0x2C, 4, 2)]
     (loopBody (graphS m [(0, runN NodeRun.init)] id) (graphT []) 0 (bgets m 0 64) matches .malformed) = true) := by
  decide +kernel

/-! Pages 1 and 8 of a partition of one cluster share a slice of one frame. -/

def tightT (s : State) : State :=
  { s with cellar := bputs mapCells 0x14040 (leBytes 8 0x18001A)
           parts := [(0, { setCtl (setCtl partT 0x110 1) 0x111 1 with wait := [(3, { vpn := 8, state := .fetching, large := false })] })]
           pages := [(1, { pageT with dirty := [0] })], clock := 65536 }

def recW (x : List Nat) : TrunkRec := { part := 0, uid := 2, save := true, slices := [0, 1], bytes := [1, 2], bad := x }

theorem test_witness_MemoryAndLinkEvents_mesh :
    (∀ p ∈ [(3, 3, false), (7, 9, false), (3, 9, true), (7, 9, true)],
      let f := flitT p.1 p.2.1 5 p.2.2
      let s := { State.reset with flits := [f, flitT 40 9 6 true] }
      let dir := routeDir f.plane f.at' f.hdr.dst
      f ∈ s.flits ∧ (∀ g ∈ s.flits, g.hdr.num = f.hdr.num → g = f) ∧ sectorsGood f.sectors = p.2.2 ∧ crossesDie f.at' dir = (p.1 == 7) ∧
        (dir = 0 ↔ p.1 = 3 ∧ p.2.1 = 3) ∧
        (dir ≠ 0 → linkUp s (linkId f.at' dir) = true ∧ served s f = true ∧ roomAhead s f (neighbour f.at' dir) = true)) ∧
    (let f := flitT 3 9 5 true
     let dir := routeDir f.plane f.at' f.hdr.dst
     dir ≠ 0 ∧ linkUp { State.reset with links := [(linkId 3 dir, { Link.init with down := true })] } (linkId 3 dir) = false ∧
       served { State.reset with flits := [{ flitT 3 9 4 true with hdr := { f.hdr with num := 4 } }, f] } f = false ∧
       roomAhead { State.reset with flits := (List.range 16).map (fun i => flitT 4 9 (i + 6) true) } f 4 = false) ∧
    (let f := { flitT 4 9 5 true with inp := 1, since := 9 }
     let l := { Link.init with kept := [(0, [5])] }
     let k := linkId 3 2
     planeNum f.plane = 0 ∧ f.at' = neighbour (k / 8) (k % 8) ∧ f.inp = opposite (k % 8) ∧ ((tget l.kept 0).getD []).contains f.hdr.num = true ∧
       f.sectors ≠ [] ∧ sectorsGood f.sectors = true ∧ hdrGood f.plane f.hdr = true) ∧
    (let f := flitT 3 9 5 true
     let g := { f with hdr := { f.hdr with chk := ~~~f.hdr.chk } }
     let s := { State.reset with flits := [g] }
     hdrGood f.plane f.hdr = true ∧ hdrGood g.plane g.hdr = false ∧ routeDir g.plane g.at' g.hdr.dst ≠ 0 ∧ flitReady s g = true ∧ served s g = true) ∧
    (let h := hdrT .tile 9 1 6 false
     let x : TPkt := { part := 0, name := nmT, ver := 3, payload := [1], words := checkWords [1], kind := .tile, stop := 8, dir := 1, out := 0, hdr := h }
     let r := { x with hdr := { h with chk := ~~~h.chk } }
     let y := { x with payload := [], words := [0] }
     let s := fun p => { State.reset with tpkts := [p] }
     tileFirst (s r) 0 r = true ∧ badHdr .tile r.dir r.hdr = true ∧ tileFirst (s y) 0 y = true ∧ badHdr .tile y.dir y.hdr = false ∧
       badTile (s y) y = true) ∧
    (let h := hdrT .interest 0 1 6 false
     let q : IPkt := { part := 0, name := nmT, vmin := 3, deadline := 4, stop := 5, dir := 2, hdr := { h with chk := ~~~h.chk } }
     let s := { State.reset with ipkts := [q] }
     interestFirst s 0 q = true ∧ noTiles s q.stop = true ∧ badHdr .interest q.dir q.hdr = true ∧ hdrGood .interest h = true) ∧
    (let b := { trapB none 7 with phase := .saved }
     let s := fun x => { State.reset with blocks := [(2, b)], trunk := [(trunkKey 2 true, recW x)] }
     ∀ x ∈ [[], [0]], tget (s x).blocks 2 = some b ∧ b.phase = .saved ∧ b.fault = none ∧ b.ending = none ∧
       tget (s x).trunk (trunkKey 2 true) = some (recW x) ∧ (recW x).slices = [0, 1] ∧ 0 ≠ 1 ∧ (recW x).bad = x) := by
  and_intros <;> decide +kernel

theorem test_witness_MemoryAndLinkEvents_transit (p : TPkt) :
    let x := { p with payload := [1], words := checkWords [1] }
    x.words ≠ [] ∧ checkWords x.payload = x.words :=
  ⟨by simp [checkWords, sectors, sectorsOf], rfl⟩

/-- A block with enough logged operations to fill the lumber room of one home. -/
def entT : LogEnt := { place := .other, commit := 0, seq := 0, status := 0, val := 0, flags := 0, bytes := [] }
def loggedB : Block := { fetchBlock 1 with log := List.replicate 32768 entT }
def loggedT : State := { smallT [(0x103, 0x0000001000000000)] State.reset with blocks := [(1, loggedB)] }

theorem test_logged_used : lumberUsed loggedT 0 0 = 1048576 := by
  have hp : (logHome loggedT 0 entT.place == some 0) = true := by decide +kernel
  have hl : loggedB.log = List.replicate 32768 entT := rfl
  have hv : provLines loggedB = [] := rfl
  have hb : loggedT.blocks = [(1, loggedB)] := rfl
  have hq : loggedB.part = 0 := rfl
  simp only [lumberUsed, hb, List.foldl_cons, List.foldl_nil, hq, if_true, hv, hl, List.filter_replicate, hp, List.filter_nil, List.length_nil,
    List.length_replicate, logEntry, Nat.mul_zero]

theorem test_logged_spilled (h : Nat) : spilled loggedT 0 h = 0 := by
  have : loggedT.lumber = [] := rfl
  simp only [spilled, this, tgetD, tget]; exact Nat.zero_min _

theorem test_witness_MemoryAndLinkEvents_lumber :
    0 ∈ stopsOf loggedT 0 ∧ lumberRoom loggedT 0 (some 0) lineEntry = false ∧ lumberCanSpill loggedT 0 (some 0) = true ∧
      lumberForLog loggedT 0 (.enq 0 3 4) = .wait := by
  have hr : ∀ n, 0 < n → lumberRoom loggedT 0 (some 0) n = false := by
    intro n hn
    have hs : (sharers loggedT 0).filter (· != 0) = [] := by decide +kernel
    simp only [lumberRoom, Option.all_some, lumberKept, hs, List.foldl_nil, test_logged_used, test_logged_spilled, lumberSize, decide_eq_false_iff_not]; omega
  have hc : lumberCanSpill loggedT 0 (some 0) = true := by
    have hs : spillRoom loggedT 0 = 1048576 := by decide +kernel
    have ha : spilledAll loggedT 0 = 0 := by
      simp only [spilledAll, test_logged_spilled]; exact (List.recOn (stopsOf loggedT 0) rfl fun _ _ ih => ih)
    have he := Config.lumberExtra.isLt
    simp only [lumberCanSpill, Option.all_some, test_logged_used, test_logged_spilled, hs, ha, lineEntry, Bool.and_eq_true, decide_eq_true_eq]
    omega
  refine ⟨by decide +kernel, hr _ (by simp [lineEntry]), hc, ?_⟩
  have hh : logHome loggedT 0 (logPlace (.enq 0 3 4)) = some 0 := by decide +kernel
  simp only [lumberForLog, lumberFor, hh, hr logEntry (by decide), hc]; rfl

theorem test_witness_MemoryAndLinkEvents :
    (let s := { mapT State.reset with parts := [(0, { partT with wait := [(3, { vpn := 2, state := .fetching, large := false })] })] }
     walk s 0 2 = .ok (leafT 2) ∧ findPage s 0 2 (leafT 2).frame = none ∧ framesFit s 0 (leafT 2) 2 = true ∧ s.fns = []) ∧
    (let s := tightT State.reset
     let pg := { pageT with dirty := [0] }
     pg.evicting = false ∧ canEvict s pg = true ∧ mustGo s 1 pg = true ∧
       (tget { s with pages := [(1, { pg with evicting := true })] }.pages 1).map (fun p => p.evicting) = some true) ∧
    ((pageAt (mapT State.reset) 0 0x1FFFF).isSome = true ∧ pageT.dirty.contains ((0x1FFFF - pageT.vpn * 65536) / 128) = false) ∧
    (let b := { trapB none 7 with prov := [(0, 1)] }
     mayRefire b = true ∧ b.prov ≠ [] ∧ b.record = some (snapT 2) ∧ b.partners = [] ∧ b.refires < 8) ∧
    (let s := { dirT 16 [] State.reset with stops := [(5, { ents := [], shelves := [{ part := 0, name := nmT, ver := 1, payload := [1], used := 0, words := checkWords [1] }] })] }
     (∀ h ∈ (stopAt s 5).shelves, h.payload ≠ []) ∧ nameHome s 0 nmT ≠ some 5) ∧
    (let s := dirT 16 [(nmT, recT 1 [7] false [])] State.reset
     (nameRec s 0 nmT).payload ≠ [] ∧ pubLogged s (nameRec s 0 nmT) = false) ∧
    (let b := { trapB none 0 with phase := .saved }
     b.phase = .saved ∧ b.fault = none ∧ b.ending = none) ∧
    (linkOf { State.reset with links := [(1, { Link.init with run := 63 })] } 1).run < 64 ∧ 64 ≤ (linkOf { State.reset with links := [(1, { Link.init with run := 64 })] } 1).run ∧
    (let s := { State.reset with rates := [(rateKey 255 0 3, { r := 1, quiet := 4096, bucket := 1024 })] }
     thas s.rates (rateKey 255 0 3) = true ∧ 4096 ≤ (rateOf s 255 0 3).quiet) := by
  decide +kernel

def recordT (kind : Nat) : TRec :=
  { kind := kind, core := 0, ident := 0, block := 0, launch := 0, time := 0, label := 0, offset := 0, sweeps := 0, mask := 0, a := 0, b := 0, seq := 0, part := 0, ext := [] }
def clT (c : Cluster) (s : State) : State := { s with clusters := [(0, c)] }
def binderT (s : State) : State :=
  imgT 2 twoWords { s with blocks := [(2, trapB (some (faultT 1 6)) 0)], cores := [(0, { Core.init with hrun := some (hrunT (faultT 1 6)) })] }

theorem test_witness_TraceAndGatingEvents :
    (let s := { State.reset with blocks := [(1, fetchBlock 1)], parts := [(0, { Part.init with ctl := [(0x170, 0x11), (0x175, 4096)] })], clock := 4096 }
     clockFresh s 0 = true ∧ pctl s 0 0x175 ≠ 0 ∧ traceOn s 0 4 = true ∧ (partOf s 0).sampled + (pctl s 0 0x175).toNat ≤ s.clock ∧ (fetchBlock 1).groups = [fetchGroup] ∧ fetchGroup.run ≠ .ended ∧
       bufUnits (tgetD s.clusters (clusterOf (blkCore (fetchBlock 1))) Cluster.init).buf < 1024) ∧
    (let c := { Cluster.init with buf := [recordT 1, recordT 2] }
     let s := clT c State.reset
     (tgetD s.clusters 0 Cluster.init).buf = [recordT 1, recordT 2] ∧ (pctl s 0 0x172).toNat * 4096 = 0 ∧ c.lost = []) ∧
    (let c := { Cluster.init with buf := [recordT 1] }
     let s := { clT c (mapT State.reset) with parts := [(0, setCtl (setCtl (setCtl partT 0x171 0x10000) 0x172 16) 0x173 0xFFC0)] }
     (pctl s 0 0x172).toNat * 4096 ≠ 0 ∧ (pctl s 0 0x170).getLsbD 15 = false ∧ traceOn s 0 6 = false ∧ (recordT 1).ext = [] ∧
       (meet s none 0 ((pctl s 0 0x171).toNat + (pctl s 0 0x173).toNat % 65536) false true).2 = .page 1 0xFFC0) ∧
    (let c := { Cluster.init with lost := [(0, 3)] }
     c.buf = [] ∧ areaReady (clT c State.reset) 0 = false ∧
       areaReady { clT c (mapT State.reset) with parts := [(0, setCtl (setCtl partT 0x171 0x10000) 0x172 16)] } 0 = true) ∧
    (clusterIdle State.reset 0 = true ∧ Cluster.init.gateAt = none ∧
      (let s := clT { Cluster.init with gateAt := some 5 } State.reset
       clusterIdle s 0 = true ∧ (tgetD s.clusters 0 Cluster.init).buf = [] ∧ (tgetD s.clusters 0 Cluster.init).lost = []) ∧
      (let s := { clT { Cluster.init with gateAt := some 5, buf := [recordT 1] } State.reset with clock := 108805 }
       clusterIdle s 0 = true ∧ 5 + 108800 ≤ s.clock)) ∧
    (let l := { LaneState.start with mode := .held, prior := .run }
     let b := { fetchBlock 1 with groups := [{ gT with lanes := List.replicate 64 l }] }
     let s := { bS b State.reset with parts := [(0, { Part.init with ctl := [(0x17F, 0x8000000000000000)], holds := [(7, (1, 0x8000000000000001))] })] }
     (0 : W64).getLsbD 63 = false ∧ tget (partOf s 0).holds 7 = some (1, 0x8000000000000001) ∧ (viewAt s 1 (fld (pctl s 0 0x17F) 48 4).toNat).isSome = true) ∧
    (let s := binderT { State.reset with parts := [(0, Part.init)] }
     let x : W64 := 0x800F000100000000
     x &&& ~~~0xC00FFFFF0000007F = 0 ∧ x.getLsbD 63 = true ∧ partBinder s 0 = some 2 ∧ (pctl s 0 0x178).getLsbD 63 = false ∧ (tget s.blocks 2).isSome = true ∧
       (fld x 32 16).toNat < labelCount s (trapB (some (faultT 1 6)) 0)) ∧
    (let s := mapT State.reset
     ctlMask 0x171 = some 0x0000FFFFFFFFF000 ∧ ctlMask 0x172 = some 0xFFFFFFFF ∧ (0x0000FFFFFFFFF000 : W64) &&& ~~~0x0000FFFFFFFFF000 = 0 ∧
       traceReach s 0 0x0000FFFFFFFFF000 (pctl s 0 0x172) = true ∧ traceReach s 0 (pctl s 0 0x171) 0x10 = true ∧
       (0x0000FFFFFFFFF000 : W64) >>> 48 = 0 ∧ ringReach s 0 0x0000FFFFFFFFF000 = true ∧ ringReach s 0 0x10001 = true) := by
  decide +kernel

def cfgT : CfgRecord := ⟨List.replicate 0x1A 0 ++ [0, 2, 0x2C, 1, 1, 0]⟩
def mbS (f : Nat) (k : Fn → Fn) (w : State → State) : State :=
  { w (mapT State.reset) with fns := [(f, k { Fn.init with part := some 0, mb := { Mailbox.init with busy := true, turn := 1 } })],
                              mgmt := { Mgmt.reset with ready := true, record := some cfgT } }

theorem test_witness_MailboxResults :
    (∀ f ∈ [0, 512], let s := mbS f id id
      let m := (fnOf s f).mb
      exposed s f = true ∧ m.busy = true ∧ hasTurn s m = true ∧ (fnOf s f).writes = [] ∧ s.mgmt.recovery = false ∧ s.mgmt.record = some cfgT ∧
        exposed (mbS f (fun x => { x with mb := Mailbox.init }) id) f = true ∧ (fnOf (mbS f (fun x => { x with mb := Mailbox.init }) id) f).mb.busy = false ∧
        (fnOf s f).part = some 0 ∧ (fnOf s f).held = [] ∧ (fnOf s f).dropped = 0) ∧
    (∀ c ∈ [MbCmd.status, .fwload ⟨[]⟩, .unknown 0x99, .partset 15 [(0x117, 5)], .winreg 65535 0 (2 ^ 48 - 1) 4096 4095],
      (fnOf (mbS 0 (fun x => { x with mb := { x.mb with cmd := some c } }) id) 0).mb.cmd = some c) ∧
    (let s := mbS 0 id id
     (putBudgets (partOf s 15) [(0x110, 1), (0x11B, 0)]).isSome = true ∧ (putBudgets (partOf s 15) [(0x10F, 1)]).isNone = true ∧ thas s.parts 0 = true ∧ exposed s 512 = true ∧
       (List.replicate 4 (5 : W64)).length = 4 ∧ inReach s 0 (2 ^ 48 - 32) (2 ^ 48 - 32 + 32) = true ∧ inReach s 0 0 (0 + (2 ^ 48 - 1)) = true ∧
       (partOf s 0).wins.length < 256 ∧ liveEntry s 0 (.token 3) = none ∧ s.ops = []) ∧
    (let im : Image := { part := 0, addr := 0x10000, codeoff := 0x40, labels := 2, rows := 256, head := bgets pageT.data 0 32, versions := [twoWords], status := 0 }
     let s := mbS 0 id (fun s => { s with images := [(1, im)] })
     findImage s 0 0x10000 = some (1, im) ∧ tget s.images 1 = some im ∧ (cpRead s 0 0x10000 32 matches .done _) = true) ∧
    (let w := fun st (s : State) => { s with parts := [(0, { partT with wait := [(3, { vpn := 2, state := st, large := false })] })] }
     liveEntry (mbS 0 id (w .fetching)) 0 (.token 3) = some (3, { vpn := 2, state := .fetching, large := false }) ∧
       liveEntry (mbS 0 id (w .replay)) 0 (.vpn 2) = some (3, { vpn := 2, state := .replay, large := false }) ∧ (walk (mbS 0 id (fun s => { w .replay s with cellar := [] })) 0 2).isOk = false ∧ walk (mbS 0 id (w .replay)) 0 2 = .ok (leafT 2) ∧
       (let s := mbS 0 id (fun s => withOp (.pages [2]) (w .fetching s))
        s.ops = [(7, opT (.pages [2]))] ∧ partOfBlk s 1 = 0 ∧ liveEntry s 0 (.token 3) = some (3, { vpn := 2, state := .fetching, large := false }))) ∧
    (fld (0x0000FFFFFFFFF001 : W64) 48 16 = 0 ∧ fld (0x0000FFFFFFFFF001 : W64) 2 10 = 0 ∧ (0x0000FFFFFFFFF001 : W64).getLsbD 1 = false) ∧
    (fld (0x0000000FF0000003 : W64) 48 16 = 0 ∧ fld (0x0000000FF0000003 : W64) 2 10 = 0 ∧ fld (0x0000000FF0000003 : W64) 36 12 = 0 ∧ fld (0x0000000FF0000003 : W64) 12 16 = 0) := by
  decide +kernel

theorem test_witness_HostAndPowerEvents :
    (let s := mbS 0 (fun x => { x with bar2 := 0x10000 }) id
     inBar2 s 0 0xFFF8 8 = true ∧ (fnOf s 0).writes = [] ∧ ((fnOf s 0).bar2 + 0xFFF8) % 8 = 0 ∧ (fnOf s 0).reads = [] ∧
       (meet (setFn s 0 { fnOf s 0 with writes := [(0x1FFF8, List.replicate 8 1)] }) none 0 0x1FFF8 false true).2 = .page 1 0xFFF8 ∧
       (devLoad s 0 0x1FFF8 8 matches .done _) = true) ∧
    (let s := mbS 0 (fun x => { x with mb := Mailbox.init }) id
     exposed s 0 = true ∧ (fnOf s 0).mb.busy = false ∧ 0x100 ≤ 0xFFF ∧ 0xFFF + [(1 : W8)].length ≤ 0x1000 ∧ (leBytes 8 0xF0001).length = 8 ∧ leNat (leBytes 8 0xF0001) < 2 ^ 20) ∧
    State.reset.mgmt.stopped = false ∧ (fnOf State.reset 0).ring = none ∧ (fnOf State.reset 0).held = [] ∧ (fnOf State.reset 0).dropped = 0 ∧
    (let s := { bS (fetchBlock 1) State.reset with fns := [(0, { Fn.init with part := some 0 })] }
     (fnOf s 0).paused = false ∧ residentOf s 0 0 = [1]) ∧
    (let e : Event := { gen := 0, code := 1, value := 2, time := 3 }
     let x := fnOf { State.reset with fns := [(0, { Fn.init with gen := 1, paused := true, held := List.replicate 255 e })] } 0
     x.paused = true ∧ x.running = true ∧ x.dropped = 0 ∧ (∀ e ∈ x.held, e.gen ≠ x.gen) ∧ x.held.length ≤ 255) := by
  decide +kernel

/-! ### Worked examples of the manual, and small cases computed by hand -/

def execT (i : Instr) (f : Group → Group) : Option Group :=
  match exec i (stW id id f) with
  | .next t => (viewAt t 1 0).map (fun v => v.g)
  | _ => none
/-- Lane 0 of a vector register after an instruction. -/
def laneT (i : Instr) (f : Group → Group) (r : Nat) : Option W32 := (execT i f).map (fun g => rget (readV g r) 0)
def setV (r : Nat) (xs : List W32) (g : Group) : Group :=
  { g with active := 1, v := (xs.zip (List.range xs.length)).foldl (fun t e => tput t (r + e.2) (rowOf (fun _ => e.1))) g.v }

/-- "Four conversions to eight bits" of 05_number_formats.md. -/
theorem test_cvt_eight_bits :
    let c := fun (t : Ty) (x : W32) => (execT (.cvt h0 .f32 t .dyn 10 11 0 0) (setV 11 [x])).map (fun g => ((rget (readV g 10) 0).toNat % 256, g.fflags))
    c .e4m3 0x43E60000 = some (0x7E, fSA ||| fNX) ∧ c .e5m2 0x43E60000 = some (0x5F, fNX) ∧ c .e4m3 0x3E99999A = some (0x2A, fNX) ∧
      c .e4m3 0x3A800000 = some (0, fUF ||| fNX) := by
  decide +kernel

/-- The example of R145: 1.28125 becomes 1.25 or 1.375 in E4M3, with NX. -/
theorem test_cvtsr_between_neighbours :
    (execT (.cvtsr h0 .f32 .e4m3 10 11 0 0) (setV 11 [0x3FA40000])).map (fun g =>
      ([0x3A, 0x3B].contains ((rget (readV g 10) 0).toNat % 256), g.fflags, g.sround)) = some (true, fNX, 1) := by
  decide +kernel

def packT : List W32 := [0x3E800000, 0x3F400000, 0xC0200000, 0x40A00000, 0x40E00000, 0x80000000, 0x3FB33333, 0x40400000] ++ List.replicate 24 0

/-- "One block, packed" of 05_number_formats.md: QSCALE, QPACK and QUNPK. -/
theorem test_block_packed :
    laneT (.qscale h0 .f32 2 8 1 .e2m1) (setV 8 packT ∘ setV 2 [0]) 2 = some 0x6000 ∧
    (let g := execT (.qpack h0 .f32 .dyn 40 8 2 1) (setV 8 packT ∘ setV 2 [0x6000])
     g.map (fun g => ((List.range 4).map (fun i => rget (readV g (40 + i)) 0), g.fflags)) = some ([0x53076C20, 0, 0, 0], fSA ||| fNX)) ∧
    laneT (.qunpk h0 .f32 100 40 2 1) (setV 40 [0x53076C20, 0, 0, 0] ∘ setV 2 [0x6000]) 103 = some 0x40800000 := by
  decide +kernel

/-- The example of R150: weights 1, 3, 0 and 4 in lanes 0 to 3. -/
theorem test_sample_by_weight :
    let f := fun (u : W64) (g : Group) => { g with active := 15, s := tput g.s 5 u, v := tput g.v 10 (rowOf (fun l => [0x3F800000, 0x40400000, 0, 0x40800000].getD l 0)) }
    let x := fun u => (execT (.sample h0 9 10 5) (f u)).map (fun g => readS g 9)
    x 0x3F000000 = some 3 ∧ x 0x3EFAE148 = some 1 ∧ x 0 = some 0 := by
  decide +kernel

/-- "One order, two rounding outcomes" of 04_integer_and_lanes.md. -/
theorem test_reduce_order :
    let f := fun (g : Group) => { g with active := 15, v := tput g.v 2 (rowOf (fun l => if l = 0 then 0x3F800000 else 0x33800000)) }
    (execT (.reduce h0 .f32 6 2 .add) f).map (fun g => (readS g 6, g.fflags)) = some (0x3F800001, fNX) := by
  decide +kernel

/-- The example of R240. -/
theorem test_sortk_example : sortkResult [2, 0, 2, 1, 0xFFFF, 3, 0, 2] 4 = ([1, 6, 3, 0, 2, 7, 5, 4], [2, 1, 3, 1], [0, 2, 3, 6]) := by
  decide +kernel

/-- "Exactness within a block" of 07_matrix.md: D[0][0] is 1 + 2^-18. -/
theorem test_mma_exact_block :
    let planes := fun (base p7 : Nat) (m : Cells) => (([(0, 2)] ++ (List.range 6).map (fun i => (i + 1, 5)) ++ [(7, p7), (11, 1), (12, 1), (13, 1)]) : List (Nat × Nat)).foldl
      (fun m e => bputs m (base + 32 * e.1) (leBytes 4 e.2)) m
    let k := fun (b : Block) => { b with scratch := planes 512 0 (planes 0 4 []) }
    (match exec (.mmaComplete ⟨7, none⟩) (stW k (withOp (.mma mmaCmdT)) pendT) with
     | .next t => (viewAt t 1 0).map (fun v => (rget (readV v.g 64) 0, v.g.fflags))
     | _ => none) = some (0x3F800020, 0) := by
  decide +kernel

/-- "A group at one marker" of 01_machine_state.md. -/
theorem test_group_at_one_marker :
    let w := fun (m : LaneMode) (L : Lab) => ({ mode := m, prior := .run, handle := 2, ret := 0xFFFF, label := L } : LaneState)
    let g := fun (x : HVal) => { gT with
      lanes := List.replicate 4 (w .run 0xFFFF) ++ List.replicate 4 (w .wait 5) ++ List.replicate 4 (w .wait 9) ++ List.replicate 4 (w .gate 5) ++
        List.replicate 48 (w .done 0xFFFF)
      frames := [frame 20], h := [(2, x)] }
    eligible (g (.pending 7)) 5 = 0xF0 ∧ nextEligible (g (.pending 7)) 6 = some 9 ∧ eligible (g (.complete 0 0 [])) 5 = 0xF0F0 := by
  decide +kernel

/-- R114: the sums and differences of VADDS and VSUBS stay in range. -/
theorem test_saturating_adds :
    laneT (.vadds h0 .s8 10 11 12) (setV 11 [0x64, 0x64]) 10 = some 0x7F ∧
    laneT (.vsubs h0 .n16 10 11 12) (setV 11 [3, 5]) 10 = some 0 ∧ (execT (.vsubs h0 .n16 10 11 12) (setV 11 [3, 5])).map (fun g => g.fflags) = some fSA := by
  decide +kernel

/-- R107: 64-bit sums wrap, and SMULH keeps the upper half. -/
theorem test_scalar_wraps :
    let f := fun (g : Group) => { g with s := tput (tput g.s 5 0x8000000000000000) 6 2 }
    (execT (.sadd h0 .n64 9 5 5) f).map (fun g => readS g 9) = some 0 ∧ (execT (.smulh h0 .n64 9 5 6) f).map (fun g => readS g 9) = some 1 := by
  decide +kernel

def trapOf (i : Instr) (f : Group → Group) : Option (Nat × Nat × BitVec 8) :=
  match exec i (stW id id f) with
  | .next t => (tget t.blocks 1).bind (fun b => b.fault.map (fun x => (x.cls, x.code, x.detail)))
  | _ => none

/-- R54: a void source is contract fault 1 of step 7, a privileged instruction outside the handler context fault 0x0B of step 5. -/
theorem test_faults_by_step :
    trapOf (.vadd h0 .n32 10 11 12) (fun g => { g with v := tdel g.v 12 }) = some (0, 1, 7) ∧
    trapOf (.tlbinv h0 .pkg 2 none) id = some (0, 0x0B, 5) ∧ trapOf (.vadd h0 .n32 10 11 12) id = none := by
  decide +kernel

/-- R384: without a valid record in flash the device comes up in recovery mode. -/
theorem test_power_on_without_record : (match exec .powerOnReset State.reset with
    | .next t => (t.mgmt.recovery, t.mgmt.ready)
    | _ => (false, false)) = (true, false) := by
  decide +kernel

end
end

section
/-! Host accesses through BAR0 and BAR2 (R322, R389), power-on reset (R384 to R388), the thermal stop (R393) and pausing and resuming a function
(R351): a lemma for each event, and the statement HostAndPowerEvents from them. -/
namespace Sys2Proof.Machine
open Sys2Proof

/-! ### Functions and tables -/

@[simp] theorem fnOf_setFn_same (s : State) (f : Nat) (x : Fn) : fnOf (setFn s f x) f = x := by simp [fnOf]

theorem fnOf_congr {s t : State} (h : s.fns = t.fns) (f : Nat) : fnOf s f = fnOf t f := by rw [fnOf, fnOf, h]

theorem tget_tmod {α : Type} (t : Tbl α) (n m : Nat) (f : α → α) : tget (tmod t n f) m = if m = n then (tget t m).map f else tget t m := by
  unfold tmod
  split
  · rename_i a ha
    by_cases h : m = n
    · subst h; simp [ha]
    · simp [h, tget_tput_ne]
  · rename_i ha
    by_cases h : m = n
    · subst h; simp [ha]
    · simp [h]

theorem exists_tget_of_mem {α : Type} {t : Tbl α} {e : Nat × α} (h : e ∈ t) : ∃ a, tget t e.1 = some a := by
  induction t with
  | nil => cases h
  | cons x t ih =>
    obtain ⟨k, b⟩ := x
    by_cases hk : k = e.1
    · exact ⟨b, by simp [tget, hk]⟩
    · rcases List.mem_cons.1 h with rfl | h
      · exact absurd rfl hk
      · simpa [tget, hk] using ih h

/-! ### What the home does for agents without a TLB -/

@[simp] theorem requestPage_pages (s : State) (part vpn : Nat) (l : Leaf) : (requestPage s part vpn l).pages = s.pages := by
  unfold requestPage
  simp only
  split
  · rfl
  · split <;> rfl

@[simp] theorem walkFlits_pages (s : State) (stop part vpn : Nat) : (walkFlits s stop part vpn).pages = s.pages := by
  obtain ⟨_, _, h⟩ := walkFlits_eq s stop part vpn; rw [h]

@[simp] theorem walkFlits_lost (s : State) (stop part vpn : Nat) : (walkFlits s stop part vpn).lost = s.lost := by
  obtain ⟨_, _, h⟩ := walkFlits_eq s stop part vpn; rw [h]

@[simp] theorem walkFlits_blocks (s : State) (stop part vpn : Nat) : (walkFlits s stop part vpn).blocks = s.blocks := by
  obtain ⟨_, _, h⟩ := walkFlits_eq s stop part vpn; rw [h]

@[simp] theorem walkFlits_fns (s : State) (stop part vpn : Nat) : (walkFlits s stop part vpn).fns = s.fns := by
  obtain ⟨_, _, h⟩ := walkFlits_eq s stop part vpn; rw [h]

theorem findPage_congr {s t : State} (h : s.pages = t.pages) (part vpn frame : Nat) : findPage s part vpn frame = findPage t part vpn frame := by
  rw [findPage, findPage, h]

/-- What such an agent meets depends on the tables, the pages, the lost sectors and the clock alone. -/
theorem meet_congr {s t : State} (hp : s.parts = t.parts) (hc : s.cellar = t.cellar) (hg : s.pages = t.pages) (hl : s.lost = t.lost)
    (hk : s.clock = t.clock) (part addr : Nat) (rd wr : Bool) :
    (meet s none part addr rd wr).2 = (meet t none part addr rd wr).2 ∧
      (meet s none part addr rd wr).1.pages = (meet t none part addr rd wr).1.pages := by
  have hs := findPage_congr (walkFlits_pages s (procStop part) part (vpnOf addr)) part (vpnOf addr)
  have ht := findPage_congr (walkFlits_pages t (procStop part) part (vpnOf addr)) part (vpnOf addr)
  simp only [meet, translate, walk_eq hp hc, hs, ht, findPage_congr hg, walkFlits_lost, hl]
  cases walk t part (vpnOf addr) with
  | error e => simp [hg]
  | ok l =>
    cases hx : findPage t part (vpnOf addr) l.frame with
    | none => simp only [hx]; split_ifs <;> simp [hg]
    | some x => simp only [hx]; split_ifs <;> simp [hg, hk]

/-- Bytes read by such an agent are the same where the tables, the pages and the lost sectors are. -/
theorem devLoad_congr {s t : State} (hp : s.parts = t.parts) (hc : s.cellar = t.cellar) (hg : s.pages = t.pages) (hl : s.lost = t.lost)
    (hk : s.clock = t.clock) {part addr n : Nat} {bs : List W8} (h : devLoad s part addr n = .done bs) : devLoad t part addr n = .done bs := by
  induction n generalizing bs with
  | zero => exact h
  | succ n ih =>
    obtain ⟨h2, h1⟩ := meet_congr hp hc hg hl hk part (addr + n) true false
    rw [devLoad] at h ⊢
    cases hd : devLoad s part addr n with
    | done cs =>
      rw [ih hd]
      simp only [hd, h2] at h
      cases hm : (meet t none part (addr + n) true false).2 with
      | page id off => simpa [hm, pageBytes, h1] using h
      | fault c => simp [hm] at h
      | absent l => simp [hm] at h
      | lostSector => simp [hm] at h
    | wait r => simp [hd] at h
    | bad c d => simp [hd] at h

/-- A page that is met is resident, and meeting it changes no block and no function. -/
theorem meet_page_inv {s r : State} {part addr id o : Nat} {rd wr : Bool} (h : meet s none part addr rd wr = (r, .page id o)) :
    (∃ pg, tget r.pages id = some pg) ∧ r.blocks = s.blocks ∧ r.fns = s.fns := by
  simp only [meet, translate, walkFlits_lost] at h
  -- Of the ways out of `meet` only the last branch of a found page answers `.page`.
  repeat' split at h
  all_goals simp only [Prod.mk.injEq, Met.page.injEq, reduceCtorEq, and_false] at h
  obtain ⟨rfl, rfl, -⟩ := h
  exact ⟨⟨_, tget_tput_same _ _ _⟩, by simp, by simp⟩

/-- A fold whose steps change the clusters alone changes them alone. -/
theorem foldl_clusters {α : Type} {f : State → α → State} (hf : ∀ r a, ∃ cs, f r a = { r with clusters := cs }) (l : List α) :
    ∀ r : State, ∃ cs, l.foldl f r = { r with clusters := cs } := by
  induction l with
  | nil => exact fun r => ⟨r.clusters, rfl⟩
  | cons a l ih =>
    intro r
    obtain ⟨cs, h⟩ := hf r a
    obtain ⟨cs', h'⟩ := ih (f r a)
    exact ⟨cs', by rw [List.foldl_cons, h', h]⟩

/-- Watchpoints write trace records into the clusters' buffers, and change nothing else. -/
theorem watchWrite_eq (s : State) (part : Nat) (w : Writer) (addr n : Nat) (prov : Bool) (before after : Nat → W8) :
    ∃ cs, watchWrite s part w addr n prov before after = { s with clusters := cs } := by
  unfold watchWrite
  split
  · exact ⟨s.clusters, rfl⟩
  · refine foldl_clusters (fun r a => foldl_clusters (fun r i => ?_) _ r) _ s
    split
    · exact ⟨_, rfl⟩
    · exact ⟨r.clusters, rfl⟩

/-- A committed write to a resident page stores its bytes there; beside the page, only lost marks and trace records may change. -/
theorem commitBytes_eq {s : State} {id : Nat} {pg : Page} (hp : tget s.pages id = some pg) (part off addr : Nat) (bs : List W8) (w : Writer) :
    ∃ pg' ls cs, pg'.data = bputs pg.data off bs ∧
      commitBytes s part id off addr bs w = { s with pages := tput s.pages id pg', lost := ls, clusters := cs } := by
  simp only [commitBytes, hp, clearLost]
  obtain ⟨cs, h⟩ := watchWrite_eq _ _ _ _ _ _ _ _
  exact ⟨_, _, cs, rfl, h⟩

/-- A committed store that meets its page: the bytes stand there, and no block and no function has changed. -/
theorem devStore_met {s r : State} {part addr id o : Nat} {bs : List W8} (w : Writer) (h : meet s none part addr false true = (r, .page id o)) :
    ∃ t pg, devStore s part addr bs w = .done t ∧ tget t.pages id = some pg ∧ bgets pg.data o bs.length = bs ∧ t.blocks = s.blocks ∧ t.fns = s.fns := by
  obtain ⟨⟨pg, hp⟩, hb, hf⟩ := meet_page_inv h
  obtain ⟨pg', ls, cs, hd, hc⟩ := commitBytes_eq hp part o addr bs w
  refine ⟨commitBytes r part id o addr bs w, pg', by simp only [devStore, h], ?_⟩
  rw [hc, hd, bgets_bputs]
  exact ⟨tget_tput_same _ _ _, rfl, hb, hf⟩

@[simp] theorem edgeIn_pages (s : State) (e : EdgeUnit) (part addr : Nat) (data : List W8) : (edgeIn s e part addr data).pages = s.pages := by
  unfold edgeIn; split <;> simp

@[simp] theorem edgeIn_blocks (s : State) (e : EdgeUnit) (part addr : Nat) (data : List W8) : (edgeIn s e part addr data).blocks = s.blocks := by
  unfold edgeIn; split <;> simp

@[simp] theorem fnOf_edgeIn (s : State) (e : EdgeUnit) (part addr : Nat) (data : List W8) (f : Nat) : fnOf (edgeIn s e part addr data) f = fnOf s f := by
  unfold edgeIn; split <;> simp [fnOf]

@[simp] theorem edgeOut_pages (s : State) (e : EdgeUnit) (part addr : Nat) (data : List W8) : (edgeOut s e part addr data).pages = s.pages := by
  unfold edgeOut; split <;> simp

@[simp] theorem edgeOut_blocks (s : State) (e : EdgeUnit) (part addr : Nat) (data : List W8) : (edgeOut s e part addr data).blocks = s.blocks := by
  unfold edgeOut; split <;> simp

@[simp] theorem fnOf_edgeOut (s : State) (e : EdgeUnit) (part addr : Nat) (data : List W8) (f : Nat) : fnOf (edgeOut s e part addr data) f = fnOf s f := by
  unfold edgeOut; split <;> simp [fnOf]

/-! ### Host accesses through BAR2 (R322) -/

/-- One waiting write of a word whose page is met is applied. -/
theorem applyWrites_word {s r : State} {f part addr id o : Nat} {bs : List W8} (hw : (fnOf s f).writes = [(addr, bs)])
    (hp : (fnOf s f).part = some part) (hb : bs ≠ []) (hl : addr % 8 + bs.length ≤ 8)
    (hm : meet s none part addr false true = (r, .page id o)) :
    ∃ pg, tget (applyWrites 1 s f).pages id = some pg ∧ bgets pg.data o bs.length = bs ∧ (fnOf (applyWrites 1 s f) f).writes = [] ∧
      (applyWrites 1 s f).blocks = s.blocks := by
  obtain ⟨t, pg, ht, hpg, hd, hbl, -⟩ := devStore_met (bs := bs) hostWriter hm
  simp only [applyWrites, hw, hp, devStoreAll_word hb hl, ht]
  exact ⟨pg, by simpa using hpg, hd, by simp, by simpa using hbl⟩

/-- A host write of one word through BAR2 whose page is met is committed at once (R322). -/
theorem execHostWrite_bar2 {s r : State} {f off part id o : Nat} {bs : List W8} (hp : (fnOf s f).part = some part)
    (hi : inBar2 s f off bs.length = true) (hb : bs ≠ []) (hw : (fnOf s f).writes = []) (ha : ((fnOf s f).bar2 + off) % 8 = 0) (hl : bs.length ≤ 8)
    (hm : meet (setFn s f { fnOf s f with writes := [((fnOf s f).bar2 + off, bs)] }) none part ((fnOf s f).bar2 + off) false true = (r, .page id o)) :
    ∃ t pg, exec (.hostWrite f ⟨2, off⟩ bs) s = .next t ∧ tget t.pages id = some pg ∧ bgets pg.data o bs.length = bs ∧ (fnOf t f).writes = [] ∧
      t.blocks = s.blocks := by
  obtain ⟨pg, h⟩ := applyWrites_word (f := f) (by simp) (by simp [hp]) hb (by omega) hm
  have hx : exec (.hostWrite f ⟨2, off⟩ bs) s = execHostWrite f ⟨2, off⟩ bs s := rfl
  refine ⟨_, pg, ?_, h⟩
  simp [hx, execHostWrite, hi, hb, hw]

/-- The one waiting read is answered with the bytes that its load finds. -/
theorem applyRead_done {s : State} {f part addr n : Nat} {bs : List W8} (hr : (fnOf s f).reads = [(addr, n)]) (hp : (fnOf s f).part = some part)
    (hd : devLoad s part addr n = .done bs) :
    (fnOf (applyRead s f) f).rdata = bs ∧ (fnOf (applyRead s f) f).reads = [] ∧ (applyRead s f).pages = s.pages ∧
      (applyRead s f).blocks = s.blocks := by
  simp [applyRead, hr, hp, hd]

/-- A host read through BAR2 returns the committed bytes, and touches no page and no block (R322). -/
theorem execHostRead_bar2 {s : State} {f off part n : Nat} {bs : List W8} (hp : (fnOf s f).part = some part)
    (hi : inBar2 s f off n = true) (hn : n ≠ 0) (hr : (fnOf s f).reads = []) (hd : devLoad s part ((fnOf s f).bar2 + off) n = .done bs) :
    ∃ t, exec (.hostRead f ⟨2, off⟩ n) s = .next t ∧ (fnOf t f).rdata = bs ∧ (fnOf t f).reads = [] ∧ t.pages = s.pages ∧ t.blocks = s.blocks := by
  have hd' : devLoad (setFn s f { fnOf s f with reads := [((fnOf s f).bar2 + off, n)] }) part ((fnOf s f).bar2 + off) n = .done bs :=
    devLoad_congr (s := s) (t := setFn s f _) rfl rfl rfl rfl rfl hd
  have hx : exec (.hostRead f ⟨2, off⟩ n) s = execHostRead f ⟨2, off⟩ n s := rfl
  have h := applyRead_done (f := f) (by simp) (by simp [hp]) hd'
  exact ⟨_, by simp [hx, execHostRead, hi, hn, hr], h⟩

/-! ### Host accesses through BAR0 (R389) -/

/-- The bytes of a write at their offsets. -/
def placedBytes (off : Nat) (bs : List W8) : List (Nat × W8) := (bs.zip (List.range bs.length)).map (fun e => (off + e.2, e.1))

/-- What one byte of a BAR0 write does to the payload window. -/
def payByte (p : Cells) (e : Nat × W8) : Cells := if 0x100 ≤ e.1 ∧ e.1 < 0x1000 then bput p (e.1 - 0x100) e.2 else p

/-- The mailbox after the bytes of a BAR0 write. -/
def bar0Mailbox (m : Mailbox) (off : Nat) (bs : List W8) : Mailbox :=
  { m with pay := (placedBytes off bs).foldl payByte m.pay, done := m.done && !(placedBytes off bs).any (fun e => e.1 == 8 && e.2.getLsbD 1) }

/-- The offsets of a write lie within it. -/
theorem placedBytes_fst {off : Nat} {bs : List W8} : ∀ e ∈ placedBytes off bs, off ≤ e.1 ∧ e.1 < off + bs.length := by
  intro e he
  obtain ⟨x, hx, rfl⟩ := List.mem_map.1 he
  have := List.mem_range.1 (List.of_mem_zip hx).2
  exact ⟨Nat.le_add_right _ _, by simpa using this⟩

theorem placedBytes_cons (off : Nat) (b : W8) (bs : List W8) : placedBytes off (b :: bs) = (off, b) :: placedBytes (off + 1) bs := by
  simp [placedBytes, List.range_succ_eq_map, List.zip_map_right, Nat.add_assoc, Nat.add_comm 1]

/-- Bytes within the payload window are stored there. -/
theorem foldl_payByte_window (bs : List W8) : ∀ (off : Nat) (p : Cells), 0x100 ≤ off → off + bs.length ≤ 0x1000 →
    (placedBytes off bs).foldl payByte p = bputs p (off - 0x100) bs := by
  induction bs with
  | nil => intros; rfl
  | cons b bs ih =>
    intro off p h1 h2
    rw [List.length_cons] at h2
    rw [placedBytes_cons, List.foldl_cons, ih (off + 1) _ (by omega) (by omega), payByte, if_pos ⟨h1, by simp only; omega⟩, bputs,
      show off + 1 - 0x100 = off - 0x100 + 1 by omega]

/-- Bytes below the payload window leave it. -/
theorem foldl_payByte_below (es : List (Nat × W8)) (p : Cells) (h : ∀ e ∈ es, e.1 < 0x100) : es.foldl payByte p = p := by
  induction es with
  | nil => rfl
  | cons e es ih =>
    have h1 := h e (List.mem_cons_self ..)
    rw [List.foldl_cons, payByte, if_neg (by omega)]
    exact ih (fun x hx => h x (List.mem_cons_of_mem _ hx))

/-- A write away from MBSTAT's first byte keeps the done bit. -/
theorem bar0Mailbox_done {m : Mailbox} {off : Nat} {bs : List W8} (h : 8 < off ∨ off + bs.length ≤ 8) : (bar0Mailbox m off bs).done = m.done := by
  have hn : (placedBytes off bs).any (fun e => e.1 == 8 && e.2.getLsbD 1) = false := by
    rw [List.any_eq_false]
    intro e he
    have := placedBytes_fst e he
    simp only [Bool.and_eq_true, beq_iff_eq, not_and]
    omega
  simp only [bar0Mailbox, hn, Bool.not_false, Bool.and_true]

/-- The word that MBCMD holds after a write. -/
def mbcmdWord (m : Mailbox) (off : Nat) (bs : List W8) : W64 :=
  BitVec.ofNat 64 (leNat ((List.range 8).map (fun a => (((placedBytes off bs).find? (fun e => e.1 == a)).map (fun e => e.2)).getD (bar0Byte m a))))

/-- The doorbell rings with the command of a word, which MBCMD then holds unless a command is busy. -/
def ringWord (s : State) (f : Nat) (m : Mailbox) (x : W64) : State :=
  if m.busy then ring s f (mbcmdOf m x) else setMb (ring s f (mbcmdOf m x)) f { (fnOf (ring s f (mbcmdOf m x)) f).mb with mbcmd := x }

/-- A BAR0 write takes its bytes into the mailbox, and rings the doorbell when it touches MBCMD. -/
theorem bar0Write_eq (s : State) (f off : Nat) (bs : List W8) :
    bar0Write s f off bs =
      if off < 8 ∧ !bs.isEmpty then
        ringWord (setMb s f (bar0Mailbox (fnOf s f).mb off bs)) f (bar0Mailbox (fnOf s f).mb off bs) (mbcmdWord (bar0Mailbox (fnOf s f).mb off bs) off bs)
      else setMb s f (bar0Mailbox (fnOf s f).mb off bs) := rfl

/-- A host write within the payload window fills it, and rings no doorbell (R389). -/
theorem execHostWrite_payload {s : State} {f off : Nat} {bs : List W8} (he : exposed s f = true) (h1 : 0x100 ≤ off) (h2 : off + bs.length ≤ 0x1000) :
    ∃ t, exec (.hostWrite f ⟨0, off⟩ bs) s = .next t ∧ bgets (fnOf t f).mb.pay (off - 0x100) bs.length = bs ∧
      (fnOf t f).mb.busy = (fnOf s f).mb.busy ∧ (fnOf t f).mb.done = (fnOf s f).mb.done := by
  have hi : inBar0 s f off bs.length = true := by simp [inBar0, he]; omega
  have hx : exec (.hostWrite f ⟨0, off⟩ bs) s = execHostWrite f ⟨0, off⟩ bs s := rfl
  refine ⟨setMb s f (bar0Mailbox (fnOf s f).mb off bs), ?_, ?_, ?_, ?_⟩
  · simp [hx, execHostWrite, hi, bar0Write_eq, show ¬ off < 8 by omega]
  · simp [setMb, bar0Mailbox, foldl_payByte_window bs off _ h1 h2, bgets_bputs]
  · simp [setMb, bar0Mailbox]
  · simp [setMb, bar0Mailbox_done (show 8 < off ∨ off + bs.length ≤ 8 by omega)]

/-- A write of all of MBCMD leaves its bytes there. -/
theorem mbcmdWord_whole (m : Mailbox) {bs : List W8} (h : bs.length = 8) : mbcmdWord m 0 bs = BitVec.ofNat 64 (leNat bs) := by
  match bs, h with
  | [_, _, _, _, _, _, _, _], _ => rfl

/-- An MBCMD word below 2^20 names the command of its low byte with as many payload bytes as the rest says. -/
theorem mbcmdOf_small (m : Mailbox) {n : Nat} (h : n < 2 ^ 20) :
    mbcmdOf m (BitVec.ofNat 64 n) = payloadCmd (n % 256) (bgets m.pay 0 (n / 256)) := by
  have h0 : (BitVec.ofNat 64 n) >>> 20 = 0 := by
    apply BitVec.eq_of_toNat_eq
    simp [Nat.shiftRight_eq_div_pow]
    omega
  have h1 : (fld (BitVec.ofNat 64 n) 0 8).toNat = n % 256 := by simp [fld]
  have h2 : (fld (BitVec.ofNat 64 n) 8 12).toNat = n / 256 := by simp [fld, Nat.shiftRight_eq_div_pow]; omega
  rw [mbcmdOf, if_pos h0, h1, h2]

/-- A write below MBSTAT changes neither the payload nor the done bit. -/
theorem bar0Mailbox_low {m : Mailbox} {off : Nat} {bs : List W8} (h : off + bs.length ≤ 8) : bar0Mailbox m off bs = m := by
  have hp : (placedBytes off bs).foldl payByte m.pay = m.pay := foldl_payByte_below _ _ (fun e he => by have := placedBytes_fst e he; omega)
  have hd := bar0Mailbox_done (m := m) (.inr h)
  simp only [bar0Mailbox] at hd
  simp only [bar0Mailbox, hp, hd]

/-- Writing all of MBCMD while no command is busy rings the doorbell with the word's command. -/
theorem bar0Write_doorbell {s : State} {f : Nat} {bs : List W8} (hl : bs.length = 8) (hb : (fnOf s f).mb.busy = false) :
    (fnOf (bar0Write s f 0 bs) f).mb =
      { (fnOf s f).mb with
        busy := true, mbcmd := BitVec.ofNat 64 (leNat bs), cmd := some (mbcmdOf (fnOf s f).mb (BitVec.ofNat 64 (leNat bs))),
        turn := nextTurn (setMb s f (fnOf s f).mb), begun := false } := by
  have he : bs.isEmpty = false := by cases bs <;> simp_all
  have hm : bar0Mailbox (fnOf s f).mb 0 bs = (fnOf s f).mb := bar0Mailbox_low (by omega)
  rw [bar0Write_eq, hm, mbcmdWord_whole _ hl]
  simp [he, ringWord, setMb, ring, hb]

/-- A host write of MBCMD rings the doorbell with the command that the code and the payload length name (R389; log 15). -/
theorem execHostWrite_doorbell {s : State} {f : Nat} {bs : List W8} (he : exposed s f = true) (hl : bs.length = 8) (hb : (fnOf s f).mb.busy = false)
    (hn : leNat bs < 2 ^ 20) :
    ∃ t, exec (.hostWrite f ⟨0, 0⟩ bs) s = .next t ∧ (fnOf t f).mb.busy = true ∧ (fnOf t f).mb.mbcmd = BitVec.ofNat 64 (leNat bs) ∧
      (fnOf t f).mb.cmd = some (payloadCmd (leNat bs % 256) (bgets (fnOf s f).mb.pay 0 (leNat bs / 256))) := by
  have hi : inBar0 s f 0 bs.length = true := by simp [inBar0, he, hl]
  have hx : exec (.hostWrite f ⟨0, 0⟩ bs) s = execHostWrite f ⟨0, 0⟩ bs s := rfl
  refine ⟨bar0Write s f 0 bs, by simp [hx, execHostWrite, hi], ?_⟩
  rw [bar0Write_doorbell hl hb]
  exact ⟨rfl, rfl, congrArg some (mbcmdOf_small _ hn)⟩

/-- A host read of MBSTAT returns its word (R389). -/
theorem execHostRead_mbstat {s : State} {f : Nat} (he : exposed s f = true) :
    exec (.hostRead f ⟨0, 8⟩ 8) s = .next (setFn s f { fnOf s f with rdata := leBytes 8 (mbstat (fnOf s f).mb) }) := by
  have hi : inBar0 s f 8 8 = true := by simp [inBar0, he]
  have hb : (List.range 8).map (fun i => bar0Byte (fnOf s f).mb (8 + i)) = leBytes 8 (mbstat (fnOf s f).mb) := rfl
  have hx : exec (.hostRead f ⟨0, 8⟩ 8) s = execHostRead f ⟨0, 8⟩ 8 s := rfl
  simp only [hx, execHostRead, hi, hb, if_true]

/-! ### Power-on reset (R384 to R388) -/

/-- What every boot starts from: the reset values, the record now in force, the flash banks, and which ports and links fail to train. -/
def bootBase (m : Mgmt) : Mgmt :=
  { Mgmt.reset with record := recordNow m, bank0 := m.bank0, bank1 := m.bank1, active := bankNow m, m0 := extend 0 Config.bootRom,
                    badCellar := m.badCellar, badPorts := m.badPorts, badLinks := m.badLinks }

/-- The boot sequence ends in recovery mode, or ready with a record and an image that verify and are measured. -/
theorem bootMgmt_cases (m : Mgmt) :
    (∃ m1 m2, bootMgmt m = { bootBase m with m1 := m1, m2 := m2, recovery := true }) ∨
    ∃ r fw, recordNow m = some r ∧ recordOK r = true ∧ (if bankNow m then m.bank1 else m.bank0) = some fw ∧ firmwareOK r fw = true ∧
      bootMgmt m = trainMgmt { bootBase m with m1 := extend 0 fw.bytes, m2 := extend 0 r.bytes } r := by
  unfold bootMgmt
  cases hr : recordNow m with
  | none => exact .inl ⟨0, 0, by simp only [bootBase, hr]; rfl⟩
  | some r =>
    cases hk : recordOK r with
    | false => exact .inl ⟨0, 0, by simp only [bootBase, hr, hk]; rfl⟩
    | true =>
      cases hf : (if bankNow m then m.bank1 else m.bank0) with
      | none => exact .inl ⟨0, 0, by simp only [bootBase, hr, hk, hf]; rfl⟩
      | some fw =>
        cases hv : firmwareOK r fw with
        | false => exact .inl ⟨0, 0, by simp only [bootBase, hr, hk, hf, hv]; rfl⟩
        | true =>
          cases hu : Config.keyUnlocks (recSerial r) with
          | false => exact .inl ⟨_, _, by simp only [bootBase, hr, hk, hf, hv, hu]; rfl⟩
          | true => exact .inr ⟨r, fw, rfl, hk, rfl, hv, by simp only [bootBase, hr, hk, hf, hv, hu]; rfl⟩

/-- What every boot keeps or sets, in recovery mode or not. -/
theorem bootMgmt_always (m : Mgmt) :
    (bootMgmt m).bank0 = m.bank0 ∧ (bootMgmt m).bank1 = m.bank1 ∧ (bootMgmt m).m0 = extend 0 Config.bootRom ∧ (bootMgmt m).m3 = 0 ∧
      (bootMgmt m).recovery = !(bootMgmt m).ready ∧ (bootMgmt m).record = recordNow m ∧ (bootMgmt m).badPorts = m.badPorts ∧
      (bootMgmt m).badLinks = m.badLinks := by
  rcases bootMgmt_cases m with ⟨m1, m2, h⟩ | ⟨r, fw, -, -, -, -, h⟩
  · rw [h]
    exact ⟨rfl, rfl, rfl, rfl, rfl, rfl, rfl, rfl⟩
  · rw [h]
    exact ⟨rfl, rfl, rfl, rfl, rfl, rfl, rfl, rfl⟩

/-- A boot that ends ready has verified and measured its record and its image, and trained the cellar ports. -/
theorem bootMgmt_ready {m : Mgmt} (h : (bootMgmt m).ready = true) :
    ∃ r fw, (bootMgmt m).record = some r ∧ recordOK r = true ∧ (if (bootMgmt m).active then m.bank1 else m.bank0) = some fw ∧
      firmwareOK r fw = true ∧ (bootMgmt m).m1 = extend 0 fw.bytes ∧ (bootMgmt m).m2 = extend 0 r.bytes ∧ (bootMgmt m).ilv = recIlv r ∧
      (bootMgmt m).downCellar = m.badCellar := by
  rcases bootMgmt_cases m with ⟨m1, m2, hb⟩ | ⟨r, fw, hr, hk, hf, hv, hb⟩
  · rw [hb] at h
    cases h
  · rw [hb]
    exact ⟨r, fw, hr, hk, hf, hv, rfl, rfl, rfl, rfl⟩

/-- The record in force never has a smaller minimum version than the one before. -/
theorem recordNow_minsvn {m : Mgmt} {r r' : CfgRecord} (h : m.record = some r) (h' : recordNow m = some r') : recMinsvn r ≤ recMinsvn r' := by
  unfold recordNow at h'
  rw [h] at h'
  cases hn : m.next with
  | none =>
    simp only [hn, Option.some.injEq] at h'
    exact h' ▸ Nat.le_refl _
  | some n =>
    simp only [hn] at h'
    split at h'
    · rename_i hk
      simp only [Bool.and_eq_true, decide_eq_true_eq] at hk
      exact Option.some.inj h' ▸ hk.2
    · exact Option.some.inj h' ▸ Nat.le_refl _

/-- One port is down. -/
def portDown (s : State) (p : Nat) : State := { s with ports := tput s.ports p { portOf s p with down := true } }

/-- One link is down. -/
def linkDown (s : State) (k : Nat) : State := setLink s k { linkOf s k with down := true }

/-- Taking ports down in turn changes the ports alone, and exactly those of the list besides the ones that were down. -/
theorem foldl_portDown (ps : List Nat) : ∀ s : State, ∃ x, ps.foldl portDown s = { s with ports := x } ∧
    ∀ q, (portOf { s with ports := x } q).down = true ↔ q ∈ ps ∨ (portOf s q).down = true := by
  induction ps with
  | nil => exact fun s => ⟨s.ports, rfl, by simp⟩
  | cons p ps ih =>
    intro s
    obtain ⟨x, hx, hd⟩ := ih (portDown s p)
    refine ⟨x, hx, fun q => (hd q).trans ?_⟩
    by_cases h : q = p
    · subst h; simp [portOf, portDown]
    · simp [portOf, portDown, h, tgetD_tput_ne]

/-- Taking links down in turn changes the links alone, and exactly those of the list besides the ones that were down. -/
theorem foldl_linkDown (ks : List Nat) : ∀ s : State, ∃ x, ks.foldl linkDown s = { s with links := x } ∧
    ∀ q, (linkOf { s with links := x } q).down = true ↔ q ∈ ks ∨ (linkOf s q).down = true := by
  induction ks with
  | nil => exact fun s => ⟨s.links, rfl, by simp⟩
  | cons k ks ih =>
    intro s
    obtain ⟨x, hx, hd⟩ := ih (linkDown s k)
    refine ⟨x, hx, fun q => (hd q).trans ?_⟩
    by_cases h : q = k
    · subst h; simp [linkOf, linkDown, setLink]
    · simp [linkOf, linkDown, setLink, h, tgetD_tput_ne]

/-- Training changes ports and links only; of a ready device, those that fail it are down beside the ones that were. -/
theorem trainLinks_eq (s : State) : ∃ x y, trainLinks s = { s with ports := x, links := y } ∧
    (s.mgmt.ready = true →
      (∀ p, (portOf { s with ports := x, links := y } p).down = true ↔ p ∈ s.mgmt.badPorts ∨ (portOf s p).down = true) ∧
      ∀ k, (linkOf { s with ports := x, links := y } k).down = true ↔ k ∈ s.mgmt.badLinks ∨ (linkOf s k).down = true) := by
  by_cases hr : s.mgmt.ready = true
  · obtain ⟨x, hx, hp⟩ := foldl_portDown s.mgmt.badPorts s
    obtain ⟨y, hy, hk⟩ := foldl_linkDown s.mgmt.badLinks { s with ports := x }
    refine ⟨x, y, ?_, fun _ => ⟨hp, hk⟩⟩
    have ht : trainLinks s = (s.mgmt.badPorts.foldl portDown s).mgmt.badLinks.foldl linkDown (s.mgmt.badPorts.foldl portDown s) := by
      rw [trainLinks, if_pos hr]
      rfl
    rw [ht, hx]
    exact hy
  · exact ⟨s.ports, s.links, by rw [trainLinks, if_neg hr], fun h => absurd h hr⟩

/-! ### Events of a function (R351) -/

/-- An event for a function without a ring is held. -/
theorem postEvent_noRing {s : State} {f : Nat} {code : W32} {value : W64} (hr : (fnOf s f).ring = none) (hh : (fnOf s f).held = [])
    (hd : (fnOf s f).dropped = 0) :
    postEvent s f code value =
      setFn s f { fnOf s f with held := [{ gen := (fnOf s f).gen, code := code, value := value, time := s.clock }] } := by
  simp only [postEvent, hh, hd, deliverAll]
  simp [deliverEvents, ringEvent, hr]

/-- An event without a stated code is held in the same way. -/
theorem postFree_noRing {s : State} {f : Nat} {value : W64} (hr : (fnOf s f).ring = none) (hh : (fnOf s f).held = [])
    (hd : (fnOf s f).dropped = 0) :
    postFree s f value = setFn (freeNext s).2 f
      { fnOf s f with held := [{ gen := (fnOf s f).gen, code := (freeNext s).1.setWidth 32, value := value, time := s.clock }] } :=
  postEvent_noRing (s := (freeNext s).2) hr hh hd

/-- Nothing is delivered where nothing is held and nothing was dropped. -/
theorem deliverEvents_none {s : State} {f : Nat} (n : Nat) (hh : (fnOf s f).held = []) (hd : (fnOf s f).dropped = 0) : deliverEvents n s f = s := by
  cases n <;> simp [deliverEvents, hh, hd]

/-- The oldest held event is dropped and counted when it is of an older generation. -/
theorem deliverEvents_stale_cons {s : State} {f : Nat} {e : Event} {es : List Event} (n : Nat) (hr : (fnOf s f).running = true)
    (hp : (fnOf s f).paused = false) (hh : (fnOf s f).held = e :: es) (hg : e.gen ≠ (fnOf s f).gen) :
    deliverEvents (n + 1) s f = deliverEvents n (setFn s f { fnOf s f with held := es, stale := (fnOf s f).stale + 1 }) f := by
  simp [deliverEvents, hr, hp, hh, hg]

/-- Held events of older generations are all dropped and counted. -/
theorem deliverEvents_stale (es : List Event) : ∀ (n : Nat) (s : State) (f : Nat), es.length ≤ n → (fnOf s f).held = es →
    (fnOf s f).running = true → (fnOf s f).paused = false → (fnOf s f).dropped = 0 → (∀ e ∈ es, e.gen ≠ (fnOf s f).gen) →
    (fnOf (deliverEvents n s f) f).paused = false ∧ (fnOf (deliverEvents n s f) f).held = [] ∧
      (fnOf (deliverEvents n s f) f).stale = (fnOf s f).stale + es.length ∧ (deliverEvents n s f).blocks = s.blocks := by
  induction es with
  | nil =>
    intro n s f _ hh _ hp hd _
    rw [deliverEvents_none n hh hd]
    exact ⟨hp, hh, rfl, rfl⟩
  | cons e es ih =>
    intro n s f hl hh hr hp hd hg
    obtain ⟨n, rfl⟩ : ∃ m, n = m + 1 := ⟨n - 1, by rw [List.length_cons] at hl; omega⟩
    rw [deliverEvents_stale_cons n hr hp hh (hg e (List.mem_cons_self ..))]
    obtain ⟨h1, h2, h3, h4⟩ := ih n (setFn s f { fnOf s f with held := es, stale := (fnOf s f).stale + 1 }) f (by simpa using hl) (by simp)
      (by simpa using hr) (by simpa using hp) (by simpa using hd) (by simpa using fun x hx => hg x (List.mem_cons_of_mem _ hx))
    exact ⟨h1, h2, by simpa [Nat.add_assoc, Nat.add_comm 1] using h3, h4⟩

/-! ### Asking blocks for their places (R345) -/

/-- Asking marks the blocks of the list, and no others. -/
theorem tget_askBlocks (us : List Nat) : ∀ (s : State) (u : Nat),
    tget (askBlocks s us).blocks u = (tget s.blocks u).map (fun b => if u ∈ us then { b with preempt := true } else b) := by
  induction us with
  | nil => intro s u; simp [askBlocks]
  | cons v us ih =>
    intro s u
    have hc : askBlocks s (v :: us) = askBlocks { s with blocks := tmod s.blocks v (fun b => { b with preempt := true }) } us := rfl
    rw [hc, ih, tget_tmod]
    by_cases h : u = v
    · subst h; cases tget s.blocks u <;> simp
    · simp [h]

theorem askBlocks_fns (us : List Nat) : ∀ s : State, (askBlocks s us).fns = s.fns := by
  induction us with
  | nil => exact fun s => rfl
  | cons v us ih => exact fun s => ih { s with blocks := tmod s.blocks v (fun b => { b with preempt := true }) }

/-- A resident block of a function is in the table. -/
theorem tget_of_residentOf {s : State} {part f u : Nat} (h : u ∈ residentOf s part f) : ∃ b, tget s.blocks u = some b := by
  obtain ⟨e, he, rfl⟩ := List.mem_map.1 h
  exact exists_tget_of_mem (List.mem_filter.1 he).1

/-! ### The events themselves -/

/-- Power-on reset: the reset state with flash and cellar kept, ready or in recovery mode (R384 to R388; log 34). -/
theorem execPowerOnReset_spec (s : State) : ∃ t, exec .powerOnReset s = .next t ∧ t.cellar = s.cellar ∧ t.mgmt.bank0 = s.mgmt.bank0 ∧
    t.mgmt.bank1 = s.mgmt.bank1 ∧
    t = { State.reset with mgmt := t.mgmt, cellar := s.cellar, agenda := s.agenda, free := s.free, firmware := s.firmware, ports := t.ports,
                           links := t.links } ∧
    t.mgmt.m0 = extend 0 Config.bootRom ∧ t.mgmt.m3 = 0 ∧ t.mgmt.recovery = !t.mgmt.ready ∧
    (t.mgmt.ready = true → ∃ r fw, t.mgmt.record = some r ∧ recordOK r = true ∧
      (if t.mgmt.active then s.mgmt.bank1 else s.mgmt.bank0) = some fw ∧ firmwareOK r fw = true ∧
      t.mgmt.m1 = extend 0 fw.bytes ∧ t.mgmt.m2 = extend 0 r.bytes ∧ t.mgmt.ilv = recIlv r ∧ t.mgmt.downCellar = s.mgmt.badCellar ∧
      (∀ p, (portOf t p).down = true ↔ p ∈ s.mgmt.badPorts) ∧ ∀ k, (linkOf t k).down = true ↔ k ∈ s.mgmt.badLinks) ∧
    ∀ r r', s.mgmt.record = some r → t.mgmt.record = some r' → recMinsvn r ≤ recMinsvn r' := by
  obtain ⟨x, y, ht, hl⟩ :=
    trainLinks_eq { State.reset with mgmt := bootMgmt s.mgmt, cellar := s.cellar, agenda := s.agenda, free := s.free, firmware := s.firmware }
  obtain ⟨h0, h1, hm0, hm3, hrec, hr, hbp, hbl⟩ := bootMgmt_always s.mgmt
  refine ⟨_, congrArg Host.Outcome.next ht, rfl, h0, h1, rfl, hm0, hm3, hrec, fun h => ?_, fun r r' hs hn => recordNow_minsvn hs (hr ▸ hn)⟩
  obtain ⟨r, fw, hr, hk, hf, hv, hm1, hm2, hi, hd⟩ := bootMgmt_ready h
  obtain ⟨hp, hk'⟩ := hl h
  refine ⟨r, fw, hr, hk, hf, hv, hm1, hm2, hi, hd, fun p => (hp p).trans ?_, fun k => (hk' k).trans ?_⟩
  · rw [← hbp]
    exact or_iff_left Bool.false_ne_true
  · rw [← hbl]
    exact or_iff_left Bool.false_ne_true

/-- The thermal stop ends issue and holds one event for the physical function (R393). -/
theorem execThermalStop_spec {s : State} (hs : s.mgmt.stopped = false) (hr : (fnOf s 0).ring = none) (hh : (fnOf s 0).held = [])
    (hd : (fnOf s 0).dropped = 0) :
    ∃ t e, exec .thermalStop s = .next t ∧ t.mgmt.stopped = true ∧ nextIssuer t = none ∧ (fnOf t 0).held = [e] ∧ t.blocks = s.blocks := by
  have hx : exec .thermalStop s = execThermalStop s := rfl
  have h : execThermalStop s = .next (postFree (freeNext (setMgmt s { s.mgmt with stopped := true })).2 0
      (freeNext (setMgmt s { s.mgmt with stopped := true })).1) := by
    simp only [execThermalStop, hs]
    rfl
  rw [postFree_noRing (s := (freeNext (setMgmt s { s.mgmt with stopped := true })).2) hr hh hd] at h
  exact ⟨_, _, hx.trans h, rfl, rfl, by rw [fnOf_setFn_same], rfl⟩

/-- Pausing a function asks all its resident blocks for their places (R351; log 34). -/
theorem execFunctionMigrationPause_spec {s : State} {f : Nat} (hp : (fnOf s f).paused = false) :
    ∃ t, exec (.functionMigrationPause f) s = .next t ∧ (fnOf t f).paused = true ∧
      ∀ p, (fnOf s f).part = some p → ∀ u ∈ residentOf s p f, ∃ b, tget t.blocks u = some b ∧ b.preempt = true := by
  have hx : exec (.functionMigrationPause f) s = execFunctionMigrationPause f s := rfl
  cases hq : (fnOf s f).part with
  | none => exact ⟨setFn s f { fnOf s f with paused := true }, by simp [hx, execFunctionMigrationPause, hp, hq], by simp, by simp⟩
  | some p =>
    refine ⟨askBlocks (setFn s f { fnOf s f with paused := true }) (residentOf s p f), ?_, ?_, ?_⟩
    · simp only [hx, execFunctionMigrationPause, hp, hq]
      rfl
    · simp [fnOf_congr (askBlocks_fns _ _)]
    · rintro p' h u hu
      cases h
      obtain ⟨b, hb⟩ := tget_of_residentOf hu
      exact ⟨_, by rw [tget_askBlocks, setFn_blocks, hb, Option.map_some, if_pos hu], rfl⟩

/-- Resuming a function drops held events of older generations, and counts them (R351). -/
theorem execFunctionMigrationResume_spec {s : State} {f : Nat} (hp : (fnOf s f).paused = true) (hr : (fnOf s f).running = true)
    (hd : (fnOf s f).dropped = 0) (hg : ∀ e ∈ (fnOf s f).held, e.gen ≠ (fnOf s f).gen) (hl : (fnOf s f).held.length ≤ 255) :
    ∃ t, exec (.functionMigrationResume f) s = .next t ∧ (fnOf t f).paused = false ∧ (fnOf t f).held = [] ∧
      (fnOf t f).stale = (fnOf s f).stale + (fnOf s f).held.length ∧ t.blocks = s.blocks := by
  have hx : exec (.functionMigrationResume f) s = execFunctionMigrationResume f s := rfl
  obtain ⟨h1, h2, h3, h4⟩ := deliverEvents_stale (fnOf s f).held 300 (setFn s f { fnOf s f with paused := false }) f (by omega) (by simp)
    (by simpa using hr) (by simp) (by simpa using hd) (by simpa using hg)
  exact ⟨deliverAll (setFn s f { fnOf s f with paused := false }) f, by simp [hx, execFunctionMigrationResume, hp], h1, h2,
    by rw [deliverAll, h3, fnOf_setFn_same], h4⟩

/-- Settles O60: the accesses, the reset, the power and thermal events and migration each by the lemma about its event. -/
theorem hostAndPowerEvents : Obligations.HostAndPowerEvents := by
  unfold Obligations.HostAndPowerEvents
  refine ⟨fun s f off p hp => ⟨fun bs s1 pid o hi hb hw ha hl hm => execHostWrite_bar2 hp hi hb hw ha hl hm,
      fun n bs hi hn hr hd => execHostRead_bar2 hp hi hn hr hd⟩,
    fun s f off bs he => ⟨fun h1 h2 _ => execHostWrite_payload he h1 h2, fun hl hb hn => execHostWrite_doorbell he hl hb hn, execHostRead_mbstat he⟩,
    execPowerOnReset_spec, fun s on => ⟨rfl, rfl⟩, fun s hs hr hh hd => execThermalStop_spec hs hr hh hd,
    fun s f => ⟨execFunctionMigrationPause_spec, execFunctionMigrationResume_spec⟩⟩

end Sys2Proof.Machine
end

section
/-! The checks of R54 that come before an instruction's own body, and what completing an instruction does to its group: the statements
PredicateAndPrivilegeChecks, CompletingMovesPastTheWord and EnabledFlagTrapsAfterTheInstruction. -/
namespace Sys2Proof.Machine
open Sys2Proof

/-! ### A void predicate, an empty EXEC, a privileged instruction -/

/-- A void predicate traps an instruction in issue form (R54 step 4). -/
theorem IssueForm.voidPredicate {i : Instr} {h : Hdr} {s : State} {v : View} (hf : IssueForm i h) (hc : currentView s = some v)
    (hp : h.psel ≠ 0) (hv : thas v.g.p h.psel.toNat = false) : exec i s = trapped v 0 1 255 4 0 := by
  obtain ⟨priv, ops, body, he⟩ := hf
  rw [he]
  cases priv <;> simp [issue, issueP, hc, attempt_voidPredicate hp hv, trapped]

/-- With EXEC empty an instruction in issue form only completes (R54). -/
theorem IssueForm.noLanes {i : Instr} {h : Hdr} {s : State} {v : View} (hf : IssueForm i h) (hc : currentView s = some v)
    (hp : h.psel = 0 ∨ thas v.g.p h.psel.toNat = true) (hx : execOf h v.g = 0) : exec i s = completed h v 0 := by
  obtain ⟨priv, ops, body, he⟩ := hf
  rw [he]
  cases priv <;> simp [issue, issueP, hc, attempt_noLanes hp hx, completed]

/-- ERET outside the handler context ends like any other instruction that traps at a check. -/
theorem eret_trap_block {h : Hdr} {m : EretMode} {s : State} {v : View} {c k l : Nat} {d : BitVec 8} {a : W64} (hc : currentView s = some v)
    (hn : isHandler v = false) (ht : ∀ ops body, attempt h true ops body v = .trap c k l d a) : exec (.eret h m) s = trapped v c k l d a := by
  simp only [exec, execEret, hc, ht, hn]
  rfl

/-- ERET with EXEC empty only completes. -/
theorem eret_noLanes {h : Hdr} {m : EretMode} {s : State} {v : View} (hc : currentView s = some v)
    (hp : h.psel = 0 ∨ thas v.g.p h.psel.toNat = true) (hx : execOf h v.g = 0) : exec (.eret h m) s = completed h v 0 := by
  simp only [exec, execEret, hc, attempt_noLanes hp hx]
  rfl

/-- An instruction with a header is an ERET, or in issue form. -/
theorem eret_or_issueForm {i : Instr} {h : Hdr} (hh : i.hdr? = some h) : (∃ m, i = .eret h m) ∨ IssueForm i h := by
  by_cases he : ∃ m, i = .eret h m
  · exact .inl he
  · exact .inr (issueForm hh (fun m hm => he ⟨m, hm⟩))

theorem issueP_privileged {h : Hdr} {s : State} {v : View} {ops : List Opd} {body : View → List Row → Res} (hi : Issues h s v)
    (hn : isHandler v = false) : issueP h ops body s = trapped v 0 0x0B 255 5 0 := by
  simp only [issueP, hi.cur, attempt_privileged hi hn]
  rfl

theorem gets_privileged {h : Hdr} {d : SVReg} {n : BitVec 10} {s : State} {v : View} (hi : Issues h s v) (hn : isHandler v = false)
    (hp : 0x100 ≤ n.toNat) : exec (.gets h d n) s = trapped v 0 0x0B 255 5 0 := by
  simp only [exec, execGets, execGets.issueGets, hp, decide_true, if_true]
  exact issueP_privileged hi hn

theorem sets_privileged {h : Hdr} {n : BitVec 10} {a : SReg} {s : State} {v : View} (hi : Issues h s v) (hn : isHandler v = false)
    (hp : 0x100 ≤ n.toNat) : exec (.sets h n a) s = trapped v 0 0x0B 255 5 0 := by
  simp only [exec, execSets, hp, if_true]
  exact issueP_privileged hi hn

/-- Settles O9: every encoded instruction is an ERET or one attempt, and an attempt makes these checks first. -/
theorem predicateAndPrivilegeChecks : Obligations.PredicateAndPrivilegeChecks := by
  unfold Obligations.PredicateAndPrivilegeChecks
  refine ⟨fun i h s v hh hc he hp hv => ?_, fun i h s v hh hc hp hx => ?_, fun h s v hi hn => ?_⟩
  · rcases eret_or_issueForm hh with ⟨m, rfl⟩ | hf
    · exact eret_trap_block hc (he ⟨h, m, rfl⟩) (fun _ _ => attempt_voidPredicate hp hv)
    · exact hf.voidPredicate hc hp hv
  · rcases eret_or_issueForm hh with ⟨m, rfl⟩ | hf
    · exact eret_noLanes hc hp hx
    · exact hf.noLanes hc hp hx
  · exact ⟨fun _ _ _ => issueP_privileged hi hn, fun _ _ _ => issueP_privileged hi hn, fun _ _ _ => issueP_privileged hi hn,
      fun _ => eret_trap_block hi.cur hn (fun _ _ => attempt_privileged hi hn), fun _ _ => issueP_privileged hi hn,
      fun _ _ hp => gets_privileged hi hn hp, fun _ _ hp => sets_privileged hi hn hp⟩

/-! ### Completing -/

theorem ctrOf_ctrAdd_same (g : Group) (n : Nat) (h : n < g.ctrs.length) : ctrOf (ctrAdd g n) n = ctrOf g n + 1 := by
  simp [ctrOf, ctrAdd, List.getD_eq_getElem?_getD, getElem?_listSet_same _ _ _ h]

theorem ctrOf_ctrAdd_ne (g : Group) {n m : Nat} (h : m ≠ n) : ctrOf (ctrAdd g n) m = ctrOf g m := by
  simp [ctrOf, ctrAdd, List.getD_eq_getElem?_getD, getElem?_listSet_ne _ _ _ _ h]

/-- Settles O10: completing without a trap and with a lane left is retiring. -/
theorem completingMovesPastTheWord : Obligations.CompletingMovesPastTheWord := by
  unfold Obligations.CompletingMovesPastTheWord
  intro h v fl ha hf hl
  rw [settle_quiet ha hf]
  exact ⟨rfl, rfl, rfl, ctrOf_ctrAdd_same v.g 0 (by omega), fun n hn => ctrOf_ctrAdd_ne v.g hn, rfl, ⟨rfl, rfl, rfl, rfl, rfl, rfl⟩,
    rfl, rfl, rfl, rfl, rfl, rfl, rfl, rfl⟩

/-! ### An enabled flag -/

/-- A search finds the first number of its range at which the test holds. -/
theorem firstFrom_eq_some (p : Nat → Bool) (k m n : Nat) (hk : k ≤ n) (hn : n < k + m) (ht : p n = true) (hf : ∀ i, k ≤ i → i < n → p i = false) :
    firstFrom p k m = some n := by
  induction m generalizing k with
  | zero => omega
  | succ m ih =>
    rw [firstFrom]
    rcases Nat.eq_or_lt_of_le hk with rfl | hlt
    · simp [ht]
    · simp only [hf k (Nat.le_refl k) hlt]
      exact ih (k + 1) hlt (by omega) (fun i hi => hf i (by omega))

/-- The trap's code is the lowest flag that is set. -/
theorem trapFlag_eq_some {fl : BitVec 6} {n : Nat} (hn : n < 6) (ht : fl.getLsbD n = true) (hf : ∀ m < n, fl.getLsbD m = false) :
    trapFlag fl = some n :=
  firstFrom_eq_some _ 0 6 n (Nat.zero_le n) (by omega) ht (fun i _ hi => hf i hi)

/-- A trap after an instruction of a block that is not the handler context marks the block's fault. -/
theorem trapAfter_block {v : View} (f : FaultRec) (h : isHandler v = false) : trapAfter v f = { v with b := markFault v.b f } := by
  unfold trapAfter
  cases hk : v.b.kind
  · rfl
  · rfl
  · simp [isHandler, hk] at h

theorem markFault_first {b : Block} (f : FaultRec) (he : b.ending = none) (hf : b.fault = none) : markFault b f = { b with fault := some f } := by
  simp only [markFault, he, hf]

/-- Settles O11: the lowest enabled flag is the trap that completing finds, and a block without a fault records it. -/
theorem enabledFlagTrapsAfterTheInstruction : Obligations.EnabledFlagTrapsAfterTheInstruction := by
  unfold Obligations.EnabledFlagTrapsAfterTheInstruction
  intro h v fl n hn ht hf
  have hs : settle h v fl = trapAfter (endIfEmpty (retire h v fl)) (faultAt v 2 n 255 0 0) := by
    simp only [settle, trapFlag_eq_some hn ht hf]
  refine ⟨hs, fun hb hfault hend => ?_⟩
  rw [hs, trapAfter_block _ hb, markFault_first _ hend hfault]

end Sys2Proof.Machine
end

section
/-! Predicates and lanes: what a write of a predicate register leaves, and the statements VectorSelectAndMoveResults,
PredicateInstructionResults and FloatCompareClassAndStatusResults. -/
namespace Sys2Proof.Machine
open Sys2Proof

/-! ### Writing a predicate register -/

/-- A write of a predicate register changes no other register of the group. -/
theorem writeP_frame (g : Group) (d : PReg) (m x : Lanes) : writeP g d m x = { g with p := (writeP g d m x).p } := by
  unfold writeP; split <;> rfl

/-- A lane of the mask takes its new value, another lane keeps its own, false when the register was void (R29). -/
theorem getLsbD_readP_writeP (g : Group) (d : PReg) (m x : Lanes) (hd : d ≠ 0) (l : Nat) (hl : l < 64) :
    (readP (writeP g d m x) d).getLsbD l = if m.getLsbD l then x.getLsbD l else (tgetD g.p d.toNat 0).getLsbD l := by
  rw [readP_writeP_same _ _ _ _ hd]
  rw [BitVec.getLsbD_or, BitVec.getLsbD_and, BitVec.getLsbD_and, BitVec.getLsbD_not]
  cases m.getLsbD l <;> simp [hl]

/-! ### VSEL, VMOV and VCMP -/

theorem opCmp_eq (t : Ty) (a b : W64) : opCmp t .eq a b = true ↔ val t a = val t b := by simp [opCmp, condHolds]
theorem opCmp_ne (t : Ty) (a b : W64) : opCmp t .ne a b = true ↔ val t a ≠ val t b := by simp [opCmp, condHolds]
theorem opCmp_lt (t : Ty) (a b : W64) : opCmp t .lt a b = true ↔ val t a < val t b := by simp [opCmp, condHolds]
theorem opCmp_le (t : Ty) (a b : W64) : opCmp t .le a b = true ↔ val t a ≤ val t b := by simp [opCmp, condHolds]
theorem opCmp_gt (t : Ty) (a b : W64) : opCmp t .gt a b = true ↔ val t a > val t b := by simp [opCmp, condHolds]
theorem opCmp_ge (t : Ty) (a b : W64) : opCmp t .ge a b = true ↔ val t a ≥ val t b := by simp [opCmp, condHolds]

theorem vcmp_ready {h : Hdr} {t : Ty} {e : PReg} {a b : VReg} {c : Cond} {s : State} {v : View} (hi : Issues h s v)
    (ho : OperandsReady [vsrc t a, vsrc t b] v) :
    let q := readRows (execOf h v.g) [vsrc t a, vsrc t b] v
    exec (.vcmp h t e a b c) s =
      completed h { q.1 with g := writeP q.1.g e (execOf h v.g) (maskOf (fun l => opCmp t c (elem t q.2 0 l) (elem t q.2 1 l))) } 0 := by
  simp only [exec, execVcmp, issue_ready hi ho, passOn_done, conclude_done, execOf_readRows]
  rfl

theorem vsel_ready {h : Hdr} {t : Ty} {d a b : VReg} {c : PReg} {s : State} {v : View} (hi : Issues h s v)
    (ho : OperandsReady [vsrc t a, vsrc t b, .p c, vdst t d] v) :
    let q := readRows (execOf h v.g) [vsrc t a, vsrc t b, .p c, vdst t d] v
    exec (.vsel h t d a b c) s = completed h (writeElems q.1 t d (execOf h v.g)
      (fun l => if (readP v.g c).getLsbD l then elem t q.2 0 l else elem t q.2 1 l)) 0 := by
  simp only [exec, execVsel, issue_ready hi ho, passOn_done, conclude_done, execOf_readRows, readP_readRows]
  rfl

/-- What a predicate destination holds after a comparison whose result in each lane is `z`. -/
theorem writeP_result (g : Group) (e : PReg) (ex : Lanes) (z : Nat → Bool) (k : Nat → Prop) (hz : ∀ l, z l = true ↔ k l) :
    let w := writeP g e ex (maskOf z)
    w = { g with p := w.p } ∧ (∀ x, x ≠ e → readP w x = readP g x) ∧ (e = 0 → w = g) ∧
      (e ≠ 0 → ∀ l < 64, ((ex.getLsbD l = true → ((readP w e).getLsbD l = true ↔ k l)) ∧
        (ex.getLsbD l = false → (readP w e).getLsbD l = (tgetD g.p e.toNat 0).getLsbD l))) := by
  refine ⟨writeP_frame g e ex _, fun x hx => readP_writeP_ne g _ _ hx, fun he => by rw [he]; exact writeP_zero .., fun he l hl => ?_⟩
  rw [getLsbD_readP_writeP g e _ _ he l hl]
  exact ⟨fun hx => by rw [if_pos hx, getLsbD_maskOf, ← hz l]; simp [hl], fun hx => by simp [hx]⟩

/-- Settles O17: each of the three is one attempt, and the comparison of each condition is the relation that the statement lists. -/
theorem vectorSelectAndMoveResults : Obligations.VectorSelectAndMoveResults := by
  unfold Obligations.VectorSelectAndMoveResults
  intro h t d a b c e r s v hi ex
  refine ⟨vsel_ready hi, vector1_ready hi, fun ho => ?_, ?_⟩
  · exact issue_scalar hi ho (by cases hb : tyBig t <;> simp [noRows, ssrc, vdst, hb])
  · intro ho q x y k hk
    have compares : ∀ (cond : Cond) (rel : Nat → Prop), (∀ l, opCmp t cond (elem t q.2 0 l) (elem t q.2 1 l) = true ↔ rel l) →
        ∃ g : Group, exec (.vcmp h t e a b cond) s = completed h { q.1 with g := g } 0 ∧ g = { q.1.g with p := g.p } ∧
          (∀ x, x ≠ e → readP g x = readP q.1.g x) ∧ (e = 0 → g = q.1.g) ∧
          (e ≠ 0 → ∀ l < 64, ((ex.getLsbD l = true → ((readP g e).getLsbD l = true ↔ rel l)) ∧
            (ex.getLsbD l = false → (readP g e).getLsbD l = (tgetD q.1.g.p e.toNat 0).getLsbD l))) :=
      fun cond rel hr => ⟨_, vcmp_ready hi ho, writeP_result q.1.g e ex _ rel hr⟩
    simp only [List.mem_cons, List.not_mem_nil, or_false] at hk
    rcases hk with rfl | rfl | rfl | rfl | rfl | rfl
    · exact compares .eq _ (fun l => opCmp_eq t _ _)
    · exact compares .ne _ (fun l => opCmp_ne t _ _)
    · exact compares .lt _ (fun l => opCmp_lt t _ _)
    · exact compares .le _ (fun l => opCmp_le t _ _)
    · exact compares .gt _ (fun l => opCmp_gt t _ _)
    · exact compares .ge _ (fun l => opCmp_ge t _ _)

/-! ### Predicate instructions -/

theorem pset_ready {h : Hdr} {d : PReg} {e : SReg} {s : State} {v : View} (hi : Issues h s v) (ho : OperandsReady [ssrc e] v) :
    exec (.pset h d e) s = completed h { v with g := writeP v.g d (execOf h v.g) (readS v.g e) } 0 :=
  issue_scalar hi ho rfl

/-- PCNT counts the lanes of EXEC whose predicate is true (R117). -/
theorem pcnt_ready {h : Hdr} {e : SReg} {a : PReg} {s : State} {v : View} (hi : Issues h s v) (ho : OperandsReady [.p a, sdst e] v) :
    exec (.pcnt h e a) s = completed h { v with g := writeS v.g e (BitVec.ofNat 64 (popc (execOf h v.g &&& readP v.g a))) } 0 :=
  issue_scalar hi ho rfl

/-- Settles O20: each writes one predicate register under EXEC, and bit l of the value written is the operation on bits l of its sources. -/
theorem predicateInstructionResults : Obligations.PredicateInstructionResults := by
  unfold Obligations.PredicateInstructionResults
  intro h d a b e s v hi ex Result x y
  have result : ∀ (i : Instr) (new : Lanes) (z : Nat → Bool), exec i s = completed h { v with g := writeP v.g d ex new } 0 →
      (∀ l < 64, new.getLsbD l = z l) → Result i z := fun i new z hx hz =>
    ⟨_, hx, writeP_frame v.g d ex new, fun hd => by rw [hd]; exact writeP_zero .., fun x hx => readP_writeP_ne v.g _ _ hx,
      fun hd l hl => by rw [getLsbD_readP_writeP v.g d ex new hd l hl, hz l hl]⟩
  refine ⟨fun ho => ⟨result _ _ _ (pred2_ready hi ho) ?_, result _ _ _ (pred2_ready hi ho) ?_, result _ _ _ (pred2_ready hi ho) ?_⟩,
    fun ho => ⟨result _ _ _ (pred1_ready hi ho) ?_, result _ _ _ (pred1_ready hi ho) ?_⟩,
    fun ho => result _ _ _ (pset_ready hi ho) (fun _ _ => rfl), fun ho => ?_⟩
  · exact fun l _ => BitVec.getLsbD_and
  · exact fun l _ => BitVec.getLsbD_or
  · exact fun l _ => BitVec.getLsbD_xor
  · intro l hl
    simp [hl, x]
  · exact fun l _ => rfl
  · simp only [pcnt_ready hi ho, popc, laneList, BitVec.getLsbD_and]
    rfl

/-! ### FCMP, FCLASS, FSTAT and FMODE -/

/-- NV is raised by a fold over lanes exactly when one of them raises it. -/
theorem foldl_or_nvIf (L : List Nat) (b : Nat → Bool) (a : Bool) :
    L.foldl (fun f l => f ||| nvIf (b l)) (nvIf a) = nvIf (a || L.any b) := by
  induction L generalizing a with
  | nil => simp
  | cons l L ih =>
    have h1 : nvIf a ||| nvIf (b l) = nvIf (a || b l) := by cases a <;> cases b l <;> decide
    rw [List.foldl_cons, h1, ih, List.any_cons, Bool.or_assoc]

theorem nvIf_eq_fNV (b : Bool) : nvIf b = fNV ↔ b = true := by cases b <;> decide

theorem nvIf_cases (b : Bool) : nvIf b = 0 ∨ nvIf b = fNV := by cases b <;> decide

/-- FCMP writes the comparison of each lane of EXEC and raises NV where one of those lanes does (R135). -/
theorem fcmp_ready {h : Hdr} {t : Ty} {d : PReg} {a b : VReg} {c : FCond} {slot : Bool} {s : State} {v : View} (hi : Issues h s v)
    (ho : OperandsReady [vsrc t a, vsrc t b] v) (raises : Nat → Bool) :
    let q := readRows (execOf h v.g) [vsrc t a, vsrc t b] v
    let r := fun l => fcmpF (fmtOf t) c (slotVal t (rget (q.2.getD 0 zeroRow) l) (if slot then 1 else 0))
      (slotVal t (rget (q.2.getD 1 zeroRow) l) (if slot then 1 else 0))
    (∀ l, (r l).2 = nvIf (raises l)) →
    exec (.fcmp h t d a b c slot) s =
      completed h { q.1 with g := writeP q.1.g d (execOf h v.g) (maskOf (fun l => (execOf h v.g).getLsbD l && (r l).1)) }
        (nvIf ((List.range 64).any (fun l => (execOf h v.g).getLsbD l && raises l))) := by
  intro q r hr
  simp only [exec, execFcmp, issue_ready hi ho, passOn_done, conclude_done, execOf_readRows, completed]
  have hm : maskOf (fun l => (((List.range 64).map (fun l => if (execOf h v.g).getLsbD l then r l else (false, 0))).getD l (false, 0)).1) =
      maskOf (fun l => (execOf h v.g).getLsbD l && (r l).1) := by
    apply BitVec.eq_of_getLsbD_eq
    intro l hl
    simp only [getLsbD_maskOf, hl, decide_true, Bool.true_and, List.getD_eq_getElem?_getD, List.getElem?_map, List.getElem?_range hl]
    by_cases hx : (execOf h v.g).getLsbD l = true <;> simp [hx]
  have hf : ((List.range 64).map (fun l => if (execOf h v.g).getLsbD l then r l else (false, (0 : Flg)))).foldl (fun f e => f ||| e.2) 0 =
      nvIf ((List.range 64).any (fun l => (execOf h v.g).getLsbD l && raises l)) := by
    rw [List.foldl_map]
    have he : ∀ l, (if (execOf h v.g).getLsbD l then r l else (false, (0 : Flg))).2 = nvIf ((execOf h v.g).getLsbD l && raises l) := by
      intro l
      by_cases hx : (execOf h v.g).getLsbD l = true
      · simp [hx, hr l]
      · simp [hx, nvIf]
    simp only [he]
    exact foldl_or_nvIf _ _ false
  rw [← hm, ← hf]

theorem slotsOf_eq_two (t : Ty) : slotsOf t = 2 ↔ tyWidth t = 16 := by cases t <;> decide

/-- Settles O37: FCMP of each condition by its result and its flag in one lane, the others by their own bodies. -/
theorem floatCompareClassAndStatusResults : Obligations.FloatCompareClassAndStatusResults := by
  unfold Obligations.FloatCompareClassAndStatusResults
  intro h t d e a b c slot mask mode s v hi ex F
  refine ⟨?_, ?_, fun ho => ⟨fun hp => ?_, fun hp => ?_, ?_⟩⟩
  · intro ho q x y un sn ord k hk
    have compares : ∀ (cond : FCond) (rel : Nat → Prop) (raises : Nat → Bool), (∀ l, (fcmpF F cond (x l) (y l)).1 = true ↔ rel l) →
        (∀ l, (fcmpF F cond (x l) (y l)).2 = nvIf (raises l)) →
        ∃ (g : Group) (fl : BitVec 6), exec (.fcmp h t d a b cond slot) s = completed h { q.1 with g := g } fl ∧
          g = { q.1.g with p := g.p } ∧ (∀ x, x ≠ d → readP g x = readP q.1.g x) ∧
          (d ≠ 0 → ∀ l < 64, (ex.getLsbD l = true → ((readP g d).getLsbD l = true ↔ rel l)) ∧
            (ex.getLsbD l = false → (readP g d).getLsbD l = (tgetD q.1.g.p d.toNat 0).getLsbD l)) ∧
          (fl = 0 ∨ fl = fNV) ∧ (fl = fNV ↔ ∃ l < 64, ex.getLsbD l = true ∧ raises l = true) := by
      intro cond rel raises hrel hraise
      obtain ⟨hframe, hother, _, hlanes⟩ := writeP_result q.1.g d ex (fun l => ex.getLsbD l && (fcmpF F cond (x l) (y l)).1) _ (fun _ => Iff.rfl)
      refine ⟨_, _, fcmp_ready hi ho raises hraise, hframe, hother, fun hd l hl => ⟨fun hx => ?_, (hlanes hd l hl).2⟩, nvIf_cases _, ?_⟩
      · rw [← hrel l]
        exact ((hlanes hd l hl).1 hx).trans (by simp [hx])
      · rw [nvIf_eq_fNV, List.any_eq_true]
        simp [ex]
    simp only [List.mem_cons, List.not_mem_nil, or_false] at hk
    rcases hk with rfl | rfl | rfl | rfl | rfl | rfl | rfl | rfl
    · exact compares .eq _ sn (fun l => by simp [fcmpF, un, ord, F]) (fun _ => rfl)
    · exact compares .ne _ sn (fun l => by simp [fcmpF, un, ord, F]) (fun _ => rfl)
    · exact compares .lt _ un (fun l => by simp [fcmpF, un, ord, F]) (fun _ => rfl)
    · exact compares .le _ un (fun l => by simp [fcmpF, un, ord, F]) (fun _ => rfl)
    · exact compares .gt _ un (fun l => by simp [fcmpF, un, ord, F]) (fun _ => rfl)
    · exact compares .ge _ un (fun l => by simp [fcmpF, un, ord, F]) (fun _ => rfl)
    · exact compares .un _ sn (fun l => by simp [fcmpF, un, F]) (fun _ => rfl)
    · exact compares .ord _ sn (fun l => by simp [fcmpF, un, F]) (fun _ => rfl)
  · intro ho q cls
    simp only [exec, execFclass, issue_ready hi ho, passOn_done, conclude_done, execOf_readRows, slotsOf_eq_two]
    rfl
  · simp only [exec, execFstat, issue_scalar hi ho rfl, hp, if_true]
    rfl
  · simp only [exec, execFstat, issue_scalar hi ho rfl, hp]
    rfl
  · exact issue_scalar hi ho rfl

end Sys2Proof.Machine
end

section
/-! Vector destinations: a write of a register or a pair, and a push to a store queue; the statement WritingAVectorDestination. -/
namespace Sys2Proof.Machine
open Sys2Proof

/-- A write of one vector register: the lanes of the mask take the new row, the others keep their contents, and no other register changes. -/
theorem writeRow_lanes {v : View} {r : Nat} (m : Lanes) (f : Nat → W32) (h : armed v.g r = none) :
    let w := writeRow v r m (rowOf f)
    w = { v with g := { v.g with v := w.g.v } } ∧ (∀ q, q ≠ r → tget w.g.v q = tget v.g.v q) ∧
      ∀ l < 64, rget (readV w.g r) l = if m.getLsbD l then f l else rget (readV v.g r) l := by
  rw [writeRow_reg v r m _ h]
  refine ⟨rfl, fun q hq => tget_tput_ne _ _ hq, fun l hl => ?_⟩
  rw [readV_writeVreg_same, rget_rowMerge _ _ _ _ hl, rget_rowOf _ _ hl]

theorem setWidth_ushiftRight_32 (x : W64) : (x >>> 32).setWidth 32 = x.extractLsb' 32 32 := by
  apply BitVec.eq_of_getLsbD_eq
  intro i hi
  simp [hi]

theorem readV_congr {g k : Group} {r : Nat} (h : tget g.v r = tget k.v r) : readV g r = readV k r := by simp [readV, tgetD, h]

/-- A pair is written one register after the other. -/
theorem writeElems_big {v : View} {t : Ty} {d : VReg} {m : Lanes} {f : Nat → W64} (ht : tyBig t = true) :
    writeElems v t d m f = writeRow (writeRow v d.toNat m (rowOf (fun l => (f l).setWidth 32))) (d.toNat + 1) m
      (rowOf (fun l => (f l).extractLsb' 32 32)) := by
  simp only [writeElems, ht, if_true, setWidth_ushiftRight_32]

theorem writeElems_small {v : View} {t : Ty} {d : VReg} {m : Lanes} {f : Nat → W64} (ht : tyBig t = false) :
    writeElems v t d m f = writeRow v d.toNat m (rowOf (fun l => (f l).setWidth 32)) := by
  simp only [writeElems, ht, Bool.false_eq_true, if_false]

/-- A push to a store queue is one outstanding operation that writes the lanes of the mask within the stream (R178). -/
theorem pushQueue_spec (v : View) (k : Nat) (q : Queue) (m : Lanes) (f : Nat → W32) :
    let w := pushQueue v k q m (rowOf f)
    w.g = { v.g with q := tput v.g.q k { q with pos := q.pos + 1 }, nStore := v.g.nStore + 1, nQueue := w.g.nQueue } ∧ w.b = v.b ∧
      ∃ o, tget w.st.ops v.st.nextOp = some o ∧ o.blk = v.uid ∧ o.gid = v.gid ∧
        (∀ i, i ≠ v.st.nextOp → tget w.st.ops i = tget v.st.ops i) ∧
        ∃ (addrs : List Nat) (row : Row) (left : Lanes), o.body = .entry (BitVec.ofNat 3 k) q.ty addrs row left ∧
          ∀ l < 64, rget row l = f l ∧ (left.getLsbD l = true ↔ m.getLsbD l = true ∧ 64 * q.pos + l < q.n) ∧
            addrs[l]? = some ((q.base : Int) + q.stride * (64 * q.pos + l)).toNat := by
  refine ⟨rfl, rfl, _, tget_tput_same _ _ _, rfl, rfl, fun i hi => tget_tput_ne _ _ hi, _, _, _, rfl, fun l hl => ⟨rget_rowOf _ _ hl, ?_, ?_⟩⟩
  · rw [getLsbD_maskOf]
    simp only [hl, decide_true, Bool.true_and, Bool.and_eq_true, decide_eq_true_eq]
  · simp [List.getElem?_range hl]

/-- Settles O18: by the width of the type and by whether the name is an armed queue. -/
theorem writingAVectorDestination : Obligations.WritingAVectorDestination := by
  unfold Obligations.WritingAVectorDestination
  intro v t d m f w new
  refine ⟨fun ha ht => ?_, fun ha hb ht => ?_, fun k q ha ht => ?_⟩
  · simp only [w, writeElems_small ht]
    exact writeRow_lanes m _ ha
  · obtain ⟨hf1, ho1, hl1⟩ := writeRow_lanes m (fun l => (f l).setWidth 32) ha
    have hb' : armed (writeRow v d.toNat m (rowOf (fun l => (f l).setWidth 32))).g (d.toNat + 1) = none := by
      rw [hf1]; exact hb
    obtain ⟨hf2, ho2, hl2⟩ := writeRow_lanes m (fun l => (f l).extractLsb' 32 32) hb'
    simp only [w, writeElems_big ht]
    refine ⟨?_, fun r h1 h2 => (ho2 r h2).trans (ho1 r h1), fun l hl => ⟨?_, ?_⟩⟩
    · rw [hf2, hf1]
    · rw [readV_congr (ho2 d.toNat (by omega))]
      exact hl1 l hl
    · rw [hl2 l hl, readV_congr (ho1 (d.toNat + 1) (by omega))]
  · simp only [w, writeElems_small ht, writeRow_queue v _ k q m _ ha]
    exact pushQueue_spec v k q m _

end Sys2Proof.Machine
end

section
/-! Lanes and frames (R19, R21, R22): what the operations on them leave, and the statement LaneWantResults. -/
namespace Sys2Proof.Machine
open Sys2Proof

/-! ### Lanes -/

theorem laneAt_range (f : Nat → LaneState) (g : Group) (h : g.lanes = (List.range 64).map f) (k : Nat) (hk : k < 64) : laneAt g k = f k := by
  simp [laneAt, h, List.getD_eq_getElem?_getD, List.getElem?_range hk]

/-- A lane of the mask is changed, another one is not. -/
theorem laneAt_mapLanes (g : Group) (m : Lanes) (f : LaneState → LaneState) (k : Nat) (hk : k < 64) :
    laneAt (mapLanes g m f) k = if m.getLsbD k then f (laneAt g k) else laneAt g k :=
  laneAt_range (fun l => if m.getLsbD l then f (laneAt g l) else laneAt g l) (mapLanes g m f) rfl k hk

/-- A lane that is DONE (MakeDone of R81). -/
def doneLane : LaneState := { mode := .done, prior := .run, handle := 0, ret := 0xFFFF, label := 0xFFFF }

/-- A lane that waits for label `L` (R81). -/
def waitLane (L : Lab) (x : LaneState) : LaneState := { x with mode := .wait, prior := .run, handle := 0, label := L }

/-- A lane that is gated on handle `n` (R82). -/
def gateLane (n : HReg) (L : Lab) (x : LaneState) : LaneState := { x with mode := .gate, prior := .run, handle := n, label := L }

/-- A lane that calls label `f` and returns to `r` (R83). -/
def callLane (f r : Lab) (x : LaneState) : LaneState := { x with mode := .calling, prior := .run, handle := 0, label := f, ret := r }

/-- What Want of R81 makes of a lane. -/
def wantedLane (L : Lab) (x : LaneState) : LaneState := if L = 0xFFFF then doneLane else waitLane L x

/-- The lanes of `m` leave the remaining set of a frame. -/
def cutRem (m : Lanes) (f : Frame) : Frame := { f with rem := f.rem &&& ~~~m }

theorem cutRem_zero (f : Frame) : cutRem 0 f = f := by
  obtain ⟨entry, fend, resume, parts, rem, sweeps⟩ := f
  simp only [cutRem, BitVec.ofNat_eq_ofNat, BitVec.not_zero, BitVec.and_allOnes]

theorem map_cutRem_zero (l : List Frame) : l.map (cutRem 0) = l := by
  rw [show cutRem 0 = id from funext cutRem_zero, List.map_id]

theorem makeDone_frame (g : Group) (m : Lanes) :
    makeDone g m = { g with lanes := (makeDone g m).lanes, active := g.active &&& ~~~m, frames := g.frames.map (cutRem m) } := rfl

theorem laneAt_makeDone (g : Group) (m : Lanes) (k : Nat) (hk : k < 64) :
    laneAt (makeDone g m) k = if m.getLsbD k then doneLane else laneAt g k :=
  laneAt_mapLanes g m (fun _ => doneLane) k hk

/-- Taking away part of a set and then the rest of it takes away the set. -/
theorem and_not_split (a m f : Lanes) (h : ∀ k, f.getLsbD k = true → m.getLsbD k = true) :
    (a &&& ~~~f) &&& ~~~(m &&& ~~~f) = a &&& ~~~m := by
  apply BitVec.eq_of_getLsbD_eq
  intro k hk
  have := h k
  simp only [BitVec.getLsbD_and, BitVec.getLsbD_not, hk, decide_true, Bool.true_and]
  cases hf : f.getLsbD k <;> cases hm : m.getLsbD k <;> simp_all

/-- The lanes of `m` whose label is 0xFFFF, which Want makes DONE. -/
def endingLanes (m : Lanes) (L : Nat → Lab) : Lanes := maskOf (fun l => m.getLsbD l && L l == 0xFFFF)

theorem wantLanes_frame (g : Group) (m : Lanes) (L : Nat → Lab) :
    wantLanes g m L =
      { g with lanes := (wantLanes g m L).lanes, active := g.active &&& ~~~m, frames := g.frames.map (cutRem (endingLanes m L)) } := by
  have ha : (wantLanes g m L).active = g.active &&& ~~~m :=
    and_not_split g.active m (endingLanes m L) (fun k hk => by
      simp only [endingLanes, getLsbD_maskOf, Bool.and_eq_true] at hk
      exact hk.2.1)
  rw [← ha]
  rfl

theorem laneAt_wantLanes (g : Group) (m : Lanes) (L : Nat → Lab) (k : Nat) (hk : k < 64) :
    laneAt (wantLanes g m L) k = if m.getLsbD k then wantedLane (L k) (laneAt g k) else laneAt g k := by
  rw [laneAt_range (fun l => if (m &&& ~~~(endingLanes m L)).getLsbD l then waitLane (L l) (laneAt (makeDone g (endingLanes m L)) l)
    else laneAt (makeDone g (endingLanes m L)) l) (wantLanes g m L) rfl k hk, laneAt_makeDone g _ k hk]
  simp only [BitVec.getLsbD_and, BitVec.getLsbD_not, endingLanes, getLsbD_maskOf, wantedLane, hk, decide_true, Bool.true_and]
  cases m.getLsbD k <;> by_cases hL : L k = 65535#16 <;> simp [hL]

/-- With one label for all lanes, all of them end or none does. -/
theorem map_cutRem_ending (fs : List Frame) (m : Lanes) (l : Lab) :
    fs.map (cutRem (endingLanes m (fun _ => l))) = if l = 0xFFFF then fs.map (cutRem m) else fs := by
  split
  · rename_i h
    have : endingLanes m (fun _ => l) = m := by
      apply BitVec.eq_of_getLsbD_eq
      intro k hk
      simp only [endingLanes, getLsbD_maskOf, h, hk, decide_true, beq_self_eq_true, Bool.true_and, Bool.and_true]
    rw [this]
  · rename_i h
    have : endingLanes m (fun _ => l) = 0 := by
      apply BitVec.eq_of_getLsbD_eq
      intro k hk
      rw [endingLanes, getLsbD_maskOf, beq_eq_false_iff_ne.2 h]
      simp only [Bool.and_false, BitVec.getLsbD_zero, BitVec.ofNat_eq_ofNat]
    rw [this, map_cutRem_zero]

/-! ### Trace records and labels -/

/-- A trace record changes nothing but the buffer of its cluster. -/
theorem wantTrace_frame (v : View) (minor : Nat) (m : Lanes) (t : W64) (x : Nat) (ext : List Lab) :
    ∃ cl, wantTrace v minor m t x ext = { v with st := { v.st with clusters := cl } } := by
  unfold wantTrace
  split
  · exact ⟨_, rfl⟩
  · exact ⟨v.st.clusters, rfl⟩

/-- Reading the operands changes nothing that the legality of a label depends on. -/
theorem labelOK_readRows (ex : Lanes) (ops : List Opd) (v : View) (L : Lab) : labelOK (readRows ex ops v).1 L = labelOK v L := by
  obtain ⟨fr, qs, h⟩ := readRows_frame ex ops v
  rw [h]
  rfl

/-- A label that WANT may name (R81). -/
def Wantable (v : View) (L : Lab) : Prop := L = 0xFFFF ∨ labelOK v L = true

theorem wantOK_iff (v : View) (m : Lanes) (L : Nat → Lab) : wantOK v m L = true ↔ ∀ k < 64, m.getLsbD k = true → Wantable v (L k) := by
  simp [wantOK, Wantable]

/-- With one label for a set that is not empty, the set is legal when the label is. -/
theorem wantOK_const {v : View} {m : Lanes} (hm : m ≠ 0) (l : Lab) : wantOK v m (fun _ => l) = true ↔ Wantable v l := by
  rw [wantOK_iff]
  refine ⟨fun h => ?_, fun h _ _ _ => h⟩
  by_contra hn
  refine hm (BitVec.eq_of_getLsbD_eq (fun k hk => ?_))
  cases hb : m.getLsbD k with
  | false => simp
  | true => exact absurd (h k hk hb) hn

/-! ### Instructions that move lanes -/

/-- The instruction `i` completes at `u`, the lanes of `ex` leaving ACTIVE with the states `new` and the frames becoming `frames`; nothing else
of the group, its block and the machine changes but a trace record. -/
def MovesLanes (h : Hdr) (s : State) (i : Instr) (ex : Lanes) (u : View) (new : Nat → LaneState → LaneState) (frames : List Frame) : Prop :=
  ∃ w : View, exec i s = completed h w 0 ∧ w.b = u.b ∧ w.st = { u.st with clusters := w.st.clusters } ∧
    w.g = { u.g with lanes := w.g.lanes, active := u.g.active &&& ~~~ex, frames := frames } ∧
    ∀ k < 64, laneAt w.g k = if ex.getLsbD k then new k (laneAt u.g k) else laneAt u.g k

/-- A completed want: a record, and the group that it leaves. -/
theorem movesLanes_traced {h : Hdr} {s : State} {i : Instr} {ex m : Lanes} {u : View} {new : Nat → LaneState → LaneState} {frames : List Frame}
    {g : Group} {minor x : Nat} {t : W64} {ext : List Lab}
    (hx : exec i s = completed h { wantTrace u minor m t x ext with g := g } 0)
    (hg : g = { u.g with lanes := g.lanes, active := u.g.active &&& ~~~ex, frames := frames })
    (hl : ∀ k < 64, laneAt g k = if ex.getLsbD k then new k (laneAt u.g k) else laneAt u.g k) : MovesLanes h s i ex u new frames := by
  obtain ⟨cl, hc⟩ := wantTrace_frame u minor m t x ext
  rw [hc] at hx
  exact ⟨_, hx, rfl, rfl, hg, hl⟩

theorem want_moves {h : Hdr} {l : Lab} {s : State} {v : View} (hi : Issues h s v) (ho : OperandsReady [] v) (hl : Wantable v l) :
    MovesLanes h s (.want h l) (execOf h v.g) v (fun _ => wantedLane l)
      (if l = 0xFFFF then v.g.frames.map (cutRem (execOf h v.g)) else v.g.frames) := by
  have hx : exec (.want h l) s = completed h
      { wantTrace v 1 (execOf h v.g) (l.setWidth 64) with g := wantLanes v.g (execOf h v.g) (fun _ => l) } 0 := by
    simp only [exec, execWant, issue_scalar hi ho rfl, (wantOK_const hi.exec l).2 hl, if_true]
    rfl
  refine movesLanes_traced hx ?_ (laneAt_wantLanes v.g _ (fun _ => l))
  · rw [← map_cutRem_ending]
    exact wantLanes_frame v.g _ _

theorem want_fault {h : Hdr} {l : Lab} {s : State} {v : View} (hi : Issues h s v) (ho : OperandsReady [] v) (hl : ¬ Wantable v l) :
    exec (.want h l) s = trapped v 0 4 255 8 0 := by
  have hn : wantOK v (execOf h v.g) (fun _ => l) = false := by
    rw [← Bool.not_eq_true]
    exact fun hw => hl ((wantOK_const hi.exec l).1 hw)
  simp only [exec, execWant, issue_scalar hi ho rfl, hn]
  rfl

theorem wants_skips {h : Hdr} {neg : Bool} {r : SReg} {l : Lab} {s : State} {v : View} (hi : Issues h s v) (ho : OperandsReady [ssrc r] v)
    (hc : (readS v.g r != 0) = neg) : exec (.wants h neg r l) s = completed h v 0 := by
  simp only [exec, execWants, issue_scalar hi ho rfl, hc, beq_self_eq_true, if_true]
  rfl

theorem wants_moves {h : Hdr} {neg : Bool} {r : SReg} {l : Lab} {s : State} {v : View} (hi : Issues h s v) (ho : OperandsReady [ssrc r] v)
    (hc : (readS v.g r != 0) ≠ neg) (hl : Wantable v l) :
    MovesLanes h s (.wants h neg r l) (execOf h v.g) v (fun _ => wantedLane l)
      (if l = 0xFFFF then v.g.frames.map (cutRem (execOf h v.g)) else v.g.frames) := by
  have hx : exec (.wants h neg r l) s = completed h
      { wantTrace v 3 (execOf h v.g) (l.setWidth 64) with g := wantLanes v.g (execOf h v.g) (fun _ => l) } 0 := by
    simp only [exec, execWants, issue_scalar hi ho rfl, beq_eq_false_iff_ne.2 hc, (wantOK_const hi.exec l).2 hl, if_true]
    rfl
  refine movesLanes_traced hx ?_ (laneAt_wantLanes v.g _ (fun _ => l))
  · rw [← map_cutRem_ending]
    exact wantLanes_frame v.g _ _

theorem wants_fault {h : Hdr} {neg : Bool} {r : SReg} {l : Lab} {s : State} {v : View} (hi : Issues h s v) (ho : OperandsReady [ssrc r] v)
    (hc : (readS v.g r != 0) ≠ neg) (hl : ¬ Wantable v l) : exec (.wants h neg r l) s = trapped v 0 4 255 8 0 := by
  have hn : wantOK v (execOf h v.g) (fun _ => l) = false := by
    rw [← Bool.not_eq_true]
    exact fun hw => hl ((wantOK_const hi.exec l).1 hw)
  simp only [exec, execWants, issue_scalar hi ho rfl, beq_eq_false_iff_ne.2 hc, hn]
  rfl

/-- What WANT from a vector asks of a lane's element (R81). -/
def WantableElem (v : View) (x : W64) : Prop := x >>> 16 = 0 ∧ Wantable v (x.setWidth 16)

/-- The check of WANT from a vector at the rows it has read. -/
theorem wantVector_check (ex : Lanes) (ops : List Opd) (v : View) (x : Nat → W64) :
    ((laneList ex).all (fun l => x l >>> 16 == 0) && wantOK (readRows ex ops v).1 ex (fun l => (x l).setWidth 16)) = true ↔
      ∀ k < 64, ex.getLsbD k = true → WantableElem v (x k) := by
  rw [Bool.and_eq_true, wantOK_iff, List.all_eq_true]
  simp only [mem_laneList, and_imp, beq_iff_eq, Wantable, labelOK_readRows, WantableElem]
  exact ⟨fun ⟨h1, h2⟩ k hk hx => ⟨h1 k hk hx, h2 k hk hx⟩, fun h => ⟨fun k hk hx => (h k hk hx).1, fun k hk hx => (h k hk hx).2⟩⟩

theorem wantVector_moves {h : Hdr} {a : VReg} {s : State} {v : View} (hi : Issues h s v) (ho : OperandsReady [vsrc .n32 a] v) :
    let q := readRows (execOf h v.g) [vsrc .n32 a] v
    let x := elem .n32 q.2 0
    (∀ k < 64, (execOf h v.g).getLsbD k = true → WantableElem v (x k)) →
      MovesLanes h s (.wantVector h a) (execOf h v.g) q.1 (fun k => wantedLane ((x k).setWidth 16))
        (v.g.frames.map (cutRem (endingLanes (execOf h v.g) (fun k => (x k).setWidth 16)))) := by
  intro q x hx
  have hc := (wantVector_check (execOf h v.g) [vsrc .n32 a] v x).2 hx
  have hx : exec (.wantVector h a) s = completed h
      { wantTrace q.1 2 (execOf h v.g) 0xFFFE 0 ((List.range 64).map (fun k => (x k).setWidth 16)) with
        g := wantLanes q.1.g (execOf h v.g) (fun k => (x k).setWidth 16) } 0 := by
    simp only [exec, execWantVector, issue_ready hi ho, execOf_readRows]
    simp only [x, q] at hc
    rw [if_pos hc]
    rfl
  refine movesLanes_traced hx ?_ (laneAt_wantLanes q.1.g _ (fun k => (x k).setWidth 16))
  · have hf : v.g.frames = q.1.g.frames := by rw [readRows_g]
    rw [hf]
    exact wantLanes_frame q.1.g _ _

theorem wantVector_fault {h : Hdr} {a : VReg} {s : State} {v : View} (hi : Issues h s v) (ho : OperandsReady [vsrc .n32 a] v) :
    let x := elem .n32 (readRows (execOf h v.g) [vsrc .n32 a] v).2 0
    (∃ k < 64, (execOf h v.g).getLsbD k = true ∧ ¬ WantableElem v (x k)) → exec (.wantVector h a) s = trapped v 0 4 255 8 0 := by
  rintro x ⟨k, hk, hx, hn⟩
  have hc := fun hw => hn ((wantVector_check (execOf h v.g) [vsrc .n32 a] v x).1 hw k hk hx)
  simp only [exec, execWantVector, issue_ready hi ho, execOf_readRows]
  simp only [x] at hc
  rw [if_neg hc]
  rfl

theorem wanth_moves {h : Hdr} {n : HReg} {l : Lab} {s : State} {v : View} (hi : Issues h s v) (ho : OperandsReady [.h n] v)
    (hl : labelOK v l = true) :
    MovesLanes h s (.wanth h n l) (execOf h v.g) v (fun _ => gateLane n l) v.g.frames := by
  have hx : ∃ x, exec (.wanth h n l) s = completed h { wantTrace v 4 (execOf h v.g) (l.setWidth 64) x with
      g := { mapLanes v.g (execOf h v.g) (gateLane n l) with
        active := v.g.active &&& ~~~(execOf h v.g) } } 0 := by
    simp only [exec, execWanth, issue_scalar hi ho rfl, hl, if_true]
    exact ⟨_, rfl⟩
  obtain ⟨x, hx⟩ := hx
  exact movesLanes_traced hx rfl (laneAt_mapLanes v.g _ (gateLane n l))

theorem wanth_fault {h : Hdr} {n : HReg} {l : Lab} {s : State} {v : View} (hi : Issues h s v) (ho : OperandsReady [.h n] v)
    (hl : labelOK v l = false) : exec (.wanth h n l) s = trapped v 0 4 255 8 0 := by
  simp only [exec, execWanth, issue_scalar hi ho rfl, hl]
  rfl

theorem call_moves {h : Hdr} {f : Lab} {s : State} {v : View} (hi : Issues h s v) (ho : OperandsReady [] v)
    (hf : markerKind (wordsOf v.st v.b v.g) f = some 1) (hr : labelOK v (v.g.label + 1) = true) (hd : frameDepth v.g ≠ 8) :
    MovesLanes h s (.call h f) (execOf h v.g) v
      (fun _ => callLane f (v.g.label + 1)) v.g.frames := by
  have hx : exec (.call h f) s = completed h { wantTrace v 6 (execOf h v.g) (f.setWidth 64) with
      g := { mapLanes v.g (execOf h v.g) (callLane f (v.g.label + 1)) with
        active := v.g.active &&& ~~~(execOf h v.g) } } 0 := by
    simp only [exec, execCall, issue_scalar hi ho rfl, hf, hr, hd, ne_eq, not_true_eq_false, if_false, Bool.not_true, Bool.false_eq_true]
    rfl
  exact movesLanes_traced hx rfl (laneAt_mapLanes v.g _ (callLane f (v.g.label + 1)))

theorem call_fault {h : Hdr} {f : Lab} {s : State} {v : View} (hi : Issues h s v) (ho : OperandsReady [] v)
    (hf : markerKind (wordsOf v.st v.b v.g) f ≠ some 1 ∨ labelOK v (v.g.label + 1) = false) :
    exec (.call h f) s = trapped v 0 4 255 8 0 := by
  by_cases hk : markerKind (wordsOf v.st v.b v.g) f = some 1
  · have hr : labelOK v (v.g.label + 1) = false := hf.resolve_left (fun hn => hn hk)
    simp only [exec, execCall, issue_scalar hi ho rfl, hk, hr]
    rfl
  · simp only [exec, execCall, issue_scalar hi ho rfl, hk, ne_eq, not_false_eq_true, if_true]
    rfl

theorem call_deep {h : Hdr} {f : Lab} {s : State} {v : View} (hi : Issues h s v) (ho : OperandsReady [] v)
    (hf : markerKind (wordsOf v.st v.b v.g) f = some 1) (hr : labelOK v (v.g.label + 1) = true) (hd : frameDepth v.g = 8) :
    exec (.call h f) s = trapped v 0 9 255 8 0 := by
  simp only [exec, execCall, issue_scalar hi ho rfl, hf, hr, hd, ne_eq, not_true_eq_false, if_false, Bool.not_true, Bool.false_eq_true]
  rfl

/-- The lanes return: DONE in the base frame, waiting for the resume label in a call frame (R84). -/
theorem laneAt_retLanes (g : Group) (m : Lanes) (k : Nat) (hk : k < 64) :
    laneAt (retLanes g m) k =
      if m.getLsbD k then (if frameDepth g = 0 then doneLane else waitLane (topFrame g).resume (laneAt g k)) else laneAt g k := by
  unfold retLanes
  split
  · exact laneAt_makeDone g m k hk
  · have hl : ∀ (g : Group) (f : Frame), laneAt (setTop g f) k = laneAt g k := fun g f => by unfold setTop; split <;> rfl
    rw [hl]
    exact laneAt_mapLanes g m (waitLane (topFrame g).resume) k hk

theorem retLanes_base {g : Group} (m : Lanes) (hd : frameDepth g = 0) : retLanes g m = makeDone g m := if_pos hd

/-- In a call frame the lanes leave ACTIVE and the remaining set of that frame alone. -/
theorem retLanes_call {g : Group} (m : Lanes) (hd : frameDepth g ≠ 0) :
    retLanes g m =
      { g with lanes := (retLanes g m).lanes, active := g.active &&& ~~~m, frames := cutRem m (topFrame g) :: g.frames.tail } := by
  unfold retLanes
  rw [if_neg hd]
  cases hf : g.frames with
  | nil => simp [frameDepth, hf] at hd
  | cons f t => simp [setTop, mapLanes, hf, cutRem]

theorem ret_completes {h : Hdr} {s : State} {v : View} (hi : Issues h s v) (ho : OperandsReady [] v) :
    ∃ t, exec (.ret h) s = completed h { wantTrace v 7 (execOf h v.g) t with g := retLanes v.g (execOf h v.g) } 0 :=
  ⟨_, issue_scalar hi ho rfl⟩

/-- In the base frame RET ends the lanes. -/
theorem ret_base {h : Hdr} {s : State} {v : View} (hi : Issues h s v) (ho : OperandsReady [] v) (hd : frameDepth v.g = 0) :
    MovesLanes h s (.ret h) (execOf h v.g) v (fun _ _ => doneLane) (v.g.frames.map (cutRem (execOf h v.g))) := by
  obtain ⟨t, ht⟩ := ret_completes hi ho
  refine movesLanes_traced ht ?_ (fun k hk => ?_)
  · rw [retLanes_base _ hd]
    exact makeDone_frame v.g _
  · rw [laneAt_retLanes v.g _ k hk, if_pos hd]

/-- In a call frame RET makes the lanes wait for the resume label. -/
theorem ret_call {h : Hdr} {s : State} {v : View} (hi : Issues h s v) (ho : OperandsReady [] v) (hd : frameDepth v.g ≠ 0) :
    MovesLanes h s (.ret h) (execOf h v.g) v (fun _ => waitLane (topFrame v.g).resume)
      (cutRem (execOf h v.g) (topFrame v.g) :: v.g.frames.tail) := by
  obtain ⟨t, ht⟩ := ret_completes hi ho
  refine movesLanes_traced ht (retLanes_call _ hd) (fun k hk => ?_)
  rw [laneAt_retLanes v.g _ k hk, if_neg hd]

/-- Settles O24: by the instruction, and for each by the check that its label passes or fails. -/
theorem laneWantResults : Obligations.LaneWantResults := by
  unfold Obligations.LaneWantResults
  intro h l f a neg r n s v hi ex gone cut Result wanted left wantFault
  have illegal : l ≠ 0xFFFF → labelOK v l = false → ¬ Wantable v l := fun h1 h2 hw => by
    rcases hw with hw | hw
    · exact h1 hw
    · rw [h2] at hw; cases hw
  refine ⟨fun ho => ⟨want_moves hi ho, fun h1 h2 => want_fault hi ho (illegal h1 h2)⟩,
    fun ho => ⟨wantVector_moves hi ho, wantVector_fault hi ho⟩,
    fun ho => ⟨wants_skips hi ho, wants_moves hi ho, fun hc h1 h2 => wants_fault hi ho hc (illegal h1 h2)⟩,
    fun ho => ⟨wanth_moves hi ho, wanth_fault hi ho⟩,
    fun ho => ⟨call_moves hi ho, call_fault hi ho, call_deep hi ho, ret_base hi ho, ret_call hi ho⟩⟩

end Sys2Proof.Machine
end

section
/-! Special and control registers (R33 to R38, R111, R112, R348): what GETS reads, what SETS changes, SLDK, and the statement
SpecialRegisterResults. -/
namespace Sys2Proof.Machine
open Sys2Proof

/-! ### GETS -/

theorem getsS_user {h : Hdr} {d : SReg} {n : BitVec 10} {w : W64} {s : State} {v : View} (hi : Issues h s v) (ho : OperandsReady [sdst d] v)
    (hn : n.toNat < 0x100) (h0 : n.toNat ≠ 0) (hr : readUser v n.toNat = some w) :
    exec (.gets h (.s d) n) s = completed h { v with g := writeS v.g d w } 0 := by
  have hp : decide (0x100 ≤ n.toNat) = false := decide_eq_false (by omega)
  simp only [exec, execGets, execGets.issueGets, hp, Bool.false_eq_true, if_false, issue_scalar hi ho rfl, h0, hr]
  rfl

theorem getsV_user {h : Hdr} {e : VReg} {n : BitVec 10} {w : W64} {s : State} {v : View} (hi : Issues h s v)
    (ho : OperandsReady [.v e.toNat 1 false true] v) (hn : n.toNat < 0x100) (h0 : n.toNat ≠ 0) (hr : readUser v n.toNat = some w) :
    exec (.gets h (.v e) n) s = completed h (writeRow v e.toNat (execOf h v.g) (rowOf (fun _ => w.setWidth 32))) 0 := by
  have hp : decide (0x100 ≤ n.toNat) = false := decide_eq_false (by omega)
  simp only [exec, execGets, execGets.issueGets, hp, Bool.false_eq_true, if_false, issue_scalar hi ho rfl, h0, hr]
  rfl

/-- A number without a special register is illegal (R34); %lane has no value for an s-register. -/
theorem getsS_illegal {h : Hdr} {d : SReg} {n : BitVec 10} {s : State} {v : View} (hi : Issues h s v) (ho : OperandsReady [sdst d] v)
    (hn : n.toNat < 0x100) (hr : readUser v n.toNat = none) : exec (.gets h (.s d) n) s = trapped v 0 0x0A 255 8 0 := by
  have hp : decide (0x100 ≤ n.toNat) = false := decide_eq_false (by omega)
  simp only [exec, execGets, execGets.issueGets, hp, Bool.false_eq_true, if_false, issue_scalar hi ho rfl, hr, ite_self]
  rfl

theorem getsV_illegal {h : Hdr} {e : VReg} {n : BitVec 10} {s : State} {v : View} (hi : Issues h s v)
    (ho : OperandsReady [.v e.toNat 1 false true] v) (hn : n.toNat < 0x100) (h0 : n.toNat ≠ 0) (hr : readUser v n.toNat = none) :
    exec (.gets h (.v e) n) s = trapped v 0 0x0A 255 8 0 := by
  have hp : decide (0x100 ≤ n.toNat) = false := decide_eq_false (by omega)
  simp only [exec, execGets, execGets.issueGets, hp, Bool.false_eq_true, if_false, issue_scalar hi ho rfl, h0, hr]
  rfl

theorem getsS_ctl {h : Hdr} {d : SReg} {n : BitVec 10} {w : W64} {s : State} {v : View} (hi : Issues h s v) (hh : isHandler v = true)
    (ho : OperandsReady [sdst d] v) (hn : 0x100 ≤ n.toNat) (hr : readCtl v n.toNat = some w) :
    exec (.gets h (.s d) n) s = completed h { v with g := writeS v.g d w } 0 := by
  have h0 : n.toNat ≠ 0 := by omega
  simp only [exec, execGets, execGets.issueGets, hn, decide_true, if_true, if_false, issueP_scalar hi hh ho rfl, h0, hr]
  rfl

theorem getsV_ctl {h : Hdr} {e : VReg} {n : BitVec 10} {w : W64} {s : State} {v : View} (hi : Issues h s v) (hh : isHandler v = true)
    (ho : OperandsReady [.v e.toNat 1 false true] v) (hn : 0x100 ≤ n.toNat) (hr : readCtl v n.toNat = some w) :
    exec (.gets h (.v e) n) s = completed h (writeRow v e.toNat (execOf h v.g) (rowOf (fun _ => w.setWidth 32))) 0 := by
  have h0 : n.toNat ≠ 0 := by omega
  simp only [exec, execGets, execGets.issueGets, hn, decide_true, if_true, if_false, issueP_scalar hi hh ho rfl, h0, hr]
  rfl

theorem readCtl_unassigned (v : View) {n : Nat} (h : ctlAssigned n = false) : readCtl v n = none := by simp [readCtl, h]

theorem getsS_unassigned {h : Hdr} {d : SReg} {n : BitVec 10} {s : State} {v : View} (hi : Issues h s v) (hh : isHandler v = true)
    (ho : OperandsReady [sdst d] v) (hn : 0x100 ≤ n.toNat) (hr : ctlAssigned n.toNat = false) :
    exec (.gets h (.s d) n) s = trapped v 0 0x0A 255 8 0 := by
  have h0 : n.toNat ≠ 0 := by omega
  simp only [exec, execGets, execGets.issueGets, hn, decide_true, if_true, if_false, issueP_scalar hi hh ho rfl, h0, readCtl_unassigned v hr]
  rfl

theorem getsV_lane {h : Hdr} {e : VReg} {s : State} {v : View} (hi : Issues h s v) (ho : OperandsReady [.v e.toNat 1 false true] v) :
    exec (.gets h (.v e) 0) s = completed h (writeRow v e.toNat (execOf h v.g) (rowOf (fun l => BitVec.ofNat 32 l))) 0 :=
  issue_scalar hi ho rfl

/-- The block that the identity registers report: the group's own, or in a handler run the handled one (R378). -/
theorem identBlock_eq {v : View} {b : Block}
    (h : isHandler v = false ∧ b = v.b ∨ isHandler v = true ∧ ∃ r, runOf v = some r ∧ tget v.st.blocks r.blk = some b) :
    identBlock v = some b := by
  rcases h with ⟨hh, rfl⟩ | ⟨hh, r, hr, hb⟩
  · simp [identBlock, hh]
  · simp [identBlock, hh, hr, hb]

theorem identW_eq {v : View} {b : Block} (h : identBlock v = some b) (f : Block → W64) : identW v f = f b := by simp [identW, h]

/-- The unprivileged special registers and what they read (R33, R37, R378). -/
def userRegs (v : View) (b : Block) : List (Nat × W64) :=
  let gid := if isHandler v then 0 else v.gid
  [(0x001, 64), (0x002, BitVec.ofNat 64 gid), (0x003, BitVec.ofNat 64 b.groups.length), (0x004, b.index.setWidth 64),
   (0x005, b.nblocks.setWidth 64), (0x006, b.stage.setWidth 64), (0x007, b.lid.setWidth 64), (0x008, b.seqno.setWidth 64),
   (0x009, b.seed), (0x00A, BitVec.ofNat 64 b.part), (0x00B, BitVec.ofNat 64 (coreReg (blkCore v.b))),
   (0x00C, BitVec.ofNat 64 ((b.place.map (fun p => p.seat + gid)).getD 0)), (0x00D, BitVec.ofNat 64 b.depth),
   (0x00E, BitVec.ofNat 64 (frameDepth v.g)), (0x00F, (topFrame v.g).sweeps.setWidth 64), (0x010, v.g.sround.setWidth 64),
   (0x011, b.commits.setWidth 64), (0x018, v.g.fflags.setWidth 64), (0x019, v.g.frm.setWidth 64),
   (0x01A, v.g.ftrap.setWidth 64)]

theorem readUser_group {v : View} : readUser v 0x002 = some (BitVec.ofNat 64 (if isHandler v then 0 else v.gid)) := by
  simp only [readUser]
  split <;> rfl

theorem readUser_seat {v : View} {b : Block} (h : identBlock v = some b) :
    readUser v 0x00C = some (BitVec.ofNat 64 ((b.place.map (fun p => p.seat + (if isHandler v then 0 else v.gid))).getD 0)) := by
  simp only [readUser, identW_eq h]
  cases b.place <;> rfl

theorem readUser_part {v : View} {b : Block} (h : identBlock v = some b) : readUser v 0x00A = some (BitVec.ofNat 64 b.part) := by
  simp only [readUser, h]

theorem readUser_ident {v : View} {b : Block} (h : identBlock v = some b) {n : Nat} {f : Block → W64} (hr : readUser v n = some (identW v f)) :
    readUser v n = some (f b) := by rw [hr, identW_eq h]

/-- Each of the unprivileged registers has a number from 1 to 0xFF and reads as listed. -/
theorem readUser_userRegs {v : View} {b : Block} (h : identBlock v = some b) :
    ∀ p ∈ userRegs v b, p.1 ≠ 0 ∧ p.1 < 0x100 ∧ readUser v p.1 = some p.2 := by
  have ident := @readUser_ident v b h
  simp only [userRegs, List.forall_mem_cons]
  exact ⟨⟨by decide, by decide, rfl⟩, ⟨by decide, by decide, readUser_group⟩,
    ⟨by decide, by decide, ident (f := fun b => BitVec.ofNat 64 b.groups.length) rfl⟩,
    ⟨by decide, by decide, ident (f := fun b => b.index.setWidth 64) rfl⟩, ⟨by decide, by decide, ident (f := fun b => b.nblocks.setWidth 64) rfl⟩,
    ⟨by decide, by decide, ident (f := fun b => b.stage.setWidth 64) rfl⟩, ⟨by decide, by decide, ident (f := fun b => b.lid.setWidth 64) rfl⟩,
    ⟨by decide, by decide, ident (f := fun b => b.seqno.setWidth 64) rfl⟩, ⟨by decide, by decide, ident (f := fun b => b.seed) rfl⟩,
    ⟨by decide, by decide, readUser_part h⟩, ⟨by decide, by decide, rfl⟩, ⟨by decide, by decide, readUser_seat h⟩,
    ⟨by decide, by decide, ident (f := fun b => BitVec.ofNat 64 b.depth) rfl⟩, ⟨by decide, by decide, rfl⟩, ⟨by decide, by decide, rfl⟩,
    ⟨by decide, by decide, rfl⟩, ⟨by decide, by decide, ident (f := fun b => b.commits.setWidth 64) rfl⟩, ⟨by decide, by decide, rfl⟩,
    ⟨by decide, by decide, rfl⟩, ⟨by decide, by decide, rfl⟩, by simp⟩

/-! ### SETS of the unprivileged view -/

theorem ushiftRight_six_eq_zero (x : W64) : x >>> 6 = 0 ↔ x.toNat < 64 := by
  rw [← BitVec.toNat_inj, BitVec.toNat_ushiftRight, Nat.shiftRight_eq_div_pow]
  simp

theorem sets_user {h : Hdr} {n : BitVec 10} {a : SReg} {w : View} {s : State} {v : View} (hi : Issues h s v) (ho : OperandsReady [ssrc a] v)
    (hn : n.toNat < 0x100) (hs : setUser v n.toNat (readS v.g a) = some w) : exec (.sets h n a) s = completed h w 0 := by
  have hp : ¬ 0x100 ≤ n.toNat := by omega
  simp only [exec, execSets, hp, if_false, issue_scalar hi ho rfl, hs]
  rfl

theorem sets_user_illegal {h : Hdr} {n : BitVec 10} {a : SReg} {s : State} {v : View} (hi : Issues h s v) (ho : OperandsReady [ssrc a] v)
    (hn : n.toNat < 0x100) (hs : setUser v n.toNat (readS v.g a) = none) : exec (.sets h n a) s = trapped v 0 0x0A 255 8 0 := by
  have hp : ¬ 0x100 ≤ n.toNat := by omega
  simp only [exec, execSets, hp, if_false, issue_scalar hi ho rfl, hs]
  rfl

theorem setUser_fflags (v : View) (x : W64) :
    setUser v 0x018 x = if x.toNat < 64 then some { v with g := { v.g with fflags := x.setWidth 6 } } else none := by
  simp only [setUser, ushiftRight_six_eq_zero]

theorem setUser_frm (v : View) (x : W64) :
    setUser v 0x019 x = if x.toNat ≤ 4 then some { v with g := { v.g with frm := x.setWidth 3 } } else none := rfl

theorem setUser_ftrap (v : View) (x : W64) :
    setUser v 0x01A x = if x.toNat < 64 then some { v with g := { v.g with ftrap := x.setWidth 6 } } else none := by
  simp only [setUser, ushiftRight_six_eq_zero]

/-- Every other number below 0x100 is read-only or unassigned (R33). -/
theorem setUser_other (v : View) (x : W64) {n : Nat} (h1 : n ≠ 0x018) (h2 : n ≠ 0x019) (h3 : n ≠ 0x01A) : setUser v n x = none := by
  unfold setUser
  split
  · exact absurd rfl h1
  · exact absurd rfl h2
  · exact absurd rfl h3
  · rfl

/-! ### SLDK -/

theorem sldk_ready {h : Hdr} {d : SReg} {k : BitVec 9} {s : State} {v : View} (hi : Issues h s v) (ho : OperandsReady [sdst d] v) :
    exec (.sldk h d k) s = completed h { v with g := writeS v.g d ((argWords v).getD k.toNat 0) } 0 :=
  issue_scalar hi ho rfl

theorem argWords_block {v : View} (h : isHandler v = false) : argWords v = ((tget v.st.launches v.b.launch).map (fun l => l.args)).getD [] := by
  simp only [argWords, h]
  cases tget v.st.launches v.b.launch <;> rfl

theorem argWords_handler {v : View} (h : isHandler v = true) : argWords v = ((partOf v.st v.b.part).himage.map (fun i => i.args)).getD [] := by
  simp only [argWords, h]
  cases (partOf v.st v.b.part).himage <;> rfl

/-! ### SETS of a control register -/

theorem sets_ctl_illegal {h : Hdr} {n : BitVec 10} {a : SReg} {s : State} {v : View} (hi : Issues h s v) (hh : isHandler v = true)
    (ho : OperandsReady [ssrc a] v) (hn : 0x100 ≤ n.toNat)
    (hs : ctlAssigned n.toNat = false ∨ setCtlReg (flush v) v.b.part n.toNat (readS v.g a) (handledBlk v) = none) :
    exec (.sets h n a) s = trapped v 0 0x0A 255 8 0 := by
  simp only [exec, execSets, hn, if_true, issueP_scalar hi hh ho rfl]
  cases hc : ctlAssigned n.toNat
  · rfl
  · rw [hs.resolve_left (by simp [hc])]
    rfl

theorem sets_ctl {h : Hdr} {n : BitVec 10} {a : SReg} {st : State} {s : State} {v : View} (hi : Issues h s v) (hh : isHandler v = true)
    (ho : OperandsReady [ssrc a] v) (hn : 0x100 ≤ n.toNat) (hc : ctlAssigned n.toNat = true)
    (hs : setCtlReg (flush v) v.b.part n.toNat (readS v.g a) (handledBlk v) = some st) : exec (.sets h n a) s = completed h (reload v st) 0 := by
  simp only [exec, execSets, hn, if_true, issueP_scalar hi hh ho rfl, hc, hs]
  rfl

/-- The registers whose write is checked against their field and the parent alone: PCLUST, the bandwidth share, the ceilings, PCHILD and the hang
limit, with the bits of their fields (R348). -/
def plainCtls : List (Nat × W64) :=
  [(0x110, 0xFFFFFFFFFFFFFFFF), (0x113, 0xFF), (0x114, 0xFFFFFFFFFFFFFFFF), (0x117, 0xFFFFFFFF), (0x11A, 0xFF)]

/-- A budget register of the partition itself is refused for a bit outside its field, for a value out of range and for what the parent of a child
lacks; else it takes the value. -/
theorem setCtlReg_budget (s : State) (part : Nat) {n : Nat} {m : W64} (x : W64) (binder : Option Nat) (h1 : 0x110 ≤ n) (h2 : n ≤ 0x11B)
    (hm : ctlMask n = some m) (hr : budgetRange n x = true) :
    setCtlReg s part n x binder =
      if x &&& ~~~m ≠ 0 then none
      else if 128 ≤ part ∧ childRange s (part % 16) part n x = false then none
      else some (setPart s part (setCtl (partOf s part) n x)) := by
  have n1 : ¬ (0x120 ≤ n ∧ n ≤ 0x12B) := by omega
  have n2 : ¬ 0x178 ≤ n := by omega
  have n3 : n ≠ 0x171 := by omega
  have n4 : n ≠ 0x172 := by omega
  have n5 : n ≠ 0x176 := by omega
  have n6 : n ≠ 0x175 := by omega
  have n7 : ¬ 0x150 ≤ n := by omega
  have n8 : n ≠ 0x101 := by omega
  have n9 : n ≠ 0x102 := by omega
  have n10 : n ≠ 0x103 := by omega
  have child : (!childWrite s part n x) = true ↔ 128 ≤ part ∧ childRange s (part % 16) part n x = false := by
    by_cases hp : 128 ≤ part <;> simp [childWrite, h1, h2, n1, hp]
  simp only [setCtlReg, budgetAt, n1, n2, n3, n4, n5, n6, n7, n8, n9, n10, hm, hr, child, if_false, false_and, or_self, Bool.not_true,
    Bool.false_eq_true]

/-- What a write of a plain register answers. -/
theorem setCtlReg_plain (s : State) (part : Nat) (x : W64) (binder : Option Nat) : ∀ p ∈ plainCtls,
    setCtlReg s part p.1 x binder =
      if x &&& ~~~p.2 ≠ 0 then none
      else if 128 ≤ part ∧ childRange s (part % 16) part p.1 x = false then none
      else some (setPart s part (setCtl (partOf s part) p.1 x)) := by
  simp only [plainCtls, List.forall_mem_cons]
  exact ⟨setCtlReg_budget s part x binder (by decide) (by decide) rfl rfl, setCtlReg_budget s part x binder (by decide) (by decide) rfl rfl,
    setCtlReg_budget s part x binder (by decide) (by decide) rfl rfl, setCtlReg_budget s part x binder (by decide) (by decide) rfl rfl,
    setCtlReg_budget s part x binder (by decide) (by decide) rfl rfl, by simp⟩

theorem plainCtls_range : ∀ p ∈ plainCtls, 0x100 ≤ p.1 ∧ p.1 < 1024 ∧ ctlAssigned p.1 = true := by decide

/-- A view reloaded after a change that leaves the blocks is the same view over the changed state. -/
theorem reload_flush {s st : State} {v : View} (hc : currentView s = some v) (hb : st.blocks = (flush v).blocks) :
    reload v st = { v with st := st, b := { v.b with groups := listSet v.b.groups v.gid v.g } } := by
  obtain ⟨u, k, _, hv⟩ := currentView_eq_some.1 hc
  obtain ⟨_, rfl, rfl, _, hg⟩ := viewAt_eq_some.1 hv
  have hlt : v.gid < v.b.groups.length := (List.getElem?_eq_some_iff.1 hg).1
  have : viewAt st v.uid v.gid = some { v with st := st, b := { v.b with groups := listSet v.b.groups v.gid v.g } } := by
    refine viewAt_eq_some.2 ⟨rfl, rfl, rfl, ?_, ?_⟩
    · rw [hb]
      exact tget_tput_same _ _ _
    · exact getElem?_listSet_same _ _ _ hlt
  rw [reload, this]
  rfl

theorem pctl_setCtl_same (s : State) (part n : Nat) (x : W64) : pctl (setPart s part (setCtl (partOf s part) n x)) part n = x := by
  simp [pctl, partOf, setPart, ctl, setCtl]

theorem pctl_setCtl_ne (s : State) (part n : Nat) (x : W64) {q m : Nat} (h : (q, m) ≠ (part, n)) :
    pctl (setPart s part (setCtl (partOf s part) n x)) q m = pctl s q m := by
  by_cases hq : q = part
  · subst hq
    have hm : m ≠ n := fun e => h (by rw [e])
    simp [pctl, partOf, setPart, ctl, setCtl, tgetD_tput_ne _ _ _ hm]
  · simp [pctl, partOf, setPart, tgetD_tput_ne _ _ _ hq]

theorem pctl_flush (v : View) (q m : Nat) : pctl (flush v) q m = pctl v.st q m := rfl

/-! ### What a child partition lacks -/

theorem childRange_clusters {s : State} {part child : Nat} {x : W64} (h : x &&& ~~~(pctl s part 0x110) ≠ 0) :
    childRange s part child 0x110 x = false := by
  simp only [childRange, beq_eq_false_iff_ne.2 h, Bool.false_and, Bool.and_false]

theorem foldl_add_ge (L : List Nat) (f : Nat → Nat) (a : Nat) : a ≤ L.foldl (fun a k => a + f k) a := by
  induction L generalizing a with
  | nil => exact Nat.le_refl a
  | cons k L ih => exact Nat.le_trans (Nat.le_add_right a (f k)) (ih (a + f k))

theorem foldl_add_mem (L : List Nat) (f : Nat → Nat) (a k : Nat) (hk : k ∈ L) : f k ≤ L.foldl (fun a k => a + f k) a := by
  induction L generalizing a with
  | nil => cases hk
  | cons j L ih =>
    rcases List.mem_cons.1 hk with rfl | hk
    · exact Nat.le_trans (Nat.le_add_left (f k) a) (foldl_add_ge L f (a + f k))
    · exact ih (a + f j) hk

/-- The share of a child is one of the summands of its parent's children. -/
theorem share_le_childShares {s : State} {child : Nat} (x : W64) (h1 : 128 ≤ child) (h2 : child < 256) :
    x.toNat ≤ childShares s (child % 16) child x := by
  have hk : (child - 128) / 16 ∈ List.range 8 := List.mem_range.2 (by omega)
  have he : 128 + 16 * ((child - 128) / 16) + child % 16 % 16 = child := by omega
  have := foldl_add_mem (List.range 8) (fun k => if 128 + 16 * k + child % 16 % 16 = child then x.toNat
    else if thas s.parts (128 + 16 * k + child % 16 % 16) then (pctl s (128 + 16 * k + child % 16 % 16) 0x113).toNat else 0) 0 _ hk
  simp only [he, if_true] at this
  exact this

theorem childRange_share {s : State} {child : Nat} {x : W64} (h1 : 128 ≤ child) (h2 : child < 256)
    (h : (pctl s (child % 16) 0x113).toNat < x.toNat) : childRange s (child % 16) child 0x113 x = false := by
  have := share_le_childShares (s := s) x h1 h2
  simp only [childRange, Bool.and_eq_false_iff]
  exact .inr (decide_eq_false (by omega))

theorem childRange_ceiling {s : State} {part child i : Nat} {x : W64} (hi : i < 4)
    (h : (fld (pctl s part 0x114) (16 * i) 16).toNat < (fld x (16 * i) 16).toNat) : childRange s part child 0x114 x = false := by
  simp only [childRange, ceilsLe, Bool.and_eq_false_iff]
  refine .inr ?_
  rw [← Bool.not_eq_true, List.all_eq_true]
  intro hall
  have := of_decide_eq_true (hall i (List.mem_range.2 hi))
  omega

/-! ### The statement -/

/-- The numbers of a list of registers, as ten bits. -/
theorem toNat_ofNat_ten {n : Nat} (h : n < 1024) : (BitVec.ofNat 10 n).toNat = n := by
  rw [BitVec.toNat_ofNat]
  exact Nat.mod_eq_of_lt h

/-- SETS of a plain register in the handler context. -/
theorem sets_plain {h : Hdr} {a : SReg} {s : State} {v : View} (hi : Issues h s v) (hh : isHandler v = true) (ho : OperandsReady [ssrc a] v) :
    let x := readS v.g a
    ∀ p ∈ plainCtls,
      (x &&& ~~~p.2 ≠ 0 → exec (.sets h (BitVec.ofNat 10 p.1) a) s = trapped v 0 0x0A 255 8 0) ∧
      (128 ≤ v.b.part → childRange (flush v) (v.b.part % 16) v.b.part p.1 x = false →
        exec (.sets h (BitVec.ofNat 10 p.1) a) s = trapped v 0 0x0A 255 8 0) ∧
      (x &&& ~~~p.2 = 0 → (128 ≤ v.b.part → childRange (flush v) (v.b.part % 16) v.b.part p.1 x = true) →
        ∃ w, exec (.sets h (BitVec.ofNat 10 p.1) a) s = completed h w 0 ∧ pctl w.st v.b.part p.1 = x ∧
          (∀ q m, (q, m) ≠ (v.b.part, p.1) → pctl w.st q m = pctl v.st q m) ∧ w.g = v.g ∧ w.b.groups = listSet v.b.groups v.gid v.g) := by
  intro x p hp
  obtain ⟨h1, h2, h3⟩ := plainCtls_range p hp
  have hn := toNat_ofNat_ten h2
  have hset := setCtlReg_plain (flush v) v.b.part x (handledBlk v) p hp
  have refuse : setCtlReg (flush v) v.b.part p.1 x (handledBlk v) = none → exec (.sets h (BitVec.ofNat 10 p.1) a) s = trapped v 0 0x0A 255 8 0 :=
    fun hnone => sets_ctl_illegal hi hh ho (by rw [hn]; exact h1) (.inr (by rw [hn]; exact hnone))
  refine ⟨fun hx => refuse ?_, fun hk hr => refuse ?_, fun hx hr => ?_⟩
  · rw [hset, if_pos hx]
  · rw [hset]
    by_cases hx : x &&& ~~~p.2 = 0
    · rw [if_neg (fun hne => hne hx), if_pos ⟨hk, hr⟩]
    · rw [if_pos hx]
  · have hnr : ¬ (128 ≤ v.b.part ∧ childRange (flush v) (v.b.part % 16) v.b.part p.1 x = false) := by
      rintro ⟨hk, hf⟩
      rw [hr hk] at hf
      cases hf
    rw [if_neg (by simpa using hx), if_neg hnr] at hset
    refine ⟨_, sets_ctl hi hh ho (by rw [hn]; exact h1) (by rw [hn]; exact h3) (by rw [hn]; exact hset), ?_⟩
    rw [reload_flush (st := setPart (flush v) v.b.part (setCtl (partOf (flush v) v.b.part) p.1 x)) hi.cur rfl]
    exact ⟨pctl_setCtl_same _ _ _ _, fun q m hq => pctl_setCtl_ne _ _ _ _ hq, rfl, rfl⟩

/-- Settles O33: GETS by what the number reads, SETS by what its check answers, SLDK by the arguments of the launch or of the handler image. -/
theorem specialRegisterResults : Obligations.SpecialRegisterResults := by
  unfold Obligations.SpecialRegisterResults
  refine ⟨?_, ?_⟩
  · intro h d a e n k s v b hi hb gid x illegal
    have regs := readUser_userRegs (identBlock_eq hb)
    have ne : ∀ m : Nat, n ≠ BitVec.ofNat 10 m → m < 1024 → n.toNat ≠ m := fun m hm hlt he =>
      hm (BitVec.eq_of_toNat_eq (by rw [he, toNat_ofNat_ten hlt]))
    refine ⟨fun p hp => ⟨fun ho hn => ?_, fun ho hn => ?_⟩, getsV_lane hi, fun ho hn hr => getsS_illegal hi ho hn hr,
      fun ho h0 hn hr => getsV_illegal hi ho hn (ne 0 h0 (by decide)) hr, fun ho => ⟨fun hx => ?_, fun hx => ?_, fun hx => ?_, fun hx => ⟨?_, ?_⟩, fun hx => ?_, ?_⟩,
      ?_⟩
    · obtain ⟨h0, hlt, hr⟩ := regs p hp
      have ht : n.toNat = p.1 := by rw [hn, toNat_ofNat_ten (by omega)]
      exact getsS_user hi ho (by omega) (by omega) (by rw [ht]; exact hr)
    · obtain ⟨h0, hlt, hr⟩ := regs p hp
      have ht : n.toNat = p.1 := by rw [hn, toNat_ofNat_ten (by omega)]
      exact getsV_user hi ho (by omega) (by omega) (by rw [ht]; exact hr)
    · exact sets_user hi ho (by decide) ((setUser_fflags v x).trans (if_pos hx))
    · exact sets_user hi ho (by decide) ((setUser_frm v x).trans (if_pos hx))
    · exact sets_user hi ho (by decide) ((setUser_ftrap v x).trans (if_pos hx))
    · exact sets_user_illegal hi ho (by decide) ((setUser_fflags v x).trans (if_neg (by omega)))
    · exact sets_user_illegal hi ho (by decide) ((setUser_ftrap v x).trans (if_neg (by omega)))
    · exact sets_user_illegal hi ho (by decide) ((setUser_frm v x).trans (if_neg (by omega)))
    · exact fun hn h1 h2 h3 => sets_user_illegal hi ho hn
        (setUser_other v x (ne 0x018 h1 (by decide)) (ne 0x019 h2 (by decide)) (ne 0x01A h3 (by decide)))
    · exact fun ho => ⟨fun hh => by rw [← argWords_block hh]; exact sldk_ready hi ho, fun hh => by rw [← argWords_handler hh]; exact sldk_ready hi ho⟩
  · intro h d a n s v hi hh hn x illegal
    refine ⟨fun ho => ⟨fun w hw => getsS_ctl hi hh ho hn hw, fun hc => getsS_unassigned hi hh ho hn hc⟩,
      fun e ho w hw => getsV_ctl hi hh ho hn hw, fun ho => ⟨fun hc => sets_ctl_illegal hi hh ho hn (.inl hc), ?_⟩⟩
    intro parent
    have plain := sets_plain hi hh ho
    refine ⟨fun h1 h2 he hx => ?_, fun h1 h2 he hx => ?_, fun h1 h2 he i hl hx => ?_, fun p hp he => ?_⟩
    · subst he
      exact (plain (0x110, 0xFFFFFFFFFFFFFFFF) (by decide)).2.1 h1 (childRange_clusters hx)
    · subst he
      exact (plain (0x113, 0xFF) (by decide)).2.1 h1 (childRange_share h1 h2 hx)
    · subst he
      exact (plain (0x114, 0xFFFFFFFFFFFFFFFF) (by decide)).2.1 h1 (childRange_ceiling hl hx)
    · subst he
      exact plain p hp

end Sys2Proof.Machine
end

section
/-! SPAWN and LAUNCH (R88, R89): the operation each starts, and the statement SpawnAndLaunchResults. -/
namespace Sys2Proof.Machine
open Sys2Proof

/-! ### Operands and register files -/

theorem noRows_append (l k : List Opd) (hl : noRows l = true) (hk : noRows k = true) : noRows (l ++ k) = true := by
  induction l with
  | nil => exact hk
  | cons o l ih =>
    cases o with
    | v r n src dst =>
      cases src
      · exact ih hl
      · cases hl
    | s r n src dst => exact ih hl
    | p r => exact ih hl
    | c r => exact ih hl
    | h r => exact ih hl
    | hd r => exact ih hl
    | x r p big => exact ih hl
    | m t d w a b => exact ih hl

theorem noRows_caps (L : List Nat) (c : CReg) : noRows (L.map (fun i => Opd.c (c + BitVec.ofNat 4 i))) = true := by
  induction L with
  | nil => rfl
  | cons i L ih => exact ih

/-- A file whose first `n` registers are written one after the other. -/
theorem tget_foldl_tput {α : Type} (f : Nat → α) (t : Tbl α) (n i : Nat) (hi : i < n) :
    tget ((List.range n).foldl (fun t i => tput t i (f i)) t) i = some (f i) := by
  induction n with
  | zero => omega
  | succ n ih =>
    rw [List.range_succ, List.foldl_append]
    simp only [List.foldl_cons, List.foldl_nil, tget_tput]
    split
    · rename_i h; rw [h]
    · exact ih (by omega)

theorem tget_childS (v : View) (a n i : Nat) (hi : i < n) : tget (childS v a n) i = some (tgetD v.g.s (a + i) 0) :=
  tget_foldl_tput (fun i => tgetD v.g.s (a + i) 0) _ n i hi

theorem tget_childC (v : View) (c m i : Nat) (hi : i < m) :
    ∃ x, tget (childC v c m) i = some x ∧ x.bits = (tgetD v.g.c (c + i) { bits := 0, tag := false }).bits :=
  ⟨_, tget_foldl_tput (fun i => ({ tgetD v.g.c (c + i) { bits := 0, tag := false } with
    tag := (tgetD v.g.c (c + i) { bits := 0, tag := false }).tag && (capPerm (tgetD v.g.c (c + i) { bits := 0, tag := false }) &&& pG != 0) } : Cap))
    (launchC v) m i hi, rfl⟩

/-- Every register but handle register `d` keeps its value. -/
def KeepsButHandle (v w : View) (d : HReg) : Prop :=
  w.g.s = v.g.s ∧ w.g.v = v.g.v ∧ w.g.p = v.g.p ∧ w.g.c = v.g.c ∧ ∀ x, x ≠ d.toNat → tget w.g.h x = tget v.g.h x

theorem keepsButHandle_writeH {v w : View} {d : HReg} {x : HVal} {g : Group} (hw : w.g = writeH g d x) (hg : SameRegisters g v.g) :
    KeepsButHandle v w d := by
  obtain ⟨hv, hs, hp, hc, hh, _⟩ := hg
  rw [KeepsButHandle, hw]
  exact ⟨hs, hv, hp, hc, fun y hy => (tget_tput_ne _ _ hy).trans (by rw [hh])⟩

/-! ### SPAWN -/

/-- The operands of SPAWN. -/
def spawnOps (d : HReg) (f e a : SReg) (c : CReg) (n m : BitVec 4) : List Opd :=
  [Opd.hd d, ssrc f, ssrc e] ++ (if n = 0 then [] else [Opd.s a.toNat n.toNat true false]) ++
    (List.range m.toNat).map (fun i => Opd.c (c + BitVec.ofNat 4 i))

theorem noRows_spawnOps (d : HReg) (f e a : SReg) (c : CReg) (n m : BitVec 4) : noRows (spawnOps d f e a c n m) = true := by
  refine noRows_append _ _ (noRows_append _ _ rfl ?_) (noRows_caps _ c)
  split <;> rfl

/-- The view in which a SPAWN has been counted among the keyed operations of its group and among its SPAWNs. -/
def spawnCounted (v : View) : View := countKey { v with g := { v.g with spawns := v.g.spawns + 1 } }

/-- SPAWN without an earlier run of the same operation to find, by its early status (R88). -/
theorem spawn_ready {h : Hdr} {d : HReg} {f e a : SReg} {c : CReg} {n m : BitVec 4} {s : State} {v : View} (hi : Issues h s v)
    (ho : OperandsReady (spawnOps d f e a c n m) v) (hl : logFind v.b (nextKey v) = none) (hk : opOfKey v.st v.uid (nextKey v) = none) :
    exec (.spawn h d f e a c n m) s = completed h
      (match spawnStatus v (readS v.g f) (readS v.g e) with
      | some st => if st = 0x11 then completeNow (spawnCounted v) d st else startOp (spawnCounted v) d (.ready st) (some (nextKey v))
      | none => spawnChild (spawnCounted v) d (readS v.g f) (readS v.g e) (childS v a.toNat n.toNat) (childC v c.toNat m.toNat) v.g.spawns (nextKey v))
      0 := by
  refine (issue_scalar (ops := spawnOps d f e a c n m) hi ho (noRows_spawnOps ..)).trans ?_
  have hl' : logFind (spawnCounted v).b (nextKey v) = none := hl
  have hk' : opOfKey (spawnCounted v).st (spawnCounted v).uid (nextKey v) = none := hk
  have hs : spawnStatus (spawnCounted v) (readS v.g f) (readS v.g e) = spawnStatus v (readS v.g f) (readS v.g e) := rfl
  simp only [spawnCounted] at hl' hk' hs
  simp only [hl', hk', hs]
  cases spawnStatus v (readS v.g f) (readS v.g e) <;> rfl

theorem spawnStatus_deep {v : View} {f e : W64} (h : 4 ≤ v.b.depth) : spawnStatus v f e = some 0x11 := if_pos h

/-- A SPAWN that has no early status has a footprint word that can be read. -/
theorem footprint_of_spawnStatus {v : View} {f e : W64} (h : spawnStatus v f e = none) : ∃ fp, footprintOf f = some fp := by
  cases hf : footprintOf f with
  | some fp => exact ⟨fp, rfl⟩
  | none =>
    simp only [spawnStatus, hf] at h
    split at h <;> cases h

/-! ### LAUNCH -/

theorem launch_ready {h : Hdr} {d : HReg} {c : CReg} {o : SReg} {s : State} {v : View} (hi : Issues h s v)
    (ho : OperandsReady [.hd d, .c c, ssrc o] v) (hl : logFind v.b (nextKey v) = none) (hk : opOfKey v.st v.uid (nextKey v) = none)
    (hc : checkRange v (readC v.g c) (readS v.g o).toNat 64 1 pR [0] = none) :
    exec (.launch h d c o) s = completed h
      (startOp { countKey v with st := { v.st with
          graphs := tput v.st.graphs v.st.nextGr (newGraph v.b.part v.b.fn (capBase (readC v.g c) + (readS v.g o).toNat) 0 v.st.clock),
          nextGr := v.st.nextGr + 1 } } d (.launch v.st.nextGr) (some (nextKey v))) 0 := by
  have hl' : logFind (countKey v).b (nextKey v) = none := hl
  have hk' : opOfKey (countKey v).st (countKey v).uid (nextKey v) = none := hk
  simp only [exec, execLaunch, issue_scalar hi ho rfl, hc, hl', hk', conclude_done]
  rfl

/-- Settles O31: SPAWN by its early status, LAUNCH by the operation that it starts. -/
theorem spawnAndLaunchResults : Obligations.SpawnAndLaunchResults := by
  unfold Obligations.SpawnAndLaunchResults
  intro h d f e a o c n m s v hi hl hk ops kept
  have counted : SameRegisters (spawnCounted v).g v.g := ⟨rfl, rfl, rfl, rfl, rfl, rfl⟩
  refine ⟨fun ho hd => ?_, fun ho hn => ?_, fun ho hc => ?_⟩
  · refine ⟨completeNow (spawnCounted v) d 0x11, ?_, keepsButHandle_writeH rfl counted, rfl, rfl, tget_tput_same _ _ _⟩
    rw [spawn_ready hi ho hl hk, spawnStatus_deep hd]
    rfl
  · obtain ⟨fp, hfp⟩ := footprint_of_spawnStatus hn
    have hx := spawn_ready hi ho hl hk
    rw [hn] at hx
    refine ⟨_, _, _, hx, keepsButHandle_writeH rfl counted, tget_tput_same _ _ _, tget_tput_same _ _ _, rfl, rfl, tget_tput_same _ _ _,
      rfl, rfl, rfl, rfl, rfl, rfl, ?_, fun i hi => tget_childS v _ _ i hi, fun i hi => tget_childC v _ _ i hi⟩
    simp only [hfp]
    rfl
  · exact ⟨_, _, _, launch_ready hi ho hl hk hc, keepsButHandle_writeH rfl ⟨rfl, rfl, rfl, rfl, rfl, rfl⟩, tget_tput_same _ _ _, tget_tput_same _ _ _,
      rfl, tget_tput_same _ _ _, rfl, rfl, rfl, rfl⟩

end Sys2Proof.Machine
end

section
/-! The sweep (R75, R78): a step of Seek, an admission, waking and broken chains; the statement WakingAndBrokenChains, and why EndOfABlock
fails. -/
namespace Sys2Proof.Machine
open Sys2Proof

/-! ### Seek and Arrive -/

/-- What NextEligible finds has an eligible lane (R22). -/
theorem eligible_of_nextEligible {g : Group} {k K : Nat} (h : nextEligible g k = some K) : eligible g (lab K) ≠ 0 := by
  have found : ∀ (L : List Nat) (best : Option Nat), (∀ n, best = some n → eligible g (lab n) ≠ 0) →
      ∀ n, L.foldl (fun best l =>
        let L := (laneAt g l).label
        if (eligible g L).getLsbD l && inRegion g L && decide (k ≤ L.toNat) then
          match best with
          | none => some L.toNat
          | some n => some (min n L.toNat)
        else best) best = some n → eligible g (lab n) ≠ 0 := by
    intro L
    induction L with
    | nil => exact fun best hb n hn => hb n hn
    | cons l L ih =>
      intro best hb n hn
      refine ih _ (fun m hm => ?_) n hn
      simp only at hm
      split at hm
      · rename_i hl
        have here : eligible g (lab (laneAt g l).label.toNat) ≠ 0 := by
          intro h0
          simp only [Bool.and_eq_true] at hl
          rw [show lab (laneAt g l).label.toNat = (laneAt g l).label by simp [lab]] at h0
          rw [h0] at hl
          simp at hl
        split at hm
        · cases hm; exact here
        · rename_i b
          cases hm
          rcases Nat.le_total b (laneAt g l).label.toNat with hle | hle
          · rw [Nat.min_eq_left hle]; exact hb b rfl
          · rw [Nat.min_eq_right hle]; exact here
      · exact hb m hm
  exact found (List.range 64) none (by simp) K h

/-- The view in which Seek goes on: one bubble later, with no lane active. -/
def seekView (v : View) : View := { bubble v with g := { (bubble v).g with active := 0 } }

/-- Seek goes to the lowest eligible label at or after its own (R75). -/
theorem sweep_seek_next {n L K : Nat} {v : View} (hr : remaining v.g ≠ 0) (hk : nextEligible v.g L = some K) :
    sweep (n + 1) (.seek L) v = sweep n (.arrive K 0) (seekView v) := by
  have hr' : remaining (seekView v).g ≠ 0 := hr
  have hk' : nextEligible (seekView v).g L = some K := hk
  simp only [seekView] at hr' hk'
  simp only [sweep, seekView, hr', hk', if_false]

/-- Where no ICINV is outstanding a marker is passed without a change (R342). -/
theorem passMarker_quiet {v : View} (h : ∀ e ∈ v.st.ops, ∀ p, e.2.body ≠ .icinv p) : passMarker v = v := by
  unfold passMarker
  simp only
  rw [if_neg]
  rw [List.any_eq_true]
  rintro ⟨e, he, hb⟩
  split at hb
  · rename_i l hl
    exact h e he l hl
  · cases hb

/-- A marker that is no function entry in the base frame, lies before the end of the region, is reached along a sound chain and has no hold slot. -/
structure SoundMarker (v : View) (K : Nat) : Prop where
  entry : frameDepth v.g = 0 → markerKind (wordsOf v.st v.b v.g) (lab K) ≠ some 1
  inside : K < (topFrame v.g).fend.toNat
  chain : ∃ i, findLabel (wordsOf v.st v.b v.g) K = .ok i
  free : holdSlot v K = none

/-- Arrive at such a marker admits the run lanes and the eligible ones (R75). -/
theorem sweep_arrive_admits {n K : Nat} {run : Lanes} {v : View} (hs : SoundMarker v K) (ho : ∀ e ∈ v.st.ops, ∀ p, e.2.body ≠ .icinv p)
    (hc : run ||| eligible v.g (lab K) ≠ 0) : sweep (n + 1) (.arrive K run) v = enterMarker v K (run ||| eligible v.g (lab K)) := by
  obtain ⟨i, hi⟩ := hs.chain
  have h1 : (decide (frameDepth v.g = 0) && markerKind (wordsOf v.st v.b v.g) (lab K) == some 1 && decide (K < (topFrame v.g).fend.toNat)) = false := by
    by_cases hd : frameDepth v.g = 0
    · rw [beq_eq_false_iff_ne.2 (hs.entry hd), Bool.and_false, Bool.false_and]
    · rw [decide_eq_false hd, Bool.false_and, Bool.false_and]
  have h2 : K ≠ (topFrame v.g).fend.toNat := Nat.ne_of_lt hs.inside
  simp only [sweep, h1, h2, passMarker_quiet ho, hi, hs.free, hc, if_false, Bool.false_eq_true]

/-- The place at which an admission leaves the group, and what it keeps. -/
theorem enterMarker_group (v : View) (K : Nat) (act : Lanes) :
    let w := enterMarker v K act
    w.g.label = lab K ∧ w.g.offset = 1 ∧ w.g.run = .issuing ∧ w.g.active = act ∧ w.g.bubbles = v.g.bubbles ∧ SameRegisters w.g v.g := by
  have obs : ∀ p, ∃ a, (observeAcq v p).g = { v.g with acq := a } := by
    intro p
    unfold observeAcq
    split
    · exact ⟨_, rfl⟩
    · exact ⟨v.g.acq, rfl⟩
  simp only [enterMarker]
  obtain ⟨a, ha⟩ := obs (fun k => (laneList (maskOf fun l => act.getLsbD l && (laneAt v.g l).mode == .gate)).any
    (fun l => (laneAt v.g l).handle.toNat == k % 64))
  split <;> simp [tracePath, ha, SameRegisters, mapLanes]

/-! ### Waking -/

/-- IDLE_WAKE of an idle, unstopped group of a live block with an eligible label is Seek under the newest words (R25, R59). -/
theorem idleWake_seeks {s : State} {u k : Nat} {v : View} (hv : viewAt s u k = some v) (hb : blockLive v.b = true) (hr : v.g.run = .idle)
    (hp : v.g.stopped = false) (hn : (nextEligible v.g (topFrame v.g).entry.toNat).isSome = true) :
    exec (.idleWake u k) s = .next (flush (runSweep (.seek v.g.seek.toNat) { v with g := { v.g with code := newestCode s v.b } })) := by
  have hg : (blockLive v.b && v.g.run == .idle && !v.g.stopped && (nextEligible v.g (topFrame v.g).entry.toNat).isSome) = true := by
    rw [hb, hr, hp, hn]
    rfl
  simp only [exec, execIdleWake, hv, hg, if_true]

/-- BROKEN_CHAIN faults at the current marker (R58). -/
theorem brokenChain_faults {s : State} {v : View} {i : Nat} (hc : currentView s = some v) (hb : chainBroken v = true)
    (hi : markerIdx (wordsOf v.st v.b v.g) v.g.label = some i) : exec .brokenChain s = .next (flush (brokenChainAt v i)) := by
  simp only [exec, execBrokenChain, hc, hb, hi, if_true]
  rfl

/-- Settles O27: waking is Seek and then Arrive at a sound marker; a broken chain is a trap at the current marker. -/
theorem wakingAndBrokenChains : Obligations.WakingAndBrokenChains := by
  unfold Obligations.WakingAndBrokenChains
  refine ⟨?_, fun s v im i hc hb hh hend hfault him hi => ?_⟩
  · intro s u k L v hv hb hrun hstop hd hrem hnext hL c ws hkind hin hchain hhold hops
    let x := seekView { v with g := { v.g with code := c } }
    have hsound : SoundMarker x L := ⟨fun _ => by rw [show markerKind (wordsOf x.st x.b x.g) (lab L) = some 0 from hkind]; simp, hin, hchain, hhold⟩
    have hel : 0 ||| eligible x.g (lab L) = eligible v.g (lab L) := BitVec.zero_or
    have hne : 0 ||| eligible x.g (lab L) ≠ 0 := by
      rw [hel]
      exact eligible_of_nextEligible hL
    have hsweep : runSweep (.seek v.g.seek.toNat) { v with g := { v.g with code := c } } = enterMarker x L (0 ||| eligible x.g (lab L)) :=
      (sweep_seek_next (n := 1023) (v := { v with g := { v.g with code := c } }) hrem hL).trans (sweep_arrive_admits (n := 1022) hsound hops hne)
    obtain ⟨h1, h2, h3, h4, h5, h6⟩ := enterMarker_group x L (0 ||| eligible x.g (lab L))
    rw [← hel]
    refine ⟨_, ?_, h1, h2, h3, h4, h5, h6⟩
    rw [idleWake_seeks hv hb hrun hstop hnext, ← hsweep]
  · have ht : brokenChainAt v i = takeTrap v { faultAt v 0 0x0A 255 0 0 with addr := BitVec.ofNat 64 (im.addr + im.codeoff + 8 * i) } := by
      simp only [brokenChainAt, him]
    have hx := brokenChain_faults hc hb hi
    rw [ht, takeTrap_block _ hh, markFault_first _ hend hfault] at hx
    exact ⟨_, _, hx, rfl, rfl, rfl, rfl, rfl, rfl, rfl⟩

/-! ### A group without a frame -/

/-- Three markers and the region end: a block at label 0, a function entry at label 1 and a function end at label 2, each one word long. -/
def entryWords : List W64 := [0x0400000000010000, 0x0401000100010000, 0x0402000200010000, 0x0403FFFF00000000]

/-- A group at the end of block 0 whose lanes all call label 1, but which has no frame, not even the base frame of R21. -/
def framelessGroup : Group :=
  { fetchGroup with
    frames := [], active := 0,
    lanes := List.replicate 64 { mode := .calling, prior := .run, handle := 0, ret := 0xFFFF, label := 1 } }

def framelessBlock : Block := { fetchBlock 1 with groups := [framelessGroup] }

def framelessState : State :=
  { State.reset with
    cur := some (1, 0), blocks := [(1, framelessBlock)]
    images := [(1, { part := 0, addr := 0, codeoff := 0, labels := 3, rows := 256, head := [], versions := [entryWords], status := 0 })] }

def framelessView : View := { st := framelessState, uid := 1, gid := 0, b := framelessBlock, g := framelessGroup }

/-- Whether block 1 has a fault after a step that answers a next state. -/
def faultAfter (o : Out) : Option Bool :=
  match o with
  | .next t => (tget t.blocks 1).map (fun b => b.fault.isSome)
  | _ => none

/-- The model takes the pushed frame of such a group for its base frame, passes the function's body and meets no region end: a broken chain. -/
theorem frameless_faults : faultAfter (exec .endBlock framelessState) = some true := by decide +kernel

/-- Refutes O26: its clause on calls speaks of a group without any frame too. There the pushed frame counts as the base frame (frameDepth is the
number of frames less one), so that Arrive at the called entry goes past the function's body and ends in a broken-chain fault. -/
theorem not_endOfABlock : ¬ Obligations.EndOfABlock := by
  unfold Obligations.EndOfABlock
  intro h
  obtain ⟨_, _, hcall⟩ := h framelessState framelessView rfl (by decide +kernel) rfl (by rintro e ⟨⟩)
  obtain ⟨w, hx, _, _, _, _, _, _, _, _, _, _, hsame⟩ := hcall 1 2 ⟨0, by decide, by decide +kernel, rfl⟩ (by decide +kernel)
    ⟨2, by decide +kernel⟩ (by decide +kernel) (by decide) ⟨1, by decide +kernel⟩ (by decide +kernel)
  obtain ⟨hb, hst⟩ := hsame rfl
  have hnone : faultAfter (.next (flush w)) = some false := by
    have hw : w.st.blocks = [(1, framelessBlock)] := by rw [hst]; rfl
    simp only [faultAfter, flush, hw, hb, tget_tput]
    split <;> rfl
  rw [← hx, frameless_faults] at hnone
  cases hnone

end Sys2Proof.Machine
end

section
/-! PROOFS. Scheduling (R12, R26, R27, R42, R234, R292 to R295): placing a block, asking an idle one for its place, retiring a stage, posting a
set's event and moving affinities. -/
namespace Sys2Proof.Machine
open Sys2Proof

/-! ### Placing the next block of a stage (R12, R26, R27) -/

/-- The block that leaves its stage's list: it stands in the table, belongs to its launch, and neither the clock nor the launch's sequence number
has moved. -/
theorem makeBlock_spec {s s1 : State} {l n uid : Nat} {la : Launch} {b : Block} (hl : tget s.launches l = some la)
    (hm : makeBlock s l n = some (s1, uid)) (hb : tget s1.blocks uid = some b) :
    b.kind = .launched ∧ b.launch = l ∧ b.scratch = [] ∧ s1.clock = s.clock ∧ (tget s1.launches l).map (fun x => x.seq) = some la.seq := by
  simp only [makeBlock, hl] at hm
  split at hm
  · cases hm
  · split at hm
    · cases hm
    · cases hm
      have hseq : ∀ (x : State) (f : Stage → Stage), x.launches = s.launches →
          (tget (modStage x l n f).launches l).map (fun y => y.seq) = some la.seq := by
        intro x f hx
        simp [modStage, hx, tget_tmod, hl]
      rw [show ∀ (x : State) (f : Stage → Stage), (modStage x l n f).blocks = x.blocks from fun _ _ => rfl] at hb
      simp only [tget_tput_same, Option.some.injEq] at hb
      subst hb
      refine ⟨?_, ?_, ?_, rfl, hseq _ _ rfl⟩
      all_goals
        split
        · rfl
        · split <;> rfl

/-- What a first placement leaves of the block: resident at its place with new groups; starting them changes only groups, baton and fault. -/
theorem firstPlace_block {s : State} {uid seq : Nat} {p : Place} {b : Block} (hb : tget s.blocks uid = some b) (hk : b.kind = .launched)
    (hs : (tget s.launches b.launch).map (fun x => x.seq) = some seq) :
    ∃ b', tget (firstPlace s uid p).blocks uid = some b' ∧ b'.groups.length = b.fp.groups ∧
      b' = { b with phase := .resident, place := some p, first := some s.clock, seqno := BitVec.ofNat 32 seq,
                    groups := b'.groups, baton := b'.baton, fault := b'.fault } := by
  simp only [firstPlace, hb, hs, hk, Option.getD_some, if_true]
  obtain ⟨b', h1, h2, _, h4⟩ := startGroups_block
    { setBlk s uid { b with phase := .resident, place := some p, first := some s.clock, groups := newGroups s b, seqno := BitVec.ofNat 32 seq,
                            kind := .launched } with
      launches := tmod s.launches b.launch (fun l => { l with seq := l.seq + 1 })
      clusters := tmod s.clusters (clusterOf p.core) (fun c => { c with gated := false, gateAt := none }) }
    uid b.fp.groups _ (tget_tput_same _ _ _) (fun g hg => by rw [List.eq_of_mem_replicate hg]; rfl)
  exact ⟨b', hk ▸ h1, by simpa [newGroups] using h2, by simpa [hk] using h4⟩

/-- BLOCK_PLACEMENT of the oldest candidate, the next block of a stage, for which there is a place. -/
theorem execBlockPlacement_fresh {s s1 : State} {part l n uid : Nat} {p : Place} {c : Cand} {rest : List Cand} {la : Launch} {b : Block}
    (hc : candidates s part = c :: rest) (hsrc : c.src = .fresh l n) (hl : tget s.launches l = some la) (hm : makeBlock s l n = some (s1, uid))
    (hb : tget s1.blocks uid = some b) (hp : choosePlace s1 part b.launch b.stage.toNat b.ready b.fp = some p) :
    ∃ t b', exec (.blockPlacement part) s = .next t ∧ tget t.blocks uid = some b' ∧ b'.phase = .resident ∧ b'.place = some p ∧
      b'.first = some s.clock ∧ b'.scratch = [] ∧ b'.index = b.index ∧ b'.groups.length = b.fp.groups ∧ b'.seqno = BitVec.ofNat 32 la.seq := by
  obtain ⟨hk, hbl, hsc, hclk, hseq⟩ := makeBlock_spec hl hm hb
  obtain ⟨b', hb', hlen, heq⟩ := firstPlace_block (p := p) hb hk (hbl.symm ▸ hseq)
  have hoff : placeFirst s part (c :: rest) = firstPlace s1 uid p := by
    simp [placeFirst, hsrc, offer, offerFresh, hm, offerBlock, hb, hp]
  have hx : exec (.blockPlacement part) s = .next (placeFirst s part (candidates s part)) := rfl
  rw [hc, hoff] at hx
  refine ⟨_, b', hx, hb', ?_⟩
  rw [heq] at hlen ⊢
  exact ⟨rfl, rfl, congrArg some hclk, hsc, rfl, hlen, rfl⟩

/-! ### Asking an idle block for its place (R42) -/

/-- IDLE_BLOCK_PREEMPT asks the chosen block, and notes for which block it gives up its place. -/
theorem execIdleBlockPreempt_spec {s : State} {part u w : Nat} {c : Cand} {b : Block} (hv : idleVictim s part (candidates s part) = some (c, u))
    (hsrc : c.src = .waiting w ∨ c.src = .saved w ∧ u ≠ w) (hb : tget s.blocks u = some b) :
    ∃ t, exec (.idleBlockPreempt part) s = .next t ∧ tget t.blocks u = some { b with preempt := true, behind := some w } := by
  have hx : exec (.idleBlockPreempt part) s = execIdleBlockPreempt part s := rfl
  obtain ⟨s', hc, hb'⟩ : ∃ s', candBlock s c = some (s', w) ∧ tget s'.blocks u = some b := by
    rcases hsrc with hw | ⟨hw, hne⟩
    · exact ⟨s, by rw [candBlock, hw], hb⟩
    · exact ⟨_, by rw [candBlock, hw], by simp [tget_tmod, hb, hne]⟩
  refine ⟨{ s' with blocks := tmod s'.blocks u (fun b => { b with preempt := true, behind := some w }) }, ?_, by simp [tget_tmod, hb']⟩
  rw [hx]
  simp only [execIdleBlockPreempt, hv, hc]

/-! ### Deciding sets (R234) -/

/-- From the one state to the other, statuses of sets are decided and nothing else happens. -/
def OnlyDecides (s t : State) : Prop :=
  (∃ x, t = { s with launches := x }) ∧ ∀ id l, tget s.launches id = some l → ∃ d, tget t.launches id = some { l with decided := d }

theorem OnlyDecides.refl (s : State) : OnlyDecides s s := ⟨⟨s.launches, rfl⟩, fun _ l h => ⟨l.decided, h⟩⟩

theorem OnlyDecides.trans {s t r : State} (h : OnlyDecides s t) (h' : OnlyDecides t r) : OnlyDecides s r := by
  obtain ⟨⟨x, rfl⟩, hl⟩ := h
  obtain ⟨⟨y, rfl⟩, hl'⟩ := h'
  refine ⟨⟨y, rfl⟩, fun id l hid => ?_⟩
  obtain ⟨d, hd⟩ := hl id l hid
  obtain ⟨d', hd'⟩ := hl' id _ hd
  exact ⟨d', hd'⟩

theorem OnlyDecides.foldl {α : Type} {f : State → α → State} (hf : ∀ s a, OnlyDecides s (f s a)) (xs : List α) (s : State) :
    OnlyDecides s (xs.foldl f s) := by
  induction xs generalizing s with
  | nil => exact .refl s
  | cons a xs ih => exact (hf s a).trans (ih (f s a))

theorem onlyDecides_recordSet (s : State) (lch pset st : Nat) : OnlyDecides s (recordSet s lch pset st) := by
  refine ⟨⟨_, rfl⟩, fun id l h => ?_⟩
  simp only [recordSet, tget_tmod, h]
  split
  · exact ⟨_, rfl⟩
  · exact ⟨l.decided, rfl⟩

theorem onlyDecides_decideSet (s : State) (lch pset : Nat) : OnlyDecides s (decideSet s lch pset) := by
  simp only [decideSet]
  split
  · exact .refl s
  · split
    · exact .refl s
    · split
      · exact onlyDecides_recordSet ..
      · split
        · exact onlyDecides_recordSet ..
        · exact .refl s

theorem onlyDecides_decideSets (s : State) (part : Nat) : OnlyDecides s (decideSets s part) := by
  refine .foldl (fun r e => ?_) s.launches s
  split
  · exact .foldl (fun r p => onlyDecides_decideSet r e.1 p) _ _
  · exact .refl r

/-! ### Stages (R292) -/

/-- A change of stage `n` of a launch, read back. -/
theorem stageOf_modStage {s : State} {id : Nat} {l : Launch} (h : tget s.launches id = some l) (n k : Nat) (f : Stage → Stage) :
    stageOf (modStage s id n f) id k = l.stages[k]?.map (fun x => if k = n then f x else x) := by
  simp only [stageOf, modStage, tget_tmod, h, if_true, Option.map_some, Option.bind_some, List.getElem?_map]
  by_cases hk : k < l.stages.length
  · simp [hk]
  · rw [List.getElem?_eq_none (by simpa using hk), List.getElem?_eq_none (by omega)]
    rfl

/-- The launch after the change of a stage: only its list of stages differs. -/
theorem tget_modStage {s : State} {id : Nat} {l : Launch} (h : tget s.launches id = some l) (n : Nat) (f : Stage → Stage) :
    ∃ xs, tget (modStage s id n f).launches id = some { l with stages := xs } ∧
      ∀ k, xs[k]? = l.stages[k]?.map (fun x => if k = n then f x else x) := by
  refine ⟨(l.stages.zip (List.range l.stages.length)).map (fun e => if e.2 = n then f e.1 else e.1), ?_, fun k => ?_⟩
  · simp only [modStage, tget_tmod, h, if_true, Option.map_some]
  have hk := stageOf_modStage h n k f
  simpa only [stageOf, modStage, tget_tmod, h, if_true, Option.map_some, Option.bind_some] using hk

/-- A stage retires, and the following one of fire mode 1 fires. -/
def retireStage (s : State) (id n : Nat) : State :=
  let r := modStage s id n (fun st => { st with retired := true })
  modStage r id (n + 1) (fun st => if st.fire = 1 then { st with fired := true, ready := r.clock } else st)

/-- What a stage of the launch is after stage `n` retired. -/
def stageAfter (s : State) (n k : Nat) (x : Stage) : Stage :=
  if k = n then { x with retired := true } else if k = n + 1 ∧ x.fire = 1 then { x with fired := true, ready := s.clock } else x

theorem tget_retireStage {s : State} {id : Nat} {l : Launch} (h : tget s.launches id = some l) (n : Nat) :
    ∃ xs, tget (retireStage s id n).launches id = some { l with stages := xs } ∧ ∀ k, xs[k]? = l.stages[k]?.map (stageAfter s n k) := by
  obtain ⟨ys, hy, hys⟩ := tget_modStage h n (fun st => { st with retired := true })
  obtain ⟨xs, hx, hxs⟩ := tget_modStage hy (n + 1) (fun st => if st.fire = 1 then { st with fired := true, ready := s.clock } else st)
  refine ⟨xs, hx, fun k => ?_⟩
  rw [hxs, hys, Option.map_map]
  congr 1
  funext x
  by_cases hn : k = n
  · simp [stageAfter, hn]
  · by_cases hm : k = n + 1
    · by_cases hf : x.fire = 1 <;> simp [stageAfter, hm, hf]
    · simp [stageAfter, hn, hm]

/-- STAGE_RETIRE of a stage that may retire, whose tensors need no notice: the sets are decided, and the launch completes with its last stage. -/
theorem execStageRetire_eq {s : State} {id n : Nat} {l : Launch} {st : Stage} (hl : tget s.launches id = some l) (hd : l.done = none)
    (hs : l.stages[n]? = some st) (hm : mayRetire s id l n st = true) (hp : producedBy s l n = []) :
    ∃ r xs d, OnlyDecides (retireStage s id n) r ∧ tget r.launches id = some { l with stages := xs, decided := d } ∧
      (∀ k, xs[k]? = l.stages[k]?.map (stageAfter s n k)) ∧
      exec (.stageRetire id n) s =
        .next (if xs.all (fun x => x.retired) then completeLaunch r id { l with stages := xs, decided := d } else r) := by
  obtain ⟨xs, hx, hxs⟩ := tget_retireStage hl n
  have hdec := onlyDecides_decideSets (retireStage s id n) l.part
  obtain ⟨d, hr⟩ := hdec.2 id _ hx
  refine ⟨_, xs, d, hdec, hr, hxs, ?_⟩
  have hp' : producedBy (retireStage s id n) l n = [] := hp
  have he : exec (.stageRetire id n) s = execStageRetire id n s := rfl
  rw [he]
  simp only [execStageRetire, hl, hs, hd, hm, Option.isNone_none, Bool.and_self, if_true]
  rw [show modStage (modStage s id n _) id (n + 1) _ = retireStage s id n from rfl, hp', List.foldl_nil, hr]
  rfl

/-- STAGE_RETIRE of a stage that is not the last. -/
theorem execStageRetire_more {s : State} {id n : Nat} {l : Launch} {st : Stage} (hl : tget s.launches id = some l) (hd : l.done = none)
    (hs : l.stages[n]? = some st) (hm : mayRetire s id l n st = true) (hp : producedBy s l n = [])
    (hmore : ∃ (m : Nat) (x : Stage), m ≠ n ∧ l.stages[m]? = some x ∧ x.retired = false) :
    ∃ t, exec (.stageRetire id n) s = .next t ∧ stageOf t id n = some { st with retired := true } ∧ t.blocks = s.blocks ∧
      ∀ x, l.stages[n + 1]? = some x → x.fire = 1 → stageOf t id (n + 1) = some { x with fired := true, ready := s.clock } := by
  obtain ⟨r, xs, d, ⟨⟨y, rfl⟩, _⟩, hr, hxs, he⟩ := execStageRetire_eq hl hd hs hm hp
  obtain ⟨m, x, hmn, hx, hret⟩ := hmore
  have hall : ¬ xs.all (fun x => x.retired) = true := by
    intro h
    have hmem := List.mem_of_getElem? ((hxs m).trans (by rw [hx]; rfl))
    have hret' := List.all_eq_true.1 h _ hmem
    simp only [stageAfter, hmn, if_false] at hret'
    split at hret'
    all_goals exact absurd hret' (by simp [hret])
  rw [if_neg hall] at he
  refine ⟨_, he, ?_, rfl, fun z hz hf => ?_⟩
  · simp [stageOf, hr, hxs, hs, stageAfter]
  · simp [stageOf, hr, hxs, hz, stageAfter, hf]

/-- A launch without names completes: its status is set and posted as an event. -/
theorem completeLaunch_noNames (s : State) (id : Nat) {l : Launch} (hn : l.names = []) :
    completeLaunch s id l = postFree { s with launches := tmod s.launches id (fun l' => { l' with done := some (if l.error then 0x0240 else 0) }) } l.fn
      ((if l.error then (0x0240 : W16) else 0).setWidth 64) := by
  simp [completeLaunch, setsOf, hn]

/-- STAGE_RETIRE of the last stage. -/
theorem execStageRetire_last {s : State} {id n : Nat} {l : Launch} {st : Stage} (hl : tget s.launches id = some l) (hd : l.done = none)
    (hs : l.stages[n]? = some st) (hm : mayRetire s id l n st = true) (hp : producedBy s l n = [])
    (hlast : ∀ (m : Nat) (x : Stage), m ≠ n → l.stages[m]? = some x → x.retired = true) (hn : l.names = [])
    (hring : (fnOf s l.fn).ring = none) (hheld : (fnOf s l.fn).held = []) (hdrop : (fnOf s l.fn).dropped = 0) :
    ∃ t l' e, exec (.stageRetire id n) s = .next t ∧ tget t.launches id = some l' ∧
      l'.done = some (if l.error then (0x0240 : W16) else 0) ∧ (fnOf t l.fn).held = [e] ∧
      e.value = (if l.error then (0x0240 : W16) else 0).setWidth 64 ∧ e.gen = (fnOf s l.fn).gen := by
  obtain ⟨r, xs, d, ⟨⟨y, rfl⟩, _⟩, hr, hxs, he⟩ := execStageRetire_eq hl hd hs hm hp
  have hall : xs.all (fun x => x.retired) = true := by
    refine List.all_eq_true.2 fun z hz => ?_
    obtain ⟨k, hk⟩ := List.getElem?_of_mem hz
    rw [hxs] at hk
    obtain ⟨x, hx, rfl⟩ := Option.map_eq_some_iff.1 hk
    by_cases hkn : k = n
    · simp [stageAfter, hkn]
    · have hret := hlast k x hkn hx
      simp only [stageAfter, hkn, if_false]
      split
      all_goals exact hret
  rw [if_pos hall, completeLaunch_noNames _ _ (l := { l with stages := xs, decided := d }) hn,
    postFree_noRing (by exact hring) (by exact hheld) (by exact hdrop)] at he
  refine ⟨_, { l with stages := xs, decided := d, done := some (if l.error then 0x0240 else 0) }, _, he, ?_, rfl, by rw [fnOf_setFn_same], rfl, rfl⟩
  simp only [setFn_launches, freeNext, tget_tmod, if_true]
  simp only at hr
  rw [hr]
  rfl

/-! ### Settle events (R234) -/

/-- Without a ring no event is delivered. -/
theorem ringEvent_ringNone {s : State} {f : Nat} (e : Event) (hr : (fnOf s f).ring = none) : ringEvent s f e = (s, false) := by
  simp [ringEvent, hr]

/-- Delivering to a function without a ring may only drop stale events from the function's record. -/
theorem deliverEvents_ringNone (n : Nat) : ∀ (s : State) (f : Nat), (fnOf s f).ring = none → ∃ x, deliverEvents n s f = { s with fns := x } := by
  induction n with
  | zero => exact fun s f _ => ⟨s.fns, rfl⟩
  | succ n ih =>
    intro s f hr
    have hfree : ∀ e, ringEvent (freeNext s).2 f e = ((freeNext s).2, false) := fun e => ringEvent_ringNone e hr
    simp only [deliverEvents, ringEvent_ringNone _ hr, hfree]
    split
    · exact ⟨s.fns, rfl⟩
    · split
      · rename_i e rest _
        split
        · obtain ⟨x, hx⟩ := ih (setFn s f { fnOf s f with held := rest, stale := (fnOf s f).stale + 1 }) f (by rw [fnOf_setFn_same]; exact hr)
          exact ⟨x, hx⟩
        · exact ⟨s.fns, rfl⟩
      · split
        · exact ⟨s.fns, rfl⟩
        · exact ⟨s.fns, rfl⟩

theorem postFree_ringNone {s : State} {f : Nat} (value : W64) (hr : (fnOf s f).ring = none) :
    ∃ x y, postFree s f value = { s with fns := x, free := y } := by
  simp only [postFree, postEvent]
  split
  · exact ⟨_, _, rfl⟩
  · obtain ⟨x, hx⟩ := deliverEvents_ringNone 300 (setFn (freeNext s).2 f { fnOf s f with held := (fnOf s f).held ++ [
      { gen := (fnOf s f).gen, code := (freeNext s).1.setWidth 32, value := value, time := s.clock }] }) f (by simpa using hr)
    exact ⟨x, _, hx⟩

/-- Posting a set's event notes it for the set's tensors and in the launch. -/
theorem postSettle_spec {s : State} {id pset st : Nat} {l : Launch} (hl : tget s.launches id = some l) (hr : (fnOf s l.fn).ring = none) :
    tget (postSettle s id pset l.fn st).launches id = some { l with posted := pset :: l.posted } ∧
      (partOf (postSettle s id pset l.fn st) l.part).settles =
        (partOf s l.part).settles ++ (setEntries s l pset).map (fun e => (e.1, s.clock, st)) := by
  simp only [postSettle, hl]
  obtain ⟨x, y, h⟩ := postFree_ringNone (s := { setPart s l.part { partOf s l.part with
      settles := (partOf s l.part).settles ++ (setEntries s l pset).map (fun e => (e.1, s.clock, st)) } with
    launches := tmod s.launches id (fun l => { l with posted := pset :: l.posted }) }) (f := l.fn) (BitVec.ofNat 64 st) hr
  simp only [setPart_launches] at h ⊢
  rw [h]
  exact ⟨by simp [tget_tmod, hl], by simp [partOf]⟩

/-- SETTLE_EVENT of a set not posted yet, whose status is decided once the present state has been looked at. -/
theorem execSettleEvent_posts {s r : State} {id pset st : Nat} {l : Launch} {d : Tbl Nat} (hr : decideSet s id pset = r)
    (ho : OnlyDecides s r) (hl : tget r.launches id = some { l with decided := d }) (hst : tget d pset = some st) (hd : l.done = none)
    (hp : l.posted.contains pset = false) (hring : (fnOf s l.fn).ring = none) :
    ∃ t l', exec (.settleEvent id pset) s = .next t ∧ tget t.launches id = some l' ∧ l'.posted = pset :: l.posted ∧
      tget l'.decided pset = some st ∧
      (partOf t l.part).settles = (partOf s l.part).settles ++ (setEntries s l pset).map (fun e => (e.1, s.clock, st)) := by
  obtain ⟨⟨y, rfl⟩, _⟩ := ho
  have he : exec (.settleEvent id pset) s = execSettleEvent id pset s := rfl
  obtain ⟨h1, h2⟩ := postSettle_spec (pset := pset) (st := st) hl hring
  refine ⟨_, _, ?_, h1, rfl, hst, h2⟩
  rw [he]
  simp only [execSettleEvent, hr, hl, hd, hp, hst]
  rfl

/-- A set whose status has been decided is left as it is. -/
theorem decideSet_decided {s : State} {id pset st : Nat} {l : Launch} (hl : tget s.launches id = some l) (hst : tget l.decided pset = some st) :
    decideSet s id pset = s := by
  simp [decideSet, hl, thas, hst]

/-- A set with tensors that is settled, or unsettled, gets its status. -/
theorem decideSet_records {s : State} {id pset : Nat} {l : Launch} (hl : tget s.launches id = some l) (hd : l.done = none) (hp : pset ≠ 0)
    (hne : setEntries s l pset ≠ []) (hu : tget l.decided pset = none) :
    (settled s l pset = true → decideSet s id pset = recordSet s id pset 0) ∧
      (settled s l pset = false → unsettled s l pset = true → decideSet s id pset = recordSet s id pset 1) := by
  constructor
  · intro h
    simp [decideSet, hl, hd, hp, thas, hu, hne, h]
  · intro h h'
    simp [decideSet, hl, hd, hp, thas, hu, hne, h, h']

theorem tget_recordSet {s : State} {id : Nat} {l : Launch} (hl : tget s.launches id = some l) (pset st : Nat) :
    tget (recordSet s id pset st).launches id = some { l with decided := tput l.decided pset st } := by
  simp [recordSet, tget_tmod, hl]

/-! ### Affinities (R295) -/

/-- Moving cores changes only cores, and those only in their affinity, to a stage that has a share. -/
theorem moveCores_spec (id : Nat) (want cs : List Nat) : ∀ (s : State) (have' : List Nat),
    ∃ x, moveCores s id want cs have' = { s with cores := x } ∧
      ∀ c, coreOf { s with cores := x } c = coreOf s c ∨
        ∃ n < want.length, coreOf { s with cores := x } c = { coreOf s c with affinity := some (id, n) } := by
  induction cs with
  | nil => exact fun s _ => ⟨s.cores, rfl, fun c => .inl rfl⟩
  | cons k cs ih =>
    intro s have'
    simp only [moveCores]
    split
    · rename_i t _ ht
      obtain ⟨x, hx, hc⟩ := ih (setCore s k { coreOf s k with affinity := some (id, t) }) _
      refine ⟨x, hx, fun c => ?_⟩
      have hlt : t < want.length := List.mem_range.1 (List.mem_of_find?_eq_some ht)
      by_cases hck : c = k
      · subst hck
        rcases hc c with h | ⟨n, hn, h⟩
        · exact .inr ⟨t, hlt, h.trans (by simp [coreOf, setCore])⟩
        · exact .inr ⟨n, hn, h.trans (by simp [coreOf, setCore])⟩
      · rcases hc c with h | ⟨n, hn, h⟩
        · exact .inl (h.trans (by simp [coreOf, setCore, tgetD_tput_ne _ _ _ hck]))
        · exact .inr ⟨n, hn, h.trans (by simp [coreOf, setCore, tgetD_tput_ne _ _ _ hck])⟩
    · exact ih s have'

/-- The demands of a launch's stages. -/
def demands (s : State) (id : Nat) (l : Launch) : List Nat :=
  (l.stages.zip (List.range l.stages.length)).map (fun e => demand s id l e.2 e.1)

theorem demands_zero {s : State} {id : Nat} {l : Launch} (h : ∀ (n : Nat) (st : Stage), l.stages[n]? = some st → demand s id l n st = 0) :
    (demands s id l).all (fun d => d == 0) = true := by
  refine List.all_eq_true.2 fun d hd => ?_
  obtain ⟨e, he, rfl⟩ := List.mem_map.1 hd
  obtain ⟨i, hi⟩ := List.getElem?_of_mem he
  obtain ⟨h1, h2⟩ := List.getElem?_zip_eq_some.1 hi
  obtain ⟨_, h3⟩ := List.getElem?_eq_some_iff.1 h2
  rw [List.getElem_range] at h3
  simp [h e.2 e.1 (h3 ▸ h1)]

/-- The cores of a launch are moved towards the shares of its stages' demands. -/
def moveToShares (s : State) (id : Nat) (l : Launch) (ds : List Nat) : State :=
  moveCores s id (shares (launchCores s id l.part).length ds) (launchCores s id l.part)
    ((List.range l.stages.length).map (fun n => ((launchCores s id l.part).filter (fun c => (coreOf s c).affinity == some (id, n))).length))

theorem shares_length (c : Nat) (ds : List Nat) : (shares c ds).length = ds.length := by simp [shares]

/-- AFFINITY_REASSIGN of a launch whose time has come. -/
theorem execAffinityReassign_due {s r : State} {id : Nat} {l : Launch} (hl : tget s.launches id = some l) (hd : l.done = none)
    (h2 : 2 ≤ l.stages.length) (ht : l.affAt + 4096 ≤ s.clock)
    (hr : r = { s with launches := tput s.launches id { l with affAt := s.clock } }) :
    exec (.affinityReassign id) s = .next (if (demands s id l).all (fun d => d == 0) then r else moveToShares r id l (demands s id l)) := by
  have hx : exec (.affinityReassign id) s = execAffinityReassign id s := rfl
  rw [hx, hr]
  simp only [execAffinityReassign, hl]
  rw [if_neg (by simpa [hd] using ⟨h2, ht⟩)]
  rfl

theorem execAffinityReassign_spec {s : State} {id : Nat} {l : Launch} (hl : tget s.launches id = some l) (hd : l.done = none)
    (h2 : 2 ≤ l.stages.length) (ht : l.affAt + 4096 ≤ s.clock) :
    ∃ t, exec (.affinityReassign id) s = .next t ∧ tget t.launches id = some { l with affAt := s.clock } ∧ t.blocks = s.blocks ∧
      ((∀ (n : Nat) (st : Stage), l.stages[n]? = some st → demand s id l n st = 0) → t.cores = s.cores) ∧
      ∀ c, coreOf t c = coreOf s c ∨ ∃ n < l.stages.length, coreOf t c = { coreOf s c with affinity := some (id, n) } := by
  rw [execAffinityReassign_due hl hd h2 ht rfl]
  by_cases hz : (demands s id l).all (fun d => d == 0) = true
  · rw [if_pos hz]
    exact ⟨_, rfl, tget_tput_same _ _ _, rfl, fun _ => rfl, fun c => .inl rfl⟩
  · rw [if_neg hz, moveToShares]
    obtain ⟨x, hx, hc⟩ := moveCores_spec id _ _ _ _
    rw [hx]
    rw [shares_length, demands, List.length_map, List.length_zip, List.length_range, Nat.min_self] at hc
    exact ⟨_, rfl, tget_tput_same _ _ _, rfl, fun h => absurd (demands_zero h) hz, hc⟩

/-- Settles O55: each event by the lemma about it. -/
theorem schedulingResults : Obligations.SchedulingResults := by
  unfold Obligations.SchedulingResults
  refine ⟨?_, ?_, ?_, ?_, fun s id l => execAffinityReassign_spec⟩
  · intro s s1 part l n uid p c rest la b
    exact execBlockPlacement_fresh
  · intro s part u w c b
    exact execIdleBlockPreempt_spec
  · intro s id n l st hl hd hs hm hp
    exact ⟨execStageRetire_more hl hd hs hm hp, execStageRetire_last hl hd hs hm hp⟩
  · intro s id pset l hl hd hp hposted hne hring
    refine ⟨fun st hst => ?_, fun hu => ?_⟩
    · exact execSettleEvent_posts (decideSet_decided hl hst) (.refl s) hl hst hd hposted hring
    · obtain ⟨h0, h1⟩ := decideSet_records hl hd hp hne hu
      exact ⟨fun h => execSettleEvent_posts (h0 h) (onlyDecides_recordSet ..) (tget_recordSet hl ..) (tget_tput_same ..) hd hposted hring,
        fun h h' => execSettleEvent_posts (h1 h h') (onlyDecides_recordSet ..) (tget_recordSet hl ..) (tget_tput_same ..) hd hposted hring⟩

end Sys2Proof.Machine
end

section
/-! PROOFS. The life of a block (R31, R62, R85, R190, R191, R293, R344 to R349, R354): completing operations, commits, completion, time slices,
the save and the restore. -/
namespace Sys2Proof.Machine
open Sys2Proof

/-! ### An operation finishes (R31) -/

theorem mem_of_tget {α : Type} {t : Tbl α} {n : Nat} {a : α} (h : tget t n = some a) : (n, a) ∈ t := by
  induction t with
  | nil => cases h
  | cons e t ih =>
    obtain ⟨k, b⟩ := e
    simp only [tget] at h
    split at h
    · rename_i hk
      cases h
      exact hk ▸ List.mem_cons_self ..
    · exact List.mem_cons_of_mem _ (ih h)

/-- A handle bound to the operation reads COMPLETE afterwards. -/
theorem tget_completeH {g : Group} {id n : Nat} (st : W16) (bm : Lanes) (pg : List Nat) (h : tget g.h n = some (.pending id)) :
    tget (completeH g id st bm pg).h n = some (.complete st bm pg) := by
  have hm : ∀ t : Tbl HVal, tget t n = some (.pending id) →
      tget (t.map (fun e => if e.2 = .pending id then (e.1, HVal.complete st bm pg) else e)) n = some (.complete st bm pg) := by
    intro t
    induction t with
    | nil => intro h; cases h
    | cons e t ih =>
      obtain ⟨k, x⟩ := e
      intro h
      simp only [tget] at h
      by_cases hk : k = n
      · rw [if_pos hk] at h
        cases h
        simp [tget, hk]
      · rw [if_neg hk] at h
        rw [List.map_cons, tget]
        split <;> simp [ih h]
  exact hm g.h h

theorem logResult_groups (b : Block) (o : Op) (st : W16) (val : W64) (fl : BitVec 6) (bytes : List W8) :
    logResult b o st val fl bytes = { b with log := (logResult b o st val fl bytes).log } := by
  unfold logResult
  split <;> rfl

/-- Finishing an operation takes it from the outstanding ones, and leaves only its own block changed, in its groups and its log. -/
theorem finishOp_blocks {s : State} {id : Nat} {o : Op} (ho : tget s.ops id = some o) (st : W16) :
    (finishOp s id st).ops = tdel s.ops id ∧ (finishOp s id st).parts = s.parts ∧
      (∀ x, x ≠ o.blk → tget (finishOp s id st).blocks x = tget s.blocks x) ∧
      ∀ b, tget s.blocks o.blk = some b → ∃ gs l, tget (finishOp s id st).blocks o.blk = some { b with groups := gs, log := l } ∧
        ∀ g, b.groups[o.gid]? = some g → gs[o.gid]? = some (completeH g id st 0 []) := by
  simp only [finishOp, ho]
  split
  · exact ⟨rfl, rfl, fun _ _ => rfl, fun b hb => absurd hb (by simp_all [delOp])⟩
  · rename_i c hc
    rw [logResult_groups]
    split
    · rename_i hg
      refine ⟨rfl, rfl, fun x hx => tget_tput_ne _ _ hx, fun b hb => ?_⟩
      obtain rfl : c = b := Option.some.inj (hc.symm.trans hb)
      exact ⟨c.groups, _, tget_tput_same _ _ _, fun g h => absurd h (by simp_all)⟩
    · rename_i g hg
      refine ⟨rfl, rfl, fun x hx => tget_tput_ne _ _ hx, fun b hb => ?_⟩
      obtain rfl : c = b := Option.some.inj (hc.symm.trans hb)
      refine ⟨_, _, tget_tput_same _ _ _, fun g' h => ?_⟩
      obtain rfl : g = g' := Option.some.inj (hg.symm.trans h)
      exact getElem?_listSet_same _ _ _ (List.getElem?_eq_some_iff.1 h).1

theorem finishes_finishOp (s : State) (id : Nat) (o : Op) (ho : tget s.ops id = some o) (st : W16) : Finishes s (finishOp s id st) id st := by
  obtain ⟨hops, _, _, hb⟩ := finishOp_blocks ho st
  refine ⟨by rw [hops, tget_tdel_same], fun o' b g n ho' hblk hg hn => ?_⟩
  obtain rfl : o = o' := Option.some.inj (ho.symm.trans ho')
  obtain ⟨gs, l, ht, hgs⟩ := hb b hblk
  exact ⟨_, _, 0, [], ht, hgs g hg, tget_completeH st 0 [] hn⟩

/-- A change of one group that keeps its handles keeps those of every group. -/
theorem modGroup_handles {f : Group → Group} (hf : ∀ g, (f g).h = g.h) (s : State) (u k : Nat) :
    (modGroup s u k f).ops = s.ops ∧ ∀ (x : Nat) (b : Block) (i : Nat) (g : Group), tget s.blocks x = some b → b.groups[i]? = some g →
      ∃ (b' : Block) (g' : Group), tget (modGroup s u k f).blocks x = some b' ∧ b'.groups[i]? = some g' ∧ g'.h = g.h := by
  have same : ∀ (x : Nat) (b : Block) (i : Nat) (g : Group), tget s.blocks x = some b → b.groups[i]? = some g →
      ∃ (b' : Block) (g' : Group), tget s.blocks x = some b' ∧ b'.groups[i]? = some g' ∧ g'.h = g.h := fun x b i g hb hg => ⟨b, g, hb, hg, rfl⟩
  unfold modGroup
  split
  · exact ⟨rfl, same⟩
  · rename_i c hc
    split
    · exact ⟨rfl, same⟩
    · rename_i y hy
      refine ⟨rfl, fun x b i g hb hg => ?_⟩
      by_cases hx : x = u
      · subst hx
        obtain rfl : c = b := Option.some.inj (hc.symm.trans hb)
        by_cases hi : i = k
        · subst hi
          obtain rfl : y = g := Option.some.inj (hy.symm.trans hg)
          exact ⟨_, _, tget_tput_same _ _ _, getElem?_listSet_same _ _ _ (List.getElem?_eq_some_iff.1 hy).1, hf y⟩
        · exact ⟨_, g, tget_tput_same _ _ _, (getElem?_listSet_ne _ _ _ _ hi).trans hg, rfl⟩
      · exact ⟨b, g, (tget_tput_ne _ _ hx).trans hb, hg, rfl⟩

/-- Noting an acquire of a HALTB's handle leaves what has finished finished. -/
theorem finishes_joinHalted {s t : State} {id : Nat} {st : W16} (h : Finishes s t id st) (blk : Nat) (o : Op) :
    Finishes s (joinHalted t blk o) id st := by
  obtain ⟨hops, hh⟩ := modGroup_handles (f := fun g => { g with acq := (64 * 64 + o.h.toNat) :: g.acq }) (fun _ => rfl) t o.blk o.gid
  have hm : Finishes s (modGroup t o.blk o.gid (fun g => { g with acq := (64 * 64 + o.h.toNat) :: g.acq })) id st := by
    refine ⟨hops ▸ h.gone, fun o' b g n ho hb hg hn => ?_⟩
    obtain ⟨b', g', bm, pg, hb', hg', hn'⟩ := h.handles o' b g n ho hb hg hn
    obtain ⟨b'', g'', hb'', hg'', he⟩ := hh _ _ _ _ hb' hg'
    exact ⟨b'', g'', bm, pg, hb'', hg'', he ▸ hn'⟩
  simp only [joinHalted]
  split
  · split
    · exact hm
    · exact h
  · exact h

/-- The awaited thing has come: the operation finishes. -/
theorem settleOp_finishes {s : State} {id : Nat} {o : Op} (ho : tget s.ops id = some o) :
    (∀ st, o.body = .ready st → Finishes s (settleOp s id o) id st) ∧ (o.body = .tlbinv → Finishes s (settleOp s id o) id 0) ∧
      (∀ l, o.body = .icinv l → icLeft s l = [] → Finishes s (settleOp s id o) id 0) ∧
      (∀ b, o.body = .haltb b → opsOf s b = [] → Finishes s (settleOp s id o) id 0) ∧
      (∀ l, o.body = .pages l → l.any (pageDead s (partOfBlk s o.blk)) = false → pagesLeft s (partOfBlk s o.blk) l = some [] →
        Finishes s (settleOp s id o) id 0) := by
  have hf := finishes_finishOp s id o ho
  refine ⟨fun st hb => ?_, fun hb => ?_, fun l hb hl => ?_, fun b hb hl => ?_, fun l hb hd hl => ?_⟩
  · rw [settleOp, hb]
    exact hf st
  · rw [settleOp, hb]
    exact hf 0
  · simp only [settleOp, hb, hl]
    exact hf 0
  · simp only [settleOp, hb, hl, List.isEmpty_nil, if_true]
    exact finishes_joinHalted (hf 0) b o
  · simp only [settleOp, hb, hd, hl]
    exact hf 0

theorem execAsyncComplete_resident {s : State} {id : Nat} {o : Op} (ho : tget s.ops id = some o) (hs : opSaved s o = false) :
    exec (.asyncComplete id) s = .next (settleOp s id o) := by
  have hx : exec (.asyncComplete id) s = execAsyncComplete id s := rfl
  simp [hx, execAsyncComplete, ho, hs]

theorem execSavedHandleUpdate_saved {s : State} {id : Nat} {o : Op} (ho : tget s.ops id = some o) (hs : opSaved s o = true) :
    exec (.savedHandleUpdate id) s = .next (settleOp s id o) := by
  have hx : exec (.savedHandleUpdate id) s = execSavedHandleUpdate id s := rfl
  simp [hx, execSavedHandleUpdate, ho, hs]

/-! ### A block's provisional bytes become committed (R187, R190) -/

/-- From the one state to the other, blocks, operations and partitions stay as they are. -/
structure KeepsWork (s t : State) : Prop where
  blocks : t.blocks = s.blocks
  ops    : t.ops = s.ops
  parts  : t.parts = s.parts

theorem KeepsWork.refl (s : State) : KeepsWork s s := ⟨rfl, rfl, rfl⟩

theorem KeepsWork.trans {s t r : State} (h : KeepsWork s t) (h' : KeepsWork t r) : KeepsWork s r :=
  ⟨h'.blocks.trans h.blocks, h'.ops.trans h.ops, h'.parts.trans h.parts⟩

theorem KeepsWork.foldl {α : Type} {f : State → α → State} (hf : ∀ s a, KeepsWork s (f s a)) (xs : List α) (s : State) :
    KeepsWork s (xs.foldl f s) := by
  induction xs generalizing s with
  | nil => exact .refl s
  | cons a xs ih => exact (hf s a).trans (ih (f s a))

theorem keepsWork_commitWord (s : State) (uid part word : Nat) (bs : Tbl W8) : KeepsWork s (commitWord s uid part word bs) := by
  unfold commitWord
  split
  · exact .refl s
  · simp only
    obtain ⟨cs, h⟩ := watchWrite_eq _ _ _ _ _ _ _ _
    rw [h]
    exact ⟨rfl, rfl, rfl⟩

theorem keepsWork_cellarBack (s : State) (part addr frame : Nat) (sec : List W8 × W32) : KeepsWork s (cellarBack s part addr frame sec) := by
  unfold cellarBack
  split
  · exact .refl s
  · obtain ⟨fs, n, h⟩ := sendSectors_eq s .request part _ (cellarStop s frame) false .cellar [sec]
    rw [h]
    exact ⟨rfl, rfl, rfl⟩

theorem keepsWork_writeBack (s : State) (id : Nat) : KeepsWork s (writeBack s id) := by
  unfold writeBack
  split
  · exact .refl s
  · rename_i pg _
    obtain ⟨h1, h2, h3⟩ := KeepsWork.foldl (fun r ln => keepsWork_cellarBack r pg.part (pg.vpn * 65536 + 128 * ln) (pg.leaf.frame + 128 * ln)
      (bgets pg.data (128 * ln) 128, sectorWord pg ln)) pg.dirty s
    exact ⟨h1, h2, h3⟩

theorem keepsWork_releasePool (s : State) (part : Nat) : KeepsWork s (releasePool s part) := by
  refine .foldl (fun r e => ?_) _ s
  split
  · exact keepsWork_writeBack r e.1
  · exact .refl r

theorem keepsWork_acquirePool (s : State) (part : Nat) : KeepsWork s (acquirePool s part) := by
  refine .foldl (fun r e => ?_) _ s
  split
  · split
    · obtain ⟨h1, h2, h3⟩ := keepsWork_writeBack r e.1
      exact ⟨h1, h2, h3⟩
    · exact ⟨rfl, rfl, rfl⟩
  · exact .refl r

/-- Making a block's provisional bytes visible changes of the blocks only that one's provisional bytes. -/
theorem commitProv_keeps {s : State} {uid : Nat} {b : Block} (hb : tget s.blocks uid = some b) (sc : Scope) :
    KeepsWork (setBlk s uid { b with prov := [], pwords := [] }) (commitProv s uid sc) := by
  simp only [commitProv, hb]
  have hw := KeepsWork.foldl (fun r w => keepsWork_commitWord r uid b.part w (b.prov.filter (fun e => decide (w ≤ e.1) && decide (e.1 < w + 8))))
    (b.prov.foldl (fun l e => nput l (8 * (e.1 / 8))) []) (clearLost (setBlk s uid { b with prov := [], pwords := [] }) b.part (provCovers b))
  have hc : KeepsWork (setBlk s uid { b with prov := [], pwords := [] })
      (clearLost (setBlk s uid { b with prov := [], pwords := [] }) b.part (provCovers b)) := ⟨rfl, rfl, rfl⟩
  split
  · exact (hc.trans hw).trans (keepsWork_releasePool _ _)
  · exact hc.trans hw

end Sys2Proof.Machine
end

section
/-! PROOFS. The events of a block's life: a commit takes effect, a block completes, a time slice ends, a group stops, a block is saved and returns
(R85, R190, R191, R293, R344 to R349, R354). -/
namespace Sys2Proof.Machine
open Sys2Proof

/-! ### A commit takes effect (R190, R191) -/

/-- A group that has arrived at a commit goes on two words further with its registers. -/
theorem pastCommit_spec {g : Group} {sc : Scope} {m : W64} (h : g.arrival = .commit sc m) :
    (pastCommit g).offset = g.offset + 2 ∧ (pastCommit g).run = .issuing ∧ (pastCommit g).arrival = .none ∧ SameRegisters (pastCommit g) g := by
  rw [pastCommit, arrivalOf, h]
  exact ⟨rfl, rfl, rfl, rfl, rfl, rfl, rfl, rfl, rfl⟩

/-- A block past its commit. -/
def committedBlock (b : Block) : Block :=
  { b with groups := b.groups.map pastCommit, commits := b.commits + 1, prov := [], pwords := [], log := [], partners := [], refires := 0 }

/-- The mask word of a group's arrival. -/
def arrivalMask (g : Group) : W64 :=
  match arrivalOf g with
  | some (_, m) => m
  | none => 0

/-- A block past its commit with the record that it keeps (R191), every acquire observed. -/
def pastCommitBlock (b : Block) : Block :=
  { committedBlock b with record := some (makeRecord (committedBlock b) (b.groups.map arrivalMask)),
                          groups := (b.groups.map pastCommit).map (fun g => { g with acq := [] }) }

theorem pastCommitBlock_group {b : Block} {k : Nat} {g : Group} {sc : Scope} {m : W64} (hg : b.groups[k]? = some g)
    (h : g.arrival = .commit sc m) : ∃ g', (pastCommitBlock b).groups[k]? = some g' ∧ g'.offset = g.offset + 2 ∧ g'.run = .issuing ∧
      g'.arrival = .none ∧ SameRegisters g' g := by
  obtain ⟨h1, h2, h3, h4⟩ := pastCommit_spec h
  exact ⟨{ pastCommit g with acq := [] }, by simp [pastCommitBlock, hg], h1, h2, h3, h4⟩

/-- COMMIT_TAKE_EFFECT where every group has arrived and no operation is outstanding. -/
theorem execCommitTakeEffect_block {s : State} {u : Nat} {b : Block} (hb : tget s.blocks u = some b) (hph : b.phase = .resident)
    (hf : b.fault = none) (he : b.ending = none) (ha : allArrived b = true) (ho : opsOf s u = []) :
    ∃ t, exec (.commitTakeEffect u) s = .next t ∧ tget t.blocks u = some (pastCommitBlock b) := by
  have hx : exec (.commitTakeEffect u) s = execCommitTakeEffect u s := rfl
  have hkeep := fun sc => (commitProv_keeps hb sc).blocks
  rw [hx]
  simp only [execCommitTakeEffect, hb]
  rw [if_pos ⟨hph, hf, he, ha, by simp [ho]⟩]
  simp only [hkeep, setBlk_blocks, tget_tput_same, Option.getD_some]
  refine ⟨_, rfl, ?_⟩
  rw [show ∀ (r : State) (c : Block) (x : Snapshot), (writeResume r u c x).blocks = r.blocks from fun _ _ _ => rfl]
  split
  · rw [(keepsWork_acquirePool _ _).blocks]
    exact tget_tput_same _ _ _
  · exact tget_tput_same _ _ _

/-! ### A block completes (R12, R85, R374) -/

theorem clearSlots_spec (s : State) (part u : Nat) : (clearSlots s part u).blocks = s.blocks ∧ (clearSlots s part u).ops = s.ops ∧
    pctl (clearSlots s part u) part 0x170 = pctl s part 0x170 := by
  have hfold : ∀ (ks : List Nat) (p : Part),
      ctl (ks.foldl (fun p k => { setCtl p (0x178 + k) 0 with holds := tdel p.holds k }) p) 0x170 = ctl p 0x170 := by
    intro ks
    induction ks with
    | nil => exact fun _ => rfl
    | cons k ks ih =>
      intro p
      rw [List.foldl_cons, ih]
      exact tgetD_tput_ne _ _ _ (by omega)
  refine ⟨rfl, rfl, ?_⟩
  simp only [clearSlots, pctl, partOf, setPart_parts, tgetD_tput_same]
  exact hfold _ _

/-- The parent's handle completes: of the blocks only another one may change, in its groups and its log. -/
theorem childDone_spec {s : State} {u : Nat} (st : W16) (ho : opsOf s u = []) :
    (childDone s u st).parts = s.parts ∧ tget (childDone s u st).blocks u = tget s.blocks u ∧
      ∀ x e, tget s.blocks x = some e → ∃ gs l, tget (childDone s u st).blocks x = some { e with groups := gs, log := l } := by
  have same : ∀ x e, tget s.blocks x = some e → ∃ gs l, tget s.blocks x = some { e with groups := gs, log := l } :=
    fun x e h => ⟨e.groups, e.log, h⟩
  simp only [childDone]
  split
  · rename_i e _
    cases hop : tget s.ops e.1 with
    | none =>
      rw [show finishOp s e.1 _ = s from by simp [finishOp, hop]]
      exact ⟨rfl, rfl, same⟩
    | some o =>
      have hne : u ≠ o.blk := by
        rintro rfl
        have hm : (e.1, o) ∈ opsOf s o.blk := List.mem_filter.2 ⟨mem_of_tget hop, beq_self_eq_true _⟩
        rw [ho] at hm
        cases hm
      obtain ⟨_, hp, hother, hown⟩ := finishOp_blocks hop (if st = 0 then 0 else 0x0013)
      refine ⟨hp, hother u hne, fun x b hb => ?_⟩
      by_cases hx : x = o.blk
      · subst hx
        obtain ⟨gs, l, h, _⟩ := hown b hb
        exact ⟨gs, l, h⟩
      · obtain ⟨gs, l, h⟩ := same x b hb
        exact ⟨gs, l, (hother x hx).trans h⟩
  · exact ⟨rfl, rfl, same⟩

/-- Reporting a complete block without block records: it is marked, where its turn has come. -/
theorem reportBlock_spec {s : State} {u : Nat} {b : Block} (hb : tget s.blocks u = some b) (hr : b.reported = false)
    (hc : (pctl s b.part 0x170).getLsbD 7 = false) :
    ∃ rep x, tget (reportBlock s u).blocks u = some { b with reported := rep, report := x } ∧ (reportTurn s u b = false → rep = false) := by
  have hw : writeRecord s b.part b.report = (s, true) := by
    simp only [writeRecord, hc, Bool.false_and]
    rfl
  simp only [reportBlock, hb]
  split
  · rename_i h
    rw [hw]
    exact ⟨true, [], by simp [tget_tmod, hb], fun hn => absurd h.2.2 (by simp [hn])⟩
  · exact ⟨false, b.report, by rw [← hr]; exact hb, fun _ => rfl⟩

/-- An earlier resident block of the launch that is not reported keeps the block from its turn. -/
theorem reportTurn_false {s : State} {u x : Nat} {b e : Block} (hk : b.kind = .launched) (hx : x ≠ u) (he : tget s.blocks x = some e)
    (hl : e.launch = b.launch) (hek : e.kind = .launched) (hp : e.phase = .resident) (hr : e.reported = false)
    (hq : e.seqno.toNat < b.seqno.toNat) : reportTurn s u b = false := by
  have hm := mem_of_tget he
  have hall : s.blocks.all (fun e => e.1 == u || e.2.launch != b.launch || e.2.kind != .launched || e.2.reported ||
      (e.2.phase == .waiting && e.2.first.isNone) || decide (b.seqno.toNat < e.2.seqno.toNat)) = false :=
    List.all_eq_false.2 ⟨_, hm, by simp [hx, hl, hek, hp, hr]; omega⟩
  simp [reportTurn, hk, hall]

/-- A block that no subscription fired is followed by none. -/
theorem followUp_noSub (s : State) {b : Block} (h : b.sub = none) : followUp s b = s := by simp [followUp, h]

/-- The block's trunk records and hold slots go. -/
def leaveCore (s : State) (u : Nat) (b : Block) : State := clearSlots (dropTrunk (dropTrunk s u false) u true) b.part u

/-- What stays of a complete block. -/
def doneBlock (s : State) (b : Block) (st : W16) : Block :=
  { b with phase := .complete, place := none, status := st, groups := [], scratch := [], tags := [], slots := [], bars := [], prov := [], pwords := [],
           log := [], record := none, fault := none, queued := false, ending := none, report := blockRecord s b st, reported := false, tokens := [] }

/-- An error of a launched block is its launch's. -/
def markError (s : State) (b : Block) (st : W16) : State :=
  if b.kind = .launched && errorStatus st then { s with launches := tmod s.launches b.launch (fun l => { l with error := true }) } else s

/-- The state in which a complete block asks to be reported. -/
def unreported (s : State) (u : Nat) (b : Block) (st : W16) : State :=
  childDone (unqueue (setBlk (leaveCore s u b) u (doneBlock (leaveCore s u b) b st)) u) u st

theorem completeBlock_eq {s : State} {u : Nat} {b : Block} (st : W16) (hb : tget s.blocks u = some b) (hsub : b.sub = none) :
    ∃ x, completeBlock s u st = reportBlock { unreported s u b st with launches := x } u := by
  obtain ⟨⟨x, hx⟩, _⟩ := onlyDecides_decideSets (markError (unreported s u b st) b st) b.part
  have hm : ∃ y, markError (unreported s u b st) b st = { unreported s u b st with launches := y } := by
    unfold markError
    split
    · exact ⟨_, rfl⟩
    · exact ⟨_, rfl⟩
  obtain ⟨y, hy⟩ := hm
  refine ⟨x, ?_⟩
  simp only [completeBlock, hb, followUp_noSub _ hsub]
  refine (congrArg (reportBlock · u) hx).trans ?_
  rw [hy]

/-- Before a complete block is reported, the other blocks stand as before but for groups and logs. -/
theorem unreported_spec {s : State} {u : Nat} (b : Block) (st : W16) (ho : opsOf s u = []) :
    tget (unreported s u b st).blocks u = some (doneBlock (leaveCore s u b) b st) ∧
      pctl (unreported s u b st) b.part 0x170 = pctl s b.part 0x170 ∧
      ∀ x e, x ≠ u → tget s.blocks x = some e → ∃ gs l, tget (unreported s u b st).blocks x = some { e with groups := gs, log := l } := by
  obtain ⟨_, _, hc⟩ := clearSlots_spec (dropTrunk (dropTrunk s u false) u true) b.part u
  obtain ⟨hp, hu, hx⟩ := childDone_spec (s := unqueue (setBlk (leaveCore s u b) u (doneBlock (leaveCore s u b) b st)) u) st ho
  refine ⟨hu.trans (tget_tput_same _ _ _), ?_, fun x e hne he => hx x e ((tget_tput_ne _ _ hne).trans he)⟩
  refine Eq.trans ?_ hc
  simp only [pctl, partOf, unreported, hp]
  rfl

/-- A block completes: it leaves its place, keeps nothing, and is not reported before the earlier blocks of its launch. -/
theorem completeBlock_spec {s : State} {u : Nat} {b : Block} (st : W16) (hb : tget s.blocks u = some b) (ho : opsOf s u = [])
    (hsub : b.sub = none) (hc : (pctl s b.part 0x170).getLsbD 7 = false) :
    ∃ b', tget (completeBlock s u st).blocks u = some b' ∧ b'.phase = .complete ∧ b'.place = none ∧ b'.status = st ∧ b'.groups = [] ∧
      b'.prov = [] ∧ (b.kind = .launched → ∀ x e, x ≠ u → tget s.blocks x = some e → e.launch = b.launch → e.kind = .launched →
        e.phase = .resident → e.reported = false → e.seqno.toNat < b.seqno.toNat → b'.reported = false) := by
  obtain ⟨hown, hpc, hother⟩ := unreported_spec b st ho
  obtain ⟨x, hx⟩ := completeBlock_eq st hb hsub
  have hpc' : (pctl { unreported s u b st with launches := x } b.part 0x170).getLsbD 7 = false := by
    rw [← hc, ← hpc]
    rfl
  obtain ⟨rep, y, hrep, hturn⟩ := reportBlock_spec (s := { unreported s u b st with launches := x }) hown rfl hpc'
  rw [hx]
  refine ⟨_, hrep, rfl, rfl, rfl, rfl, rfl, fun hk z e hz he hl hek hph hr hq => hturn ?_⟩
  obtain ⟨gs, l, h⟩ := hother z e hz he
  exact reportTurn_false (e := { e with groups := gs, log := l }) hk hz h hl hek hph hr hq

/-- FINAL_COMMIT of a block all of whose groups have ended. -/
theorem execFinalCommit_spec {s : State} {u : Nat} {b : Block} (hb : tget s.blocks u = some b) (hph : b.phase = .resident)
    (hk : b.kind ≠ .handler) (hf : b.fault = none) (ho : opsOf s u = []) (hsub : b.sub = none)
    (hc : (pctl s b.part 0x170).getLsbD 7 = false) (hg : ∀ g ∈ b.groups, g.run = .ended ∧ g.bubbles = 0 ∧ g.issued = false) :
    ∃ t b', exec (.finalCommit u) s = .next t ∧ tget t.blocks u = some b' ∧ b'.phase = .complete ∧ b'.place = none ∧
      b'.status = b.ending.getD 0 ∧ b'.groups = [] ∧ b'.prov = [] ∧
      (b.kind = .launched → ∀ x e, x ≠ u → tget s.blocks x = some e → e.launch = b.launch → e.kind = .launched → e.phase = .resident →
        e.reported = false → e.seqno.toNat < b.seqno.toNat → b'.reported = false) := by
  have hx : exec (.finalCommit u) s = execFinalCommit u s := rfl
  have hall : b.groups.all (fun g => g.run == .ended && (b.ending.isSome || (g.bubbles == 0 && !g.issued))) = true :=
    List.all_eq_true.2 fun g hm => by
      obtain ⟨h1, h2, h3⟩ := hg g hm
      simp [h1, h2, h3]
  rw [hx]
  simp only [execFinalCommit, hb]
  rw [if_pos ⟨hk, .inl hph, hall, by simp [ho], hf⟩]
  cases hend : b.ending with
  | some st => exact ⟨_, _, rfl, (completeBlock_spec st hb ho hsub hc).choose_spec⟩
  | none =>
    obtain ⟨hkb, hko, hkp⟩ := commitProv_keeps hb (finalScope s b)
    have hown : tget (commitProv s u (finalScope s b)).blocks u = some { b with prov := [], pwords := [] } := by
      rw [hkb]
      exact tget_tput_same _ _ _
    have ho' : opsOf (setBlk (commitProv s u (finalScope s b)) u { b with prov := [], pwords := [], commits := b.commits + 1 }) u = [] := by
      rw [← ho]
      exact congrArg (List.filter _) hko
    have hc' : (pctl (setBlk (commitProv s u (finalScope s b)) u { b with prov := [], pwords := [], commits := b.commits + 1 })
        b.part 0x170).getLsbD 7 = false := by
      rw [← hc]
      simp only [pctl, partOf, setBlk_parts, hkp]
    obtain ⟨b', h1, h2, h3, h4, h5, h6, h7⟩ :=
      completeBlock_spec (b := { b with prov := [], pwords := [], commits := b.commits + 1 }) 0 (tget_tput_same _ _ _) ho' hsub hc'
    refine ⟨_, b', rfl, ?_, h2, h3, h4, h5, h6, fun hl x e hne he => h7 hl x e hne ?_⟩
    · simp only [hown]
      exact h1
    · rw [setBlk_blocks, tget_tput_ne _ _ hne, hkb]
      exact (tget_tput_ne _ _ hne).trans he

/-! ### A slice ends (R349) -/

/-- Changing an entry of a table keeps every entry, as it was or changed. -/
theorem mem_tmod {α : Type} {t : Tbl α} {e : Nat × α} (n : Nat) (f : α → α) (h : e ∈ t) : e ∈ tmod t n f ∨ (e.1, f e.2) ∈ tmod t n f := by
  have hput : ∀ (t : Tbl α) (a : α), tget t n = some a → ∀ e ∈ t, e ∈ tput t n (f a) ∨ (e.1, f e.2) ∈ tput t n (f a) := by
    intro t a
    induction t with
    | nil => intro h; cases h
    | cons x t ih =>
      obtain ⟨k, b⟩ := x
      intro ha e he
      simp only [tget] at ha
      simp only [tput]
      split
      · exact .inl (List.mem_cons_of_mem _ he)
      · split
        · rename_i hk
          subst hk
          simp only [if_true, Option.some.injEq] at ha
          subst ha
          rcases List.mem_cons.1 he with rfl | he
          · exact .inr (List.mem_cons_self ..)
          · exact .inl (List.mem_cons_of_mem _ he)
        · rename_i hk
          rw [if_neg (fun h => hk h.symm)] at ha
          rcases List.mem_cons.1 he with rfl | he
          · exact .inl (List.mem_cons_self ..)
          · exact (ih ha e he).imp (List.mem_cons_of_mem _) (List.mem_cons_of_mem _)
  unfold tmod
  split
  · exact hput t _ ‹_› e h
  · exact .inl h

/-- Asking for a place moves no block away. -/
theorem residentOf_askBlocks (part f : Nat) (us : List Nat) : ∀ s : State, residentOf s part f ≠ [] → residentOf (askBlocks s us) part f ≠ [] := by
  induction us with
  | nil => exact fun s h => h
  | cons u us ih =>
    intro s h
    refine ih { s with blocks := tmod s.blocks u (fun b => { b with preempt := true }) } ?_
    obtain ⟨x, hx⟩ := List.exists_mem_of_ne_nil _ h
    obtain ⟨e, he, -⟩ := List.mem_map.1 hx
    obtain ⟨hm, hp⟩ := List.mem_filter.1 he
    refine List.ne_nil_of_mem (a := e.1) ?_
    rcases mem_tmod u (fun b : Block => { b with preempt := true }) hm with h | h
    · exact List.mem_map.2 ⟨e, List.mem_filter.2 ⟨h, hp⟩, rfl⟩
    · exact List.mem_map.2 ⟨_, List.mem_filter.2 ⟨h, hp⟩, rfl⟩

theorem askBlocks_parts (us : List Nat) : ∀ s : State, (askBlocks s us).parts = s.parts := by
  induction us with
  | nil => exact fun s => rfl
  | cons v us ih => exact fun s => ih { s with blocks := tmod s.blocks v (fun b => { b with preempt := true }) }

/-- A context that drains still while a block of it is resident. -/
theorem endDrain_resident {s : State} {part t : Nat} (hd : (partOf s part).drain = some t) (h : residentOf s part (partOf s part).ctx ≠ []) :
    endDrain s part = s := by
  simp [endDrain, hd, h]

/-- The slice of the context in turn is over: from this clock on it drains, and its resident blocks are asked for their places. -/
def startDrain (s : State) (part : Nat) : State :=
  askBlocks (setPart s part { partOf s part with drain := some s.clock }) (residentOf s part (partOf s part).ctx)

theorem partOf_startDrain (s : State) (part : Nat) : partOf (startDrain s part) part = { partOf s part with drain := some s.clock } := by
  simp only [partOf, startDrain, askBlocks_parts, setPart_parts, tgetD_tput_same]

/-- While a block of the context is resident, the drain that has just begun is not over. -/
theorem endDrain_startDrain {s : State} {part : Nat} (h : residentOf s part (partOf s part).ctx ≠ []) :
    endDrain (startDrain s part) part = startDrain s part := by
  refine endDrain_resident (t := s.clock) (by rw [partOf_startDrain]) ?_
  rw [partOf_startDrain]
  exact residentOf_askBlocks _ _ _ _ h

/-- SLICE_END of the context in turn asks its resident blocks for their places. -/
theorem execSliceEnd_spec {s : State} {f part : Nat} (hp : (fnOf s f).part = some part) (hs : pctl s part 0x115 ≠ 0)
    (hl : (partOf s part).sliceLen ≠ 0) (hc : (partOf s part).ctx = f) (hd : (partOf s part).drain = none)
    (ht : (partOf s part).sliceAt + (partOf s part).sliceLen ≤ s.clock) (hr : residentOf s part f ≠ []) :
    ∃ t, exec (.sliceEnd f) s = .next t ∧ (partOf t part).drain = some s.clock ∧
      ∀ u ∈ residentOf s part f, ∃ b, tget t.blocks u = some b ∧ b.preempt = true := by
  subst hc
  have hx : exec (.sliceEnd (partOf s part).ctx) s = execSliceEnd (partOf s part).ctx s := rfl
  have hne : ¬ (pctl s part 0x115).toNat = 0 := fun h => hs (BitVec.eq_of_toNat_eq h)
  refine ⟨startDrain s part, ?_, by rw [partOf_startDrain], fun u hu => ?_⟩
  · rw [hx]
    simp only [execSliceEnd, hp, hd]
    rw [if_neg hne, if_neg hl, if_neg (fun h => h rfl), if_pos ht]
    exact congrArg Host.Outcome.next (endDrain_startDrain hr)
  · obtain ⟨b, hb⟩ := tget_of_residentOf hu
    exact ⟨_, by rw [startDrain, tget_askBlocks, setPart_blocks, hb, Option.map_some, if_pos hu], rfl⟩

/-! ### A group stops (R344) -/

theorem execPreemptStop_spec {s : State} {u k : Nat} {v : View} (hv : viewAt s u k = some v) (hp : v.b.preempt = true)
    (hph : v.b.phase = .resident) (hf : v.b.fault = none) (hs : v.g.stopped = false) (he : v.g.run ≠ .ended) (hpk : v.g.run ≠ .parked)
    (hm : (saveMask v.g).isSome = true) :
    exec (.preemptStop u k) s = .next (flush { v with g := { v.g with stopped := true, xreq := none } }) := by
  have hx : exec (.preemptStop u k) s = execPreemptStop u k s := rfl
  rw [hx]
  simp only [execPreemptStop, hv]
  rw [if_pos (by simp [hp, hph, hf, hs, he, hpk, hm])]

/-! ### A block is saved (R345, R346, R354) -/

/-- A group in the save of a block without a fault: what its mask keeps, and of its load queues the entries wholly read. -/
theorem saveGroup_spec {g : Group} {m : W64} (h : saveMask g = some m) :
    SameRegisters { saveGroup false g with q := (keepGroup g m).q } (keepGroup g m) ∧ (saveGroup false g).label = g.label ∧
      (saveGroup false g).offset = g.offset ∧
      (saveGroup false g).q = (keepGroup g m).q.map (fun e => (e.1, if e.2.load then dropUnread e.2 else e.2)) := by
  simp only [saveGroup, h]
  exact ⟨⟨rfl, rfl, rfl, rfl, rfl, rfl⟩, rfl, rfl, rfl⟩

/-- Where nothing drains, the drain does not end. -/
theorem endDrain_none {s : State} {part : Nat} (hd : (partOf s part).drain = none) : endDrain s part = s := by
  simp [endDrain, hd]

theorem trunkSlices_length {s : State} {part own len : Nat} {l : List Nat} (h : trunkSlices s part own len = some l) : l.length = 2 := by
  simp only [trunkSlices] at h
  split at h
  · cases h; assumption
  · cases h

/-- QUIESCE of a block that awaits no operation: saved, or running on where no two slices have room. -/
theorem execQuiesce_spec {s : State} {u : Nat} {b : Block} (hb : tget s.blocks u = some b) (hm : mayQuiesce s u b = true)
    (ha : ∀ e ∈ opsOf s u, awaited e.2.body = false) (hd : (partOf s b.part).drain = none) :
    let bytes := saveBytes s u (savedBlock s u b)
    ∃ t b', exec (.quiesce u) s = .next t ∧ tget t.blocks u = some b' ∧ b'.preempt = false ∧
      if trunkSlices s b.part (blkCore b) bytes.length = none then b'.phase = .resident ∧ b'.place = b.place
      else b'.phase = .saved ∧ b'.place = none ∧
        (∃ r, tget t.trunk (trunkKey u true) = some r ∧ r.bytes = bytes ∧ r.slices.length = 2 ∧
          trunkSlices s b.part (blkCore b) bytes.length = some r.slices) ∧
        (b.fault = none → ∀ (k : Nat) (g : Group) (m : W64), b.groups[k]? = some g → saveMask g = some m →
          ∃ g', b'.groups[k]? = some g' ∧ SameRegisters { g' with q := (keepGroup g m).q } (keepGroup g m) ∧ g'.label = g.label ∧
            g'.offset = g.offset ∧ g'.q = (keepGroup g m).q.map (fun e => (e.1, if e.2.load then dropUnread e.2 else e.2))) := by
  intro bytes
  have hx : exec (.quiesce u) s = execQuiesce u s := rfl
  have hany : (opsOf s u).any (fun e => awaited e.2.body) = false := List.any_eq_false.2 fun e he => by simp [ha e he]
  have hphase : b.phase = .resident := by
    simp only [mayQuiesce, Bool.and_eq_true, beq_iff_eq] at hm
    exact hm.1.1.1.2
  rw [hx]
  simp only [execQuiesce, hb, hm, hany, Bool.not_true, Bool.or_self]
  cases hsl : trunkSlices s b.part (blkCore b) bytes.length with
  | none =>
    refine ⟨runOn s u b, _, ?_, tget_tput_same _ _ _, by rw [hd]; rfl, ?_⟩
    · rfl
    · rw [if_pos rfl]
      exact ⟨hphase, rfl⟩
  | some slices =>
    have hdr : (∃ x, tget (saveBlock s u b slices bytes).blocks u = some { savedBlock s u b with tokens := x }) ∧
        tget (saveBlock s u b slices bytes).trunk (trunkKey u true) =
          some { part := b.part, uid := u, save := true, slices := slices, bytes := bytes, bad := [] } := by
      simp only [saveBlock]
      rw [endDrain_none (by exact hd)]
      exact ⟨⟨_, tget_tput_same _ _ _⟩, tget_tput_same _ _ _⟩
    obtain ⟨⟨x, hown⟩, htrunk⟩ := hdr
    refine ⟨saveBlock s u b slices bytes, _, ?_, hown, rfl, ?_⟩
    · rfl
    · rw [if_neg (by simp)]
      refine ⟨rfl, rfl, ⟨_, htrunk, rfl, trunkSlices_length hsl, rfl⟩, fun hf k g m hg hmask => ?_⟩
      refine ⟨saveGroup false g, ?_, saveGroup_spec hmask⟩
      simp [savedBlock, hg, hf]

/-! ### A saved block returns (R347) -/

/-- Issuing the replay entries again changes no block. -/
theorem replayOps_blocks (s : State) (uid core part : Nat) : (replayOps s uid core part).blocks = s.blocks := by
  unfold replayOps
  generalize opsOf s uid = xs
  induction xs generalizing s with
  | nil => rfl
  | cons e xs ih =>
    rw [List.foldl_cons, ih]
    split
    · rfl
    · simp only
      split
      · rfl
      · rfl

/-- RESTORE of a saved block whose turn it is and which finds a place and its range entries. -/
theorem execRestore_spec {s : State} {u : Nat} {b : Block} {p : Place} (hb : tget s.blocks u = some b) (hph : b.phase = .saved)
    (ht : restoreTurn s b.part u (candidates s b.part) = true)
    (hp : choosePlace s b.part b.launch b.stage.toNat b.ready b.fp = some p) (hr : rangesOf s p.core + replayRanges s u ≤ 32) :
    ∃ t b', exec (.restore u) s = .next t ∧ tget t.blocks u = some b' ∧ b'.phase = .resident ∧ b'.place = some p ∧ b'.scratch = b.scratch ∧
      ∀ (k : Nat) (g : Group), b.groups[k]? = some g → ∃ g', b'.groups[k]? = some g' ∧ SameRegisters g' g ∧ g'.label = g.label ∧
        g'.offset = g.offset ∧ g'.lanes = g.lanes := by
  have hx : exec (.restore u) s = .next (putBack s u b p) := by
    have h : exec (.restore u) s = execRestore u s := rfl
    rw [h]
    simp only [execRestore, hb, hp]
    rw [if_pos ⟨hph, ht⟩, if_pos hr]
  refine ⟨_, { b with phase := .resident, place := some p, behind := none, tokens := [],
                      groups := b.groups.map (restoreGroup (newestCode s b) s.clock b.fault.isSome) }, hx, ?_, rfl, rfl, rfl, fun k g hg => ?_⟩
  · simp only [putBack, replayOps_blocks]
    exact tget_tput_same _ _ _
  · exact ⟨restoreGroup (newestCode s b) s.clock b.fault.isSome g, by simp [hg], ⟨rfl, rfl, rfl, rfl, rfl, rfl⟩, rfl, rfl, rfl⟩

/-- Settles O54: each event by the lemma about it. -/
theorem blockLifeResults : Obligations.BlockLifeResults := by
  unfold Obligations.BlockLifeResults
  refine ⟨fun s id o ho => ⟨fun hs => ?_, fun hs st hst => ?_⟩, fun s u b hb hph => ⟨?_, ?_, ?_⟩, fun s f part => execSliceEnd_spec,
    fun s u k v => execPreemptStop_spec, fun s u b p => execRestore_spec⟩
  · obtain ⟨h1, h2, h3, h4, h5⟩ := settleOp_finishes ho
    have hx := execAsyncComplete_resident ho hs
    exact ⟨fun st h => ⟨_, hx, h1 st h⟩, fun h => ⟨_, hx, h2 h⟩, fun l h hl => ⟨_, hx, h3 l h hl⟩, fun c h hl => ⟨_, hx, h4 c h hl⟩,
      fun l h hd hl => ⟨_, hx, h5 l h hd hl⟩⟩
  · exact ⟨_, execSavedHandleUpdate_saved ho hs, (settleOp_finishes ho).1 st hst⟩
  · intro hf he ha ho
    obtain ⟨t, hx, ht⟩ := execCommitTakeEffect_block hb hph hf he ha ho
    exact ⟨t, _, hx, ht, rfl, rfl, rfl, rfl, fun k g sc m => pastCommitBlock_group⟩
  · intro hk hf ho hsub hc hg
    exact execFinalCommit_spec hb hph hk hf ho hsub hc hg
  · exact execQuiesce_spec hb

end Sys2Proof.Machine
end

section
/-! SUPPORT. Fields of a word and the code tables (R45 to R53): what a check of the decoder says about the word, in the terms in which the
encoder writes it. -/
namespace Sys2Proof

/-! ### Fields side by side -/

/-- Two values side by side are a field when each is its part of it. -/
theorem append_eq_extractLsb' {n m k : Nat} (x : BitVec n) (y : BitVec m) (b : BitVec k) (lo : Nat) :
    x ++ y = b.extractLsb' lo (n + m) ↔ x = b.extractLsb' (lo + m) n ∧ y = b.extractLsb' lo m := by
  rw [← BitVec.extractLsb'_append_extractLsb'_eq_extractLsb' (x := b) (start₁ := lo) (start₂ := lo + m) rfl]
  constructor
  · intro h
    have hx := congrArg (BitVec.extractLsb' m n) h
    have hy := congrArg (BitVec.extractLsb' 0 m) h
    rw [BitVec.extractLsb'_append_eq_left, BitVec.extractLsb'_append_eq_left] at hx
    rw [BitVec.extractLsb'_append_eq_right, BitVec.extractLsb'_append_eq_right] at hy
    exact ⟨hx, hy⟩
  · rintro ⟨rfl, rfl⟩
    rfl

/-- The same of a word. The width of the field is a numeral in every use and no sum, so that it is not indexed. -/
@[simp] theorem append_eq_fld {n m : Nat} (x : BitVec n) (y : BitVec m) (w : W64) (lo : Nat) :
    @Eq (no_index (BitVec (n + m))) (@HAppend.hAppend (BitVec n) (BitVec m) (no_index (BitVec (n + m))) _ x y)
      (fld w lo (no_index (n + m))) ↔ x = fld w (lo + m) n ∧ y = fld w lo m :=
  append_eq_extractLsb' x y w lo

theorem fld_one (w : W64) (k : Nat) : fld w k 1 = BitVec.ofBool (w.getLsbD k) := by
  apply BitVec.eq_of_getLsbD_eq
  intro i hi
  simp [fld, show i = 0 by omega]

@[simp] theorem ofBool_eq_fld (w : W64) (k : Nat) (b : Bool) : BitVec.ofBool b = fld w k 1 ↔ w.getLsbD k = b := by
  rw [fld_one]
  cases b <;> cases w.getLsbD k <;> decide

@[simp] theorem fld_eq_one (w : W64) (k : Nat) : fld w k 1 = 1#1 ↔ w.getLsbD k = true := by
  rw [eq_comm]
  exact ofBool_eq_fld w k true

@[simp] theorem bit_eq_fld (w : W64) (k : Nat) (b : Bool) : bit b = fld w k 1 ↔ w.getLsbD k = b := ofBool_eq_fld w k b

@[simp] theorem toNat_fld_one (w : W64) (k : Nat) : (fld w k 1).toNat = (w.getLsbD k).toNat := by
  rw [fld_one, BitVec.toNat_ofBool]

/-- A field holds the number `v` when its low `m` bits do and the bits above them are zero. -/
theorem ofNat_eq_fld (w : W64) (lo m : Nat) {n v : Nat} (hm : m ≤ n) (hv : v < 2 ^ m) :
    BitVec.ofNat n v = fld w lo n ↔ (fld w lo m).toNat = v ∧ 0 = fld w (lo + m) (n - m) := by
  obtain ⟨k, rfl⟩ : ∃ k, n = k + m := ⟨n - m, by omega⟩
  have hs : BitVec.ofNat (k + m) v = (0 : BitVec k) ++ BitVec.ofNat m v := by
    apply BitVec.eq_of_toNat_eq
    have : v < 2 ^ (k + m) := lt_of_lt_of_le hv (Nat.pow_le_pow_right (by omega) (by omega))
    simp [BitVec.toNat_append, Nat.mod_eq_of_lt, hv, this]
  rw [hs, append_eq_fld, Nat.add_sub_cancel, and_comm, ← BitVec.toNat_inj, BitVec.toNat_ofNat, Nat.mod_eq_of_lt hv, eq_comm]

theorem ofNat_eq_fld_of_toNat {w : W64} {lo n v : Nat} (h : (fld w lo n).toNat = v) : BitVec.ofNat n v = fld w lo n := by
  rw [← h, BitVec.ofNat_toNat, BitVec.setWidth_eq]

/-! ### Checks that bits are zero -/

theorem zf_eq_some {n : Nat} (b : BitVec n) (u : Unit) : zf b = some u ↔ b = 0 := by
  by_cases h : b = 0 <;> simp [zf, h]

/-- The `n` bits from `lo` on are zero: every field among them, and every single bit. -/
def ZeroBits (w : W64) (lo n : Nat) : Prop :=
  (∀ lo' n', lo ≤ lo' → lo' + n' ≤ lo + n → fld w lo' n' = 0) ∧ (∀ k, lo ≤ k → k < lo + n → w.getLsbD k = false)

@[simp] theorem zf_fld_eq_some (w : W64) (lo n : Nat) (u : Unit) : zf (fld w lo n) = some u ↔ ZeroBits w lo n := by
  rw [zf_eq_some]
  constructor
  · intro h
    have hb : ∀ k, lo ≤ k → k < lo + n → w.getLsbD k = false := by
      intro k h1 h2
      have := congrArg (fun b => b.getLsbD (k - lo)) h
      simpa [fld, show k - lo < n by omega, show lo + (k - lo) = k by omega] using this
    refine ⟨fun lo' n' h1 h2 => BitVec.eq_of_getLsbD_eq fun i hi => ?_, hb⟩
    have := hb (lo' + i) (by omega) (by omega)
    simp [fld, this]
  · exact fun h => h.1 lo n (Nat.le_refl _) (Nat.le_refl _)

/-- A field that the decoder compares with a fixed code. -/
@[simp] theorem zf_xor_eq_some {n : Nat} (b c : BitVec n) (u : Unit) : zf (b ^^^ c) = some u ↔ b = c := by
  rw [zf_eq_some]
  exact BitVec.xor_eq_zero_iff

@[simp] theorem mod0_eq_some (w : W64) (u : Unit) : mod0 w = some u ↔ wMod w = 0 := zf_eq_some _ _
@[simp] theorem wD_eq (w : W64) : wD w = fld w 32 8 := rfl
@[simp] theorem wA_eq (w : W64) : wA w = fld w 24 8 := rfl
@[simp] theorem wB_eq (w : W64) : wB w = fld w 16 8 := rfl
@[simp] theorem wC_eq (w : W64) : wC w = fld w 8 8 := rfl
@[simp] theorem wX_eq (w : W64) : wX w = fld w 0 8 := rfl
@[simp] theorem wImm_eq (w : W64) : wImm w = fld w 0 24 := rfl

/-! ### Register names and code tables: each decoder is the partial inverse of its encoder -/

/-- A name of `m` bits in a field of `n` more, which must be zero. -/
theorem padded_eq_some {n m : Nat} (b : BitVec (n + m)) (r : BitVec m) :
    (if b.extractLsb' m n = 0 then some (b.extractLsb' 0 m) else none) = some r ↔ (0 : BitVec n) ++ r = b := by
  have h := append_eq_extractLsb' (0 : BitVec n) r b 0
  rw [BitVec.extractLsb'_eq_self, Nat.zero_add] at h
  rw [h]
  split
  case isTrue hz => rw [hz, Option.some.injEq, eq_comm, eq_self, true_and]
  case isFalse hz => exact ⟨nofun, fun h => absurd h.1.symm hz⟩

@[simp] theorem sr8_eq_some (b : BitVec 8) (r : SReg) : sr8 b = some r ↔ s8 r = b := by
  unfold sr8 s8
  exact padded_eq_some (n := 2) (m := 6) b r
@[simp] theorem pr8_eq_some (b : BitVec 8) (r : PReg) : pr8 b = some r ↔ p8 r = b := by
  unfold pr8 p8
  exact padded_eq_some (n := 5) (m := 3) b r
@[simp] theorem cr8_eq_some (b : BitVec 8) (r : CReg) : cr8 b = some r ↔ c8 r = b := by
  unfold cr8 c8
  exact padded_eq_some (n := 4) (m := 4) b r

@[simp] theorem tyOf_eq_some (b : BitVec 5) (t : Ty) : tyOf b = some t ↔ tyCode t = b := by
  revert b; cases t <;> decide
@[simp] theorem scopeOf_eq_some (b : BitVec 5) (sc : Scope) : scopeOf b = some sc ↔ scopeBits sc = b := by
  revert b; cases sc <;> decide
@[simp] theorem widthOf_eq_some (b : BitVec 5) (wd : Width) : widthOf b = some wd ↔ widthCode wd = b := by
  revert b; cases wd <;> decide
@[simp] theorem condOf_eq_some (n : Nat) (k : Cond) : condOf n = some k ↔ condCode k = n := by
  constructor
  · intro h
    unfold condOf at h
    split at h <;> cases h <;> rfl
  · rintro rfl
    cases k <;> rfl
@[simp] theorem fcondOf_eq_some (b : BitVec 4) (k : FCond) : fcondOf b = some k ↔ fcondCode k = b := by
  revert b; cases k <;> decide
@[simp] theorem rmOf_eq_some (b : BitVec 3) (r : Rm) : rmOf b = some r ↔ rmCode r = b := by
  revert b; cases r <;> decide
@[simp] theorem redOf_eq_some (b : BitVec 3) (o : RedOp) : redOf b = some o ↔ redCode o = b := by
  revert b; cases o <;> decide
@[simp] theorem voteOf_eq_some (b : BitVec 8) (m : VoteMode) : voteOf b = some m ↔ voteCode m = b := by
  revert b; cases m <;> decide
@[simp] theorem wctrOf_eq_some (b : BitVec 3) (m : WctrMode) : wctrOf b = some m ↔ wctrCode m = b := by
  revert b; cases m <;> decide
@[simp] theorem fenceOf_eq_some (b : BitVec 2) (m : FenceMode) : fenceOf b = some m ↔ fenceCode m = b := by
  revert b; cases m <;> decide
@[simp] theorem smoviMode_eq_some (b : BitVec 8) (k : Option (BitVec 2)) : smoviMode b = some k ↔ smoviBits k = b := by
  revert b
  cases k with
  | none => decide
  | some k => revert k; decide
@[simp] theorem waitSelOf_eq_some (b : BitVec 4) (s : WaitSel) : waitSelOf b = some s ↔ waitSelCode s = b := by
  revert b
  cases s with
  | copies => decide
  | stores => decide
  | queue k => revert k; decide
@[simp] theorem ctCode_ctOf (b : BitVec 2) : ctCode (ctOf b) = b := by revert b; decide
@[simp] theorem subCode_subOf (b : BitVec 2) : subCode (subOf b) = b := by revert b; decide

/-! ### The bodies of the five formats (R48 to R52), field by field -/

@[simp] theorem bodyA_eq_fld (w : W64) (d a b c x : BitVec 8) : bodyA d a b c x = fld w 0 40 ↔
    d = fld w 32 8 ∧ a = fld w 24 8 ∧ b = fld w 16 8 ∧ c = fld w 8 8 ∧ x = fld w 0 8 := by
  simp only [bodyA, append_eq_fld, Nat.reduceAdd, and_assoc]
@[simp] theorem bodyI_eq_fld (w : W64) (d a : BitVec 8) (i : BitVec 24) : bodyI d a i = fld w 0 40 ↔
    d = fld w 32 8 ∧ a = fld w 24 8 ∧ i = fld w 0 24 := by
  simp only [bodyI, append_eq_fld, Nat.reduceAdd, and_assoc]
@[simp] theorem bodyM_eq_fld (w : W64) (d : BitVec 8) (c : BitVec 4) (x : BitVec 8) (xs xz : Bool) (disp : W16) :
    bodyM d c x xs xz disp = fld w 0 40 ↔ d = fld w 32 8 ∧ c = fld w 28 4 ∧ x = fld w 20 8 ∧ w.getLsbD 19 = xs ∧ w.getLsbD 18 = xz ∧
      0 = fld w 16 2 ∧ disp = fld w 0 16 := by
  simp only [bodyM, append_eq_fld, Nat.reduceAdd, and_assoc, ofBool_eq_fld]
@[simp] theorem bodyE_eq_fld (w : W64) (h ca cb : BitVec 4) (sa sb sc : BitVec 6) (x : BitVec 8) : bodyE h ca cb sa sb sc x = fld w 0 40 ↔
    h = fld w 36 4 ∧ ca = fld w 32 4 ∧ cb = fld w 28 4 ∧ sa = fld w 22 6 ∧ sb = fld w 16 6 ∧ sc = fld w 10 6 ∧ 0 = fld w 8 2 ∧
      x = fld w 0 8 := by
  simp only [bodyE, append_eq_fld, Nat.reduceAdd, and_assoc]
@[simp] theorem bodyY_eq_fld (w : W64) (d a : BitVec 8) (sr : BitVec 10) (i : BitVec 14) : bodyY d a sr i = fld w 0 40 ↔
    d = fld w 32 8 ∧ a = fld w 24 8 ∧ sr = fld w 14 10 ∧ i = fld w 0 14 := by
  simp only [bodyY, append_eq_fld, Nat.reduceAdd, and_assoc]

/-! ### Operands with several forms -/

/-- Bits 19 and 18 of a format M word whose offset is a scalar register. -/
theorem fld_scalarOffset (w : W64) : fld w 18 2 = 2#2 ↔ w.getLsbD 19 = true ∧ w.getLsbD 18 = false := by
  rw [eq_comm, show 2#2 = BitVec.ofBool true ++ BitVec.ofBool false from rfl, append_eq_fld, ofBool_eq_fld, ofBool_eq_fld]

/-- Bits 27 to 18 of a format M word without an offset. -/
theorem fld_noOffset (w : W64) : fld w 18 10 = 1#10 ↔ 0 = fld w 20 8 ∧ w.getLsbD 19 = false ∧ w.getLsbD 18 = true := by
  rw [eq_comm, show 1#10 = (0 : BitVec 8) ++ BitVec.ofBool false ++ BitVec.ofBool true from rfl, append_eq_fld, append_eq_fld,
    ofBool_eq_fld, ofBool_eq_fld, and_assoc]

@[simp] theorem vimmOf_eq_some (w : W64) (b : VImm) : vimmOf w = some b ↔ vimmBits b = fld w 0 24 := by
  have h0 : 0 = fld w 23 1 ↔ w.getLsbD 23 = false := ofBool_eq_fld w 23 false
  have h1 : 1 = fld w 23 1 ↔ w.getLsbD 23 = true := ofBool_eq_fld w 23 true
  unfold vimmOf
  cases b with
  | imm i =>
    rw [vimmBits, append_eq_fld, h0]
    split
    case isTrue h23 => simp [h23, Option.bind_eq_some_iff]
    case isFalse h23 =>
      rw [Bool.eq_false_iff.2 h23]
      simp [eq_comm]
  | s x =>
    rw [vimmBits, append_eq_fld, append_eq_fld, h1]
    split
    case isTrue h23 =>
      rw [h23]
      simp [-zf_fld_eq_some, Option.bind_eq_some_iff, zf_eq_some]
      exact and_congr eq_comm eq_comm
    case isFalse h23 =>
      rw [Bool.eq_false_iff.2 h23]
      simp

@[simp] theorem atgX_eq_fld (w : W64) (big sg acq : Bool) : atgX big sg acq = fld w 0 8 ↔
    0 = fld w 4 4 ∧ w.getLsbD 3 = acq ∧ w.getLsbD 2 = sg ∧ 0 = fld w 1 1 ∧ w.getLsbD 0 = big := by
  simp only [atgX, append_eq_fld, Nat.reduceAdd, and_assoc, bit_eq_fld]

@[simp] theorem barBody_eq_fld {w : W64} {n : BarCount} (hn : barCountOf w = some n) (d : BitVec 8) :
    barBody d (fld w 0 9) n = fld w 0 40 ↔ d = fld w 32 8 := by
  unfold barCountOf at hn
  split at hn
  case isTrue h9 =>
    obtain ⟨a, ha, ⟨hz, -⟩, rfl⟩ := by simpa [Option.bind_eq_some_iff, ZeroBits] using hn
    have h1 : (1 : BitVec 1) = fld w 9 1 := (ofBool_eq_fld w 9 true).2 h9
    rw [barBody, bodyI_eq_fld, append_eq_fld, append_eq_fld]
    simp [ha, h1, hz]
  case isFalse h9 =>
    obtain ⟨⟨hz, -⟩, rfl⟩ := by simpa [Option.bind_eq_some_iff, ZeroBits] using hn
    have h0 : (0 : BitVec 1) = fld w 9 1 := (ofBool_eq_fld w 9 false).2 (by simpa using h9)
    rw [barBody, bodyI_eq_fld, append_eq_fld, append_eq_fld]
    simp [h0, hz]

@[simp] theorem memBody_eq_fld {w : W64} {x : MemOff} (hx : memOffOf w = some x) (d : BitVec 8) (c : CReg) (disp : W16) :
    memBody d c disp x = fld w 0 40 ↔ d = fld w 32 8 ∧ c = fld w 28 4 ∧ 0 = fld w 16 2 ∧ disp = fld w 0 16 := by
  unfold memOffOf at hx
  repeat' split at hx
  · obtain ⟨⟨hf, hb⟩, rfl⟩ := by simpa [-BitVec.getLsbD_eq_getElem, Option.bind_eq_some_iff, ZeroBits] using hx
    simp_all [-BitVec.getLsbD_eq_getElem, memBody]
  · obtain ⟨x, hs, rfl⟩ := by simpa [-BitVec.getLsbD_eq_getElem, Option.bind_eq_some_iff] using hx
    simp_all [-BitVec.getLsbD_eq_getElem, memBody]
  · cases hx
    simp_all [-BitVec.getLsbD_eq_getElem, memBody]

@[simp] theorem capBody_eq_fld {w : W64} {x : CapOff} (hx : capOffOf w = some x) (d : BitVec 8) (c : CReg) (disp : W16) :
    capBody d c disp x = fld w 0 40 ↔ d = fld w 32 8 ∧ c = fld w 28 4 ∧ 0 = fld w 16 2 ∧ disp = fld w 0 16 := by
  obtain ⟨o, ho, h⟩ := Option.bind_eq_some_iff.1 hx
  rw [← memBody_eq_fld ho]
  cases o <;> cases h <;> rfl

@[simp] theorem shflBody_eq_fld {w : W64} {m : ShflMode} (hm : shflOf w = some m) (d a : BitVec 8) :
    shflBody d a m = fld w 0 40 ↔ d = fld w 32 8 ∧ a = fld w 24 8 := by
  unfold shflOf at hm
  split at hm
  case h_1 hc =>
    obtain ⟨⟨hz, -⟩, rfl⟩ := by simpa [Option.bind_eq_some_iff, ZeroBits] using hm
    simp [shflBody, hz, ← ofNat_eq_fld_of_toNat (lo := 8) hc]
  case h_5 => cases hm
  all_goals
    rename_i hc
    obtain ⟨⟨hz, -⟩, ⟨hz', -⟩, rfl⟩ := by simpa [Option.bind_eq_some_iff, ZeroBits] using hm
    simp [shflBody, hz, hz', ← ofNat_eq_fld_of_toNat (lo := 8) hc]

end Sys2Proof
end

section
/-! A word that the decoder accepts is the word that the encoder writes (R53, R54, R63): the decoders of the classes, and the statements
DecodedInstructionsAreWellFormed and AcceptedWordsCarryNoOtherBit. -/
namespace Sys2Proof

/-! ### Shapes of operands that several instructions share -/

@[simp] theorem sABT_eq_some (w : W64) (r : Ty × SReg × SReg × SReg) : sABT w = some r ↔
    tyCode r.1 = wMod w ∧ s8 r.2.1 = fld w 32 8 ∧ s8 r.2.2.1 = fld w 24 8 ∧ s8 r.2.2.2 = fld w 16 8 := by
  obtain ⟨t, d, a, b⟩ := r
  simp [sABT, Option.bind_eq_some_iff]

@[simp] theorem s3_eq_some (w : W64) (k : Ty → SReg → SReg → SReg → Instr) (i : Instr) : s3 k w = some i ↔
    ∃ t d a b, tyCode t = wMod w ∧ s8 d = fld w 32 8 ∧ s8 a = fld w 24 8 ∧ s8 b = fld w 16 8 ∧ ZeroBits w 0 16 ∧ k t d a b = i := by
  simp [s3, Option.bind_eq_some_iff, and_assoc]

@[simp] theorem sI_eq_some (w : W64) (k : Ty → SReg → SReg → BitVec 24 → Instr) (i : Instr) : sI k w = some i ↔
    ∃ t, tyCode t = wMod w ∧ ∃ d, s8 d = fld w 32 8 ∧ ∃ a, s8 a = fld w 24 8 ∧ k t d a (fld w 0 24) = i := by
  simp [sI, Option.bind_eq_some_iff]

@[simp] theorem v3_eq_some (w : W64) (k : Ty → VReg → VReg → VReg → Instr) (i : Instr) : v3 k w = some i ↔
    ∃ t, tyCode t = wMod w ∧ ZeroBits w 0 16 ∧ k t (fld w 32 8) (fld w 24 8) (fld w 16 8) = i := by
  simp [v3, Option.bind_eq_some_iff]

@[simp] theorem v2_eq_some (w : W64) (k : Ty → VReg → VReg → Instr) (i : Instr) : v2 k w = some i ↔
    ∃ t, tyCode t = wMod w ∧ ZeroBits w 0 24 ∧ k t (fld w 32 8) (fld w 24 8) = i := by
  simp [v2, Option.bind_eq_some_iff]

@[simp] theorem vX_eq_some (w : W64) (k : Ty → VReg → VReg → VImm → Instr) (i : Instr) : vX k w = some i ↔
    ∃ t, tyCode t = wMod w ∧ ∃ b, vimmBits b = fld w 0 24 ∧ k t (fld w 32 8) (fld w 24 8) b = i := by
  simp [vX, Option.bind_eq_some_iff]

@[simp] theorem fr3_eq_some (w : W64) (k : Ty → Rm → VReg → VReg → VReg → Instr) (i : Instr) : fr3 k w = some i ↔
    ∃ t, tyCode t = wMod w ∧ ZeroBits w 3 13 ∧ ∃ r, rmCode r = fld w 0 3 ∧ k t r (fld w 32 8) (fld w 24 8) (fld w 16 8) = i := by
  simp [fr3, Option.bind_eq_some_iff]

@[simp] theorem lsF_eq_some (w : W64) (k : Width → VReg → CReg → MemOff → W16 → Instr) (i : Instr) : lsF k w = some i ↔
    ∃ wd, widthCode wd = wMod w ∧ ∃ x, memOffOf w = some x ∧ ZeroBits w 16 2 ∧ k wd (fld w 32 8) (fld w 28 4) x (fld w 0 16) = i := by
  simp [lsF, Option.bind_eq_some_iff]

@[simp] theorem atS_eq_some (w : W64) (k : Scope → VReg → CReg → MemOff → W16 → Instr) (i : Instr) : atS k w = some i ↔
    ∃ sc, scopeBits sc = wMod w ∧ ∃ x, memOffOf w = some x ∧ ZeroBits w 16 2 ∧ k sc (fld w 32 8) (fld w 28 4) x (fld w 0 16) = i := by
  simp [atS, Option.bind_eq_some_iff]

@[simp] theorem atG_eq_some (w : W64) (k : Scope → HReg → SReg → CReg → SReg → Bool → Bool → Bool → Instr) (i : Instr) :
    atG k w = some i ↔ ∃ sc, scopeBits sc = wMod w ∧ ZeroBits w 28 4 ∧ ZeroBits w 10 6 ∧ ZeroBits w 8 2 ∧ ZeroBits w 4 4 ∧
      ZeroBits w 1 1 ∧ k sc (fld w 36 4) (fld w 16 6) (fld w 32 4) (fld w 22 6) (w.getLsbD 0) (w.getLsbD 2) (w.getLsbD 3) = i := by
  simp [atG, Option.bind_eq_some_iff]

/-! ### The classes -/

/-- The decoder of the words of a major (R63); a major without one accepts none. -/
def decoderOf (maj : Nat) : Hdr → W64 → Nat → Option Instr :=
  match maj with
  | 0x02 => decSeq | 0x03 => decSys3 | 0x04 => decHnd | 0x05 => decBar
  | 0x08 => decSca | 0x09 => decScaI | 0x0A => decMov
  | 0x10 => decVec | 0x11 => decVecX | 0x12 => decCmp | 0x13 => decPrd | 0x14 => decXln
  | 0x18 => decFlt | 0x19 => decFCm | 0x1A => decSpc | 0x1B => decFSt | 0x20 => decCvt | 0x21 => decQfm
  | 0x28 => decScr | 0x29 => decAts | 0x2A => decTag | 0x2C => decCap
  | 0x30 => decCpy | 0x31 => decQue | 0x32 => decPag | 0x33 => decAtg | 0x34 => decOrd | 0x35 => decStq
  | 0x38 => decMat | 0x3C => decNam | 0x3D => decWin | 0x3E => decSrt | 0x3F => decDbg
  | _ => fun _ _ _ => none

theorem decodeFields_eq (w nx : W64) : decodeFields w nx = decoderOf (wMajor w) (hdrOf w nx) w (wMinor w) := by
  unfold decodeFields decoderOf
  split <;> simp only [*]

/-- `i`, decoded from the word `w` of major `maj` and minor `m` under the header `h`, has that header, its minor is assigned, and (but for
RDCTR of the group itself) the encoder writes for it a word of that major, header and minor with the mod and the body of `w`. -/
structure Accepted (maj : BitVec 6) (h : Hdr) (w : W64) (m : Nat) (i : Instr) : Prop where
  hdr : i.hdr? = some h
  assigned : ∃ ms, minorsOf maj.toNat = some ms ∧ ms.contains m = true
  word : (∀ h d n, i ≠ .rdctr h d n none) → encodeWord i = packWord maj h (wMod w) (BitVec.ofNat 8 m) (fld w 0 40)

theorem Accepted.of_fields {maj : BitVec 6} {h : Hdr} {w : W64} {m : Nat} {i : Instr} {mod : BitVec 5} {body : BitVec 40}
    (hh : i.hdr? = some h) (ha : ∃ ms, minorsOf maj.toNat = some ms ∧ ms.contains m = true)
    (he : encodeWord i = packWord maj h mod (BitVec.ofNat 8 m) body) (hm : mod = wMod w) (hb : body = fld w 0 40) :
    Accepted maj h w m i :=
  ⟨hh, ha, fun _ => by rw [he, hm, hb]⟩

variable {h : Hdr} {w nx : W64} {m : Nat} {i : Instr}

/-! A decoder's checks, each turned into an equation between an encoded field and the field of the word, are the equations of
`Accepted.of_fields`: that the mod and every field of the body are those of `w`. -/

/-- The sequencer, the handles, barriers, names, windows and sorting. -/
theorem control_accepted :
    (decoderOf 0x02 h w m = some i → Accepted 0x02 h w m i) ∧ (decoderOf 0x03 h w m = some i → Accepted 0x03 h w m i) ∧
    (decoderOf 0x04 h w m = some i → Accepted 0x04 h w m i) ∧ (decoderOf 0x05 h w m = some i → Accepted 0x05 h w m i) ∧
    (decoderOf 0x3C h w m = some i → Accepted 0x3C h w m i) ∧ (decoderOf 0x3D h w m = some i → Accepted 0x3D h w m i) ∧
    (decoderOf 0x3E h w m = some i → Accepted 0x3E h w m i) := by
  and_intros <;> intro hd
  all_goals
    simp only [decoderOf, decSeq, decSys3, decHnd, decBar, decNam, decWin, decSrt] at hd
    repeat' split at hd
  all_goals simp [-BitVec.getLsbD_eq_getElem, Option.bind_eq_some_iff] at hd
  all_goals
    revert hd
    simp only [forall_exists_index, and_imp, ZeroBits]
    intros
    subst_vars
    exact .of_fields rfl ⟨_, rfl, rfl⟩ rfl (by simp [*]) (by simp [-BitVec.getLsbD_eq_getElem, *])

/-- Integer arithmetic, moves, predicates and lanes. -/
theorem integer_accepted :
    (decoderOf 0x08 h w m = some i → Accepted 0x08 h w m i) ∧ (decoderOf 0x09 h w m = some i → Accepted 0x09 h w m i) ∧
    (decoderOf 0x0A h w m = some i → Accepted 0x0A h w m i) ∧ (decoderOf 0x10 h w m = some i → Accepted 0x10 h w m i) ∧
    (decoderOf 0x11 h w m = some i → Accepted 0x11 h w m i) ∧ (decoderOf 0x12 h w m = some i → Accepted 0x12 h w m i) ∧
    (decoderOf 0x13 h w m = some i → Accepted 0x13 h w m i) ∧ (decoderOf 0x14 h w m = some i → Accepted 0x14 h w m i) := by
  and_intros <;> intro hd
  all_goals
    simp only [decoderOf, decSca, decScaI, decMov, decVec, decVecX, decCmp, decPrd, decXln] at hd
    repeat' split at hd
  all_goals simp [-BitVec.getLsbD_eq_getElem, Option.bind_eq_some_iff] at hd
  all_goals
    revert hd
    simp only [forall_exists_index, and_imp, ZeroBits]
    intros
    subst_vars
    exact .of_fields rfl ⟨_, rfl, rfl⟩ rfl (by simp [*]) (by simp [-BitVec.getLsbD_eq_getElem, ofNat_eq_fld w 0 1, *])

/-- Floating point, conversions, block formats and the matrix unit. -/
theorem float_accepted :
    (decoderOf 0x18 h w m = some i → Accepted 0x18 h w m i) ∧ (decoderOf 0x19 h w m = some i → Accepted 0x19 h w m i) ∧
    (decoderOf 0x1A h w m = some i → Accepted 0x1A h w m i) ∧ (decoderOf 0x1B h w m = some i → Accepted 0x1B h w m i) ∧
    (decoderOf 0x20 h w m = some i → Accepted 0x20 h w m i) ∧ (decoderOf 0x21 h w m = some i → Accepted 0x21 h w m i) ∧
    (decoderOf 0x38 h w m = some i → Accepted 0x38 h w m i) := by
  and_intros <;> intro hd
  all_goals
    simp only [decoderOf, decFlt, decFCm, decSpc, decFSt, decCvt, decQfm, decMat] at hd
    repeat' split at hd
  all_goals simp [-BitVec.getLsbD_eq_getElem, Option.bind_eq_some_iff] at hd
  all_goals
    revert hd
    simp only [forall_exists_index, and_imp, ZeroBits]
    intros
    subst_vars
    exact .of_fields rfl ⟨_, rfl, rfl⟩ rfl (by simp [*]) (by simp [-BitVec.getLsbD_eq_getElem, ofNat_eq_fld w 0 2, *])

/-- Scratchpad, tags, capabilities, copies, queues, pages and atomics. -/
theorem memory_accepted :
    (decoderOf 0x28 h w m = some i → Accepted 0x28 h w m i) ∧ (decoderOf 0x29 h w m = some i → Accepted 0x29 h w m i) ∧
    (decoderOf 0x2A h w m = some i → Accepted 0x2A h w m i) ∧ (decoderOf 0x2C h w m = some i → Accepted 0x2C h w m i) ∧
    (decoderOf 0x30 h w m = some i → Accepted 0x30 h w m i) ∧ (decoderOf 0x31 h w m = some i → Accepted 0x31 h w m i) ∧
    (decoderOf 0x32 h w m = some i → Accepted 0x32 h w m i) ∧ (decoderOf 0x33 h w m = some i → Accepted 0x33 h w m i) ∧
    (decoderOf 0x34 h w m = some i → Accepted 0x34 h w m i) ∧ (decoderOf 0x35 h w m = some i → Accepted 0x35 h w m i) := by
  and_intros <;> intro hd
  all_goals
    simp only [decoderOf, decScr, decAts, decTag, decCap, decCpy, decQue, decPag, decAtg, decOrd, decStq] at hd
    repeat' split at hd
  all_goals simp [-BitVec.getLsbD_eq_getElem, Option.bind_eq_some_iff, fld_scalarOffset, fld_noOffset] at hd
  all_goals
    revert hd
    simp only [forall_exists_index, and_imp, ZeroBits]
    intros
    subst_vars
    exact .of_fields rfl ⟨_, rfl, rfl⟩ rfl (by simp [*]) (by simp [-BitVec.getLsbD_eq_getElem, ofNat_eq_fld w 0 2, *])

/-- Tracing and power; RDCTR of the group itself and the bits that tell the forms of RDCTR and TLBINV apart are looked at one by one. -/
theorem decDbg_accepted (hd : decoderOf 0x3F h w m = some i) : Accepted 0x3F h w m i := by
  simp only [decoderOf, decDbg] at hd
  repeat' split at hd
  all_goals simp [-BitVec.getLsbD_eq_getElem, Option.bind_eq_some_iff] at hd
  all_goals
    revert hd
    simp only [forall_exists_index, and_imp, ZeroBits]
    intros
    subst_vars
  case h_2.isFalse => exact ⟨rfl, ⟨_, rfl, rfl⟩, fun hne => absurd rfl (hne _ _ _)⟩
  all_goals refine .of_fields rfl ⟨_, rfl, rfl⟩ rfl (by simp [*]) ?_
  case h_2.isTrue => simp [-BitVec.getLsbD_eq_getElem, ofNat_eq_fld w 12 1, *]
  case h_4.isTrue | h_4.isFalse => simp [-BitVec.getLsbD_eq_getElem, ofNat_eq_fld w 0 1, *]
  case h_4 h0 h1 h2 _ _ _ _ _ _ _ =>
    have h3 : (fld w 0 2).toNat = 3 := by
      have := (fld w 0 2).isLt
      rw [imp_false] at h0 h1 h2
      omega
    simp [ofNat_eq_fld w 0 2, *]
  all_goals simp [ofNat_eq_fld w 0 2, *]

theorem decoderOf_accepted {maj : Nat} (hd : decoderOf maj h w m = some i) : Accepted (BitVec.ofNat 6 maj) h w m i := by
  obtain ⟨hSeq, hSys, hHnd, hBar, hNam, hWin, hSrt⟩ := control_accepted (h := h) (w := w) (m := m) (i := i)
  obtain ⟨hSca, hScaI, hMov, hVec, hVecX, hCmp, hPrd, hXln⟩ := integer_accepted (h := h) (w := w) (m := m) (i := i)
  obtain ⟨hFlt, hFCm, hSpc, hFSt, hCvt, hQfm, hMat⟩ := float_accepted (h := h) (w := w) (m := m) (i := i)
  obtain ⟨hScr, hAts, hTag, hCap, hCpy, hQue, hPag, hAtg, hOrd, hStq⟩ := memory_accepted (h := h) (w := w) (m := m) (i := i)
  unfold decoderOf at hd
  split at hd
  exacts [hSeq hd, hSys hd, hHnd hd, hBar hd, hSca hd, hScaI hd, hMov hd, hVec hd, hVecX hd, hCmp hd, hPrd hd, hXln hd, hFlt hd, hFCm hd,
    hSpc hd, hFSt hd, hCvt hd, hQfm hd, hScr hd, hAts hd, hTag hd, hCap hd, hCpy hd, hQue hd, hPag hd, hAtg hd, hOrd hd, hStq hd,
    hMat hd, hNam hd, hWin hd, hSrt hd, decDbg_accepted hd, nomatch hd]

/-! ### The whole word -/

theorem ofNat_wMajor (w : W64) : BitVec.ofNat 6 (wMajor w) = fld w 58 6 := ofNat_eq_fld_of_toNat rfl
theorem ofNat_wMinor (w : W64) : BitVec.ofNat 8 (wMinor w) = fld w 40 8 := ofNat_eq_fld_of_toNat rfl

/-- A word is its header over its body (R45). -/
theorem packWord_fields (w nx : W64) : packWord (fld w 58 6) (hdrOf w nx) (wMod w) (fld w 40 8) (fld w 0 40) = w := by
  have h : packWord (fld w 58 6) (hdrOf w nx) (wMod w) (fld w 40 8) (fld w 0 40) = fld w 0 64 := by
    simp [packWord, hdrOf, wMod, wSafe]
  exact h.trans BitVec.extractLsb'_eq_self

/-- What the classes give, of the whole word. -/
theorem decodeFields_accepted (hd : decodeFields w nx = some i) : Accepted (fld w 58 6) (hdrOf w nx) w (wMinor w) i := by
  rw [decodeFields_eq] at hd
  rw [← ofNat_wMajor]
  exact decoderOf_accepted hd

/-- The three steps of R54. -/
theorem decode_eq_ok : decode w nx = .ok i ↔
    (∃ ms, minorsOf (wMajor w) = some ms ∧ ms.contains (wMinor w) = true) ∧ decodeFields w nx = some i ∧ WellFormed i = true := by
  unfold decode
  constructor
  · intro h
    repeat' split at h
    all_goals cases h
    exact ⟨⟨_, ‹_›, ‹_›⟩, ‹_›, ‹_›⟩
  · rintro ⟨⟨ms, hms, hm⟩, hd, hw⟩
    simp only [hms, hm, hd, hw, if_true]

theorem wellFormed_hdr (hi : WellFormed i = true) : ∃ h, i.hdr? = some h ∧ h.ok = true := by
  unfold WellFormed at hi
  split at hi
  case h_1 h hh => exact ⟨h, hh, (Bool.and_eq_true_iff.1 hi).1⟩
  case h_2 => cases hi

theorem Hdr.mask_shift_of_ok {h : Hdr} (ho : h.ok = true) : h.mask >>> 56 = 0 := by
  cases hs : h.safe <;> simp_all [Hdr.ok]

/-- Settles O6: the header that the instruction carries is the one read from the word, and `WellFormed` has checked it. -/
theorem decodedInstructionsAreWellFormed : Obligations.DecodedInstructionsAreWellFormed := by
  unfold Obligations.DecodedInstructionsAreWellFormed
  intro w nx i hd
  obtain ⟨-, hf, hi⟩ := decode_eq_ok.1 hd
  obtain ⟨h, hh, ho⟩ := wellFormed_hdr hi
  obtain rfl : h = hdrOf w nx := Option.some.inj (hh.symm.trans (decodeFields_accepted hf).hdr)
  exact ⟨hi, _, hh, rfl, rfl, Hdr.mask_shift_of_ok ho⟩

theorem encode_of_hdr (hh : i.hdr? = some h) : encode i = if h.safe then [encodeWord i, h.mask] else [encodeWord i] := by
  unfold encode
  rw [hh]

/-- Settles O5: the encoder packs the header, the minor, the mod and the body that stood in the word (`decodeFields_accepted`). -/
theorem acceptedWordsCarryNoOtherBit : Obligations.AcceptedWordsCarryNoOtherBit := by
  unfold Obligations.AcceptedWordsCarryNoOtherBit
  intro w nx i hd hne
  obtain ⟨-, hf, -⟩ := decode_eq_ok.1 hd
  obtain ⟨hh, -, hw⟩ := decodeFields_accepted hf
  have hw : encodeWord i = w := by rw [hw hne, ofNat_wMinor, packWord_fields]
  rw [encode_of_hdr hh, hw]
  show (if wSafe w then [w, if wSafe w then nx else 0] else [w]) = _
  split <;> rfl

end Sys2Proof
end

section
/-! Decoding the encoding of a well-formed instruction gives it back (R44, R45, R60, R63): the fields of a packed body, the instructions
class by class, and the statement EncodedInstructionsDecodeBack. -/
namespace Sys2Proof

/-! ### Fields of values side by side -/

@[simp] theorem extractLsb'_append_low {n m : Nat} (x : BitVec n) (y : BitVec m) {lo k : Nat} (h : lo + k ≤ m) :
    @BitVec.extractLsb' (no_index (n + m)) lo k (@HAppend.hAppend (BitVec n) (BitVec m) (no_index (BitVec (n + m))) _ x y) =
      y.extractLsb' lo k :=
  BitVec.extractLsb'_append_eq_of_add_le h

@[simp] theorem extractLsb'_append_high {n m : Nat} (x : BitVec n) (y : BitVec m) {lo k : Nat} (h : m ≤ lo) :
    @BitVec.extractLsb' (no_index (n + m)) lo k (@HAppend.hAppend (BitVec n) (BitVec m) (no_index (BitVec (n + m))) _ x y) =
      x.extractLsb' (lo - m) k :=
  BitVec.extractLsb'_append_eq_of_le h

@[simp] theorem getLsbD_append_low {n m : Nat} (x : BitVec n) (y : BitVec m) {k : Nat} (h : k < m) :
    @BitVec.getLsbD (no_index (n + m)) (@HAppend.hAppend (BitVec n) (BitVec m) (no_index (BitVec (n + m))) _ x y) k = y.getLsbD k := by
  rw [BitVec.getLsbD_append, if_pos h]

@[simp] theorem getLsbD_append_high {n m : Nat} (x : BitVec n) (y : BitVec m) {k : Nat} (h : m ≤ k) :
    @BitVec.getLsbD (no_index (n + m)) (@HAppend.hAppend (BitVec n) (BitVec m) (no_index (BitVec (n + m))) _ x y) k =
      x.getLsbD (k - m) := by
  rw [BitVec.getLsbD_append, if_neg (by omega)]

theorem extractLsb'_eq_iff {n : Nat} (b : BitVec n) (lo k : Nat) (c : BitVec k) :
    b.extractLsb' lo k = c ↔ ∀ i < k, b.getLsbD (lo + i) = c.getLsbD i := by
  constructor
  · rintro rfl i hi
    simp [hi]
  · exact fun h => BitVec.eq_of_getLsbD_eq fun i hi => by simp [hi, h i hi]

/-- A field across the seam of two values holds a code when each of its two parts does. -/
theorem extractLsb'_append_eq_iff {n m : Nat} (x : BitVec n) (y : BitVec m) (lo k : Nat) (c : BitVec k) :
    (x ++ y).extractLsb' lo k = c ↔ x.extractLsb' (lo - m) (k - (m - lo)) = c.extractLsb' (m - lo) (k - (m - lo)) ∧
      y.extractLsb' lo (min k (m - lo)) = c.extractLsb' 0 (min k (m - lo)) := by
  simp only [extractLsb'_eq_iff, BitVec.getLsbD_append, BitVec.getLsbD_extractLsb']
  constructor
  · intro h
    constructor
    · intro i hi
      have := h (m - lo + i) (by omega)
      rw [if_neg (by omega)] at this
      simpa [hi, show lo + (m - lo + i) - m = lo - m + i by omega] using this
    · intro i hi
      have := h i (by omega)
      rw [if_pos (by omega)] at this
      simpa [hi] using this
  · rintro ⟨hx, hy⟩ i hi
    split
    · simpa [show i < min k (m - lo) by omega] using hy i (by omega)
    · have := hx (i - (m - lo)) (by omega)
      simpa [show i - (m - lo) < k - (m - lo) by omega, show lo - m + (i - (m - lo)) = lo + i - m by omega,
        show m - lo + (i - (m - lo)) = i by omega] using this

@[simp] theorem zf_zero {n : Nat} : zf (0#n) = some () := if_pos rfl

theorem zf_eq_bind {n n' n'' : Nat} {a : BitVec n} {b : BitVec n'} {c : BitVec n''} (h : a = 0#n ↔ b = 0#n' ∧ c = 0#n'') :
    zf a = (zf b).bind fun _ => zf c := by
  by_cases hb : b = 0#n' <;> by_cases hc : c = 0#n'' <;> simp [zf, h, hb, hc]

/-- The check of a fixed code across the seam of two values is the check of its two parts. -/
@[simp] theorem zf_append_xor {n m : Nat} (x : BitVec n) (y : BitVec m) (lo k : Nat) (c : BitVec k) :
    zf (@BitVec.extractLsb' (no_index (n + m)) lo k (@HAppend.hAppend (BitVec n) (BitVec m) (no_index (BitVec (n + m))) _ x y) ^^^ c) =
      (zf (x.extractLsb' (lo - m) (k - (m - lo)) ^^^ c.extractLsb' (m - lo) (k - (m - lo)))).bind
        fun _ => zf (y.extractLsb' lo (min k (m - lo)) ^^^ c.extractLsb' 0 (min k (m - lo))) := by
  apply zf_eq_bind
  simp only [BitVec.xor_eq_zero_iff]
  exact extractLsb'_append_eq_iff x y lo k c

/-- So is the check that the bits are zero. -/
@[simp] theorem zf_append {n m : Nat} (x : BitVec n) (y : BitVec m) (lo k : Nat) :
    zf (@BitVec.extractLsb' (no_index (n + m)) lo k (@HAppend.hAppend (BitVec n) (BitVec m) (no_index (BitVec (n + m))) _ x y)) =
      (zf (x.extractLsb' (lo - m) (k - (m - lo)))).bind fun _ => zf (y.extractLsb' lo (min k (m - lo))) := by
  simpa [-zf_append_xor] using zf_append_xor x y lo k 0

/-- The check of the bits of a number. -/
@[simp] theorem zf_extractLsb'_ofNat (m v lo k : Nat) :
    zf ((BitVec.ofNat m v).extractLsb' lo k) = if (v % 2 ^ m) >>> lo % 2 ^ k = 0 then some () else none := by
  simp only [zf, ← BitVec.toNat_inj, BitVec.extractLsb'_toNat, BitVec.toNat_ofNat, BitVec.ofNat_eq_ofNat, Nat.zero_mod]

/-- The check of the bits of a number against those of another. -/
@[simp] theorem zf_extractLsb'_xor_ofNat (m v lo m' v' lo' k : Nat) :
    zf ((BitVec.ofNat m v).extractLsb' lo k ^^^ (BitVec.ofNat m' v').extractLsb' lo' k) =
      if (v % 2 ^ m) >>> lo % 2 ^ k = (v' % 2 ^ m') >>> lo' % 2 ^ k then some () else none := by
  simp only [zf, BitVec.ofNat_eq_ofNat, BitVec.xor_eq_zero_iff]
  simp only [← BitVec.toNat_inj, BitVec.extractLsb'_toNat, BitVec.toNat_ofNat]

/-! ### Register names and codes read back -/

@[simp] theorem sr8_s8 (r : SReg) : sr8 (s8 r) = some r := (sr8_eq_some _ _).2 rfl
@[simp] theorem pr8_p8 (r : PReg) : pr8 (p8 r) = some r := (pr8_eq_some _ _).2 rfl
@[simp] theorem cr8_c8 (r : CReg) : cr8 (c8 r) = some r := (cr8_eq_some _ _).2 rfl
@[simp] theorem tyOf_tyCode (t : Ty) : tyOf (tyCode t) = some t := (tyOf_eq_some _ _).2 rfl
@[simp] theorem scopeOf_scopeBits (sc : Scope) : scopeOf (scopeBits sc) = some sc := (scopeOf_eq_some _ _).2 rfl
@[simp] theorem widthOf_widthCode (wd : Width) : widthOf (widthCode wd) = some wd := (widthOf_eq_some _ _).2 rfl
@[simp] theorem condOf_condCode (k : Cond) : condOf (condCode k) = some k := (condOf_eq_some _ _).2 rfl
@[simp] theorem condCode_mod (k : Cond) {n : Nat} (hn : 6 ≤ n) : condCode k % n = condCode k :=
  Nat.mod_eq_of_lt (lt_of_lt_of_le (by cases k <;> decide) hn)
@[simp] theorem fcondOf_fcondCode (k : FCond) : fcondOf (fcondCode k) = some k := (fcondOf_eq_some _ _).2 rfl
@[simp] theorem rmOf_rmCode (r : Rm) : rmOf (rmCode r) = some r := (rmOf_eq_some _ _).2 rfl
@[simp] theorem redOf_redCode (o : RedOp) : redOf (redCode o) = some o := (redOf_eq_some _ _).2 rfl
@[simp] theorem voteOf_voteCode (m : VoteMode) : voteOf (voteCode m) = some m := (voteOf_eq_some _ _).2 rfl
@[simp] theorem wctrOf_wctrCode (m : WctrMode) : wctrOf (wctrCode m) = some m := (wctrOf_eq_some _ _).2 rfl
@[simp] theorem fenceOf_fenceCode (m : FenceMode) : fenceOf (fenceCode m) = some m := (fenceOf_eq_some _ _).2 rfl
@[simp] theorem smoviMode_smoviBits (k : Option (BitVec 2)) : smoviMode (smoviBits k) = some k := (smoviMode_eq_some _ _).2 rfl
@[simp] theorem waitSelOf_waitSelCode (s : WaitSel) : waitSelOf (waitSelCode s) = some s := (waitSelOf_eq_some _ _).2 rfl
@[simp] theorem ctOf_ctCode (ct : CodeTy) : ctOf (ctCode ct) = ct := by cases ct <;> rfl
@[simp] theorem subOf_subCode (m : SubMode) : subOf (subCode m) = m := by cases m <;> rfl

/-! ### Operands of a packed word -/

/-- The encoder packs `i` under the header `h`, and the decoder of the word's major makes `i` of the packed word again. -/
def ReadsBack (i : Instr) (h : Hdr) : Prop :=
  ∃ maj mod min body, encodeWord i = packWord maj h mod min body ∧
    decoderOf maj.toNat h (packWord maj h mod min body) min.toNat = some i

variable {i : Instr} {h : Hdr} {nx : W64}

@[simp] theorem mod0_packWord (maj : BitVec 6) (min : BitVec 8) (body : BitVec 40) : mod0 (packWord maj h 0#5 min body) = some () := by
  rw [mod0_eq_some, wMod_packWord]
  rfl

@[simp] theorem zeroBits_packWord (maj : BitVec 6) (mod : BitVec 5) (min : BitVec 8) (body : BitVec 40) {lo n : Nat} (hn : lo + n ≤ 40) :
    ZeroBits (packWord maj h mod min body) lo n ↔ zf (body.extractLsb' lo n) = some () := by
  rw [← fld_packWord maj h mod min body lo n hn, zf_fld_eq_some]

@[simp] theorem vX_packWord (maj : BitVec 6) (min : BitVec 8) (t : Ty) (d a : VReg) (b : VImm) (k : Ty → VReg → VReg → VImm → Instr) :
    vX k (packWord maj h (tyCode t) min (bodyI d a (vimmBits b))) = some (k t d a b) := by
  cases b <;> simp [-BitVec.getLsbD_eq_getElem, -vX_eq_some, vX, vimmOf, bodyI, vimmBits, fld_packWord, bit_packWord]

@[simp] theorem memOffOf_packWord (maj : BitVec 6) (mod : BitVec 5) (min d : BitVec 8) (c : CReg) (x : MemOff)
    (disp : W16) :
    memOffOf (packWord maj h mod min (memBody d c disp x)) = some x := by
  cases x <;> simp [-BitVec.getLsbD_eq_getElem, memOffOf, memBody, bodyM, fld_packWord, bit_packWord]

@[simp] theorem memBody_fields (d : BitVec 8) (c : CReg) (x : MemOff) (disp : W16) :
    (memBody d c disp x).extractLsb' 32 8 = d ∧ (memBody d c disp x).extractLsb' 28 4 = c ∧ (memBody d c disp x).extractLsb' 16 2 = 0 ∧
      (memBody d c disp x).extractLsb' 0 16 = disp := by
  cases x <;> simp [memBody, bodyM]

/-! ### The instructions, class by class -/

/-- The sequencer, the handles and the barriers. -/
@[simp] theorem readsBack_sequencer :
    ReadsBack (.nop h) h ∧ (∀ l, ReadsBack (.want h l) h) ∧ (∀ a, ReadsBack (.wantVector h a) h) ∧
    (∀ neg a l, ReadsBack (.wants h neg a l) h) ∧ (∀ n l, ReadsBack (.wanth h n l) h) ∧ ReadsBack (.exit h) h ∧
    (∀ f, ReadsBack (.call h f) h) ∧ ReadsBack (.ret h) h ∧ ReadsBack (.yield h) h ∧
    (∀ d f e a c n m, ReadsBack (.spawn h d f e a c n m) h) ∧ (∀ d c o, ReadsBack (.launch h d c o) h) ∧
    (∀ code, ReadsBack (.trap h code) h) ∧ (∀ code, ReadsBack (.brk h code) h) ∧ (∀ d n, ReadsBack (.hwait h d n) h) ∧
    (∀ d n, ReadsBack (.htest h d n) h) ∧ (∀ n, ReadsBack (.hcancel h n) h) ∧ (∀ d n, ReadsBack (.hmov h d n) h) ∧
    (∀ sel n, ReadsBack (.waitcnt h sel n) h) ∧ (∀ t, ReadsBack (.barwt h t) h) ∧ (∀ d t, ReadsBack (.bartry h d t) h) ∧
    (∀ d, ReadsBack (.phase h d) h) := by
  and_intros <;> intros <;> refine ⟨_, _, _, _, rfl, ?_⟩
  all_goals simp (disch := decide) [-BitVec.getLsbD_eq_getElem, decoderOf, fld_packWord, bit_packWord, bit, bodyI, bodyE, bodyY, decSeq,
    decSys3, decHnd, decBar]

/-- Scalar arithmetic and moves. -/
@[simp] theorem readsBack_scalar :
    (∀ t d a b, ReadsBack (.sadd h t d a b) h) ∧ (∀ t d a b, ReadsBack (.ssub h t d a b) h) ∧ (∀ t d a b, ReadsBack (.smul h t d a b) h) ∧
    (∀ t d a b, ReadsBack (.smulh h t d a b) h) ∧ (∀ t d a b, ReadsBack (.sand h t d a b) h) ∧ (∀ t d a b, ReadsBack (.sor h t d a b) h) ∧
    (∀ t d a b, ReadsBack (.sxor h t d a b) h) ∧ (∀ t d a b, ReadsBack (.sshl h t d a b) h) ∧ (∀ t d a b, ReadsBack (.sshr h t d a b) h) ∧
    (∀ t d a b, ReadsBack (.ssra h t d a b) h) ∧ (∀ t d a b, ReadsBack (.smin h t d a b) h) ∧ (∀ t d a b, ReadsBack (.smax h t d a b) h) ∧
    (∀ t d a b c, ReadsBack (.ssel h t d a b c) h) ∧ (∀ t d a b cond, ReadsBack (.scmp h t d a b cond) h) ∧
    (∀ t d a i, ReadsBack (.saddi h t d a i) h) ∧ (∀ t d a i, ReadsBack (.sandi h t d a i) h) ∧
    (∀ t d a i, ReadsBack (.sori h t d a i) h) ∧ (∀ t d a i, ReadsBack (.sxori h t d a i) h) ∧
    (∀ t d a n, ReadsBack (.sshli h t d a n) h) ∧ (∀ t d a n arith, ReadsBack (.sshri h t d a n arith) h) ∧
    (∀ t d a cond i, ReadsBack (.scmpi h t d a cond i) h) ∧ (∀ t d k i, ReadsBack (.smovi h t d k i) h) ∧
    (∀ d a, ReadsBack (.smov h d a) h) ∧ (∀ sr a, ReadsBack (.sets h sr a) h) ∧ (∀ d k, ReadsBack (.sldk h d k) h) := by
  and_intros <;> intros <;> refine ⟨_, _, _, _, rfl, ?_⟩
  all_goals simp (disch := decide) [-BitVec.getLsbD_eq_getElem, decoderOf, fld_packWord, bit_packWord, bit, bodyA, bodyI, bodyY, decSca,
    decScaI, decMov, sABT]

/-- Vector integer arithmetic. -/
@[simp] theorem readsBack_vector :
    (∀ t d a b, ReadsBack (.vadd h t d a b) h) ∧ (∀ t d a b, ReadsBack (.vsub h t d a b) h) ∧ (∀ t d a b, ReadsBack (.vmul h t d a b) h) ∧
    (∀ t d a b, ReadsBack (.vmulh h t d a b) h) ∧ (∀ t d a b c, ReadsBack (.vmad h t d a b c) h) ∧
    (∀ t d a b, ReadsBack (.vand h t d a b) h) ∧ (∀ t d a b, ReadsBack (.vor h t d a b) h) ∧ (∀ t d a b, ReadsBack (.vxor h t d a b) h) ∧
    (∀ t d a, ReadsBack (.vnot h t d a) h) ∧ (∀ t d a b, ReadsBack (.vshl h t d a b) h) ∧ (∀ t d a b, ReadsBack (.vshr h t d a b) h) ∧
    (∀ t d a b, ReadsBack (.vsra h t d a b) h) ∧ (∀ t d a b, ReadsBack (.vmin h t d a b) h) ∧ (∀ t d a b, ReadsBack (.vmax h t d a b) h) ∧
    (∀ t d a, ReadsBack (.vabs h t d a) h) ∧ (∀ t d a, ReadsBack (.vclz h t d a) h) ∧ (∀ t d a, ReadsBack (.vpopc h t d a) h) ∧
    (∀ t d a b, ReadsBack (.vadds h t d a b) h) ∧ (∀ t d a b, ReadsBack (.vsubs h t d a b) h) ∧
    (∀ t d a b, ReadsBack (.vaddX h t d a b) h) ∧ (∀ t d a b, ReadsBack (.vsubX h t d a b) h) ∧
    (∀ t d a b, ReadsBack (.vmulX h t d a b) h) ∧ (∀ t d a b, ReadsBack (.vmulhX h t d a b) h) ∧
    (∀ t d a b, ReadsBack (.vandX h t d a b) h) ∧ (∀ t d a b, ReadsBack (.vorX h t d a b) h) ∧
    (∀ t d a b, ReadsBack (.vxorX h t d a b) h) ∧ (∀ t d a b, ReadsBack (.vshlX h t d a b) h) ∧
    (∀ t d a b, ReadsBack (.vshrX h t d a b) h) ∧ (∀ t d a b, ReadsBack (.vsraX h t d a b) h) ∧
    (∀ t d a b, ReadsBack (.vminX h t d a b) h) ∧ (∀ t d a b, ReadsBack (.vmaxX h t d a b) h) ∧
    (∀ t d a b, ReadsBack (.vaddsX h t d a b) h) ∧ (∀ t d a b, ReadsBack (.vsubsX h t d a b) h) := by
  and_intros <;> intros <;> refine ⟨_, _, _, _, rfl, ?_⟩
  all_goals simp (disch := decide) [-BitVec.getLsbD_eq_getElem, decoderOf, fld_packWord, bodyA, decVec, decVecX]

/-- Comparison, predicates and lanes. -/
@[simp] theorem readsBack_lane :
    (∀ t d a b cond, ReadsBack (.vcmp h t d a b cond) h) ∧ (∀ t d a b c, ReadsBack (.vsel h t d a b c) h) ∧
    (∀ d a b, ReadsBack (.pand h d a b) h) ∧ (∀ d a b, ReadsBack (.por h d a b) h) ∧ (∀ d a b, ReadsBack (.pxor h d a b) h) ∧
    (∀ d a, ReadsBack (.pnot h d a) h) ∧ (∀ d a, ReadsBack (.pmov h d a) h) ∧ (∀ d a, ReadsBack (.pset h d a) h) ∧
    (∀ d a, ReadsBack (.pcnt h d a) h) ∧ (∀ t d a, ReadsBack (.rdfl h t d a) h) ∧ (∀ d a m, ReadsBack (.vote h d a m) h) ∧
    (∀ t d a op, ReadsBack (.reduce h t d a op) h) ∧ (∀ t d a op excl, ReadsBack (.scan h t d a op excl) h) ∧
    (∀ d a b, ReadsBack (.sample h d a b) h) := by
  and_intros <;> intros <;> refine ⟨_, _, _, _, rfl, ?_⟩
  all_goals simp (disch := decide) [-BitVec.getLsbD_eq_getElem, decoderOf, fld_packWord, bit_packWord, bit, bodyA, decCmp, decPrd, decXln]

/-- Floating point, conversions and block formats. -/
@[simp] theorem readsBack_float :
    (∀ t r d a b, ReadsBack (.fadd h t r d a b) h) ∧ (∀ t r d a b, ReadsBack (.fsub h t r d a b) h) ∧
    (∀ t r d a b, ReadsBack (.fmul h t r d a b) h) ∧ (∀ t r d a b c, ReadsBack (.ffma h t r d a b c) h) ∧
    (∀ t d a b, ReadsBack (.fmin h t d a b) h) ∧ (∀ t d a b, ReadsBack (.fmax h t d a b) h) ∧ (∀ t d a, ReadsBack (.fabs h t d a) h) ∧
    (∀ t d a, ReadsBack (.fneg h t d a) h) ∧ (∀ t d a b cond slot, ReadsBack (.fcmp h t d a b cond slot) h) ∧
    (∀ t d a, ReadsBack (.fclass h t d a) h) ∧ (∀ t d a, ReadsBack (.frcp h t d a) h) ∧ (∀ t d a, ReadsBack (.frsq h t d a) h) ∧
    (∀ t r d a, ReadsBack (.fsqrt h t r d a) h) ∧ (∀ t d a, ReadsBack (.fexp2 h t d a) h) ∧ (∀ t d a, ReadsBack (.flog2 h t d a) h) ∧
    (∀ t d a, ReadsBack (.fsin h t d a) h) ∧ (∀ t d a, ReadsBack (.fcos h t d a) h) ∧ (∀ t d a, ReadsBack (.ftanh h t d a) h) ∧
    (∀ d mask, ReadsBack (.fstat h d mask) h) ∧ (∀ d mode, ReadsBack (.fmode h d mode) h) ∧
    (∀ src dst r d a ss ds, ReadsBack (.cvt h src dst r d a ss ds) h) ∧ (∀ src dst d a ss ds, ReadsBack (.cvtsr h src dst d a ss ds) h) ∧
    (∀ t d a bs ct, ReadsBack (.qscale h t d a bs ct) h) ∧ (∀ t r d a b bs, ReadsBack (.qpack h t r d a b bs) h) ∧
    (∀ t d a b bs, ReadsBack (.qunpk h t d a b bs) h) ∧ (∀ t d a, ReadsBack (.plane h t d a) h) := by
  and_intros <;> intros <;> refine ⟨_, _, _, _, rfl, ?_⟩
  all_goals simp (disch := decide) [-BitVec.getLsbD_eq_getElem, decoderOf, fld_packWord, bit_packWord, bit, bodyA, decFlt, decFCm, decSpc,
    decFSt, decCvt, decQfm]

/-- The scratchpad. -/
@[simp] theorem readsBack_scratch :
    (∀ w d c x disp, ReadsBack (.lds h w d c x disp) h) ∧ (∀ w d c x disp, ReadsBack (.sts h w d c x disp) h) ∧
    (∀ sc d c x disp, ReadsBack (.atomsAdd h sc d c x disp) h) ∧ (∀ sc d c x disp, ReadsBack (.atomsAnd h sc d c x disp) h) ∧
    (∀ sc d c x disp, ReadsBack (.atomsOr h sc d c x disp) h) ∧ (∀ sc d c x disp, ReadsBack (.atomsXor h sc d c x disp) h) ∧
    (∀ sc d c x disp, ReadsBack (.atomsMin h sc d c x disp) h) ∧ (∀ sc d c x disp, ReadsBack (.atomsMax h sc d c x disp) h) ∧
    (∀ sc d c x disp, ReadsBack (.atomsExch h sc d c x disp) h) ∧ (∀ sc d c x disp, ReadsBack (.atomsCas h sc d c x disp) h) ∧
    (∀ sc d c x disp, ReadsBack (.atomsFadd h sc d c x disp) h) := by
  and_intros <;> intros <;> refine ⟨_, _, _, _, rfl, ?_⟩
  all_goals simp (disch := decide) [-BitVec.getLsbD_eq_getElem, decoderOf, fld_packWord, decScr, decAts]

/-- Tags and capabilities. -/
@[simp] theorem readsBack_capability :
    (∀ d x, ReadsBack (.tagset h d x) h) ∧ (∀ d, ReadsBack (.taginv h d) h) ∧ (∀ d c x, ReadsBack (.capsub h d c x) h) ∧
    (∀ d c m, ReadsBack (.capperm h d c m) h) ∧ (∀ d c f, ReadsBack (.capget h d c f) h) ∧ (∀ d c x, ReadsBack (.capoff h d c x) h) := by
  and_intros <;> intros <;> refine ⟨_, _, _, _, rfl, ?_⟩
  all_goals simp (disch := decide) [-BitVec.getLsbD_eq_getElem, decoderOf, fld_packWord, bodyM, decTag, decCap]

/-- Copies, queues, atomics and ordering. -/
@[simp] theorem readsBack_engine :
    (∀ t d g s a b c out plane, ReadsBack (.copy h t d g s a b c out plane) h) ∧
    (∀ t d g s a b c i, ReadsBack (.gather h t d g s a b c i) h) ∧ (∀ t d g s a b c i, ReadsBack (.scatter h t d g s a b c i) h) ∧
    (∀ t k c o s n, ReadsBack (.qld h t k c o s n) h) ∧ (∀ t k c o s n, ReadsBack (.qst h t k c o s n) h) ∧
    (∀ k, ReadsBack (.qclose h k) h) ∧ (∀ d k, ReadsBack (.qres h d k) h) ∧
    (∀ sc d b c o big sg acq, ReadsBack (.atomgAdd h sc d b c o big sg acq) h) ∧
    (∀ sc d b c o big sg acq, ReadsBack (.atomgAnd h sc d b c o big sg acq) h) ∧
    (∀ sc d b c o big sg acq, ReadsBack (.atomgOr h sc d b c o big sg acq) h) ∧
    (∀ sc d b c o big sg acq, ReadsBack (.atomgXor h sc d b c o big sg acq) h) ∧
    (∀ sc d b c o big sg acq, ReadsBack (.atomgMin h sc d b c o big sg acq) h) ∧
    (∀ sc d b c o big sg acq, ReadsBack (.atomgMax h sc d b c o big sg acq) h) ∧
    (∀ sc d b c o big sg acq, ReadsBack (.atomgExch h sc d b c o big sg acq) h) ∧
    (∀ sc d b c o sw big sg acq, ReadsBack (.atomgCas h sc d b c o sw big sg acq) h) ∧
    (∀ sc d b c o acq, ReadsBack (.atomgFadd h sc d b c o acq) h) ∧ (∀ sc m, ReadsBack (.fence h sc m) h) ∧
    (∀ sc, ReadsBack (.commit h sc) h) ∧ (∀ d a b n, ReadsBack (.enq h d a b n) h) ∧ (∀ a b, ReadsBack (.deq h a b) h) := by
  and_intros <;> intros <;> refine ⟨_, _, _, _, rfl, ?_⟩
  all_goals simp (disch := decide) [-BitVec.getLsbD_eq_getElem, decoderOf, fld_packWord, bit_packWord, bit, bodyI, bodyE, decCpy, decQue,
    decAtg, decOrd, decStq, atgX]

/-- The matrix unit, names, windows and sorting. -/
@[simp] theorem readsBack_matrix :
    (∀ t d v c s w o bsa bsb, ReadsBack (.mma h t d v c s w o bsa bsb) h) ∧ (∀ a q, ReadsBack (.mtbl h a q) h) ∧ ReadsBack (.mtblsw h) h ∧
    (∀ d c n o l, ReadsBack (.fetchn h d c n o l) h) ∧ (∀ d c n o l, ReadsBack (.pubn h d c n o l) h) ∧
    (∀ d c n o l, ReadsBack (.sealn h d c n o l) h) ∧ (∀ d n, ReadsBack (.stopref h d n) h) ∧
    (∀ d n st m, ReadsBack (.subn h d n st m) h) ∧ (∀ t d c o w tg, ReadsBack (.put h t d c o w tg) h) ∧
    (∀ d w v m, ReadsBack (.wctr h d w v m) h) ∧ (∀ d c w s ct, ReadsBack (.ared h d c w s ct) h) ∧
    (∀ t d ca cb w p q, ReadsBack (.a2av h t d ca cb w p q) h) ∧ (∀ t v p, ReadsBack (.xchg h t v p) h) ∧
    (∀ d c k cn n, ReadsBack (.sortk h d c k cn n) h) := by
  and_intros <;> intros <;> refine ⟨_, _, _, _, rfl, ?_⟩
  all_goals simp (disch := decide) [-BitVec.getLsbD_eq_getElem, decoderOf, fld_packWord, bodyE, decMat, decNam, decWin, decSrt]

/-- Tracing and power. -/
@[simp] theorem readsBack_system :
    (∀ a tag, ReadsBack (.trace h a tag) h) ∧ (∀ sc d, ReadsBack (.icinv h sc d) h) ∧ (∀ d a seat, ReadsBack (.prd h d a seat) h) ∧
    (∀ d a seat, ReadsBack (.pwr h d a seat) h) ∧ (∀ d k, ReadsBack (.haltb h d k) h) := by
  and_intros <;> intros <;> refine ⟨_, _, _, _, rfl, ?_⟩
  all_goals simp (disch := decide) [-BitVec.getLsbD_eq_getElem, decoderOf, fld_packWord, bit_packWord, bit, bodyY, decDbg]

/-! An operand that is encoded in several forms is taken form by form. -/

@[simp] theorem readsBack_barinit {b n} : ReadsBack (.barinit h b n) h := by
  cases n <;> refine ⟨_, _, _, _, rfl, ?_⟩ <;> simp (disch := decide) [-BitVec.getLsbD_eq_getElem, decoderOf, fld_packWord, bit_packWord,
    bodyI, decBar, barCountOf, barBody]

@[simp] theorem readsBack_bararr {d b n} : ReadsBack (.bararr h d b n) h := by
  cases n <;> refine ⟨_, _, _, _, rfl, ?_⟩ <;> simp (disch := decide) [-BitVec.getLsbD_eq_getElem, decoderOf, fld_packWord, bit_packWord,
    bodyI, decBar, barCountOf, barBody]

@[simp] theorem readsBack_gets {d sr} : ReadsBack (.gets h d sr) h := by
  cases d <;> refine ⟨_, _, _, _, rfl, ?_⟩ <;> simp (disch := decide) [-BitVec.getLsbD_eq_getElem, decoderOf, fld_packWord, bit_packWord,
    bodyY, decMov]

@[simp] theorem readsBack_vmov {t d a} : ReadsBack (.vmov h t d a) h := by
  cases a <;> refine ⟨_, _, _, _, rfl, ?_⟩ <;> simp (disch := decide) [-BitVec.getLsbD_eq_getElem, decoderOf, fld_packWord, bit_packWord,
    bodyA, decCmp]

@[simp] theorem readsBack_shfl {t d a m} : ReadsBack (.shfl h t d a m) h := by
  cases m <;> refine ⟨_, _, _, _, rfl, ?_⟩ <;> simp (disch := decide) [-BitVec.getLsbD_eq_getElem, decoderOf, fld_packWord, bodyA, decXln,
    shflOf, shflBody]

@[simp] theorem readsBack_taglk {f} : ReadsBack (.taglk h f) h := by
  cases f <;> refine ⟨_, _, _, _, rfl, ?_⟩ <;> simp (disch := decide) [-BitVec.getLsbD_eq_getElem, decoderOf, fld_packWord, bit_packWord,
    bodyM, decTag]

@[simp] theorem readsBack_capld {d c x disp} : ReadsBack (.capld h d c x disp) h := by
  cases x <;> refine ⟨_, _, _, _, rfl, ?_⟩ <;> simp (disch := decide) [-BitVec.getLsbD_eq_getElem, decoderOf, fld_packWord, bit_packWord,
    bodyM, decCap, capBody, capOffOf, memOffOf]

@[simp] theorem readsBack_capst {d c x disp} : ReadsBack (.capst h d c x disp) h := by
  cases x <;> refine ⟨_, _, _, _, rfl, ?_⟩ <;> simp (disch := decide) [-BitVec.getLsbD_eq_getElem, decoderOf, fld_packWord, bit_packWord,
    bodyM, decCap, capBody, capOffOf, memOffOf]

@[simp] theorem readsBack_pagereq {d f} : ReadsBack (.pagereq h d f) h := by
  cases f <;> refine ⟨_, _, _, _, rfl, ?_⟩ <;> simp (disch := decide) [-BitVec.getLsbD_eq_getElem, decoderOf, fld_packWord, bodyE, decPag]

@[simp] theorem readsBack_baton {m} : ReadsBack (.baton h m) h := by
  cases m <;> refine ⟨_, _, _, _, rfl, ?_⟩ <;> simp (disch := decide) [-BitVec.getLsbD_eq_getElem, decoderOf, fld_packWord, bodyE, decMat]

@[simp] theorem readsBack_rdctr {d n seat} : ReadsBack (.rdctr h d n seat) h := by
  cases seat <;> refine ⟨_, _, _, _, rfl, ?_⟩ <;> simp (disch := decide) [-BitVec.getLsbD_eq_getElem, decoderOf, fld_packWord,
    bit_packWord, bodyY, decDbg]

@[simp] theorem readsBack_tlbinv {sc d a} : ReadsBack (.tlbinv h sc d a) h := by
  cases a <;> refine ⟨_, _, _, _, rfl, ?_⟩ <;> simp (disch := decide) [-BitVec.getLsbD_eq_getElem, decoderOf, fld_packWord, bit_packWord,
    bodyY, decDbg]

@[simp] theorem readsBack_eret {m} : ReadsBack (.eret h m) h := by
  cases m <;> refine ⟨_, _, _, _, rfl, ?_⟩ <;> simp (disch := decide) [-BitVec.getLsbD_eq_getElem, decoderOf, fld_packWord, bodyY, decDbg]

/-- Every instruction that has a header reads back; the device events have none. -/
theorem readsBack {i : Instr} (hh : i.hdr? = some h) : ReadsBack i h := by
  cases i <;> cases hh <;> simp

/-! ### A word and the bytes that hold it (R44, R60) -/

@[simp] theorem wordOfBytes_append (w : W64) (l : List W8) : wordOfBytes (bytesOfWord w ++ l) = w := by
  have h : wordOfBytes (bytesOfWord w ++ l) = fld w 0 64 := by
    simp [wordOfBytes, bytesOfWord]
  exact h.trans BitVec.extractLsb'_eq_self

@[simp] theorem drop_bytesOfWord (w : W64) (l : List W8) : (bytesOfWord w ++ l).drop 8 = l := rfl

/-- Under S the word after is the mask; without it the word after is not read, and a well-formed header has mask 0. -/
theorem hdrOf_packWord_of_ok (ho : h.ok = true) (hn : h.safe = true → nx = h.mask) (maj : BitVec 6) (mod : BitVec 5) (min : BitVec 8)
    (body : BitVec 40) : hdrOf (packWord maj h mod min body) nx = h := by
  have hm := hdrOf_packWord maj h mod min body (Hdr.ok_mask ho)
  cases hs : h.safe
  case true => rw [hn hs, hm]
  case false =>
    have hx : hdrOf (packWord maj h mod min body) nx = hdrOf (packWord maj h mod min body) h.mask := by
      simp [hdrOf, hs]
    rw [hx, hm]

/-- The word of a well-formed instruction decodes to it, its mask as the word after where S is set. -/
theorem decode_encodeWord (hi : WellFormed i = true) (hh : i.hdr? = some h) (ho : h.ok = true) (hn : h.safe = true → nx = h.mask) :
    decode (encodeWord i) nx = .ok i ∧ wSafe (encodeWord i) = h.safe := by
  obtain ⟨maj, mod, min, body, he, hd⟩ := readsBack hh
  have hf : decodeFields (encodeWord i) nx = some i := by
    rw [decodeFields_eq, he, hdrOf_packWord_of_ok ho hn, wMajor_packWord, wMinor_packWord, hd]
  exact ⟨decode_eq_ok.2 ⟨(decodeFields_accepted hf).assigned, hf, hi⟩, by rw [he, wSafe_packWord]⟩

/-- Settles O4: the words' bytes give the words back, and each instruction reads back from the fields of its word (`readsBack`). -/
theorem encodedInstructionsDecodeBack : Obligations.EncodedInstructionsDecodeBack := by
  unfold Obligations.EncodedInstructionsDecodeBack
  intro i rest hi
  obtain ⟨h, hh, ho⟩ := wellFormed_hdr hi
  refine ⟨_, rfl, ?_⟩
  rw [encode_of_hdr hh]
  cases hs : h.safe
  case true =>
    obtain ⟨hd, hw⟩ := decode_encodeWord hi hh ho fun _ => rfl
    have h16 (l : List W8) : l.drop 16 = (l.drop 8).drop 8 := by rw [List.drop_drop]
    simp [decodeBytes, hd, hw, hs, h16]
  case false =>
    obtain ⟨hd, hw⟩ := decode_encodeWord (nx := wordOfBytes rest) hi hh ho fun h => by simp [hs] at h
    simp [decodeBytes, hd, hw, hs]

end Sys2Proof
end

section
/-! The instruction of a step (R54): the statements StepRunsDecodedInstruction, IllegalWordTrapsWithoutEffect and
DecodedWordsOfTheManual. -/
namespace Sys2Proof.Machine
open Sys2Proof

/-- Settles O1: the turn of the group fetches the word, and an instruction that is fetched is executed. -/
theorem stepRunsDecodedInstruction : Obligations.StepRunsDecodedInstruction := by
  unfold Obligations.StepRunsDecodedInstruction
  intro s u k n v i ha hn hv he ho hend hb hp hd
  have hf : fetch v = .instr i := by rw [fetch_decode hend hb hp, hd]
  rw [step_turn ha hn, turn_instr hv he ho hf]

/-- Settles O2: a word that is rejected is a trap of class 0, and a trap outside the handler context changes the fault record and the turn
alone. -/
theorem illegalWordTrapsWithoutEffect : Obligations.IllegalWordTrapsWithoutEffect := by
  unfold Obligations.IllegalWordTrapsWithoutEffect
  intro s u k n v e ha hn hv he ho hend hb hp hd f
  have hf : fetch v = .reject e := by rw [fetch_decode hend hb hp, hd]
  refine ⟨?_, takeTrap_block f⟩
  rw [step_turn ha hn, turn_reject hv he ho hf]

/-- Settles O3: the six words are decoded. -/
theorem decodedWordsOfTheManual : Obligations.DecodedWordsOfTheManual := by
  unfold Obligations.DecodedWordsOfTheManual
  decide

end Sys2Proof.Machine
end

section
/-! NOP, YIELD and EXIT (R80, R85, R86), TRAP and BRK (R90): the statements GroupControlResults and SystemTrapsFollowTheirWord. -/
namespace Sys2Proof.Machine
open Sys2Proof

/-! ### Completing with a lane left -/

/-- EXEC is a part of ACTIVE (R22). -/
theorem Issues.active_ne_zero {h : Hdr} {s : State} {v : View} (hi : Issues h s v) : v.g.active ≠ 0 := fun h0 =>
  hi.exec (by rw [execOf, h0]; exact BitVec.zero_and)

/-- An instruction that raises no flag and leaves a lane active only retires. -/
theorem settle_noFlags {h : Hdr} {v : View} (ha : v.g.active ≠ 0) : settle h v 0 = retire h v 0 :=
  settle_quiet ha (by rw [show (0 : BitVec 6) &&& v.g.ftrap = 0 from BitVec.zero_and]; decide)

theorem endIfEmpty_active {v : View} (ha : v.g.active ≠ 0) : endIfEmpty v = v := by
  rw [endIfEmpty, decide_eq_false ha, Bool.false_and]
  rfl

theorem sameRegisters_retire (h : Hdr) (v : View) (fl : BitVec 6) : SameRegisters (retire h v fl).g v.g := ⟨rfl, rfl, rfl, rfl, rfl, rfl⟩

/-! ### NOP and YIELD -/

theorem nop_ready {h : Hdr} {s : State} {v : View} (hi : Issues h s v) (ho : OperandsReady [] v) :
    exec (.nop h) s = .next (flush (retire h v 0)) := by
  simp only [exec, execNop, issue_scalar hi ho rfl, conclude_done, settle_noFlags hi.active_ne_zero]

theorem yield_ready {h : Hdr} {s : State} {v : View} (hi : Issues h s v) (ho : OperandsReady [] v) :
    exec (.yield h) s = .next (flush { settle h v 0 with g := { (settle h v 0).g with yield := 16 } }) :=
  issue_scalar hi ho rfl

/-! ### EXIT -/

/-- Records written one after another change nothing but the trace buffers. -/
theorem foldl_traced {α : Type} {p : α → Bool} {r : α → View → View}
    (hr : ∀ e u, ∃ cl, r e u = { u with st := { u.st with clusters := cl } }) (L : List α) (u : View) :
    ∃ cl, L.foldl (fun w e => if p e then r e w else w) u = { u with st := { u.st with clusters := cl } } := by
  induction L generalizing u with
  | nil => exact ⟨u.st.clusters, rfl⟩
  | cons e L ih =>
    rw [List.foldl_cons]
    split
    · obtain ⟨c1, h1⟩ := hr e u
      obtain ⟨c2, h2⟩ := ih (r e u)
      exact ⟨c2, by rw [h2, h1]⟩
    · exact ih u

/-- Dropping holds changes the partitions' hold slots and the trace buffers, nothing else (R85, R372). -/
theorem dropHolds_frame (v : View) (m : Lanes) :
    ∃ ps cl, dropHolds v m = { v with st := { v.st with parts := ps, clusters := cl } } := by
  simp only [dropHolds]
  split
  · obtain ⟨cl, hcl⟩ := foldl_traced (fun e u => ⟨_, rfl⟩) _ _
    exact ⟨_, cl, hcl⟩
  · exact ⟨_, v.st.clusters, rfl⟩

/-- From `v` to `w` the group has ended: every lane is DONE, the call frames are gone, and registers and memory are as they were (R85). -/
structure EndsGroup (v w : View) : Prop where
  run : w.g.run = .ended
  active : w.g.active = 0
  regs : SameRegisters w.g v.g
  frames : w.g.frames.length = min 1 v.g.frames.length
  lanes : ∀ k < 64, (laneAt w.g k).mode = .done
  scratch : w.b.scratch = v.b.scratch
  cellar : w.st.cellar = v.st.cellar
  pages : w.st.pages = v.st.pages

theorem exitGroup_ends (v : View) : EndsGroup v (exitGroup v) := by
  obtain ⟨ps, cl, hd⟩ := dropHolds_frame v allLanes
  rw [exitGroup, hd]
  have hw := walks_endGroup { v with
    st := { v.st with parts := ps, clusters := cl }
    g := { makeDone v.g allLanes with frames := (makeDone v.g allLanes).frames.drop ((makeDone v.g allLanes).frames.length - 1) } }
  refine ⟨rfl, rfl, hw.regs, ?_, fun k hk => ?_, by rw [hw.block], hw.cellar, hw.pages⟩
  · simp only [endGroup, makeDone, List.length_drop, List.length_map, mapLanes]
    omega
  · have hl : laneAt (makeDone v.g allLanes) k = doneLane := by
      rw [laneAt_makeDone v.g allLanes k hk, if_pos]
      rw [allLanes, BitVec.getLsbD_allOnes, decide_eq_true hk]
    exact congrArg LaneState.mode hl

theorem exit_ends {h : Hdr} {s : State} {v : View} (hi : Issues h s v) (ho : OperandsReady [] v) :
    ∃ w, exec (.exit h) s = completed h w 0 ∧ EndsGroup v w := by
  obtain ⟨cl, hc⟩ := wantTrace_frame v 5 (maskOf fun l => (laneAt v.g l).mode != .done) 0xFFFF 0 []
  have he := exitGroup_ends (wantTrace v 5 (maskOf fun l => (laneAt v.g l).mode != .done) 0xFFFF)
  refine ⟨_, issue_scalar hi ho rfl, ?_⟩
  rw [hc] at he ⊢
  exact ⟨he.run, he.active, he.regs, he.frames, he.lanes, he.scratch, he.cellar, he.pages⟩

/-- Settles O25: NOP retires, YIELD retires and yields, EXIT ends the group (`exit_ends`). -/
theorem groupControlResults : Obligations.GroupControlResults := by
  unfold Obligations.GroupControlResults
  intro h s v hi ho
  refine ⟨⟨_, nop_ready hi ho, sameRegisters_retire h v 0, rfl, rfl, rfl, BitVec.or_zero, rfl, rfl, rfl, rfl, rfl, rfl, rfl, rfl⟩,
    ⟨_, yield_ready hi ho, rfl⟩, ?_⟩
  obtain ⟨w, hx, he⟩ := exit_ends hi ho
  exact ⟨w, hx, he.run, he.active, he.regs, he.frames, he.lanes, he.scratch, he.cellar, he.pages⟩

/-! ### TRAP and BRK -/

/-- A system trap after an instruction that changes the state of the machine to `st` at most: the group retires it, and a block that is no
handler context and has no fault records the trap (R90, R333). -/
theorem conclude_after_block {h : Hdr} {v : View} {st : State} {cls code : Nat} {data : W64} (ha : v.g.active ≠ 0) (hn : isHandler v = false)
    (hf : v.b.fault = none) (he : v.b.ending = none) :
    conclude h v (.after { v with st := st } cls code data) =
      { retire h { v with st := st } 0 with b := { v.b with fault := some (faultAt v cls code 255 0 data) } } := by
  have hh : isHandler (retire h { v with st := st } 0) = false := hn
  rw [conclude_after, endIfEmpty_active (v := retire h { v with st := st } 0) ha, trapAfter_block _ hh,
    markFault_first (b := (retire h { v with st := st } 0).b) _ he hf]
  rfl

theorem trap_ready {h : Hdr} {k : BitVec 14} {s : State} {v : View} (hi : Issues h s v) (ho : OperandsReady [] v) :
    exec (.trap h k) s = .next (flush (conclude h v (.after { v with st := v.st } 3 1 (k.setWidth 64)))) :=
  issue_scalar hi ho rfl

/-- With debug enabled BRK writes at most a trace record and then traps (R90, R367). -/
theorem brk_debug {h : Hdr} {k : BitVec 14} {s : State} {v : View} (hi : Issues h s v) (ho : OperandsReady [] v)
    (hd : (pctl v.st v.b.part 0x11B).getLsbD 0 = true) :
    ∃ st, exec (.brk h k) s = .next (flush (conclude h v (.after { v with st := st } 3 2 (k.setWidth 64)))) := by
  simp only [exec, execBrk, issue_scalar hi ho rfl, hd, if_true]
  split
  · exact ⟨_, rfl⟩
  · exact ⟨v.st, rfl⟩

theorem brk_noDebug {h : Hdr} {k : BitVec 14} {s : State} {v : View} (hi : Issues h s v) (ho : OperandsReady [] v)
    (hd : (pctl v.st v.b.part 0x11B).getLsbD 0 = false) : exec (.brk h k) s = completed h v 0 := by
  simp only [exec, execBrk, issue_scalar hi ho rfl, hd]
  rfl

/-- Settles O32: TRAP, and BRK with debug enabled, are retired and then recorded as the block's fault (`conclude_after_block`). -/
theorem systemTrapsFollowTheirWord : Obligations.SystemTrapsFollowTheirWord := by
  unfold Obligations.SystemTrapsFollowTheirWord
  intro h k s v hi ho hn hf he ha after
  have recorded {i : Instr} {code : Nat} {st : State}
      (hx : exec i s = .next (flush (conclude h v (.after { v with st := st } 3 code (k.setWidth 64))))) : after i code := by
    rw [conclude_after_block ha hn hf he] at hx
    exact ⟨_, hx, rfl, rfl, sameRegisters_retire h v 0, rfl⟩
  refine ⟨recorded (trap_ready hi ho), fun hd => ?_, brk_noDebug hi ho⟩
  obtain ⟨st, hx⟩ := brk_debug (k := k) hi ho hd
  exact recorded hx

end Sys2Proof.Machine
end

section
/-! Barriers (R98 to R100) and phases (R101, R102): the statements BarrierInstructionResults and PhaseCompletesWhenAllHaveArrived. -/
namespace Sys2Proof.Machine
open Sys2Proof

/-! ### Barrier objects and tokens -/

/-- Bits 8 to 0 of a token are its barrier's index (R100). -/
theorem tokenIndex (t : W64) : (fld t 0 9).toNat = t.toNat % 512 := by simp [fld]

theorem barToken_eq (o : Barrier) (i : BitVec 9) : barToken o i = BitVec.ofNat 64 (i.toNat + if o.phase then 512 else 0) := by
  have hi := i.isLt
  have hor : 512 ||| i.toNat = i.toNat + 512 := by
    rw [Nat.add_comm]
    exact (Nat.two_pow_add_eq_or_of_lt (i := 9) hi 1).symm
  apply BitVec.eq_of_toNat_eq
  cases hp : o.phase
  · simp [barToken, hp]
  · have hlt : i.toNat + 512 < 18446744073709551616 := by omega
    simp [barToken, hp, Nat.mod_eq_of_lt (show i.toNat < 18446744073709551616 by omega), hor, Nat.mod_eq_of_lt hlt]

theorem barArrive_eq (o : Barrier) (c : W32) :
    barArrive o c = if o.pending.toNat ≤ c.toNat then { o with phase := !o.phase, pending := o.expected } else { o with pending := o.pending - c } :=
  rfl

/-- The phase has left the token's (Satisfied of R100). -/
theorem barSatisfied_iff (b : Block) (t : W64) : barSatisfied b t = true ↔ (barOf b (t.toNat % 512)).phase ≠ t.getLsbD 9 := by
  rw [barSatisfied, tokenIndex, bne_iff_ne]

theorem noRows_countOps (c : BarCount) : noRows (countOps c) = true := by cases c <;> rfl

theorem noRows_countOps_dst (c : BarCount) (d : SReg) : noRows (countOps c ++ [sdst d]) = true := by cases c <;> rfl

/-! ### BARINIT and BARARR -/

section
variable {h : Hdr} {s : State} {v : View} {d t : SReg} {b : BitVec 9} {c : BarCount}

theorem barinit_bad (hi : Issues h s v) (ho : OperandsReady (countOps c) v) (hb : v.b.fp.barriers ≤ b.toNat) :
    exec (.barinit h b c) s = trapped v 0 6 255 8 0 := by
  simp only [exec, execBarinit, issue_scalar hi ho (noRows_countOps c), barBad, decide_eq_true hb]
  rfl

theorem barinit_sets (hi : Issues h s v) (ho : OperandsReady (countOps c) v) (hb : b.toNat < v.b.fp.barriers) :
    exec (.barinit h b c) s = completed h (setBar v b.toNat (barInit (barOf v.b b.toNat) (countVal v.g c))) 0 := by
  simp only [exec, execBarinit, issue_scalar hi ho (noRows_countOps c), barBad, decide_eq_false (Nat.not_le.2 hb)]
  rfl

theorem bararr_bad (hi : Issues h s v) (ho : OperandsReady (countOps c ++ [sdst d]) v) (hb : v.b.fp.barriers ≤ b.toNat) :
    exec (.bararr h d b c) s = trapped v 0 6 255 8 0 := by
  simp only [exec, execBararr, issue_scalar hi ho (noRows_countOps_dst c d), barBad, decide_eq_true hb]
  rfl

theorem bararr_waits (hi : Issues h s v) (ho : OperandsReady (countOps c ++ [sdst d]) v) (hb : b.toNat < v.b.fp.barriers)
    (he : (barOf v.b b.toNat).expected = 0) : exec (.bararr h d b c) s = .next (flush (stallView h v 7)) := by
  simp only [exec, execBararr, issue_scalar hi ho (noRows_countOps_dst c d), barBad, decide_eq_false (Nat.not_le.2 hb), he]
  rfl

theorem bararr_arrives (hi : Issues h s v) (ho : OperandsReady (countOps c ++ [sdst d]) v) (hb : b.toNat < v.b.fp.barriers)
    (he : (barOf v.b b.toNat).expected ≠ 0) :
    exec (.bararr h d b c) s =
      completed h { setBar v b.toNat (barArrive (barOf v.b b.toNat) (countVal v.g c)) with
        g := writeS v.g d (barToken (barOf v.b b.toNat) b) } 0 := by
  simp only [exec, execBararr, issue_scalar hi ho (noRows_countOps_dst c d), barBad, decide_eq_false (Nat.not_le.2 hb), he]
  rfl

/-! ### BARTRY and BARWT -/

theorem bartry_bad (hi : Issues h s v) (ho : OperandsReady [ssrc t, sdst d] v) (hb : v.b.fp.barriers ≤ (readS v.g t).toNat % 512) :
    exec (.bartry h d t) s = trapped v 0 6 255 8 0 := by
  simp only [exec, execBartry, issue_scalar hi ho rfl, tokenIndex, barBad, decide_eq_true hb]
  rfl

theorem bartry_answers (hi : Issues h s v) (ho : OperandsReady [ssrc t, sdst d] v) (hb : (readS v.g t).toNat % 512 < v.b.fp.barriers) :
    exec (.bartry h d t) s = completed h { v with g := writeS v.g d (boolW (barSatisfied v.b (readS v.g t))) } 0 := by
  simp only [exec, execBartry, issue_scalar hi ho rfl, tokenIndex, barBad, decide_eq_false (Nat.not_le.2 hb)]
  rfl

theorem barwt_bad (hi : Issues h s v) (ho : OperandsReady [ssrc t] v) (hb : v.b.fp.barriers ≤ (readS v.g t).toNat % 512) :
    exec (.barwt h t) s = trapped v 0 6 255 8 0 := by
  simp only [exec, execBarwt, issue_scalar hi ho rfl, tokenIndex, barBad, decide_eq_true hb]
  rfl

theorem barwt_waits (hi : Issues h s v) (ho : OperandsReady [ssrc t] v) (hb : (readS v.g t).toNat % 512 < v.b.fp.barriers)
    (hs : barSatisfied v.b (readS v.g t) = false) : exec (.barwt h t) s = .next (flush (stallView h v 7)) := by
  simp only [exec, execBarwt, issue_scalar hi ho rfl, tokenIndex, barBad, decide_eq_false (Nat.not_le.2 hb), hs]
  rfl

theorem barwt_passes (hi : Issues h s v) (ho : OperandsReady [ssrc t] v) (hb : (readS v.g t).toNat % 512 < v.b.fp.barriers)
    (hs : barSatisfied v.b (readS v.g t) = true) : exec (.barwt h t) s = completed h v 0 := by
  simp only [exec, execBarwt, issue_scalar hi ho rfl, tokenIndex, barBad, decide_eq_false (Nat.not_le.2 hb), hs]
  rfl

end

/-- Settles O29: each instruction by its index, and then by its barrier or its token. -/
theorem barrierInstructionResults : Obligations.BarrierInstructionResults := by
  unfold Obligations.BarrierInstructionResults
  intro h d t b c s v hi o n tok i held
  have hn : countVal v.g c = n := by cases c <;> rfl
  have hwait (hh : held) : barSatisfied v.b tok = false := by
    rw [← Bool.not_eq_true, barSatisfied_iff]
    exact not_not_intro hh
  have hpass (hh : ¬ held) : barSatisfied v.b tok = true := (barSatisfied_iff _ _).2 hh
  refine ⟨fun ho => ⟨barinit_bad hi ho, fun hb he => ?_, fun hb he => ?_⟩, fun ho => ⟨bararr_bad hi ho, bararr_waits hi ho, fun hb he => ?_⟩,
    fun ho => ⟨bartry_bad hi ho, fun hb hh => ?_, fun hb hh => ?_⟩,
    fun ho => ⟨barwt_bad hi ho, fun hb hh => barwt_waits hi ho hb (hwait hh), fun hb hh => barwt_passes hi ho hb (hpass hh)⟩⟩
  · rw [barinit_sets hi ho hb, hn, barInit, if_pos he]
  · rw [barinit_sets hi ho hb, hn, barInit, if_neg he]
  · rw [bararr_arrives hi ho hb he, hn, barToken_eq, barArrive_eq]
  · rw [bartry_answers hi ho hb, hwait hh]
    rfl
  · rw [bartry_answers hi ho hb, hpass hh]
    rfl

/-! ### When a phase is complete -/

/-- Every other group of the block has ended or has arrived at phase `n`. -/
def GroupsArrived (v : View) (n : Nat) : Prop :=
  ∀ i (g : Group), i ≠ v.gid → v.b.groups[i]? = some g → g.run = .ended ∨ n ≤ g.phases

/-- Another block of the launch that counts with the view's in a phased launch. -/
def isPeer (v : View) (e : Nat × Block) : Bool := e.1 != v.uid && e.2.launch == v.b.launch && wideStage v.st e.2

/-- All blocks of the launch's stages of fire mode 0 have been placed, and each other one is complete or has only groups that have ended or have
arrived at phase `n`. -/
def BlocksArrived (v : View) (n : Nat) : Prop :=
  ∀ L, tget v.st.launches v.b.launch = some L →
    ((L.stages.filter (fun x => x.fire == 0)).map (fun x => x.count)).sum ≤ (v.st.blocks.filter (isPeer v)).length + 1 ∧
    ∀ e ∈ v.st.blocks, isPeer v e = true → e.2.phase = .complete ∨ ∀ g ∈ e.2.groups, g.run = .ended ∨ n ≤ g.phases

/-- Every group that counts but the view's own has ended or has arrived at phase `n` (R101). -/
def OthersArrived (v : View) (n : Nat) : Prop := GroupsArrived v n ∧ (wideStage v.st v.b = true → BlocksArrived v n)

theorem blockArrived_iff (n : Nat) (b : Block) :
    blockArrived n b = true ↔ b.phase = .complete ∨ ∀ g ∈ b.groups, g.run = .ended ∨ n ≤ g.phases := by
  simp [blockArrived]

/-- The blocks that a launch's stages of fire mode 0 count. -/
theorem foldl_count (L : List Stage) (a : Nat) :
    L.foldl (fun n st => if st.fire = 0 then n + st.count else n) a = a + ((L.filter (fun x => x.fire == 0)).map (fun x => x.count)).sum := by
  induction L generalizing a with
  | nil => rfl
  | cons x L ih =>
    rw [List.foldl_cons, ih]
    by_cases hx : x.fire = 0 <;> simp [hx, Nat.add_assoc]

/-- The groups of the view's own block, where its own group has arrived. -/
theorem phaseOwn_iff {v : View} {n : Nat} (hn : n ≤ v.g.phases) : phaseComplete.own v n = true ↔ GroupsArrived v n := by
  simp only [phaseComplete.own, GroupsArrived, Bool.or_eq_true, decide_eq_true_eq, List.all_eq_true, List.mem_range]
  constructor
  · rintro hall i g hi hg
    have hlt : i < v.b.groups.length := (List.getElem?_eq_some_iff.1 hg).1
    rcases hall with h0 | hall
    · omega
    · simpa [hi, hg] using hall i hlt
  · refine fun hall => .inr (fun i hlt => ?_)
    by_cases hi : i = v.gid
    · simpa [hi] using hn
    · have hg := List.getElem?_eq_getElem hlt
      simpa [hi, hg] using hall i _ hi hg

theorem phaseComplete_iff {v : View} {n : Nat} (hn : n ≤ v.g.phases) : phaseComplete v n = true ↔ OthersArrived v n := by
  have hown := phaseOwn_iff hn
  unfold phaseComplete OthersArrived
  cases hw : wideStage v.st v.b with
  | false => simp [hown]
  | true =>
    have hL : ∃ L, tget v.st.launches v.b.launch = some L := by
      rw [wideStage] at hw
      split at hw
      · exact ⟨_, ‹_›⟩
      · cases hw
    obtain ⟨L, hL⟩ := hL
    have hall : (v.st.blocks.filter (isPeer v)).all (fun e => blockArrived n e.2) = true ↔
        ∀ e ∈ v.st.blocks, isPeer v e = true → e.2.phase = .complete ∨ ∀ g ∈ e.2.groups, g.run = .ended ∨ n ≤ g.phases := by
      simp only [List.all_eq_true, List.mem_filter, blockArrived_iff, and_imp]
    simp only [hL, if_true, foldl_count, Nat.zero_add, Bool.and_eq_true, decide_eq_true_eq, hown, BlocksArrived, Option.some.injEq, forall_eq', ← hall]
    exact ⟨fun ⟨h1, h2⟩ => ⟨h2, fun _ => h1⟩, fun ⟨h1, h2⟩ => ⟨h2 trivial, h1⟩⟩

/-! ### PHASE -/

/-- The group arrives at its next phase (R101). -/
def arriveNext (h : Hdr) (d : SReg) (v : View) : View :=
  { v with g := { v.g with phases := v.g.phases + 1, arrival := .phase d h.safe h.mask } }

/-- The group with its arrival, which an earlier attempt may have made (R102). -/
def arrivedView (h : Hdr) (d : SReg) (v : View) : View :=
  match v.g.arrival with
  | .phase .. => v
  | _ => arriveNext h d v

theorem arrivedView_fresh {h : Hdr} {d : SReg} {v : View} (hf : ∀ e sf m, v.g.arrival ≠ .phase e sf m) : arrivedView h d v = arriveNext h d v := by
  unfold arrivedView
  cases ha : v.g.arrival with
  | none => rfl
  | phase e sf m => exact absurd ha (hf e sf m)
  | commit sc m => rfl

theorem arrivedView_kept {h : Hdr} {d : SReg} {v : View} (hf : ¬ ∀ e sf m, v.g.arrival ≠ .phase e sf m) : arrivedView h d v = v := by
  unfold arrivedView
  cases ha : v.g.arrival with
  | none => exact absurd (by simp [ha]) hf
  | phase e sf m => rfl
  | commit sc m => exact absurd (by simp [ha]) hf

/-- What PHASE does at a group that has arrived. -/
def phaseAt (d : SReg) (v : View) : Res :=
  if phaseComplete v v.g.phases then doneS { v with g := { v.g with arrival := .none } } d (BitVec.ofNat 64 v.g.phases) else .hold v 7

theorem phaseAt_completes {d : SReg} {v : View} (ho : OthersArrived v v.g.phases) :
    phaseAt d v = .done { v with g := writeS { v.g with arrival := .none } d (BitVec.ofNat 64 v.g.phases) } 0 :=
  if_pos ((phaseComplete_iff (Nat.le_refl _)).2 ho)

theorem phaseAt_waits {d : SReg} {v : View} (ho : ¬ OthersArrived v v.g.phases) : phaseAt d v = .hold v 7 :=
  if_neg (fun hc => ho ((phaseComplete_iff (Nat.le_refl _)).1 hc))

theorem phase_ready {h : Hdr} {d : SReg} {s : State} {v : View} (hi : Issues h s v) (ho : OperandsReady [sdst d] v) :
    exec (.phase h d) s = .next (flush (conclude h v (phaseAt d (arrivedView h d v)))) :=
  issue_scalar hi ho rfl

/-- Settles O30: an arrival that is new or kept, and then whether the others have arrived (`phaseComplete_iff`). -/
theorem phaseCompletesWhenAllHaveArrived : Obligations.PhaseCompletesWhenAllHaveArrived := by
  unfold Obligations.PhaseCompletesWhenAllHaveArrived
  intro h d s v hi ho fresh n peer spread others
  have first (hf : fresh) {r : Res} (hr : phaseAt d (arriveNext h d v) = r) : exec (.phase h d) s = .next (flush (conclude h v r)) := by
    rw [phase_ready hi ho, arrivedView_fresh hf, hr]
  have again (hf : ¬ fresh) {r : Res} (hr : phaseAt d v = r) : exec (.phase h d) s = .next (flush (conclude h v r)) := by
    rw [phase_ready hi ho, arrivedView_kept hf, hr]
  exact ⟨fun hf ha => first hf (phaseAt_completes (v := arriveNext h d v) ha), fun hf ha => again hf (phaseAt_completes ha),
    fun hf ha => first hf (phaseAt_waits (v := arriveNext h d v) ha), fun hf ha => again hf (phaseAt_waits ha)⟩

end Sys2Proof.Machine
end

section
/-! HMOV (R96) and the completions that acquire once observed (R186): why HandleInstructionResults fails. -/
namespace Sys2Proof.Machine
open Sys2Proof

/-- HMOV of another handle moves the binding (R96). -/
theorem hmov_moves {h : Hdr} {m n : HReg} {s : State} {v : View} (hi : Issues h s v) (ho : OperandsReady [.hd m, .h n] v) (hn : m ≠ n) :
    exec (.hmov h m n) s = completed h { v with g := moveHandle v.g m n } 0 := by
  simp only [exec, execHmov, if_neg hn, issue_scalar hi ho rfl]
  rfl

/-- The completions that acquire once observed, of a group after a step that answers a next state. -/
def acqAfter (u k : Nat) (o : Out) : Option (List Nat) :=
  match o with
  | .next t => (viewAt t u k).map (fun v => v.g.acq)
  | _ => none

/-- Completing keeps the completions that acquire. -/
theorem acqAfter_completed {h : Hdr} {v : View} (ha : v.g.active ≠ 0) (hk : v.gid < v.b.groups.length) :
    acqAfter v.uid v.gid (completed h v 0) = some v.g.acq := by
  have hb : tget (flush (retire h v 0)).blocks v.uid = some { v.b with groups := listSet v.b.groups v.gid (retire h v 0).g } := tget_tput_same _ _ _
  rw [completed, settle_noFlags ha]
  simp only [acqAfter, viewAt, hb, getElem?_listSet_same _ _ _ hk]
  rfl

/-- A group whose handle h2 is COMPLETE from an ATOMG that acquires into s5 and has not been observed. -/
def acquiringGroup : Group := { fetchGroup with h := [(2, .complete 0 0 [])], acq := [5 * 64 + 2] }

def acquiringBlock : Block := { fetchBlock 1 with groups := [acquiringGroup] }

def acquiringState : State := { State.reset with cur := some (1, 0), blocks := [(1, acquiringBlock)] }

def acquiringView : View := { st := acquiringState, uid := 1, gid := 0, b := acquiringBlock, g := acquiringGroup }

theorem acquiring_issues : Issues ⟨false, 0, false, 0⟩ acquiringState acquiringView := ⟨rfl, .inl rfl, by decide⟩

theorem acquiring_ready : OperandsReady [.hd 3, .h 2] acquiringView :=
  ⟨by decide, by decide, by decide, by decide, by decide, by decide⟩

/-- Refutes O28: its clause on HMOV has nothing of the group change but the handles and the lanes. The group also keeps which handle's completion
acquires once it is observed (R186), and HMOV of such a handle moves that mark with the binding: h2 to h3 turns the mark of s5 with h2 into one of
s5 with h3. -/
theorem not_handleInstructionResults : ¬ Obligations.HandleInstructionResults := by
  unfold Obligations.HandleInstructionResults
  intro hall
  obtain ⟨_, _, _, hmov, _⟩ := hall ⟨false, 0, false, 0⟩ 0 2 3 acquiringState acquiringView acquiring_issues
  obtain ⟨g, hx, _, _, _, hg, _⟩ := hmov (by decide) acquiring_ready
  rw [hmov_moves acquiring_issues acquiring_ready (by decide)] at hx
  have active : g.active = allLanes := congrArg Group.active hg
  have kept : g.acq = [5 * 64 + 2] := congrArg Group.acq hg
  have moved : (moveHandle acquiringGroup 3 2).acq = [5 * 64 + 3] := by decide
  have same : some (moveHandle acquiringGroup 3 2).acq = some g.acq :=
    calc some (moveHandle acquiringGroup 3 2).acq
        = acqAfter 1 0 (completed ⟨false, 0, false, 0⟩ { acquiringView with g := moveHandle acquiringGroup 3 2 } 0) :=
          (acqAfter_completed (v := { acquiringView with g := moveHandle acquiringGroup 3 2 }) (by decide) Nat.one_pos).symm
      _ = acqAfter 1 0 (completed ⟨false, 0, false, 0⟩ { acquiringView with g := g } 0) := congrArg (acqAfter 1 0) hx
      _ = some g.acq := acqAfter_completed (v := { acquiringView with g := g }) (active ▸ by decide) Nat.one_pos
  rw [moved, kept] at same
  exact absurd same (by decide)

end Sys2Proof.Machine
end

section
/-! The scalar integer instructions (R107 to R111): the statements ScalarArithmeticResults and ScalarSelectAndCompareResults. -/
namespace Sys2Proof.Machine
open Sys2Proof

/-! ### The number that each operation holds (R103, R107) -/

theorem holdsFit_zero (t : Ty) : HoldsFit t 0 0 := by cases t <;> exact ⟨by decide, by decide⟩

section
variable (t : Ty) (x y : W64)

theorem holdsFit_opAdd : HoldsFit t (val t x + val t y) (opAdd t x y) := holdsFit_fit t _
theorem holdsFit_opSub : HoldsFit t (val t x - val t y) (opSub t x y) := holdsFit_fit t _
theorem holdsFit_opMul : HoldsFit t (val t x * val t y) (opMul t x y) := holdsFit_fit t _
theorem holdsFit_opMulh : HoldsFit t (val t x * val t y / 2 ^ tyWidth t) (opMulh t x y) := holdsFit_fit t _
theorem holdsFit_opAnd : HoldsFit t ((x &&& y).toNat : Int) (opAnd t x y) := holdsFit_fit t _
theorem holdsFit_opOr : HoldsFit t ((x ||| y).toNat : Int) (opOr t x y) := holdsFit_fit t _
theorem holdsFit_opXor : HoldsFit t ((x ^^^ y).toNat : Int) (opXor t x y) := holdsFit_fit t _
theorem holdsFit_opMin : HoldsFit t (min (val t x) (val t y)) (opMin t x y) := holdsFit_fit t _
theorem holdsFit_opMax : HoldsFit t (max (val t x) (val t y)) (opMax t x y) := holdsFit_fit t _

/-- A left shift by the width or more leaves 0. -/
theorem holdsFit_opShlN (n : Nat) : HoldsFit t (if tyWidth t ≤ n then 0 else uns t x * 2 ^ n) (opShlN t x n) := by
  unfold opShlN
  split
  · exact holdsFit_zero t
  · exact holdsFit_fit t _

theorem holdsFit_opShrN (n : Nat) : HoldsFit t (if tyWidth t ≤ n then 0 else uns t x / 2 ^ n) (opShrN t x n) := by
  unfold opShrN
  split
  · exact holdsFit_zero t
  · exact holdsFit_fit t _

theorem holdsFit_opSraN (n : Nat) : HoldsFit t (sgn t x / 2 ^ min n (tyWidth t - 1)) (opSraN t x n) := holdsFit_fit t _

/-- A shift amount is bits 7 to 0 of its register. -/
theorem shAmt_eq : shAmt y = y.toNat % 256 := BitVec.toNat_setWidth 8 y

theorem holdsFit_opShl : HoldsFit t (if tyWidth t ≤ y.toNat % 256 then 0 else uns t x * 2 ^ (y.toNat % 256)) (opShl t x y) :=
  shAmt_eq y ▸ holdsFit_opShlN t x (shAmt y)

theorem holdsFit_opShr : HoldsFit t (if tyWidth t ≤ y.toNat % 256 then 0 else uns t x / 2 ^ (y.toNat % 256)) (opShr t x y) :=
  shAmt_eq y ▸ holdsFit_opShrN t x (shAmt y)

theorem holdsFit_opSra : HoldsFit t (sgn t x / 2 ^ min (y.toNat % 256) (tyWidth t - 1)) (opSra t x y) :=
  shAmt_eq y ▸ holdsFit_opSraN t x (shAmt y)

end

/-- Bits 16k+15 to 16k come from the new half-word, the others stay (R110). -/
theorem getLsbD_insert16 (x : W64) (k : Nat) (y : W16) {j : Nat} (hj : j < 64) :
    (insert16 x k y).getLsbD j = if 16 * k ≤ j ∧ j < 16 * k + 16 then y.getLsbD (j - 16 * k) else x.getLsbD j := by
  have ones : ∀ m, (0xFFFF : W64).getLsbD m = decide (m < 16) := by
    intro m
    rw [show (0xFFFF : W64) = (BitVec.allOnes 16).setWidth 64 from rfl, BitVec.getLsbD_setWidth, BitVec.getLsbD_allOnes]
    simp only [Bool.and_eq_right_iff_imp, decide_eq_true_eq]
    omega
  simp only [insert16, BitVec.getLsbD_or, BitVec.getLsbD_and, BitVec.getLsbD_not, BitVec.getLsbD_shiftLeft, BitVec.getLsbD_setWidth, ones, hj]
  rcases Nat.lt_or_ge j (16 * k) with hlow | hlow
  · simp [hlow, Nat.not_le.2 hlow]
  · rcases Nat.lt_or_ge j (16 * k + 16) with hin | hout
    · have hd : j - 16 * k < 16 := by omega
      simp [Nat.not_lt.2 hlow, hlow, hin, hd]
      omega
    · have hd : 16 ≤ j - 16 * k := by omega
      simp [Nat.not_lt.2 hout, Nat.not_lt.2 hd, BitVec.getLsbD_of_ge y _ hd]

/-! ### The instructions -/

theorem smovi_fit {h : Hdr} {t : Ty} {d : SReg} {i : BitVec 24} {s : State} {v : View} (hi : Issues h s v) (ho : OperandsReady [sdst d] v) :
    exec (.smovi h t d none i) s = completed h { v with g := writeS v.g d (fit t (val t (i.signExtend 64))) } 0 :=
  issue_scalar hi ho rfl

theorem smovi_insert {h : Hdr} {t : Ty} {d : SReg} {k : BitVec 2} {i : BitVec 24} {s : State} {v : View} (hi : Issues h s v)
    (ho : OperandsReady [.s d.toNat 1 true true] v) :
    exec (.smovi h t d (some k) i) s = completed h { v with g := writeS v.g d (insert16 (readS v.g d) k.toNat (i.setWidth 16)) } 0 :=
  issue_scalar hi ho rfl

/-- Settles O12: each operation by the number that it holds, SMOVI of modes 1 to 4 bit by bit. -/
theorem scalarArithmeticResults : Obligations.ScalarArithmeticResults := by
  unfold Obligations.ScalarArithmeticResults
  constructor
  · intro h t d a b s v _ hi ho x y w n
    have computes {i : Instr} {z : Int} {f : Ty → W64 → W64 → W64} (hf : HoldsFit t z (f t x y)) (hx : exec i s = scalar2 h t d a b f s) :
        ∃ r, HoldsFit t z r ∧ exec i s = completed h { v with g := writeS v.g d r } 0 :=
      ⟨_, hf, hx.trans (scalar2_ready hi ho)⟩
    simp only [List.forall_mem_cons, List.not_mem_nil, false_implies, implies_true, and_true]
    exact ⟨computes (holdsFit_opAdd t x y) rfl, computes (holdsFit_opSub t x y) rfl, computes (holdsFit_opMul t x y) rfl,
      computes (holdsFit_opMulh t x y) rfl, computes (holdsFit_opAnd t x y) rfl, computes (holdsFit_opOr t x y) rfl,
      computes (holdsFit_opXor t x y) rfl, computes (holdsFit_opShl t x y) rfl, computes (holdsFit_opShr t x y) rfl,
      computes (holdsFit_opSra t x y) rfl, computes (holdsFit_opMin t x y) rfl, computes (holdsFit_opMax t x y) rfl⟩
  · intro h t d a i n s v _ hi x y w
    refine ⟨fun ho => ⟨?_, scalar1_ready hi ho⟩, fun ho => ⟨_, holdsFit_fit t _, smovi_fit hi ho⟩, fun k ho => ⟨_, smovi_insert hi ho, fun j hj => ?_⟩⟩
    · have computes {i : Instr} {z : Int} {f : W64 → W64} (hf : HoldsFit t z (f x)) (hx : exec i s = scalar1 h d a f s) :
          ∃ r, HoldsFit t z r ∧ exec i s = completed h { v with g := writeS v.g d r } 0 :=
        ⟨_, hf, hx.trans (scalar1_ready hi ho)⟩
      simp only [List.forall_mem_cons, List.not_mem_nil, false_implies, implies_true, and_true]
      exact ⟨computes (f := fun x => opAdd t x y) (holdsFit_opAdd t x y) rfl, computes (f := fun x => opAnd t x y) (holdsFit_opAnd t x y) rfl,
        computes (f := fun x => opOr t x y) (holdsFit_opOr t x y) rfl, computes (f := fun x => opXor t x y) (holdsFit_opXor t x y) rfl,
        computes (f := fun x => opShlN t x n.toNat) (holdsFit_opShlN t x n.toNat) rfl,
        computes (f := fun x => opShrN t x n.toNat) (holdsFit_opShrN t x n.toNat) rfl,
        computes (f := fun x => opSraN t x n.toNat) (holdsFit_opSraN t x n.toNat) rfl⟩
    · rw [getLsbD_insert16 _ _ _ hj]
      split
      · rw [BitVec.getLsbD_setWidth, decide_eq_true (by omega), Bool.true_and]
      · rfl

/-! ### SSEL, SCMP and SCMPI -/

theorem ssel_ready {h : Hdr} {t : Ty} {d a b c : SReg} {s : State} {v : View} (hi : Issues h s v)
    (ho : OperandsReady [ssrc a, ssrc b, ssrc c, sdst d] v) :
    exec (.ssel h t d a b c) s =
      completed h { v with g := writeS v.g d (fit t (val t (if readS v.g c ≠ 0 then readS v.g a else readS v.g b))) } 0 :=
  issue_scalar hi ho rfl

theorem scmp_ready {h : Hdr} {t : Ty} {d a b : SReg} {k : Cond} {s : State} {v : View} (hi : Issues h s v)
    (ho : OperandsReady [ssrc a, ssrc b, sdst d] v) :
    exec (.scmp h t d a b k) s = completed h { v with g := writeS v.g d (boolW (opCmp t k (readS v.g a) (readS v.g b))) } 0 :=
  issue_scalar hi ho rfl

theorem scmpi_ready {h : Hdr} {t : Ty} {d a : SReg} {k : Cond} {i : BitVec 20} {s : State} {v : View} (hi : Issues h s v)
    (ho : OperandsReady [ssrc a, sdst d] v) :
    exec (.scmpi h t d a k i) s = completed h { v with g := writeS v.g d (boolW (opCmp t k (readS v.g a) (i.signExtend 64))) } 0 :=
  issue_scalar hi ho rfl

/-- A truth value is written as 1 or 0. -/
theorem boolW_of_iff {b : Bool} {p : Prop} (hb : b = true ↔ p) : (p → boolW b = 1) ∧ (¬ p → boolW b = 0) := by
  rw [← hb]
  cases b <;> simp [boolW]

/-- Settles O13: SSEL by its condition, the comparisons by the relation of each condition. -/
theorem scalarSelectAndCompareResults : Obligations.ScalarSelectAndCompareResults := by
  unfold Obligations.ScalarSelectAndCompareResults
  intro h t d a b c k s v _ hi x y z
  refine ⟨fun ho => ⟨_, ?_, ssel_ready hi ho⟩, ?_⟩
  · by_cases hc : readS v.g c = 0
    · rw [if_pos hc, if_neg (not_not.2 hc)]
      exact holdsFit_fit t _
    · rw [if_neg hc, if_pos hc]
      exact holdsFit_fit t _
  · have compares {cond : Cond} {rel : W64 → W64 → Prop} (hr : ∀ x y, opCmp t cond x y = true ↔ rel x y) :
        (OperandsReady [ssrc a, ssrc b, sdst d] v →
          ∃ r, exec (.scmp h t d a b cond) s = completed h { v with g := writeS v.g d r } 0 ∧ (rel x y → r = 1) ∧ (¬ rel x y → r = 0)) ∧
        (OperandsReady [ssrc a, sdst d] v →
          ∃ r, exec (.scmpi h t d a cond k) s = completed h { v with g := writeS v.g d r } 0 ∧ (rel x z → r = 1) ∧ (¬ rel x z → r = 0)) :=
      ⟨fun ho => ⟨_, scmp_ready hi ho, boolW_of_iff (hr x y)⟩, fun ho => ⟨_, scmpi_ready hi ho, boolW_of_iff (hr x z)⟩⟩
    simp only [List.forall_mem_cons, List.not_mem_nil, false_implies, implies_true, and_true]
    exact ⟨compares (opCmp_eq t), compares (opCmp_ne t), compares (opCmp_lt t), compares (opCmp_le t), compares (opCmp_gt t), compares (opCmp_ge t)⟩

end Sys2Proof.Machine
end

section
/-! The lane-wise integer instructions (R113 to R115): the statements VectorArithmeticResults, SaturatingVectorResults and VectorUnaryResults. -/
namespace Sys2Proof.Machine
open Sys2Proof

/-! ### A family's lanes hold numbers -/

theorem orFlags_noFlag (m : Lanes) (x y : Nat → W64) : orFlags m (fun l => noFlag (x l) (y l)) = 0 := orFlags_zero m _ (fun _ _ => rfl)

/-- Each lane of EXEC holds the number `z` of its lane after instruction `i`, whose destination is written from the view `u`; no flag is raised. -/
def LanesHold (h : Hdr) (t : Ty) (d : VReg) (ex : Lanes) (u : View) (i : Instr) (s : State) (z : Nat → Int) : Prop :=
  ∃ f : Nat → W64, (∀ l < 64, ex.getLsbD l = true → HoldsFit t (z l) (f l)) ∧ exec i s = completed h (writeElems u t d ex f) 0

section
variable {h : Hdr} {t : Ty} {d a b : VReg} {s : State} {v : View} {i : Instr} {z : Nat → Int}

theorem lanesHold_vector1 {f : W64 → W64} (hi : Issues h s v) (ho : OperandsReady [vsrc t a, vdst t d] v) :
    let q := readRows (execOf h v.g) [vsrc t a, vdst t d] v
    (∀ l, HoldsFit t (z l) (f (elem t q.2 0 l))) → exec i s = vector1 h t d a f s → LanesHold h t d (execOf h v.g) q.1 i s z :=
  fun hf hx => ⟨_, fun l _ _ => hf l, hx.trans (vector1_ready hi ho)⟩

theorem lanesHold_vector2 {f : W64 → W64 → W64} (hi : Issues h s v) (ho : OperandsReady [vsrc t a, vsrc t b, vdst t d] v) :
    let q := readRows (execOf h v.g) [vsrc t a, vsrc t b, vdst t d] v
    (∀ l, HoldsFit t (z l) (f (elem t q.2 0 l) (elem t q.2 1 l))) → exec i s = vector2 h t d a b f noFlag s →
      LanesHold h t d (execOf h v.g) q.1 i s z :=
  fun hf hx => ⟨_, fun l _ _ => hf l, by rw [hx, vector2_ready hi ho, orFlags_noFlag]⟩

theorem lanesHold_vectorX {c : VImm} {f : W64 → W64 → W64} (hi : Issues h s v) (ho : OperandsReady ([vsrc t a] ++ vimmOps c ++ [vdst t d]) v) :
    let q := readRows (execOf h v.g) ([vsrc t a] ++ vimmOps c ++ [vdst t d]) v
    (∀ l, HoldsFit t (z l) (f (elem t q.2 0 l) (vimmVal v.g c))) → exec i s = vectorX h t d a c f noFlag s →
      LanesHold h t d (execOf h v.g) q.1 i s z :=
  fun hf hx => ⟨_, fun l _ _ => hf l, by rw [hx, vectorX_ready hi ho, orFlags_noFlag _ _ (fun _ => vimmVal v.g c)]⟩

end

/-- Settles O14: each lane by the number that the operation holds, with two vector sources and with a broadcast second one. -/
theorem vectorArithmeticResults : Obligations.VectorArithmeticResults := by
  unfold Obligations.VectorArithmeticResults
  constructor
  · intro h t d a b s v _ hi ho ex q x y w n
    have lanes {i : Instr} {z : Nat → Int} {f : W64 → W64 → W64} (hf : ∀ l, HoldsFit t (z l) (f (x l) (y l)))
        (hx : exec i s = vector2 h t d a b f noFlag s) : LanesHold h t d ex q.1 i s z := lanesHold_vector2 hi ho hf hx
    simp only [List.forall_mem_cons, List.not_mem_nil, false_implies, implies_true, and_true]
    exact ⟨lanes (fun l => holdsFit_opAdd t (x l) (y l)) rfl, lanes (fun l => holdsFit_opSub t (x l) (y l)) rfl,
      lanes (fun l => holdsFit_opMul t (x l) (y l)) rfl, lanes (fun l => holdsFit_opMulh t (x l) (y l)) rfl,
      lanes (fun l => holdsFit_opAnd t (x l) (y l)) rfl, lanes (fun l => holdsFit_opOr t (x l) (y l)) rfl,
      lanes (fun l => holdsFit_opXor t (x l) (y l)) rfl, lanes (fun l => holdsFit_opShl t (x l) (y l)) rfl,
      lanes (fun l => holdsFit_opShr t (x l) (y l)) rfl, lanes (fun l => holdsFit_opSra t (x l) (y l)) rfl,
      lanes (fun l => holdsFit_opMin t (x l) (y l)) rfl, lanes (fun l => holdsFit_opMax t (x l) (y l)) rfl⟩
  · intro h t d a b s v _ hi ho ex q x y w n
    have broadcast : vimmVal v.g b = y := by cases b <;> rfl
    have lanes {i : Instr} {z : Nat → Int} {f : W64 → W64 → W64} (hf : ∀ l, HoldsFit t (z l) (f (x l) y))
        (hx : exec i s = vectorX h t d a b f noFlag s) : LanesHold h t d ex q.1 i s z := lanesHold_vectorX hi ho (broadcast ▸ hf) hx
    simp only [List.forall_mem_cons, List.not_mem_nil, false_implies, implies_true, and_true]
    exact ⟨lanes (fun l => holdsFit_opAdd t (x l) y) rfl, lanes (fun l => holdsFit_opSub t (x l) y) rfl,
      lanes (fun l => holdsFit_opMul t (x l) y) rfl, lanes (fun l => holdsFit_opMulh t (x l) y) rfl,
      lanes (fun l => holdsFit_opAnd t (x l) y) rfl, lanes (fun l => holdsFit_opOr t (x l) y) rfl,
      lanes (fun l => holdsFit_opXor t (x l) y) rfl, lanes (fun l => holdsFit_opShl t (x l) y) rfl,
      lanes (fun l => holdsFit_opShr t (x l) y) rfl, lanes (fun l => holdsFit_opSra t (x l) y) rfl,
      lanes (fun l => holdsFit_opMin t (x l) y) rfl, lanes (fun l => holdsFit_opMax t (x l) y) rfl⟩

/-! ### VMAD, VNOT, VABS, VCLZ and VPOPC -/

theorem vmad_ready {h : Hdr} {t : Ty} {d a b c : VReg} {s : State} {v : View} (hi : Issues h s v)
    (ho : OperandsReady [vsrc t a, vsrc t b, vsrc t c, vdst t d] v) :
    let q := readRows (execOf h v.g) [vsrc t a, vsrc t b, vsrc t c, vdst t d] v
    exec (.vmad h t d a b c) s = completed h
      (writeElems q.1 t d (execOf h v.g) (fun l => opMad t (elem t q.2 0 l) (elem t q.2 1 l) (elem t q.2 2 l))) 0 := by
  simp only [exec, execVmad, issue_ready hi ho, passOn_done, conclude_done, execOf_readRows]
  rfl

/-- Leading zeros: all bits above are zero, and the next one, where there is one, is not. -/
theorem clzBits_spec (x : W64) (n : Nat) :
    clzBits x n ≤ n ∧ (∀ k < clzBits x n, x.getLsbD (n - 1 - k) = false) ∧ (clzBits x n < n → x.getLsbD (n - 1 - clzBits x n) = true) := by
  induction n with
  | zero => simp [clzBits]
  | succ n ih =>
    obtain ⟨hle, hzeros, hone⟩ := ih
    cases hb : x.getLsbD n with
    | true => simp [clzBits, hb]
    | false =>
      have hc : clzBits x (n + 1) = clzBits x n + 1 := by simp [clzBits, hb, Nat.add_comm]
      rw [hc]
      refine ⟨by omega, fun k hk => ?_, fun hlt => ?_⟩
      · cases k with
        | zero => exact hb
        | succ k => rw [show n + 1 - 1 - (k + 1) = n - 1 - k by omega]; exact hzeros k (by omega)
      · rw [show n + 1 - 1 - (clzBits x n + 1) = n - 1 - clzBits x n by omega]
        exact hone (by omega)

/-- The count of ones is the number of positions that hold one. -/
theorem popBits_eq (x : W64) (n : Nat) : popBits x n = ((List.range n).filter (fun k => x.getLsbD k)).length := by
  induction n with
  | zero => rfl
  | succ n ih =>
    rw [popBits, ih, List.range_succ, List.filter_append, List.length_append]
    cases hb : x.getLsbD n <;> simp [hb, Nat.add_comm]

theorem holdsFit_opAbs (t : Ty) (x : W64) : HoldsFit t |val t x| (opAbs t x) := by
  rw [Int.abs_eq_natAbs]
  exact holdsFit_fit t _

theorem holdsFit_opPopc (t : Ty) (x : W64) :
    HoldsFit t (((List.range (tyWidth t)).filter (fun k => x.getLsbD k)).length : Int) (opPopc t x) := by
  rw [← popBits_eq]
  exact holdsFit_fit t _

/-- Settles O16: VCLZ by its count of zeros, the others by the number that each lane holds. -/
theorem vectorUnaryResults : Obligations.VectorUnaryResults := by
  unfold Obligations.VectorUnaryResults
  intro h t d a b c s v _ hi ex w
  refine ⟨fun ho => ⟨_, fun l _ _ => holdsFit_fit t _, vmad_ready hi ho⟩, ?_⟩
  intro ho q x
  constructor
  · have lanes {i : Instr} {z : Nat → Int} {f : W64 → W64} (hf : ∀ l, HoldsFit t (z l) (f (x l)))
        (hx : exec i s = vector1 h t d a f s) : LanesHold h t d ex q.1 i s z := lanesHold_vector1 hi ho hf hx
    simp only [List.forall_mem_cons, List.not_mem_nil, false_implies, implies_true, and_true]
    exact ⟨lanes (f := opNot t) (fun l => holdsFit_fit t _) rfl, lanes (fun l => holdsFit_opAbs t (x l)) rfl,
      lanes (fun l => holdsFit_opPopc t (x l)) rfl⟩
  · exact ⟨_, fun l => clzBits (x l) w, fun l _ _ => ⟨holdsFit_fit t _, clzBits_spec (x l) w⟩, vector1_ready hi ho⟩

/-! ### VADDS and VSUBS (R114) -/

/-- Saturation holds the number clamped to the least and the greatest value of the type. -/
theorem holdsFit_sat (t : Ty) (z : Int) : HoldsFit t (if z < loOf t then loOf t else if hiOf t < z then hiOf t else z) (sat t z) := by
  have clamped : clampTo t z = if z < loOf t then loOf t else if hiOf t < z then hiOf t else z := by
    have : loOf t ≤ hiOf t := by cases t <;> decide
    unfold clampTo
    split
    · omega
    · split <;> omega
  rw [← clamped]
  exact holdsFit_fit t _

/-- SA is raised exactly when the number is outside the type. -/
theorem satFlag_bit (t : Ty) (z : Int) : (satFlag t z).getLsbD 5 = true ↔ z < loOf t ∨ hiOf t < z := by
  have hlohi : loOf t ≤ hiOf t := by cases t <;> decide
  have same : clampTo t z = z ↔ ¬ (z < loOf t ∨ hiOf t < z) := by
    unfold clampTo
    omega
  unfold satFlag
  by_cases hz : z < loOf t ∨ hiOf t < z
  · simp only [hz, iff_true, if_neg (fun h => same.1 h hz)]
    decide
  · simp only [hz, iff_false, if_pos (same.2 hz)]
    decide

theorem satFlag_cases (t : Ty) (z : Int) : satFlag t z = 0 ∨ satFlag t z = fSA := by
  unfold satFlag
  split
  · exact .inl rfl
  · exact .inr rfl

/-- When every lane raises no flag but `c`, the lanes together raise none but `c`. -/
theorem orFlags_cases (m : Lanes) {f : Nat → Flg} {c : Flg} (hf : ∀ l, f l = 0 ∨ f l = c) : orFlags m f = 0 ∨ orFlags m f = c := by
  have fold : ∀ (L : List Nat) (a : Flg), a = 0 ∨ a = c → L.foldl (fun a l => a ||| f l) a = 0 ∨ L.foldl (fun a l => a ||| f l) a = c := by
    intro L
    induction L with
    | nil => exact fun a ha => ha
    | cons l L ih =>
      intro a ha
      refine ih _ ?_
      rcases ha with rfl | rfl <;> rcases hf l with h | h <;> simp [h]
  exact fold _ 0 (.inl rfl)

/-- The lanes together raise SA exactly when a lane of EXEC is clamped, and no other flag. -/
theorem orFlags_satFlag (t : Ty) (ex : Lanes) (z : Nat → Int) :
    let fl := orFlags ex (fun l => satFlag t (z l))
    (fl = 0 ∨ fl = fSA) ∧ (fl = fSA ↔ ∃ l < 64, ex.getLsbD l = true ∧ (z l < loOf t ∨ hiOf t < z l)) := by
  intro fl
  have hc : fl = 0 ∨ fl = fSA := orFlags_cases ex (fun l => satFlag_cases t (z l))
  have bit : fl = fSA ↔ fl.getLsbD 5 = true := by
    rcases hc with h | h <;> rw [h] <;> decide
  refine ⟨hc, bit.trans ?_⟩
  rw [orFlags_bit, List.any_eq_true]
  simp only [mem_laneList, satFlag_bit, and_assoc]

theorem writeRow_active (v : View) (r : Nat) (m : Lanes) (row : Row) : (writeRow v r m row).g.active = v.g.active := by
  unfold writeRow
  split <;> rfl

theorem writeRow_ftrap (v : View) (r : Nat) (m : Lanes) (row : Row) : (writeRow v r m row).g.ftrap = v.g.ftrap := by
  unfold writeRow
  split <;> rfl

theorem writeElems_active (v : View) (t : Ty) (d : VReg) (m : Lanes) (f : Nat → W64) : (writeElems v t d m f).g.active = v.g.active := by
  unfold writeElems
  split <;> simp only [writeRow_active]

theorem writeElems_ftrap (v : View) (t : Ty) (d : VReg) (m : Lanes) (f : Nat → W64) : (writeElems v t d m f).g.ftrap = v.g.ftrap := by
  unfold writeElems
  split <;> simp only [writeRow_ftrap]

/-- An instruction that completes raising SA alone, with SA enabled, has its effects and its flag, and then traps with class 2 and code 5 (R132). -/
theorem completed_saTrap {h : Hdr} {w : View} (ha : w.g.active ≠ 0) (ht : w.g.ftrap.getLsbD 5 = true) :
    (endIfEmpty (retire h w fSA)).g.fflags.getLsbD 5 = true ∧
      completed h w fSA = .next (flush (trapAfter (endIfEmpty (retire h w fSA)) (faultAt w 2 5 255 0 0))) := by
  constructor
  · rw [endIfEmpty_active (v := retire h w fSA) ha]
    exact (BitVec.getLsbD_or).trans (by rw [show fSA.getLsbD 5 = true from rfl, Bool.or_true])
  · have low : ∀ m < 5, (fSA &&& w.g.ftrap).getLsbD m = false := by
      intro m hm
      have h0 : fSA.getLsbD m = false := by revert m; decide
      rw [BitVec.getLsbD_and, h0, Bool.false_and]
    have set : (fSA &&& w.g.ftrap).getLsbD 5 = true := by rw [BitVec.getLsbD_and, ht]; rfl
    rw [completed, (enabledFlagTrapsAfterTheInstruction h w fSA 5 (by decide) set low).1]

/-- What a saturating instruction does, whose lanes hold `sat` of the exact numbers `z`. -/
theorem saturating_result {h : Hdr} {t : Ty} {d : VReg} {ex : Lanes} {i : Instr} {s : State} {u : View} {z : Nat → Int}
    (hx : exec i s = completed h (writeElems u t d ex (fun l => sat t (z l))) (orFlags ex (fun l => satFlag t (z l)))) (ha : u.g.active ≠ 0) :
    ∃ (f : Nat → W64) (fl : BitVec 6),
      (∀ l < 64, ex.getLsbD l = true → HoldsFit t (if z l < loOf t then loOf t else if hiOf t < z l then hiOf t else z l) (f l)) ∧
      (fl = 0 ∨ fl = fSA) ∧ (fl = fSA ↔ ∃ l < 64, ex.getLsbD l = true ∧ (z l < loOf t ∨ hiOf t < z l)) ∧
      exec i s = completed h (writeElems u t d ex f) fl ∧
      (fl = fSA → u.g.ftrap.getLsbD 5 = true → ∃ w, w = endIfEmpty (retire h (writeElems u t d ex f) fSA) ∧ w.g.fflags.getLsbD 5 = true ∧
        exec i s = .next (flush (trapAfter w (faultAt (writeElems u t d ex f) 2 5 255 0 0)))) := by
  obtain ⟨hcases, hiff⟩ := orFlags_satFlag t ex z
  refine ⟨_, _, fun l _ _ => holdsFit_sat t (z l), hcases, hiff, hx, fun hfl ht => ⟨_, rfl, ?_⟩⟩
  obtain ⟨hflag, htrap⟩ := completed_saTrap (h := h) (w := writeElems u t d ex (fun l => sat t (z l)))
    (by rw [writeElems_active]; exact ha) (by rw [writeElems_ftrap]; exact ht)
  exact ⟨hflag, hx.trans (hfl ▸ htrap)⟩

/-- Settles O15: the four instructions are one saturating result each. -/
theorem saturatingVectorResults : Obligations.SaturatingVectorResults := by
  unfold Obligations.SaturatingVectorResults
  intro h t d a b c s v _ hi ex w least most Result
  have result {i : Instr} {ops : List Opd} {z : Nat → Int}
      (hx : exec i s = completed h (writeElems (readRows ex ops v).1 t d ex (fun l => sat t (z l))) (orFlags ex (fun l => satFlag t (z l)))) :
      Result i (readRows ex ops v).1 z := by
    have hg := readRows_g ex ops v
    have hr := saturating_result hx (by rw [hg]; exact hi.active_ne_zero)
    rw [show (readRows ex ops v).1.g.ftrap = v.g.ftrap by rw [hg]] at hr
    exact hr
  exact ⟨fun ho => ⟨result (vector2_ready hi ho), result (vector2_ready hi ho)⟩, fun ho => ⟨result (vectorX_ready hi ho), result (vectorX_ready hi ho)⟩⟩

end Sys2Proof.Machine
end

section
/-! Cross-lane instructions: SHFL, RDFL and VOTE (R118 to R121), REDUCE and SCAN (R122) and SAMPLE (R150): the statements CrossLaneResults and
ReduceScanAndSampleComplete. -/
namespace Sys2Proof.Machine
open Sys2Proof

/-! ### SHFL, RDFL and VOTE -/

/-- The index operand of SHFL in its idx mode. -/
def shflIndex (t : Ty) : ShflMode → List Opd
  | .idx b => [vsrc t b]
  | _ => []

section
variable {h : Hdr} {t : Ty} {d a : VReg} {e : SReg} {p : PReg} {s : State} {v : View} (hi : Issues h s v)
include hi

/-- Each lane of EXEC gets the element of its source lane (R119). -/
theorem shfl_ready {m : ShflMode} (ho : OperandsReady ([vsrc t a] ++ shflIndex t m ++ [vdst t d]) v) :
    let q := readRows (execOf h v.g) ([vsrc t a] ++ shflIndex t m ++ [vdst t d]) v
    exec (.shfl h t d a m) s = completed h (writeElems q.1 t d (execOf h v.g)
      (fun l => elem t q.2 0 (shflSrc m (fun l => (elem t q.2 1 l).toNat % 2 ^ 32) l))) 0 := by
  have one : exec (.shfl h t d a m) s = issue h ([vsrc t a] ++ shflIndex t m ++ [vdst t d]) (fun v rows =>
      .done (writeElems v t d (execOf h v.g) (fun l => elem t rows 0 (shflSrc m (fun l => (elem t rows 1 l).toNat % 2 ^ 32) l))) 0) s := by
    cases m <;> rfl
  simp only [one, issue_ready hi ho, passOn_done, conclude_done, execOf_readRows]
  rfl

theorem rdfl_ready (ho : OperandsReady [vsrc t a, sdst e] v) :
    let q := readRows (execOf h v.g) [vsrc t a, sdst e] v
    let x := elem t q.2 0 ((lowest (execOf h v.g)).getD 0)
    exec (.rdfl h t e a) s = completed h { q.1 with g := writeS q.1.g e (if t = .s32 then (x.setWidth 32).signExtend 64 else x) } 0 := by
  simp only [exec, execRdfl, doneS, issue_ready hi ho, passOn_done, conclude_done, execOf_readRows]
  rfl

theorem vote_ballot (ho : OperandsReady [.p p, sdst e] v) :
    exec (.vote h e p .ballot) s = completed h { v with g := writeS v.g e (execOf h v.g &&& readP v.g p) } 0 := issue_scalar hi ho rfl

theorem vote_any (ho : OperandsReady [.p p, sdst e] v) :
    exec (.vote h e p .any) s = completed h { v with g := writeS v.g e (boolW (execOf h v.g &&& readP v.g p != 0)) } 0 := issue_scalar hi ho rfl

theorem vote_all (ho : OperandsReady [.p p, sdst e] v) :
    exec (.vote h e p .all) s = completed h { v with g := writeS v.g e (boolW (execOf h v.g &&& readP v.g p == execOf h v.g)) } 0 :=
  issue_scalar hi ho rfl

end

/-- A mask that is not empty has a lane. -/
theorem exists_lane {m : Lanes} (hm : m ≠ 0) : ∃ l, m.getLsbD l = true := by
  by_contra hn
  exact hm (BitVec.eq_of_getLsbD_eq fun l _ => by simpa using fun hl => hn ⟨l, hl⟩)

/-- The lowest lane of a mask that is not empty. -/
theorem lowest_spec {m : Lanes} (hm : m ≠ 0) :
    ∃ l < 64, m.getLsbD l = true ∧ (∀ k < l, m.getLsbD k = false) ∧ lowest m = some l := by
  have hex := exists_lane hm
  have hset := Nat.find_spec hex
  have hlow : ∀ k < Nat.find hex, m.getLsbD k = false := fun k hk => Bool.eq_false_iff.2 (Nat.find_min hex hk)
  have hlt : Nat.find hex < 64 := BitVec.lt_of_getLsbD hset
  exact ⟨_, hlt, hset, hlow, firstFrom_eq_some _ 0 64 _ (Nat.zero_le _) (by omega) hset (fun k _ hk => hlow k hk)⟩

/-- The condition of VOTE in its any mode (R121). -/
theorem lanes_bne_zero_iff (m : Lanes) : (m != 0) = true ↔ ∃ l < 64, m.getLsbD l = true := by
  rw [bne_iff_ne]
  refine ⟨fun hm => ?_, fun ⟨l, _, hl⟩ h0 => ?_⟩
  · obtain ⟨l, hl⟩ := exists_lane hm
    exact ⟨l, BitVec.lt_of_getLsbD hl, hl⟩
  · rw [h0, show (0 : Lanes).getLsbD l = false from BitVec.getLsbD_zero] at hl
    cases hl

/-- The condition of VOTE in its all mode (R121). -/
theorem lanes_and_beq_iff (ex p : Lanes) : (ex &&& p == ex) = true ↔ ∀ l < 64, ex.getLsbD l = true → p.getLsbD l = true := by
  rw [beq_iff_eq]
  refine ⟨fun he l _ hl => ?_, fun h => BitVec.eq_of_getLsbD_eq fun l hl => ?_⟩
  · have := congrArg (fun m => m.getLsbD l) he
    simpa [hl] using this
  · rw [BitVec.getLsbD_and]
    cases hx : ex.getLsbD l
    · rfl
    · rw [h l hl hx]; rfl

/-- Settles O21: SHFL by its source lane, RDFL by the lowest lane, VOTE by its mode. -/
theorem crossLaneResults : Obligations.CrossLaneResults := by
  unfold Obligations.CrossLaneResults
  intro h t d a b n e p s v hi ex
  refine ⟨fun ho => shfl_ready (m := .idx b) hi ho, fun ho => ?_, fun ho => ?_, ?_⟩
  · have up := shfl_ready (m := .up n) hi ho
    have down := shfl_ready (m := .down n) hi ho
    simp only [shflSrc, apply_ite (elem t _ 0)] at up down
    exact ⟨up, down, shfl_ready (m := .xor n) hi ho⟩
  · obtain ⟨l, hl, hset, hlow, he⟩ := lowest_spec hi.exec
    refine ⟨l, hl, hset, hlow, ?_⟩
    have hx := rdfl_ready hi ho
    rwa [he] at hx
  · intro ho m put
    have any := lanes_bne_zero_iff m
    have all := lanes_and_beq_iff ex (readP v.g p)
    refine ⟨vote_ballot hi ho, fun hm => ?_, fun hm => ?_, fun hm => ?_, fun ⟨l, hl, hx, hp⟩ => ?_⟩
    · exact (vote_any hi ho).trans (congrArg put ((boolW_of_iff any).1 hm))
    · exact (vote_any hi ho).trans (congrArg put ((boolW_of_iff any).2 (fun ⟨l, hl, hs⟩ => by simp [hm l hl] at hs)))
    · exact (vote_all hi ho).trans (congrArg put ((boolW_of_iff all).1 hm))
    · exact (vote_all hi ho).trans (congrArg put ((boolW_of_iff all).2 (fun hall => by simp [hall l hl hx] at hp)))

/-! ### REDUCE, SCAN and SAMPLE -/

section
variable {h : Hdr} {t : Ty} {d a : VReg} {e b : SReg} {s : State} {v : View} (hi : Issues h s v)
include hi

theorem reduce_ready {op : RedOp} (ho : OperandsReady [vsrc t a, sdst e] v) :
    let q := readRows (execOf h v.g) [vsrc t a, sdst e] v
    let r := reduceAll t op 6 (redStart t op (execOf h v.g) (elem t q.2 0)) 0
    exec (.reduce h t e a op) s = completed h { q.1 with g := writeS q.1.g e r.1 } r.2 := by
  simp only [exec, execReduce, issue_ready hi ho, passOn_done, conclude_done, execOf_readRows]
  rfl

theorem scan_ready {op : RedOp} {excl : Bool} (ho : OperandsReady [vsrc t a, vdst t d] v) :
    let q := readRows (execOf h v.g) [vsrc t a, vdst t d] v
    let r := scanAll t op [1, 2, 4, 8, 16, 32] (redStart t op (execOf h v.g) (elem t q.2 0)) 0
    exec (.scan h t d a op excl) s = completed h (writeElems q.1 t d (execOf h v.g)
      (fun l => if excl then (if l = 0 then identOf t op else r.1.getD (l - 1) 0) else r.1.getD l 0)) r.2 := by
  simp only [exec, execScan, issue_ready hi ho, passOn_done, conclude_done, execOf_readRows]
  rfl

theorem sample_ready (ho : OperandsReady [vsrc .f32 a, ssrc b, sdst e] v) :
    let q := readRows (execOf h v.g) [vsrc .f32 a, ssrc b, sdst e] v
    let r := sampleOf (execOf h v.g) (fun l => (elem .f32 q.2 0 l).toNat) ((readS v.g b).toNat % 2 ^ 32)
    exec (.sample h e a b) s = completed h { q.1 with g := writeS q.1.g e r.1 } r.2 := by
  simp only [exec, execSample, issue_ready hi ho, passOn_done, conclude_done, execOf_readRows, readS_readRows]
  rfl

end

/-- SAMPLE raises NV, or nothing. -/
theorem sampleOf_flags (ex : Lanes) (w : Nat → Nat) (u : Nat) : (sampleOf ex w u).2 = 0 ∨ (sampleOf ex w u).2 = fNV := by
  unfold sampleOf
  lift_lets
  intro ws bad sums tot thr chosen
  split
  · exact .inr rfl
  · left
    split
    · rfl
    · split
      · rfl
      · split <;> rfl

/-- Settles O23: each is one attempt, whose value and flags are those of the reduction, the scan or the choice. -/
theorem reduceScanAndSampleComplete : Obligations.ReduceScanAndSampleComplete := by
  unfold Obligations.ReduceScanAndSampleComplete
  intro h t e b d a op s v hi ex
  exact ⟨fun ho => reduce_ready hi ho, fun ho => ⟨scan_ready (excl := false) hi ho, scan_ready (excl := true) hi ho⟩,
    fun ho => ⟨sample_ready hi ho, sampleOf_flags _ _ _⟩⟩

end Sys2Proof.Machine
end

section
/-! REDUCE over an integer type (R122): the six rounds of neighbours fold the lanes of EXEC: the statement IntegerReductionFoldsTheLanes. -/
namespace Sys2Proof.Machine
open Sys2Proof

/-! ### The numbers of a type (R103) -/

theorem hiOf_sub_loOf_lt (t : Ty) : hiOf t - loOf t < 2 ^ tyWidth t := by cases t <;> decide

theorem val_range (t : Ty) (x : W64) : loOf t ≤ val t x ∧ val t x ≤ hiOf t := by
  unfold loOf hiOf val
  cases tySigned t
  · have hlt : uns t x < 2 ^ tyWidth t := by
      unfold uns
      exact_mod_cast (x.setWidth (tyWidth t)).isLt
    have hge : 0 ≤ uns t x := Int.natCast_nonneg _
    simp only [Bool.false_eq_true, if_false]
    omega
  · have hge : -2 ^ (tyWidth t - 1) ≤ sgn t x := BitVec.le_toInt _
    have hlt : sgn t x < 2 ^ (tyWidth t - 1) := BitVec.toInt_lt
    simp only [if_true]
    omega

/-- Fitting leaves a number that the type can hold. -/
theorem val_fit {t : Ty} {y : Int} (hlo : loOf t ≤ y) (hhi : y ≤ hiOf t) : val t (fit t y) = y := by
  obtain ⟨hlo', hhi'⟩ := val_range t (fit t y)
  have hw := hiOf_sub_loOf_lt t
  have h0 : val t (fit t y) - y = 0 := Int.eq_zero_of_abs_lt_dvd (Int.dvd_of_emod_eq_zero (holdsFit_fit t y).1) (by rw [abs_lt]; constructor <;> omega)
  omega

theorem val_fit_val (t : Ty) (x : W64) : val t (fit t (val t x)) = val t x := val_fit (val_range t x).1 (val_range t x).2

theorem val_opMin (t : Ty) (a b : W64) : val t (opMin t a b) = min (val t a) (val t b) := by
  rcases min_choice (val t a) (val t b) with h | h <;> rw [opMin, h, val_fit_val]

theorem val_opMax (t : Ty) (a b : W64) : val t (opMax t a b) = max (val t a) (val t b) := by
  rcases max_choice (val t a) (val t b) with h | h <;> rw [opMax, h, val_fit_val]

theorem val_le_redIdent_min (t : Ty) (a : W64) : val t a ≤ val t (redIdent t .min) := by
  obtain ⟨hlo, hhi⟩ := val_range t a
  rw [redIdent, val_fit (hlo.trans hhi) le_rfl]
  exact hhi

theorem redIdent_max_le_val (t : Ty) (a : W64) : val t (redIdent t .max) ≤ val t a := by
  obtain ⟨hlo, hhi⟩ := val_range t a
  rw [redIdent, val_fit le_rfl (hlo.trans hhi)]
  exact hlo

/-- Modulo 2^W a fitted number is the number. -/
theorem val_fit_zmod (t : Ty) (y : Int) : (val t (fit t y) : ZMod (2 ^ tyWidth t)) = y := by
  rw [← sub_eq_zero, ← Int.cast_sub, ZMod.intCast_zmod_eq_zero_iff_dvd]
  exact_mod_cast Int.dvd_of_emod_eq_zero (holdsFit_fit t y).1

/-! ### Every value is fitted -/

/-- `x` is a number fitted under the type. -/
def Fitted (t : Ty) (x : W64) : Prop := ∃ y, x = fit t y

theorem Fitted.holdsFit {t : Ty} {x : W64} {y : Int} (hx : Fitted t x) (hy : (val t x - y) % 2 ^ tyWidth t = 0) : HoldsFit t y x := by
  obtain ⟨z, rfl⟩ := hx
  exact ⟨hy, (holdsFit_fit t z).2⟩

theorem fitted_zero (t : Ty) : Fitted t 0 := ⟨0, by cases t <;> rfl⟩

theorem fitted_redInt (t : Ty) (o : RedOp) (a b : W64) : Fitted t (redInt t o a b) := by cases o <;> exact ⟨_, rfl⟩

theorem fitted_redIdent (t : Ty) (o : RedOp) : Fitted t (redIdent t o) := by
  cases o with
  | add | or | xor => exact fitted_zero t
  | min | max | and => exact ⟨_, rfl⟩

/-! ### The rounds over an integer type -/

section
variable {t : Ty} {o : RedOp} (ht : t ≠ .f32)
include ht

/-- A round combines neighbours, and raises no flag. -/
theorem halve_cons_cons (a b : W64) (rest : List W64) :
    halve t o (a :: b :: rest) 0 = (redInt t o a b :: (halve t o rest 0).1, (halve t o rest 0).2) := by
  simp only [halve, redStep, if_neg ht, show (0 : Flg) ||| 0 = 0 from rfl]

theorem halve_flags : ∀ l : List W64, (halve t o l 0).2 = 0
  | [] => rfl
  | [_] => rfl
  | a :: b :: rest => by rw [halve_cons_cons ht]; exact halve_flags rest

theorem halve_length : ∀ (n : Nat) (l : List W64), l.length = 2 * n → (halve t o l 0).1.length = n
  | 0, l, hl => by rw [List.length_eq_zero_iff.1 hl]; rfl
  | n + 1, a :: b :: rest, hl => by
    rw [halve_cons_cons ht, List.length_cons, halve_length n rest (by simp only [List.length_cons] at hl; omega)]
  | n + 1, [], hl => by cases hl
  | n + 1, [a], hl => by simp only [List.length_singleton] at hl; omega

theorem halve_fitted : ∀ l : List W64, (∀ a ∈ l, Fitted t a) → ∀ a ∈ (halve t o l 0).1, Fitted t a
  | [], hl => hl
  | [_], hl => hl
  | a :: b :: rest, hl => by
    rw [halve_cons_cons ht, List.forall_mem_cons]
    exact ⟨fitted_redInt t o a b, halve_fitted rest (fun c hc => hl c (by simp [hc]))⟩

theorem reduceAll_flags (n : Nat) (l : List W64) : (reduceAll t o n l 0).2 = 0 := by
  induction n generalizing l with
  | zero => rfl
  | succ n ih => rw [reduceAll, halve_flags ht]; exact ih _

theorem reduceAll_fitted (n : Nat) (l : List W64) (hl : ∀ a ∈ l, Fitted t a) : Fitted t (reduceAll t o n l 0).1 := by
  induction n generalizing l with
  | zero =>
    cases l with
    | nil => exact fitted_zero t
    | cons a l => exact hl a (List.mem_cons_self ..)
  | succ n ih => rw [reduceAll, halve_flags ht]; exact ih _ (halve_fitted ht l hl)

theorem redStart_eq (ex : Lanes) (x : Nat → W64) :
    redStart t o ex x = (List.range 64).map (fun i => if ex.getLsbD i then fit t (val t (x i)) else redIdent t o) := by
  simp only [redStart, identOf, if_neg ht]

theorem redStart_fitted (ex : Lanes) (x : Nat → W64) : ∀ a ∈ redStart t o ex x, Fitted t a := by
  rw [redStart_eq ht, List.forall_mem_map]
  intro i _
  split
  · exact ⟨_, rfl⟩
  · exact fitted_redIdent t o

/-! ### The rounds fold the lanes

`φ` sends a combination to an associative operation of which the identity goes to the neutral element. -/

section
variable {M : Type} {op : M → M → M} {e : M} [Std.Associative op] {φ : W64 → M} (hφ : ∀ a b, φ (redInt t o a b) = op (φ a) (φ b))
include hφ

theorem halve_foldr : ∀ l : List W64, ((halve t o l 0).1.map φ).foldr op e = (l.map φ).foldr op e
  | [] => rfl
  | [_] => rfl
  | a :: b :: rest => by
    rw [halve_cons_cons ht]
    simp only [List.map_cons, List.foldr_cons, hφ, halve_foldr rest, Std.Associative.assoc]

variable [Std.LawfulIdentity op e]

theorem reduceAll_foldr (n : Nat) (l : List W64) (hl : l.length = 2 ^ n) : φ (reduceAll t o n l 0).1 = (l.map φ).foldr op e := by
  induction n generalizing l with
  | zero =>
    obtain ⟨a, rfl⟩ := List.length_eq_one_iff.1 hl
    exact (Std.LawfulRightIdentity.right_id (φ a)).symm
  | succ n ih =>
    rw [reduceAll, halve_flags ht, ih _ (halve_length ht _ l (by rw [hl, Nat.pow_succ']))]
    exact halve_foldr ht hφ l

/-- Lanes outside EXEC hold the identity and add nothing. -/
theorem reduceAll_lanes (hid : φ (redIdent t o) = e) (ex : Lanes) (x : Nat → W64) :
    φ (reduceAll t o 6 (redStart t o ex x) 0).1 = ((laneList ex).map (fun l => φ (fit t (val t (x l))))).foldr op e := by
  rw [reduceAll_foldr ht hφ 6 _ (by simp [redStart]), redStart_eq ht, laneList, List.foldr_map, List.foldr_map, List.foldr_map, List.foldr_filter]
  congr 1
  funext i m
  split
  · rfl
  · exact (congrArg (op · m) hid).trans (Std.LawfulLeftIdentity.left_id m)

end

/-- Where a combination takes the least under an order, and the identity is above all, the reduction is the least of the lanes. -/
theorem reduceAll_least {β : Type} [LinearOrder β] {w : W64 → β} (hw : ∀ a, w (fit t (val t a)) = w a)
    (hop : ∀ a b, w (redInt t o a b) = min (w a) (w b)) (hid : ∀ a, w a ≤ w (redIdent t o)) {ex : Lanes} (hex : ex ≠ 0) (x : Nat → W64) :
    ∃ l ∈ laneList ex, w (reduceAll t o 6 (redStart t o ex x) 0).1 = w (x l) ∧ ∀ k ∈ laneList ex, w (x l) ≤ w (x k) := by
  obtain ⟨j, hj⟩ := exists_lane hex
  obtain ⟨l, hl, hmin⟩ := (laneList ex).toFinset.exists_min_image (fun k => w (x k)) ⟨j, by simp [hj, BitVec.lt_of_getLsbD hj]⟩
  simp only [List.mem_toFinset] at hl hmin
  have below (c : W64) : w c ≤ w (reduceAll t o 6 (redStart t o ex x) 0).1 ↔ ∀ k ∈ laneList ex, w c ≤ w (x k) := by
    have fold := reduceAll_lanes ht (op := And) (e := True) (φ := fun a => w c ≤ w a) (fun a b => by rw [hop, le_min_iff])
      (eq_true (hid c)) ex x
    simp only [hw] at fold
    rw [fold]
    generalize laneList ex = L
    induction L with
    | nil => simp
    | cons k L ih => simp [ih]
  exact ⟨l, hl, le_antisymm ((below _).1 le_rfl l hl) ((below _).2 hmin), hmin⟩

theorem reduceAll_min {ex : Lanes} (hex : ex ≠ 0) (x : Nat → W64) :
    ∃ l ∈ laneList ex, val t (reduceAll t .min 6 (redStart t .min ex x) 0).1 = val t (x l) ∧ ∀ k ∈ laneList ex, val t (x l) ≤ val t (x k) :=
  reduceAll_least ht (o := .min) (val_fit_val t) (val_opMin t) (val_le_redIdent_min t) hex x

/-- The greatest is the least under the dual order. -/
theorem reduceAll_max {ex : Lanes} (hex : ex ≠ 0) (x : Nat → W64) :
    ∃ l ∈ laneList ex, val t (reduceAll t .max 6 (redStart t .max ex x) 0).1 = val t (x l) ∧ ∀ k ∈ laneList ex, val t (x k) ≤ val t (x l) :=
  reduceAll_least ht (o := .max) (w := fun a => OrderDual.toDual (val t a)) (val_fit_val t) (val_opMax t) (redIdent_max_le_val t) hex x

theorem reduceAll_add (ex : Lanes) (x : Nat → W64) :
    (val t (reduceAll t .add 6 (redStart t .add ex x) 0).1 - ((laneList ex).map (fun l => val t (x l))).sum) % 2 ^ tyWidth t = 0 := by
  have fold := reduceAll_lanes ht (o := .add) (M := ZMod (2 ^ tyWidth t)) (op := (· + ·)) (e := 0) (φ := fun a => (val t a : ZMod (2 ^ tyWidth t)))
    (fun a b => by rw [redInt, opAdd, val_fit_zmod, Int.cast_add]) (by cases t <;> rfl) ex x
  simp only [val_fit_zmod, ← List.sum_eq_foldr] at fold
  apply Int.emod_eq_zero_of_dvd
  have hz := (ZMod.intCast_zmod_eq_zero_iff_dvd (val t (reduceAll t .add 6 (redStart t .add ex x) 0).1 -
    ((laneList ex).map (fun l => val t (x l))).sum) (2 ^ tyWidth t)).1 (by
      rw [Int.cast_sub, fold, Int.cast_list_sum, List.map_map]
      exact sub_self _)
  exact_mod_cast hz

end

/-- Settles O22: the value that the rounds leave is fitted, and it is the sum, the least or the greatest of the lanes. -/
theorem integerReductionFoldsTheLanes : Obligations.IntegerReductionFoldsTheLanes := by
  unfold Obligations.IntegerReductionFoldsTheLanes
  intro h t e a s v hi ho hint ex q x put
  have ht : t ≠ .f32 := fun h => by rw [h] at hint; cases hint
  have reduces (op : RedOp) : exec (.reduce h t e a op) s = put (reduceAll t op 6 (redStart t op ex (elem t q.2 0)) 0).1 := by
    rw [reduce_ready hi ho, reduceAll_flags ht]
  have fitted (op : RedOp) := reduceAll_fitted (o := op) ht 6 _ (redStart_fitted (o := op) ht ex (elem t q.2 0))
  refine ⟨⟨_, reduces .add, (fitted .add).holdsFit (reduceAll_add ht ex _)⟩, ?_, ?_⟩
  · obtain ⟨l, hl, heq, hleast⟩ := reduceAll_min ht hi.exec (elem t q.2 0)
    exact ⟨_, l, reduces .min, hl, (fitted .min).holdsFit (by rw [heq, sub_self, Int.zero_emod]), hleast⟩
  · obtain ⟨l, hl, heq, hgreatest⟩ := reduceAll_max ht hi.exec (elem t q.2 0)
    exact ⟨_, l, reduces .max, hl, (fitted .max).holdsFit (by rw [heq, sub_self, Int.zero_emod]), hgreatest⟩

end Sys2Proof.Machine
end

section
/-! Rounding a value that its format holds: the statement RoundingKeepsRepresentableValues (R124, R131). -/
namespace Sys2Proof.Machine
open Sys2Proof

/-! ### The value of magnitude bits -/

theorem bitLen_le_iff (n k : Nat) : bitLen n ≤ k ↔ n < 2 ^ k := by
  unfold bitLen
  by_cases hn : n = 0
  · simp [hn]
  · rw [if_neg hn, Nat.add_one_le_iff, Nat.log2_lt hn]

section
variable (f : Fmt) (neg : Bool) {b : Nat}

theorem magDy_of_lt (hb : b < 2 ^ f.fb) : magDy f neg b = { neg := neg, m := b, e := 1 - f.bias - f.fb } := by
  simp [magDy, Nat.div_eq_of_lt hb, Nat.mod_eq_of_lt hb]

theorem magDy_of_ge (hb : 2 ^ f.fb ≤ b) :
    magDy f neg b = { neg := neg, m := 2 ^ f.fb + b % 2 ^ f.fb, e := ((b / 2 ^ f.fb : Nat) : Int) - f.bias - f.fb } := by
  have hpos : b / 2 ^ f.fb ≠ 0 := (Nat.div_pos hb (Nat.two_pow_pos _)).ne'
  simp only [magDy, if_neg hpos]

/-- The last place of a value of the format is the exponent it is held under. -/
theorem quantum_magDy (b : Nat) : quantum f (magDy f neg b) = (magDy f neg b).e := by
  unfold quantum
  rcases Nat.lt_or_ge b (2 ^ f.fb) with hb | hb
  · have hlen : bitLen b ≤ f.fb := (bitLen_le_iff b f.fb).2 hb
    rw [magDy_of_lt f neg hb]
    dsimp only
    omega
  · have hpos : 0 < b / 2 ^ f.fb := Nat.div_pos hb (Nat.two_pow_pos _)
    have hfr : b % 2 ^ f.fb < 2 ^ f.fb := Nat.mod_lt _ (Nat.two_pow_pos _)
    have hle : bitLen (2 ^ f.fb + b % 2 ^ f.fb) ≤ f.fb + 1 := (bitLen_le_iff _ _).2 (by rw [pow_succ]; omega)
    have hgt : ¬ bitLen (2 ^ f.fb + b % 2 ^ f.fb) ≤ f.fb := by rw [bitLen_le_iff]; omega
    rw [magDy_of_ge f neg hb]
    dsimp only
    omega

/-- Nothing is rounded away below a last place that is not finer than the value's own. -/
theorem roundUnits_of_le {mode : RMode} {d : Dy} {q : Int} {noise : Nat} (h : q ≤ d.e) :
    roundUnits mode d q noise = (d.m * 2 ^ (d.e - q).toNat, false) := by
  simp [roundUnits, h]

theorem roundRaw_magDy (mode : RMode) (noise b : Nat) : roundRaw f mode (magDy f neg b) noise = (b, false) := by
  simp only [roundRaw, quantum_magDy, roundUnits_of_le le_rfl]
  rcases Nat.lt_or_ge b (2 ^ f.fb) with hb | hb
  · rw [magDy_of_lt f neg hb]
    by_cases h0 : b = 0
    · simp [h0]
    · simp [h0]
  · have hpos : 0 < b / 2 ^ f.fb := Nat.div_pos hb (Nat.two_pow_pos _)
    have hfield : (((b / 2 ^ f.fb : Nat) : Int) - f.bias - f.fb + f.fb + f.bias - 1).toNat = b / 2 ^ f.fb - 1 := by omega
    have hparts : (b / 2 ^ f.fb - 1) * 2 ^ f.fb + (2 ^ f.fb + b % 2 ^ f.fb) = b := by
      rw [← Nat.add_assoc, ← Nat.succ_mul, Nat.succ_eq_add_one, Nat.sub_add_cancel hpos, Nat.div_add_mod']
    rw [magDy_of_ge f neg hb]
    have hm : 2 ^ f.fb + b % 2 ^ f.fb ≠ 0 := (Nat.add_pos_left (Nat.two_pow_pos _) _).ne'
    simp only [if_neg hm, hfield, sub_self, Int.toNat_zero, pow_zero, Nat.mul_one, hparts]

/-- Bits that are not less give a value that is not less: under the same exponent a significand that is not less, under a greater one at
least half of it. -/
theorem magDy_mono {c : Nat} (h : b ≤ c) :
    ((magDy f neg b).e = (magDy f false c).e ∧ (magDy f neg b).m ≤ (magDy f false c).m) ∨
      ((magDy f neg b).e < (magDy f false c).e ∧ (magDy f neg b).m ≤ 2 * (magDy f false c).m) := by
  have hfields : b / 2 ^ f.fb ≤ c / 2 ^ f.fb := Nat.div_le_div_right h
  have hfrac : b % 2 ^ f.fb < 2 ^ f.fb := Nat.mod_lt _ (Nat.two_pow_pos _)
  rcases Nat.lt_or_ge c (2 ^ f.fb) with hc | hc
  · rw [magDy_of_lt f neg (h.trans_lt hc), magDy_of_lt f false hc]
    exact .inl ⟨rfl, h⟩
  · have hpos : 0 < c / 2 ^ f.fb := Nat.div_pos hc (Nat.two_pow_pos _)
    rw [magDy_of_ge f false hc]
    rcases Nat.lt_or_ge b (2 ^ f.fb) with hb | hb
    · rw [magDy_of_lt f neg hb]
      dsimp only
      omega
    · rw [magDy_of_ge f neg hb]
      dsimp only
      rcases hfields.eq_or_lt with heq | hlt
      · have hb' := Nat.div_add_mod b (2 ^ f.fb)
        have hc' := Nat.div_add_mod c (2 ^ f.fb)
        rw [heq] at hb'
        omega
      · omega

/-- No value of the format lies above that of bits which are not less. -/
theorem exceeds_magDy {c : Nat} (h : b ≤ c) : exceeds f (magDy f neg b) c = false := by
  unfold exceeds
  rcases magDy_mono f neg h with ⟨he, hm⟩ | ⟨he, hm⟩
  · simp [he, hm]
  · have htwo : 2 ^ 1 ≤ 2 ^ ((magDy f false c).e - (magDy f neg b).e).toNat := Nat.pow_le_pow_right (by decide) (by omega)
    have hle : (magDy f neg b).m ≤ (magDy f false c).m * 2 ^ ((magDy f false c).e - (magDy f neg b).e).toNat := calc
      (magDy f neg b).m ≤ (magDy f false c).m * 2 ^ 1 := by omega
      _ ≤ _ := Nat.mul_le_mul_left _ htwo
    simp [show ¬ (magDy f false c).e ≤ (magDy f neg b).e by omega, hle]

/-- Rounding the value of finite bits gives them back under the value's sign, in every mode and whatever the draw. -/
theorem roundF_magDy (mode : RMode) (noise : Nat) (hb : b < infBits f) : roundF f mode noise (magDy f neg b) = (withSign f neg b, 0) := by
  have hbig : exceeds f (magDy f neg b) (maxBits f) = false := exceeds_magDy f neg (Nat.le_sub_one_of_lt hb)
  have hneg : (magDy f neg b).neg = neg := by simp only [magDy]; split <;> rfl
  simp [roundF, hbig, roundRaw_magDy, hneg, hb]

end

/-! ### Decoding and rounding -/

/-- A pattern that decodes to a number is its magnitude bits, which are finite ones, under its sign bit. -/
theorem magDy_of_decF {f : Fmt} {x : Nat} {z : Dy} (h : decF f x = .fin z) :
    x % signBit f < infBits f ∧ z = magDy f (decide (x / signBit f % 2 = 1)) (x % signBit f) := by
  have hlt : x % signBit f < signBit f := Nat.mod_lt _ (Nat.two_pow_pos _)
  simp only [decF] at h
  by_cases hi : f.ieee = true
  · rw [if_pos hi] at h
    by_cases hb : x % signBit f < infBits f
    · rw [if_pos hb] at h
      exact ⟨hb, (FVal.fin.inj h).symm⟩
    · rw [if_neg hb] at h
      split at h <;> cases h
  · have hinf : infBits f = signBit f - 1 := by simp [infBits, signBit, hi]
    rw [if_neg hi] at h
    by_cases hb : x % signBit f = infBits f
    · rw [if_pos hb] at h
      cases h
    · rw [if_neg hb] at h
      exact ⟨by omega, (FVal.fin.inj h).symm⟩

theorem withSign_mod {f : Fmt} {x : Nat} (hx : x < 2 * signBit f) : withSign f (decide (x / signBit f % 2 = 1)) (x % signBit f) = x := by
  have hparts := Nat.div_add_mod x (signBit f)
  obtain h0 | h1 := Nat.le_one_iff_eq_zero_or_eq_one.1 (Nat.le_of_lt_succ (Nat.div_lt_of_lt_mul (by rwa [Nat.mul_comm] at hx)))
  · rw [h0, Nat.mul_zero, Nat.zero_add] at hparts
    simp [withSign, h0, hparts]
  · rw [h1, Nat.mul_one] at hparts
    simp [withSign, h1, hparts]

/-- Settles O36: a number decoded is the value of finite magnitude bits, and rounding that value gives them back. -/
theorem roundingKeepsRepresentableValues : Obligations.RoundingKeepsRepresentableValues := by
  unfold Obligations.RoundingKeepsRepresentableValues
  intro t _ m x z hx _ hz
  obtain ⟨hfinite, rfl⟩ := magDy_of_decF hz
  rw [roundF_magDy _ _ m 0 hfinite, withSign_mod hx]

end Sys2Proof.Machine
end

section
/-! The float arithmetic of slots (R126, R131, R133, R145): the statement FloatArithmeticResults. -/
namespace Sys2Proof.Machine
open Sys2Proof

/-! ### One result and one set of flags per lane of EXEC -/

theorem getD_range_map {α : Type} (g : Nat → α) (d : α) {k l : Nat} (hl : l < k) : ((List.range k).map g).getD l d = g l := by
  simp [List.getD_eq_getElem?_getD, hl]

/-- The flags of a list of results are the OR over it. -/
theorem foldl_or_results_bit {α : Type} (L : List (α × Flg)) (a : Flg) (k : Nat) :
    (L.foldl (fun (fl : Flg) (e : α × Flg) => fl ||| e.2) a).getLsbD k = true ↔ a.getLsbD k = true ∨ ∃ e ∈ L, e.2.getLsbD k = true := by
  induction L generalizing a with
  | nil => simp
  | cons e L ih => simp [ih, or_assoc]

/-- The results `g` of the lanes of `m`, with `x` and no flag in the others. -/
def laneValues {α : Type} (m : Lanes) (x : α) (g : Nat → α × Flg) : List (α × Flg) :=
  (List.range 64).map (fun l => if m.getLsbD l then g l else (x, 0))

/-- The OR of the flags of a list of results. -/
def flagsOr {α : Type} (L : List (α × Flg)) : Flg := L.foldl (fun fl e => fl ||| e.2) 0

theorem laneValues_getD {α : Type} {m : Lanes} (x : α) (g : Nat → α × Flg) {l : Nat} (hl : l < 64) (hm : m.getLsbD l = true) :
    (laneValues m x g).getD l (x, 0) = g l := by
  rw [laneValues, getD_range_map _ _ hl, if_pos hm]

/-- A flag is raised when some lane of the mask raises it (R35). -/
theorem flagsOr_laneValues_bit {α : Type} (m : Lanes) (x : α) (g : Nat → α × Flg) (k : Nat) :
    (flagsOr (laneValues m x g)).getLsbD k = true ↔ ∃ l < 64, m.getLsbD l = true ∧ (g l).2.getLsbD k = true := by
  rw [flagsOr, foldl_or_results_bit]
  constructor
  · rintro (h | ⟨e, he, hk⟩)
    · simp at h
    · obtain ⟨l, hl, rfl⟩ := List.mem_map.1 he
      by_cases hm : m.getLsbD l = true
      · exact ⟨l, List.mem_range.1 hl, hm, by simpa [hm] using hk⟩
      · simp [hm] at hk
  · rintro ⟨l, hl, hm, hk⟩
    exact .inr ⟨_, List.mem_map.2 ⟨l, List.mem_range.2 hl, rfl⟩, by simpa [hm] using hk⟩

theorem rget_resRow {m : Lanes} (g : Nat → W32 × Flg) {l : Nat} (hl : l < 64) (hm : m.getLsbD l = true) :
    rget (resRow (laneResults m g)) l = (g l).1 := by
  simp [rget, resRow, laneResults, List.getD_eq_getElem?_getD, hl, hm]

theorem resFlags_bit (m : Lanes) (g : Nat → W32 × Flg) (k : Nat) :
    (resFlags (laneResults m g)).getLsbD k = true ↔ ∃ l < 64, m.getLsbD l = true ∧ (g l).2.getLsbD k = true :=
  flagsOr_laneValues_bit m 0 g k

/-! ### Float arithmetic (R126, R131, R145) -/

/-- The rounding mode is no matter of the queues that reading pops. -/
theorem frm_readRows (ex : Lanes) (ops : List Opd) (v : View) : (readRows ex ops v).1.g.frm = v.g.frm := by
  rw [readRows_g]

/-- A source past the last reads as 0, as a row of zeros does. -/
theorem arg_slots (t : Ty) (rows : List Row) (l j k : Nat) :
    arg (rows.map (fun x => slotVal t (rget x l) j)) k = slotVal t (rget (rows.getD k zeroRow) l) j := by
  have hzero : slotVal t (rget zeroRow l) j = 0 := by
    rcases lt_or_ge l 64 with hl | hl
    · rw [zeroRow, rget_rowOf _ _ hl]
      simp [slotVal]
    · simp [zeroRow, rget, List.getD_eq_getElem?_getD, rowOf_length, hl, slotVal]
  rw [arg, ← hzero]
  exact List.getD_map rows zeroRow _

/-- Instruction `i` completes: each lane of EXEC gets in each slot the operation `f` of the draw and of the sources' elements, once rounded,
and the flags are the OR over the lanes and the slots. -/
def FloatResult (h : Hdr) (t : Ty) (d : VReg) (ex : Lanes) (s : State) (i : Instr) (mode : RMode) (q : View × List Row)
    (f : Nat → (Nat → Nat) → Nat × Flg) : Prop :=
  ∃ (row : Row) (fl : BitVec 6), exec i s = completed h (bumpRound (writeRow q.1 d.toNat ex row) mode) fl ∧
    (∀ l < 64, ex.getLsbD l = true → rget row l =
      (perSlot t (fun j => f (drawOf q.1 mode l j) (fun m => slotVal t (rget (q.2.getD m zeroRow) l) j))).1) ∧
    ∀ k < 6, fl.getLsbD k = true ↔ ∃ l < 64, ex.getLsbD l = true ∧
      (perSlot t (fun j => f (drawOf q.1 mode l j) (fun m => slotVal t (rget (q.2.getD m zeroRow) l) j))).2.getLsbD k = true

/-- Every float instruction on slots is one such result. -/
theorem floatOp_result {h : Hdr} {t : Ty} {r : Rm} {d : VReg} {srcs : List VReg} {s : State} {v : View} (hi : Issues h s v)
    (ho : OperandsReady (srcs.map (vsrc t) ++ [vdst t d]) v) {i : Instr} (f : RMode → Nat → (Nat → Nat) → Nat × Flg)
    (he : exec i s = floatOp h t r d srcs (fun m n x => f m n (arg x)) s) :
    FloatResult h t d (execOf h v.g) s i (effMode r v.g.frm) (readRows (execOf h v.g) (srcs.map (vsrc t) ++ [vdst t d]) v)
      (f (effMode r v.g.frm)) := by
  let q := readRows (execOf h v.g) (srcs.map (vsrc t) ++ [vdst t d]) v
  let lane := fun l => perSlot t (fun j => f (effMode r v.g.frm) (drawOf q.1 (effMode r v.g.frm) l j)
    (fun k => slotVal t (rget (q.2.getD k zeroRow) l) j))
  refine ⟨resRow (laneResults (execOf h v.g) lane), resFlags (laneResults (execOf h v.g) lane), ?_,
    fun l hl hm => rget_resRow lane hl hm, fun k _ => resFlags_bit _ lane k⟩
  have hargs (l j : Nat) : arg (q.2.map (fun x => slotVal t (rget x l) j)) = fun k => slotVal t (rget (q.2.getD k zeroRow) l) j :=
    funext (arg_slots t q.2 l j)
  rw [he]
  simp only [floatOp, issue_ready hi ho, passOn_done, conclude_done, execOf_readRows, frm_readRows, completed, lane, q] at hargs ⊢
  simp only [hargs]

/-- Slots that raise no flag leave none raised. -/
theorem perSlot_noFlag (t : Ty) (g : Nat → Nat × Flg) (hg : ∀ j, (g j).2 = 0) : (perSlot t g).2 = 0 := by
  have hfold (L : List Nat) (a : W32 × Flg) (ha : a.2 = 0) : (L.foldl (fun a i =>
      (a.1 ||| BitVec.ofNat 32 ((g i).1 * 2 ^ (tyWidth t * i)), a.2 ||| (g i).2)) a).2 = 0 := by
    induction L generalizing a with
    | nil => exact ha
    | cons i L ih => exact ih _ (by simp [ha, hg i])
  exact hfold _ _ rfl

/-- An operation that raises no flag on any element completes without one. -/
theorem FloatResult.noFlag {h : Hdr} {t : Ty} {d : VReg} {ex : Lanes} {s : State} {i : Instr} {mode : RMode} {q : View × List Row}
    {f : Nat → (Nat → Nat) → Nat × Flg} (hr : FloatResult h t d ex s i mode q f) (hf : ∀ n x, (f n x).2 = 0) :
    ∃ w, exec i s = completed h w 0 := by
  obtain ⟨row, fl, he, _, hflags⟩ := hr
  have hzero : fl = 0 := by
    apply BitVec.eq_of_getLsbD_eq
    intro k hk
    have hk' := hflags k hk
    simp only [perSlot_noFlag t _ (fun _ => hf _ _)] at hk'
    simpa using hk'
  exact ⟨_, hzero ▸ he⟩

/-- Settles O34: each instruction is a float operation on slots, in its effective mode. -/
theorem floatArithmeticResults : Obligations.FloatArithmeticResults := by
  unfold Obligations.FloatArithmeticResults
  intro h t r d a b c s v hi ex F Result m rn
  have two (i : Instr) (r : Rm) (ho : OperandsReady ([a, b].map (vsrc t) ++ [vdst t d]) v) := floatOp_result hi ho (r := r) (i := i)
  have three (i : Instr) (ho : OperandsReady ([a, b, c].map (vsrc t) ++ [vdst t d]) v) := floatOp_result hi ho (r := r) (i := i)
  have one (i : Instr) (r : Rm) (ho : OperandsReady ([a].map (vsrc t) ++ [vdst t d]) v) := floatOp_result hi ho (r := r) (i := i)
  refine ⟨fun ho => ⟨?_, ?_, ?_, ?_, ?_⟩, fun ho => ?_, fun ho => ⟨?_, ?_, ?_, ?_, ?_, ?_, ?_, ?_, ?_, ?_⟩⟩
  · exact two (.fadd h t r d a b) r ho (fun m n x => addV F m n (decF F (x 0)) (decF F (x 1))) rfl
  · exact two (.fsub h t r d a b) r ho (fun m n x => addV F m n (decF F (x 0)) (negV (decF F (x 1)))) rfl
  · exact two (.fmul h t r d a b) r ho (fun m n x => mulV F m n (decF F (x 0)) (decF F (x 1))) rfl
  · exact two (.fmin h t d a b) .rn ho (fun _ _ x => minmaxF F false (x 0) (x 1)) rfl
  · exact two (.fmax h t d a b) .rn ho (fun _ _ x => minmaxF F true (x 0) (x 1)) rfl
  · exact three (.ffma h t r d a b c) ho (fun m n x => fmaV F m n (decF F (x 0)) (decF F (x 1)) (decF F (x 2))) rfl
  · exact one (.fsqrt h t r d a) r ho (fun m n x => fsqrtF F m n (x 0)) rfl
  · exact one (.fabs h t d a) .rn ho (fun _ _ x => (x 0 % signBit F, 0)) rfl
  · exact one (.fneg h t d a) .rn ho (fun _ _ x => ((x 0 + signBit F) % (2 * signBit F), 0)) rfl
  · exact one (.frcp h t d a) .rn ho (fun _ _ x => frcpF F (t == .f16) (x 0)) rfl
  · exact one (.frsq h t d a) .rn ho (fun _ _ x => frsqF F (t == .f16) (x 0)) rfl
  · exact one (.fexp2 h t d a) .rn ho (fun _ _ x => fexp2F F (t == .f16) (x 0)) rfl
  · exact one (.flog2 h t d a) .rn ho (fun _ _ x => flog2F F (t == .f16) (x 0)) rfl
  · exact one (.fsin h t d a) .rn ho (fun _ _ x => fsinF F (t == .f16) (x 0)) rfl
  · exact one (.fcos h t d a) .rn ho (fun _ _ x => fcosF F (t == .f16) (x 0)) rfl
  · exact one (.ftanh h t d a) .rn ho (fun _ _ x => ftanhF F (t == .f16) (x 0)) rfl

end Sys2Proof.Machine
end

section
/-! NaN, zero and infinite inputs (R134, R139): the statement FloatSpecialInputs. -/
namespace Sys2Proof.Machine
open Sys2Proof

/-! ### FABS and FNEG raise no flag -/

theorem fabs_noFlag {h : Hdr} {t : Ty} {d a : VReg} {s : State} {v : View} (hi : Issues h s v) (ho : OperandsReady [vsrc t a, vdst t d] v) :
    ∃ w, exec (.fabs h t d a) s = completed h w 0 :=
  (floatOp_result hi ho (r := .rn) (srcs := [a]) (fun _ _ x => (x 0 % signBit (fmtOf t), 0)) rfl).noFlag (fun _ _ => rfl)

theorem fneg_noFlag {h : Hdr} {t : Ty} {d a : VReg} {s : State} {v : View} (hi : Issues h s v) (ho : OperandsReady [vsrc t a, vdst t d] v) :
    ∃ w, exec (.fneg h t d a) s = completed h w 0 :=
  (floatOp_result hi ho (r := .rn) (srcs := [a]) (fun _ _ x => ((x 0 + signBit (fmtOf t)) % (2 * signBit (fmtOf t)), 0)) rfl).noFlag (fun _ _ => rfl)

/-! ### FMIN and FMAX (R134) -/

theorem isSnan_of_isNan {x : FVal} (h : isNan x = false) : isSnan x = false := by
  cases x with
  | nan _ => cases h
  | inf _ => rfl
  | fin _ => rfl

section
variable {f : Fmt} (mx : Bool) {x y : Nat}

theorem minmaxF_nan_left (hx : isNan (decF f x) = true) (hy : isNan (decF f y) = false) :
    minmaxF f mx x y = (y, nvIf (isSnan (decF f x))) := by
  simp [minmaxF, hx, hy, isSnan_of_isNan hy]

theorem minmaxF_nan_right (hx : isNan (decF f x) = false) (hy : isNan (decF f y) = true) :
    minmaxF f mx x y = (x, nvIf (isSnan (decF f y))) := by
  simp [minmaxF, hx, hy, isSnan_of_isNan hx]

theorem minmaxF_nan_both (hx : isNan (decF f x) = true) (hy : isNan (decF f y) = true) :
    minmaxF f mx x y = (nanBits f, nvIf (isSnan (decF f x) || isSnan (decF f y))) := by
  simp [minmaxF, hx, hy]

theorem minmaxF_ordered (hx : isNan (decF f x) = false) (hy : isNan (decF f y) = false) :
    minmaxF f mx x y =
      (if mx then (if orderKey f x < orderKey f y then y else x) else (if orderKey f y < orderKey f x then y else x), 0) := by
  cases mx <;> simp [minmaxF, hx, hy]

end

/-- The key under which FCMP orders: that of +0 for a zero of either sign. -/
def compareKey (f : Fmt) (x : Nat) : Int := if orderKey f x = -1 then 0 else orderKey f x

theorem orderKey_plusZero (f : Fmt) (x : Nat) : orderKey f (if x % signBit f = 0 then 0 else x) = compareKey f x := by
  unfold compareKey
  by_cases h0 : x % signBit f = 0
  · by_cases hs : x / signBit f % 2 = 1 <;> simp [orderKey, h0, hs]
  · simp only [orderKey, if_neg h0]
    split <;> split <;> omega

theorem cmpF_eq (f : Fmt) (x y : Nat) :
    cmpF f x y = if compareKey f x < compareKey f y then -1 else if compareKey f y < compareKey f x then 1 else 0 := by
  simp only [cmpF, orderKey_plusZero]

/-- FCMP's order is coarser than that of the keys of FMIN and FMAX. -/
theorem compareKey_mono {f : Fmt} {x y : Nat} (h : orderKey f x ≤ orderKey f y) : compareKey f x ≤ compareKey f y := by
  unfold compareKey
  split <;> split <;> omega

theorem cmpF_nonpos {f : Fmt} {x y : Nat} (h : orderKey f x ≤ orderKey f y) : cmpF f x y ≤ 0 := by
  have hkey := compareKey_mono h
  rw [cmpF_eq]
  split_ifs <;> omega

theorem cmpF_nonneg {f : Fmt} {x y : Nat} (h : orderKey f y ≤ orderKey f x) : 0 ≤ cmpF f x y := by
  have hkey := compareKey_mono h
  rw [cmpF_eq]
  split_ifs <;> omega

/-- Of two values that are no NaN, FMIN gives the lesser and FMAX the greater, without a flag. -/
theorem minmaxF_spec {f : Fmt} (mx : Bool) {x y : Nat} (hx : isNan (decF f x) = false) (hy : isNan (decF f y) = false) :
    ∃ z, minmaxF f mx x y = (z, 0) ∧ (z = x ∨ z = y) ∧
      (mx = false → cmpF f z x ≤ 0 ∧ cmpF f z y ≤ 0) ∧ (mx = true → 0 ≤ cmpF f z x ∧ 0 ≤ cmpF f z y) := by
  refine ⟨_, minmaxF_ordered mx hx hy, ?_⟩
  cases mx with
  | false =>
    rcases lt_or_ge (orderKey f y) (orderKey f x) with h | h
    · simp [h, cmpF_nonpos h.le, cmpF_nonpos le_rfl]
    · simp [not_lt.2 h, cmpF_nonpos h, cmpF_nonpos le_rfl]
  | true =>
    rcases lt_or_ge (orderKey f x) (orderKey f y) with h | h
    · simp [h, cmpF_nonneg h.le, cmpF_nonneg le_rfl]
    · simp [not_lt.2 h, cmpF_nonneg h, cmpF_nonneg le_rfl]

/-- FMIN and FMAX order -0 below +0. -/
theorem minmaxF_zeros : ∀ t ∈ [Ty.f32, Ty.f16, Ty.bf16],
    let F := fmtOf t
    minmaxF F false (signBit F) 0 = (signBit F, 0) ∧ minmaxF F false 0 (signBit F) = (signBit F, 0) ∧
    minmaxF F true (signBit F) 0 = (0, 0) ∧ minmaxF F true 0 (signBit F) = (0, 0) := by decide

/-! ### The special functions by the class of their input (R139) -/

theorem fmtOf_bias_pos (t : Ty) : 0 < (fmtOf t).bias := by cases t <;> decide

/-- The correctly rounded 1, which FEXP2 and FCOS give of a zero and FTANH of an infinity. -/
theorem roundF_one : ∀ t ∈ [Ty.f32, Ty.f16], (roundF (fmtOf t) .ne 0 (dyPow 0)).1 = (fmtOf t).bias * 2 ^ (fmtOf t).fb := by decide

section
variable {f : Fmt} (half : Bool) (m : RMode) (n : Nat) {x : Nat}

theorem special_nan {sg : Bool} (hx : decF f x = .nan sg) :
    ∀ g ∈ [frcpF f half, frsqF f half, fexp2F f half, flog2F f half, fsinF f half, fcosF f half, ftanhF f half, fsqrtF f m n],
      g x = (nanBits f, nvIf sg) := by
  simp [frcpF, frsqF, fexp2F, flog2F, fsinF, fcosF, ftanhF, fsqrtF, hx]

/-- The table's infinities and zeros of a zero input. -/
theorem special_zero {z : Dy} (hx : decF f x = .fin z) (hz : z.m = 0) :
    frcpF f half x = (withSign f z.neg (infBits f), fDZ) ∧ frsqF f half x = (withSign f z.neg (infBits f), fDZ) ∧
    flog2F f half x = (withSign f true (infBits f), fDZ) ∧ fsqrtF f m n x = (withSign f z.neg 0, 0) ∧
    fsinF f half x = (x, 0) ∧ ftanhF f half x = (x, 0) := by
  simp [frcpF, frsqF, flog2F, fsqrtF, fsinF, ftanhF, hx, hz]

theorem fcosF_zero {z : Dy} (hx : decF f x = .fin z) (hz : z.m = 0) : fcosF f half x = ((roundF f .ne 0 (dyPow 0)).1, 0) := by
  simp [fcosF, hx, hz]

/-- A value is not below the first power out of range when its significand, brought to an integer or the bound to its exponent, is not. -/
theorem magLe_of_scaled {k : Nat} {z : Dy} (hint : 0 ≤ z.e → k ≤ z.m * 2 ^ z.e.toNat) (hfrac : z.e < 0 → k * 2 ^ (-z.e).toNat ≤ z.m) :
    magLe { neg := false, m := k, e := 0 } z = true := by
  rcases lt_or_ge z.e 0 with he | he
  · simp [magLe, magLt, min_eq_left he.le, hfrac he]
  · simp [magLe, magLt, min_eq_right he, hint he]

theorem fexp2F_zero {z : Dy} (hb : 0 < f.bias) (hx : decF f x = .fin z) (hz : z.m = 0) :
    fexp2F f half x = ((roundF f .ne 0 (dyPow 0)).1, 0) := by
  have hlow : magLe { neg := false, m := f.bias + 1, e := 0 } z = false := by simp [magLe, magLt, hz]
  have hrange : 1 - (f.bias : Int) - f.fb ≤ 0 := by omega
  simp only [fexp2F, hx, hlow, dyAsInt, hz]
  simp [hrange]

/-- A power beyond the range overflows (R139). -/
theorem fexp2F_overflow {z : Dy} (hx : decF f x = .fin z) (hpos : z.neg = false) (hint : 0 ≤ z.e → f.bias + 1 ≤ z.m * 2 ^ z.e.toNat)
    (hfrac : z.e < 0 → (f.bias + 1) * 2 ^ (-z.e).toNat ≤ z.m) : fexp2F f half x = (infBits f, fOF) := by
  simp [fexp2F, hx, hpos, magLe_of_scaled hint hfrac]

theorem special_negative {z : Dy} (hx : decF f x = .fin z) (hz : z.m ≠ 0) (hneg : z.neg = true) :
    frsqF f half x = (nanBits f, fNV) ∧ fsqrtF f m n x = (nanBits f, fNV) ∧ flog2F f half x = (nanBits f, fNV) := by
  simp [frsqF, fsqrtF, flog2F, hx, hz, hneg]

theorem special_inf {neg : Bool} (hx : decF f x = .inf neg) :
    fsinF f half x = (nanBits f, fNV) ∧ fcosF f half x = (nanBits f, fNV) ∧ frcpF f half x = (withSign f neg 0, 0) ∧
    fexp2F f half x = (if neg then 0 else infBits f, 0) ∧ ftanhF f half x = (withSign f neg (roundF f .ne 0 (dyPow 0)).1, 0) ∧
    (frsqF f half x = if neg then (nanBits f, fNV) else (0, 0)) ∧
    (flog2F f half x = if neg then (nanBits f, fNV) else (infBits f, 0)) ∧
    (fsqrtF f m n x = if neg then (nanBits f, fNV) else (infBits f, 0)) := by
  cases neg <;> simp [fsinF, fcosF, frcpF, fexp2F, ftanhF, frsqF, flog2F, fsqrtF, hx]

end

/-- One is 2^0, whose logarithm is exact in either format (R138). -/
theorem flog2F_one (half : Bool) : ∀ t ∈ [Ty.f32, Ty.f16], flog2F (fmtOf t) half ((fmtOf t).bias * 2 ^ (fmtOf t).fb) = (0, 0) := by
  cases half <;> decide

/-- Settles O35: FMIN and FMAX by which operands are NaN, and each special function by the class of its input. -/
theorem floatSpecialInputs : Obligations.FloatSpecialInputs := by
  unfold Obligations.FloatSpecialInputs
  refine ⟨fun t ht mx x y => ?_, fun h t d a s v hi ho => ⟨fabs_noFlag hi ho, fneg_noFlag hi ho⟩, fun t ht half m n x => ?_⟩
  · exact ⟨minmaxF_nan_left mx, minmaxF_nan_right mx, minmaxF_nan_both mx, fun hx hy _ _ => minmaxF_spec mx hx hy, minmaxF_zeros t ht⟩
  · intro F nan inf one
    have hone : (roundF F .ne 0 (dyPow 0)).1 = one := roundF_one t ht
    refine ⟨fun sg hx => special_nan half m n hx, fun z hx hz => ?_, flog2F_one half t ht,
      fun z hx hpos hint hfrac => fexp2F_overflow half hx hpos hint hfrac, fun z hx hz hneg => special_negative half m n hx hz hneg,
      fun neg hx => ?_⟩
    · obtain ⟨hrcp, hrsq, hlog, hsqrt, hsin, htanh⟩ := special_zero half m n hx hz
      exact ⟨hrcp, hrsq, hlog, hsqrt, hone ▸ fexp2F_zero half (fmtOf_bias_pos t) hx hz, hsin, hone ▸ fcosF_zero half hx hz, htanh⟩
    · exact hone ▸ special_inf half m n hx

end Sys2Proof.Machine
end

section
/-! Conversions (R140, R145) and the block formats (R146 to R148): the statement ConversionResults. -/
namespace Sys2Proof.Machine
open Sys2Proof

/-! ### The words and the flags of QPACK's codes -/

/-- The codes of the 32 elements of each lane of `m`, and none of the others. -/
def laneCodes (m : Lanes) (z : Nat → Nat → Nat × Flg) : List (List (Nat × Flg)) :=
  (List.range 64).map (fun l => if m.getLsbD l then (List.range 32).map (z l) else [])

/-- The OR of the flags of all codes. -/
def orCodes (L : List (List (Nat × Flg))) : Flg := L.foldl (fun f xs => xs.foldl (fun g e => g ||| e.2) f) 0

theorem mem_laneCodes {m : Lanes} {z : Nat → Nat → Nat × Flg} {r : Nat × Flg} :
    (∃ xs ∈ laneCodes m z, r ∈ xs) ↔ ∃ l < 64, m.getLsbD l = true ∧ ∃ e < 32, z l e = r := by
  constructor
  · rintro ⟨xs, hxs, hr⟩
    obtain ⟨l, hl, rfl⟩ := List.mem_map.1 hxs
    by_cases hm : m.getLsbD l = true
    · rw [if_pos hm] at hr
      obtain ⟨e, he, rfl⟩ := List.mem_map.1 hr
      exact ⟨l, List.mem_range.1 hl, hm, e, List.mem_range.1 he, rfl⟩
    · rw [if_neg hm] at hr
      cases hr
  · rintro ⟨l, hl, hm, e, he, rfl⟩
    refine ⟨_, List.mem_map.2 ⟨l, List.mem_range.2 hl, rfl⟩, ?_⟩
    rw [if_pos hm]
    exact List.mem_map.2 ⟨e, List.mem_range.2 he, rfl⟩

/-- A flag of QPACK is raised when one of the 32 codes of some lane of the mask raises it. -/
theorem orCodes_bit (m : Lanes) (z : Nat → Nat → Nat × Flg) (k : Nat) :
    (orCodes (laneCodes m z)).getLsbD k = true ↔ ∃ l < 64, m.getLsbD l = true ∧ ∃ e < 32, (z l e).2.getLsbD k = true := by
  rw [orCodes, ← List.foldl_flatten, foldl_or_results_bit]
  constructor
  · rintro (h | ⟨r, hr, hk⟩)
    · simp at h
    · obtain ⟨l, hl, hm, e, he, rfl⟩ := mem_laneCodes.1 (List.mem_flatten.1 hr)
      exact ⟨l, hl, hm, e, he, hk⟩
  · rintro ⟨l, hl, hm, e, he, hk⟩
    exact .inr ⟨z l e, List.mem_flatten.2 (mem_laneCodes.2 ⟨l, hl, hm, e, he, rfl⟩), hk⟩

/-- Word `k` of a lane's codes: eight of them, the first in the lowest bits (R147). -/
def packedWord (L : List (List (Nat × Flg))) (l k : Nat) : W32 :=
  BitVec.ofNat 32 ((List.range 8).foldl (fun x i => x + ((L.getD l []).getD (8 * k + i) (0, 0)).1 * 16 ^ i) 0)

theorem packedWord_laneCodes {m : Lanes} (z : Nat → Nat → Nat × Flg) {l k : Nat} (hl : l < 64) (hm : m.getLsbD l = true) (hk : k < 4) :
    packedWord (laneCodes m z) l k = BitVec.ofNat 32 (((List.range 8).map (fun i => (z l (8 * k + i)).1 * 16 ^ i)).sum) := by
  have hcode : ∀ i ∈ List.range 8, (((laneCodes m z).getD l []).getD (8 * k + i) (0, 0)).1 * 16 ^ i = (z l (8 * k + i)).1 * 16 ^ i := by
    intro i hmem
    have hi := List.mem_range.1 hmem
    rw [laneCodes, getD_range_map _ _ hl, if_pos hm, getD_range_map _ _ (by omega)]
  rw [packedWord, ← List.map_congr_left hcode, List.sum_eq_foldl, List.foldl_map]

section
variable {h : Hdr} {src dst t : Ty} {d a b : VReg} {ss ds bs : BitVec 2} {s : State} {v : View} (hi : Issues h s v)
include hi

/-! ### CVT and CVTSR (R140, R145) -/

/-- A conversion under the mode that `md` gives completes with each lane of EXEC converted. -/
theorem convertOp_result (ho : OperandsReady [vsrc src a, vdst dst d] v) {i : Instr} {md : View → RMode} {m : RMode}
    (hmd : md (readRows (execOf h v.g) [vsrc src a, vdst dst d] v).1 = m) (he : exec i s = convertOp h src dst md d a ss ds s) :
    let ex := execOf h v.g
    let q := readRows ex [vsrc src a, vdst dst d] v
    let z := fun l => convert src dst m (drawOf q.1 m l ds.toNat) (srcElem src q.2 ss.toNat l)
    ∃ (x : Nat → W64) (fl : BitVec 6), (∀ l < 64, ex.getLsbD l = true → x l = (z l).1) ∧
      (∀ k < 6, fl.getLsbD k = true ↔ ∃ l < 64, ex.getLsbD l = true ∧ (z l).2.getLsbD k = true) ∧
      exec i s = completed h (bumpRound (if tyWidth dst < 32
        then writeRow (keptRow q.1 d).2 d.toNat ex (rowOf (fun l => putSlot dst (rget (keptRow q.1 d).1 l) ds.toNat (x l)))
        else writeElems q.1 dst d ex x) m) fl := by
  intro ex q z
  refine ⟨fun l => ((laneValues ex 0 z).getD l (0, 0)).1, flagsOr (laneValues ex 0 z),
    fun l hl hm => congrArg Prod.fst (laneValues_getD 0 z hl hm), fun k _ => flagsOr_laneValues_bit ex 0 z k, ?_⟩
  rw [he]
  simp only [convertOp, issue_ready hi ho, passOn_done, conclude_done, execOf_readRows, hmd]
  rfl

/-! ### The block formats (R146 to R148) -/

theorem qscale_result {ct : CodeTy} (ho : OperandsReady [.v a.toNat (blkRegs t) true false, vdst .n32 d] v) :
    let ex := execOf h v.g
    let q := readRows ex [.v a.toNat (blkRegs t) true false, vdst .n32 d] v
    let z := fun l => qscaleOf (ctNat ct) ((List.range 32).map (fun e => decF (fmtOf t) (blkElem t q.2 l e)))
    ∃ (row : Row) (fl : BitVec 6), exec (.qscale h t d a bs ct) s = completed h (writeRow (keptRow q.1 d).2 d.toNat ex row) fl ∧
      (∀ l < 64, ex.getLsbD l = true → rget row l = putByte (rget (keptRow q.1 d).1 l) bs.toNat (ctNat ct * 64 + (z l).1)) ∧
      ∀ k < 6, fl.getLsbD k = true ↔ ∃ l < 64, ex.getLsbD l = true ∧ (z l).2.getLsbD k = true := by
  intro ex q z
  let lane := fun l => (putByte (rget (keptRow q.1 d).1 l) bs.toNat (ctNat ct * 64 + (z l).1), (z l).2)
  refine ⟨resRow (laneResults ex lane), resFlags (laneResults ex lane), ?_, fun l hl hm => rget_resRow lane hl hm,
    fun k _ => resFlags_bit ex lane k⟩
  simp only [exec, execQscale, issue_ready hi ho, passOn_done, conclude_done, execOf_readRows]
  rfl

theorem qpack_result {r : Rm} (ho : OperandsReady [.v a.toNat (blkRegs t) true false, vsrc .n32 b, .v d.toNat 4 false true] v) :
    let ex := execOf h v.g
    let q := readRows ex [.v a.toNat (blkRegs t) true false, vsrc .n32 b, .v d.toNat 4 false true] v
    let m := effMode r v.g.frm
    let z := fun l e => qcode (byteOf (rget (q.2.getD (blkRegs t) zeroRow) l) bs.toNat) m (drawOf q.1 m l e)
      (decF (fmtOf t) (blkElem t q.2 l e))
    ∃ (rs : List Row) (fl : BitVec 6), rs.length = 4 ∧
      exec (.qpack h t r d a b bs) s = completed h (bumpRound (writeRows q.1 d.toNat ex rs) m) fl ∧
      (∀ l < 64, ex.getLsbD l = true → ∀ k < 4, rget (rs.getD k zeroRow) l =
        BitVec.ofNat 32 (((List.range 8).map (fun i => (z l (8 * k + i)).1 * 16 ^ i)).sum)) ∧
      ∀ k < 6, fl.getLsbD k = true ↔ ∃ l < 64, ex.getLsbD l = true ∧ ∃ e < 32, (z l e).2.getLsbD k = true := by
  intro ex q m z
  refine ⟨(List.range 4).map (fun k => rowOf (fun l => packedWord (laneCodes ex z) l k)), orCodes (laneCodes ex z), by simp, ?_,
    fun l hl hm k hk => ?_, fun k _ => orCodes_bit ex z k⟩
  · simp only [exec, execQpack, issue_ready hi ho, passOn_done, conclude_done, execOf_readRows, frm_readRows]
    rfl
  · rw [getD_range_map _ _ hk, rget_rowOf _ _ hl, packedWord_laneCodes z hl hm hk]

theorem qunpk_result (ho : OperandsReady [.v a.toNat 4 true false, vsrc .n32 b, .v d.toNat (blkRegs t) false true] v) :
    let ex := execOf h v.g
    let q := readRows ex [.v a.toNat 4 true false, vsrc .n32 b, .v d.toNat (blkRegs t) false true] v
    let x := fun l e => unpackCode (fmtOf t) (byteOf (rget (q.2.getD 4 zeroRow) l) bs.toNat)
      ((rget (q.2.getD (e / 8) zeroRow) l).toNat / 16 ^ (e % 8) % 16)
    ∃ rs : List Row, rs.length = blkRegs t ∧ exec (.qunpk h t d a b bs) s = completed h (writeRows q.1 d.toNat ex rs) 0 ∧
      ∀ l < 64, (t = .f32 → ∀ e < 32, rget (rs.getD e zeroRow) l = BitVec.ofNat 32 (x l e)) ∧
        (t ≠ .f32 → ∀ k < 16, rget (rs.getD k zeroRow) l = BitVec.ofNat 32 (x l (2 * k) + 65536 * x l (2 * k + 1))) := by
  intro ex q x
  refine ⟨if t = .f32 then (List.range 32).map (fun e => rowOf (fun l => BitVec.ofNat 32 (x l e)))
    else (List.range 16).map (fun k => rowOf (fun l => BitVec.ofNat 32 (x l (2 * k) + 65536 * x l (2 * k + 1)))), ?_, ?_,
    fun l hl => ⟨fun ht e he => ?_, fun ht k hk => ?_⟩⟩
  · by_cases ht : t = .f32 <;> simp [ht, blkRegs]
  · simp only [exec, execQunpk, issue_ready hi ho, passOn_done, conclude_done, execOf_readRows]
    rfl
  · rw [if_pos ht, getD_range_map _ _ he, rget_rowOf _ _ hl]
  · rw [if_neg ht, getD_range_map _ _ hk, rget_rowOf _ _ hl]

end

theorem keptRow_register {v : View} {d : VReg} (hq : armed v.g d.toNat = none) : keptRow v d = (readV v.g d.toNat, v) := by
  simp [keptRow, hq]

/-- Settles O38: the two conversions are one operation under their modes, and each block instruction has its result. -/
theorem conversionResults : Obligations.ConversionResults := by
  unfold Obligations.ConversionResults
  intro h src dst t r d a b ss ds bs ct s v hi ex n
  refine ⟨keptRow_register, ?_, qscale_result hi, qpack_result hi, qunpk_result hi⟩
  intro ho q i m hm
  rcases hm with ⟨rfl, rfl⟩ | ⟨rfl, rfl⟩
  · exact convertOp_result hi ho (md := fun v => effMode r v.g.frm) (congrArg (effMode r) (frm_readRows ..)) rfl
  · exact convertOp_result hi ho (md := fun _ => .st) rfl rfl

end Sys2Proof.Machine
end
section
/-! Popping and closing queues (R177, R179, R180): the statement PoppingAndClosingAQueue. -/
namespace Sys2Proof.Machine
open Sys2Proof

theorem tdel_eq_self {α : Type} {t : Tbl α} {n : Nat} (h : tget t n = none) : tdel t n = t := by
  refine List.filter_eq_self.2 fun e he => ?_
  obtain ⟨a, ha⟩ := exists_tget_of_mem he
  have hne : e.1 ≠ n := by
    rintro rfl
    simp [h] at ha
  simpa using hne

/-- A source that is no armed queue gives its register's row. -/
theorem readRows_register {ex : Lanes} {v : View} {r : Nat} (h : armed v.g r = none) :
    readRows ex [.v r 1 true false] v = (v, [readV v.g r]) := by
  simp only [readRows, if_true, h]

/-- A source that is an armed load queue gives the row of its oldest entry. -/
theorem readRows_queue {ex : Lanes} {v : View} {r k : Nat} {q : Queue} (h : armed v.g r = some (k, q)) :
    readRows ex [.v r 1 true false] v = ((popQueue v k q ex).1, [(popQueue v k q ex).2]) := by
  simp only [readRows, if_true, h]

/-- Popping takes the oldest entry of the queue: the lanes of EXEC get its elements, and its residency bits are kept (R177, R180). -/
theorem popQueue_cons {v : View} {k : Nat} {q : Queue} {ex : Lanes} {e : QEntry} {rest : List QEntry} (hb : q.buf = e :: rest) :
    ∃ row st, popQueue v k q ex =
        ({ v with st := st, g := { v.g with q := tput v.g.q k { q with pos := q.pos + 1, buf := rest, resid := q.resid ||| e.resid } } }, row) ∧
      st = { v.st with free := st.free } ∧ ∀ l < 64, ex.getLsbD l = true → rget row l = rget e.data l := by
  simp only [popQueue, hb]
  refine ⟨_, _, rfl, ?_, fun l hl hm => ?_⟩
  · split <;> rfl
  · rw [rget_rowOf _ _ hl, if_pos hm]

section
variable {h : Hdr} {k : QReg} {s : State} {v : View}

theorem qclose_ready (hi : Issues h s v) (ho : OperandsReady [] v) :
    exec (.qclose h k) s = completed h { v with g := { v.g with q := tdel v.g.q k.toNat } } 0 :=
  issue_scalar hi ho rfl

theorem qres_load {p : PReg} {q : Queue} (hi : Issues h s v) (ho : OperandsReady [] v) (hq : tget v.g.q k.toNat = some q) (hl : q.load = true) :
    exec (.qres h p k) s = completed h
      { v with g := { writeP v.g p (execOf h v.g) q.resid with q := tput v.g.q k.toNat { q with resid := 0 } } } 0 := by
  simp only [exec, execQres, issue_scalar hi ho rfl, hq, hl, if_true]
  rfl

/-- QRES of a queue that is no armed load queue (R181). -/
theorem qres_fault {p : PReg} (hi : Issues h s v) (ho : OperandsReady [] v) (hq : ∀ q, tget v.g.q k.toNat = some q → q.load = false) :
    exec (.qres h p k) s = trapped v 0 3 255 8 0 := by
  simp only [exec, execQres, issue_scalar hi ho rfl]
  cases hx : tget v.g.q k.toNat with
  | none => rfl
  | some q => simp only [hq q hx]; rfl

end

/-- Settles O19: popping by whether the name is armed, then the two instructions. -/
theorem poppingAndClosingAQueue : Obligations.PoppingAndClosingAQueue := by
  unfold Obligations.PoppingAndClosingAQueue
  refine ⟨fun ex v r => ⟨readRows_register, fun k q e rest ha hb => ?_⟩, fun h k p s v hi ho => ⟨?_, fun q hq hl => ?_⟩⟩
  · obtain ⟨row, st, hp, hs, hr⟩ := popQueue_cons (v := v) (k := k) (ex := ex) hb
    exact ⟨row, st, by rw [readRows_queue ha, hp], hs, hr⟩
  · refine ⟨_, qclose_ready hi ho, rfl, tget_tdel_same _ _, fun j hj => tget_tdel_ne _ hj, fun hn => ?_⟩
    rw [tdel_eq_self hn]
  · refine ⟨_, qres_load hi ho hq hl, ?_, tget_tput_same _ _ _, fun j hj => tget_tput_ne _ _ hj, fun x hx => ?_, fun hp => ?_, fun hp l hl => ?_⟩
    · rw [writeP_frame]
    · exact readP_writeP_ne _ _ _ hx
    · rw [writeP, if_pos hp]
    · exact getLsbD_readP_writeP _ _ _ _ hp l hl

end Sys2Proof.Machine
end

section
/-! The tag table (R167, R168): the statement TagTableResults. -/
namespace Sys2Proof.Machine
open Sys2Proof

/-! ### Looking up a key -/

/-- In a table of rising keys, an entry of the list is the entry of its key. -/
theorem tget_of_mem {α : Type} {t : Tbl α} (hs : tsorted t = true) {e : Nat × α} (he : e ∈ t) : tget t e.1 = some e.2 := by
  induction t with
  | nil => cases he
  | cons x t ih =>
    obtain ⟨k, a⟩ := x
    obtain ⟨hlt, ht⟩ := (tsorted_cons_iff k a t).1 hs
    rcases List.mem_cons.1 he with rfl | he'
    · simp [tget]
    · rw [tget, if_neg (Nat.ne_of_lt (hlt e he')), ih ht he']

theorem tget_eq_some_iff {α : Type} {t : Tbl α} (hs : tsorted t = true) {n : Nat} {a : α} : tget t n = some a ↔ (n, a) ∈ t :=
  ⟨mem_of_tget, tget_of_mem hs⟩

/-- Filtering a table of rising keys keeps the entries that pass. -/
theorem tget_filter {α : Type} {t : Tbl α} (hs : tsorted t = true) (p : Nat × α → Bool) (n : Nat) :
    tget (t.filter p) n = (tget t n).bind (fun a => if p (n, a) then some a else none) := by
  refine Option.ext fun a => ?_
  rw [tget_eq_some_iff (tsorted_filter p t hs), List.mem_filter, ← tget_eq_some_iff hs]
  cases tget t n with
  | none => simp
  | some b => by_cases hb : p (n, b) <;> simp [hb] <;> rintro rfl <;> simp_all

/-- `n` is the lowest slot that holds the key, or all ones where none does (R167). -/
def LowestSlot (t : Tbl W64) (key : W64) (n : Nat) : Prop :=
  (n = 0xFFFF ∧ ∀ k, tget t k ≠ some key) ∨ (tget t n = some key ∧ ∀ k < n, tget t k ≠ some key)

/-- The first entry found in a table of rising keys is the one of the lowest key. -/
theorem find?_lowest {α : Type} {t : Tbl α} (hs : tsorted t = true) {p : Nat × α → Bool} {e : Nat × α} (hf : t.find? p = some e) :
    ∀ x ∈ t, p x = true → e.1 ≤ x.1 := by
  induction t with
  | nil => cases hf
  | cons y t ih =>
    obtain ⟨k, a⟩ := y
    obtain ⟨hlt, ht⟩ := (tsorted_cons_iff k a t).1 hs
    intro x hx hp
    cases hy : p (k, a) with
    | true =>
      rw [List.find?_cons_of_pos hy] at hf
      cases hf
      rcases List.mem_cons.1 hx with rfl | hx
      · exact Nat.le_refl _
      · exact Nat.le_of_lt (hlt x hx)
    | false =>
      rw [List.find?_cons_of_neg (by simp [hy])] at hf
      rcases List.mem_cons.1 hx with rfl | hx
      · simp [hy] at hp
      · exact ih ht hf x hx hp

theorem slotOf_lowest {b : Block} (hs : tsorted b.slots = true) (key : W64) : LowestSlot b.slots key (slotOf b key) := by
  unfold slotOf
  cases hf : b.slots.find? (fun e => e.2 == key) with
  | none =>
    refine .inl ⟨rfl, fun k hk => ?_⟩
    simpa using List.find?_eq_none.1 hf _ (mem_of_tget hk)
  | some e =>
    have he : e.2 = key := by simpa using List.find?_some hf
    refine .inr ⟨he ▸ tget_of_mem hs (List.mem_of_find?_eq_some hf), fun k hk hkey => ?_⟩
    have hle := find?_lowest hs hf _ (mem_of_tget hkey) (by simp)
    exact absurd hle (Nat.not_le.2 hk)

/-! ### The instructions -/

section
variable {h : Hdr} {d x : SReg} {s : State} {v : View}

theorem taglk_scalar (hi : Issues h s v) (ho : OperandsReady [ssrc x, sdst d] v) :
    exec (.taglk h (.s d x)) s = completed h { v with g := writeS v.g d (BitVec.ofNat 64 (slotOf v.b (readS v.g x))) } 0 :=
  issue_scalar hi ho rfl

theorem taglk_vector {e y : VReg} (hi : Issues h s v) (ho : OperandsReady [vsrc .n64 y, vdst .n32 e] v) :
    let q := readRows (execOf h v.g) [vsrc .n64 y, vdst .n32 e] v
    exec (.taglk h (.v e y)) s = completed h
      (writeRow q.1 e.toNat (execOf h v.g) (rowOf (fun l => BitVec.ofNat 32 (slotOf v.b (elem .n64 q.2 0 l))))) 0 := by
  simp only [exec, execTaglk, issue_ready hi ho, passOn_done, conclude_done, execOf_readRows, readRows_b]
  rfl

theorem tagset_bad (hi : Issues h s v) (ho : OperandsReady [ssrc x, ssrc d] v) (hk : v.b.fp.scratch ≤ (readS v.g d).toNat) :
    exec (.tagset h d x) s = trapped v 0 6 255 8 0 := by
  simp only [exec, execTagset, issue_scalar hi ho rfl, slotBad, hk, decide_true, if_true]
  rfl

theorem tagset_sets (hi : Issues h s v) (ho : OperandsReady [ssrc x, ssrc d] v) (hk : (readS v.g d).toNat < v.b.fp.scratch) :
    let kept := v.b.slots.filter (fun e => e.2 != readS v.g x)
    exec (.tagset h d x) s =
      completed h { v with b := { v.b with slots := tput kept (readS v.g d).toNat (readS v.g x) } } 0 := by
  simp only [exec, execTagset, issue_scalar hi ho rfl, slotBad, Nat.not_le.2 hk, decide_false, Bool.false_eq_true, if_false]
  rfl

theorem taginv_bad (hi : Issues h s v) (ho : OperandsReady [ssrc d] v) (hk : v.b.fp.scratch ≤ (readS v.g d).toNat) :
    exec (.taginv h d) s = trapped v 0 6 255 8 0 := by
  simp only [exec, execTaginv, issue_scalar hi ho rfl, slotBad, hk, decide_true, if_true]
  rfl

theorem taginv_clears (hi : Issues h s v) (ho : OperandsReady [ssrc d] v) (hk : (readS v.g d).toNat < v.b.fp.scratch) :
    exec (.taginv h d) s = completed h { v with b := { v.b with slots := tdel v.b.slots (readS v.g d).toNat } } 0 := by
  simp only [exec, execTaginv, issue_scalar hi ho rfl, slotBad, Nat.not_le.2 hk, decide_false, Bool.false_eq_true, if_false]
  rfl

end

/-- Settles O43: the lookup finds the lowest slot, and the other two change the table where the slot number is in range. -/
theorem tagTableResults : Obligations.TagTableResults := by
  unfold Obligations.TagTableResults
  intro h d x e y s v hi hs found k
  refine ⟨fun ho => ⟨_, slotOf_lowest hs _, taglk_scalar hi ho⟩, fun ho => ⟨_, fun l => slotOf_lowest hs _, taglk_vector hi ho⟩,
    fun ho => ⟨tagset_bad hi ho, fun hk => ⟨_, tagset_sets hi ho hk, tget_tput_same _ _ _, fun j hj => ?_⟩⟩,
    fun ho => ⟨taginv_bad hi ho, fun hk => ⟨_, taginv_clears hi ho hk, tget_tdel_same _ _, fun j hj => tget_tdel_ne _ hj⟩⟩⟩
  rw [tget_tput_ne _ _ hj, tget_filter hs]
  cases tget v.b.slots j with
  | none => rfl
  | some key => by_cases hkey : key = readS v.g x <;> simp [hkey]

end Sys2Proof.Machine
end

section
/-! Scratchpad bytes (R152, R155, R164): what reading, writing and a run of lane writes do, in the terms of byte memories. -/
namespace Sys2Proof.Machine
open Sys2Proof

/-! ### Byte addresses one after another -/

theorem map_range_succ (a n : Nat) : (List.range (n + 1)).map (fun i => a + i) = a :: (List.range n).map (fun i => a + 1 + i) := by
  simp only [List.range_succ_eq_map, List.map_cons, List.map_map]
  exact congrArg (a :: ·) (List.map_congr_left fun i _ => by simp; omega)

theorem bgets_eq_map (m : Cells) (a n : Nat) : bgets m a n = ((List.range n).map (fun i => a + i)).map (bget m) := by
  induction n generalizing a with
  | zero => rfl
  | succ n ih => rw [map_range_succ, List.map_cons, ← ih, bgets]

theorem byteAddrs_flat {sp : Nat} (h : sp ≠ 2) (a n l : Nat) : byteAddrs sp a n l = (List.range n).map (fun i => a + i) := by
  simp only [byteAddrs, if_neg h]

/-- Outside space 2 an access reads the bytes at its address. -/
theorem scrRead_flat {sp : Nat} (h : sp ≠ 2) (b : Block) (a n l : Nat) : scrRead b (byteAddrs sp a n l) = bgets b.scratch a n := by
  rw [byteAddrs_flat h, scrRead, bgets_eq_map]

theorem getElem_leBytes (n v i : Nat) (h : i < (leBytes n v).length) : (leBytes n v)[i] = BitVec.ofNat 8 (v / 256 ^ i) := by
  induction n generalizing v i with
  | zero => cases h
  | succ n ih =>
    cases i with
    | zero => simp [leBytes]
    | succ i =>
      simp only [leBytes, List.getElem_cons_succ, ih]
      rw [Nat.div_div_eq_div_mul, Nat.pow_succ']

theorem mem_ndel (l : List Nat) (n g : Nat) : g ∈ ndel l n ↔ g ∈ l ∧ g ≠ n := by simp [ndel]

theorem mem_nput (l : List Nat) (n g : Nat) : g ∈ nput l n ↔ g = n ∨ g ∈ l := by
  induction l with
  | nil => simp [nput]
  | cons k l ih =>
    simp only [nput]
    split
    · simp
    · split
      · rename_i hk
        simp [hk]
      · simp only [List.mem_cons, ih]
        tauto

/-! ### One write -/

/-- The block after bytes written at one address: the bytes stand there, and the granules written to are no longer tagged (R155). -/
theorem scrWrite_flat (b : Block) (a : Nat) (bs : List W8) :
    ∃ ts, scrWrite b ((List.range bs.length).map (fun i => a + i)) bs = { b with scratch := bputs b.scratch a bs, tags := ts } ∧
      ∀ g, g ∈ ts ↔ g ∈ b.tags ∧ ∀ i < bs.length, (a + i) / 16 ≠ g := by
  induction bs generalizing a b with
  | nil => exact ⟨b.tags, rfl, by simp⟩
  | cons x bs ih =>
    obtain ⟨ts, hw, ht⟩ := ih (scrByte b a x) (a + 1)
    refine ⟨ts, ?_, fun g => ?_⟩
    · rw [List.length_cons, map_range_succ]
      exact hw
    · rw [ht, scrByte, mem_ndel]
      constructor
      · rintro ⟨⟨hg, hne⟩, hrest⟩
        refine ⟨hg, fun i hi => ?_⟩
        cases i with
        | zero => exact fun h => hne h.symm
        | succ i =>
          have := hrest i (by simpa using hi)
          rwa [show a + (i + 1) = a + 1 + i by omega]
      · rintro ⟨hg, hall⟩
        refine ⟨⟨hg, fun h => hall 0 (by simp) h.symm⟩, fun i hi => ?_⟩
        have := hall (i + 1) (by simpa using hi)
        rwa [show a + (i + 1) = a + 1 + i by omega] at this

/-! ### The writes of several lanes -/

/-- The lanes of `L` write in turn, lane `l` the bytes `xs l` at address `at' l`. -/
def laneWrites (L : List Nat) (at' : Nat → Nat) (xs : Nat → List W8) (b : Block) : Block :=
  L.foldl (fun b l => scrWrite b ((List.range (xs l).length).map (fun i => at' l + i)) (xs l)) b

section
variable {at' : Nat → Nat} {xs : Nat → List W8}

theorem laneWrites_frame (L : List Nat) (b : Block) :
    laneWrites L at' xs b = { b with scratch := (laneWrites L at' xs b).scratch, tags := (laneWrites L at' xs b).tags } := by
  induction L generalizing b with
  | nil => rfl
  | cons l L ih =>
    obtain ⟨ts, hw, -⟩ := scrWrite_flat b (at' l) (xs l)
    have he : laneWrites (l :: L) at' xs b = laneWrites L at' xs { b with scratch := bputs b.scratch (at' l) (xs l), tags := ts } :=
      congrArg (laneWrites L at' xs) hw
    rw [he, ih]

/-- A byte that no lane writes keeps its value. -/
theorem laneWrites_outside (L : List Nat) (b : Block) {a : Nat} (h : ∀ l ∈ L, a < at' l ∨ at' l + (xs l).length ≤ a) :
    bget (laneWrites L at' xs b).scratch a = bget b.scratch a := by
  induction L generalizing b with
  | nil => rfl
  | cons l L ih =>
    obtain ⟨ts, hw, -⟩ := scrWrite_flat b (at' l) (xs l)
    have he : laneWrites (l :: L) at' xs b = laneWrites L at' xs { b with scratch := bputs b.scratch (at' l) (xs l), tags := ts } :=
      congrArg (laneWrites L at' xs) hw
    rw [he, ih _ (fun k hk => h k (List.mem_cons_of_mem _ hk))]
    exact bget_bputs_outside _ _ _ _ (h l (List.mem_cons_self ..))

/-- A granule is tagged afterwards only if it was, and no lane has written to it. -/
theorem laneWrites_tags (L : List Nat) (b : Block) (g : Nat) (h : g ∈ (laneWrites L at' xs b).tags) :
    g ∈ b.tags ∧ ∀ l ∈ L, ∀ i < (xs l).length, (at' l + i) / 16 ≠ g := by
  induction L generalizing b with
  | nil => exact ⟨h, fun l hl => by cases hl⟩
  | cons l L ih =>
    obtain ⟨ts, hw, ht⟩ := scrWrite_flat b (at' l) (xs l)
    have he : laneWrites (l :: L) at' xs b = laneWrites L at' xs { b with scratch := bputs b.scratch (at' l) (xs l), tags := ts } :=
      congrArg (laneWrites L at' xs) hw
    rw [he] at h
    obtain ⟨hts, hrest⟩ := ih _ h
    obtain ⟨hb, hl⟩ := (ht g).1 hts
    refine ⟨hb, fun k hk => ?_⟩
    rcases List.mem_cons.1 hk with rfl | hk
    · exact hl
    · exact hrest k hk

/-- A byte holds what the last lane that writes it wrote. -/
theorem laneWrites_last (pre post : List Nat) (l : Nat) (b : Block) {i : Nat} (hi : i < (xs l).length)
    (h : ∀ k ∈ post, at' l + i < at' k ∨ at' k + (xs k).length ≤ at' l + i) :
    bget (laneWrites (pre ++ l :: post) at' xs b).scratch (at' l + i) = (xs l)[i] := by
  obtain ⟨ts, hw, -⟩ := scrWrite_flat (laneWrites pre at' xs b) (at' l) (xs l)
  have he : laneWrites (pre ++ l :: post) at' xs b =
      laneWrites post at' xs { laneWrites pre at' xs b with scratch := bputs (laneWrites pre at' xs b).scratch (at' l) (xs l), tags := ts } := by
    rw [laneWrites, List.foldl_append, List.foldl_cons]
    exact congrArg (laneWrites post at' xs) hw
  rw [he, laneWrites_outside _ _ h]
  exact bget_bputs_inside _ _ _ _ hi

end

theorem laneList_pairwise (m : Lanes) : (laneList m).Pairwise (· < ·) := List.pairwise_lt_range.filter _

/-- A lane of a set stands between the lower and the higher ones. -/
theorem laneList_split {m : Lanes} {l : Nat} (hl : l < 64) (hm : m.getLsbD l = true) :
    ∃ pre post, laneList m = pre ++ l :: post ∧ ∀ k ∈ post, l < k ∧ k < 64 ∧ m.getLsbD k = true := by
  obtain ⟨pre, post, he⟩ := List.append_of_mem ((mem_laneList m l).2 ⟨hl, hm⟩)
  refine ⟨pre, post, he, fun k hk => ?_⟩
  have hp := laneList_pairwise m
  rw [he] at hp
  have hlt := List.rel_of_pairwise_cons (List.pairwise_append.1 hp).2.1 hk
  obtain ⟨h1, h2⟩ := (mem_laneList m k).1 (by rw [he]; simp [hk])
  exact ⟨hlt, h1, h2⟩

/-! ### The scratchpad that a view addresses -/

theorem scrBlock_block {v : View} (h : isHandler v = false) : scrBlock v = v.b := by simp [scrBlock, h]

theorem setScr_block {v : View} (h : isHandler v = false) (b : Block) : setScr v b = { v with b := b } := by simp [setScr, h]

@[simp] theorem isHandler_readRows (ex : Lanes) (ops : List Opd) (v : View) : isHandler (readRows ex ops v).1 = isHandler v := by
  simp [isHandler]

@[simp] theorem memOff_readRows (ex : Lanes) (ops : List Opd) (v : View) (x : MemOff) (disp : W16) (rows : List Row) :
    memOff (readRows ex ops v).1.g x disp rows = memOff v.g x disp rows := by
  funext l
  simp only [memOff, readS_readRows]

end Sys2Proof.Machine
end

section
/-! Scratchpad loads, stores and atomics (R155, R157, R163, R164, R166, R173): the statements ScratchpadLoadResults, ScratchpadStoreResults and
ScratchpadAtomicResults. -/
namespace Sys2Proof.Machine
open Sys2Proof

/-! ### LDS -/

/-- A load of space 1 outside the handler context reads the block's scratchpad. -/
theorem loadBytes_block {v : View} (hh : isHandler v = false) (a n l : Nat) : loadBytes v 1 a n l = bgets v.b.scratch a n := by
  simp only [loadBytes, hh, Bool.and_false, Bool.false_and, Bool.false_eq_true, if_false, scrBlock_block hh]
  exact scrRead_flat (by decide) _ _ _ _

/-- The values that the lanes of a mask load, zero elsewhere. -/
def loadValues (v : View) (w : Width) (cap : Cap) (m : Lanes) (off : Nat → Int) (l : Nat) : Nat :=
  ((List.range 64).map (fun l => if m.getLsbD l then
    leNat (loadBytes v (capSpace cap) (capBase cap + off l).toNat (widthBytes w) l) else 0)).getD l 0

theorem loadValues_lane {v : View} {w : Width} {cap : Cap} {m : Lanes} {off : Nat → Int} {l : Nat} (hl : l < 64) (hm : m.getLsbD l = true) :
    loadValues v w cap m off l = leNat (loadBytes v (capSpace cap) (capBase cap + off l).toNat (widthBytes w) l) := by
  rw [loadValues, getD_range_map _ _ hl, if_pos hm]

/-- A load of a width other than .cap writes its registers in turn. -/
theorem loadEffect_registers {v : View} {w : Width} {d : VReg} {cap : Cap} {m : Lanes} {off : Nat → Int} (hw : w ≠ .wcap) :
    loadEffect v w d cap m off = (List.range (widthRegs w)).foldl (fun u k =>
      writeRow u (d.toNat + k) m (rowOf (fun l => BitVec.ofNat 32 (loadValues v w cap m off l / 2 ^ (32 * k))))) v := by
  simp only [loadEffect, if_neg hw]
  rfl

section
variable {h : Hdr} {w : Width} {d : VReg} {c : CReg} {x : MemOff} {disp : W16} {s : State} {v : View}

theorem lds_trap (hi : Issues h s v) (ho : OperandsReady (ldsOps w d c x) v) {r : Res}
    (hc : let q := readRows (execOf h v.g) (ldsOps w d c x) v
      ldsCheck q.1 w (execOf h v.g) (readC v.g c) (memOff v.g x disp q.2) = some r) :
    exec (.lds h w d c x disp) s = .next (flush (conclude h v (passOn v (readRows (execOf h v.g) (ldsOps w d c x) v) r))) := by
  simp only [exec, execLds, issue_ready hi ho, execOf_readRows, readC_readRows, memOff_readRows, hc]

theorem lds_hold (hi : Issues h s v) (ho : OperandsReady (ldsOps w d c x) v)
    (hc : let q := readRows (execOf h v.g) (ldsOps w d c x) v
      ldsCheck q.1 w (execOf h v.g) (readC v.g c) (memOff v.g x disp q.2) = none)
    (hb : let q := readRows (execOf h v.g) (ldsOps w d c x) v
      bytesHeld q.1 (allBytes (readC v.g c) (execOf h v.g) (memOff v.g x disp q.2) (widthBytes w)) false = true) :
    let q := readRows (execOf h v.g) (ldsOps w d c x) v
    exec (.lds h w d c x disp) s = .next (flush (stallView h (if q.2.isEmpty then q.1 else v) 2)) := by
  simp only [exec, execLds, issue_ready hi ho, execOf_readRows, readC_readRows, memOff_readRows, hc, hb, if_true]
  rfl

theorem lds_loads (hi : Issues h s v) (ho : OperandsReady (ldsOps w d c x) v)
    (hc : let q := readRows (execOf h v.g) (ldsOps w d c x) v
      ldsCheck q.1 w (execOf h v.g) (readC v.g c) (memOff v.g x disp q.2) = none)
    (hb : let q := readRows (execOf h v.g) (ldsOps w d c x) v
      bytesHeld q.1 (allBytes (readC v.g c) (execOf h v.g) (memOff v.g x disp q.2) (widthBytes w)) false = false) :
    let q := readRows (execOf h v.g) (ldsOps w d c x) v
    exec (.lds h w d c x disp) s = completed h (loadEffect q.1 w d (readC v.g c) (execOf h v.g) (memOff v.g x disp q.2)) 0 := by
  simp only [exec, execLds, issue_ready hi ho, execOf_readRows, readC_readRows, memOff_readRows, hc, hb]
  rfl

end

/-- Settles O40: a failed check, a range entry in the way, and the load itself. -/
theorem scratchpadLoadResults : Obligations.ScratchpadLoadResults := by
  unfold Obligations.ScratchpadLoadResults
  intro h w d c x disp s v hi ho ex q cap off at' n
  refine ⟨fun r hc => lds_trap hi ho hc, fun hc hb => ⟨_, lds_hold hi ho hc hb, fun hq => if_neg (by simpa using hq)⟩,
    fun hc hb => ⟨fun hw => ⟨loadValues q.1 w cap ex off, fun l hl hm => ⟨loadValues_lane hl hm, fun hh hs => ?_⟩, ?_⟩, fun hw => ?_⟩⟩
  · rw [loadValues_lane hl hm, hs, loadBytes_block (by simpa [q] using hh), readRows_b]
  · rw [lds_loads hi ho hc hb, loadEffect_registers hw]
  · rw [lds_loads hi ho hc hb, loadEffect, if_pos hw]

/-! ### STS -/

theorem foldl_add_eq_sum (L : List Nat) (f : Nat → Nat) : L.foldl (fun a k => a + f k) 0 = (L.map f).sum := by
  rw [List.sum_eq_foldl, List.foldl_map]

/-- The number that a lane stores, over its registers. -/
def storeWord (w : Width) (rows : List Row) (l : Nat) : Nat :=
  ((List.range (widthRegs w)).map (fun k => (rget (rows.getD k zeroRow) l).toNat * 2 ^ (32 * k))).sum

/-- A store of space 1 outside the handler context: the lanes write to the block's scratchpad in turn. -/
theorem storeEffect_block {v : View} {w : Width} {rows : List Row} {cap : Cap} {m : Lanes} {off : Nat → Int} (hh : isHandler v = false)
    (hs : capSpace cap = 1) :
    storeEffect v w rows cap m off = { v with b := laneWrites (laneList m) (fun l => (capBase cap + off l).toNat)
                                                (fun l => leBytes (widthBytes w) (storeWord w rows l)) v.b } := by
  simp only [storeEffect, setScr_block hh, scrBlock_block hh, hs, byteAddrs_flat (show (1 : Nat) ≠ 2 by decide), foldl_add_eq_sum, laneWrites,
    leBytes_length]
  rfl

section
variable {h : Hdr} {w : Width} {d : VReg} {c : CReg} {x : MemOff} {disp : W16} {s : State} {v : View}

theorem sts_trap (hi : Issues h s v) (ho : OperandsReady (stsOps w d c x) v) {r : Res}
    (hc : let q := readRows (execOf h v.g) (stsOps w d c x) v
      checkLanes q.1 (execOf h v.g) (readC v.g c) (memOff v.g x disp q.2) (widthBytes w) pW [1, 2] false = some r) :
    exec (.sts h w d c x disp) s = .next (flush (conclude h v (passOn v (readRows (execOf h v.g) (stsOps w d c x) v) r))) := by
  simp only [exec, execSts, issue_ready hi ho, execOf_readRows, readC_readRows, memOff_readRows, hc]

theorem sts_stores (hi : Issues h s v) (ho : OperandsReady (stsOps w d c x) v)
    (hc : let q := readRows (execOf h v.g) (stsOps w d c x) v
      checkLanes q.1 (execOf h v.g) (readC v.g c) (memOff v.g x disp q.2) (widthBytes w) pW [1, 2] false = none)
    (hb : let q := readRows (execOf h v.g) (stsOps w d c x) v
      bytesHeld q.1 (allBytes (readC v.g c) (execOf h v.g) (memOff v.g x disp q.2) (widthBytes w)) true = false) :
    let q := readRows (execOf h v.g) (stsOps w d c x) v
    exec (.sts h w d c x disp) s =
      completed h (storeEffect q.1 w (dataRows x q.2) (readC v.g c) (execOf h v.g) (memOff v.g x disp q.2)) 0 := by
  simp only [exec, execSts, issue_ready hi ho, execOf_readRows, readC_readRows, memOff_readRows, hc, hb]
  rfl

end

/-- Settles O41: the lanes write in turn, so a byte holds what its highest lane wrote. -/
theorem scratchpadStoreResults : Obligations.ScratchpadStoreResults := by
  unfold Obligations.ScratchpadStoreResults
  intro h w d c x disp s v hi ho ex q cap off at' n rows word
  refine ⟨fun r hc => sts_trap hi ho hc, fun hc hb => ⟨sts_stores hi ho hc hb, fun hh hs => ?_⟩⟩
  have hq : isHandler q.1 = false := by simpa [q] using hh
  have hlen : ∀ l, (leBytes n (word l)).length = n := fun l => leBytes_length _ _
  have hu : storeEffect q.1 w rows cap ex off = { q.1 with b := laneWrites (laneList ex) at' (fun l => leBytes n (word l)) v.b } := by
    rw [storeEffect_block hq hs, readRows_b]
    rfl
  rw [hu]
  refine ⟨rfl, rfl, laneWrites_frame _ _, fun a ha => laneWrites_outside _ _ fun l hl => ?_, fun l hl hm i hin hlast => ?_,
    fun l hl hm i hin htag => ?_⟩
  · obtain ⟨h1, h2⟩ := (mem_laneList ex l).1 hl
    simpa [hlen] using ha l h1 h2
  · obtain ⟨pre, post, hlist, hpost⟩ := laneList_split hl hm
    have hbyte := laneWrites_last (at' := at') (xs := fun l => leBytes n (word l)) pre post l v.b (i := i) (by rwa [hlen]) fun k hk => by
      obtain ⟨h1, h2, h3⟩ := hpost k hk
      simpa [hlen] using hlast k h1 h2 h3
    rw [hlist, hbyte, getElem_leBytes]
  · exact (laneWrites_tags _ _ _ htag).2 l ((mem_laneList ex l).2 ⟨hl, hm⟩) i (by rwa [hlen]) rfl

end Sys2Proof.Machine
end

section
/-! Scratchpad atomics (R155, R166): the statement ScratchpadAtomicResults. -/
namespace Sys2Proof.Machine
open Sys2Proof

/-! ### The new word -/

/-- A word read as a signed number. -/
def signedWord (n : Nat) : Int := (BitVec.ofNat 32 n).toInt

@[simp] theorem signedWord_toNat (x : W32) : signedWord x.toNat = x.toInt := by rw [signedWord, BitVec.ofNat_toNat, BitVec.setWidth_eq]

/-- The word that an atomic leaves in place of `old`, under its operands (R166). -/
def atomsWord (op : AtomOp) (old y z : Nat) : Nat :=
  match op with
  | .add => (old + y) % 2 ^ 32
  | .and => old &&& y
  | .or => old ||| y
  | .xor => old ^^^ y
  | .min => if signedWord y < signedWord old then y else old
  | .max => if signedWord old < signedWord y then y else old
  | .exch => y
  | .cas => if old = y then z else old
  | .fadd => (add32 old y).1 % 2 ^ 32

/-- The low word of a 32-bit Fit (R103). -/
theorem setWidth_fit_n32 (y : Int) : (fit .n32 y).setWidth 32 = BitVec.ofInt 32 y := by
  simp only [fit, tySigned, Bool.false_eq_true, if_false, tyWidth]
  exact BitVec.setWidth_setWidth_of_le _ (by decide)

theorem setWidth_fit_s32 (y : Int) : (fit .s32 y).setWidth 32 = BitVec.ofInt 32 y := by
  simp only [fit, tySigned, if_true, tyWidth]
  exact toInt_setWidth_signExtend (by decide) _

theorem toNat_fit_n32 (n : Nat) : (fit .n32 n).toNat % 2 ^ 32 = n % 2 ^ 32 := by
  rw [← BitVec.toNat_setWidth, setWidth_fit_n32, BitVec.ofInt_natCast, BitVec.toNat_ofNat]

theorem toNat_fit_toInt_s32 (x : W32) : (fit .s32 x.toInt).toNat % 2 ^ 32 = x.toNat := by
  rw [← BitVec.toNat_setWidth, setWidth_fit_s32, BitVec.ofInt_toInt]

theorem uns_n32_setWidth (x : W32) : uns .n32 (x.setWidth 64) = x.toNat := by
  simp only [uns, tyWidth]
  rw [BitVec.setWidth_setWidth_of_le _ (by decide), BitVec.setWidth_eq]

theorem val_s32_setWidth (x : W32) : val .s32 (x.setWidth 64) = x.toInt := by
  simp only [val, tySigned, if_true, sgn, tyWidth]
  rw [BitVec.setWidth_setWidth_of_le _ (by decide), BitVec.setWidth_eq]

theorem atomNew_word (op : AtomOp) (old y z : W32) :
    (atomNew op (atomsTy op) (old.setWidth 64) (y.setWidth 64) (z.setWidth 64)).1.toNat % 2 ^ 32 =
      atomsWord op old.toNat y.toNat z.toNat := by
  have hlt : ∀ x : W32, x.toNat % 2 ^ 32 = x.toNat := fun x => Nat.mod_eq_of_lt x.isLt
  have hw : ∀ x : W32, (x.setWidth 64).toNat = x.toNat := fun x => BitVec.toNat_setWidth_of_le (by decide)
  have hn : ∀ x : W32, val .n32 (x.setWidth 64) = x.toNat := uns_n32_setWidth
  cases op with
  | add =>
    simp only [atomNew, atomsTy, opAdd, hn, atomsWord, ← Nat.cast_add]
    exact toNat_fit_n32 _
  | and =>
    simp only [atomNew, atomsTy, opAnd, toNat_fit_n32, BitVec.toNat_and, hw, atomsWord]
    exact Nat.mod_eq_of_lt (Nat.and_lt_two_pow _ y.isLt)
  | or =>
    simp only [atomNew, atomsTy, opOr, toNat_fit_n32, BitVec.toNat_or, hw, atomsWord]
    exact Nat.mod_eq_of_lt (Nat.or_lt_two_pow old.isLt y.isLt)
  | xor =>
    simp only [atomNew, atomsTy, opXor, toNat_fit_n32, BitVec.toNat_xor, hw, atomsWord]
    exact Nat.mod_eq_of_lt (Nat.xor_lt_two_pow old.isLt y.isLt)
  | min =>
    simp only [atomNew, atomsTy, opMin, val_s32_setWidth, atomsWord, signedWord_toNat]
    split
    · rw [min_eq_right (by omega), toNat_fit_toInt_s32]
    · rw [min_eq_left (by omega), toNat_fit_toInt_s32]
  | max =>
    simp only [atomNew, atomsTy, opMax, val_s32_setWidth, atomsWord, signedWord_toNat]
    split
    · rw [max_eq_right (by omega), toNat_fit_toInt_s32]
    · rw [max_eq_left (by omega), toNat_fit_toInt_s32]
  | exch => simp only [atomNew, hw, hlt, atomsWord]
  | cas =>
    have hfit : fit .n64 (old.toNat : Int) = fit .n64 (y.toNat : Int) ↔ old.toNat = y.toNat := by
      simp only [fit, tySigned, Bool.false_eq_true, if_false, tyWidth, BitVec.setWidth_eq, BitVec.ofInt_natCast]
      rw [← BitVec.toNat_inj, BitVec.toNat_ofNat, BitVec.toNat_ofNat, Nat.mod_eq_of_lt, Nat.mod_eq_of_lt]
      all_goals have := old.isLt; have := y.isLt; omega
    simp only [atomNew, atomsTy, uns_n32_setWidth, hfit, atomsWord]
    split <;> rw [hw, hlt]
  | fadd =>
    simp only [atomNew, hw, hlt, BitVec.toNat_ofNat, atomsWord]
    exact Nat.mod_mod_of_dvd _ (by decide)

/-- The flags that an atomic raises: those of its FP32 sum (R166). -/
def atomsFlags (op : AtomOp) (old y : Nat) : Flg := if op = .fadd then (add32 old y).2 else 0

theorem atomNew_flags (op : AtomOp) (t : Ty) {old : Nat} (hold : old < 2 ^ 32) (y : W32) (z : W64) :
    (atomNew op t (BitVec.ofNat 64 old) (y.setWidth 64) z).2 = atomsFlags op old y.toNat := by
  have hy : (y.setWidth 64).toNat % 2 ^ 32 = y.toNat := by
    rw [BitVec.toNat_setWidth_of_le (by decide)]
    exact Nat.mod_eq_of_lt y.isLt
  have ho : (BitVec.ofNat 64 old).toNat % 2 ^ 32 = old := by
    rw [BitVec.toNat_ofNat]
    omega
  cases op
  case fadd => simp only [atomNew, hy, ho, atomsFlags, if_true]
  all_goals rfl

/-! ### One lane -/

/-- One lane of an ATOMS outside space 2: the new word stands at its address and nowhere else, and the old one is the lane's result. -/
theorem atomsLane_flat {op : AtomOp} {rows : List Row} {cap : Cap} {off : Nat → Int} (hs : capSpace cap ≠ 2) (b : Block)
    (ws : List (Nat × W32)) (fl : Flg) (l : Nat) :
    let a := (capBase cap + off l).toNat
    let old := leNat (bgets b.scratch a 4)
    let y := rget (rows.getD 0 zeroRow) l
    let z := rget (rows.getD 1 zeroRow) l
    let r := atomsLane op rows cap off (b, ws, fl) l
    leNat (bgets r.1.scratch a 4) = atomsWord op old y.toNat z.toNat ∧ (∀ k, k < a ∨ a + 4 ≤ k → bget r.1.scratch k = bget b.scratch k) ∧
      r.2.1 = (l, BitVec.ofNat 32 old) :: ws ∧
      r.2.2 = fl ||| atomsFlags op old y.toNat := by
  intro a old y z r
  have hlt : old < 2 ^ 32 := by simpa using leNat_lt (bgets b.scratch a 4)
  have hword : (atomNew op (atomsTy op) (BitVec.ofNat 64 old) (y.setWidth 64) (z.setWidth 64)).1.toNat % 2 ^ 32 =
      atomsWord op old y.toNat z.toNat := by
    have hw := atomNew_word op (BitVec.ofNat 32 old) y z
    rwa [BitVec.toNat_ofNat, Nat.mod_eq_of_lt hlt, BitVec.setWidth_ofNat_of_le_of_lt (by decide) hlt] at hw
  let bs := leBytes 4 (atomsWord op old y.toNat z.toNat)
  have hr : r = (scrWrite b ((List.range bs.length).map (fun i => a + i)) bs, (l, BitVec.ofNat 32 old) :: ws,
      fl ||| atomsFlags op old y.toNat) := by
    simp only [← atomNew_flags op (atomsTy op) hlt y (z.setWidth 64), r, atomsLane, bs, leBytes_length, ← hword, byteAddrs_flat hs]
    rfl
  obtain ⟨ts, hw, -⟩ := scrWrite_flat b a bs
  have hlen : bs.length = 4 := leBytes_length _ _
  rw [hr, hw]
  refine ⟨?_, fun k hk => bget_bputs_outside _ _ _ _ (by rwa [hlen]), rfl, rfl⟩
  have hb := bgets_bputs bs b.scratch a
  rw [hlen] at hb
  rw [hb, leNat_leBytes, ← hword]
  exact Nat.mod_mod_of_dvd _ (by decide)

/-! ### The instructions -/

/-- The vector operands of an ATOMS. -/
def atomsOps (op : AtomOp) (d : VReg) (c : CReg) (x : MemOff) : List Opd :=
  [Opd.c c] ++ offOps x ++ (if op = .cas then [Opd.v d.toNat 2 true false, Opd.v d.toNat 1 false true] else [Opd.v d.toNat 1 true true])

theorem atoms_ready {h : Hdr} {op : AtomOp} {d : VReg} {c : CReg} {x : MemOff} {disp : W16} {s : State} {v : View} (hi : Issues h s v)
    (ho : OperandsReady (atomsOps op d c x) v)
    (hc : let q := readRows (execOf h v.g) (atomsOps op d c x) v
      checkLanes q.1 (execOf h v.g) (readC v.g c) (memOff v.g x disp q.2) 4 pA [1, 2] false = none)
    (hb : let q := readRows (execOf h v.g) (atomsOps op d c x) v
      bytesHeld q.1 (allBytes (readC v.g c) (execOf h v.g) (memOff v.g x disp q.2) 4) true = false) :
    let q := readRows (execOf h v.g) (atomsOps op d c x) v
    let r := (laneList (execOf h v.g)).foldl (atomsLane op (dataRows x q.2) (readC v.g c) (memOff v.g x disp q.2)) (scrBlock q.1, [], 0)
    atomsOp h op d c x disp s =
      completed h (writeRow (setScr q.1 r.1) d.toNat (execOf h v.g) (rowOf (fun l => tgetD r.2.1 l 0))) r.2.2 := by
  have he : [Opd.c c] ++ offOps x ++ (if op = .cas then [Opd.v d.toNat 2 true false, Opd.v d.toNat 1 false true]
    else [Opd.v d.toNat 1 true true]) = atomsOps op d c x := rfl
  simp only [atomsOp, he, issue_ready hi ho, execOf_readRows, readC_readRows, memOff_readRows, hc, hb]
  rfl

/-- Settles O42: the nine instructions are one operation, and one lane of it leaves its word. -/
theorem scratchpadAtomicResults : Obligations.ScratchpadAtomicResults := by
  unfold Obligations.ScratchpadAtomicResults
  intro h sc d c x disp s v hi ex cap p hp ops ho q off hc hb r
  have hx : exec p.1 s = atomsOp h p.2 d c x disp s := by
    simp only [List.mem_cons, List.not_mem_nil, or_false] at hp
    rcases hp with rfl | rfl | rfl | rfl | rfl | rfl | rfl | rfl | rfl <;> rfl
  refine ⟨hx.trans (atoms_ready hi ho hc hb), fun l hl hh hs => ?_⟩
  have hr : r = atomsLane p.2 (dataRows x q.2) cap off (v.b, [], 0) l := by
    simp only [r, ex, hl, List.foldl_cons, List.foldl_nil, scrBlock_block (show isHandler q.1 = false by simpa [q] using hh)]
    rw [readRows_b]
  obtain ⟨hword, hout, hold, hfl⟩ := atomsLane_flat (op := p.2) (rows := dataRows x q.2) (off := off)
    (show capSpace cap ≠ 2 by rw [hs]; decide) v.b [] 0 l
  rw [hr]
  refine ⟨hword.trans ?_, hout, by rw [hold]; simp [tgetD, tget], fun hp => ?_, fun hp => ?_⟩
  · cases p.2 <;> rfl
  · rw [hfl, atomsFlags, if_neg hp]
    rfl
  · rw [hfl, atomsFlags, if_pos hp]
    exact BitVec.zero_or

end Sys2Proof.Machine
end

section
/-! Capability instructions (R154, R155, R159 to R162): the statement CapabilityResults. -/
namespace Sys2Proof.Machine
open Sys2Proof

/-! ### The fields of a capability (R154) -/

theorem getLsbD_lowWord (k : Nat) : (0xFFFFFFFF : BitVec 128).getLsbD k = decide (k < 32) := by
  rw [show (0xFFFFFFFF : BitVec 128) = BitVec.ofNat 128 (2 ^ 32 - 1) from rfl, BitVec.getLsbD_ofNat, Nat.testBit_two_pow_sub_one]
  by_cases h : k < 32 <;> simp [h]
  omega

theorem getLsbD_withBounds (c : Cap) (base limit k : Nat) :
    (withBounds c base limit).bits.getLsbD k =
      (decide (k < 128) && ((decide (80 ≤ k) && base.testBit (k - 80)) || (decide (32 ≤ k) && limit.testBit (k - 32)) ||
        (decide (k < 32) && c.bits.getLsbD k))) := by
  simp only [withBounds, BitVec.getLsbD_or, BitVec.getLsbD_and, BitVec.getLsbD_ofNat, Nat.testBit_mul_two_pow, getLsbD_lowWord]
  by_cases h : k < 128
  · simp [h, Bool.and_comm]
  · simp [h]
    omega

theorem testBit_of_lt {n k i : Nat} (h : n < 2 ^ k) (hi : k ≤ i) : n.testBit i = false :=
  Nat.testBit_lt_two_pow (Nat.lt_of_lt_of_le h (Nat.pow_le_pow_right (by decide) hi))

section
variable {c : Cap} {base limit : Nat}

theorem capBase_withBounds (hb : base < 2 ^ 48) (hl : limit < 2 ^ 48) : capBase (withBounds c base limit) = base := by
  have he : (withBounds c base limit).bits.extractLsb' 80 48 = BitVec.ofNat 48 base := by
    apply BitVec.eq_of_getLsbD_eq
    intro i hi
    rw [BitVec.getLsbD_extractLsb', getLsbD_withBounds, BitVec.getLsbD_ofNat]
    simp [hi, show 80 + i < 128 by omega, show ¬ 80 + i < 32 by omega, testBit_of_lt hl (show 48 ≤ 80 + i - 32 by omega)]
  rw [capBase, he, BitVec.toNat_ofNat, Nat.mod_eq_of_lt hb]

theorem capLimit_withBounds (hl : limit < 2 ^ 48) : capLimit (withBounds c base limit) = limit := by
  have he : (withBounds c base limit).bits.extractLsb' 32 48 = BitVec.ofNat 48 limit := by
    apply BitVec.eq_of_getLsbD_eq
    intro i hi
    rw [BitVec.getLsbD_extractLsb', getLsbD_withBounds, BitVec.getLsbD_ofNat]
    simp [hi, show 32 + i < 128 by omega, show ¬ 80 ≤ 32 + i by omega]
  rw [capLimit, he, BitVec.toNat_ofNat, Nat.mod_eq_of_lt hl]

/-- The fields below the bounds are the source's. -/
theorem extractLsb'_withBounds {lo n : Nat} (h : lo + n ≤ 32) : (withBounds c base limit).bits.extractLsb' lo n = c.bits.extractLsb' lo n := by
  apply BitVec.eq_of_getLsbD_eq
  intro i hi
  rw [BitVec.getLsbD_extractLsb', BitVec.getLsbD_extractLsb', getLsbD_withBounds]
  simp [hi, show lo + i < 128 by omega, show ¬ 80 ≤ lo + i by omega, show lo + i < 32 by omega]

end

theorem capLimit_lt (c : Cap) : capLimit c < 2 ^ 48 := (c.bits.extractLsb' 32 48).isLt

/-- The capability that CAPPERM leaves: the permissions ANDed with the mask, the other bits kept. -/
def withPerm (c : Cap) (m : BitVec 8) : Cap :=
  { bits := (c.bits &&& ~~~((0xFF : BitVec 128) <<< 24)) ||| ((capPerm c &&& m).setWidth 128 <<< 24), tag := true }

theorem getLsbD_withPerm (c : Cap) (m : BitVec 8) {k : Nat} (hk : k < 128) :
    (withPerm c m).bits.getLsbD k = if 24 ≤ k ∧ k < 32 then (capPerm c &&& m).getLsbD (k - 24) else c.bits.getLsbD k := by
  have hff : ∀ j, (0xFF : BitVec 128).getLsbD j = decide (j < 8) := fun j => by
    rw [show (0xFF : BitVec 128) = BitVec.ofNat 128 (2 ^ 8 - 1) from rfl, BitVec.getLsbD_ofNat, Nat.testBit_two_pow_sub_one]
    by_cases h : j < 8 <;> simp [h]
    omega
  simp only [withPerm, BitVec.getLsbD_or, BitVec.getLsbD_and, BitVec.getLsbD_not, BitVec.getLsbD_shiftLeft, BitVec.getLsbD_setWidth, hff, hk]
  by_cases h1 : k < 24
  · simp [h1, show ¬ 24 ≤ k by omega]
  · by_cases h2 : k < 32
    · simp [h1, h2, show 24 ≤ k by omega, show k - 24 < 8 by omega, show k - 24 < 128 by omega]
    · simp [h1, h2, show 24 ≤ k by omega, show ¬ k - 24 < 8 by omega, BitVec.getLsbD_of_ge _ _ (show 8 ≤ k - 24 by omega)]

theorem capPerm_withPerm (c : Cap) (m : BitVec 8) : capPerm (withPerm c m) = capPerm c &&& m := by
  apply BitVec.eq_of_getLsbD_eq
  intro i hi
  rw [capPerm, BitVec.getLsbD_extractLsb', getLsbD_withPerm c m (by omega)]
  simp [hi, show 24 + i < 32 by omega]

/-- The fields beside the permissions are the source's. -/
theorem extractLsb'_withPerm (c : Cap) (m : BitVec 8) {lo n : Nat} (h : lo + n ≤ 24 ∨ 32 ≤ lo ∧ lo + n ≤ 128) :
    (withPerm c m).bits.extractLsb' lo n = c.bits.extractLsb' lo n := by
  apply BitVec.eq_of_getLsbD_eq
  intro i hi
  rw [BitVec.getLsbD_extractLsb', BitVec.getLsbD_extractLsb', getLsbD_withPerm c m (by omega), if_neg (by omega)]

/-! ### Deriving and reading -/

section
variable {h : Hdr} {d c : CReg} {e x : SReg} {m : BitVec 8} {f : BitVec 3} {s : State} {v : View}

theorem capsub_fails (hi : Issues h s v) (ho : OperandsReady [.c c, .s x.toNat 2 true false] v) {n : Nat}
    (hn : let cap := readC v.g c
      let part := (readS v.g x).toNat + (readS v.g (x + 1)).toNat
      cap.tag = false ∧ n = 1 ∨ cap.tag = true ∧ capPerm cap &&& pD = 0 ∧ n = 4 ∨
        cap.tag = true ∧ capPerm cap &&& pD ≠ 0 ∧ (capLimit cap : Int) - capBase cap < (part : Nat) ∧ n = 5) :
    exec (.capsub h d c x) s = .next (flush (conclude h v (capFault n (readC v.g c)))) := by
  simp only [exec, execCapsub, issue_scalar hi ho rfl]
  rcases hn with ⟨ht, rfl⟩ | ⟨ht, hp, rfl⟩ | ⟨ht, hp, hs, rfl⟩
  · simp only [ht]
    rfl
  · simp only [ht, hp]
    rfl
  · simp only [ht, hp, hs]
    rfl

theorem capsub_derives (hi : Issues h s v) (ho : OperandsReady [.c c, .s x.toNat 2 true false] v) (ht : (readC v.g c).tag = true)
    (hp : capPerm (readC v.g c) &&& pD ≠ 0)
    (hs : (((readS v.g x).toNat + (readS v.g (x + 1)).toNat : Nat) : Int) ≤ (capLimit (readC v.g c) : Int) - capBase (readC v.g c)) :
    let base := capBase (readC v.g c) + (readS v.g x).toNat
    exec (.capsub h d c x) s =
      completed h { v with g := writeC v.g d (withBounds (readC v.g c) base (base + (readS v.g (x + 1)).toNat)) } 0 := by
  simp only [exec, execCapsub, issue_scalar hi ho rfl, ht, hp, not_lt.2 hs]
  rfl

theorem capperm_untagged (hi : Issues h s v) (ho : OperandsReady [.c c] v) (ht : (readC v.g c).tag = false) :
    exec (.capperm h d c m) s = .next (flush (conclude h v (capFault 1 (readC v.g c)))) := by
  simp only [exec, execCapperm, issue_scalar hi ho rfl, ht]
  rfl

theorem capperm_derives (hi : Issues h s v) (ho : OperandsReady [.c c] v) (ht : (readC v.g c).tag = true) (hm : m.getLsbD 0 = false) :
    exec (.capperm h d c m) s = completed h { v with g := writeC v.g d (withPerm (readC v.g c) m) } 0 := by
  simp only [exec, execCapperm, issue_scalar hi ho rfl, ht, hm]
  rfl

theorem capget_reads (hi : Issues h s v) (ho : OperandsReady [.c c, sdst e] v) (y : W64)
    (hy : let cap := readC v.g c
      f = 0 ∧ y = BitVec.ofNat 64 (apertureBase (capSpace cap) + capBase cap) ∨
        f = 1 ∧ y = BitVec.ofNat 64 (apertureBase (capSpace cap) + capLimit cap) ∨ f = 2 ∧ y = (capPerm cap).setWidth 64 ∨
        f = 3 ∧ y = BitVec.ofNat 64 (capSpace cap) ∨ f = 4 ∧ y = boolW cap.tag ∨
        f = 5 ∧ y = BitVec.ofInt 64 ((capLimit cap : Int) - capBase cap)) :
    exec (.capget h e c f) s = completed h { v with g := writeS v.g e y } 0 := by
  rcases hy with ⟨rfl, rfl⟩ | ⟨rfl, rfl⟩ | ⟨rfl, rfl⟩ | ⟨rfl, rfl⟩ | ⟨rfl, rfl⟩ | ⟨rfl, rfl⟩ <;> exact issue_scalar hi ho rfl

theorem capoff_untagged (hi : Issues h s v) (ho : OperandsReady [.c c, ssrc x, sdst e] v) (ht : (readC v.g c).tag = false) :
    exec (.capoff h e c x) s = .next (flush (conclude h v (capFault 1 (readC v.g c)))) := by
  simp only [exec, execCapoff, issue_scalar hi ho rfl, ht]
  rfl

theorem capoff_tagged (hi : Issues h s v) (ho : OperandsReady [.c c, ssrc x, sdst e] v) (ht : (readC v.g c).tag = true) :
    let cap := readC v.g c
    let lo := apertureBase (capSpace cap) + capBase cap
    let a := (readS v.g x).toNat
    let y := if lo ≤ a ∧ a < apertureBase (capSpace cap) + capLimit cap then BitVec.ofNat 64 (a - lo) else 0xFFFFFFFFFFFFFFFF
    exec (.capoff h e c x) s = completed h { v with g := writeS v.g e y } 0 := by
  simp only [exec, execCapoff, issue_scalar hi ho rfl, ht]
  rfl

end

/-! ### CAPLD and CAPST (R160) -/

theorem noRows_capOffOps (o : CapOff) : noRows ([.c c] ++ capOffOps o) = true := by cases o <;> rfl

theorem noRows_capstOps (c d : CReg) (o : CapOff) : noRows ([.c c] ++ capOffOps o ++ [.c d]) = true := by cases o <;> rfl

section
variable {h : Hdr} {d c : CReg} {o : CapOff} {disp : W16} {s : State} {v : View}

theorem capld_loads (hi : Issues h s v) (ho : OperandsReady ([.c c] ++ capOffOps o) v) (hh : isHandler v = false)
    (hc : check1 v (readC v.g c) (capOffVal v.g o disp) 16 pR [1] = none)
    (hb : bytesHeld v (byteAddrs 1 (capBase (readC v.g c) + capOffVal v.g o disp).toNat 16 0) false = false) :
    let cap := readC v.g c
    let a := (capBase cap + capOffVal v.g o disp).toNat
    let y : Cap := ⟨BitVec.ofNat 128 (leNat (bgets v.b.scratch a 16)), v.b.tags.contains (a / 16) && (capPerm cap &&& pL != 0)⟩
    exec (.capld h d c o disp) s = completed h { v with g := writeC v.g d y } 0 := by
  simp only [exec, execCapld, issue_scalar hi ho (noRows_capOffOps o), hc, hb, scrBlock_block hh, scrRead_flat (show (1 : Nat) ≠ 2 by decide)]
  rfl

/-- The block after 16 bytes of a capability stored at an address (R155). -/
def capStored (b : Block) (a : Nat) (val : Cap) : Block :=
  let w := scrWrite b (byteAddrs 1 a 16 0) (leBytes 16 val.bits.toNat)
  if val.tag then { w with tags := nput w.tags (a / 16) } else w

theorem capst_stores (hi : Issues h s v) (ho : OperandsReady ([.c c] ++ capOffOps o ++ [.c d]) v) (hh : isHandler v = false)
    (hc : check1 v (readC v.g c) (capOffVal v.g o disp) 16 (if (readC v.g d).tag then pW ||| pT else pW) [1] = none)
    (hb : bytesHeld v (byteAddrs 1 (capBase (readC v.g c) + capOffVal v.g o disp).toNat 16 0) true = false) :
    exec (.capst h d c o disp) s = completed h
      { v with b := capStored v.b (capBase (readC v.g c) + capOffVal v.g o disp).toNat (readC v.g d) } 0 := by
  simp only [exec, execCapst, issue_scalar hi ho (noRows_capstOps c d o), hc, hb, scrBlock_block hh, setScr_block hh]
  rfl

end

theorem capStored_spec (b : Block) (a : Nat) (val : Cap) :
    ∃ ts, capStored b a val = { b with scratch := bputs b.scratch a (leBytes 16 val.bits.toNat), tags := ts } ∧ (a / 16 ∈ ts ↔ val.tag = true) ∧
      ∀ g, g ≠ a / 16 → g ≠ (a + 15) / 16 → (g ∈ ts ↔ g ∈ b.tags) := by
  have hlen : (leBytes 16 val.bits.toNat).length = 16 := leBytes_length _ _
  obtain ⟨ts, hw, ht⟩ := scrWrite_flat b a (leBytes 16 val.bits.toNat)
  rw [hlen] at hw ht
  have hfirst : a / 16 ∉ ts := fun hg => ((ht _).1 hg).2 0 (by decide) rfl
  have hother : ∀ g, g ≠ a / 16 → g ≠ (a + 15) / 16 → (g ∈ ts ↔ g ∈ b.tags) := fun g h1 h2 => by
    rw [ht, and_iff_left]
    intro i hi
    omega
  rw [capStored, byteAddrs_flat (by decide), hw]
  cases hv : val.tag
  · exact ⟨ts, rfl, by simpa using hfirst, hother⟩
  · refine ⟨nput ts (a / 16), rfl, by simp [mem_nput], fun g h1 h2 => ?_⟩
    rw [mem_nput, or_iff_right h1]
    exact hother g h1 h2

/-- Settles O44: what each instruction derives, reads, loads or stores. -/
theorem capabilityResults : Obligations.CapabilityResults := by
  unfold Obligations.CapabilityResults
  intro h d c e x m f o disp s v hi cap size fails put putS
  refine ⟨fun ho => ?_, fun ho => ?_, fun ho => ?_, fun ho => ?_, ?_⟩
  · refine ⟨fun ht => capsub_fails hi ho (.inl ⟨ht, rfl⟩), fun ht hp => capsub_fails hi ho (.inr (.inl ⟨ht, hp, rfl⟩)),
      fun ht hp hs => capsub_fails hi ho (.inr (.inr ⟨ht, hp, hs, rfl⟩)), fun ht hp hs => ?_⟩
    have hfit : capBase cap + (readS v.g x).toNat + (readS v.g (x + 1)).toNat < 2 ^ 48 := by have := capLimit_lt cap; omega
    have hbase := Nat.lt_of_le_of_lt (Nat.le_add_right _ _) hfit
    exact ⟨_, capsub_derives hi ho ht hp hs, rfl, capBase_withBounds hbase hfit, capLimit_withBounds hfit,
      extractLsb'_withBounds (by decide), congrArg BitVec.toNat (extractLsb'_withBounds (by decide))⟩
  · exact ⟨capperm_untagged hi ho, fun ht hm => ⟨_, capperm_derives hi ho ht hm, rfl, capPerm_withPerm _ _,
      congrArg BitVec.toNat (extractLsb'_withPerm _ _ (by decide)), congrArg BitVec.toNat (extractLsb'_withPerm _ _ (by decide)),
      congrArg BitVec.toNat (extractLsb'_withPerm _ _ (by decide))⟩⟩
  · have reads := fun y => capget_reads hi ho (f := f) y
    refine ⟨fun hf => reads _ (.inl ⟨hf, rfl⟩), fun hf => reads _ (.inr (.inl ⟨hf, rfl⟩)), fun hf => reads _ (.inr (.inr (.inl ⟨hf, rfl⟩))),
      fun hf => reads _ (.inr (.inr (.inr (.inl ⟨hf, rfl⟩)))), fun hf => reads _ (.inr (.inr (.inr (.inr (.inl ⟨hf, rfl⟩))))),
      fun hf => reads _ (.inr (.inr (.inr (.inr (.inr ⟨hf, rfl⟩)))))⟩
  · refine ⟨capoff_untagged hi ho, fun ht h1 h2 => ?_, fun ht hout => ?_⟩
    · rw [capoff_tagged hi ho ht, if_pos ⟨h1, h2⟩]
    · rw [capoff_tagged hi ho ht, if_neg fun hin => hout.elim (Nat.not_lt.2 hin.1) (Nat.not_le.2 hin.2)]
  · intro off a val
    refine ⟨fun ho hh hc hb => capld_loads hi ho hh hc hb, fun ho hh hc hb => ⟨_, capst_stores hi ho hh hc hb, ?_⟩⟩
    obtain ⟨ts, hw, htag, hother⟩ := capStored_spec v.b a val
    have hlen : (leBytes 16 val.bits.toNat).length = 16 := leBytes_length _ _
    have hbytes := bgets_bputs (leBytes 16 val.bits.toNat) v.b.scratch a
    rw [hlen] at hbytes
    rw [hw]
    exact ⟨rfl, hbytes, fun k hk => bget_bputs_outside _ _ _ _ (by rwa [hlen]), htag, hother⟩

end Sys2Proof.Machine
end

section
/-! What the accesses of the engines leave unchanged (R182, R187, R274, R299), how an operation that ends leaves its group (R31, R183), and what
starting an operation gives (R31): the facts that the copy, queue and atomic engines share. -/
namespace Sys2Proof.Machine
open Sys2Proof

/-! ### Blocks and operations stay -/

/-- From the one state to the other, the blocks and the outstanding operations stay as they are. -/
structure KeepsThreads (s t : State) : Prop where
  blocks : t.blocks = s.blocks
  ops    : t.ops = s.ops

theorem KeepsThreads.refl (s : State) : KeepsThreads s s := ⟨rfl, rfl⟩

theorem KeepsThreads.trans {s t r : State} (h : KeepsThreads s t) (h' : KeepsThreads t r) : KeepsThreads s r :=
  ⟨h'.blocks.trans h.blocks, h'.ops.trans h.ops⟩

theorem KeepsThreads.ite {s t r : State} {p : Prop} [Decidable p] (h : KeepsThreads s t) (h' : KeepsThreads s r) :
    KeepsThreads s (if p then t else r) := by
  split
  · exact h
  · exact h'

theorem keepsThreads_walkFlits (s : State) (stop part vpn : Nat) : KeepsThreads s (walkFlits s stop part vpn) := by
  obtain ⟨fs, n, h⟩ := walkFlits_eq s stop part vpn
  rw [h]
  exact ⟨rfl, rfl⟩

theorem keepsThreads_tlbFill (s : State) (c part vpn : Nat) (l : Leaf) : KeepsThreads s (tlbFill s c part vpn l) := by
  have put : ∀ r micro, KeepsThreads r (tlbPut r c micro part vpn l) := fun _ _ => ⟨rfl, rfl⟩
  have put' : ∀ r micro, KeepsThreads r (if (tlbFind r c micro part vpn).isNone then tlbPut r c micro part vpn l else r) :=
    fun r micro => .ite (put r micro) (.refl r)
  exact (put' s false).trans (put' _ true)

theorem keepsThreads_translate (s : State) (core : Option Nat) (part vpn : Nat) : KeepsThreads s (translate s core part vpn).1 := by
  cases core with
  | none => exact keepsThreads_walkFlits s _ part vpn
  | some c =>
    have free : KeepsThreads s { s with free := s.free + 1 } := ⟨rfl, rfl⟩
    simp only [translate]
    split
    · split
      · exact free.trans (keepsThreads_tlbFill _ _ _ _ _)
      · split
        · exact (free.trans (keepsThreads_walkFlits _ _ _ _)).trans (keepsThreads_tlbFill _ _ _ _ _)
        · exact free.trans (keepsThreads_walkFlits _ _ _ _)
    · split
      · exact (keepsThreads_walkFlits _ _ _ _).trans (keepsThreads_tlbFill _ _ _ _ _)
      · exact keepsThreads_walkFlits _ _ _ _

/-- A request for a page changes the partition's wait table and nothing else (R274). -/
theorem requestPage_eq (s : State) (part vpn : Nat) (l : Leaf) : ∃ ps, requestPage s part vpn l = { s with parts := ps } := by
  simp only [requestPage]
  split
  · exact ⟨s.parts, rfl⟩
  · split
    · exact ⟨s.parts, rfl⟩
    · exact ⟨_, rfl⟩

theorem keepsThreads_requestPage (s : State) (part vpn : Nat) (l : Leaf) : KeepsThreads s (requestPage s part vpn l) := by
  obtain ⟨ps, h⟩ := requestPage_eq s part vpn l
  rw [h]
  exact ⟨rfl, rfl⟩

theorem keepsThreads_meet (s : State) (core : Option Nat) (part addr : Nat) (rd wr : Bool) :
    KeepsThreads s (meet s core part addr rd wr).1 := by
  have ht := keepsThreads_translate s core part (vpnOf addr)
  have page : ∀ ps, KeepsThreads s { (translate s core part (vpnOf addr)).1 with pages := ps } := fun _ => ⟨ht.blocks, ht.ops⟩
  simp only [meet]
  split
  · exact ht
  · split
    · exact ht
    · split
      · exact ht
      · split
        · split
          · exact ht
          · split
            · exact ht
            · exact page _
        · exact .ite (ht.trans (keepsThreads_requestPage _ _ _ _)) ht

/-- A page that an engine meets is resident. -/
theorem tget_page_of_meet {s r : State} {core : Option Nat} {part addr id o : Nat} {rd wr : Bool}
    (h : meet s core part addr rd wr = (r, .page id o)) : ∃ pg, tget r.pages id = some pg := by
  simp only [meet] at h
  repeat' split at h
  all_goals simp only [Prod.mk.injEq, Met.page.injEq, reduceCtorEq, and_false] at h
  obtain ⟨rfl, rfl, -⟩ := h
  exact ⟨_, tget_tput_same _ _ _⟩

/-- An element's request changes the rates and the flits. -/
theorem sendAccess_eq (s : State) (o : Op) (addr : Nat) (data back : List W8) :
    ∃ rs fs n, sendAccess s o addr data back = { s with rates := rs, flits := fs, nextFlit := n } := by
  have bucket : ∀ c p k, ∃ rs, takeBucket s c p k 128 = { s with rates := rs } := fun c p k => by
    unfold takeBucket
    split
    · exact ⟨s.rates, rfl⟩
    · exact ⟨_, rfl⟩
  unfold sendAccess
  split
  · rename_i c _
    unfold engineFlit
    split
    · exact ⟨s.rates, s.flits, s.nextFlit, rfl⟩
    · rename_i home _
      obtain ⟨rs, hr⟩ := bucket c (partOfBlk s o.blk) (opClass o.body)
      obtain ⟨fs, n, hf⟩ := sendSectors_eq { s with rates := rs } .request (partOfBlk s o.blk) c home false
        (.access c (opClass o.body) back) (sectors data)
      exact ⟨rs, fs, n, by rw [hr, sendFlit, hf]⟩
  · exact ⟨s.rates, s.flits, s.nextFlit, rfl⟩

theorem keepsThreads_sendAccess (s : State) (o : Op) (addr : Nat) (data back : List W8) : KeepsThreads s (sendAccess s o addr data back) := by
  obtain ⟨rs, fs, n, h⟩ := sendAccess_eq s o addr data back
  rw [h]
  exact ⟨rfl, rfl⟩

/-! ### Reading and storing one element -/

theorem pageBytes_length (s : State) (id off n : Nat) : (pageBytes s id off n).length = n := by
  unfold pageBytes
  split <;> simp

theorem overlay_length (prov : Tbl W8) (addr : Nat) (bs : List W8) : (overlay prov addr bs).length = bs.length := by simp [overlay]

theorem viewBytes_length (s : State) (uid id off addr n : Nat) : (viewBytes s uid id off addr n).length = n := by
  simp only [viewBytes, overlay_length, pageBytes_length]

theorem provRange_length {s : State} {uid addr n : Nat} {bs : List W8} (h : provRange s uid addr n = some bs) : bs.length = n := by
  unfold provRange at h
  split at h
  · split at h
    · cases h
      simp
    · cases h
  · cases h

/-- Reading an element keeps blocks and operations, and gives as many bytes as it asks for. -/
theorem engineRead_spec (s : State) (o : Op) (addr n : Nat) :
    KeepsThreads s (engineRead s o addr n).1 ∧ (engineRead s o addr n).2.1.length = n := by
  have hm := keepsThreads_meet s (opCore s o) (partOfBlk s o.blk) addr true false
  have sent : ∀ data back, KeepsThreads s (sendAccess (meet s (opCore s o) (partOfBlk s o.blk) addr true false).1 o addr data back) :=
    fun _ _ => hm.trans (keepsThreads_sendAccess _ _ _ _ _)
  simp only [engineRead]
  split
  · exact ⟨hm, by simp⟩
  · exact ⟨sent _ _, by simp⟩
  · split
    · rename_i bs hbs
      exact ⟨sent _ _, provRange_length hbs⟩
    · exact ⟨sent _ _, by simp⟩
  · exact ⟨sent _ _, viewBytes_length _ _ _ _ _ _⟩

/-- Provisional bytes with more stored over them. -/
def provAfter (t : Tbl W8) (a : Nat) (bs : List W8) : Tbl W8 := (bs.zip (List.range bs.length)).foldl (fun t e => tput t (a + e.2) e.1) t

theorem provAfter_append (t : Tbl W8) (a : Nat) (bs : List W8) (x : W8) :
    provAfter t a (bs ++ [x]) = tput (provAfter t a bs) (a + bs.length) x := by
  rw [provAfter, List.length_append, List.length_singleton, List.range_succ, List.zip_append (by simp), List.foldl_append]
  rfl

theorem tget_provAfter_inside (t : Tbl W8) (a : Nat) (bs : List W8) : ∀ j < bs.length, tget (provAfter t a bs) (a + j) = some (bs.getD j 0) := by
  induction bs using List.reverseRecOn with
  | nil => exact fun j hj => absurd hj (Nat.not_lt_zero j)
  | append_singleton bs x ih =>
    intro j hj
    rw [provAfter_append]
    rcases Nat.lt_succ_iff_lt_or_eq.1 (by simpa using hj) with hlt | rfl
    · rw [tget_tput_ne _ _ (by omega), ih j hlt]
      simp [List.getElem?_append_left hlt]
    · simp

theorem tget_provAfter_outside (t : Tbl W8) (a : Nat) (bs : List W8) {j : Nat} (hj : j < a ∨ a + bs.length ≤ j) :
    tget (provAfter t a bs) j = tget t j := by
  induction bs using List.reverseRecOn with
  | nil => rfl
  | append_singleton bs x ih =>
    rw [List.length_append, List.length_singleton] at hj
    rw [provAfter_append, tget_tput_ne _ _ (by omega), ih (by omega)]

theorem watchWrite_blocks (s : State) (part : Nat) (w : Writer) (addr n : Nat) (prov : Bool) (before after : Nat → W8) :
    (watchWrite s part w addr n prov before after).blocks = s.blocks := by
  obtain ⟨cs, h⟩ := watchWrite_eq s part w addr n prov before after
  rw [h]

/-- A provisional store that is done: the bytes stand among the block's provisional ones, and nothing else of the block has changed (R187). -/
theorem engineStore_done {s t : State} {o : Op} {addr : Nat} {bs : List W8} (h : engineStore s o addr bs = .done t) {b : Block}
    (hb : tget s.blocks o.blk = some b) :
    ∃ p w, tget t.blocks o.blk = some { b with prov := p, pwords := w } ∧ (∀ j < bs.length, tget p (addr + j) = some (bs.getD j 0)) ∧
      ∀ j, j < addr ∨ addr + bs.length ≤ j → tget p j = tget b.prov j := by
  have hm := keepsThreads_meet s (opCore s o) (partOfBlk s o.blk) addr false true
  have hsent := (hm.trans (keepsThreads_sendAccess (meet s (opCore s o) (partOfBlk s o.blk) addr false true).1 o addr bs [])).blocks
  simp only [engineStore] at h
  split at h
  · cases h
  · cases h
  · cases h
  · split at h
    · cases h
    · cases h
    · cases h
      simp only [provBytes, hsent, hb, watchWrite_blocks]
      exact ⟨_, _, tget_tput_same _ _ _, tget_provAfter_inside _ _ _, fun j hj => tget_provAfter_outside _ _ _ hj⟩

theorem opScratch_length (s : State) (o : Op) (a n : Nat) : (opScratch s o a n).length = n := by
  unfold opScratch
  split <;> simp

/-- Scratchpad bytes that an operation writes: they stand at their address and nowhere else. -/
theorem opScratchPut_block {s : State} {o : Op} {b : Block} (hb : tget s.blocks o.sblk = some b) (a : Nat) (bs : List W8) :
    ∃ ts, opScratchPut s o a bs = setBlk s o.sblk { b with scratch := bputs b.scratch a bs, tags := ts } := by
  obtain ⟨ts, hw, -⟩ := scrWrite_flat b a bs
  exact ⟨ts, by simp only [opScratchPut, hb, hw]⟩

/-! ### The group of an operation -/

/-- Group `k` of block `u` is `g`. -/
def GroupAt (s : State) (u k : Nat) (g : Group) : Prop := ∃ b, tget s.blocks u = some b ∧ b.groups[k]? = some g

theorem groupAt_of_viewAt {s : State} {u k : Nat} {v : View} (h : viewAt s u k = some v) : GroupAt s u k v.g := by
  obtain ⟨-, -, -, hb, hg⟩ := viewAt_eq_some.1 h
  exact ⟨v.b, hb, hg⟩

theorem GroupAt.viewAt {s : State} {u k : Nat} {g : Group} (h : GroupAt s u k g) : ∃ w, viewAt s u k = some w ∧ w.g = g := by
  obtain ⟨b, hb, hg⟩ := h
  exact ⟨{ st := s, uid := u, gid := k, b := b, g := g }, viewAt_eq_some.2 ⟨rfl, rfl, rfl, hb, hg⟩, rfl⟩

section
variable {s : State} {u k : Nat} {g : Group}

theorem GroupAt.congr (h : GroupAt s u k g) {t : State} (hb : t.blocks = s.blocks) : GroupAt t u k g := by
  rwa [GroupAt, hb]

/-- A block with the same groups in its place. -/
theorem GroupAt.setBlk {b b' : Block} (h : GroupAt s u k g) (hb : tget s.blocks u = some b) (hg : b'.groups = b.groups) :
    GroupAt (setBlk s u b') u k g := by
  obtain ⟨c, hc, hk⟩ := h
  obtain rfl : b = c := Option.some.inj (hb.symm.trans hc)
  exact ⟨b', tget_tput_same _ _ _, by rwa [hg]⟩

theorem GroupAt.modGroup (h : GroupAt s u k g) (f : Group → Group) : GroupAt (modGroup s u k f) u k (f g) := by
  obtain ⟨b, hb, hg⟩ := h
  simp only [GroupAt, Machine.modGroup, hb, hg]
  exact ⟨_, tget_tput_same _ _ _, getElem?_listSet_same _ _ _ (List.getElem?_eq_some_iff.1 hg).1⟩

theorem GroupAt.lateTrap (h : GroupAt s u k g) (f : FaultRec) : GroupAt (lateTrap s u f) u k g := by
  obtain ⟨b, hb, hg⟩ := h
  simp only [Machine.lateTrap, hb]
  split
  · exact ⟨b, hb, hg⟩
  · refine ⟨_, tget_tput_same _ _ _, ?_⟩
    rw [markFault_frame]
    exact hg

/-- The group of an operation that finishes keeps all but its handles. -/
theorem GroupAt.finishOp {id : Nat} {o : Op} (h : GroupAt s o.blk o.gid g) (ho : tget s.ops id = some o) (st : W16) (bm : Lanes)
    (pg : List Nat) (val : W64) (fl : BitVec 6) (bytes : List W8) :
    GroupAt (finishOp s id st bm pg val fl bytes) o.blk o.gid (completeH g id st bm pg) := by
  obtain ⟨b, hb, hg⟩ := h
  have hl : (logResult b o st val fl bytes).groups = b.groups := by rw [logResult_groups]
  have hd : tget (delOp s id).blocks o.blk = some b := hb
  simp only [Machine.finishOp, ho, hd, hl, hg]
  exact ⟨_, tget_tput_same _ _ _, getElem?_listSet_same _ _ _ (List.getElem?_eq_some_iff.1 hg).1⟩

/-- The flags of a completion that arrives late change the flags of the group alone (R186). -/
theorem GroupAt.lateFlags {o : Op} (h : GroupAt s o.blk o.gid g) (fl : Flg) :
    GroupAt (lateFlags s o fl) o.blk o.gid { g with fflags := g.fflags ||| fl } := by
  have hm := h.modGroup (fun g => { g with fflags := g.fflags ||| fl })
  simp only [Machine.lateFlags]
  split
  · exact hm.lateTrap _
  · exact hm

end

/-! ### An operation ends -/

theorem modGroup_eq (s : State) (u k : Nat) (f : Group → Group) : ∃ bs, modGroup s u k f = { s with blocks := bs } := by
  unfold modGroup
  split
  · exact ⟨s.blocks, rfl⟩
  · split
    · exact ⟨s.blocks, rfl⟩
    · exact ⟨_, rfl⟩

theorem lateTrap_eq (s : State) (u : Nat) (f : FaultRec) : ∃ bs, lateTrap s u f = { s with blocks := bs } := by
  unfold lateTrap
  split
  · exact ⟨s.blocks, rfl⟩
  · split
    · exact ⟨s.blocks, rfl⟩
    · exact ⟨_, rfl⟩

theorem lateFlags_eq (s : State) (o : Op) (fl : Flg) : ∃ bs, lateFlags s o fl = { s with blocks := bs } := by
  obtain ⟨bs, hm⟩ := modGroup_eq s o.blk o.gid (fun g => { g with fflags := g.fflags ||| fl })
  simp only [lateFlags, hm]
  split
  · obtain ⟨bs', hl⟩ := lateTrap_eq { s with blocks := bs } o.blk (lateFault { s with blocks := bs } { o with h := 0 } 2 _ 0)
    exact ⟨bs', hl⟩
  · exact ⟨bs, rfl⟩

theorem finishOp_eq {s : State} {id : Nat} {o : Op} (ho : tget s.ops id = some o) (st : W16) (bm : Lanes) (pg : List Nat) (val : W64)
    (fl : BitVec 6) (bytes : List W8) :
    ∃ bs, finishOp s id st bm pg val fl bytes = { delOp s id with blocks := bs } := by
  simp only [finishOp, ho]
  split
  · exact ⟨_, rfl⟩
  · split
    · exact ⟨_, rfl⟩
    · exact ⟨_, rfl⟩

/-- An operation that has met a memory fault is gone; pages and launches stay (R183). -/
theorem finishBad_spec {s : State} {id : Nat} {o : Op} (ho : tget s.ops id = some o) (o' : Op) (bad : Nat × Nat) :
    tget (finishBad s id o' bad).ops id = none ∧ (finishBad s id o' bad).pages = s.pages ∧ (finishBad s id o' bad).launches = s.launches := by
  obtain ⟨fr, hst⟩ : ∃ fr, (badStatus s bad).2 = { s with free := fr } := by
    unfold badStatus
    split
    · exact ⟨s.free, rfl⟩
    · split
      · exact ⟨s.free, rfl⟩
      · exact ⟨s.free + 1, rfl⟩
  obtain ⟨bs, hf⟩ := finishOp_eq (s := { s with free := fr }) ho (badStatus s bad).1 0 [] 0 0 []
  simp only [finishBad, hst, hf]
  split
  · exact ⟨tget_tdel_same _ _, rfl, rfl⟩
  · obtain ⟨bs', hl⟩ := lateTrap_eq { delOp { s with free := fr } id with blocks := bs } ((tget s.ops id).getD o').blk
      (lateFault { delOp { s with free := fr } id with blocks := bs } ((tget s.ops id).getD o') 1 bad.1 (BitVec.ofNat 8 bad.2))
    rw [hl]
    exact ⟨tget_tdel_same _ _, rfl, rfl⟩

/-- An operation has finished when it is gone and its group's handles are those that completing it leaves. -/
theorem finishes_of_group {s t : State} {id : Nat} {o : Op} {st : W16} (ho : tget s.ops id = some o) (hgone : tget t.ops id = none)
    (hg : ∀ g, GroupAt s o.blk o.gid g → ∃ g' bm pg, GroupAt t o.blk o.gid g' ∧ g'.h = (completeH g id st bm pg).h) : Finishes s t id st := by
  refine ⟨hgone, fun o' b g n ho' hb hk hn => ?_⟩
  obtain rfl : o = o' := Option.some.inj (ho.symm.trans ho')
  obtain ⟨g', bm, pg, ⟨b', hb', hk'⟩, hh⟩ := hg g ⟨b, hb, hk⟩
  exact ⟨b', g', bm, pg, hb', hk', by rw [hh]; exact tget_completeH st bm pg hn⟩

/-- Finishing an operation in a state with the same blocks and operations. -/
theorem finishes_of_keeps {s t : State} {id : Nat} {o : Op} (ho : tget s.ops id = some o) (hk : KeepsThreads s t) (st : W16) (bm : Lanes)
    (pg : List Nat) (val : W64) (fl : BitVec 6) (bytes : List W8) : Finishes s (finishOp t id st bm pg val fl bytes) id st := by
  have ho' : tget t.ops id = some o := by rw [hk.ops, ho]
  obtain ⟨bs, hf⟩ := finishOp_eq ho' st bm pg val fl bytes
  refine finishes_of_group ho (by rw [hf]; exact tget_tdel_same _ _) fun g hg =>
    ⟨_, bm, pg, (hg.congr hk.blocks).finishOp ho' st bm pg val fl bytes, rfl⟩

/-! ### An operation starts -/

theorem starts_startOp (v : View) (d : HReg) (body : OpBody) (key : Option Key) : Starts v (startOp v d body key) d body where
  handle := tget_tput_same _ _ _
  op := ⟨_, tget_tput_same _ _ _, rfl, rfl, rfl, rfl, rfl⟩
  regs := ⟨rfl, rfl, rfl, rfl, rfl, fun _ hx => tget_tput_ne _ _ hx⟩
  memory := ⟨rfl, rfl, rfl, rfl⟩

/-- A keyed operation that is counted starts like any other (R193). -/
theorem starts_keyed (v : View) (d : HReg) (body : OpBody) (key : Option Key) : Starts v (startOp (countKey v) d body key) d body where
  handle := tget_tput_same _ _ _
  op := ⟨_, tget_tput_same _ _ _, rfl, rfl, rfl, rfl, rfl⟩
  regs := ⟨rfl, rfl, rfl, rfl, rfl, fun _ hx => tget_tput_ne _ _ hx⟩
  memory := ⟨rfl, rfl, rfl, rfl⟩

end Sys2Proof.Machine
end

section
/-! The copy engine (R169 to R174, R187): the statement CopyEngineResults. -/
namespace Sys2Proof.Machine
open Sys2Proof

/-! ### Issue -/

/-- A copy starts for handle `d` with a range entry over its scratchpad span (R31, R173). -/
def StartsCopy (v w : View) (d : HReg) (k : CopyCmd) : Prop :=
  Starts v w d (.copy k) ∧ ∃ e, tget w.st.ranges v.st.nextRng = some e ∧ e.blk = v.uid ∧ e.gid = v.gid ∧ (e.lo, e.hi) = copySpan k ∧
    e.inb = k.inb ∧ e.op = v.st.nextOp

/-- The view in which a copy has started with its range entry. -/
def copyStarted (v : View) (d : HReg) (k : CopyCmd) : View :=
  addRange (startCopy v d k) (copySpan k).1 (copySpan k).2 k.inb v.st.nextOp

theorem startRanged_copy (v : View) (d : HReg) (k : CopyCmd) :
    startRanged v [((copySpan k).1, (copySpan k).2, k.inb)] (fun v => startCopy v d k) = copyStarted v d k :=
  if_neg (Nat.succ_ne_self v.st.nextOp)

theorem startsCopy_copyStarted (v : View) (d : HReg) (k : CopyCmd) : StartsCopy v (copyStarted v d k) d k := by
  refine ⟨⟨tget_tput_same _ _ _, ?_, ⟨rfl, rfl, rfl, rfl, rfl, fun _ hx => tget_tput_ne _ _ hx⟩, ⟨rfl, rfl, rfl, rfl⟩⟩,
    _, tget_tput_same _ _ _, rfl, rfl, rfl, rfl, rfl⟩
  have hop : (copyStarted v d k).st.ops = (startCopy v d k).st.ops := rfl
  rw [hop]
  simp only [startCopy, startOp, addOp, tget_tmod, if_true, tget_tput_same, Option.map_some]
  exact ⟨_, rfl, rfl, rfl, rfl, rfl, rfl⟩

section
variable {v : View} {d : HReg} {g c : CReg} {k : CopyCmd}

theorem issueCopy_fails {r : Res} (hc : copyChecks v (readC v.g g) (readC v.g c) k = some r) : issueCopy v d g c k = r := by
  simp only [issueCopy, hc]

/-- Without a free entry of the range scoreboard the instruction is held under reason 2. -/
theorem issueCopy_full (hc : copyChecks v (readC v.g g) (readC v.g c) k = none) (hr : 32 ≤ rangesOf v.st (blkCore v.b)) :
    issueCopy v d g c k = .hold v 2 := by
  have hf : rangesFree v 1 = false := decide_eq_false (by omega)
  simp only [issueCopy, hc, withRanges, List.length_singleton, hf]
  rfl

/-- While the bucket lacks a flit it is held under reason 13 (R319). -/
theorem issueCopy_noBucket (hc : copyChecks v (readC v.g g) (readC v.g c) k = none) (hr : rangesOf v.st (blkCore v.b) < 32)
    (hb : bucketHolds v.st (blkCore v.b) v.b.part 0 128 = false) : issueCopy v d g c k = .hold v 13 := by
  have hf : rangesFree v 1 = true := decide_eq_true (by omega)
  simp only [issueCopy, hc, withRanges, List.length_singleton, hf, fed, if_true, hb]
  rfl

theorem issueCopy_starts (hc : copyChecks v (readC v.g g) (readC v.g c) k = none) (hr : rangesOf v.st (blkCore v.b) < 32)
    (hb : bucketHolds v.st (blkCore v.b) v.b.part 0 128 = true) :
    issueCopy v d g c k = .done (copyStarted v d (copyBased (readC v.g g) (readC v.g c) k)) 0 := by
  have hf : rangesFree v 1 = true := decide_eq_true (by omega)
  simp only [issueCopy, hc, withRanges, List.length_singleton, hf, fed, if_true, hb, startRanged_copy]

end

theorem passOn_nil (v : View) (r : Res) : passOn v (v, []) r = r := by cases r <;> rfl

theorem noRows_copyOps (d : HReg) (g c : CReg) (a b x : SReg) : noRows (copyOps d g c a b x) = true := rfl

/-- What the command registers hold (R169). -/
theorem copyOf_fields {v : View} {t : Ty} {plane inb : Bool} {a b x : SReg} {k : CopyCmd} (h : copyOf v t plane inb a b x = some k) :
    k.goff = (readS v.g a).toNat ∧ k.soff = (readS v.g b).toNat ∧ k.e0 = (readS v.g x).toNat % 2 ^ 24 ∧ k.inb = inb ∧ k.e0 ≠ 0 := by
  simp only [copyOf, copyRegs] at h
  split at h
  · cases h
  · split at h
    · cases h
    · rename_i hok
      cases h
      refine ⟨rfl, rfl, ?_, rfl, fun h0 => hok (.inr (.inr h0))⟩
      simp [fld]

@[simp] theorem copyOf_readRows (ex : Lanes) (ops : List Opd) (v : View) (t : Ty) (plane inb : Bool) (a b x : SReg) :
    copyOf (readRows ex ops v).1 t plane inb a b x = copyOf v t plane inb a b x := by
  simp only [copyOf, readS_readRows]

section
variable {h : Hdr} {t : Ty} {d : HReg} {g c : CReg} {a b x : SReg} {s : State} {v : View}

theorem copy_illegal {out plane : Bool} (hi : Issues h s v) (ho : OperandsReady (copyOps d g c a b x) v)
    (hk : copyOf v t plane (!out) a b x = none) : exec (.copy h t d g c a b x out plane) s = trapped v 0 0x0A 255 8 0 := by
  simp only [exec, execCopy, issue_scalar hi ho (noRows_copyOps ..), hk]
  rfl

theorem copy_issues {out plane : Bool} {k : CopyCmd} (hi : Issues h s v) (ho : OperandsReady (copyOps d g c a b x) v)
    (hk : copyOf v t plane (!out) a b x = some k) (hp : plane = true → planeShape k = true) :
    exec (.copy h t d g c a b x out plane) s = .next (flush (conclude h v (issueCopy v d g c k))) := by
  have hshape : (plane && !planeShape k) = false := by
    cases plane
    · rfl
    · simp [hp rfl]
  simp only [exec, execCopy, issue_scalar hi ho (noRows_copyOps ..), hk, hshape]
  rfl

theorem gatherOp_starts {i : VReg} {inb : Bool} {k : CopyCmd} (hi : Issues h s v) (ho : OperandsReady (copyOps d g c a b x ++ [vsrc .n32 i]) v)
    (hk : copyOf v t false inb a b x = some k) (h1 : k.e1 = 1) (h2 : k.e2 = 1) :
    let q := readRows (execOf h v.g) (copyOps d g c a b x ++ [vsrc .n32 i]) v
    let k' := { k with rows := some (q.2.headD zeroRow, execOf h v.g) }
    copyChecks q.1 (readC v.g g) (readC v.g c) k' = none → rangesOf q.1.st (blkCore q.1.b) < 32 →
      bucketHolds q.1.st (blkCore q.1.b) v.b.part 0 128 = true →
      gatherOp h t d g c a b x i inb s = completed h (copyStarted q.1 d (copyBased (readC v.g g) (readC v.g c) k')) 0 := by
  intro q k' hc hr hb
  have hs := issueCopy_starts (v := q.1) (d := d) (g := g) (c := c) (k := k')
  simp only [q, readC_readRows, readRows_b] at hs hc hr hb
  have hone : ¬ (k.e1 ≠ 1 ∨ k.e2 ≠ 1) := by simp [h1, h2]
  simp only [gatherOp, issue_ready hi ho, copyOf_readRows, hk, if_neg hone, execOf_readRows]
  rw [hs hc hr hb]
  rfl

end

/-! ### The engine -/

section
variable {s : State} {id : Nat} {o : Op} {k : CopyCmd} {i : Nat}

/-- COPY_COMPLETE moves an element that may move now. -/
theorem copyComplete_moves (ho : tget s.ops id = some o) (hb : o.body = .copy k) (hs : opSaved s o = false) (hi : i ∈ copyElems k)
    (hm : i ∉ k.moved) (hf : orderFree k i = true) (hg : opMaySend s o = true) :
    exec (.copyComplete id (some i)) s = .next (if k.inb then moveIn s id o k i else moveOut s id o k i) := by
  have hx : exec (.copyComplete id (some i)) s = execCopyComplete id (some i) s := rfl
  have hi' : (copyElems k).contains i = true := List.contains_iff_mem.2 hi
  have hm' : k.moved.contains i = false := by simpa using hm
  simp only [hx, execCopyComplete, ho, hb, hs, hg, copyElem, hi', hm', hf]
  rfl

/-- An inbound element: the bytes read stand in the scratchpad, and in no other place of the state are blocks changed. -/
theorem moveIn_blocks (hp : k.plane = false) :
    (moveIn s id o k i).blocks =
      (opScratchPut (engineRead s o (copyAddr k i).1 k.esz).1 o (copyAddr k i).2 (engineRead s o (copyAddr k i).1 k.esz).2.1).blocks := by
  have hr : engineRead s { o with got := [] } (copyAddr k i).1 k.esz = engineRead s o (copyAddr k i).1 k.esz := rfl
  have hblocks : ∀ (t : State) (a : Nat) (x y : Option (Nat × Nat)), (noteFirst t id a x y).blocks = t.blocks := fun t a x y => by
    unfold noteFirst
    split <;> rfl
  simp only [moveIn, hp, Bool.false_eq_true, if_false, setBody, hblocks, readPieces, gotWord, thas, tget_nil, Option.isSome_none, Nat.mul_zero,
    Nat.add_zero, hr, List.nil_append]

theorem moveOut_done {t : State} (hd : engineStore s o (copyAddr k i).1 (opScratch s o (copyAddr k i).2 k.esz) = .done t) :
    moveOut s id o k i = setBody t id (.copy { k with moved := nput k.moved i }) := by
  simp only [moveOut, hd]

theorem copyComplete_finishes (ho : tget s.ops id = some o) (hb : o.body = .copy k) (hs : opSaved s o = false) (ha : allMoved k = true)
    (hbad : k.bad = none) :
    exec (.copyComplete id none) s = .next (finishOp s id (if k.resid = 0 then 0 else 0x0101) k.resid k.pages) := by
  have hx : exec (.copyComplete id none) s = execCopyComplete id none s := rfl
  simp only [hx, execCopyComplete, ho, hb, hs, ha, hbad]
  rfl

theorem rangeEntryRelease_copy {n : Nat} {e : RangeEnt} (ho : tget s.ops id = some o) (hb : o.body = .copy k) (ha : allMoved k = true)
    (he : tget s.ranges n = some e) (hid : e.op = id) : exec (.rangeEntryRelease ⟨n, none⟩) s = .next { s with ranges := tdel s.ranges n } := by
  have hx : exec (.rangeEntryRelease ⟨n, none⟩) s = execRangeEntryRelease ⟨n, none⟩ s := rfl
  simp only [hx, execRangeEntryRelease, he, hid, ho, hb, ha]
  rfl

end

/-- Settles O45: what the three instructions start, then one element in each direction and the end of a command. -/
theorem copyEngineResults : Obligations.CopyEngineResults := by
  unfold Obligations.CopyEngineResults
  refine ⟨?_, fun s id o k ho hb hs => ⟨?_, ?_, fun ha hbad => ?_, fun ha n e he hid => rangeEntryRelease_copy ho hb ha he hid⟩⟩
  · intro h t d g c a b x i out plane s v hi cg cs Goes copy
    refine ⟨fun ho => ⟨copy_illegal hi ho, fun k hk hp => ?_⟩, ?_⟩
    · obtain ⟨h1, h2, h3, h4, h5⟩ := copyOf_fields hk
      have hx := copy_issues hi ho hk hp
      refine ⟨h1, h2, h3, h4, h5, fun r hc => ?_, fun hc hr => ?_, fun hc hr hbk => ?_, fun hc hr hbk => ?_⟩
      · rw [hx, issueCopy_fails hc, passOn_nil]
      · rw [hx, issueCopy_full hc hr]
        rfl
      · rw [hx, issueCopy_noBucket hc hr hbk]
        rfl
      · rw [issueCopy_starts hc hr hbk] at hx
        obtain ⟨h1, h2⟩ := startsCopy_copyStarted v d (copyBased cg cs k)
        exact ⟨_, hx, h1, h2⟩
    · intro ops ho q p hp k hk h1 h2 k' hc hr hbk
      have hx : exec p.1 s = gatherOp h t d g c a b x i p.2 s := by
        simp only [List.mem_cons, List.not_mem_nil, or_false] at hp
        rcases hp with rfl | rfl <;> rfl
      obtain ⟨hst, e, he, h3, h4, h5⟩ := startsCopy_copyStarted q.1 d (copyBased cg cs k')
      refine ⟨_, hx.trans (gatherOp_starts hi ho hk h1 h2 hc hr hbk), hst, e, he, ?_, ?_, h5⟩
      · rw [h3, readRows_uid]
      · rw [h4, readRows_gid]
  · intro i hel hm hf hg hin hpl r b hblk
    obtain ⟨ts, hput⟩ := opScratchPut_block hblk (copyAddr k i).2 r.2.1
    have hlen : r.2.1.length = k.esz := (engineRead_spec s o _ _).2
    refine ⟨moveIn s id o k i, { b with scratch := bputs b.scratch (copyAddr k i).2 r.2.1, tags := ts }, ?_, ?_, ?_, fun a ha => ?_⟩
    · rw [copyComplete_moves ho hb hs hel hm hf hg, if_pos hin]
    · rw [moveIn_blocks hpl, hput]
      exact tget_tput_same _ _ _
    · have hbytes := bgets_bputs r.2.1 b.scratch (copyAddr k i).2
      rwa [hlen] at hbytes
    · exact bget_bputs_outside _ _ _ _ (by rwa [hlen])
  · intro i hel hm hf hg hin a bs t ht
    have hlen : bs.length = k.esz := opScratch_length _ _ _ _
    refine ⟨?_, fun b hblk => ?_⟩
    · rw [copyComplete_moves ho hb hs hel hm hf hg, if_neg (by simp [hin]), moveOut_done ht]
    · obtain ⟨p, w, hb', hin, hout⟩ := engineStore_done ht hblk
      rw [hlen] at hin hout
      exact ⟨_, hb', rfl, hin, hout⟩
  · exact ⟨_, copyComplete_finishes ho hb hs ha hbad, finishes_of_keeps ho (.refl s) _ _ _ _ _ _⟩

end Sys2Proof.Machine
end

section
/-! Queue streams and page requests (R176 to R178, R181 to R184): the statement QueueStreamAndPageResults. -/
namespace Sys2Proof.Machine
open Sys2Proof

/-! ### PAGEREQ (R184) -/

/-- Requests for pages change the wait tables and nothing else (R274). -/
theorem requestAll_eq (part : Nat) (vs : List Nat) : ∀ s : State, ∃ ps, requestAll s part vs = { s with parts := ps } := by
  induction vs with
  | nil => exact fun s => ⟨s.parts, rfl⟩
  | cons x vs ih =>
    intro s
    obtain ⟨ps, h⟩ : ∃ ps, (match walk s part x with
        | .ok l => requestPage s part x l
        | .error _ => s) = { s with parts := ps } := by
      split
      · exact requestPage_eq _ _ _ _
      · exact ⟨s.parts, rfl⟩
    obtain ⟨ps', h'⟩ := ih { s with parts := ps }
    exact ⟨ps', by rw [← h', ← h]; rfl⟩

section
variable {v : View} {d : HReg} {vs : List Nat}

theorem startPages_unmapped (h : pagesLeft v.st v.b.part vs = none) : Starts v (startPages v d vs) d (.ready 0x0102) := by
  simp only [startPages, h]
  exact starts_startOp v d _ _

theorem startPages_resident (h : pagesLeft v.st v.b.part vs = some []) : Starts v (startPages v d vs) d (.ready 0) := by
  simp only [startPages, h]
  exact starts_startOp v d _ _

theorem startPages_absent {l : List Nat} (h : pagesLeft v.st v.b.part vs = some l) (hl : l ≠ []) :
    Starts v (startPages v d vs) d (.pages l) := by
  obtain ⟨handle, op, regs, memory⟩ := starts_startOp v d (.pages l) none
  obtain ⟨ps, hp⟩ := requestAll_eq v.b.part l (startOp v d (.pages l)).st
  have he : startPages v d vs = { startOp v d (.pages l) with st := { (startOp v d (.pages l)).st with parts := ps } } := by
    rw [← hp]
    cases l with
    | nil => exact absurd rfl hl
    | cons => simp only [startPages, h]
  rw [he]
  exact ⟨handle, op, regs, memory⟩

end

section
variable {h : Hdr} {t : Ty} {k : QReg} {c : CReg} {o st n : SReg} {d m : HReg} {s : State} {v : View}

/-- PAGEREQ of a copy that found pages absent awaits those still to come. -/
theorem pagereq_copyAbsent (hi : Issues h s v) (ho : OperandsReady [.hd d, .h m, .hd m, sdst o] v) {bm : Lanes} {pg : List Nat}
    (hm : tget v.g.h m.toNat = some (.complete 0x0101 bm pg)) :
    exec (.pagereq h d (.copy o m)) s = completed h (startPages { v with g := writeS v.g o bm } d pg) 0 := by
  simp only [exec, execPagereq, issue_scalar hi ho rfl, hm]
  rfl

/-- PAGEREQ of a copy that ended otherwise completes its handle at once. -/
theorem pagereq_copyOther (hi : Issues h s v) (ho : OperandsReady [.hd d, .h m, .hd m, sdst o] v) {code : W16} {bm : Lanes} {pg : List Nat}
    (hm : tget v.g.h m.toNat = some (.complete code bm pg)) (hc : code ≠ 0x0101) :
    exec (.pagereq h d (.copy o m)) s = completed h { v with g := writeH (writeS v.g o 0) d (.complete 0 0 []) } 0 := by
  simp only [exec, execPagereq, issue_scalar hi ho rfl, hm]
  split
  · rename_i heq
    cases heq
    exact absurd rfl hc
  · rfl

/-- The pages that a range request names. -/
def rangePages (cap : Cap) (off len : Nat) : List Nat :=
  let lo := vpnOf (capBase cap + off)
  (List.range (vpnOf (capBase cap + off + len - 1) - lo + 1)).map (fun i => lo + i)

theorem pagereq_range (hi : Issues h s v) (ho : OperandsReady [.hd d, .c c, ssrc o, ssrc n] v) (hl : (readS v.g n).toNat ≠ 0)
    (hc : checkRange v (readC v.g c) (readS v.g o).toNat (readS v.g n).toNat 1 pR [0] = none) (hp : capPerm (readC v.g c) &&& pR ≠ 0) :
    exec (.pagereq h d (.range c o n)) s =
      completed h (startPages v d (rangePages (readC v.g c) (readS v.g o).toNat (readS v.g n).toNat)) 0 := by
  simp only [exec, execPagereq, issue_scalar hi ho rfl, if_neg hl, if_pos hp, hc]
  rfl

/-! ### QLD and QST (R176, R181) -/

theorem armQueue_armed {load : Bool} (hi : Issues h s v) (ho : OperandsReady [.c c, ssrc o, ssrc st, ssrc n] v)
    (hq : (tget v.g.q k.toNat).isSome = true) : armQueue h t k c o st n load s = trapped v 0 3 255 8 0 := by
  simp only [armQueue, issue_scalar hi ho rfl, hq, if_true]
  rfl

/-- The queue that arming gives: nothing read or written yet. -/
def armedQueue (v : View) (t : Ty) (load : Bool) (base : Nat) (stride : Int) (n : Nat) : Queue :=
  { load := load, ty := t, base := base, stride := stride, n := n, pos := 0, fetched := 0, buf := [], resid := 0, label := v.g.label,
    offset := v.g.offset, frame := frameDepth v.g, sweeps := (topFrame v.g).sweeps, mask := v.g.active }

theorem armQueue_arms {load : Bool} (hi : Issues h s v) (ho : OperandsReady [.c c, ssrc o, ssrc st, ssrc n] v) (hq : tget v.g.q k.toNat = none)
    (hn : (readS v.g n).toNat ≠ 0) (hlt : (readS v.g n).toNat < 2 ^ 32)
    (h1 : check1 v (readC v.g c) (readS v.g o).toNat (eszOf t) (if load then pR else pW) [0] = none)
    (h2 : check1 v (readC v.g c) ((readS v.g o).toNat + (readS v.g st).toInt * (((readS v.g n).toNat - 1 : Nat) : Int)) (eszOf t)
      (if load then pR else pW) [0] = none)
    (ha : (readS v.g o).toNat % eszOf t = 0) (hs : (readS v.g st).toInt % (eszOf t : Int) = 0)
    (hb : bucketHolds v.st (blkCore v.b) v.b.part 1 128 = true) :
    let q := armedQueue v t load (capBase (readC v.g c) + (readS v.g o).toNat) (readS v.g st).toInt (readS v.g n).toNat
    armQueue h t k c o st n load s = completed h { v with g := { v.g with q := tput v.g.q k.toNat q } } 0 := by
  have hhigh : readS v.g n >>> 32 = 0 := by
    rw [← BitVec.toNat_inj, BitVec.toNat_ushiftRight, Nat.shiftRight_eq_div_pow]
    exact Nat.div_eq_of_lt hlt
  have hal : ¬ ((readS v.g o).toNat % eszOf t ≠ 0 ∨ (readS v.g st).toInt % (eszOf t : Int) ≠ 0) := by simp [ha, hs]
  simp only [armQueue, issue_scalar hi ho rfl, hq, hhigh, if_neg hn, h1, h2, if_neg hal, fed, hb, Option.isSome_none, Option.orElse]
  rfl

end

/-! ### The load queue's engine (R177, R182) -/

section
variable {s : State} {u g k : Nat} {v : View} {q : Queue}

theorem GroupAt.setQueue {x : Group} (h : GroupAt s u g x) (k : Nat) (q : Queue) : GroupAt (setQueue s u g k q) u g { x with q := tput x.q k q } :=
  h.modGroup _

/-- LOAD_QUEUE_READAHEAD begins the next entry. -/
theorem readahead_begins (hv : viewAt s u g = some v) (hq : tget v.g.q k = some q) (hp : v.b.phase = .resident) (hl : q.load = true)
    (hroom : q.buf.length < 16) (hmore : q.fetched < queueEntries q) :
    exec (.loadQueueReadahead u g ⟨k, none⟩) s =
      .next (setQueue s u g k { q with fetched := q.fetched + 1, buf := q.buf ++ [newEntry q] }) := by
  have hx : exec (.loadQueueReadahead u g ⟨k, none⟩) s = execLoadQueueReadahead u g ⟨k, none⟩ s := rfl
  simp only [hx, execLoadQueueReadahead, hv, hq, hp, hl, hroom, hmore, and_self, if_true]

/-- It reads one element of a buffered entry. -/
theorem readahead_reads (hv : viewAt s u g = some v) (hq : tget v.g.q k = some q) (hp : v.b.phase = .resident) (hl : q.load = true) {i l : Nat}
    {e : QEntry} (he : q.buf[i]? = some e) (hleft : e.left.getLsbD l = true) (hb : bucketHolds s (blkCore v.b) v.b.part 1 128 = true)
    (hok : (engineRead s (queueOp u g k q) (entryAddr q i l) (eszOf q.ty)).2.2.2 = none) :
    let r := engineRead s (queueOp u g k q) (entryAddr q i l) (eszOf q.ty)
    exec (.loadQueueReadahead u g ⟨k, some (i, l)⟩) s =
      .next (setQueue r.1 u g k { q with buf := listSet q.buf i (putElem q.ty e l r.2.1 r.2.2.1) }) := by
  have hx : exec (.loadQueueReadahead u g ⟨k, some (i, l)⟩) s = execLoadQueueReadahead u g ⟨k, some (i, l)⟩ s := rfl
  simp only [hx, execLoadQueueReadahead, hv, hq, hp, hl, and_self, if_true, hb, readElem, he, hleft, hok]

end

theorem getLsbD_clear (x : Lanes) (l m : Nat) : (x &&& ~~~(BitVec.twoPow 64 l)).getLsbD m = (x.getLsbD m && decide (m ≠ l)) := by
  rw [BitVec.getLsbD_and, BitVec.getLsbD_not, BitVec.getLsbD_twoPow]
  cases hx : x.getLsbD m with
  | false => rfl
  | true =>
    have hm : m < 64 := BitVec.lt_of_getLsbD hx
    by_cases h : m = l
    · subst h
      simp [hm]
    · simp [hm, h, Ne.symm h]

theorem putElem_spec (t : Ty) (e : QEntry) {l : Nat} (bs : List W8) (absent : Bool) (hl : l < 64) (hd : e.data.length = 64) :
    let e' := putElem t e l bs absent
    rget e'.data l = queueElem t bs ∧
      (∀ m, m ≠ l → rget e'.data m = rget e.data m ∧ e'.left.getLsbD m = e.left.getLsbD m ∧ e'.resid.getLsbD m = e.resid.getLsbD m) ∧
      e'.left.getLsbD l = false ∧ (e'.resid.getLsbD l = true ↔ e.resid.getLsbD l = true ∨ absent = true) := by
  refine ⟨?_, fun m hm => ⟨?_, ?_, ?_⟩, ?_, ?_⟩
  · simp only [putElem, rget, List.getD_eq_getElem?_getD, getElem?_listSet_same _ _ _ (show l < e.data.length by omega), Option.getD_some]
  · simp only [putElem, rget, List.getD_eq_getElem?_getD, getElem?_listSet_ne _ _ _ _ hm]
  · rw [putElem, getLsbD_clear, decide_eq_true hm, Bool.and_true]
  · cases absent
    · rfl
    · simp [putElem, BitVec.getLsbD_twoPow, hm.symm]
  · rw [putElem, getLsbD_clear, decide_eq_false (not_not_intro rfl), Bool.and_false]
  · cases absent
    · simp [putElem]
    · simp [putElem, hl]

/-! ### The store queue's engine (R178) -/

section
variable {s : State} {id : Nat} {o : Op} {k : QReg} {t : Ty} {addrs : List Nat} {data : Row}

theorem storeQueueWrite_ends (ho : tget s.ops id = some o) (hb : o.body = .entry k t addrs data 0) :
    exec (.storeQueueWrite id none) s = .next (finishOp s id 0) := by
  have hx : exec (.storeQueueWrite id none) s = execStoreQueueWrite id none s := rfl
  simp only [hx, execStoreQueueWrite, ho, hb, if_true]

theorem storeQueueWrite_stores {left : Lanes} {l : Nat} {r : State} (ho : tget s.ops id = some o) (hb : o.body = .entry k t addrs data left)
    (hl : left.getLsbD l = true) (hm : opMaySend s o = true)
    (hd : engineStore s o (addrs.getD l 0) (leBytes (eszOf t) ((rget data l).toNat % 2 ^ tyWidth t)) = .done r) :
    exec (.storeQueueWrite id (some l)) s = .next (setBody r id (.entry k t addrs data (left &&& ~~~(BitVec.twoPow 64 l)))) := by
  have hx : exec (.storeQueueWrite id (some l)) s = execStoreQueueWrite id (some l) s := rfl
  simp only [hx, execStoreQueueWrite, ho, hb, hl, hm, hd, Bool.and_self, if_true]

end

/-- Settles O46: arming and requesting pages, then the engines of the two kinds of queue. -/
theorem queueStreamAndPageResults : Obligations.QueueStreamAndPageResults := by
  unfold Obligations.QueueStreamAndPageResults
  refine ⟨?_, fun s u g k v q hv hq hp hl => ⟨fun hroom hmore => ?_, ?_⟩, fun s id o k ty addrs data left ho hb => ⟨?_, ?_⟩⟩
  · intro h t k c o st n d m p s v hi
    refine ⟨fun ho code bm pg hm => ⟨pagereq_copyOther hi ho hm, fun hc l hleft hl => ?_⟩, ?_, fun ho hq => qres_fault hi ho hq, ?_⟩
    · subst hc
      exact ⟨_, pagereq_copyAbsent hi ho hm, startPages_absent hleft hl⟩
    · intro ho cap off stride cnt x hx
      have harm : ∃ load, x.2 = (load, if load then pR else pW) ∧ exec x.1 s = armQueue h t k c o st n load s := by
        simp only [List.mem_cons, List.not_mem_nil, or_false] at hx
        rcases hx with rfl | rfl
        · exact ⟨true, rfl, rfl⟩
        · exact ⟨false, rfl, rfl⟩
      obtain ⟨load, hx2, hexec⟩ := harm
      rw [hexec, hx2]
      refine ⟨armQueue_armed hi ho, fun hq hn hlt h1 h2 ha hs hb =>
        ⟨_, armQueue_arms hi ho hq hn hlt h1 h2 ha hs hb, rfl, rfl, rfl, rfl, rfl, rfl, rfl, rfl, rfl⟩⟩
    · intro ho off len cap lo left hlen hc hp
      exact ⟨_, pagereq_range hi ho hlen hc hp, fun l hleft hl => startPages_absent hleft hl, startPages_resident, startPages_unmapped⟩
  · obtain ⟨w, hw, hwg⟩ := ((groupAt_of_viewAt hv).setQueue k { q with fetched := q.fetched + 1, buf := q.buf ++ [newEntry q] }).viewAt
    refine ⟨_, w, _, newEntry q, readahead_begins hv hq hp hl hroom hmore, hw, by rw [hwg]; exact tget_tput_same _ _ _, rfl, rfl, rowOf_length _, rfl,
      fun l hl => rget_rowOf (fun _ => 0) l hl, fun l hl => ?_⟩
    simp only [newEntry, getLsbD_maskOf, hl, decide_true, Bool.true_and, decide_eq_true_eq]
  · intro i l e he hleft hd hb r hok
    have hl64 : l < 64 := BitVec.lt_of_getLsbD hleft
    have hgroup := (groupAt_of_viewAt hv).congr (engineRead_spec s (queueOp u g k q) (entryAddr q i l) (eszOf q.ty)).1.blocks
    obtain ⟨w, hw, hwg⟩ := (hgroup.setQueue k { q with buf := listSet q.buf i (putElem q.ty e l r.2.1 r.2.2.1) }).viewAt
    obtain ⟨h1, h2, h3, h4⟩ := putElem_spec q.ty e r.2.1 r.2.2.1 hl64 hd
    exact ⟨_, w, _, _, readahead_reads hv hq hp hl he hleft hb hok, hw, by rw [hwg]; exact tget_tput_same _ _ _,
      getElem?_listSet_same _ _ _ (List.getElem?_eq_some_iff.1 he).1, fun j hj => getElem?_listSet_ne _ _ _ _ hj, h1, h2, h3, h4, by rw [hwg]⟩
  · rintro rfl
    exact ⟨_, storeQueueWrite_ends ho hb, finishes_finishOp s id o ho 0⟩
  · exact fun l t hl hm hd => storeQueueWrite_stores ho hb hl hm hd

end Sys2Proof.Machine
end

section
/-! Global atomics, fences and stage queues (R185, R186, R188, R189, R194): the statement GlobalAtomicAndOrderingResults. -/
namespace Sys2Proof.Machine
open Sys2Proof

/-! ### Issue -/

section
variable {h : Hdr} {s : State} {v : View}

/-- An ATOMG whose access passes and whose key is not logged starts its atomic; `sw` is the second operand of a compare and swap. -/
theorem atomgOp_starts {op : AtomOp} {sc : Scope} {d : HReg} {b : SReg} {c : CReg} {o : SReg} {sw : Option SReg} {big sg acq : Bool}
    (hi : Issues h s v) (ho : OperandsReady ([.hd d, .c c, ssrc o, .s b.toNat 1 true true] ++ sw.toList.map ssrc) v)
    (hl : logFind v.b (nextKey v) = none) (hc : check1 v (readC v.g c) (readS v.g o).toNat (if big then 8 else 4) pA [0] = none) :
    ∃ w, atomgOp h op sc d b c o sw big sg acq s = completed h w 0 ∧
      Starts v w d (.atomg op big sg acq sc b (capBase (readC v.g c) + (readS v.g o).toNat) (readS v.g b) ((sw.map (readS v.g)).getD 0)) := by
  have hl' : logFind (countKey v).b (nextKey v) = none := hl
  cases sw with
  | none =>
    refine ⟨_, (issue_scalar hi ho rfl).trans ?_, starts_keyed v d _ (some (nextKey v))⟩
    simp only [hc, hl']
    rfl
  | some x =>
    refine ⟨_, (issue_scalar hi ho rfl).trans ?_, starts_keyed v d _ (some (nextKey v))⟩
    simp only [hc, hl']
    rfl

theorem fence_completes {sc : Scope} {m : FenceMode} (hi : Issues h s v) (ho : OperandsReady [] v) :
    exec (.fence h sc m) s =
      completed h { v with st := if m ≠ .rel ∧ widePool sc = true then acquirePool v.st v.b.part else v.st } 0 := by
  simp only [exec, execFence, issue_scalar hi ho rfl]
  split <;> rfl

/-- COMMIT without its mask word raises contract fault 7 (R188). -/
theorem commit_unmasked {sc : Scope} (hi : Issues h s v) (ho : OperandsReady [] v) (hs : h.safe = false) :
    exec (.commit h sc) s = trapped v 0 7 255 8 0 := by
  simp only [exec, execCommit, issue_scalar hi ho rfl, hs]
  rfl

theorem commit_arrives {sc : Scope} (hi : Issues h s v) (ho : OperandsReady [] v) (hs : h.safe = true) :
    exec (.commit h sc) s = heldBack h { v with g := { v.g with arrival := .commit sc h.mask } } 7 := by
  simp only [exec, execCommit, issue_scalar hi ho rfl, hs]
  rfl

theorem startKeyed_starts {d : HReg} {body : OpBody} (hl : logFind v.b (nextKey v) = none) (hk : opOfKey v.st v.uid (nextKey v) = none) :
    startKeyed v d body = startOp (countKey v) d body (some (nextKey v)) := by
  have hl' : logFind (countKey v).b (nextKey v) = none := hl
  have hk' : opOfKey (countKey v).st (countKey v).uid (nextKey v) = none := hk
  simp only [startKeyed, hl', hk']

theorem enq_starts {d : HReg} {a b : SReg} {n : BitVec 3} (hi : Issues h s v) (ho : OperandsReady [.hd d, ssrc a, ssrc b] v)
    (hl : logFind v.b (nextKey v) = none) (hk : opOfKey v.st v.uid (nextKey v) = none) :
    ∃ w, exec (.enq h d a b n) s = completed h w 0 ∧ Starts v w d (.enq n (readS v.g a) (readS v.g b)) := by
  simp only [exec, execEnq, issue_scalar hi ho rfl, startKeyed_starts hl hk]
  exact ⟨_, rfl, starts_keyed ..⟩

/-- DEQ writes the two words of the entry that fired the block, or all ones (R194). -/
theorem deq_writes {a b : SReg} (hi : Issues h s v) (ho : OperandsReady [sdst a, sdst b] v) :
    exec (.deq h a b) s =
      let e := v.b.entryW.getD (0xFFFFFFFFFFFFFFFF, 0xFFFFFFFFFFFFFFFF)
      completed h { v with g := writeS (writeS v.g a e.1) b e.2 } 0 := by
  simp only [exec, execDeq, issue_scalar hi ho rfl]
  rfl

/-! ### An acquire takes place when its s-register is read or written (R186) -/

/-- An operand of one s-register names that register alone. -/
theorem namesS_one (n : Nat) (r : SReg) (src dst : Bool) : namesS n (.s r.toNat 1 src dst) = decide (n = r.toNat) := by
  simp only [namesS, ← Bool.decide_and]
  exact decide_eq_decide.2 (by omega)

/-- An acquire kept under `x` awaits the next read or write of one of two s-registers. -/
def awaits (a d : SReg) (x : Nat) : Bool := decide (x / 64 = a.toNat) || decide (x / 64 = d.toNat)

theorem awaits_iff (a d : SReg) (x : Nat) : awaits a d x = true ↔ x / 64 = a.toNat ∨ x / 64 = d.toNat := by
  simp only [awaits, Bool.or_eq_true, decide_eq_true_eq]

/-- SMOV observes the acquires that await its registers. -/
theorem smov_observes {d a : SReg} (hi : Issues h s v) (ho : OperandsReady [ssrc a, sdst d] { v with g := { v.g with acq := [] } }) :
    exec (.smov h d a) s =
      let w := observeAcq v (awaits a d)
      completed h { w with g := writeS w.g d (readS w.g a) } 0 := by
  have hpred : (h.psel ≠ 0 && !thas v.g.p h.psel.toNat) = false := by
    rcases hi.pred with h0 | h0 <;> simp [h0]
  have hnames : (fun k => [ssrc a, sdst d].any (namesS (k / 64))) = awaits a d := funext fun k => by
    simp only [List.any_cons, List.any_nil, Bool.or_false, ssrc, sdst, namesS_one, awaits]
  -- None of the checks of R54 looks at the awaited acquires.
  have hregs : step6 v [] [ssrc a, sdst d] = none := ho.regs
  have hhandle : [ssrc a, sdst d].any (waitsHandle v) = false := ho.handle
  have hmatrix : [ssrc a, sdst d].any (waitsMatrix v) = false := ho.matrix
  have hvoid : [ssrc a, sdst d].any (voidSource v) = false := ho.void
  have hqueue : queueHold v [] [ssrc a, sdst d] = none := ho.queue
  simp only [exec, execSmov, scalar1, issue, hi.cur, attempt, hpred, hi.exec, hregs, hhandle, hmatrix, hvoid, hqueue, hnames]
  rfl

theorem observeAcq_some {p : Nat → Bool} (hp : v.g.acq.any p = true) :
    observeAcq v p = { v with st := acquirePool v.st v.b.part, g := { v.g with acq := v.g.acq.filter (fun n => !p n) } } := by
  simp only [observeAcq, hp, if_true]

end

/-! ### The atomic at its home -/

section
variable {s : State} {id : Nat} {o : Op}

/-- The result lands: the old value in s(B), the operation ended, pages untouched. -/
theorem atomgLand_spec (ho : tget s.ops id = some o) (b : SReg) (old : W64) (fl : Flg) :
    tget (atomgLand s id o b old fl).ops id = none ∧ (atomgLand s id o b old fl).pages = s.pages ∧
      ∀ g, GroupAt s o.blk o.gid g → ∃ g', GroupAt (atomgLand s id o b old fl) o.blk o.gid g' ∧ g'.h = (completeH g id 0 0 []).h ∧
        tget g'.s b.toNat = some old := by
  obtain ⟨bs, hm⟩ := modGroup_eq s o.blk o.gid (fun g => { g with s := tput g.s b.toNat old })
  have ho' : tget (modGroup s o.blk o.gid (fun g => { g with s := tput g.s b.toNat old })).ops id = some o := by rw [hm, ho]
  obtain ⟨bs', hf⟩ := finishOp_eq ho' 0 0 [] old fl []
  obtain ⟨bs'', hl⟩ := lateFlags_eq (finishOp (modGroup s o.blk o.gid (fun g => { g with s := tput g.s b.toNat old })) id 0 0 [] old fl) o fl
  refine ⟨?_, ?_, fun g hg => ⟨_, ((hg.modGroup _).finishOp ho' 0 0 [] old fl []).lateFlags fl, rfl, tget_tput_same _ _ _⟩⟩
  · rw [atomgLand, hl, hf]
    exact tget_tdel_same _ _
  · rw [atomgLand, hl, hf, hm]
    rfl

/-- The bytes of an atomic leave the provisional ones of its block (R283). -/
def dropProv (s : State) (uid addr n : Nat) : State :=
  match tget s.blocks uid with
  | some b => setBlk s uid (setProv b ((List.range n).foldl (fun t i => tdel t (addr + i)) b.prov) [addr / 128])
  | none => s

theorem dropProv_eq (s : State) (uid addr n : Nat) : ∃ bs, dropProv s uid addr n = { s with blocks := bs } := by
  unfold dropProv
  split
  · exact ⟨_, rfl⟩
  · exact ⟨s.blocks, rfl⟩

theorem GroupAt.dropProv {u k : Nat} {g : Group} (h : GroupAt s u k g) (addr n : Nat) : GroupAt (dropProv s u addr n) u k g := by
  obtain ⟨b, hb, hg⟩ := h
  simp only [Machine.dropProv, hb]
  exact ⟨_, tget_tput_same _ _ _, hg⟩

theorem viewBytes_sendAccess (s : State) (o : Op) (a : Nat) (data back : List W8) (uid pid off addr n : Nat) :
    viewBytes (sendAccess s o a data back) uid pid off addr n = viewBytes s uid pid off addr n := by
  obtain ⟨rs, fs, nf, h⟩ := sendAccess_eq s o a data back
  rw [h]
  rfl

/-- Below .pool the atomic reads what its block sees, commits its result to the page and lands (R186, R283). -/
theorem atomgAt_home {op : AtomOp} {big sg acq : Bool} {sc : Scope} (hsc : widePool sc = false) (b : SReg) (addr : Nat) (x y : W64) (pid off : Nat) :
    let n := if big then 8 else 4
    let back := viewBytes s o.blk pid off addr n
    let old := BitVec.ofNat 64 (leNat back)
    let r := atomNew op (atomgTy op big sg) old x y
    atomgAt s id o op big sg acq sc b addr x y pid off =
      atomgLand (commitBytes (dropProv (sendAccess s o addr [] back) o.blk addr n) (partOfBlk s o.blk) pid off addr
        (leBytes n (r.1.toNat % 2 ^ (8 * n))) (opWriter o)) id o b old r.2 := by
  simp only [atomgAt, hsc, Bool.false_and, Bool.and_false, Bool.false_eq_true, if_false, viewBytes_sendAccess]
  rfl

/-- On a resident page: the result stands in the page, and the operation has ended with the old value. -/
theorem atomgAt_spec {op : AtomOp} {big sg acq : Bool} {sc : Scope} {b : SReg} {addr : Nat} {x y : W64} {pid off : Nat} {pg : Page}
    (ho : tget s.ops id = some o) (hp : tget s.pages pid = some pg) (hsc : widePool sc = false) :
    let n := if big then 8 else 4
    let old := BitVec.ofNat 64 (leNat (viewBytes s o.blk pid off addr n))
    let t := atomgAt s id o op big sg acq sc b addr x y pid off
    tget t.ops id = none ∧
      (∃ pg', tget t.pages pid = some pg' ∧
        bgets pg'.data off n = leBytes n ((atomNew op (atomgTy op big sg) old x y).1.toNat % 2 ^ (8 * n))) ∧
      ∀ g, GroupAt s o.blk o.gid g → ∃ g', GroupAt t o.blk o.gid g' ∧ g'.h = (completeH g id 0 0 []).h ∧ tget g'.s b.toNat = some old := by
  intro n old t
  have ht : t = _ := atomgAt_home hsc b addr x y pid off
  obtain ⟨rs, fs, nf, hsend⟩ := sendAccess_eq s o addr [] (viewBytes s o.blk pid off addr n)
  obtain ⟨bs, hdrop⟩ := dropProv_eq (sendAccess s o addr [] (viewBytes s o.blk pid off addr n)) o.blk addr n
  have hp' : tget (dropProv (sendAccess s o addr [] (viewBytes s o.blk pid off addr n)) o.blk addr n).pages pid = some pg := by
    rw [hdrop, hsend, hp]
  obtain ⟨pg', ls, cs, hdata, hcommit⟩ := commitBytes_eq hp' (partOfBlk s o.blk) off addr
    (leBytes n ((atomNew op (atomgTy op big sg) old x y).1.toNat % 2 ^ (8 * n))) (opWriter o)
  rw [ht]
  obtain ⟨hgone, hpages, hgroup⟩ := atomgLand_spec (s := commitBytes _ _ _ _ _ _ _) (id := id) (o := o)
    (by rw [hcommit, hdrop, hsend, ho]) b old (atomNew op (atomgTy op big sg) old x y).2
  refine ⟨hgone, ⟨pg', ?_, ?_⟩, fun g hg => hgroup g ?_⟩
  · rw [hpages, hcommit]
    exact tget_tput_same _ _ _
  · have hbytes := bgets_bputs (leBytes n ((atomNew op (atomgTy op big sg) old x y).1.toNat % 2 ^ (8 * n))) pg.data off
    rwa [leBytes_length, ← hdata] at hbytes
  · have hsent : GroupAt (sendAccess s o addr [] (viewBytes s o.blk pid off addr n)) o.blk o.gid g := hg.congr (by rw [hsend])
    exact (hsent.dropProv addr n).congr (by rw [hcommit])

/-- Which of three states follows, by the room that the log has for an entry. -/
def byRoom (l : Lumber) (room wait exhausted : State) : State :=
  match l with
  | .room => room
  | .wait => wait
  | .exhausted => exhausted

/-- What ATOMG_APPLY does on a resident page turns on the log's room (R282, R353). -/
theorem atomgApply_page {op : AtomOp} {big sg acq : Bool} {sc : Scope} {b : SReg} {addr : Nat} {x y : W64} {s' : State} {pid off : Nat}
    (ho : tget s.ops id = some o) (hb : o.body = .atomg op big sg acq sc b addr x y)
    (hm : meet s (opCore s o) (partOfBlk s o.blk) addr true true = (s', .page pid off)) :
    exec (.atomgApply id) s = .next (byRoom (lumberForLog s' (partOfBlk s o.blk) o.body) (atomgAt s' id o op big sg acq sc b addr x y pid off) s'
      (finishBad (noteAddr s' id addr) id o (8, 0))) := by
  have hx : exec (.atomgApply id) s = execAtomgApply id s := rfl
  simp only [hx, execAtomgApply, ho, hb, hm]
  rfl

/-- Noting the address at which an operation failed keeps the operation but for it. -/
theorem tget_noteAddr (ho : tget s.ops id = some o) (addr : Nat) :
    tget (noteAddr s id addr).ops id = some { o with faddr := BitVec.ofNat 64 addr } := by
  simp only [noteAddr, tget_tmod, if_true, ho, Option.map_some]

/-! ### A stage takes an entry (R194) -/

/-- What ENQ_ACCEPT does at a stage that has room turns on the log's room. -/
theorem enqAccept_room {n : BitVec 3} {a b : W64} {bl : Block} {st : Stage} (ho : tget s.ops id = some o) (hb : o.body = .enq n a b)
    (he : enqEarlier s id o n = false) (hbl : tget s.blocks o.blk = some bl) (hst : stageOf s bl.launch n.toNat = some st) (hf : st.fire = 2)
    (hr : st.retired = false) (hq : st.queue.length < st.qcap) :
    exec (.enqAccept id) s = .next (byRoom (lumberForLog s bl.part o.body)
      (finishOp (modStage s bl.launch n.toNat (fun st => { st with queue := st.queue ++ [(a, b, s.clock)] })) id 0) s
      (finishBad s id o (8, 0))) := by
  have hx : exec (.enqAccept id) s = execEnqAccept id s := rfl
  have hroom : ¬ st.qcap ≤ st.queue.length := by omega
  simp only [hx, execEnqAccept, ho, hb, he, hbl, hst, hf, hr, hroom, Bool.false_eq_true, ne_eq, not_true_eq_false, if_false]
  cases lumberForLog s bl.part (.enq n a b) <;> rfl

theorem keepsThreads_modStage (s : State) (l n : Nat) (f : Stage → Stage) : KeepsThreads s (modStage s l n f) := ⟨rfl, rfl⟩

theorem stageOf_congr {t : State} (h : t.launches = s.launches) (l n : Nat) : stageOf t l n = stageOf s l n := by simp only [stageOf, h]

theorem stageOf_modStage_same {l n : Nat} {st : Stage} (h : stageOf s l n = some st) (f : Stage → Stage) :
    stageOf (modStage s l n f) l n = some (f st) := by
  obtain ⟨x, hx, hn⟩ := Option.bind_eq_some_iff.1 h
  rw [stageOf_modStage hx, hn, Option.map_some, if_pos rfl]

end

/-- Settles O47: the instructions at issue, the atomic at its home by the log's room, the acquire that SMOV observes, and the stage's end. -/
theorem globalAtomicAndOrderingResults : Obligations.GlobalAtomicAndOrderingResults := by
  unfold Obligations.GlobalAtomicAndOrderingResults
  refine ⟨?_, ?_, ?_, ?_⟩
  · intro h sc d b a x c o big sg acq n m s v hi
    refine ⟨fun p hp ho hl hc => ?_, fun ho hl hc => atomgOp_starts (sw := some x) hi ho hl hc,
      fun ho hl hc => atomgOp_starts (sw := none) hi ho hl hc, fence_completes hi, fun ho => ⟨commit_unmasked hi ho, commit_arrives hi ho⟩,
      enq_starts hi, fun ho => ⟨fun e he => ?_, fun he => ?_⟩⟩
    · have hx : exec p.1 s = atomgOp h p.2 sc d b c o none big sg acq s := by
        simp only [List.mem_cons, List.not_mem_nil, or_false] at hp
        rcases hp with rfl | rfl | rfl | rfl | rfl | rfl | rfl <;> rfl
      rw [hx]
      exact atomgOp_starts (sw := none) hi ho hl hc
    · rw [deq_writes hi ho, he]
      rfl
    · rw [deq_writes hi ho, he]
      rfl
  · intro s s' id o op big sg acq sc b addr x y pid off v ho hb hv hm hsc
    have hkeep : KeepsThreads s s' := by
      have := keepsThreads_meet s (opCore s o) (partOfBlk s o.blk) addr true true
      rwa [hm] at this
    have ho' : tget s'.ops id = some o := by rw [hkeep.ops, ho]
    refine ⟨_, atomgApply_page ho hb hm, ?_⟩
    cases lumberForLog s' (partOfBlk s o.blk) o.body with
    | room =>
      obtain ⟨pg, hpg⟩ := tget_page_of_meet hm
      obtain ⟨hgone, ⟨pg', hpg', hbytes⟩, hgroup⟩ := atomgAt_spec (op := op) (big := big) (sg := sg) (acq := acq) (b := b) (addr := addr)
        (x := x) (y := y) (off := off) ho' hpg hsc
      refine ⟨finishes_of_group ho hgone fun g hg => ?_, ?_⟩
      · obtain ⟨g', hg', hh, -⟩ := hgroup g (hg.congr hkeep.blocks)
        exact ⟨g', 0, [], hg', hh⟩
      · obtain ⟨g', hg', -, hold⟩ := hgroup v.g ((groupAt_of_viewAt hv).congr hkeep.blocks)
        obtain ⟨w, hw, hwg⟩ := hg'.viewAt
        exact ⟨w, pg', hw, by rw [hwg, hold], hpg', hbytes⟩
    | wait => rfl
    | exhausted =>
      obtain ⟨hgone, hpages, -⟩ := finishBad_spec (tget_noteAddr ho' addr) o (8, 0)
      exact ⟨hgone, hpages⟩
  · intro h d a s v hi ho mine hmine
    have hany : v.g.acq.any (awaits a d) = true := List.any_eq_true.2 (hmine.imp fun x hx => ⟨hx.1, (awaits_iff a d x).2 hx.2⟩)
    refine ⟨v.g.acq.filter (fun k => !awaits a d k), fun x => ?_, ?_⟩
    · simp only [List.mem_filter, Bool.not_eq_true', ← Bool.not_eq_true, awaits_iff, mine]
    · rw [smov_observes hi ho, observeAcq_some hany]
      rfl
  · intro s id o n a b bl st ho hb he hbl hst hf hr hq
    refine ⟨_, enqAccept_room ho hb he hbl hst hf hr hq, ?_⟩
    cases lumberForLog s bl.part o.body with
    | room =>
      set f : Stage → Stage := fun st => { st with queue := st.queue ++ [(a, b, s.clock)] }
      have hkeep := keepsThreads_modStage s bl.launch n.toNat f
      obtain ⟨bs, hfin⟩ := finishOp_eq (s := modStage s bl.launch n.toNat f) ho 0 0 [] 0 0 []
      refine ⟨finishes_of_keeps ho hkeep _ _ _ _ _ _, ?_⟩
      exact (stageOf_congr (by rw [hfin]; rfl) _ _).trans (stageOf_modStage_same hst f)
    | wait => rfl
    | exhausted =>
      obtain ⟨hgone, -, hl⟩ := finishBad_spec ho o (8, 0)
      exact ⟨hgone, (stageOf_congr hl _ _).trans hst⟩

end Sys2Proof.Machine
end

section
/-! PLANE (R197): the statement PlaneTransposesBits. -/
namespace Sys2Proof.Machine
open Sys2Proof

/-- The number whose `n` lowest bits are given by `b`. -/
def bitsNat (b : Nat → Bool) (n : Nat) : Nat := (List.range n).foldl (fun w e => w + (if b e then 2 ^ e else 0)) 0

theorem bitsNat_succ (b : Nat → Bool) (n : Nat) : bitsNat b (n + 1) = 2 ^ n * (b n).toNat + bitsNat b n := by
  rw [bitsNat, List.range_succ, List.foldl_append]
  cases h : b n <;> simp [bitsNat, h, Nat.add_comm]

theorem bitsNat_lt (b : Nat → Bool) (n : Nat) : bitsNat b n < 2 ^ n := by
  induction n with
  | zero => exact Nat.one_pos
  | succ n ih =>
    have hb : 2 ^ n * (b n).toNat ≤ 2 ^ n * 1 := Nat.mul_le_mul_left _ (Bool.toNat_le _)
    rw [bitsNat_succ, Nat.pow_succ]
    omega

theorem testBit_bitsNat (b : Nat → Bool) {n e : Nat} (he : e < n) : (bitsNat b n).testBit e = b e := by
  induction n with
  | zero => omega
  | succ n ih =>
    rw [bitsNat_succ, Nat.testBit_two_pow_mul_add _ (bitsNat_lt b n)]
    split
    · rename_i h
      exact ih h
    · obtain rfl : e = n := by omega
      cases h : b e <;> simp

/-- Bit `p` of element `e` of a lane, the elements `P` bits wide, `32 / P` of them to a register from the lowest bits up (R197). -/
def elementBit (P : Nat) (rows : List Row) (l e p : Nat) : Bool :=
  (rget (rows.getD (e / (32 / P)) zeroRow) l).getLsbD (P * (e % (32 / P)) + p)

/-- The registers of the planes: bit `e` of plane `p` is bit `p` of element `e`. -/
def planeRows (P : Nat) (rows : List Row) : List Row :=
  (List.range P).map (fun p => rowOf (fun l => BitVec.ofNat 32 (bitsNat (fun e => elementBit P rows l e p) 32)))

theorem planeRows_bit {P : Nat} (rows : List Row) {p l e : Nat} (hp : p < P) (hl : l < 64) (he : e < 32) :
    (rget ((planeRows P rows).getD p zeroRow) l).getLsbD e = elementBit P rows l e p := by
  rw [planeRows, getD_range_map _ _ hp, rget_rowOf _ _ hl, BitVec.getLsbD_ofNat, testBit_bitsNat _ he, decide_eq_true he, Bool.true_and]

theorem plane_writes {h : Hdr} {t : Ty} {d a : VReg} {s : State} {v : View} (hi : Issues h s v)
    (ho : OperandsReady [.v a.toNat (tyWidth t) true false, .v d.toNat (tyWidth t) false true] v) :
    let q := readRows (execOf h v.g) [.v a.toNat (tyWidth t) true false, .v d.toNat (tyWidth t) false true] v
    exec (.plane h t d a) s = completed h (writeRows q.1 d.toNat (execOf h v.g) (planeRows (tyWidth t) q.2)) 0 := by
  simp only [exec, execPlane, issue_ready hi ho, passOn_done, conclude_done, execOf_readRows]
  rfl

/-- Settles O39: the planes that PLANE writes, bit by bit. -/
theorem planeTransposesBits : Obligations.PlaneTransposesBits := by
  unfold Obligations.PlaneTransposesBits
  intro h t d a s v hi _ P ho ex q
  exact ⟨planeRows P q.2, by simp [planeRows], plane_writes hi ho, fun p hp l hl e he => planeRows_bit q.2 hp hl he⟩

end Sys2Proof.Machine
end

section
/-! The activation table and the baton (R215 to R217): what MTBL, MTBLSW and BATON do. -/
namespace Sys2Proof.Machine
open Sys2Proof

/-! ### Entries put one after another -/

theorem tget_foldl_tput_mem {α : Type} (a : Nat) (f : Nat → α) (t : Tbl α) {L : List Nat} {l : Nat} (hl : l ∈ L) :
    tget (L.foldl (fun t l => tput t (a + l) (f l)) t) (a + l) = some (f l) := by
  induction L using List.reverseRecOn with
  | nil => cases hl
  | append_singleton L x ih =>
    rw [List.foldl_append, List.foldl_cons, List.foldl_nil]
    by_cases hx : l = x
    · subst hx
      exact tget_tput_same _ _ _
    · rw [tget_tput_ne _ _ (by omega)]
      exact ih (by simpa [hx] using hl)

theorem tget_foldl_tput_ne {α : Type} (a : Nat) (f : Nat → α) (t : Tbl α) {L : List Nat} {j : Nat} (hj : ∀ l ∈ L, j ≠ a + l) :
    tget (L.foldl (fun t l => tput t (a + l) (f l)) t) j = tget t j := by
  induction L generalizing t with
  | nil => rfl
  | cons x L ih =>
    rw [List.foldl_cons, ih _ (fun l hl => hj l (List.mem_cons_of_mem _ hl)), tget_tput_ne _ _ (hj x (List.mem_cons_self ..))]

/-! ### MTBL -/

/-- One of the two banks of the table. -/
def bankOf (t : ActTable) (z : Bool) : Tbl W32 := if z then t.bank1 else t.bank0

/-- A bank with the lanes of `m` of a row in entries `64 k` on. -/
def fillBank (bank : Tbl W32) (m : Lanes) (k : Nat) (row : Row) : Tbl W32 :=
  (laneList m).foldl (fun b l => tput b (64 * k + l) (rget row l)) bank

/-- The table after MTBL under control word `w`: the inactive bank filled, and its base set where bit 2 asks for it (R215). -/
def filledTable (t : ActTable) (m : Lanes) (w : W64) (row : Row) : ActTable :=
  if t.sel then { t with bank0 := fillBank t.bank0 m (fld w 0 2).toNat row, base0 := if w.getLsbD 2 then fld w 8 8 else t.base0 }
  else { t with bank1 := fillBank t.bank1 m (fld w 0 2).toNat row, base1 := if w.getLsbD 2 then fld w 8 8 else t.base1 }

theorem filledTable_banks (t : ActTable) (m : Lanes) (w : W64) (row : Row) :
    (filledTable t m w row).sel = t.sel ∧ bankOf (filledTable t m w row) t.sel = bankOf t t.sel ∧
      bankOf (filledTable t m w row) (!t.sel) = fillBank (bankOf t (!t.sel)) m (fld w 0 2).toNat row := by
  cases hs : t.sel <;> simp [filledTable, bankOf, hs]

section
variable {h : Hdr} {a : VReg} {x : SReg} {s : State} {v : View}

theorem mtbl_fills (hi : Issues h s v) (ho : OperandsReady [vsrc .n32 a, ssrc x] v) :
    let q := readRows (execOf h v.g) [vsrc .n32 a, ssrc x] v
    readS v.g x >>> 16 = 0 → fld (readS v.g x) 3 5 = 0 → bankBound q.1 (!v.b.act.sel) = false →
      exec (.mtbl h a x) s =
        completed h { q.1 with b := { v.b with act := filledTable v.b.act (execOf h v.g) (readS v.g x) (q.2.headD zeroRow) } } 0 := by
  intro q hz hf hb
  have hb' : bankBound (readRows (execOf h v.g) [vsrc .n32 a, ssrc x] v).1 (!v.b.act.sel) = false := hb
  have hz' : ¬ (readS v.g x >>> 16 ≠ 0 ∨ fld (readS v.g x) 3 5 ≠ 0) := by simp [hz, hf]
  simp only [exec, execMtbl, issue_ready hi ho, readS_readRows, readRows_b, execOf_readRows, if_neg hz', hb']
  cases hs : v.b.act.sel <;> simp [filledTable, hs, q, completed, fillBank]

/-! ### MTBLSW and BATON -/

theorem mtblsw_exchanges (hi : Issues h s v) (ho : OperandsReady [] v) :
    exec (.mtblsw h) s = completed h { v with b := { v.b with act := { v.b.act with sel := !v.b.act.sel } } } 0 := by
  simp only [exec, execMtblsw, issue_scalar hi ho rfl]
  rfl

theorem baton_held (hi : Issues h s v) (ho : OperandsReady [] v) (hb : v.b.baton = v.gid) :
    exec (.baton h .take) s = completed h v 0 ∧
      exec (.baton h .pass) s = completed h { v with b := { v.b with baton := batonNext v.b.groups v.gid } } 0 := by
  simp only [exec, execBaton, issue_scalar hi ho rfl, if_pos hb]
  exact ⟨rfl, rfl⟩

theorem baton_elsewhere (hi : Issues h s v) (ho : OperandsReady [] v) (hb : v.b.baton ≠ v.gid) :
    exec (.baton h .take) s = heldBack h v 8 ∧ exec (.baton h .pass) s = completed h v 0 := by
  simp only [exec, execBaton, issue_scalar hi ho rfl, if_neg hb]
  exact ⟨rfl, rfl⟩

theorem baton_tests (hi : Issues h s v) (ho : OperandsReady [sdst x] v) :
    exec (.baton h (.test x)) s = completed h { v with g := writeS v.g x (if v.b.baton = v.gid then 1 else 0) } 0 := by
  simp only [exec, execBaton, issue_scalar hi ho rfl, boolW, beq_iff_eq]
  rfl

end

end Sys2Proof.Machine
end

section
/-! MMA at issue (R202, R203, R212): the checks in order, the waits, and the start. -/
namespace Sys2Proof.Machine
open Sys2Proof

/-! ### An operation starts with entries of the range scoreboard (R31, R212) -/

theorem Starts.addRange {u w : View} {d : HReg} {body : OpBody} (hs : Starts u w d body) (lo hi : Nat) (inb : Bool) (op : Nat) :
    Starts u (addRange w lo hi inb op) d body :=
  ⟨hs.handle, hs.op, hs.regs, hs.memory⟩

theorem Starts.bumpRound {u w : View} {d : HReg} {body : OpBody} (hs : Starts u w d body) (mode : RMode) :
    Starts u (bumpRound w mode) d body := by
  unfold Machine.bumpRound
  split
  · exact ⟨hs.handle, hs.op, hs.regs, hs.memory⟩
  · exact hs

theorem Starts.startRanged {v : View} {d : HReg} {body : OpBody} {start : View → View} (hs : Starts v (start v) d body)
    (hn : (start v).st.nextOp ≠ v.st.nextOp) (rs : List (Nat × Nat × Bool)) : Starts v (startRanged v rs start) d body := by
  simp only [Machine.startRanged, if_neg hn]
  generalize start v = w at hs
  induction rs generalizing w with
  | nil => exact hs
  | cons r rs ih => exact ih _ (hs.addRange ..)

/-! ### The start of an MMA -/

/-- The code under which a command keeps its effective mode (R131). -/
def effModeCode (mode : RMode) : Nat :=
  match mode with
  | .ne => 0
  | .tz => 1
  | .up => 2
  | .dn => 3
  | .st => 4

/-- The entries of an MMA: the span of what it reads, and its output (R212). -/
def mmaEntries (m : MmaCmd) : List (Nat × Nat × Bool) :=
  ((spanOf (mmaReads m)).1, (spanOf (mmaReads m)).2, false) :: (if m.rq then [(m.ooff, m.ooff + lenOut m, true)] else [])

/-- The command with its effective mode, begun for handle `d`; an output conversion counts as a stochastic use (R145). -/
def mmaBegun (d : HReg) (m : MmaCmd) (mode : RMode) (w : View) : View :=
  if m.rq then bumpRound (startOp w d (.mma { m with rm := effModeCode mode })) mode else startOp w d (.mma { m with rm := effModeCode mode })

def mmaStarted (v : View) (d : HReg) (m : MmaCmd) : View := startRanged v (mmaEntries m) (mmaBegun d m (mmaMode v.g m.rm))

theorem bumpRound_st (v : View) (mode : RMode) : (bumpRound v mode).st = v.st := by
  unfold bumpRound
  split <;> rfl

theorem starts_mmaStarted (v : View) (d : HReg) (m : MmaCmd) :
    Starts v (mmaStarted v d m) d (.mma { m with rm := effModeCode (mmaMode v.g m.rm) }) := by
  have hs := starts_startOp v d (.mma { m with rm := effModeCode (mmaMode v.g m.rm) }) none
  refine Starts.startRanged ?_ ?_ _
  · unfold mmaBegun
    split
    · exact hs.bumpRound _
    · exact hs
  · have hnext : (mmaBegun d m (mmaMode v.g m.rm) v).st.nextOp = v.st.nextOp + 1 := by
      unfold mmaBegun
      split
      · rw [bumpRound_st]
        rfl
      · rfl
    rw [hnext]
    exact Nat.succ_ne_self _

/-! ### The checks and the waits -/

/-- Past its checks: the waits of R203 and R212 in the order of R361, then the start. -/
def mmaWaits (v : View) (d : HReg) (m : MmaCmd) (scales : List Nat) : Res :=
  if mmaRanges v m then .hold v 2
  else if v.b.baton ≠ v.gid then .hold v 8
  else if otherPending v m scales || decide (4 ≤ (mmasOn v.st (blkCore v.b)).length) then .hold v 9
  else .done (mmaStarted v d m) 0

theorem mmaRanges_iff (v : View) (m : MmaCmd) :
    mmaRanges v m = true ↔ (mmaReads m).any (fun r => rangeHolds v r.1 r.2 false) = true ∨ 30 < rangesOf v.st (blkCore v.b) := by
  simp only [mmaRanges, rangesFree, Bool.or_eq_true, Bool.not_eq_true', decide_eq_false_iff_not]
  exact or_congr_right (by omega)

section
variable {h : Hdr} {t : Ty} {d : HReg} {dv : BitVec 3} {c : CReg} {r w o : SReg} {fa fb : BitVec 2} {s : State} {v : View}

theorem mma_ready (hi : Issues h s v)
    (ho : OperandsReady [.hd d, .c c, ssrc r, ssrc w, .s o.toNat (min 2 (64 - o.toNat)) true false, .m t dv r fa fb] v) :
    exec (.mma h t d dv c r w o fa fb) s = .next (flush (conclude h v (mmaIssue v t d dv c r w o fa fb h))) :=
  issue_scalar hi ho rfl

theorem mmaIssue_partial (he : execOf h v.g ≠ allLanes) : mmaIssue v t d dv c r w o fa fb h = .trap 0 5 255 8 0 := if_pos he

theorem mmaIssue_checked (he : execOf h v.g = allLanes) (hs : shapeOK t (readS v.g r) = true)
    (hc : commandOK (readS v.g w) (fld (readS v.g r) 8 8).toNat = true) :
    let m := mmaOf v t dv (readC v.g c) (readS v.g r) (readS v.g w) (readS v.g o) (readS v.g (o + 1)) fa fb
    mmaRegs v m (mmaScales (readS v.g r) fa fb) = none → mmaAccess v (readC v.g c) m = none →
      (m.rq && (mmaReads m).any (overlaps (m.ooff, m.ooff + lenOut m))) = false →
      mmaIssue v t d dv c r w o fa fb h = mmaWaits v d m (mmaScales (readS v.g r) fa fb) := by
  intro m hr ha hov
  have he' : ¬ execOf h v.g ≠ allLanes := by simp [he]
  simp only [mmaIssue, if_neg he', hs, hc]
  simp only [m] at hr ha hov
  simp only [hr, ha, hov]
  rfl

end

section
variable {v : View} {d : HReg} {m : MmaCmd} {scales : List Nat}

theorem mmaWaits_ranged (hr : mmaRanges v m = true) : mmaWaits v d m scales = .hold v 2 := if_pos hr

theorem mmaWaits_baton (hr : ¬ mmaRanges v m = true) (hb : v.b.baton ≠ v.gid) : mmaWaits v d m scales = .hold v 8 := by
  rw [mmaWaits, if_neg hr, if_pos hb]

theorem mmaWaits_outstanding (hr : ¬ mmaRanges v m = true) (hb : v.b.baton = v.gid)
    (hf : 4 ≤ (mmasOn v.st (blkCore v.b)).length ∨ otherPending v m scales = true) : mmaWaits v d m scales = .hold v 9 := by
  rw [mmaWaits, if_neg hr, if_neg (not_not_intro hb), if_pos (by simpa using hf.symm)]

theorem mmaWaits_starts (hr : ¬ mmaRanges v m = true) (hb : v.b.baton = v.gid) (hf : ¬ 4 ≤ (mmasOn v.st (blkCore v.b)).length)
    (hp : otherPending v m scales = false) : mmaWaits v d m scales = .done (mmaStarted v d m) 0 := by
  rw [mmaWaits, if_neg hr, if_neg (not_not_intro hb), if_neg (by simp [hf, hp])]

end

end Sys2Proof.Machine
end

section
/-! The output of an MMA (R209, R210): its bytes row by row, and what they leave in a memory. -/
namespace Sys2Proof.Machine
open Sys2Proof

/-! ### Bytes that stand between others -/

theorem bget_bputs_middle (m : Cells) (a : Nat) (pre xs post : List W8) {k : Nat} (hk : k < xs.length) :
    bget (bputs m a (pre ++ (xs ++ post))) (a + pre.length + k) = xs[k] := by
  rw [Nat.add_assoc, bget_bputs_inside _ _ _ _ (by simp; omega), List.getElem_append_right (by omega)]
  simp [List.getElem_append_left hk]

theorem bgets_bputs_middle (m : Cells) (a : Nat) (pre xs post : List W8) :
    bgets (bputs m a (pre ++ (xs ++ post))) (a + pre.length) xs.length = xs := by
  refine List.ext_getElem (bgets_length _ _ _) fun k _ hk => ?_
  simp only [bgets_eq_map, List.getElem_map, List.getElem_range]
  exact bget_bputs_middle m a pre xs post hk

theorem bputs_append_singleton (m : Cells) (a : Nat) (bs : List W8) (x : W8) :
    bputs m a (bs ++ [x]) = bput (bputs m a bs) (a + bs.length) x := by
  induction bs generalizing m a with
  | nil => rfl
  | cons b bs ih =>
    rw [List.cons_append, bputs, ih, List.length_cons, Nat.add_right_comm, Nat.add_assoc]
    rfl

/-- Row `i` stands behind the rows before it. -/
theorem flatMap_range_split {α : Type} (f : Nat → List α) {i n : Nat} (hi : i < n) :
    ∃ post, (List.range n).flatMap f = (List.range i).flatMap f ++ (f i ++ post) := by
  obtain ⟨c, rfl⟩ : ∃ c, n = i + 1 + c := ⟨n - (i + 1), by omega⟩
  refine ⟨((List.range c).map (fun k => i + 1 + k)).flatMap f, ?_⟩
  rw [List.range_add, List.range_succ, List.flatMap_append, List.flatMap_append, List.flatMap_singleton, List.append_assoc]

theorem length_flatMap_rows {α : Type} {f : Nat → List α} {w : Nat} (hf : ∀ i, (f i).length = w) (n : Nat) :
    ((List.range n).flatMap f).length = w * n := by
  simp [List.length_flatMap, hf, Nat.mul_comm]

theorem getD_table {α : Type} (f : Nat → Nat → α) (d : α) {a b i j : Nat} (hi : i < a) (hj : j < b) :
    ((((List.range a).map (fun i => (List.range b).map (f i))).getD i []).getD j d) = f i j := by
  rw [getD_range_map _ _ hi, getD_range_map _ _ hj]

/-! ### The values of an MMA, element by element -/

section
variable (v : View) (m : MmaCmd) (mem : Cells)

/-- Accumulator element (i, j) over every K-block (R205 to R207). -/
def accValue (i j : Nat) : Nat := (accElem mem m (accOld v.g m i j) i j (m.k / 32)).1

/-- The element after the bias and the activation (R209). -/
def chainValue (i j : Nat) : Nat := (chainVal v.b m mem (accValue v m mem i j) j).1

/-- The scale byte of columns 32 k to 32 k + 31 of row `i` (R209). -/
def rowScale (i k : Nat) : Nat := (outScale m ((List.range 32).map (fun q => chainValue v m mem i (32 * k + q)))).1

/-- The scale byte under which an element is converted. -/
def elementScale (i j : Nat) : Nat :=
  if m.smode = 2 then (if j / 32 < m.n / 32 then rowScale v m mem i (j / 32) else 0) else m.oscale.toNat

/-- The draw of a stochastic conversion (R145). -/
def elementDraw (i j : Nat) : Nat := if m.rm = 4 then noiseOf (identW v (fun b => b.seed)) (noiseKey v i) j m.sround else 0

/-- The bits of an output element. -/
def outBits (i j : Nat) : Nat := (outElem m (elementScale v m mem i j) (elementDraw v m i j) (chainValue v m mem i j)).1

/-- The bytes of row `i` of the output, its elements packed by their width (R210). -/
def outRow (i : Nat) : List W8 :=
  leBytes (m.n * tyWidth m.otype / 8) ((List.range m.n).map (fun j => outBits v m mem i j * 2 ^ (tyWidth m.otype * j))).sum

/-- The scale bytes of row `i`. -/
def scaleRow (i : Nat) : List W8 := (List.range (m.n / 32)).map (fun k => BitVec.ofNat 8 (rowScale v m mem i k))

/-- The output: its rows, and behind them the scale bytes that smode 2 computes (R210). -/
def outBytes : List W8 :=
  (List.range m.m).flatMap (outRow v m mem) ++ (if m.smode = 2 then (List.range m.m).flatMap (scaleRow v m mem) else [])

theorem outRow_length (i : Nat) : (outRow v m mem i).length = m.n * tyWidth m.otype / 8 := leBytes_length _ _

theorem scaleRow_length (i : Nat) : (scaleRow v m mem i).length = m.n / 32 := by simp [scaleRow]

theorem outBytes_length : (outBytes v m mem).length = lenOut m := by
  rw [outBytes, List.length_append, length_flatMap_rows (outRow_length v m mem), lenOut, Nat.mul_comm]
  split
  · rw [length_flatMap_rows (scaleRow_length v m mem), Nat.mul_comm (m.n / 32)]
  · rfl

/-! ### What the bytes leave in a memory -/

variable (cells : Cells)

theorem bgets_outBytes_row {i : Nat} (hi : i < m.m) :
    bgets (bputs cells m.ooff (outBytes v m mem)) (m.ooff + m.n * tyWidth m.otype / 8 * i) (m.n * tyWidth m.otype / 8) = outRow v m mem i := by
  obtain ⟨post, hp⟩ := flatMap_range_split (outRow v m mem) hi
  have hmid := bgets_bputs_middle cells m.ooff ((List.range i).flatMap (outRow v m mem)) (outRow v m mem i)
    (post ++ (if m.smode = 2 then (List.range m.m).flatMap (scaleRow v m mem) else []))
  rw [length_flatMap_rows (outRow_length v m mem), outRow_length] at hmid
  rw [outBytes, hp, List.append_assoc, List.append_assoc]
  exact hmid

theorem bget_outBytes_scale (hs : m.smode = 2) {i k : Nat} (hi : i < m.m) (hk : k < m.n / 32) :
    bget (bputs cells m.ooff (outBytes v m mem)) (m.ooff + m.n * tyWidth m.otype / 8 * m.m + i * (m.n / 32) + k) =
      BitVec.ofNat 8 (rowScale v m mem i k) := by
  obtain ⟨post, hp⟩ := flatMap_range_split (scaleRow v m mem) hi
  have hk' : k < (scaleRow v m mem i).length := by rwa [scaleRow_length]
  have hmid := bget_bputs_middle cells m.ooff ((List.range m.m).flatMap (outRow v m mem) ++ (List.range i).flatMap (scaleRow v m mem))
    (scaleRow v m mem i) post hk'
  rw [List.length_append, length_flatMap_rows (outRow_length v m mem), length_flatMap_rows (scaleRow_length v m mem)] at hmid
  rw [outBytes, if_pos hs, hp, ← List.append_assoc, Nat.mul_comm i, Nat.add_assoc m.ooff, hmid]
  simp [scaleRow]

theorem bget_outBytes_outside {a : Nat} (ha : a < m.ooff ∨ m.ooff + lenOut m ≤ a) :
    bget (bputs cells m.ooff (outBytes v m mem)) a = bget cells a :=
  bget_bputs_outside _ _ _ _ (by rwa [outBytes_length])

/-! ### The model's tables hold these values -/

/-- The chain over a table of accumulator values. -/
def chainTable (acc : List (List Nat)) : List (List (Nat × Flg)) :=
  (List.range m.m).map (fun i => (List.range m.n).map (fun j => chainVal v.b m mem ((acc.getD i []).getD j 0) j))

/-- The scale bytes over a table of chain values. -/
def scaleTable (ys : List (List (Nat × Flg))) : List (List (Nat × Flg)) :=
  (List.range m.m).map (fun i => (List.range (m.n / 32)).map (fun b =>
    if m.smode = 2 then outScale m ((List.range 32).map (fun q => ((ys.getD i []).getD (32 * b + q) (0, 0)).1)) else (m.oscale.toNat, 0)))

/-- The converted elements over the tables of chain values and scale bytes. -/
def elementTable (ys zs : List (List (Nat × Flg))) : List (List (Nat × Flg)) :=
  (List.range m.m).map (fun i => (List.range m.n).map (fun j =>
    outElem m (if m.smode = 2 then ((zs.getD i []).getD (j / 32) (0, 0)).1 else m.oscale.toNat) (elementDraw v m i j)
      ((ys.getD i []).getD j (0, 0)).1))

theorem outputBytes_tables (acc : List (List Nat)) :
    let ys := chainTable v m mem acc
    let zs := scaleTable m ys
    let es := elementTable v m ys zs
    (outputBytes v m mem acc).1 =
      (List.range m.m).foldl (fun a i => a ++ leBytes (m.n * tyWidth m.otype / 8)
          ((List.range m.n).foldl (fun x j => x + ((es.getD i []).getD j (0, 0)).1 * 2 ^ (tyWidth m.otype * j)) 0)) [] ++
        (if m.smode = 2 then zs.foldl (fun a r => a ++ r.map (fun x => BitVec.ofNat 8 x.1)) [] else []) := rfl

end

section
variable {v : View} {m : MmaCmd} {mem : Cells} {acc : List (List Nat)}
  (hacc : ∀ i < m.m, ∀ j < m.n, (acc.getD i []).getD j 0 = accValue v m mem i j)
include hacc

theorem chainTable_entry {i j : Nat} (hi : i < m.m) (hj : j < m.n) :
    (((chainTable v m mem acc).getD i []).getD j (0, 0)).1 = chainValue v m mem i j := by
  rw [chainTable, getD_table _ _ hi hj, hacc i hi j hj]
  rfl

theorem scaleTable_row (hs : m.smode = 2) {i : Nat} (hi : i < m.m) :
    (scaleTable m (chainTable v m mem acc)).getD i [] =
      (List.range (m.n / 32)).map (fun k => outScale m ((List.range 32).map (fun q => chainValue v m mem i (32 * k + q)))) := by
  rw [scaleTable, getD_range_map _ _ hi]
  refine List.map_congr_left fun k hk => ?_
  have hk := List.mem_range.1 hk
  rw [if_pos hs]
  refine congrArg (outScale m) (List.map_congr_left fun q hq => ?_)
  have hq := List.mem_range.1 hq
  exact chainTable_entry hacc hi (by omega)

theorem elementTable_entry {i j : Nat} (hi : i < m.m) (hj : j < m.n) :
    (((elementTable v m (chainTable v m mem acc) (scaleTable m (chainTable v m mem acc))).getD i []).getD j (0, 0)).1 = outBits v m mem i j := by
  have hbyte : (if m.smode = 2 then (((scaleTable m (chainTable v m mem acc)).getD i []).getD (j / 32) (0, 0)).1 else m.oscale.toNat) =
      elementScale v m mem i j := by
    unfold elementScale
    split
    · rename_i hs
      rw [scaleTable_row hacc hs hi]
      split
      · rename_i hk
        rw [getD_range_map _ _ hk]
        rfl
      · rename_i hk
        rw [List.getD_eq_default _ _ (by simpa using hk)]
    · rfl
  rw [elementTable, getD_table _ _ hi hj, hbyte, chainTable_entry hacc hi hj]
  rfl

/-- The model's output of a table of accumulator values is the rows and scale bytes above. -/
theorem outputBytes_eq : (outputBytes v m mem acc).1 = outBytes v m mem := by
  rw [outputBytes_tables, outBytes, ← List.flatMap_eq_foldl]
  congr 1
  · refine List.flatMap_congr fun i hi => ?_
    have hi := List.mem_range.1 hi
    rw [foldl_add_eq_sum, outRow]
    refine congrArg (fun l => leBytes _ l.sum) (List.map_congr_left fun j hj => ?_)
    rw [elementTable_entry hacc hi (List.mem_range.1 hj)]
  · split
    · rename_i hs
      rw [← List.flatMap_eq_foldl]
      have hz : scaleTable m (chainTable v m mem acc) =
          (List.range m.m).map (fun i => (scaleTable m (chainTable v m mem acc)).getD i []) := by
        refine List.map_congr_left fun i hi => ?_
        rw [scaleTable, getD_range_map _ _ (List.mem_range.1 hi)]
      rw [hz, List.flatMap_map]
      refine List.flatMap_congr fun i hi => ?_
      rw [scaleTable_row hacc hs (List.mem_range.1 hi), List.map_map]
      rfl
    · rfl

end

end Sys2Proof.Machine
end

section
/-! The completion of an MMA (R207, R208, R211, R212): the accumulator it writes, the scratchpad it leaves, and the integer block. -/
namespace Sys2Proof.Machine
open Sys2Proof

/-! ### The accumulator (R203) -/

theorem writeAcc_h (g : Group) (m : MmaCmd) (acc : List (List Nat)) : (writeAcc g m acc).h = g.h := by
  unfold writeAcc
  generalize List.range m.n = L
  induction L generalizing g with
  | nil => rfl
  | cons j L ih => exact ih _

/-- Lane `i` of register D + j holds element (i, j). -/
theorem readV_writeAcc (g : Group) (m : MmaCmd) (acc : List (List Nat)) {i j : Nat} (hj : j < m.n) (hi : i < m.m) (hl : i < 64) :
    rget (readV (writeAcc g m acc) (m.d + j)) i = BitVec.ofNat 32 ((acc.getD i []).getD j 0) := by
  unfold writeAcc
  generalize m.n = n at hj
  induction n with
  | zero => omega
  | succ n ih =>
    rw [List.range_succ, List.foldl_append, List.foldl_cons, List.foldl_nil]
    by_cases hjn : j = n
    · subst hjn
      rw [readV_writeVreg_same, rowMerge, rget_rowOf _ _ hl, rget_rowOf _ _ hl, if_pos (by simp [hl, hi])]
    · rw [readV_writeVreg_ne _ _ _ (by omega)]
      exact ih (by omega)

theorem accAll_value (v : View) (m : MmaCmd) (mem : Cells) {i j : Nat} (hi : i < m.m) (hj : j < m.n) :
    ((((accAll v m mem false).map (fun r => r.map (fun e => e.1))).getD i []).getD j 0) = accValue v m mem i j := by
  have he : (accAll v m mem false).map (fun r => r.map (fun e => e.1)) =
      (List.range m.m).map (fun i => (List.range m.n).map (fun j => accValue v m mem i j)) := by
    simp only [accAll, blocksDone, Bool.false_and, Bool.false_eq_true, if_false, List.map_map, Function.comp_def]
    rfl
  rw [he, getD_table _ _ hi hj]

/-! ### The scratchpad of a block -/

/-- The scratchpad of block `u` holds `m`. -/
def ScratchAt (s : State) (u : Nat) (m : Cells) : Prop := ∃ b, tget s.blocks u = some b ∧ b.scratch = m

section
variable {s : State} {u : Nat} {m : Cells}

theorem ScratchAt.setBlk (h : ScratchAt s u m) {w : Nat} {b b' : Block} (hb : tget s.blocks w = some b) (hs : b'.scratch = b.scratch) :
    ScratchAt (setBlk s w b') u m := by
  obtain ⟨c, hc, hm⟩ := h
  by_cases hu : u = w
  · subst hu
    obtain rfl : b = c := Option.some.inj (hb.symm.trans hc)
    exact ⟨b', tget_tput_same _ _ _, hs.trans hm⟩
  · exact ⟨c, (tget_tput_ne _ _ hu).trans hc, hm⟩

theorem ScratchAt.flush {w : View} (h : ScratchAt w.st u m) (hb : tget w.st.blocks w.uid = some w.b) : ScratchAt (flush w) u m :=
  h.setBlk hb rfl

theorem ScratchAt.finishOp (h : ScratchAt s u m) {id : Nat} {o : Op} (ho : tget s.ops id = some o) (st : W16) :
    ScratchAt (finishOp s id st) u m := by
  obtain ⟨b, hb, hm⟩ := h
  obtain ⟨-, -, hother, hown⟩ := finishOp_blocks ho st
  by_cases hu : u = o.blk
  · subst hu
    obtain ⟨gs, l, hb', -⟩ := hown b hb
    exact ⟨_, hb', hm⟩
  · exact ⟨b, (hother u hu).trans hb, hm⟩

theorem ScratchAt.lateTrap (h : ScratchAt s u m) (w : Nat) (f : FaultRec) : ScratchAt (lateTrap s w f) u m := by
  unfold Machine.lateTrap
  split
  · exact h
  · rename_i b hb
    split
    · exact h
    · exact h.setBlk hb (by rw [markFault_frame])

theorem ScratchAt.opScratchPut {o : Op} (h : ScratchAt s o.sblk m) (a : Nat) (bs : List W8) :
    ScratchAt (opScratchPut s o a bs) o.sblk (bputs m a bs) := by
  obtain ⟨b, hb, rfl⟩ := h
  obtain ⟨ts, he⟩ := opScratchPut_block hb a bs
  rw [he]
  exact ⟨_, tget_tput_same _ _ _, rfl⟩

end

theorem opScratchPut_ops (s : State) (o : Op) (a : Nat) (bs : List W8) : (opScratchPut s o a bs).ops = s.ops := by
  unfold opScratchPut
  split <;> rfl

theorem GroupAt.opScratchPut {s : State} {u k : Nat} {g : Group} (h : GroupAt s u k g) (o : Op) (a : Nat) (bs : List W8) :
    GroupAt (opScratchPut s o a bs) u k g := by
  cases hb : tget s.blocks o.sblk with
  | none => rwa [Machine.opScratchPut, hb]
  | some b =>
    obtain ⟨ts, he⟩ := opScratchPut_block hb a bs
    rw [he]
    by_cases hu : u = o.sblk
    · subst hu
      exact h.setBlk hb rfl
    · obtain ⟨c, hc, hg⟩ := h
      exact ⟨c, (tget_tput_ne _ _ hu).trans hc, hg⟩

theorem groupAt_flush {s : State} {u k : Nat} {v w : View} (hv : viewAt s u k = some v) (hu : w.uid = u) (hk : w.gid = k) (hb : w.b = v.b) :
    GroupAt (flush w) u k w.g := by
  have hw := groupAt_of_viewAt (viewAt_flush hv hu hk (by rw [hb]))
  exact hw

/-! ### Single bytes put one after another -/

/-- The bytes of `ps` put at their addresses in turn. -/
def putAll (s : State) (o : Op) (ps : List (Nat × W8)) : State := ps.foldl (fun s e => opScratchPut s o e.1 [e.2]) s

theorem putAll_ops (s : State) (o : Op) (ps : List (Nat × W8)) : (putAll s o ps).ops = s.ops := by
  induction ps generalizing s with
  | nil => rfl
  | cons e ps ih => exact (ih _).trans (opScratchPut_ops _ _ _ _)

theorem GroupAt.putAll {s : State} {u k : Nat} {g : Group} (h : GroupAt s u k g) (o : Op) (ps : List (Nat × W8)) :
    GroupAt (putAll s o ps) u k g := by
  induction ps generalizing s with
  | nil => exact h
  | cons e ps ih => exact ih (h.opScratchPut o e.1 [e.2])

/-- A memory with the bytes of `ps` put at their addresses in turn. -/
def putBytes (m : Cells) (ps : List (Nat × W8)) : Cells := ps.foldl (fun m e => bput m e.1 e.2) m

theorem ScratchAt.putAll {s : State} {o : Op} {m : Cells} (h : ScratchAt s o.sblk m) (ps : List (Nat × W8)) :
    ScratchAt (putAll s o ps) o.sblk (putBytes m ps) := by
  induction ps generalizing s m with
  | nil => exact h
  | cons e ps ih => exact ih (h.opScratchPut e.1 [e.2])

/-- The bytes `bs` with their addresses from `a` on. -/
def bytesFrom (a : Nat) (bs : List W8) : List (Nat × W8) := (bs.zip (List.range bs.length)).map (fun e => (a + e.2, e.1))

theorem putBytes_bytesFrom (m : Cells) (a : Nat) (bs : List W8) : putBytes m (bytesFrom a bs) = bputs m a bs := by
  induction bs using List.reverseRecOn with
  | nil => rfl
  | append_singleton bs x ih =>
    have hlast : bytesFrom a (bs ++ [x]) = bytesFrom a bs ++ [(a + bs.length, x)] := by
      rw [bytesFrom, List.length_append, List.length_singleton, List.range_succ, List.zip_append (by simp), List.map_append]
      rfl
    rw [hlast, putBytes, List.foldl_append, bputs_append_singleton, ← ih]
    rfl

/-! ### The events of an MMA -/

section
variable {s : State} {id : Nat} {o : Op} {m : MmaCmd} {v : View}

theorem mmaComplete_element (ho : tget s.ops id = some o) (hb : o.body = .mma m) (hv : viewAt s o.blk o.gid = some v) (i : Nat) :
    exec (.mmaComplete ⟨id, some i⟩) s = .next (mmaEvent v id o m i) := by
  have hx : exec (.mmaComplete ⟨id, some i⟩) s = execMmaComplete ⟨id, some i⟩ s := rfl
  simp only [hx, execMmaComplete, ho, hb, hv]

theorem mmaComplete_ends (ho : tget s.ops id = some o) (hb : o.body = .mma m) (hv : viewAt s o.blk o.gid = some v)
    (hf : mmaFirst s id o = true) : exec (.mmaComplete ⟨id, none⟩) s = .next (finishMma v id o m) := by
  have hx : exec (.mmaComplete ⟨id, none⟩) s = execMmaComplete ⟨id, none⟩ s := rfl
  simp only [hx, execMmaComplete, ho, hb, hv, hf, if_true]

theorem tget_putGot (ho : tget s.ops id = some o) (got : Tbl W8) : tget (putGot s id got).ops id = some { o with got := got } := by
  simp only [putGot, tget_tmod, if_true, ho, Option.map_some]

/-- The bytes of the word at `a` join those that the MMA has read. -/
def wordRead (s : State) (o : Op) (a : Nat) : Tbl W8 :=
  (List.range 4).foldl (fun t i => tput t (a + i) ((opScratch s o (a + i) 1).headD 0)) o.got

/-- A word that has not been read before is read (R212). -/
theorem mmaEvent_reads {i a : Nat} (hv : v.st = s) (hc : o.cancel = false) (hw : (mmaWords m)[i]? = some a) (hg : thas o.got a = false) :
    mmaEvent v id o m i = putGot s id (wordRead s o a) := by
  obtain ⟨hi, ha⟩ := List.getElem?_eq_some_iff.1 hw
  have hget : (mmaWords m).getD i 0 = a := by rw [List.getD_eq_getElem _ _ hi, ha]
  simp only [mmaEvent, hc, hi, if_true, hget, readEarly, hg, hv]
  rfl

theorem tget_wordRead {b : Block} (hb : tget s.blocks o.sblk = some b) (a : Nat) {k : Nat} (hk : k < 4) :
    tget (wordRead s o a) (a + k) = some (bget b.scratch (a + k)) := by
  rw [wordRead, tget_foldl_tput_mem a _ _ (List.mem_range.2 hk), opScratch, hb]
  rfl

/-- What the MMA writes into the scratchpad: its whole output, or the elements that are not written yet. -/
def mmaPuts (v : View) (o : Op) (m : MmaCmd) : List (Nat × W8) :=
  let out := (mmaResult v o m).2.1
  if o.wrote.isEmpty then bytesFrom m.ooff out else someOut (fun q => !o.wrote.contains q) m (mmaMem v.st o) out

/-- The group after the MMA: the accumulator and the flags `fl`. -/
def mmaGroup (v : View) (o : Op) (m : MmaCmd) (fl : Flg) : Group :=
  { writeAcc v.g m ((mmaResult v o m).1.map (fun r => r.map (fun e => e.1))) with fflags := v.g.fflags ||| fl }

/-- A late trap of class 2 when `fl` holds an enabled flag (R208). -/
def flagTrap (s : State) (o : Op) (fl : Flg) : State :=
  match trapFlag fl with
  | some n => lateTrap s o.blk (lateFault s { o with h := 0 } 2 n 0)
  | none => s

theorem flagTrap_ops (s : State) (o : Op) (fl : Flg) : (flagTrap s o fl).ops = s.ops := by
  unfold flagTrap
  split
  · rename_i n _
    obtain ⟨bs, h⟩ := lateTrap_eq s o.blk (lateFault s { o with h := 0 } 2 n 0)
    rw [h]
  · rfl

theorem GroupAt.flagTrap {g : Group} (h : GroupAt s o.blk o.gid g) (fl : Flg) : GroupAt (flagTrap s o fl) o.blk o.gid g := by
  unfold Machine.flagTrap
  split
  · exact h.lateTrap _
  · exact h

theorem ScratchAt.flagTrap {u : Nat} {c : Cells} (h : ScratchAt s u c) (o : Op) (fl : Flg) : ScratchAt (flagTrap s o fl) u c := by
  unfold Machine.flagTrap
  split
  · exact h.lateTrap _ _
  · exact h

/-- An MMA that is not cancelled writes its accumulator and flags, then its output, then ends its operation with status 0, and traps last. -/
theorem finishMma_eq (hc : o.cancel = false) (v : View) (id : Nat) (m : MmaCmd) :
    ∃ fl, finishMma v id o m =
      flagTrap (finishOp (putAll (flush { v with g := mmaGroup v o m fl }) o (mmaPuts v o m)) id 0) o (fl &&& v.g.ftrap) := by
  simp only [finishMma, hc]
  exact ⟨_, rfl⟩

theorem mmaFound_fresh {b : Block} (hb : tget s.blocks o.sblk = some b) (hg : o.got = []) : mmaFound s o = b.scratch := by
  simp only [mmaFound, mmaMem, hg, hb, List.foldl_nil]

/-- Without the output chain there is nothing to write. -/
theorem mmaPuts_noOutput (v : View) (o : Op) (hr : m.rq = false) : mmaPuts v o m = [] := by
  simp only [mmaPuts, mmaResult, hr]
  split <;> rfl

/-- With it, and no element written before, the whole output is written. -/
theorem mmaPuts_output (v : View) (hc : o.cancel = false) (hr : m.rq = true) (hw : o.wrote = []) :
    mmaPuts v o m = bytesFrom m.ooff (outBytes v m (mmaFound v.st o)) := by
  simp only [mmaPuts, mmaResult, hr, hw, hc, List.isEmpty_nil, if_true]
  rw [outputBytes_eq fun i hi j hj => accAll_value v m _ hi hj]

/-- The MMA has ended with status 0, and its group holds the accumulator. -/
theorem finishMma_group (ho : tget s.ops id = some o) (hv : viewAt s o.blk o.gid = some v) (hc : o.cancel = false) :
    Finishes s (finishMma v id o m) id 0 ∧ ∃ u, viewAt (finishMma v id o m) o.blk o.gid = some u ∧
      ∀ j < m.n, ∀ i < m.m, i < 64 → rget (readV u.g (m.d + j)) i = BitVec.ofNat 32 (accValue v m (mmaFound s o) i j) := by
  obtain ⟨hst, huid, hgid, hblk, hgrp⟩ := viewAt_eq_some.1 hv
  obtain ⟨fl, he⟩ := finishMma_eq hc v id m
  rw [he]
  have hops : tget (putAll (flush { v with g := mmaGroup v o m fl }) o (mmaPuts v o m)).ops id = some o := by
    rw [putAll_ops, flush_ops, hst, ho]
  have hg : GroupAt (flagTrap (finishOp (putAll (flush { v with g := mmaGroup v o m fl }) o (mmaPuts v o m)) id 0) o (fl &&& v.g.ftrap))
      o.blk o.gid (completeH (mmaGroup v o m fl) id 0 0 []) :=
    (((groupAt_flush (w := { v with g := mmaGroup v o m fl }) hv huid hgid rfl).putAll o _).finishOp hops 0 0 [] 0 0 []).flagTrap _
  refine ⟨finishes_of_group ho ?_ fun g hg' => ⟨_, 0, [], hg, ?_⟩, ?_⟩
  · obtain ⟨bs, hf⟩ := finishOp_eq hops 0 0 [] 0 0 []
    rw [flagTrap_ops, hf]
    exact tget_tdel_same _ _
  · obtain ⟨b, hb, hk⟩ := hg'
    obtain rfl : v.b = b := Option.some.inj (hblk.symm.trans hb)
    obtain rfl : v.g = g := Option.some.inj (hgrp.symm.trans hk)
    simp only [completeH, mmaGroup, writeAcc_h]
  · obtain ⟨u, hu, hug⟩ := hg.viewAt
    refine ⟨u, hu, fun j hj i hi hl => ?_⟩
    have hread : readV u.g (m.d + j) = readV (writeAcc v.g m ((mmaResult v o m).1.map (fun r => r.map (fun e => e.1)))) (m.d + j) := by
      rw [hug]
      rfl
    rw [hread, readV_writeAcc _ _ _ hj hi hl, mmaResult, hc, accAll_value v m _ hi hj, hst]

/-- The scratchpad after the MMA holds what it writes, and else what it held. -/
theorem finishMma_scratch (ho : tget s.ops id = some o) (hv : viewAt s o.blk o.gid = some v) {b : Block}
    (hb : tget s.blocks o.sblk = some b) (hc : o.cancel = false) :
    ScratchAt (finishMma v id o m) o.sblk (putBytes b.scratch (mmaPuts v o m)) := by
  obtain ⟨hst, huid, -, hblk, -⟩ := viewAt_eq_some.1 hv
  obtain ⟨fl, he⟩ := finishMma_eq hc v id m
  have hops : tget (putAll (flush { v with g := mmaGroup v o m fl }) o (mmaPuts v o m)).ops id = some o := by
    rw [putAll_ops, flush_ops, hst, ho]
  have hstart : ScratchAt (flush { v with g := mmaGroup v o m fl }) o.sblk b.scratch :=
    ScratchAt.flush (w := { v with g := mmaGroup v o m fl }) ⟨b, by rw [hst, hb], rfl⟩ (by rw [hst, huid, hblk])
  rw [he]
  exact ((hstart.putAll _).finishOp hops 0).flagTrap o _

end

/-! ### The integer block (R207) -/

theorem dyInt_dyMul_dyOfInt (x y : Int) : dyInt (dyMul (dyOfInt x) (dyOfInt y)) 0 = x * y := by
  have hm : (((x.natAbs * y.natAbs) * 2 ^ (0 + 0 - 0 : Int).toNat : Nat) : Int) = |x| * |y| := by simp
  simp only [dyInt, dyMul, dyOfInt, hm]
  rcases lt_or_ge x 0 with hx | hx <;> rcases lt_or_ge y 0 with hy | hy <;>
    simp [hx, hy, abs_of_neg, abs_of_nonneg, not_lt.2]

/-- The number that an INT4 or INT2 element holds. -/
def intElem (t : Ty) (x : Nat) : Int := if t = .i4 then (BitVec.ofNat 4 x).toInt else (BitVec.ofNat 2 x).toInt

theorem matVal_int {t : Ty} (ht : t = .i4 ∨ t = .i2) (sb : W8) (x : Nat) : matVal t sb x = .fin (dyOfInt (intElem t x)) := by
  rcases ht with rfl | rfl <;> rfl

/-- A running sum with one more product of the values of an integer block. -/
def addProduct (a : Int) (p : FVal × FVal) : Int :=
  match p with
  | (.fin x, .fin y) => a + dyInt (dyMul x y) 0
  | _ => a

theorem addProduct_int {t : Ty} (ht : t = .i4 ∨ t = .i2) (fa fb : W8) (a : Int) (p : Nat × Nat) :
    addProduct a (p.map (matVal t fa) (matVal t fb)) = a + intElem t p.1 * intElem t p.2 := by
  simp only [Prod.map, matVal_int ht, addProduct, dyInt_dyMul_dyOfInt]

/-- An integer block sums its products exactly and saturates once. -/
theorem accBlock_saturates {m : MmaCmd} (hm : m.ty = .i4 ∨ m.ty = .i2) (acc : Nat) (fa fb : W8) (xs ys : List Nat) :
    (accBlock m acc fa fb xs ys).1 =
      (BitVec.ofInt 32 (clampTo .s32 ((BitVec.ofNat 32 acc).toInt +
        ((xs.map (matVal m.ty fa)).zip (ys.map (matVal m.ty fb))).foldl addProduct 0))).toNat := by
  unfold accBlock
  rcases hm with h | h
  · simp only [h]
    rfl
  · simp only [h]
    rfl

theorem accBlock_int {m : MmaCmd} (hm : m.ty = .i4 ∨ m.ty = .i2) (acc : Nat) (fa fb : W8) (xs ys : List Nat) :
    (accBlock m acc fa fb xs ys).1 =
      (BitVec.ofInt 32 (clampTo .s32 ((BitVec.ofNat 32 acc).toInt +
        ((xs.zip ys).map (fun p => intElem m.ty p.1 * intElem m.ty p.2)).sum))).toNat := by
  rw [accBlock_saturates hm, List.zip_map, List.foldl_map, List.sum_eq_foldl, List.foldl_map]
  simp only [addProduct_int hm]

end Sys2Proof.Machine
end

section
/-! The matrix engine: the statement MatrixEngineResults. -/
namespace Sys2Proof.Machine
open Sys2Proof

/-- Settles O48: the four instructions at issue, the element events and the completion of an MMA, and the integer block. -/
theorem matrixEngineResults : Obligations.MatrixEngineResults := by
  unfold Obligations.MatrixEngineResults
  refine ⟨?_, ?_, fun m acc fa fb xs ys hm => accBlock_int hm acc fa fb xs ys⟩
  · intro h t d dv c r w o fa fb a x s v hi mma cap sw m kb scales
    refine ⟨fun ho => ⟨fun he => ?_, fun he hs hc hr ha hov => ?_⟩, ?_, fun ho => ⟨mtblsw_exchanges hi ho, baton_held hi ho,
      baton_elsewhere hi ho⟩, baton_tests hi⟩
    · rw [mma_ready hi ho, mmaIssue_partial he]
      rfl
    · intro full ranged
      have hrun : exec mma s = .next (flush (conclude h v (mmaWaits v d m scales))) := by
        rw [mma_ready hi ho, mmaIssue_checked he hs hc hr ha hov]
        rfl
      rw [hrun]
      refine ⟨fun hrg => ?_, fun hrg hb => ?_, fun hrg hb hf => ?_, fun hrg hb hf hp => ?_⟩
      · rw [mmaWaits_ranged ((mmaRanges_iff v m).2 hrg)]
        rfl
      · rw [mmaWaits_baton (mt (mmaRanges_iff v m).1 hrg) hb]
        rfl
      · rw [mmaWaits_outstanding (mt (mmaRanges_iff v m).1 hrg) hb hf]
        rfl
      · rw [mmaWaits_starts (mt (mmaRanges_iff v m).1 hrg) hb hf hp]
        exact ⟨_, _, rfl, starts_mmaStarted v d m, rfl⟩
    · intro ho q k hz hf hb
      obtain ⟨hsel, hkept, hfilled⟩ := filledTable_banks v.b.act (execOf h v.g) k (q.2.headD zeroRow)
      refine ⟨_, mtbl_fills hi ho hz hf hb, hsel, hkept, fun l hl hm => ?_, fun j hj => ?_⟩
      · exact (congrArg (tget · _) hfilled).trans (tget_foldl_tput_mem _ _ _ ((mem_laneList _ _).2 ⟨hl, hm⟩))
      · refine (congrArg (tget · j) hfilled).trans (tget_foldl_tput_ne _ _ _ fun l hl => ?_)
        obtain ⟨hl, hm⟩ := (mem_laneList _ _).1 hl
        exact hj l hl hm
  · intro s id o m v b ho hb hf hv hsb hc mem acc W rb y scale draw byte out
    have hst : v.st = s := (viewAt_eq_some.1 hv).1
    refine ⟨mmaFound_fresh hsb, fun i a hw hg => ?_, ?_⟩
    · exact ⟨_, _, (mmaComplete_element ho hb hv i).trans (congrArg _ (mmaEvent_reads hst hc hw hg)), tget_putGot ho _, rfl,
        fun k hk => tget_wordRead hsb a hk⟩
    · obtain ⟨hfin, u, hu, hacc⟩ := finishMma_group ho hv hc (m := m)
      obtain ⟨b', hb', hs'⟩ := finishMma_scratch (id := id) (m := m) ho hv hsb hc
      refine ⟨_, u, b', mmaComplete_ends ho hb hv hf, hfin, hu, hb', hacc, fun hr => ?_, fun hr hw => ?_⟩
      · rw [hs', mmaPuts_noOutput v o hr]
        rfl
      · have hbytes : b'.scratch = bputs b.scratch m.ooff (outBytes v m mem) := by
          rw [hs', mmaPuts_output v hc hr hw, putBytes_bytesFrom, hst]
        rw [hbytes]
        exact ⟨fun i hi => bgets_outBytes_row v m mem _ hi, fun hs i hi k hk => bget_outBytes_scale v m mem _ hs hi hk,
          fun a ha => bget_outBytes_outside v m mem _ ha⟩

end Sys2Proof.Machine
end

section
/-! The mailbox (R389 to R392): a doorbell, what each command does when it runs, and the statement MailboxResults. -/
namespace Sys2Proof.Machine
open Sys2Proof

/-! ### A doorbell (R389) -/

section
variable {s : State} {f : Nat}

/-- A function that the host link exposes and that is not busy has its doorbell accepted, whatever the command. -/
theorem mailbox_accepts (he : exposed s f = true) (hb : (fnOf s f).mb.busy = false) (c : MbCmd) (phys recov : Bool) (run : State → MbRes) :
    mailbox s f c phys recov run = .next (setFn s f { fnOf s f with mb := { (fnOf s f).mb with
      busy := true, mbcmd := w64 (cmdCode c), cmd := some c, turn := nextTurn s, begun := false } }) := by
  simp [mailbox, he, hb, ring, setMb]

theorem doorbellWhileBusy_counts (he : exposed s f = true) (hb : (fnOf s f).mb.busy = true) :
    exec (.doorbellWhileBusy f) s =
      .next (setFn s f { fnOf s f with mb := { (fnOf s f).mb with missed := (fnOf s f).mb.missed + 1 } }) := by
  have hx : exec (.doorbellWhileBusy f) s = execDoorbellWhileBusy f s := rfl
  simp [hx, execDoorbellWhileBusy, he, hb, setMb]

theorem mbstatDoneClear_clears (he : exposed s f = true) :
    exec (.mbstatDoneClear f) s = .next (setFn s f { fnOf s f with mb := { (fnOf s f).mb with done := false } }) := by
  have hx : exec (.mbstatDoneClear f) s = execMbstatDoneClear f s := rfl
  simp [hx, execMbstatDoneClear, he, setMb]

end

/-! ### A command that runs (R391) -/

/-- Command `c` of function `f` rang, every earlier doorbell has begun, the function's host writes are applied, and the device is not in recovery
mode. -/
structure Runs (s : State) (f : Nat) (c : MbCmd) : Prop where
  shown  : exposed s f = true
  busy   : (fnOf s f).mb.busy = true
  turn   : hasTurn s (fnOf s f).mb = true
  writes : (fnOf s f).writes = []
  normal : s.mgmt.recovery = false
  cmd    : (fnOf s f).mb.cmd = some c

/-- The state in which the command of function `f` has begun. -/
def begun (s : State) (f : Nat) : State := setMb s f { (fnOf s f).mb with begun := true }

/-- The mailbox once its command has ended. -/
def mbEnded (m : Mailbox) (st : W16) (resp : List W8) : Mailbox :=
  { m with busy := false, done := true, status := st, resp := resp, cmd := none, begun := false }

/-- Event `i` ends the command of function `f` with status `st`, in a state and with a response that satisfy `P`. -/
def Answers (s : State) (i : Instr) (f : Nat) (st : W16) (P : State → List W8 → Prop) : Prop :=
  ∃ t resp, exec i s = .next t ∧ P t resp ∧ (fnOf t f).mb = mbEnded (fnOf s f).mb st resp

section
variable {s t : State} {f : Nat} {c : MbCmd} {i : Instr} {phys recov : Bool} {run : State → MbRes} {st : W16} {resp : List W8}
  {P : State → List W8 → Prop}

@[simp] theorem fnOf_begun (s : State) (f : Nat) : fnOf (begun s f) f = { fnOf s f with mb := { (fnOf s f).mb with begun := true } } := by
  simp [begun, setMb]

theorem mb_begun (s : State) (f : Nat) : (fnOf (begun s f) f).mb = { (fnOf s f).mb with begun := true } := by simp

theorem mb_setFn {x : Fn} {m : Mailbox} (h : x.mb = m) : (fnOf (setFn s f x) f).mb = m := by rw [fnOf_setFn_same, h]

@[simp] theorem fnOf_answer (t : State) (f : Nat) (st : W16) (resp : List W8) :
    fnOf (answer t f st resp) f = { fnOf t f with mb := mbEnded (fnOf t f).mb st resp } := by
  simp [answer, setMb, mbEnded]

theorem fnOf_setFn_ne (s : State) {f a : Nat} (h : a ≠ f) (x : Fn) : fnOf (setFn s f x) a = fnOf s a := by simp [fnOf, tgetD_tput_ne, h]

theorem fnOf_answer_ne (t : State) {f a : Nat} (h : a ≠ f) (st : W16) (resp : List W8) : fnOf (answer t f st resp) a = fnOf t a :=
  fnOf_setFn_ne t h _

theorem fnOf_begun_ne (s : State) {f a : Nat} (h : a ≠ f) : fnOf (begun s f) a = fnOf s a := fnOf_setFn_ne s h _

/-- In its turn a command that the function may use does its work, and the answer follows. -/
theorem mailbox_runs (h : Runs s f c) (hp : phys = true → f = 0) (hr : run (begun s f) = .done t st resp) :
    mailbox s f c phys recov run = .next (answer t f st resp) := by
  have hd : denied s f phys recov = false := by
    cases phys with
    | false => simp [denied, h.normal]
    | true => simp [denied, h.normal, hp rfl]
  simp only [begun, h.busy, h.cmd] at hr
  simp only [mailbox, h.shown, h.busy, h.cmd, h.turn, h.writes, hd, hr, List.isEmpty_nil, Bool.not_true, Bool.false_eq_true, if_false,
    Bool.or_self, ne_eq, not_true_eq_false, decide_false]

theorem answers_of_run (hx : exec i s = mailbox s f c phys recov run) (h : Runs s f c) (hp : phys = true → f = 0)
    (hr : run (begun s f) = .done t st resp) (hm : (fnOf t f).mb = { (fnOf s f).mb with begun := true })
    (hP : P (answer t f st resp) resp) : Answers s i f st P :=
  ⟨_, resp, hx.trans (mailbox_runs h hp hr), hP, by rw [fnOf_answer, hm]; rfl⟩

/-- A virtual function is refused the physical one's commands (R390). -/
theorem answers_denied (hx : exec i s = mailbox s f c true recov run) (h : Runs s f c) (hf : f ≠ 0) :
    Answers s i f 3 (fun t _ => t.parts = s.parts) := by
  have hd : denied s f true recov = true := by simp [denied, hf]
  refine ⟨answer s f 3 [], [], hx.trans ?_, rfl, by rw [fnOf_answer]⟩
  simp only [mailbox, h.shown, h.busy, h.cmd, h.turn, h.writes, hd, List.isEmpty_nil, Bool.not_true, Bool.false_eq_true, if_false, if_true,
    Bool.or_self, ne_eq, not_true_eq_false, decide_false]

end

/-! ### Words and bytes of a response -/

theorem wordBytes_cons (w : W64) (ws : List W64) : wordBytes (w :: ws) = leBytes 8 w.toNat ++ wordBytes ws := by
  simp only [wordBytes, ← List.flatMap_eq_foldl, List.flatMap_cons]

@[simp] theorem wordBytes_length (ws : List W64) : (wordBytes ws).length = 8 * ws.length := by
  induction ws with
  | nil => rfl
  | cons w ws ih =>
    rw [wordBytes_cons, List.length_append, leBytes_length, ih, List.length_cons]
    omega

@[simp] theorem digestBytes_length (d : BitVec 384) : (digestBytes d).length = 48 := by
  rw [digestBytes, List.length_map, List.length_range]

/-- The second word of a response. -/
theorem leNat_wordBytes_second (a b : W64) (ws : List W64) : leNat (((wordBytes (a :: b :: ws)).drop 8).take 8) = b.toNat := by
  rw [wordBytes_cons, wordBytes_cons, List.drop_left' (leBytes_length ..), List.take_left' (leBytes_length ..), leNat_leBytes]
  exact Nat.mod_eq_of_lt b.isLt

/-! ### Commands of the device (R385, R386, R390 to R392) -/

section
variable {s : State} {f : Nat}

theorem status_answers (h : Runs s f .status) :
    Answers s (.status f) f 0 (fun t resp => t.mgmt = s.mgmt ∧ leNat ((resp.drop 8).take 8) = activeSvn s.mgmt % 2 ^ 64) :=
  have hx : exec (.status f) s = execStatus f s := rfl
  answers_of_run hx h (by simp) rfl (mb_begun s f)
    ⟨rfl, (leNat_wordBytes_second _ _ _).trans (BitVec.toNat_ofNat _ _)⟩

/-- A command that the table does not hold receives status 2 (R390). -/
theorem unknown_answered {code : Nat} (h : Runs s f (.unknown code)) :
    ∃ t, execUnknown f code s = .next t ∧ (fnOf t f).mb.busy = false ∧ (fnOf t f).mb.done = true ∧
      (fnOf t f).mb.status = 2 ∧ t.parts = s.parts := by
  refine ⟨_, mailbox_runs (t := begun s f) h (by simp) rfl, ?_⟩
  rw [fnOf_answer]
  exact ⟨rfl, rfl, rfl, rfl⟩

/-- The management state with an image in the bank that is not in use, for the next reset. -/
def banked (m : Mgmt) (x : FwImage) : Mgmt :=
  if m.active then { m with bank0 := some x, useNext := true } else { m with bank1 := some x, useNext := true }

theorem banked_useNext (m : Mgmt) (x : FwImage) : (banked m x).useNext = true := by
  unfold banked
  split <;> rfl

theorem banked_bank (m : Mgmt) (x : FwImage) : (if m.active then (banked m x).bank0 else (banked m x).bank1) = some x := by
  unfold banked
  split <;> rfl

/-- FWLOAD keeps a verified image in the bank that is not in use, for the next reset; another is refused (R385). -/
theorem fwload_answered {x : FwImage} {r : CfgRecord} (h : Runs s 0 (.fwload x)) (hr : s.mgmt.record = some r) :
    ∃ t, exec (.fwload 0 x) s = .next t ∧ (fnOf t 0).mb.busy = false ∧ (fnOf t 0).mb.done = true ∧
      if firmwareOK r x then (fnOf t 0).mb.status = 0 ∧ t.mgmt.useNext = true ∧
        (if s.mgmt.active then t.mgmt.bank0 else t.mgmt.bank1) = some x
      else (fnOf t 0).mb.status = 4 ∧ t.mgmt = s.mgmt := by
  have hx : exec (.fwload 0 x) s = execFwload 0 x s := rfl
  have hrec : (begun s 0).mgmt.record = some r := hr
  by_cases hok : firmwareOK r x = true
  · refine ⟨_, hx.trans (mailbox_runs (t := setMgmt (begun s 0) (banked s.mgmt x)) (st := 0) (resp := []) h (fun _ => rfl) ?_), ?_⟩
    · simp only [hrec, hok, if_true]
      rw [← hr]
      rfl
    · rw [fnOf_answer, if_pos hok]
      exact ⟨rfl, rfl, rfl, banked_useNext s.mgmt x, banked_bank s.mgmt x⟩
  · refine ⟨_, hx.trans (mailbox_runs (t := begun s 0) (st := 4) (resp := []) h (fun _ => rfl) ?_), ?_⟩
    · simp only [hrec, hok]
      rfl
    · rw [fnOf_answer, if_neg hok]
      exact ⟨rfl, rfl, rfl, rfl⟩

theorem cfgwrite_answers {x : CfgRecord} (h : Runs s 0 (.cfgwrite x)) :
    Answers s (.cfgwrite 0 x) 0 0 (fun t _ => t.mgmt = { s.mgmt with next := some x }) :=
  have hx : exec (.cfgwrite 0 x) s = execCfgwrite 0 x s := rfl
  answers_of_run hx h (fun _ => rfl) rfl (mb_begun s 0) rfl

/-- ATTEST reports its nonce and the measurements (R392). -/
theorem attest_answers {x : List W64} (h : Runs s f (.attest x)) (hl : x.length = 4) :
    Answers s (.attest f x) f 0 (fun t resp => t.mgmt = s.mgmt ∧ resp.take 32 = wordBytes x ∧ cut resp 48 48 = digestBytes s.mgmt.m0) := by
  have hx : exec (.attest f x) s = execAttest f x s := rfl
  have hn : (wordBytes x).length = 32 := by rw [wordBytes_length, hl]
  refine answers_of_run (t := begun s f) (st := 0)
    (resp := report s.mgmt x ++ Config.sign ((s.mgmt.record.map recSerial).getD 0) (Config.sha384 (report s.mgmt x))) hx h (by simp) ?_ (mb_begun s f)
    ⟨rfl, ?_, ?_⟩
  · rw [if_neg (not_not_intro hl)]
    rfl
  · simp only [report, List.append_assoc]
    exact List.take_left' hn
  · simp only [report, List.append_assoc, cut]
    rw [← List.append_assoc, List.drop_left' (by rw [List.length_append, hn, leBytes_length]), List.take_left' (digestBytes_length _)]

theorem bar2base_answers {b : Nat} (h : Runs s f (.bar2base b)) : Answers s (.bar2base f b) f 0 (fun t _ => (fnOf t f).bar2 = b) :=
  have hx : exec (.bar2base f b) s = execBar2base f b s := rfl
  answers_of_run (t := setFn (begun s f) f { fnOf (begun s f) f with bar2 := b }) (st := 0) (resp := []) hx h (by simp) rfl (by simp) (by simp)

/-- SYNCSUM of a later page returns the next part of the snapshot (R391). -/
theorem syncsum_answers_next {k : Nat} (h : Runs s f (.syncsum k)) (hk : k ≠ 0) :
    Answers s (.syncsum f k) f 0
      (fun t resp => resp = wordBytes ((fnOf s f).snap.take 480) ∧ (fnOf t f).snap = (fnOf s f).snap.drop 480) := by
  have hx : exec (.syncsum f k) s = execSyncsum f k s := rfl
  refine answers_of_run (t := setFn (begun s f) f { fnOf (begun s f) f with snap := (fnOf s f).snap.drop 480 }) (st := 0)
    (resp := wordBytes ((fnOf s f).snap.take 480)) hx h (by simp) ?_ (by simp) ⟨rfl, by simp⟩
  simp only [if_neg hk, fnOf_begun]

/-- SYNCSUM of the first page takes a snapshot and returns at most 3,840 bytes of it (R391). -/
theorem syncsum_answers_first (h : Runs s f (.syncsum 0)) :
    Answers s (.syncsum f 0) f 0 (fun t resp => resp.length ≤ 3840 ∧ t.blocks = s.blocks ∧ t.parts = s.parts) := by
  have hx : exec (.syncsum f 0) s = execSyncsum f 0 s := rfl
  refine answers_of_run hx h (by simp) rfl (mb_setFn (mb_begun s f)) ⟨?_, rfl, rfl⟩
  rw [wordBytes_length, List.length_take]
  omega

end

/-! ### Partitions and functions (R348, R351, R377, R390) -/

section
variable {s : State} {f : Nat}

theorem partset_answers {part : Nat} {rs : List (Nat × W64)} {p : Part} (h : Runs s 0 (.partset part rs)) (hp : part < 16)
    (hb : putBudgets (partOf s part) rs = some p) : Answers s (.partset 0 part rs) 0 0 (fun t _ => partOf t part = p) := by
  have hx : exec (.partset 0 part rs) s = execPartset 0 part rs s := rfl
  have hb' : putBudgets (partOf (begun s 0) part) rs = some p := hb
  refine answers_of_run (t := setPart (begun s 0) part p) (st := 0) (resp := []) hx h (fun _ => rfl) ?_ (mb_begun s 0) (tgetD_tput_same _ _ _ _)
  simp only [if_neg (Nat.not_le.2 hp), hb']

theorem partset_refuses {part : Nat} {rs : List (Nat × W64)} (h : Runs s 0 (.partset part rs)) (hp : part < 16)
    (hb : putBudgets (partOf s part) rs = none) : Answers s (.partset 0 part rs) 0 2 (fun t _ => t.parts = s.parts) := by
  have hx : exec (.partset 0 part rs) s = execPartset 0 part rs s := rfl
  have hb' : putBudgets (partOf (begun s 0) part) rs = none := hb
  refine answers_of_run (t := begun s 0) (st := 2) (resp := []) hx h (fun _ => rfl) ?_ (mb_begun s 0) rfl
  simp only [if_neg (Nat.not_le.2 hp), hb']

theorem bindfn_answers {a part : Nat} (h : Runs s 0 (.bindfn a part)) (hp : thas s.parts part = true) (he : exposed s a = true) :
    Answers s (.bindfn 0 a part) 0 0 (fun t _ => (fnOf t a).part = some part) := by
  have hx : exec (.bindfn 0 a part) s = execBindfn 0 a part s := rfl
  have hp' : thas (begun s 0).parts part = true := hp
  have he' : exposed (begun s 0) a = true := he
  refine answers_of_run (t := setFn (begun s 0) a { fnOf (begun s 0) a with part := some part }) (st := 0) (resp := []) hx h (fun _ => rfl) ?_ ?_ ?_
  · simp only [hp', he', Bool.not_true, Bool.false_eq_true, or_self, if_false]
  · by_cases ha : a = 0
    · subst ha
      simp
    · rw [fnOf_setFn_ne _ (Ne.symm ha), fnOf_begun]
  · by_cases ha : a = 0
    · subst ha
      simp
    · rw [fnOf_answer_ne _ ha, fnOf_setFn_same]

/-- A function after RESETFN (R351; log 15). -/
def fnReset (x : Fn) : Fn :=
  { x with gen := x.gen + 1, held := [], stale := x.stale + x.held.length + x.dropped, dropped := 0, mb := Mailbox.init, bar2 := 0,
           snap := [], writes := [], reads := [], rdata := [] }

/-- RESETFN raises the generation, counts what was held as stale, and clears the mailbox and the registers (R351; log 15). -/
theorem resetfn_answered {a : Nat} (h : Runs s 0 (.resetfn a)) (he : exposed s a = true) :
    ∃ t, exec (.resetfn 0 a) s = .next t ∧ (fnOf t 0).mb.busy = false ∧ (fnOf t 0).mb.done = true ∧ (fnOf t 0).mb.status = 0 ∧
      (fnOf t a).gen = (fnOf s a).gen + 1 ∧ (fnOf t a).held = [] ∧ (fnOf t a).bar2 = 0 ∧
      (fnOf t a).stale = (fnOf s a).stale + (fnOf s a).held.length + (fnOf s a).dropped ∧ (fnOf t a).part = (fnOf s a).part ∧
      (a ≠ 0 → (fnOf t a).mb = Mailbox.init) := by
  have hx : exec (.resetfn 0 a) s = execResetfn 0 a s := rfl
  have he' : exposed (begun s 0) a = true := he
  refine ⟨_, hx.trans (mailbox_runs (t := setFn (begun s 0) a (fnReset (fnOf (begun s 0) a))) (st := 0) (resp := []) h (fun _ => rfl) ?_), ?_⟩
  · simp only [he', Bool.not_true, Bool.false_eq_true, if_false]
    rfl
  · by_cases ha : a = 0
    · subst ha
      simp [fnReset, mbEnded]
    · rw [fnOf_answer, fnOf_answer_ne _ ha, fnOf_setFn_same]
      simp [fnReset, fnOf_begun_ne s ha, mbEnded, ha]

/-- EVRING sets the ring and starts it at its beginning; with nothing held, nothing is delivered (R351). -/
theorem evring_answers {p a n : Nat} (h : Runs s f (.evring a n)) (hp : (fnOf s f).part = some p) (hn : n ≠ 0) (hm : n % 32 = 0)
    (hr : inReach s p a (a + n) = true) (hh : (fnOf s f).held = []) (hd : (fnOf s f).dropped = 0) :
    Answers s (.evring f a n) f 0 (fun t _ => (fnOf t f).ring = some (a, n) ∧ (fnOf t f).ptr = 0) := by
  have hx : exec (.evring f a n) s = execEvring f a n s := rfl
  have hr' : inReach (begun s f) p a (a + n) = true := hr
  let x : Fn := { fnOf (begun s f) f with ring := some (a, n), ptr := 0 }
  refine answers_of_run (t := setFn (begun s f) f x) (st := 0) (resp := []) hx h (by simp) ?_ (by simp [x]) (by simp [x])
  have hdel : deliverAll (setFn (begun s f) f x) f = setFn (begun s f) f x := deliverEvents_none 300 (by simp [x, hh]) (by simp [x, hd])
  have hpart : (fnOf (begun s f) f).part = some p := by rw [fnOf_begun]; exact hp
  simp only [hpart, hn, hm, hr', Bool.not_true, Bool.false_eq_true, ne_eq, not_true_eq_false, or_self, if_false]
  rw [← hpart]
  exact congrArg (MbRes.done · 0 []) hdel

end

/-! ### Images and graphs (R71, R72, R284, R388, R390) -/

/-- Image `im` stands loaded at the address, and its header there is unchanged. -/
structure Loaded (s : State) (part addr id : Nat) (im : Image) : Prop where
  found  : findImage s part addr = some (id, im)
  kept   : tget s.images id = some im
  good   : im.status = 0
  header : cpRead s part addr 32 = .done im.head

section
variable {s : State} {f p part addr id : Nat} {im : Image}

/-- A command that has begun reads memory as before. -/
theorem cpRead_begun {n : Nat} {bs : List W8} (f : Nat) (h : cpRead s part addr n = .done bs) : cpRead (begun s f) part addr n = .done bs := by
  have hreach : inReach (begun s f) part addr (addr + n) = inReach s part addr (addr + n) := rfl
  simp only [cpRead, hreach] at h ⊢
  split
  · next h0 => rwa [if_pos h0] at h
  · next h0 =>
    rw [if_neg h0] at h
    split at h
    · next hin =>
      rw [if_pos hin]
      exact devLoad_congr (s := s) (t := begun s f) rfl rfl rfl rfl rfl h
    · cases h

theorem Loaded.begun (h : Loaded s part addr id im) (f : Nat) : Loaded (begun s f) part addr id im where
  found := h.found
  kept := h.kept
  good := h.good
  header := cpRead_begun f h.header

/-- Loading it again takes the outcome of its first load (R59, R71). -/
theorem Loaded.loadImage (h : Loaded s part addr id im) (again : Bool) : loadImage s part addr again = .done s id 0 0 := by
  simp only [Machine.loadImage, h.found, h.header, h.good]
  rfl

/-- M3 takes a loaded image (R388). -/
theorem measureImage_kept (h : tget s.images id = some im) :
    measureImage s id = setMgmt s { s.mgmt with m3 := extend s.mgmt.m3 (im.head ++ wordBytes (im.versions.headD [])) } := by
  simp only [measureImage, h]

/-- HANDLER of a loaded image keeps it as the partition's handler image and extends M3 with it (R377, R388). -/
theorem handler_answers {xs : List W64} {cs : List (BitVec 128)} (h : Runs s 0 (.handler part addr xs cs)) (hp : thas s.parts part = true)
    (hl : Loaded s part addr id im) :
    Answers s (.handler 0 part addr xs cs) 0 0 (fun t _ =>
      (∃ hi, (partOf t part).himage = some hi ∧ hi.image = id ∧ hi.args = xs.take 16) ∧
        t.mgmt.m3 = extend s.mgmt.m3 (im.head ++ wordBytes (im.versions.headD []))) := by
  have hx : exec (.handler 0 part addr xs cs) s = execHandler 0 part addr xs cs s := rfl
  have hp' : thas (begun s 0).parts part = true := hp
  let r := dropHandlers (measureImage (begun s 0) id) part
  let hi : HImage := { image := id, args := xs.take 16, caps := (cs.take 8).map (capArg r part) }
  have hr : r.fns = (begun s 0).fns ∧ r.mgmt.m3 = extend s.mgmt.m3 (im.head ++ wordBytes (im.versions.headD [])) := by
    simp only [r, measureImage_kept (hl.begun 0).kept]
    exact ⟨rfl, rfl⟩
  refine answers_of_run (t := setPart r part { partOf r part with himage := some hi }) (st := 0) (resp := wordBytes [0, 0]) hx h (fun _ => rfl) ?_ ?_
    ⟨⟨hi, congrArg Part.himage (tgetD_tput_same _ _ _ _), rfl, rfl⟩, hr.2⟩
  · simp only [hp', (hl.begun 0).loadImage]
    rfl
  · have hfn : fnOf (setPart r part { partOf r part with himage := some hi }) 0 = fnOf (begun s 0) 0 := fnOf_congr hr.1 0
    rw [hfn, fnOf_begun]

/-- LOADIMG of a loaded image answers its status, 0, and extends M3 with it (R72, R388). -/
theorem loadimg_answers (h : Runs s f (.loadimg addr)) (hp : (fnOf s f).part = some p) (hl : Loaded s p addr id im) :
    Answers s (.loadimg f addr) f 0 (fun t resp => resp = wordBytes [0, 0] ∧
      t.mgmt.m3 = extend s.mgmt.m3 (im.head ++ wordBytes (im.versions.headD []))) := by
  have hx : exec (.loadimg f addr) s = execLoadimg f addr s := rfl
  have hm := measureImage_kept (hl.begun f).kept
  refine answers_of_run (t := measureImage (begun s f) id) (st := 0) (resp := wordBytes [0, 0]) hx h (by simp) ?_ ?_ ⟨rfl, ?_⟩
  · simp only [fnOf_begun, hp, (hl.begun f).loadImage]
    rfl
  · rw [hm]
    exact mb_begun s f
  · rw [hm]
    rfl

/-- GRAPHSTART starts a graph of the function at the address (R284). -/
theorem graphstart_answers {a : Nat} (h : Runs s f (.graphstart a)) (hp : (fnOf s f).part = some p) :
    Answers s (.graphstart f a) f 0 (fun t _ => ∃ g, tget t.graphs s.nextGr = some g ∧ g.base = a ∧ g.fn = f ∧ g.part = p ∧ g.level = 0 ∧
      g.started = s.clock ∧ g.done = none) := by
  have hx : exec (.graphstart f a) s = execGraphstart f a s := rfl
  let t : State := { begun s f with graphs := tput s.graphs s.nextGr (newGraph p f a 0 s.clock), nextGr := s.nextGr + 1 }
  have ht : fnOf t f = fnOf (begun s f) f := rfl
  refine answers_of_run (t := setFn t f { fnOf t f with graph := s.nextGr }) (st := 0) (resp := []) hx h (by simp) ?_ (by simp [ht])
    ⟨_, tget_tput_same _ _ _, rfl, rfl, rfl, rfl, rfl, rfl⟩
  simp only [fnOf_begun, hp]
  rfl

end

/-! ### The wait table (R275, R276) -/

section
variable {s : State} {f p tok : Nat} {w : WaitName} {e : WaitEnt}

theorem liveEntry_begun (s : State) (f p : Nat) (w : WaitName) : liveEntry (begun s f) p w = liveEntry s p w := by cases w <;> rfl

theorem walk_begun (s : State) (f p vpn : Nat) : walk (begun s f) p vpn = walk s p vpn := walk_eq rfl rfl p vpn

/-- A removed entry is in its partition's table no longer. -/
theorem tget_wait_removeEntry (s : State) (p tok : Nat) : tget (partOf (removeEntry s p tok) p).wait tok = none := by
  rw [removeEntry, partOf, setPart_parts, tgetD_tput_same]
  exact tget_tdel_same _ _

theorem endRequests_noOps {span : Nat × Nat} {st : W16} (h : s.ops = []) : endRequests s p span st = s := by
  rw [endRequests, h]
  rfl

theorem endWrites_noOps {span bad : Nat × Nat} (h : s.ops = []) : endWrites s p span bad = s := by
  rw [endWrites, h]
  rfl

/-- The page of an entry lies in its span. -/
theorem entrySpan_covers (e : WaitEnt) : (entrySpan e).1 ≤ e.vpn * 65536 ∧ e.vpn * 65536 < (entrySpan e).2 := by
  refine ⟨Nat.le_refl _, ?_⟩
  simp only [entrySpan]
  split <;> omega

/-- The only outstanding operation, a PAGEREQ that waits on the entry's page, ends. -/
theorem endRequests_waiting {id : Nat} {o : Op} {vs : List Nat} {st : W16} (ho : s.ops = [(id, o)]) (hb : o.body = .pages vs)
    (hp : partOfBlk s o.blk = p) (hv : e.vpn ∈ vs) : endRequests s p (entrySpan e) st = finishOp s id st := by
  have hany : vs.any (fun v => decide ((entrySpan e).1 ≤ v * 65536) && decide (v * 65536 < (entrySpan e).2)) = true := by
    obtain ⟨h1, h2⟩ := entrySpan_covers e
    exact List.any_eq_true.2 ⟨e.vpn, hv, by simp [h1, h2]⟩
  rw [endRequests, ho, List.foldl_cons, List.foldl_nil]
  simp only [hb, hp, hany, and_self, if_true]

theorem replay_answers_unknown (h : Runs s f (.replay w)) (hp : (fnOf s f).part = some p) (hl : liveEntry s p w = none) :
    Answers s (.replay f w) f 1 (fun t _ => t.parts = s.parts) := by
  have hx : exec (.replay f w) s = execReplay f w s := rfl
  refine answers_of_run (t := begun s f) (st := 1) (resp := []) hx h (by simp) ?_ (mb_begun s f) rfl
  simp only [fnOf_begun, hp, liveEntry_begun, hl]

theorem fltcancel_answers_unknown (h : Runs s f (.fltcancel w)) (hp : (fnOf s f).part = some p) (hl : liveEntry s p w = none) :
    Answers s (.fltcancel f w) f 1 (fun t _ => t.parts = s.parts) := by
  have hx : exec (.fltcancel f w) s = execFltcancel f w s := rfl
  refine answers_of_run (t := begun s f) (st := 1) (resp := []) hx h (by simp) ?_ (mb_begun s f) rfl
  simp only [fnOf_begun, hp, liveEntry_begun, hl]

/-- REPLAY of an entry that waits for none changes nothing. -/
theorem replay_answers_idle (h : Runs s f (.replay w)) (hp : (fnOf s f).part = some p) (hl : liveEntry s p w = some (tok, e))
    (he : e.state ≠ .replay) : Answers s (.replay f w) f 0 (fun t _ => t.parts = s.parts) := by
  have hx : exec (.replay f w) s = execReplay f w s := rfl
  refine answers_of_run (t := begun s f) (st := 0) (resp := []) hx h (by simp) ?_ (mb_begun s f) rfl
  simp only [fnOf_begun, hp, liveEntry_begun, hl, if_pos he]

/-- REPLAY of a page that is mapped has it fetched again (R275). -/
theorem replay_answers_mapped {l : Leaf} (h : Runs s f (.replay w)) (hp : (fnOf s f).part = some p) (hl : liveEntry s p w = some (tok, e))
    (he : e.state = .replay) (hw : walk s p e.vpn = .ok l) :
    Answers s (.replay f w) f 0 (fun t _ => tget (partOf t p).wait tok = some { e with state := .fetching }) := by
  have hx : exec (.replay f w) s = execReplay f w s := rfl
  let x := partOf s p
  refine answers_of_run
    (t := setPart (begun s f) p { x with wait := tput x.wait tok { e with state := .fetching }, faultq := x.faultq.filter (fun y => y.2 != tok) })
    (st := 0) (resp := []) hx h (by simp) ?_ (mb_begun s f) ?_
  · simp only [fnOf_begun, hp, liveEntry_begun, hl, if_neg (not_not_intro he), walk_begun, hw]
    rfl
  · exact (congrArg (fun y : Part => tget y.wait tok) (tgetD_tput_same _ _ _ _)).trans (tget_tput_same _ _ _)

/-- FLTCANCEL ends the PAGEREQs and the writes that wait on the entry, and removes it (R276). -/
theorem fltcancel_run (h : Runs s f (.fltcancel w)) (hp : (fnOf s f).part = some p) (hl : liveEntry s p w = some (tok, e)) {t : State}
    (ht : endWrites (endRequests (removeEntry (begun s f) p tok) p (entrySpan e) 0x0103) p (entrySpan e) (5, 6) = t)
    (hm : t.fns = (begun s f).fns) {P : State → List W8 → Prop} (hP : P (answer t f 0 []) []) : Answers s (.fltcancel f w) f 0 P := by
  have hx : exec (.fltcancel f w) s = execFltcancel f w s := rfl
  refine answers_of_run (t := t) (st := 0) (resp := []) hx h (by simp) ?_ (by rw [fnOf_congr hm, fnOf_begun]) hP
  simp only [fnOf_begun, hp, liveEntry_begun, hl, ht]

theorem fltcancel_answers_noOps (h : Runs s f (.fltcancel w)) (hp : (fnOf s f).part = some p) (hl : liveEntry s p w = some (tok, e))
    (ho : s.ops = []) : Answers s (.fltcancel f w) f 0 (fun t _ => tget (partOf t p).wait tok = none) := by
  have hops : (removeEntry (begun s f) p tok).ops = [] := ho
  exact fltcancel_run (t := removeEntry (begun s f) p tok) h hp hl (by rw [endRequests_noOps hops, endWrites_noOps hops]) rfl
    (tget_wait_removeEntry (begun s f) p tok)

/-- The one PAGEREQ that waited has finished: the entry is gone and faults are as they were. -/
theorem pagesEnded_spec {id : Nat} {o : Op} (ho : s.ops = [(id, o)]) (st : W16) :
    let t := finishOp (removeEntry (begun s f) p tok) id st
    t.ops = [] ∧ t.fns = (begun s f).fns ∧ tget (partOf t p).wait tok = none ∧ Finishes s t id st ∧
      ∀ u b, tget s.blocks u = some b → ∃ b', tget t.blocks u = some b' ∧ b'.fault = b.fault := by
  intro t
  have hget : tget s.ops id = some o := by rw [ho]; exact if_pos rfl
  have hr : tget (removeEntry (begun s f) p tok).ops id = some o := hget
  obtain ⟨hops, hparts, hother, hown⟩ := finishOp_blocks hr st
  obtain ⟨bs, hfin⟩ := finishOp_eq hr st 0 [] 0 0 []
  refine ⟨?_, ?_, ?_, finishes_of_keeps (t := removeEntry (begun s f) p tok) hget ⟨rfl, rfl⟩ st 0 [] 0 0 [], fun u b hb => ?_⟩
  · rw [hops]
    show tdel s.ops id = []
    rw [ho]
    simp [tdel]
  · exact (congrArg State.fns hfin).trans rfl
  · rw [partOf, hparts]
    exact tget_wait_removeEntry _ _ _
  · by_cases hu : u = o.blk
    · subst hu
      obtain ⟨gs, l, hb', -⟩ := hown b hb
      exact ⟨_, hb', rfl⟩
    · exact ⟨b, (hother u hu).trans hb, rfl⟩

theorem fltcancel_answers_waiting {id : Nat} {o : Op} {vs : List Nat} (h : Runs s f (.fltcancel w)) (hp : (fnOf s f).part = some p)
    (hl : liveEntry s p w = some (tok, e)) (ho : s.ops = [(id, o)]) (hb : o.body = .pages vs) (hblk : partOfBlk s o.blk = p) (hv : e.vpn ∈ vs) :
    Answers s (.fltcancel f w) f 0 (fun t _ => tget (partOf t p).wait tok = none ∧ Finishes s t id 0x0103) := by
  obtain ⟨hops, hfns, hgone, hfin, -⟩ := pagesEnded_spec (f := f) (p := p) (tok := tok) ho 0x0103
  refine fltcancel_run h hp hl ?_ hfns ⟨hgone, hfin.gone, hfin.handles⟩
  rw [endRequests_waiting (s := removeEntry (begun s f) p tok) ho hb hblk hv, endWrites_noOps hops]

/-- REPLAY of a page made invalid ends the PAGEREQ that waits on it, without a fault (R275, R276). -/
theorem replay_answers_invalid {id : Nat} {o : Op} {vs : List Nat} {x : Nat} (h : Runs s f (.replay w)) (hp : (fnOf s f).part = some p)
    (hl : liveEntry s p w = some (tok, e)) (ho : s.ops = [(id, o)]) (hb : o.body = .pages vs) (hblk : partOfBlk s o.blk = p) (hv : e.vpn ∈ vs)
    (he : e.state = .replay) (hw : walk s p e.vpn = .error x) :
    Answers s (.replay f w) f 0 (fun t _ => tget (partOf t p).wait tok = none ∧ Finishes s t id 0x0102 ∧
      ∀ u b, tget s.blocks u = some b → ∃ b', tget t.blocks u = some b' ∧ b'.fault = b.fault) := by
  have hx : exec (.replay f w) s = execReplay f w s := rfl
  obtain ⟨hops, hfns, hgone, hfin, hfaults⟩ := pagesEnded_spec (f := f) (p := p) (tok := tok) ho 0x0102
  refine answers_of_run (t := finishOp (removeEntry (begun s f) p tok) id 0x0102) (st := 0) (resp := []) hx h (by simp) ?_
    (by rw [fnOf_congr hfns, fnOf_begun]) ⟨hgone, ⟨hfin.gone, hfin.handles⟩, hfaults⟩
  simp only [fnOf_begun, hp, liveEntry_begun, hl, if_neg (not_not_intro he), walk_begun, hw]
  rw [endRequests_waiting (s := removeEntry (begun s f) p tok) ho hb hblk hv, endWrites_noOps hops]

end

/-! ### Windows and ranks (R236, R321) -/

section
variable {s : State} {f p : Nat}

theorem winreg_answers {wid b len n r : Nat} (h : Runs s f (.winreg wid b len n r)) (hp : (fnOf s f).part = some p) (hw : wid < 2 ^ 16)
    (h0 : 0 < n) (hn : n ≤ 4096) (hr : r < n) (hl : len < 2 ^ 48) (hreach : inReach s p b (b + len) = true)
    (hroom : (partOf s p).wins.length < 256 ∨ thas (partOf s p).wins wid = true) :
    Answers s (.winreg f wid b len n r) f 0 (fun t _ => ∃ x,
      tget (partOf t p).wins wid = some x ∧ x.base = b ∧ x.length = len ∧ x.nranks = n ∧
      x.myrank = r ∧ x.cin = 0 ∧ x.cout = 0) := by
  have hx : exec (.winreg f wid b len n r) s = execWinreg f wid b len n r s := rfl
  let x : Window := { base := b, length := len, nranks := n, myrank := r, cin := 0, cout := 0, coll := 0, gone := [], issued := [] }
  refine answers_of_run (t := setPart (begun s f) p { partOf s p with wins := tput (partOf s p).wins wid x }) (st := 0) (resp := []) hx h (by simp) ?_
    (mb_begun s f) ⟨x, ?_, rfl, rfl, rfl, rfl, rfl, rfl⟩
  · have hpart : partOf (begun s f) p = partOf s p := rfl
    have hreach' : inReach (begun s f) p b (b + len) = true := hreach
    have hbad : ¬ (2 ^ 16 ≤ wid ∨ n = 0 ∨ 4096 < n ∨ n ≤ r ∨ 2 ^ 48 ≤ len ∨ (!inReach (begun s f) p b (b + len)) = true) := by
      rw [hreach']
      simp only [Bool.not_true, Bool.false_eq_true, or_false]
      omega
    have hfull : ¬ (256 ≤ (partOf s p).wins.length ∧ (!thas (partOf s p).wins wid) = true) := by
      rcases hroom with h | h
      · omega
      · simp [h]
    simp only [fnOf_begun, hp, if_neg hbad, hpart, if_neg hfull]
    rfl
  · exact (congrArg (fun y : Part => tget y.wins wid) (tgetD_tput_same _ _ _ _)).trans (tget_tput_same _ _ _)

theorem rankmap_answers {k : Nat} {v : W64} (h : Runs s f (.rankmap k v)) (hp : (fnOf s f).part = some p) (hk : k < 4096) (h1 : fld v 48 16 = 0)
    (h2 : fld v 2 10 = 0) (h3 : v.getLsbD 1 = true → fld v 36 12 = 0 ∧ fld v 12 16 = 0) :
    Answers s (.rankmap f k v) f 0 (fun t _ => tget (partOf t p).ranks k = some v) := by
  have hx : exec (.rankmap f k v) s = execRankmap f k v s := rfl
  refine answers_of_run (t := setPart (begun s f) p { partOf s p with ranks := tput (partOf s p).ranks k v }) (st := 0) (resp := []) hx h (by simp) ?_
    (mb_begun s f) ?_
  · have hbad : ¬ (4096 ≤ k ∨ fld v 48 16 ≠ 0 ∨ fld v 2 10 ≠ 0 ∨ (v.getLsbD 1 = true ∧ (fld v 36 12 ≠ 0 ∨ fld v 12 16 ≠ 0))) := by
      rintro (h | h | h | ⟨hb, h | h⟩)
      · omega
      · exact h h1
      · exact h h2
      · exact h (h3 hb).1
      · exact h (h3 hb).2
    simp only [fnOf_begun, hp, if_neg hbad]
    rfl
  · exact (congrArg (fun y : Part => tget y.ranks k) (tgetD_tput_same _ _ _ _)).trans (tget_tput_same _ _ _)

end

/-- Settles O59: a doorbell by the mailbox itself, then the commands one by one, each by the lemma about its run. -/
theorem mailboxResults : Obligations.MailboxResults := by
  unfold Obligations.MailboxResults
  intro s f he m
  refine ⟨fun i c hi hb => ?_, doorbellWhileBusy_counts he, mbstatDoneClear_clears he, fun hbusy hturn hwrites hrec => ?_⟩
  · simp only [List.mem_singleton] at hi
    obtain hi | ⟨x, hi⟩ | ⟨x, hi⟩ | ⟨x, hi⟩ | ⟨p, x, hi⟩ | ⟨a, p, hi⟩ |
      ⟨p, a, x, y, hi⟩ | ⟨a, n, hi⟩ | ⟨x, hi⟩ | ⟨a, hi⟩ | ⟨a, hi⟩ | ⟨w, hi⟩ |
      ⟨w, hi⟩ | ⟨w, b, l, n, r, hi⟩ | ⟨k, v, hi⟩ | ⟨b, hi⟩ | ⟨k, hi⟩ := hi
    all_goals
      cases hi
      rw [exec]
      exact mailbox_accepts he hb _ _ _ _
  · have runs : ∀ {c}, m.cmd = some c → Runs s f c := fun hc => ⟨he, hbusy, hturn, hwrites, hrec, hc⟩
    refine ⟨fun hc => status_answers (runs hc), fun code hc => unknown_answered (runs hc), fun hf p rs a n => ?_, ?_,
      fun x hx hc => attest_answers (runs hc) hx, fun b hc => bar2base_answers (runs hc), fun k hk hc => syncsum_answers_next (runs hc) hk,
      fun hc => syncsum_answers_first (runs hc), fun p hp => ?_⟩
    · have hp : exec (.partset f p rs) s = execPartset f p rs s := rfl
      have hb : exec (.bindfn f a n) s = execBindfn f a n s := rfl
      have hr : exec (.resetfn f a) s = execResetfn f a s := rfl
      exact ⟨fun hc => answers_denied hp (runs hc) hf, fun hc => answers_denied hb (runs hc) hf, fun hc => answers_denied hr (runs hc) hf⟩
    · rintro rfl
      refine ⟨fun x r hr hc => fwload_answered (runs hc) hr, fun x hc => cfgwrite_answers (runs hc), fun part rs hpart =>
        ⟨fun p hb hc => partset_answers (runs hc) hpart hb, fun hb hc => partset_refuses (runs hc) hpart hb⟩,
        fun a part hpart hea hc => bindfn_answers (runs hc) hpart hea, fun part addr xs cs id im hpart hl hc => ?_,
        fun a hea hc => resetfn_answered (runs hc) hea⟩
      obtain ⟨h1, h2, h3, h4⟩ := hl
      exact handler_answers (runs hc) hpart ⟨h1, h2, h3, h4⟩
    · refine ⟨fun a n hn hmod hreach hh hd hc => evring_answers (runs hc) hp hn hmod hreach hh hd, fun a id im hl hc => ?_,
        fun a hc => graphstart_answers (runs hc) hp, fun w hl =>
        ⟨fun hc => replay_answers_unknown (runs hc) hp hl, fun hc => fltcancel_answers_unknown (runs hc) hp hl⟩, fun w tok e hl => ?_,
        fun wid b len n r h1 h2 h3 h4 h5 h6 h7 hc => winreg_answers (runs hc) hp h1 h2 h3 h4 h5 h6 h7,
        fun k v h1 h2 h3 h4 hc => rankmap_answers (runs hc) hp h1 h2 h3 h4⟩
      · obtain ⟨h1, h2, h3, h4⟩ := hl
        exact loadimg_answers (runs hc) hp ⟨h1, h2, h3, h4⟩
      · exact ⟨fun hst hc => replay_answers_idle (runs hc) hp hl hst, fun l hst hw hc => replay_answers_mapped (runs hc) hp hl hst hw,
          fun ho hc => fltcancel_answers_noOps (runs hc) hp hl ho, fun id o vs ho hb hblk hv =>
          ⟨fun hc => fltcancel_answers_waiting (runs hc) hp hl ho hb hblk hv,
            fun x hst hw hc => replay_answers_invalid (runs hc) hp hl ho hb hblk hv hst hw⟩⟩

end Sys2Proof.Machine
end

section
/-! Named tiles (R219, R223 to R231): what FETCHN, PUBN, SEAL, STOPREF and SUBN start, how each ends, and the statement NamedTileResults. -/
namespace Sys2Proof.Machine
open Sys2Proof

/-! ### Starting with range entries, under a bucket, or toward a home (R173, R225, R319) -/

theorem withRanges_free {v : View} {rs : List (Nat × Nat × Bool)} (h : rangesOf v.st (blkCore v.b) + rs.length ≤ 32) (start : View → View) :
    withRanges v rs start = .done (startRanged v rs start) 0 := if_pos (decide_eq_true h)

theorem fed_held {v w : View} {cls : Nat} {fl : BitVec 6} (h : bucketHolds v.st (blkCore v.b) v.b.part cls 128 = false) :
    fed v cls (.done w fl) = .hold v 13 := if_neg (by simp [h])

theorem fed_done {v w : View} {cls : Nat} {fl : BitVec 6} (h : bucketHolds v.st (blkCore v.b) v.b.part cls 128 = true) :
    fed v cls (.done w fl) = .done w fl := if_pos h

theorem startRanged_fresh {v : View} {start : View → View} (h : (start v).st.nextOp ≠ v.st.nextOp) (rs : List (Nat × Nat × Bool)) :
    startRanged v rs start = rs.foldl (fun w r => addRange w r.1 r.2.1 r.2.2 v.st.nextOp) (start v) := if_neg h

/-- Sending an operation to the home of a name adds flits and changes nothing else. -/
theorem sendName_eq (s : State) (p : Plane) (part core name op : Nat) (data : List W8) :
    ∃ fs n, sendName s p part core name op data = { s with flits := fs, nextFlit := n } := by
  unfold sendName
  split
  · exact sendSectors_eq ..
  · exact ⟨s.flits, s.nextFlit, rfl⟩

theorem Starts.sendName {u w : View} {d : HReg} {body : OpBody} (hs : Starts u w d body) (p : Plane) (part core name op : Nat) :
    Starts u { w with st := sendName w.st p part core name op [] } d body := by
  obtain ⟨fs, n, h⟩ := sendName_eq w.st p part core name op []
  rw [h]
  exact ⟨hs.handle, hs.op, hs.regs, hs.memory⟩

section
variable {v : View} {d : HReg} {p : Plane} {name : Nat} {later : Bool} {body : OpBody}

/-- A keyed name operation that is neither logged nor outstanding starts. -/
theorem starts_sendKeyed (hl : logFind v.b (nextKey v) = none) (hk : opOfKey v.st v.uid (nextKey v) = none) :
    Starts v (sendKeyed v d p name later body) d body := by
  have hs : Starts v (startKeyed v d body) d body := by
    rw [startKeyed_starts hl hk]
    exact starts_keyed ..
  simp only [sendKeyed]
  split
  · exact hs
  · exact hs.sendName ..

theorem sendKeyed_nextOp (hl : logFind v.b (nextKey v) = none) (hk : opOfKey v.st v.uid (nextKey v) = none) :
    (sendKeyed v d p name later body).st.nextOp ≠ v.st.nextOp := by
  have hn : (startKeyed v d body).st.nextOp = v.st.nextOp + 1 := by
    rw [startKeyed_starts hl hk]
    rfl
  have hn' : (sendKeyed v d p name later body).st.nextOp = (startKeyed v d body).st.nextOp := by
    simp only [sendKeyed]
    split
    · rfl
    · obtain ⟨fs, n, h⟩ := sendName_eq (startKeyed v d body).st p v.b.part (blkCore v.b) name v.st.nextOp []
      exact (congrArg State.nextOp h).trans rfl
  rw [hn', hn]
  exact Nat.succ_ne_self _

end

/-! ### The instructions (R219, R223) -/

section
variable {h : Hdr} {d : HReg} {c : CReg} {n o l : SReg} {st : BitVec 3} {m : SubMode} {s : State} {v : View} {name ver life len : Nat}

theorem namePairOf_name (hn : namePairOf v n = some (name, ver, life)) :
    name = nameOf ((readS v.g (n + 1)).toNat % 2 ^ 24) ((readS v.g n).toNat / 2 ^ 32 % 2 ^ 16) ((readS v.g n).toNat % 2 ^ 32) := by
  simp only [namePairOf] at hn
  split at hn
  · cases hn
  · cases hn
    simp [fld, Nat.shiftRight_eq_div_pow]

/-- The length that a payload length word gives; it is 0 only where that is allowed. -/
theorem lengthOf_eq {w : W64} {zero : Bool} (h : lengthOf w zero = some len) : len = (fld w 0 17).toNat ∧ (zero = false → len ≠ 0) := by
  simp only [lengthOf] at h
  split at h
  · cases h
  · rename_i hok
    cases h
    refine ⟨rfl, fun hz h0 => hok (.inr (.inr (.inr ⟨h0, ?_⟩)))⟩
    rw [hz]
    rfl

/-- The view in which a FETCHN has started. -/
def fetchnStarted (v : View) (d : HReg) (name ver life lo len : Nat) (l : SReg) : View :=
  addRange (startFetch v d name ver life lo len l) lo (lo + len) true v.st.nextOp

theorem starts_fetchnStarted (v : View) (d : HReg) (name ver life lo len : Nat) (l : SReg) :
    Starts v (fetchnStarted v d name ver life lo len l) d (.fetchn name ver (v.st.clock + 1700 * life) lo len l none) := by
  obtain ⟨handle, op, regs, memory⟩ := starts_startOp v d (.fetchn name ver (v.st.clock + 1700 * life) lo len l none) none
  exact ⟨handle, op, regs, memory⟩

/-- FETCHN past its checks: held while the bucket lacks a flit, else started. -/
theorem fetchn_issues (hi : Issues h s v) (ho : OperandsReady [.hd d, .c c, pairOpd n, ssrc o, .s l.toNat 1 true true] v)
    (hn : namePairOf v n = some (name, ver, life)) (hlen : lengthOf (readS v.g l) false = some len) (hv : ver ≠ 0) (hlife : life ≠ 0)
    (hc : payloadCheck v c (readS v.g o).toNat len pW = none) (hr : rangesOf v.st (blkCore v.b) < 32) :
    exec (.fetchn h d c n o l) s = .next (flush (conclude h v (fed v 3 (.done
      (fetchnStarted v d name ver life (capBase (readC v.g c) + (readS v.g o).toNat) len l) 0)))) := by
  have hbad : ¬ (ver = 0 ∨ life = 0) := not_or.2 ⟨hv, hlife⟩
  simp only [exec, execFetchn, issue_scalar hi ho rfl, hn, hlen, if_neg hbad, hc]
  rw [withRanges_free (by simp only [List.length_singleton]; omega), startRanged_fresh (by exact Nat.succ_ne_self _)]
  rfl

/-- The publication that PUBN or SEAL starts; one without a payload has nothing left to read (R225). -/
def publication (name ver lo len : Nat) (sl : Bool) : OpBody :=
  .publish name (if sl then 255 else ver) sl lo len (if len = 0 then some [] else none)

/-- The scratchpad range that a publication still has to read. -/
def payloadRanges (lo len : Nat) : List (Nat × Nat × Bool) := if len = 0 then [] else [(lo, lo + len, false)]

/-- The view in which a PUBN or SEAL has started. -/
def publishStarted (v : View) (d : HReg) (name ver lo len : Nat) (sl : Bool) : View :=
  startRanged v (payloadRanges lo len) (fun v => sendKeyed v d .request name (len != 0) (publication name ver lo len sl))

theorem payloadRanges_length_le (lo len : Nat) : (payloadRanges lo len).length ≤ 1 := by
  unfold payloadRanges
  split <;> simp

theorem starts_publishStarted (hl : logFind v.b (nextKey v) = none) (hk : opOfKey v.st v.uid (nextKey v) = none) (d : HReg) (name ver lo len : Nat)
    (sl : Bool) : Starts v (publishStarted v d name ver lo len sl) d (publication name ver lo len sl) :=
  Starts.startRanged (start := fun v => sendKeyed v d .request name (len != 0) (publication name ver lo len sl)) (starts_sendKeyed hl hk)
    (sendKeyed_nextOp hl hk) _

/-- PUBN or SEAL past its checks starts its publication. -/
theorem publishOp_starts {sl : Bool} (hi : Issues h s v) (ho : OperandsReady [.hd d, .c c, pairOpd n, ssrc o, ssrc l] v)
    (hn : namePairOf v n = some (name, ver, 0)) (hlen : lengthOf (readS v.g l) sl = some len)
    (hv : ¬ (if sl then ver ≠ 0 else ver = 0 ∨ ver = 255)) (hl : logFind v.b (nextKey v) = none) (hk : opOfKey v.st v.uid (nextKey v) = none)
    (hc : payloadCheck v c (readS v.g o).toNat (fld (readS v.g l) 0 17).toNat pR = none) (hr : rangesOf v.st (blkCore v.b) < 32) :
    ∃ w, publishOp h d c n o l sl s = completed h w 0 ∧
      Starts v w d (publication name ver (capBase (readC v.g c) + (readS v.g o).toNat) len sl) := by
  have hbad : ¬ ((0 : Nat) ≠ 0 ∨ (if sl then ver ≠ 0 else ver = 0 ∨ ver = 255)) := not_or.2 ⟨not_not_intro rfl, hv⟩
  have hfree := withRanges_free (v := v) (rs := payloadRanges (capBase (readC v.g c) + (readS v.g o).toNat) len)
    (Nat.le_trans (Nat.add_le_add_left (payloadRanges_length_le _ _) _) hr)
  rw [← (lengthOf_eq hlen).1] at hc
  refine ⟨_, ?_, starts_publishStarted hl hk d name ver (capBase (readC v.g c) + (readS v.g o).toNat) len sl⟩
  simp only [publishOp, issue_scalar hi ho rfl, hn, hlen, if_neg hbad, hc]
  exact congrArg (fun r => Host.Outcome.next (flush (conclude h v r))) (hfree _)

theorem stopref_starts (hi : Issues h s v) (ho : OperandsReady [.hd d, pairOpd n] v) (hn : namePairOf v n = some (name, 0, 0)) :
    ∃ w, exec (.stopref h d n) s = completed h w 0 ∧ Starts v w d (.stopref name) := by
  refine ⟨_, ?_, (starts_startOp v d (.stopref name) none).sendName .interest v.b.part (blkCore v.b) name v.st.nextOp⟩
  simp only [exec, execStopref, issue_scalar hi ho rfl, hn]
  rfl

theorem subn_starts (hi : Issues h s v) (ho : OperandsReady [.hd d, pairOpd n] v) (hn : namePairOf v n = some (name, 0, 0))
    (hl : logFind v.b (nextKey v) = none) (hk : opOfKey v.st v.uid (nextKey v) = none) :
    ∃ w, exec (.subn h d n st m) s = completed h w 0 ∧ Starts v w d (.subn name st m) := by
  refine ⟨_, ?_, starts_sendKeyed (p := .interest) (name := name) (later := false) hl hk⟩
  simp only [exec, execSubn, issue_scalar hi ho rfl, hn]
  rfl

end

/-! ### Bytes of a result, but for those written before (R256) -/

/-- The bytes of a result at `a` that have not had events of their own, with their addresses. -/
def restBytes (o : Op) (a : Nat) (bs : List W8) : List (Nat × W8) :=
  ((bs.zip (List.range bs.length)).filter (fun e => !o.wrote.contains e.2)).map (fun e => (a + e.2, e.1))

theorem restBytes_append_singleton (o : Op) (a : Nat) (bs : List W8) (x : W8) :
    restBytes o a (bs ++ [x]) = restBytes o a bs ++ (if o.wrote.contains bs.length then [] else [(a + bs.length, x)]) := by
  simp only [restBytes, List.length_append, List.length_singleton, List.range_succ, List.zip_append (List.length_range.symm), List.filter_append,
    List.map_append]
  by_cases h : bs.length ∈ o.wrote <;> simp [h]

theorem bget_putBytes_restBytes (m : Cells) (o : Op) (a : Nat) (bs : List W8) (x : Nat) :
    bget (putBytes m (restBytes o a bs)) x = if a ≤ x ∧ x < a + bs.length ∧ x - a ∉ o.wrote then bs.getD (x - a) 0 else bget m x := by
  induction bs using List.reverseRecOn with
  | nil => rw [if_neg (by simp only [List.length_nil]; omega)]; rfl
  | append_singleton bs y ih =>
    have split : putBytes m (restBytes o a (bs ++ [y])) =
        if o.wrote.contains bs.length then putBytes m (restBytes o a bs) else bput (putBytes m (restBytes o a bs)) (a + bs.length) y := by
      rw [restBytes_append_singleton, putBytes, List.foldl_append]
      split <;> rfl
    rw [split, List.length_append, List.length_singleton]
    by_cases hx : x = a + bs.length
    · subst hx
      have hsub : a + bs.length - a = bs.length := by omega
      rw [hsub]
      by_cases hw : bs.length ∈ o.wrote
      · rw [if_pos (by simpa using hw), ih, if_neg (by omega), if_neg (by simp [hw])]
      · rw [if_neg (by simpa using hw), bget_bput_same, if_pos ⟨by omega, by omega, hw⟩]
        simp
    · have hne : bget (if o.wrote.contains bs.length then putBytes m (restBytes o a bs)
          else bput (putBytes m (restBytes o a bs)) (a + bs.length) y) x = bget (putBytes m (restBytes o a bs)) x := by
        split
        · rfl
        · exact bget_bput_ne _ _ hx
      rw [hne, ih]
      by_cases hin : a ≤ x ∧ x < a + bs.length ∧ x - a ∉ o.wrote
      · rw [if_pos hin, if_pos ⟨hin.1, by omega, hin.2.2⟩, List.getD_append _ _ _ _ (by omega)]
      · rw [if_neg hin, if_neg (fun h => hin ⟨h.1, by omega, h.2.2⟩)]

/-- Of a result cut to its first `n` bytes, each byte within is written unless it was before, and none outside is. -/
theorem bget_putBytes_restBytes_take (m : Cells) (o : Op) (a : Nat) {bs : List W8} {n : Nat} (hn : n ≤ bs.length) :
    (∀ i < n, bget (putBytes m (restBytes o a (bs.take n))) (a + i) = if i ∈ o.wrote then bget m (a + i) else bs.getD i 0) ∧
      ∀ x, x < a ∨ a + n ≤ x → bget (putBytes m (restBytes o a (bs.take n))) x = bget m x := by
  have hlen : (bs.take n).length = n := by rw [List.length_take, Nat.min_eq_left hn]
  refine ⟨fun i hi => ?_, fun x hx => ?_⟩
  · rw [bget_putBytes_restBytes, hlen, Nat.add_sub_cancel_left]
    by_cases hw : i ∈ o.wrote
    · rw [if_pos hw, if_neg (fun h => h.2.2 hw)]
    · rw [if_neg hw, if_pos ⟨by omega, by omega, hw⟩, List.getD_eq_getElem?_getD, List.getD_eq_getElem?_getD, List.getElem?_take_of_lt hi]
  · rw [bget_putBytes_restBytes, hlen, if_neg (by omega)]

section
variable {s : State} {o : Op}

theorem putRest_some (hw : o.wrote.isEmpty = false) (a : Nat) (bs : List W8) : putRest s o a bs = putAll s o (restBytes o a bs) := by
  simp only [putRest, hw, putAll, restBytes, List.foldl_map, List.foldl_filter]
  exact congrArg (fun f => List.foldl f s _) (funext fun r => funext fun e => by cases o.wrote.contains e.2 <;> rfl)

theorem putRest_ops (s : State) (o : Op) (a : Nat) (bs : List W8) : (putRest s o a bs).ops = s.ops := by
  cases hw : o.wrote.isEmpty with
  | true => simp only [putRest, hw, if_true, opScratchPut_ops]
  | false => rw [putRest_some hw, putAll_ops]

theorem GroupAt.putRest {u k : Nat} {g : Group} (h : GroupAt s u k g) (o : Op) (a : Nat) (bs : List W8) : GroupAt (putRest s o a bs) u k g := by
  cases hw : o.wrote.isEmpty with
  | true => simpa only [Machine.putRest, hw, if_true] using h.opScratchPut o a bs
  | false => simpa only [putRest_some hw] using h.putAll o _

theorem ScratchAt.putRest {m : Cells} (h : ScratchAt s o.sblk m) (a : Nat) (bs : List W8) :
    ScratchAt (putRest s o a bs) o.sblk (putBytes m (restBytes o a bs)) := by
  cases hw : o.wrote.isEmpty with
  | true =>
    have hall : restBytes o a bs = bytesFrom a bs := by
      simp [restBytes, bytesFrom, List.isEmpty_iff.1 hw]
    rw [hall, putBytes_bytesFrom]
    simpa only [Machine.putRest, hw, if_true] using h.opScratchPut a bs
  | false => simpa only [putRest_some hw] using h.putAll _

theorem ScratchAt.modGroup {u : Nat} {m : Cells} (h : ScratchAt s u m) (x k : Nat) (f : Group → Group) : ScratchAt (modGroup s x k f) u m := by
  unfold Machine.modGroup
  split
  · exact h
  · rename_i b hb
    split
    · exact h
    · exact h.setBlk hb rfl

end

/-! ### A FETCHN ends (R224, R227, R228) -/

section
variable {s : State} {id : Nat} {o : Op} {v : View} {name vm d dst len : Nat} {l : SReg}

/-- The result word of a FETCHN set, its operation finished. -/
def fetchEnded (s : State) (id : Nat) (o : Op) (l : SReg) (x : W64) (st : W16) : State :=
  finishOp (modGroup s o.blk o.gid (fun g => writeS g l x)) id st

theorem fetchEnded_spec {g : Group} {r : State} (ho : tget s.ops id = some o) (hops : r.ops = s.ops)
    (hg : ∀ g, GroupAt s o.blk o.gid g → GroupAt r o.blk o.gid g) (hs : GroupAt s o.blk o.gid g) (x : W64) (st : W16) :
    Finishes s (fetchEnded r id o l x st) id st ∧
      ∃ w, viewAt (fetchEnded r id o l x st) o.blk o.gid = some w ∧ tget w.g.s l.toNat = some x := by
  obtain ⟨bs, hm⟩ := modGroup_eq r o.blk o.gid (fun g => writeS g l x)
  have ho' : tget (modGroup r o.blk o.gid (fun g => writeS g l x)).ops id = some o := by rw [hm, hops, ho]
  have ends : ∀ g, GroupAt s o.blk o.gid g → GroupAt (fetchEnded r id o l x st) o.blk o.gid (completeH (writeS g l x) id st 0 []) := fun g h =>
    ((hg g h).modGroup _).finishOp ho' st 0 [] 0 0 []
  obtain ⟨bs', hf⟩ := finishOp_eq ho' st 0 [] 0 0 []
  refine ⟨finishes_of_group ho ?_ fun g h => ⟨_, 0, [], ends g h, rfl⟩, ?_⟩
  · rw [fetchEnded, hf]
    exact tget_tdel_same _ _
  · obtain ⟨w, hw, hwg⟩ := (ends g hs).viewAt
    exact ⟨w, hw, by rw [hwg]; exact tget_tput_same _ _ _⟩

/-- The scratchpad then holds the result, but for the bytes written before. -/
theorem fetchEnded_scratch {b : Block} (ho : tget s.ops id = some o) (hb : tget s.blocks o.sblk = some b) (a : Nat) (bs : List W8) (x : W64)
    (st : W16) : ∃ b', tget (fetchEnded (putRest s o a bs) id o l x st).blocks o.sblk = some b' ∧
      b'.scratch = putBytes b.scratch (restBytes o a bs) := by
  obtain ⟨gs, hm⟩ := modGroup_eq (putRest s o a bs) o.blk o.gid (fun g => writeS g l x)
  have ho' : tget (modGroup (putRest s o a bs) o.blk o.gid (fun g => writeS g l x)).ops id = some o := by rw [hm, putRest_ops, ho]
  have hscr : ScratchAt s o.sblk b.scratch := ⟨b, hb, rfl⟩
  exact ((hscr.putRest a bs).modGroup o.blk o.gid (fun g => writeS g l x)).finishOp ho' st

/-- A delivered tile is written, cut to the length accepted, and the FETCHN ends. -/
theorem fetchnDelivery_ends {ver : Nat} {bs : List W8} (ho : tget s.ops id = some o) (hb : o.body = .fetchn name vm d dst len l (some (ver, bs))) :
    exec (.fetchnDelivery ⟨id, none⟩) s = .next (fetchEnded (putRest s o dst (bs.take (min bs.length len))) id o l
      (BitVec.ofNat 64 (ver * 2 ^ 32 + min bs.length len)) (if len < bs.length then 0x0203 else 0)) := by
  have hx : exec (.fetchnDelivery ⟨id, none⟩) s = execFetchnDelivery ⟨id, none⟩ s := rfl
  simp only [hx, execFetchnDelivery, ho, hb]
  rfl

/-- One byte of it is written before the others. -/
theorem fetchnDelivery_byte {ver i : Nat} {bs : List W8} (ho : tget s.ops id = some o) (hb : o.body = .fetchn name vm d dst len l (some (ver, bs)))
    (hi : i < min bs.length len) (hw : i ∉ o.wrote) :
    exec (.fetchnDelivery ⟨id, some i⟩) s = .next (putWrote (opScratchPut s o (dst + i) [bs.getD i 0]) id i) := by
  have hx : exec (.fetchnDelivery ⟨id, some i⟩) s = execFetchnDelivery ⟨id, some i⟩ s := rfl
  simp only [hx, execFetchnDelivery, ho, hb]
  rw [if_pos ⟨hi, hw⟩]

/-- The byte then stands in the scratchpad, and no other has changed. -/
theorem putWrote_opScratchPut_spec {b : Block} (ho : tget s.ops id = some o) (hb : tget s.blocks o.sblk = some b) (a i : Nat) (x : W8) :
    tget (putWrote (opScratchPut s o a [x]) id i).ops id = some { o with wrote := nput o.wrote i } ∧
      ∃ b', tget (putWrote (opScratchPut s o a [x]) id i).blocks o.sblk = some b' ∧ bget b'.scratch a = x ∧
        ∀ y, y ≠ a → bget b'.scratch y = bget b.scratch y := by
  obtain ⟨ts, hput⟩ := opScratchPut_block hb a [x]
  refine ⟨?_, { b with scratch := bput b.scratch a x, tags := ts }, ?_, bget_bput_same _ _ _, fun y hy => bget_bput_ne _ _ hy⟩
  · simp only [putWrote, tget_tmod, if_true, opScratchPut_ops, ho, Option.map_some]
  · rw [putWrote, hput]
    exact tget_tput_same _ _ _

theorem fetchnLifetimeExpiry_ends (ho : tget s.ops id = some o) (hb : o.body = .fetchn name vm d dst len l none)
    (hv : viewAt s o.blk o.gid = some v) (hp : v.b.phase = .resident) (hd : d < s.clock) (hn : noTiles s (blkCore v.b) = true) :
    exec (.fetchnLifetimeExpiry id) s = .next (fetchEnded s id o l 0 0x0201) := by
  obtain ⟨-, -, -, hblk, -⟩ := viewAt_eq_some.1 hv
  have hx : exec (.fetchnLifetimeExpiry id) s = execFetchnLifetimeExpiry id s := rfl
  simp only [hx, execFetchnLifetimeExpiry, ho, hb, hblk]
  rw [if_pos ⟨hp, hd, hn⟩, endFetch, hb]
  rfl

end

/-! ### An operation of a name at its home (R193, R225, R226, R231) -/

theorem partOfBlk_viewAt {s : State} {u k : Nat} {v : View} (h : viewAt s u k = some v) : partOfBlk s u = v.b.part := by
  obtain ⟨-, -, -, hb, -⟩ := viewAt_eq_some.1 h
  simp only [partOfBlk, hb]

/-- It has not reached its home, or its log entry awaits room there (log 6). -/
def nameWaits (s : State) (id part : Nat) (o : Op) : Prop :=
  nameOpArrived s id = false ∨ o.key.isSome = true ∧ lumberForLog s part o.body = .wait

/-- It has reached its home, and its log entry has room there. -/
structure NameReady (s : State) (id part : Nat) (o : Op) : Prop where
  arrived : nameOpArrived s id = true
  room    : o.key.isSome = true → lumberForLog s part o.body = .room

section
variable {s t : State} {id : Nat} {o : Op} {v : View} {f : State → State} {st : W16}

theorem nameApply_waits (hv : viewAt s o.blk o.gid = some v) (h : nameWaits s id v.b.part o) : nameApply s id o f = s := by
  simp only [nameApply, partOfBlk_viewAt hv]
  rcases h with h | ⟨hk, hl⟩
  · simp [h]
  · simp [hk, hl]

/-- An operation that ends when it is applied takes its flits with it. -/
theorem nameApply_ends (hv : viewAt s o.blk o.gid = some v) (h : NameReady s id v.b.part o) (hf : tget (f s).ops id = none) :
    nameApply s id o f = nameOpDone (f s) id := by
  have hroom : (if o.key.isSome then lumberForLog s v.b.part o.body else .room) = .room := by
    split
    · exact h.room ‹_›
    · rfl
  have hgone : thas (f s).ops id = false := by simp [thas, hf]
  simp only [nameApply, partOfBlk_viewAt hv, h.arrived, hroom, hgone]
  rfl

theorem Finishes.nameOpDone (h : Finishes s t id st) (op : Nat) : Finishes s (nameOpDone t op) id st := by
  obtain ⟨fs, n, he⟩ := nameOpDone_eq t op
  rw [he]
  exact ⟨h.gone, h.handles⟩

theorem nameRec_congr (h : t.parts = s.parts) (part name : Nat) : nameRec t part name = nameRec s part name := by
  rw [nameRec, nameRec, partOf, partOf, h]

/-- Applied as a change that keeps blocks and operations and then the end with a status, it has finished with that status, and the record of the
name is that of the change. -/
theorem nameApply_finishes (ho : tget s.ops id = some o) (hv : viewAt s o.blk o.gid = some v) (h : NameReady s id v.b.part o)
    (hf : f s = finishOp t id st) (hk : KeepsThreads s t) (part name : Nat) :
    Finishes s (nameApply s id o f) id st ∧ nameRec (nameApply s id o f) part name = nameRec t part name := by
  have hfin := finishes_of_keeps ho hk st 0 [] 0 0 []
  have hgone : tget (f s).ops id = none := by rw [hf]; exact hfin.gone
  have ho' : tget t.ops id = some o := by rw [hk.ops, ho]
  obtain ⟨bs, he⟩ := finishOp_eq ho' st 0 [] 0 0 []
  obtain ⟨fs, n, hd⟩ := nameOpDone_eq (finishOp t id st) id
  rw [nameApply_ends hv h hgone, hf]
  refine ⟨hfin.nameOpDone id, nameRec_congr ?_ part name⟩
  rw [hd, he]
  rfl

end

section
variable {s : State} {id : Nat} {o : Op} {v : View} {name ver src len : Nat} {sl : Bool} {bs : List W8}

theorem publishApply_applies (ho : tget s.ops id = some o) (hb : o.body = .publish name ver sl src len (some bs)) :
    exec (.publishApply id) s = .next (nameApply s id o (fun s => publish s id o name ver sl bs)) := by
  have hx : exec (.publishApply id) s = execPublishApply id s := rfl
  simp only [hx, execPublishApply, ho, hb]

theorem stoprefApply_applies (ho : tget s.ops id = some o) (hb : o.body = .stopref name) :
    exec (.stoprefApply id) s = .next (nameApply s id o (fun s => stoprefAt s id o name)) := by
  have hx : exec (.stoprefApply id) s = execStoprefApply id s := rfl
  simp only [hx, execStoprefApply, ho, hb]

theorem subnRecord_applies {n : BitVec 3} {m : SubMode} (ho : tget s.ops id = some o) (hb : o.body = .subn name n m)
    (hv : viewAt s o.blk o.gid = some v) : exec (.subnRecord id) s = .next (nameApply s id o (fun s => subnAt s id v.b name n m)) := by
  obtain ⟨-, -, -, hblk, -⟩ := viewAt_eq_some.1 hv
  have hx : exec (.subnRecord id) s = execSubnRecord id s := rfl
  simp only [hx, execSubnRecord, ho, hb, hblk]

theorem keepsThreads_putName (s : State) (part name : Nat) (r : NameRec) : KeepsThreads s (putName s part name r) := ⟨rfl, rfl⟩

theorem nameRec_putName_same (s : State) (part name : Nat) (r : NameRec) : nameRec (putName s part name r) part name = r := by
  simp only [nameRec, putName, partOf, setPart_parts, tgetD_tput_same]

/-! ### Publications (R225) -/

/-- The state in which a home has stored a version. -/
def stored (s : State) (o : Op) (part name ver : Nat) (bs : List W8) : State :=
  noteSeal (putName { s with lost := ndel s.lost (lostName part name) } part name
    { nameRec s part name with ver := ver, payload := bs, words := checkWords bs, pub := o.key.map (fun k => (o.blk, k)) }) part name ver

theorem keepsThreads_stored (s : State) (o : Op) (part name ver : Nat) (bs : List W8) : KeepsThreads s (stored s o part name ver bs) := by
  unfold stored noteSeal
  split <;> exact ⟨rfl, rfl⟩

theorem nameRec_stored (s : State) (o : Op) (part name ver : Nat) (bs : List W8) :
    nameRec (stored s o part name ver bs) part name =
      { nameRec s part name with ver := ver, payload := bs, words := checkWords bs, pub := o.key.map (fun k => (o.blk, k)) } := by
  unfold stored noteSeal
  split <;> simp [nameRec, putName, partOf]

theorem stopAt_stored (s : State) (o : Op) (part name ver : Nat) (bs : List W8) (k : Nat) :
    stopAt (stored s o part name ver bs) k = stopAt s k := by
  unfold stored noteSeal
  split <;> rfl

/-- What Publish of R225 answers without storing anything, in the order of its checks. -/
theorem publish_unlisted (hp : partOfBlk s o.blk = v.b.part) (hd : dirEntry s v.b.part (nameTid name) = none) :
    publish s id o name ver sl bs = finishOp s id 0x0204 := by
  simp only [publish, hp, hd]

section
variable {e : BitVec 256} {k : Nat} (hp : partOfBlk s o.blk = v.b.part) (hd : dirEntry s v.b.part (nameTid name) = some e)
  (hh : nameHome s v.b.part name = some k)
include hp hd hh

theorem publish_long (hl : dMaxlen e < bs.length) : publish s id o name ver sl bs = finishOp s id 0x0213 := by
  simp only [publish, hp, hd, hh, if_pos hl]

theorem publish_nothing (hr : (nameRec s v.b.part name).ver = 0) (hb : bs = []) : publish s id o name ver true bs = finishOp s id 0x0214 := by
  simp [publish, hp, hd, hh, hr, hb]

variable (hl : bs.length ≤ dMaxlen e)
include hl

theorem publish_sealed (hr : (nameRec s v.b.part name).ver = 255) : publish s id o name ver sl bs = finishOp s id 0x0212 := by
  simp only [publish, hp, hd, hh, if_neg (Nat.not_lt.2 hl), if_pos hr]

theorem publish_old (hr : (nameRec s v.b.part name).ver ≠ 255) (ho : ver ≤ (nameRec s v.b.part name).ver) :
    publish s id o name ver false bs = finishOp s id 0x0210 := by
  simp [publish, hp, hd, hh, Nat.not_lt.2 hl, hr, ho]

theorem publish_stopped (hr : (nameRec s v.b.part name).ver ≠ 255) (ho : (nameRec s v.b.part name).ver < ver)
    (hs : (nameRec s v.b.part name).stop = true) : publish s id o name ver false bs = finishOp s id 0x0211 := by
  simp [publish, hp, hd, hh, Nat.not_lt.2 hl, hr, ho, hs]

/-- A publication that passes its checks and takes its units is stored, satisfies who waits for it, and ends. -/
theorem publish_stores (hr : (nameRec s v.b.part name).ver ≠ 255)
    (hv : sl = true ∨ (nameRec s v.b.part name).ver < ver ∧ (nameRec s v.b.part name).stop = false) (hb : sl = true → bs ≠ [])
    (hu : ∀ old, takeUnits s v.b.part k (unitsOf bs.length) old = some s) :
    publish s id o name ver sl bs = finishOp (satisfy (stored s o v.b.part name ver bs) v.b.part name) id 0 := by
  have hold : (!sl && decide (ver ≤ (nameRec s v.b.part name).ver)) = false := by
    rcases hv with rfl | ⟨h, -⟩
    · rfl
    · simp [h]
  have hstop : (!sl && (nameRec s v.b.part name).stop) = false := by
    rcases hv with rfl | ⟨-, h⟩
    · rfl
    · simp [h]
  have hempty : (sl && bs.isEmpty) = false := by
    cases sl
    · rfl
    · simpa using hb rfl
  simp only [publish, hp, hd, hh, if_neg (Nat.not_lt.2 hl), if_neg hr, hold, hstop, hempty, hu]
  rfl

end

/-- With units free and no cache shelf at the stop nothing is given up for a new home shelf. -/
theorem takeUnits_free {part stop need : Nat} (hf : need ≤ freeUnits s part stop) (hs : (stopAt s stop).shelves = []) (old : Nat) :
    takeUnits s part stop need old = some s := by
  have h : need ≤ freeUnits s part stop + cacheUnits s part stop + old := by omega
  rw [takeUnits, if_pos h, hs]
  rfl

/-- Without an entry and without a cache shelf a tile at a stop reaches nothing. -/
theorem tileAt_quiet {p : TPkt} (he : (stopAt s p.stop).ents = []) (hs : (stopAt s p.stop).shelves = []) : tileAt s p = s := by
  have hf : findEnt s p.stop p.part p.name = none := by rw [findEnt, he]; rfl
  have ho : olderShelf s p = false := by rw [olderShelf, hs]; rfl
  have hk : keepsShelf s p = false := by simp only [keepsShelf, hf, ho, Bool.and_false]
  simp only [tileAt, hf, hk]
  rfl

/-- Where nothing waits at the home and none subscribes, a stored version changes nothing but statuses of sets. -/
theorem onlyDecides_satisfy {part k : Nat} (hh : nameHome s part name = some k) (he : (stopAt s k).ents = []) (hs : (stopAt s k).shelves = [])
    (hr : (nameRec s part name).subs = []) : OnlyDecides s (satisfy s part name) := by
  have hq : tileAt s (homeTile s part name k) = s := tileAt_quiet (p := homeTile s part name k) he hs
  have h : satisfy s part name = decideSets s part := by
    simp only [satisfy, hh, hr, hq]
    rfl
  rw [h]
  exact onlyDecides_decideSets s part

theorem nameHome_congr {t : State} {part : Nat} (hd : (partOf t part).dir = (partOf s part).dir) (hc : (partOf t part).ctl = (partOf s part).ctl)
    (name : Nat) : nameHome t part name = nameHome s part name := by
  simp only [nameHome, dirEntry, stopsOf, pctl, ctl, hd, hc]

/-- A stored version that nothing waits for keeps blocks and operations, and stands in the record of its name. -/
theorem satisfy_stored {part k : Nat} (hh : nameHome s part name = some k) (he : (stopAt s k).ents = []) (hs : (stopAt s k).shelves = [])
    (hr : (nameRec s part name).subs = []) (o : Op) (ver : Nat) (bs : List W8) :
    KeepsThreads s (satisfy (stored s o part name ver bs) part name) ∧
      nameRec (satisfy (stored s o part name ver bs) part name) part name =
        { nameRec s part name with ver := ver, payload := bs, words := checkWords bs, pub := o.key.map (fun k => (o.blk, k)) } := by
  have hpart : (partOf (stored s o part name ver bs) part).dir = (partOf s part).dir ∧
      (partOf (stored s o part name ver bs) part).ctl = (partOf s part).ctl := by
    unfold stored noteSeal
    split <;> simp [putName, partOf]
  have hhome : nameHome (stored s o part name ver bs) part name = some k := by rw [nameHome_congr hpart.1 hpart.2, hh]
  obtain ⟨⟨x, hx⟩, -⟩ := onlyDecides_satisfy hhome (by rw [stopAt_stored, he]) (by rw [stopAt_stored, hs]) (by rw [nameRec_stored, hr])
  have hkeep := keepsThreads_stored s o part name ver bs
  rw [hx]
  exact ⟨⟨hkeep.blocks, hkeep.ops⟩, nameRec_stored s o part name ver bs⟩

/-! ### STOPREF and SUBN (R226, R231) -/

theorem stoprefAt_unlisted (hp : partOfBlk s o.blk = v.b.part) (hd : dirEntry s v.b.part (nameTid name) = none) :
    stoprefAt s id o name = finishOp s id 0x0204 := by
  simp only [stoprefAt, hp, hd]
  rfl

section
variable (hd : dirEntry s v.b.part (nameTid name) ≠ none)
include hd

theorem stoprefAt_sealed (hp : partOfBlk s o.blk = v.b.part) (hr : (nameRec s v.b.part name).ver = 255) :
    stoprefAt s id o name = finishOp s id 0x0212 := by
  simp [stoprefAt, hp, hd, hr]

theorem stoprefAt_sets (hp : partOfBlk s o.blk = v.b.part) (hr : (nameRec s v.b.part name).ver ≠ 255) :
    stoprefAt s id o name = finishOp (putName s v.b.part name { nameRec s v.b.part name with stop := true }) id 0 := by
  simp [stoprefAt, hp, hd, hr]

/-- SUBN records its subscription where the name has none of it and fewer than 8, and no version is stored. -/
theorem subnAt_records {n : BitVec 3} {m : SubMode} (hs : subStage s v.b.launch n = true) (hm : m ≠ .unsub)
    (hr : (nameRec s v.b.part name).ver = 0)
    (hmine : (nameRec s v.b.part name).subs.any (fun x => x.launch == v.b.launch && x.stage == n) = false)
    (hlen : (nameRec s v.b.part name).subs.length < 8) :
    subnAt s id v.b name n m = finishOp (putName s v.b.part name { nameRec s v.b.part name with
      subs := (nameRec s v.b.part name).subs ++ [{ launch := v.b.launch, stage := n, mode := m, owed := false }] }) id 0 := by
  simp [subnAt, hs, hd, hm, hr, hmine, Nat.not_le.2 hlen]

end

theorem subnAt_noStage {n : BitVec 3} {m : SubMode} (hs : subStage s v.b.launch n = false) : subnAt s id v.b name n m = finishOp s id 0x0104 := by
  simp [subnAt, hs]

end

/-- Settles O49: the five instructions at issue, then the two ends of a FETCHN, the waits, and what each operation does at its home. -/
theorem namedTileResults : Obligations.NamedTileResults := by
  unfold Obligations.NamedTileResults
  refine ⟨?_, ?_⟩
  · intro h d c n o l st m s v name ver life hi hn off lo fresh
    refine ⟨namePairOf_name hn, fun ho len hlen hv hlife hc hr => ?_, fun ho hlife hfresh hc => ?_, fun ho hv hlife => ?_⟩
    · have hx := fetchn_issues hi ho hn hlen hv hlife hc hr
      refine ⟨fun hb => ?_, fun hb => ?_⟩
      · rw [hx, fed_held hb]
        rfl
      · rw [fed_done hb] at hx
        exact ⟨_, _, hx, starts_fetchnStarted v d name ver life lo len l, rfl, rfl, rfl, rfl, rfl, _, tget_tput_same _ _ _, rfl, rfl, rfl, rfl⟩
    · subst hlife
      obtain ⟨hl, hk⟩ := hfresh
      refine ⟨fun len hlen hv hv' hr => ?_, fun len hlen hv hr => ?_⟩
      · have hne : len ≠ 0 := (lengthOf_eq hlen).2 rfl
        have hx := publishOp_starts (sl := false) hi ho hn hlen (by simp [hv, hv']) hl hk hc hr
        rw [publication, if_neg hne] at hx
        exact hx
      · exact publishOp_starts (sl := true) hi ho hn hlen (by simp [hv]) hl hk hc hr
    · subst hv hlife
      exact ⟨stopref_starts hi ho hn, fun hfresh => subn_starts hi ho hn hfresh.1 hfresh.2⟩
  · intro s id o v name ho hv r room
    have hp := partOfBlk_viewAt hv
    have hg := groupAt_of_viewAt hv
    refine ⟨fun n m ver sl src len bs => ⟨fun hb hw => ?_, fun hb hw => ?_, fun hb hw => ?_⟩, fun vm d dst len l ver bs b hb hblk => ⟨?_, ?_⟩,
      fun vm d dst len l hb hph hd hno => ?_, fun ver sl src len bs hb ha hroom => ?_, fun hb ha hroom => ?_, fun n m hb ha hroom => ?_⟩
    · rw [publishApply_applies ho hb, nameApply_waits hv hw]
    · rw [stoprefApply_applies ho hb, nameApply_waits hv (.inl hw)]
    · rw [subnRecord_applies ho hb hv, nameApply_waits hv hw]
    · obtain ⟨hfin, w, hw, hs⟩ := fetchEnded_spec (l := l) ho (putRest_ops s o dst (bs.take (min bs.length len))) (fun g h => h.putRest o _ _) hg
        (BitVec.ofNat 64 (ver * 2 ^ 32 + min bs.length len)) (if len < bs.length then 0x0203 else 0)
      obtain ⟨b', hb', hmem⟩ := fetchEnded_scratch (l := l) ho hblk dst (bs.take (min bs.length len)) _ _
      obtain ⟨hin, hout⟩ := bget_putBytes_restBytes_take b.scratch o dst (Nat.min_le_left bs.length len)
      exact ⟨_, w, b', fetchnDelivery_ends ho hb, hfin, hw, hs, hb', fun i hi => hmem ▸ hin i hi, fun a ha => hmem ▸ hout a ha⟩
    · intro i hi hw
      obtain ⟨hops, b', hb', hin, hout⟩ := putWrote_opScratchPut_spec ho hblk (dst + i) i (bs.getD i 0)
      exact ⟨_, b', fetchnDelivery_byte ho hb hi hw, hops, hb', hin, hout⟩
    · obtain ⟨hfin, w, hw, hs⟩ := fetchEnded_spec (l := l) ho rfl (fun g h => h) hg 0 0x0201
      exact ⟨_, w, fetchnLifetimeExpiry_ends ho hb hv hph hd hno, hfin, hw, hs⟩
    · have ready : NameReady s id v.b.part o := ⟨ha, hroom⟩
      intro Ends
      have ends : ∀ st, publish s id o name ver sl bs = finishOp s id st → Ends st := fun st hst =>
        ⟨_, publishApply_applies ho hb, (nameApply_finishes ho hv ready hst (.refl s) 0 0).1⟩
      refine ⟨fun hd => ends _ (publish_unlisted hp hd), fun e k hd hh => ⟨fun hl => ends _ (publish_long hp hd hh hl), fun hl =>
        ⟨fun hr => ends _ (publish_sealed hp hd hh hl hr), fun hr hsl hold => ?_, fun hr hsl hold hst => ?_, fun hr hsl hbs h0 => ?_,
          fun hr hver hbs hsubs hents hsh hu => ?_⟩⟩⟩
      · subst hsl
        exact ends _ (publish_old hp hd hh hl hr hold)
      · subst hsl
        exact ends _ (publish_stopped hp hd hh hl hr hold hst)
      · subst hsl
        exact ends _ (publish_nothing hp hd hh h0 hbs)
      · obtain ⟨hk, hrec⟩ := satisfy_stored hh hents hsh hsubs o ver bs
        obtain ⟨hfin, hname⟩ := nameApply_finishes (f := fun s => publish s id o name ver sl bs) ho hv ready
          (publish_stores hp hd hh hl hr hver hbs (takeUnits_free hu hsh)) hk v.b.part name
        rw [hrec] at hname
        exact ⟨_, publishApply_applies ho hb, hfin, by rw [hname], by rw [hname], by rw [hname]⟩
    · have ready : NameReady s id v.b.part o := ⟨ha, hroom⟩
      refine ⟨fun hd => ?_, fun hd hr => ?_, fun hd hr => ?_⟩
      · exact ⟨_, stoprefApply_applies ho hb, (nameApply_finishes ho hv ready (stoprefAt_unlisted hp hd) (.refl s) 0 0).1⟩
      · exact ⟨_, stoprefApply_applies ho hb, (nameApply_finishes ho hv ready (stoprefAt_sealed hd hp hr) (.refl s) 0 0).1⟩
      · obtain ⟨hfin, hname⟩ := nameApply_finishes (f := fun s => stoprefAt s id o name) ho hv ready (stoprefAt_sets hd hp hr)
          (keepsThreads_putName ..) v.b.part name
        exact ⟨_, stoprefApply_applies ho hb, hfin, hname.trans (nameRec_putName_same ..)⟩
    · have ready : NameReady s id v.b.part o := ⟨ha, hroom⟩
      refine ⟨fun hst => ?_, fun hst hd hm hr hmine hlen => ?_⟩
      · exact ⟨_, subnRecord_applies ho hb hv, (nameApply_finishes ho hv ready (subnAt_noStage hst) (.refl s) 0 0).1⟩
      · obtain ⟨hfin, hname⟩ := nameApply_finishes (f := fun s => subnAt s id v.b name n m) ho hv ready
          (subnAt_records hd hst hm hr hmine hlen) (keepsThreads_putName ..) v.b.part name
        exact ⟨_, subnRecord_applies ho hb hv, hfin, hname.trans (nameRec_putName_same ..)⟩

end Sys2Proof.Machine
end

section
/-! Windows and collectives (R236 to R244): why the statement WindowAndCollectiveResults fails. -/
namespace Sys2Proof.Machine
open Sys2Proof

/-! ### Two entries under one block number -/

/-- The issuing group: s36 names block 77 of its launch, stage 0, group 0, one register; v0 holds a row. -/
def xchgGroup : Group := { fetchGroup with s := [(36, BitVec.ofNat 64 (2 ^ 40 + 77))], v := [(0, zeroRow)] }

/-- The issuing block, of index 0. -/
def xchgBlock : Block := { fetchBlock 1 with groups := [xchgGroup] }

/-- A block without groups. -/
def grouplessBlock : Block := { fetchBlock 1 with index := 2, groups := [] }

/-- A block whose group waits with an XCHG that names group 0 of block index 0. -/
def waiterBlock : Block :=
  { fetchBlock 1 with
    index := 1
    groups := [{ fetchGroup with
      run := .stalled
      xreq := some { block := 0, stage := 0, group := 0, cnt := 1, big := false, v := 0, exec := allLanes, safe := false, mask := 0, sent := false,
                     since := 0 } }] }

/-- The number 1 stands twice in the table: first for the block without groups, then for the one whose group waits. -/
def twiceListedState : State :=
  { State.reset with cur := some (2, 0), blocks := [(1, grouplessBlock), (1, waiterBlock), (2, xchgBlock)] }

def twiceListedView : View := { st := twiceListedState, uid := 2, gid := 0, b := xchgBlock, g := xchgGroup }

/-- The XCHG of v0 that s36 names the partner of. -/
def twiceListedStep : Out := exec (.xchg ⟨false, 0, false, 0⟩ .n32 0 36) twiceListedState

/-- The block that number 1 reaches has no fault after the step: the waiting group was found in the second entry, the fault went to the first. -/
theorem twiceListed_faultless : faultAfter twiceListedStep = some false := by decide +kernel

theorem twiceListed_issues : Issues ⟨false, 0, false, 0⟩ twiceListedState twiceListedView := ⟨rfl, .inl rfl, by decide +kernel⟩

theorem twiceListed_ready : OperandsReady [ssrc 36] twiceListedView where
  regs := by decide +kernel
  handle := by decide +kernel
  matrix := by decide +kernel
  void := by decide +kernel
  queue := by decide +kernel
  acq := rfl

/-- The first group that waits for the issuing one is found under number 1. -/
theorem twiceListed_first : firstWaiter twiceListedView (none, 0) = some (1, 0) := by decide +kernel

/-- Refutes O51: its clause on the partner of an XCHG speaks of block tables that list a number twice, too. There firstWaiter, which walks the
table, finds the waiting group in the second entry, while the fault goes to the block that the number reaches, the first entry, whose group 0 does
not exist; so no block under that number has the fault. -/
theorem not_windowAndCollectiveResults : ¬ Obligations.WindowAndCollectiveResults := by
  unfold Obligations.WindowAndCollectiveResults
  intro h
  obtain ⟨hissue, -⟩ := h
  obtain ⟨-, -, -, hxchg⟩ := hissue ⟨false, 0, false, 0⟩ .n32 0 0 0 0 36 0 36 0 0 .int twiceListedState twiceListedView twiceListed_issues
  obtain ⟨-, hmet⟩ := hxchg twiceListed_ready rfl 77 0 0 1 (by decide +kernel) rfl (by decide +kernel) (by decide +kernel) (by decide +kernel)
    (by decide +kernel)
  obtain ⟨u, -, hx, -, -, hpartner⟩ := hmet 1 0 twiceListed_first rfl rfl rfl
  obtain ⟨b, f, hb, hf, -⟩ := hpartner (by decide) (by decide +kernel)
  have hfault : faultAfter (.next (flush u)) = some true := by
    simp only [faultAfter, hb, Option.map_some, hf, Option.isSome_some]
  rw [← hx] at hfault
  exact absurd (twiceListed_faultless.symm.trans hfault) (by decide)

end Sys2Proof.Machine
end

section
/-! PROOFS. The memories stay canonical, first part: what it means of each kind of value that the model's functions answer, and the operations on
byte memories and page tables. -/

namespace Sys2Proof.Machine
open Sys2Proof

/-! ### Canonical results

Every function of the model below a step answers a state, or a value that holds states. `X.Canonical` says that the states in a value of the type
`X` have canonical memories; `canonical_f` says that `f` answers such a value when it is given one. -/

/-- The memories under a view. -/
def View.Canonical (v : View) : Prop := MemoryCanonical v.st

/-- `P` holds of the value, where there is one. -/
def OnSome {α : Type} (P : α → Prop) : Option α → Prop
  | some a => P a
  | none => True

/-- The memories in the view that a turn ends with. -/
def Res.Canonical : Res → Prop
  | .done v _ | .hold v _ | .after v .. | .raw v => v.Canonical
  | .trap .. => True

/-- The memories of the next state. -/
def OutCanonical : Out → Prop
  | .next s => MemoryCanonical s
  | .fault _ | .refused _ => True

/-- The memories after a store, whether it took place, waits or failed. -/
def StoreRes.Canonical : StoreRes → Prop
  | .done s | .wait s | .bad s .. => MemoryCanonical s

/-- The memories after a load that has to wait. -/
def LoadRes.Canonical : LoadRes → Prop
  | .wait s => MemoryCanonical s
  | .done _ | .bad .. => True

/-- The memories after a write of a trace record. -/
def AreaRes.Canonical : AreaRes → Prop
  | .done s | .wait s | .dropped s => MemoryCanonical s

/-- The memories after a look at a loop's body that has to wait. -/
def BodyRes.Canonical : BodyRes → Prop
  | .wait s => MemoryCanonical s
  | .bad | .malformed | .body _ => True

/-- The memories after the start of a launch. -/
def LaunchRes.Canonical : LaunchRes → Prop
  | .wait s | .failed s _ | .started s _ => MemoryCanonical s

/-- The memories after a code image is loaded. -/
def LoadImg.Canonical : LoadImg → Prop
  | .wait s | .done s .. => MemoryCanonical s
  | .bad => True

/-- The memories after a mailbox command. -/
def MbRes.Canonical : MbRes → Prop
  | .done s .. | .wait s => MemoryCanonical s

/-- The memories after a walk over a graph that has to wait. -/
def ReachRes.Canonical : ReachRes → Prop
  | .wait s => MemoryCanonical s
  | .bad | .done _ => True

/-- The memories after a node's test that has to wait. -/
def TestRes.Canonical : TestRes → Prop
  | .wait s => MemoryCanonical s
  | .holds _ | .bad => True

theorem View.Canonical.of_st {v : View} (h : MemoryCanonical v.st) : v.Canonical := h

theorem OutCanonical.of_next {s : State} (h : MemoryCanonical s) : OutCanonical (.next s) := h

theorem OutCanonical.next {o : Out} {s : State} (h : OutCanonical o) (e : o = .next s) : MemoryCanonical s := by subst e; exact h

theorem Res.Canonical.of_done {v : View} {fl : BitVec 6} (h : v.Canonical) : (Res.done v fl).Canonical := h

theorem Res.Canonical.of_hold {v : View} {c : Nat} (h : v.Canonical) : (Res.hold v c).Canonical := h

theorem Res.Canonical.of_after {v : View} {cls code : Nat} {data : W64} (h : v.Canonical) : (Res.after v cls code data).Canonical := h

theorem Res.Canonical.hold {r : Res} {v : View} {c : Nat} (h : r.Canonical) (e : r = .hold v c) : v.Canonical := by subst e; exact h

theorem StoreRes.Canonical.done {r : StoreRes} {s : State} (h : r.Canonical) (e : r = .done s) : MemoryCanonical s := by subst e; exact h

theorem StoreRes.Canonical.wait {r : StoreRes} {s : State} (h : r.Canonical) (e : r = .wait s) : MemoryCanonical s := by subst e; exact h

theorem StoreRes.Canonical.bad {r : StoreRes} {s : State} {c d : Nat} (h : r.Canonical) (e : r = .bad s c d) : MemoryCanonical s := by
  subst e; exact h

theorem LoadRes.Canonical.wait {r : LoadRes} {s : State} (h : r.Canonical) (e : r = .wait s) : MemoryCanonical s := by subst e; exact h

theorem AreaRes.Canonical.done {r : AreaRes} {s : State} (h : r.Canonical) (e : r = .done s) : MemoryCanonical s := by subst e; exact h

theorem AreaRes.Canonical.wait {r : AreaRes} {s : State} (h : r.Canonical) (e : r = .wait s) : MemoryCanonical s := by subst e; exact h

theorem AreaRes.Canonical.dropped {r : AreaRes} {s : State} (h : r.Canonical) (e : r = .dropped s) : MemoryCanonical s := by subst e; exact h

theorem BodyRes.Canonical.wait {r : BodyRes} {s : State} (h : r.Canonical) (e : r = .wait s) : MemoryCanonical s := by subst e; exact h

theorem LaunchRes.Canonical.wait {r : LaunchRes} {s : State} (h : r.Canonical) (e : r = .wait s) : MemoryCanonical s := by subst e; exact h

theorem LaunchRes.Canonical.failed {r : LaunchRes} {s : State} {st : W16} (h : r.Canonical) (e : r = .failed s st) : MemoryCanonical s := by
  subst e; exact h

theorem LaunchRes.Canonical.started {r : LaunchRes} {s : State} {id : Nat} (h : r.Canonical) (e : r = .started s id) : MemoryCanonical s := by
  subst e; exact h

theorem LoadImg.Canonical.wait {r : LoadImg} {s : State} (h : r.Canonical) (e : r = .wait s) : MemoryCanonical s := by subst e; exact h

theorem LoadImg.Canonical.done {r : LoadImg} {s : State} {id w : Nat} {st : W16} (h : r.Canonical) (e : r = .done s id st w) :
    MemoryCanonical s := by
  subst e; exact h

theorem MbRes.Canonical.wait {r : MbRes} {s : State} (h : r.Canonical) (e : r = .wait s) : MemoryCanonical s := by subst e; exact h

theorem MbRes.Canonical.done {r : MbRes} {s : State} {st : W16} {bs : List W8} (h : r.Canonical) (e : r = .done s st bs) :
    MemoryCanonical s := by
  subst e; exact h

theorem ReachRes.Canonical.wait {r : ReachRes} {s : State} (h : r.Canonical) (e : r = .wait s) : MemoryCanonical s := by subst e; exact h

theorem TestRes.Canonical.wait {r : TestRes} {s : State} (h : r.Canonical) (e : r = .wait s) : MemoryCanonical s := by subst e; exact h

/-! ### Predicates through `if`, folds and `Option` -/

/-- What both branches of an `if` have, the `if` has. -/
theorem ite_holds {α : Type} {P : α → Prop} {c : Prop} [Decidable c] {a b : α} (ha : P a) (hb : P b) : P (if c then a else b) :=
  iteInduction (fun _ => ha) (fun _ => hb)

/-- What every step of a left fold keeps, the fold keeps. -/
theorem foldl_holds {α β : Type} {P : β → Prop} {f : β → α → β} {b : β} {l : List α} (hf : ∀ b a, P b → P (f b a)) (hb : P b) :
    P (l.foldl f b) :=
  List.foldlRecOn l f hb (fun b hb a _ => hf b a hb)

theorem OnSome.some {α : Type} {P : α → Prop} {o : Option α} {a : α} (h : OnSome P o) (e : o = some a) : P a := by subst e; exact h

theorem OnSome.getD {α : Type} {P : α → Prop} {o : Option α} {a : α} (h : OnSome P o) (ha : P a) : P (o.getD a) := by
  cases o with
  | none => exact ha
  | some x => exact h

theorem OnSome.orElse {α : Type} {P : α → Prop} {o : Option α} {f : Unit → Option α} (h : OnSome P o) (hf : OnSome P (f ())) :
    OnSome P (o.orElse f) := by
  cases o with
  | none => exact hf
  | some x => exact h

theorem OnSome.bind {α β : Type} {P : α → Prop} {Q : β → Prop} {o : Option α} {f : α → Option β} (h : OnSome P o)
    (hf : ∀ a, P a → OnSome Q (f a)) : OnSome Q (o.bind f) := by
  cases o with
  | none => trivial
  | some a => exact hf a h

theorem onSome_bind {α β : Type} {Q : β → Prop} {o : Option α} {f : α → Option β} (hf : ∀ a, OnSome Q (f a)) : OnSome Q (o.bind f) := by
  cases o with
  | none => trivial
  | some a => exact hf a

theorem onSome_map {α β : Type} {Q : β → Prop} {o : Option α} {f : α → β} (hf : ∀ a, Q (f a)) : OnSome Q (o.map f) := by
  cases o with
  | none => trivial
  | some a => exact hf a

theorem onSome_findSome {α β : Type} {P : β → Prop} {f : α → Option β} {l : List α} (hf : ∀ a, OnSome P (f a)) :
    OnSome P (l.findSome? f) := by
  induction l with
  | nil => trivial
  | cons a l ih =>
    simp only [List.findSome?_cons]
    split
    · exact (hf a).some ‹_›
    · exact ih

/-! ### Byte memories and the page table -/

theorem tsorted_iff_pairwise {α : Type} {t : Tbl α} : tsorted t = true ↔ t.Pairwise (fun x y => x.1 < y.1) := by
  induction t with
  | nil => simp [tsorted]
  | cons e t ih => rw [tsorted_cons_iff e.1 e.2 t, List.pairwise_cons, ih]

/-- An entry of `frameData` is an entry of the memory, moved down by the frame's base. -/
theorem frameData_entry {base size : Nat} {e x : Nat × W8}
    (h : (if base ≤ e.1 ∧ e.1 < base + size then some (e.1 - base, e.2) else none) = some x) : e.1 = base + x.1 ∧ e.2 = x.2 := by
  split at h
  · cases h
    exact ⟨by omega, rfl⟩
  · cases h

theorem wf_frameData {m : Cells} {base size : Nat} (h : Memory.wf m = true) : Memory.wf (frameData m base size) = true := by
  rw [Memory.wf_iff, tsorted_iff_pairwise] at h ⊢
  obtain ⟨hs, hz⟩ := h
  constructor
  · refine hs.filterMap _ fun a b hab x hx y hy => ?_
    have hxa := (frameData_entry hx).1
    have hyb := (frameData_entry hy).1
    omega
  · intro y hy
    obtain ⟨z, hzm, hzy⟩ := List.mem_filterMap.1 hy
    exact (frameData_entry hzy).2 ▸ hz z hzm

theorem wf_foldl_bput {α : Type} {l : List α} {a : α → Nat} {b : α → W8} {m : Cells} (h : Memory.wf m = true) :
    Memory.wf (l.foldl (fun m e => bput m (a e) (b e)) m) = true :=
  foldl_holds (P := fun m => Memory.wf m = true) (fun m _ hm => Memory.wf_bput m _ _ hm) h

theorem wf_freshLines {s : State} {pg : Page} (hc : Memory.wf s.cellar = true) : Memory.wf (freshLines s pg).data = true :=
  foldl_holds (P := fun m => Memory.wf m = true)
    (fun m _ hm => ite_holds (P := fun m => Memory.wf m = true) (Memory.wf_bput m _ _ hm) hm) (Memory.wf_filter _ _ (wf_frameData hc))

theorem mem_tput {α : Type} {t : Tbl α} {n : Nat} {a : α} {e : Nat × α} (h : e ∈ tput t n a) : e = (n, a) ∨ e ∈ t := by
  induction t with
  | nil => exact .inl (List.mem_singleton.1 h)
  | cons x t ih =>
    obtain ⟨k, b⟩ := x
    simp only [tput] at h
    split at h
    · exact List.mem_cons.1 h
    · split at h
      · exact (List.mem_cons.1 h).imp_right (List.mem_cons_of_mem _)
      · rcases List.mem_cons.1 h with rfl | h
        · exact .inr (List.mem_cons_self ..)
        · exact (ih h).imp_right (List.mem_cons_of_mem _)

theorem page_canonical {s : State} {id : Nat} {pg : Page} (hs : MemoryCanonical s) (h : tget s.pages id = some pg) :
    Memory.wf pg.data = true :=
  hs.2 _ (mem_of_tget h)

theorem canonical_putPage {s : State} {id : Nat} {pg : Page} (hs : MemoryCanonical s) (hp : Memory.wf pg.data = true) :
    MemoryCanonical { s with pages := tput s.pages id pg } := by
  obtain ⟨hc, hpages⟩ := hs
  refine ⟨hc, fun e he => ?_⟩
  rcases mem_tput he with rfl | he
  · exact hp
  · exact hpages e he

theorem canonical_delPage {s : State} {id : Nat} (hs : MemoryCanonical s) : MemoryCanonical { s with pages := tdel s.pages id } :=
  ⟨hs.1, fun e he => hs.2 e (List.mem_filter.1 he).1⟩

theorem canonical_putCellar {s : State} {m : Cells} (hs : MemoryCanonical s) (hm : Memory.wf m = true) :
    MemoryCanonical { s with cellar := m } :=
  ⟨hm, hs.2⟩

theorem canonical_putCellarPage {s : State} {id : Nat} {pg : Page} {m : Cells} (hs : MemoryCanonical s) (hm : Memory.wf m = true)
    (hp : Memory.wf pg.data = true) : MemoryCanonical { s with cellar := m, pages := tput s.pages id pg } :=
  ⟨hm, (canonical_putPage hs hp).2⟩

/-- A state with the memories of a canonical one is canonical, whatever else differs. -/
theorem canonical_of_eq {s t : State} (h : MemoryCanonical s) (hc : t.cellar = s.cellar) (hp : t.pages = s.pages) : MemoryCanonical t := by
  unfold MemoryCanonical
  rw [hc, hp]
  exact h

theorem canonical_withClusters {s : State} {cs : Tbl Cluster} (hs : MemoryCanonical s) : MemoryCanonical { s with clusters := cs } := hs

theorem canonical_withNextFlit {s : State} {n : Nat} (hs : MemoryCanonical s) : MemoryCanonical { s with nextFlit := n } := hs

end Sys2Proof.Machine
end

section
/-! PROOFS. The memories stay canonical, second part: the operations that every meaning uses. -/

namespace Sys2Proof.Machine
open Sys2Proof

/-! ### Views, groups, blocks and partitions -/

theorem canonical_viewAt {s uid gid} (hs : MemoryCanonical s) : OnSome View.Canonical (viewAt s uid gid) := by
  unfold viewAt
  split
  · exact trivial
  · split
    · exact trivial
    · exact hs

theorem canonical_currentView {s} (hs : MemoryCanonical s) : OnSome View.Canonical (currentView s) := by
  unfold currentView
  split
  · exact trivial
  · exact canonical_viewAt hs

theorem canonical_flush {v} (hv : View.Canonical v) : MemoryCanonical (flush v) :=
  hv

theorem canonical_reload {v s} (hv : View.Canonical v) (hs : MemoryCanonical s) : View.Canonical (reload v s) :=
  OnSome.getD (canonical_viewAt hs) hv

theorem canonical_onState {v f} (hv : View.Canonical v) (hf : ∀ t, MemoryCanonical t → MemoryCanonical (f t)) : View.Canonical (onState v f) :=
  canonical_reload hv (hf _ hv)

theorem canonical_setPart {s p x} (hs : MemoryCanonical s) : MemoryCanonical (setPart s p x) :=
  hs

theorem canonical_setFn {s f x} (hs : MemoryCanonical s) : MemoryCanonical (setFn s f x) :=
  hs

theorem canonical_setBlk {s u b} (hs : MemoryCanonical s) : MemoryCanonical (setBlk s u b) :=
  hs

theorem canonical_freeNext {s} (hs : MemoryCanonical s) : MemoryCanonical ((freeNext s).2) :=
  hs

theorem canonical_delOp {s id} (hs : MemoryCanonical s) : MemoryCanonical (delOp s id) :=
  hs

theorem canonical_finishOp {s id st bm pg val fl bytes} (hs : MemoryCanonical s) : MemoryCanonical (finishOp s id st bm pg val fl bytes) := by
  unfold finishOp
  split
  · exact hs
  · dsimp only
    split
    · exact hs
    · split <;> exact canonical_setBlk hs

theorem canonical_modGroup {s uid gid f} (hs : MemoryCanonical s) : MemoryCanonical (modGroup s uid gid f) := by
  unfold modGroup
  repeat' split
  all_goals exact hs

theorem canonical_tracePath {v kind label offset mask a b ext} (hv : View.Canonical v) :
    View.Canonical (tracePath v kind label offset mask a b ext) :=
  hv

theorem canonical_usePipe {s c} (hs : MemoryCanonical s) : MemoryCanonical (usePipe s c) :=
  hs

theorem canonical_handlerFault {v f} (hv : View.Canonical v) : View.Canonical (handlerFault v f) := by
  unfold handlerFault
  dsimp only
  split
  · exact View.Canonical.of_st (canonical_usePipe hv)
  · exact hv

theorem canonical_takeTrap {v f} (hv : View.Canonical v) : View.Canonical (takeTrap v f) := by
  unfold takeTrap
  split
  · exact canonical_handlerFault hv
  · exact hv

theorem canonical_trapAfter {v f} (hv : View.Canonical v) : View.Canonical (trapAfter v f) := by
  unfold trapAfter
  split
  · dsimp only
    split <;> exact hv
  · exact hv

theorem canonical_lateTrap {s uid f} (hs : MemoryCanonical s) : MemoryCanonical (lateTrap s uid f) := by
  unfold lateTrap
  repeat' split
  all_goals exact hs

/-! ### Flits, links, rates and ports -/

theorem canonical_setLink {s k l} (hs : MemoryCanonical s) : MemoryCanonical (setLink s k l) :=
  hs

theorem canonical_retryLink {s k} (hs : MemoryCanonical s) : MemoryCanonical (retryLink s k) :=
  hs

theorem canonical_linkPass {s k plane num} (hs : MemoryCanonical s) : MemoryCanonical (linkPass s k plane num) :=
  hs

theorem canonical_cutRate {s core part cls} (hs : MemoryCanonical s) : MemoryCanonical (cutRate s core part cls) :=
  ite_holds hs hs

theorem canonical_takeBucket {s core part cls size} (hs : MemoryCanonical s) : MemoryCanonical (takeBucket s core part cls size) :=
  ite_holds hs hs

theorem canonical_rateClock {s} (hs : MemoryCanonical s) : MemoryCanonical (rateClock s) :=
  hs

theorem canonical_resetRates {s part} (hs : MemoryCanonical s) : MemoryCanonical (resetRates s part) :=
  hs

theorem canonical_sendSectors {s p tenant src dst echo body secs} (hs : MemoryCanonical s) :
    MemoryCanonical (sendSectors s p tenant src dst echo body secs) :=
  foldl_holds (P := fun x : State × Bool => MemoryCanonical x.1) (fun _ _ h => h) hs

theorem canonical_sendFlit {s p tenant src dst echo body data} (hs : MemoryCanonical s) :
    MemoryCanonical (sendFlit s p tenant src dst echo body data) :=
  canonical_sendSectors hs

theorem canonical_engineFlit {s core part cls addr data back} (hs : MemoryCanonical s) :
    MemoryCanonical (engineFlit s core part cls addr data back) := by
  unfold engineFlit
  split
  · exact hs
  · exact canonical_sendFlit (canonical_takeBucket hs)

theorem canonical_cellarMiss {s part stop frame n} (hs : MemoryCanonical s) : MemoryCanonical (cellarMiss s part stop frame n) :=
  canonical_sendFlit hs

theorem canonical_homeMiss {s part addr frame n} (hs : MemoryCanonical s) : MemoryCanonical (homeMiss s part addr frame n) := by
  unfold homeMiss
  split
  · exact hs
  · exact canonical_cellarMiss hs

theorem canonical_cellarBack {s part addr frame sec} (hs : MemoryCanonical s) : MemoryCanonical (cellarBack s part addr frame sec) := by
  unfold cellarBack
  split
  · exact hs
  · exact canonical_sendSectors hs

theorem canonical_edgeIn {s u part addr data} (hs : MemoryCanonical s) : MemoryCanonical (edgeIn s u part addr data) := by
  unfold edgeIn
  split
  · exact canonical_sendFlit hs
  · exact hs

theorem canonical_edgeOut {s u part addr data} (hs : MemoryCanonical s) : MemoryCanonical (edgeOut s u part addr data) := by
  unfold edgeOut
  split
  · exact canonical_sendFlit hs
  · exact hs

theorem canonical_modWindow {s part wid f} (hs : MemoryCanonical s) : MemoryCanonical (modWindow s part wid f) :=
  hs

theorem canonical_sendPort {s p m} (hs : MemoryCanonical s) : MemoryCanonical (sendPort s p m) :=
  hs

theorem canonical_putPort {s core part p m data} (hs : MemoryCanonical s) : MemoryCanonical (putPort s core part p m data) :=
  canonical_sendPort (canonical_sendFlit (canonical_takeBucket hs))

theorem canonical_tellRank {s part wid rank body} (hs : MemoryCanonical s) : MemoryCanonical (tellRank s part wid rank body) := by
  unfold tellRank
  split <;> exact hs

theorem canonical_postColl {s part wid k c} (hs : MemoryCanonical s) : MemoryCanonical (postColl s part wid k c) := by
  unfold postColl
  split
  · exact hs
  · refine foldl_holds ?_ hs
    intro t x ht
    split
    · exact ht
    · exact canonical_tellRank ht

theorem canonical_dropColl {s part wid k} (hs : MemoryCanonical s) : MemoryCanonical (dropColl s part wid k) :=
  hs

theorem canonical_putFlit {s f} (hs : MemoryCanonical s) : MemoryCanonical (putFlit s f) :=
  hs

theorem canonical_sendName {s p part core name op data} (hs : MemoryCanonical s) : MemoryCanonical (sendName s p part core name op data) := by
  unfold sendName
  split
  · exact canonical_sendFlit hs
  · exact hs

theorem canonical_nameOpDone {s op} (hs : MemoryCanonical s) : MemoryCanonical (nameOpDone s op) := by
  unfold nameOpDone
  split
  · exact hs
  · exact canonical_sendFlit hs

/-! ### Pages, the cellar and acquires (R272, R273, R277, R279) -/

theorem canonical_writeBack {s id} (hs : MemoryCanonical s) : MemoryCanonical (writeBack s id) := by
  unfold writeBack
  split
  · exact hs
  · rename_i pg hpg
    have hp := page_canonical hs hpg
    exact canonical_putCellarPage (foldl_holds (fun _ _ h => canonical_cellarBack h) hs)
      (foldl_holds (P := fun m => Memory.wf m = true) (fun m _ hm => Memory.wf_bputs _ m _ hm) hs.1) hp

theorem canonical_writeLine {s id ln} (hs : MemoryCanonical s) : MemoryCanonical (writeLine s id ln) := by
  unfold writeLine
  split
  · exact hs
  · rename_i pg hpg
    have hp := page_canonical hs hpg
    have hr := canonical_cellarBack (part := pg.part) (addr := pg.vpn * 65536 + 128 * ln) (frame := pg.leaf.frame + 128 * ln)
      (sec := (bgets pg.data (128 * ln) 128, sectorWord pg ln)) hs
    split
    · exact canonical_putCellarPage hr (Memory.wf_bputs _ _ _ hr.1) hp
    · exact hs

theorem canonical_readLine {s id ln} (hs : MemoryCanonical s) : MemoryCanonical (readLine s id ln) := by
  unfold readLine
  split
  · exact hs
  · rename_i pg hpg
    extract_lets missed data
    have hmissed : MemoryCanonical missed := canonical_homeMiss hs
    have hdata : Memory.wf data = true := Memory.wf_bputs _ _ _ (page_canonical hs hpg)
    clear_value data missed
    exact canonical_putPage hmissed hdata

theorem canonical_releasePool {s part} (hs : MemoryCanonical s) : MemoryCanonical (releasePool s part) :=
  foldl_holds (fun _ _ h => ite_holds (canonical_writeBack h) h) hs

theorem canonical_acquirePool {s part} (hs : MemoryCanonical s) : MemoryCanonical (acquirePool s part) := by
  refine foldl_holds (fun t e ht => ite_holds (ite_holds (canonical_delPage (canonical_writeBack ht)) ?_) ht) hs
  exact canonical_putPage ht (wf_freshLines ht.1)

theorem canonical_observeAcq {v p} (hv : View.Canonical v) : View.Canonical (observeAcq v p) :=
  ite_holds (View.Canonical.of_st (canonical_acquirePool hv)) hv

/-! ### The sweep (R75, R78) -/

theorem canonical_brokenChainAt {v i} (hv : View.Canonical v) : View.Canonical (brokenChainAt v i) :=
  canonical_takeTrap hv

theorem canonical_holdLanes {v k L m} (hv : View.Canonical v) : View.Canonical (holdLanes v k L m) :=
  ite_holds (canonical_tracePath hv) hv

theorem canonical_dropHolds {v m} (hv : View.Canonical v) : View.Canonical (dropHolds v m) :=
  ite_holds (foldl_holds (fun _ _ h => ite_holds h h) hv) hv

theorem canonical_endGroup {v} (hv : View.Canonical v) : View.Canonical (endGroup v) :=
  hv

theorem canonical_passMarker {v} (hv : View.Canonical v) : View.Canonical (passMarker v) :=
  ite_holds hv hv

theorem canonical_enterMarker {v L act} (hv : View.Canonical v) : View.Canonical (enterMarker v L act) :=
  ite_holds (canonical_tracePath (View.Canonical.of_st (canonical_observeAcq hv))) (View.Canonical.of_st (canonical_observeAcq hv))

theorem canonical_sweep {n task v} (hv : View.Canonical v) : View.Canonical (sweep n task v) := by
  induction n generalizing task v with
  | zero => exact hv
  | succ n ih =>
    cases task with
    | endBlock nx run =>
      simp only [sweep]
      split
      · split
        · exact ih hv
        · exact canonical_brokenChainAt hv
      · exact ite_holds (ih hv) (ih hv)
    | arrive L run =>
      simp only [sweep]
      split
      · split
        · exact ih hv
        · exact canonical_brokenChainAt hv
      · split
        · split
          · exact canonical_brokenChainAt hv
          · exact ih hv
        · have hp := canonical_passMarker hv
          split
          · exact canonical_brokenChainAt hp
          · split
            · exact ih (canonical_holdLanes hp)
            · exact ite_holds (ih hp) (canonical_enterMarker hp)
    | seek L =>
      simp only [sweep]
      split
      · exact ite_holds hv (ih hv)
      · split
        · exact ih hv
        · split
          · exact ih hv
          · exact hv

theorem canonical_runSweep {t v} (hv : View.Canonical v) : View.Canonical (runSweep t v) :=
  canonical_sweep hv

theorem canonical_endBlockWith {v run} (hv : View.Canonical v) : View.Canonical (endBlockWith v run) :=
  canonical_runSweep hv

theorem canonical_startGroup {v} (hv : View.Canonical v) : View.Canonical (startGroup v) :=
  canonical_runSweep hv

theorem canonical_startGroups {s uid n} (hs : MemoryCanonical s) : MemoryCanonical (startGroups s uid n) := by
  induction n with
  | zero => exact hs
  | succ n ih =>
    simp only [startGroups]
    split
    · exact canonical_startGroup ((canonical_viewAt ih).some ‹_›)
    · exact ih

/-! ### Operands and the issue of an instruction (R54) -/

theorem canonical_popQueue {v k q ex} (hv : View.Canonical v) : View.Canonical ((popQueue v k q ex).1) := by
  unfold popQueue
  split
  · exact hv
  · exact View.Canonical.of_st (ite_holds hv hv)

theorem canonical_writeRow {v r m row} (hv : View.Canonical v) : View.Canonical (writeRow v r m row) := by
  unfold writeRow
  split <;> exact hv

theorem canonical_readRows {ex ops v} (hv : View.Canonical v) : View.Canonical ((readRows ex ops v).1) := by
  induction ops generalizing v with
  | nil => exact hv
  | cons o os ih =>
    cases o with
    | v r n src dst =>
      cases src with
      | false => exact ih hv
      | true =>
        simp only [readRows]
        split
        · split
          · exact ih (canonical_popQueue hv)
          · exact ih hv
        · exact ih hv
    | _ => exact ih hv

theorem canonical_endIfEmpty {v} (hv : View.Canonical v) : View.Canonical (endIfEmpty v) :=
  ite_holds (canonical_endBlockWith hv) hv

theorem canonical_settle {h v fl} (hv : View.Canonical v) : View.Canonical (settle h v fl) := by
  unfold settle
  split
  · exact canonical_trapAfter (canonical_endIfEmpty hv)
  · exact canonical_endIfEmpty hv

theorem canonical_conclude {h v0 r} (hv0 : View.Canonical v0) (hr : Res.Canonical r) : View.Canonical (conclude h v0 r) := by
  unfold conclude
  split
  · exact canonical_settle hr
  · exact hr
  · exact canonical_takeTrap hv0
  · exact canonical_trapAfter (canonical_endIfEmpty hr)
  · exact hr

theorem canonical_holdAs {v ops body ex c} (hv : View.Canonical v) : Res.Canonical (holdAs v ops body ex c) := by
  refine ite_holds ?_ hv
  dsimp only
  split <;> exact hv

theorem canonical_attempt {h priv ops body v} (hbody : ∀ w x, View.Canonical w → Res.Canonical (body w x)) (hv : View.Canonical v) :
    Res.Canonical (attempt h priv ops body v) := by
  refine ite_holds trivial (ite_holds hv (ite_holds trivial ?_))
  split
  · exact trivial
  · refine ite_holds (canonical_holdAs hv) (ite_holds (canonical_holdAs hv) (ite_holds trivial ?_))
    split
    · exact canonical_holdAs hv
    · dsimp only
      split
      · exact Res.Canonical.of_hold (ite_holds ((hbody _ _ (canonical_readRows (canonical_observeAcq hv))).hold ‹_›) (canonical_observeAcq hv))
      · exact hbody _ _ (canonical_readRows (canonical_observeAcq hv))

theorem canonical_issue {h ops body s} (hbody : ∀ w x, View.Canonical w → Res.Canonical (body w x)) (hs : MemoryCanonical s) :
    OutCanonical (issue h ops body s) := by
  unfold issue
  split
  · exact trivial
  · rename_i v hv
    have hv : View.Canonical v := (canonical_currentView hs).some hv
    exact canonical_flush (canonical_conclude hv (canonical_attempt hbody hv))

theorem canonical_issueP {h ops body s} (hbody : ∀ w x, View.Canonical w → Res.Canonical (body w x)) (hs : MemoryCanonical s) :
    OutCanonical (issueP h ops body s) := by
  unfold issueP
  split
  · exact trivial
  · rename_i v hv
    have hv : View.Canonical v := (canonical_currentView hs).some hv
    exact canonical_flush (canonical_conclude hv (canonical_attempt hbody hv))

theorem canonical_writeElems {v t d m f} (hv : View.Canonical v) : View.Canonical (writeElems v t d m f) :=
  ite_holds (canonical_writeRow (canonical_writeRow hv)) (canonical_writeRow hv)

/-! ### Special and control registers -/

theorem canonical_setTraceArea {s part len x} (hs : MemoryCanonical s) : OnSome MemoryCanonical (setTraceArea s part len x) :=
  ite_holds hs trivial

theorem canonical_setBlockRing {s part x} (hs : MemoryCanonical s) : OnSome MemoryCanonical (setBlockRing s part x) :=
  ite_holds hs trivial

theorem canonical_releaseSlot {s part k} (hs : MemoryCanonical s) : MemoryCanonical (releaseSlot s part k) := by
  unfold releaseSlot
  dsimp only
  split
  · exact hs
  · refine ite_holds ?_ (canonical_modGroup hs)
    split
    · exact canonical_tracePath ((canonical_viewAt (canonical_modGroup (canonical_setPart hs))).some ‹_›)
    · exact canonical_modGroup hs

theorem canonical_setHold {s part k x binder} (hs : MemoryCanonical s) : OnSome MemoryCanonical (setHold s part k x binder) := by
  refine ite_holds ?_ (canonical_setPart (canonical_releaseSlot hs))
  split
  · exact trivial
  · refine ite_holds trivial ?_
    split
    · exact trivial
    · exact ite_holds trivial hs

theorem canonical_setCtlReg {s part n x binder} (hs : MemoryCanonical s) : OnSome MemoryCanonical (setCtlReg s part n x binder) := by
  have hset : ∀ {q p}, OnSome MemoryCanonical (some (setPart s q p)) := canonical_setPart hs
  unfold setCtlReg
  split
  · exact trivial
  · refine ite_holds trivial (ite_holds (canonical_setHold hs) (ite_holds (canonical_setTraceArea hs) (ite_holds (canonical_setTraceArea hs)
      (ite_holds (canonical_setBlockRing hs) ?_))))
    exact ite_holds trivial (ite_holds trivial (ite_holds trivial (ite_holds trivial (ite_holds trivial (ite_holds trivial
      (ite_holds trivial (ite_holds trivial hset)))))))

theorem canonical_setUser {v n x} (hv : View.Canonical v) : OnSome View.Canonical (setUser v n x) := by
  unfold setUser
  split
  · exact ite_holds hv trivial
  · exact ite_holds hv trivial
  · exact ite_holds hv trivial
  · exact trivial

end Sys2Proof.Machine
end

section
/-! PROOFS. The memories stay canonical, third part: instructions, the memories behind them and the life of a block. -/

namespace Sys2Proof.Machine
open Sys2Proof

/-! ### Scalar instructions -/

theorem canonical_doneS {v d x} (hv : View.Canonical v) : Res.Canonical (doneS v d x) :=
  hv

theorem canonical_execSmovi {h t d k i s} (hs : MemoryCanonical s) : OutCanonical (execSmovi h t d k i s) := by
  unfold execSmovi
  split <;> exact canonical_issue (fun _ _ h' => h') hs

theorem canonical_execGets {h d sr s} (hs : MemoryCanonical s) : OutCanonical (execGets h d sr s) := by
  unfold execGets execGets.issueGets
  extract_lets n ops body
  have hbody : ∀ w rows, View.Canonical w → Res.Canonical (body w rows) := by
    intro w rows hw
    refine ite_holds ?_ ?_
    · split
      · exact trivial
      · exact canonical_writeRow hw
    · split
      · exact trivial
      · split
        · exact hw
        · exact canonical_writeRow hw
  exact ite_holds (canonical_issueP hbody hs) (canonical_issue hbody hs)

theorem canonical_execSets {h sr a s} (hs : MemoryCanonical s) : OutCanonical (execSets h sr a s) := by
  refine ite_holds (canonical_issueP ?_ hs) (canonical_issue ?_ hs)
  · intro v rows hv
    refine ite_holds trivial ?_
    split
    · exact trivial
    · exact canonical_reload hv ((canonical_setCtlReg (canonical_flush hv)).some ‹_›)
  · intro v rows hv
    split
    · exact trivial
    · exact (canonical_setUser hv).some ‹_›

/-! ### Checks of capabilities and the start of operations -/

theorem canonical_check1 {v c off size need spaces} : OnSome Res.Canonical (check1 v c off size need spaces) := by
  unfold check1
  split <;> exact trivial

theorem canonical_checkRange {v c off len al need spaces} : OnSome Res.Canonical (checkRange v c off len al need spaces) := by
  refine ite_holds trivial ?_
  split <;> exact trivial

theorem canonical_lanesFail {m c off fails} : OnSome Res.Canonical (lanesFail m c off fails) := by
  unfold lanesFail
  dsimp only
  split <;> exact trivial

theorem canonical_checkLanes {v m c off size need spaces lds} : OnSome Res.Canonical (checkLanes v m c off size need spaces lds) :=
  canonical_lanesFail

theorem canonical_startOp {v h body key} (hv : View.Canonical v) : View.Canonical (startOp v h body key) :=
  hv

theorem canonical_readyOp {v h st} (hv : View.Canonical v) : View.Canonical (readyOp v h st) :=
  hv

theorem canonical_completeNow {v h st} (hv : View.Canonical v) : View.Canonical (completeNow v h st) :=
  hv

theorem canonical_startKeyed {v h body} (hv : View.Canonical v) : View.Canonical (startKeyed v h body) := by
  unfold startKeyed
  dsimp only
  split
  · exact canonical_readyOp hv
  · split
    · exact hv
    · exact canonical_startOp hv

theorem canonical_startRanged {v rs start} (hv : View.Canonical v) (hstart : ∀ w, View.Canonical w → View.Canonical (start w)) :
    View.Canonical (startRanged v rs start) := by
  refine ite_holds ?_ (foldl_holds (fun _ _ h => h) (hstart _ hv))
  split
  · exact foldl_holds (fun _ _ h => h) (hstart _ hv)
  · exact hstart _ hv

theorem canonical_withRanges {v rs start} (hv : View.Canonical v) (hstart : ∀ w, View.Canonical w → View.Canonical (start w)) :
    Res.Canonical (withRanges v rs start) :=
  ite_holds (canonical_startRanged hv hstart) hv

theorem canonical_fed {v cls r} (hv : View.Canonical v) (hr : Res.Canonical r) : Res.Canonical (fed v cls r) := by
  unfold fed
  split
  · exact ite_holds hr hv
  · exact hr

theorem canonical_withdraw {s part wid k} (hs : MemoryCanonical s) : MemoryCanonical (withdraw s part wid k) := by
  unfold withdraw
  split
  · exact hs
  · exact canonical_dropColl (canonical_postColl hs)

theorem canonical_cancelOp {s id} (hs : MemoryCanonical s) : MemoryCanonical (cancelOp s id) := by
  unfold cancelOp
  split
  · exact hs
  · rename_i o ho
    cases o.body with
    | copy | pages | enq | put | publish | stopref => exact ite_holds hs (canonical_finishOp hs)
    | fetchn => exact canonical_finishOp (canonical_modGroup hs)
    | ared | a2av => exact canonical_finishOp (canonical_withdraw hs)
    | _ => exact hs

/-! ### Barriers -/

theorem canonical_execPhase {h d s} (hs : MemoryCanonical s) : OutCanonical (execPhase h d s) := by
  refine canonical_issue ?_ hs
  intro v rows hv
  refine ite_holds ?_ ?_
  · split <;> exact hv
  · split <;> exact hv

/-! ### Vector moves -/

theorem canonical_execVmov {h t d a s} (hs : MemoryCanonical s) : OutCanonical (execVmov h t d a s) := by
  unfold execVmov
  split <;> exact canonical_issue (fun _ _ h' => canonical_writeElems h') hs

/-! ### The round of stochastic rounding -/

theorem canonical_bumpRound {v mode} (hv : View.Canonical v) : View.Canonical (bumpRound v mode) :=
  ite_holds hv hv

/-! ### The scratchpad and misaligned accesses -/

theorem canonical_setScr {v b} (hv : View.Canonical v) : View.Canonical (setScr v b) := by
  refine ite_holds ?_ hv
  split <;> exact hv

theorem canonical_loadEffect {v w d c m off} (hv : View.Canonical v) : View.Canonical (loadEffect v w d c m off) :=
  ite_holds hv (foldl_holds (fun _ _ h => canonical_writeRow h) hv)

theorem canonical_storeEffect {v w rows c m off} (hv : View.Canonical v) : View.Canonical (storeEffect v w rows c m off) :=
  canonical_setScr hv

theorem canonical_ldsCheck {v w m c off} : OnSome Res.Canonical (ldsCheck v w m c off) :=
  ite_holds canonical_lanesFail canonical_checkLanes

theorem canonical_execLds {h w d c x disp s} (hs : MemoryCanonical s) : OutCanonical (execLds h w d c x disp s) := by
  refine canonical_issue ?_ hs
  intro v rows hv
  dsimp only
  split
  · exact canonical_ldsCheck.some ‹_›
  · exact ite_holds hv (canonical_loadEffect hv)

theorem canonical_execSts {h w d c x disp s} (hs : MemoryCanonical s) : OutCanonical (execSts h w d c x disp s) := by
  refine canonical_issue ?_ hs
  intro v rows hv
  dsimp only
  split
  · exact canonical_checkLanes.some ‹_›
  · exact ite_holds hv (canonical_storeEffect hv)

theorem canonical_startEmul {v e} (hv : View.Canonical v) : View.Canonical (startEmul v e) :=
  hv

theorem canonical_emulateAccess {v i} (hv : View.Canonical v) : View.Canonical (emulateAccess v i) := by
  unfold emulateAccess
  split
  · exact canonical_startEmul (canonical_readRows hv)
  · exact canonical_startEmul (canonical_readRows hv)
  · exact hv

theorem canonical_emulEnd {v e} (hv : View.Canonical v) : View.Canonical (emulEnd v e) :=
  canonical_endIfEmpty (View.Canonical.of_st (ite_holds (foldl_holds (fun _ _ h => canonical_writeRow h) hv) hv))

theorem canonical_emulStep {v e} (hv : View.Canonical v) : View.Canonical (emulStep v e) := by
  unfold emulStep
  split
  · exact canonical_emulEnd hv
  · split
    · exact ite_holds hv (ite_holds (canonical_emulEnd hv) hv)
    · exact ite_holds hv (ite_holds (canonical_emulEnd (canonical_setScr hv)) (View.Canonical.of_st (canonical_setScr hv)))

theorem canonical_atomsOp {h op d c x disp s} (hs : MemoryCanonical s) : OutCanonical (atomsOp h op d c x disp s) := by
  refine canonical_issue ?_ hs
  intro v rows hv
  dsimp only
  split
  · exact canonical_checkLanes.some ‹_›
  · exact ite_holds hv (canonical_writeRow (canonical_setScr hv))

theorem canonical_execTaglk {h f s} (hs : MemoryCanonical s) : OutCanonical (execTaglk h f s) := by
  unfold execTaglk
  split
  · exact canonical_issue (fun _ _ h' => h') hs
  · exact canonical_issue (fun _ _ h' => canonical_writeRow h') hs

theorem canonical_execCapld {h d c x disp s} (hs : MemoryCanonical s) : OutCanonical (execCapld h d c x disp s) := by
  refine canonical_issue ?_ hs
  intro v rows hv
  dsimp only
  split
  · exact canonical_check1.some ‹_›
  · exact ite_holds hv hv

theorem canonical_execCapst {h d c x disp s} (hs : MemoryCanonical s) : OutCanonical (execCapst h d c x disp s) := by
  refine canonical_issue ?_ hs
  intro v rows hv
  dsimp only
  split
  · exact canonical_check1.some ‹_›
  · exact ite_holds hv (canonical_setScr hv)

/-! ### Translation, residency and committed bytes (R266 to R277) -/

theorem canonical_walkFlits {s stop part vpn} (hs : MemoryCanonical s) : MemoryCanonical (walkFlits s stop part vpn) :=
  ite_holds (foldl_holds (fun _ _ h => canonical_cellarMiss h) hs) hs

theorem canonical_tlbPut {s c micro part vpn l} (hs : MemoryCanonical s) : MemoryCanonical (tlbPut s c micro part vpn l) :=
  hs

theorem canonical_tlbFill {s c part vpn l} (hs : MemoryCanonical s) : MemoryCanonical (tlbFill s c part vpn l) :=
  ite_holds (canonical_tlbPut (ite_holds hs hs)) (ite_holds hs hs)

theorem canonical_translate {s core part vpn} (hs : MemoryCanonical s) : MemoryCanonical ((translate s core part vpn).1) := by
  unfold translate
  split
  · exact canonical_walkFlits hs
  · extract_lets fresh
    have hfresh : ∀ t, MemoryCanonical t → MemoryCanonical (fresh t).1 := by
      intro t ht
      simp only [fresh]
      split
      · exact canonical_tlbFill (canonical_walkFlits ht)
      · exact canonical_walkFlits ht
    split
    · exact ite_holds (P := fun x : State × Except Nat Leaf => MemoryCanonical x.1) (canonical_tlbFill hs) (hfresh _ hs)
    · exact hfresh _ hs

theorem canonical_setStop {s c x} (hs : MemoryCanonical s) : MemoryCanonical (setStop s c x) :=
  hs

theorem canonical_requestPage {s part vpn l} (hs : MemoryCanonical s) : MemoryCanonical (requestPage s part vpn l) := by
  unfold requestPage
  extract_lets p v
  split
  · exact hs
  · exact ite_holds hs (canonical_setPart hs)

theorem canonical_meet {s core part addr rd wr} (hs : MemoryCanonical s) : MemoryCanonical ((meet s core part addr rd wr).1) := by
  have hr := canonical_translate (core := core) (part := part) (vpn := vpnOf addr) hs
  unfold meet
  dsimp only
  split
  · exact hr
  · split
    · exact hr
    · split
      · exact hr
      · split
        · rename_i id pg hpg
          split
          · exact hr
          · split
            · exact hr
            · exact canonical_putPage hr (hr.2 _ (List.mem_of_find?_eq_some hpg))
        · exact ite_holds (canonical_requestPage hr) hr

theorem canonical_watchWrite {s part w addr n prov before after} (hs : MemoryCanonical s) :
    MemoryCanonical (watchWrite s part w addr n prov before after) :=
  ite_holds hs (foldl_holds (fun _ _ h => foldl_holds (fun _ _ h' => ite_holds h' h') h) hs)

theorem canonical_clearLost {s part cov} (hs : MemoryCanonical s) : MemoryCanonical (clearLost s part cov) :=
  hs

theorem canonical_commitBytes {s part id off addr bs w} (hs : MemoryCanonical s) : MemoryCanonical (commitBytes s part id off addr bs w) := by
  unfold commitBytes
  split
  · exact hs
  · rename_i pg hpg
    exact canonical_watchWrite (canonical_putPage hs (Memory.wf_bputs _ _ _ (page_canonical hs hpg)))

theorem canonical_provBytes {s uid addr bs w com} (hs : MemoryCanonical s) : MemoryCanonical (provBytes s uid addr bs w com) := by
  unfold provBytes
  split
  · exact hs
  · exact canonical_watchWrite hs

/-! ### The copy engine -/

theorem canonical_rowsCheck {v cap offs esz len need sp} : OnSome Res.Canonical (rowsCheck v cap offs esz len need sp) := by
  unfold rowsCheck
  split
  · extract_lets al mis
    split <;> exact trivial
  · exact trivial

theorem canonical_laneRow {v cap l off esz len need sp} : OnSome Res.Canonical (laneRow v cap l off esz len need sp) := by
  unfold laneRow
  split <;> exact trivial

theorem canonical_lanesCheck {v g s inb rows esz len} : OnSome Res.Canonical (lanesCheck v g s inb rows esz len) :=
  onSome_findSome (fun _ => OnSome.orElse canonical_laneRow canonical_laneRow)

theorem canonical_rowChecks {v g s c} : OnSome Res.Canonical (rowChecks v g s c) := by
  unfold rowChecks
  split
  · exact canonical_lanesCheck
  · exact OnSome.orElse canonical_rowsCheck (ite_holds canonical_rowsCheck canonical_rowsCheck)

theorem canonical_copyChecks {v g s c} : OnSome Res.Canonical (copyChecks v g s c) := by
  unfold copyChecks
  split
  · split <;> exact trivial
  · exact canonical_rowChecks.some ‹_›
  · exact ite_holds trivial trivial

theorem canonical_issueCopy {v d g s c} (hv : View.Canonical v) : Res.Canonical (issueCopy v d g s c) := by
  unfold issueCopy
  split
  · exact canonical_copyChecks.some ‹_›
  · exact canonical_fed hv (canonical_withRanges hv (fun _ h => h))

theorem canonical_execCopy {h t d g s a b c out plane st} (hst : MemoryCanonical st) : OutCanonical (execCopy h t d g s a b c out plane st) := by
  refine canonical_issue ?_ hst
  intro v rows hv
  split
  · exact trivial
  · exact ite_holds trivial (canonical_issueCopy hv)

theorem canonical_gatherOp {h t d g s a b c i inb st} (hst : MemoryCanonical st) : OutCanonical (gatherOp h t d g s a b c i inb st) := by
  refine canonical_issue ?_ hst
  intro v rows hv
  split
  · exact trivial
  · exact ite_holds trivial (canonical_issueCopy hv)

theorem canonical_sendAccess {s o addr data back} (hs : MemoryCanonical s) : MemoryCanonical (sendAccess s o addr data back) := by
  unfold sendAccess
  split
  · exact canonical_engineFlit hs
  · exact hs

theorem canonical_engineRead {s o addr n} (hs : MemoryCanonical s) : MemoryCanonical ((engineRead s o addr n).1) := by
  unfold engineRead
  dsimp only
  split
  · exact canonical_meet hs
  · exact canonical_sendAccess (canonical_meet hs)
  · split <;> exact canonical_sendAccess (canonical_meet hs)
  · exact canonical_sendAccess (canonical_meet hs)

theorem canonical_engineStore {s o addr bs} (hs : MemoryCanonical s) : StoreRes.Canonical (engineStore s o addr bs) := by
  unfold engineStore
  dsimp only
  split
  · exact canonical_meet hs
  · exact canonical_meet hs
  · exact canonical_requestPage (canonical_meet hs)
  · split
    · exact canonical_meet hs
    · exact canonical_meet hs
    · exact canonical_provBytes (canonical_sendAccess (canonical_meet hs))

theorem canonical_opScratchPut {s o a bs} (hs : MemoryCanonical s) : MemoryCanonical (opScratchPut s o a bs) := by
  unfold opScratchPut
  split <;> exact hs

theorem canonical_setBody {s id b} (hs : MemoryCanonical s) : MemoryCanonical (setBody s id b) :=
  hs

theorem canonical_noteAddr {s id addr} (hs : MemoryCanonical s) : MemoryCanonical (noteAddr s id addr) :=
  hs

theorem canonical_noteFirst {s id addr old new} (hs : MemoryCanonical s) : MemoryCanonical (noteFirst s id addr old new) :=
  ite_holds hs hs

theorem canonical_readPieces {s o addr w k n} (hs : MemoryCanonical s) : MemoryCanonical ((readPieces s o addr w k n).1) := by
  induction n with
  | zero => exact hs
  | succ n ih =>
    simp only [readPieces]
    split
    · exact ih
    · exact canonical_engineRead ih

theorem canonical_moveIn {s id o c i} (hs : MemoryCanonical s) : MemoryCanonical (moveIn s id o c i) := by
  unfold moveIn
  extract_lets a r ws stored
  have hr : MemoryCanonical r.1 :=
    ite_holds (P := fun x : State × Found => MemoryCanonical x.1) (canonical_readPieces hs) (canonical_readPieces hs)
  have hstored : MemoryCanonical stored := ite_holds (foldl_holds (fun _ _ h => canonical_opScratchPut h) hr) (canonical_opScratchPut hr)
  exact canonical_setBody (canonical_noteFirst hstored)

theorem canonical_putGot {s id got} (hs : MemoryCanonical s) : MemoryCanonical (putGot s id got) :=
  hs

theorem canonical_putWrote {s id n} (hs : MemoryCanonical s) : MemoryCanonical (putWrote s id n) :=
  hs

theorem canonical_planeEvent {s id o c i j} (hs : MemoryCanonical s) : MemoryCanonical (planeEvent s id o c i j) :=
  ite_holds (ite_holds hs (canonical_putGot (canonical_setBody (canonical_noteFirst (canonical_readPieces hs)))))
      (ite_holds (canonical_putWrote (canonical_opScratchPut hs)) hs)

theorem canonical_moveOut {s id o c i} (hs : MemoryCanonical s) : MemoryCanonical (moveOut s id o c i) := by
  unfold moveOut
  dsimp only
  split
  · exact (canonical_engineStore hs).wait ‹_›
  · exact canonical_setBody ((canonical_engineStore hs).done ‹_›)
  · exact canonical_setBody (canonical_noteFirst ((canonical_engineStore hs).bad ‹_›))

theorem canonical_badStatus {s bad} (hs : MemoryCanonical s) : MemoryCanonical ((badStatus s bad).2) := by
  unfold badStatus
  repeat' split
  all_goals exact hs

theorem canonical_finishBad {s id o bad} (hs : MemoryCanonical s) : MemoryCanonical (finishBad s id o bad) :=
  ite_holds (canonical_finishOp (canonical_badStatus hs)) (canonical_lateTrap (canonical_finishOp (canonical_badStatus hs)))

theorem canonical_endLogged {s id o st} (hs : MemoryCanonical s) : MemoryCanonical (endLogged s id o st) := by
  unfold endLogged
  split
  · exact hs
  · exact canonical_finishBad hs
  · exact canonical_finishOp hs

theorem canonical_copyElem {s id o c i} (hs : MemoryCanonical s) : MemoryCanonical (copyElem s id o c i) :=
  ite_holds (ite_holds (ite_holds (canonical_moveIn hs) (canonical_moveOut hs)) hs) (ite_holds (canonical_planeEvent hs) hs)

theorem canonical_execCopyComplete {id elem s} (hs : MemoryCanonical s) : OutCanonical (execCopyComplete id elem s) := by
  unfold execCopyComplete
  split
  · split
    · split
      · exact OutCanonical.of_next (ite_holds (canonical_copyElem hs) hs)
      · refine OutCanonical.of_next (ite_holds hs ?_)
        split
        · exact canonical_finishBad hs
        · exact canonical_finishOp hs
    · exact hs
  · exact hs

theorem canonical_readEarly {s id o a n} (hs : MemoryCanonical s) : MemoryCanonical (readEarly s id o a n) :=
  ite_holds hs hs

theorem canonical_putRest {s o a bs} (hs : MemoryCanonical s) : MemoryCanonical (putRest s o a bs) :=
  ite_holds (canonical_opScratchPut hs) (foldl_holds (fun _ _ h => ite_holds h (canonical_opScratchPut h)) hs)

theorem canonical_execRangeEntryRelease {x s} (hs : MemoryCanonical s) : OutCanonical (execRangeEntryRelease x s) := by
  unfold execRangeEntryRelease
  split
  · split
    · split
      · exact OutCanonical.of_next (ite_holds hs hs)
      · exact OutCanonical.of_next (ite_holds (canonical_readEarly hs) hs)
      · exact canonical_sendName hs
      · exact hs
    · exact hs
  · exact hs

/-! ### Global atomics -/

theorem canonical_acquiring {v wide id b} (hv : View.Canonical v) : View.Canonical (acquiring v wide id b) :=
  ite_holds hv hv

theorem canonical_atomgLogged {v d b e wide} (hv : View.Canonical v) : Res.Canonical (atomgLogged v d b e wide) :=
  canonical_acquiring hv

theorem canonical_atomgOp {h op sc d b c o sw big sg acq s} (hs : MemoryCanonical s) :
    OutCanonical (atomgOp h op sc d b c o sw big sg acq s) := by
  unfold atomgOp
  extract_lets xs
  refine canonical_issue ?_ hs
  intro v rows hv
  extract_lets cap off
  split
  · exact canonical_check1.some ‹_›
  · split
    · exact canonical_atomgLogged hv
    · exact canonical_startOp hv

theorem canonical_execAtomgAdd {h sc d b c o big sg acq s} (hs : MemoryCanonical s) : OutCanonical (execAtomgAdd h sc d b c o big sg acq s) :=
  canonical_atomgOp hs

theorem canonical_execAtomgAnd {h sc d b c o big sg acq s} (hs : MemoryCanonical s) : OutCanonical (execAtomgAnd h sc d b c o big sg acq s) :=
  canonical_atomgOp hs

theorem canonical_execAtomgOr {h sc d b c o big sg acq s} (hs : MemoryCanonical s) : OutCanonical (execAtomgOr h sc d b c o big sg acq s) :=
  canonical_atomgOp hs

theorem canonical_execAtomgXor {h sc d b c o big sg acq s} (hs : MemoryCanonical s) : OutCanonical (execAtomgXor h sc d b c o big sg acq s) :=
  canonical_atomgOp hs

theorem canonical_execAtomgMin {h sc d b c o big sg acq s} (hs : MemoryCanonical s) : OutCanonical (execAtomgMin h sc d b c o big sg acq s) :=
  canonical_atomgOp hs

theorem canonical_execAtomgMax {h sc d b c o big sg acq s} (hs : MemoryCanonical s) : OutCanonical (execAtomgMax h sc d b c o big sg acq s) :=
  canonical_atomgOp hs

theorem canonical_execAtomgExch {h sc d b c o big sg acq s} (hs : MemoryCanonical s) : OutCanonical (execAtomgExch h sc d b c o big sg acq s) :=
  canonical_atomgOp hs

theorem canonical_execAtomgCas {h sc d b c o sw big sg acq s} (hs : MemoryCanonical s) : OutCanonical (execAtomgCas h sc d b c o sw big sg acq s) :=
  canonical_atomgOp hs

theorem canonical_execAtomgFadd {h sc d b c o acq s} (hs : MemoryCanonical s) : OutCanonical (execAtomgFadd h sc d b c o acq s) :=
  canonical_atomgOp hs

theorem canonical_lateFlags {s o fl} (hs : MemoryCanonical s) : MemoryCanonical (lateFlags s o fl) := by
  unfold lateFlags
  split
  · exact canonical_lateTrap (canonical_modGroup hs)
  · exact canonical_modGroup hs

theorem canonical_atomgLand {s id o b old fl} (hs : MemoryCanonical s) : MemoryCanonical (atomgLand s id o b old fl) :=
  canonical_lateFlags (canonical_finishOp (canonical_modGroup hs))

theorem canonical_lockLine {s pid ln} (hs : MemoryCanonical s) : MemoryCanonical (lockLine s pid ln) :=
  canonical_readLine (canonical_writeLine hs)

theorem canonical_atomgAt {s id o op big sg acq sc b addr x y pid off} (hs : MemoryCanonical s) :
    MemoryCanonical (atomgAt s id o op big sg acq sc b addr x y pid off) := by
  unfold atomgAt
  extract_lets n part shr sent locked old r dropped committed written acquired
  have hsent : MemoryCanonical sent := canonical_sendAccess hs
  have hlocked : MemoryCanonical locked := ite_holds (canonical_lockLine hsent) hsent
  have hdropped : MemoryCanonical dropped := by
    simp only [dropped]
    split
    · exact canonical_setBlk hlocked
    · exact hlocked
  have hcommitted : MemoryCanonical committed := canonical_commitBytes hdropped
  have hwritten : MemoryCanonical written := ite_holds (canonical_writeLine hcommitted) hcommitted
  exact canonical_atomgLand (ite_holds (canonical_modGroup hwritten) hwritten)

theorem canonical_execAtomgApply {id s} (hs : MemoryCanonical s) : OutCanonical (execAtomgApply id s) := by
  unfold execAtomgApply
  split
  · split
    · dsimp only
      split
      · exact canonical_finishBad (canonical_noteAddr (canonical_modGroup (canonical_meet hs)))
      · exact canonical_finishBad (canonical_noteAddr (canonical_modGroup (canonical_meet hs)))
      · exact canonical_requestPage (canonical_meet hs)
      · split
        · exact canonical_atomgAt (canonical_meet hs)
        · exact canonical_meet hs
        · exact canonical_finishBad (canonical_noteAddr (canonical_meet hs))
    · exact hs
  · exact hs

/-! ### WANT, CALL, EXIT, SPAWN and LAUNCH -/

theorem canonical_wantTrace {v minor m target extra ext} (hv : View.Canonical v) : View.Canonical (wantTrace v minor m target extra ext) :=
  ite_holds hv hv

theorem canonical_execWants {h neg a l s} (hs : MemoryCanonical s) : OutCanonical (execWants h neg a l s) :=
  canonical_issue (fun _ _ h' => ite_holds h' (ite_holds (View.Canonical.of_st (canonical_wantTrace h')) trivial)) hs

theorem canonical_exitGroup {v} (hv : View.Canonical v) : View.Canonical (exitGroup v) :=
  canonical_endGroup (View.Canonical.of_st (canonical_dropHolds hv))

theorem canonical_execCall {h f s} (hs : MemoryCanonical s) : OutCanonical (execCall h f s) :=
  canonical_issue (fun _ _ h' => ite_holds trivial (ite_holds trivial (ite_holds trivial (View.Canonical.of_st (canonical_wantTrace h'))))) hs

theorem canonical_spawnChild {v h f e s c serial key} (hv : View.Canonical v) : View.Canonical (spawnChild v h f e s c serial key) :=
  canonical_startOp hv

theorem canonical_execSpawn {h d f e a c n m s} (hs : MemoryCanonical s) : OutCanonical (execSpawn h d f e a c n m s) := by
  refine canonical_issue ?_ hs
  intro v rows hv
  dsimp only
  split
  · exact canonical_readyOp hv
  · split
    · exact hv
    · split
      · exact Res.Canonical.of_done (ite_holds (canonical_completeNow hv) (canonical_startOp hv))
      · exact canonical_spawnChild hv

theorem canonical_execLaunch {h d c o s} (hs : MemoryCanonical s) : OutCanonical (execLaunch h d c o s) := by
  refine canonical_issue ?_ hs
  intro v rows hv
  dsimp only
  split
  · exact canonical_checkRange.some ‹_›
  · split
    · exact canonical_readyOp hv
    · split
      · exact hv
      · exact canonical_startOp hv

/-! ### The trunk -/

theorem canonical_putTrunk {s uid part save slices bytes} (hs : MemoryCanonical s) : MemoryCanonical (putTrunk s uid part save slices bytes) :=
  hs

theorem canonical_dropTrunk {s uid save} (hs : MemoryCanonical s) : MemoryCanonical (dropTrunk s uid save) :=
  hs

theorem canonical_writeResume {s uid b r} (hs : MemoryCanonical s) : MemoryCanonical (writeResume s uid b r) :=
  hs

theorem canonical_freshSaves {s} (hs : MemoryCanonical s) : MemoryCanonical (freshSaves s) :=
  hs

/-! ### The life of a block -/

theorem canonical_devStore {s part addr bs w} (hs : MemoryCanonical s) : StoreRes.Canonical (devStore s part addr bs w) := by
  unfold devStore
  dsimp only
  split
  · exact canonical_meet hs
  · exact canonical_meet hs
  · exact canonical_requestPage (canonical_meet hs)
  · exact canonical_commitBytes (canonical_meet hs)

theorem canonical_coverDone {part addr n r} (hr : StoreRes.Canonical r) : StoreRes.Canonical (coverDone part addr n r) := by
  unfold coverDone
  split <;> exact hr

theorem canonical_devStoreAll {s part w addr bs} (hs : MemoryCanonical s) : StoreRes.Canonical (devStoreAll s part w addr bs) := by
  unfold devStoreAll
  dsimp only
  split
  · rename_i r hr
    refine (onSome_findSome (P := StoreRes.Canonical) fun p => ?_).some hr
    split
    · exact trivial
    · exact canonical_devStore hs
  · refine canonical_coverDone (foldl_holds (fun r p hr => ?_) hs)
    split
    · exact canonical_devStore hr
    · exact hr

theorem canonical_devLoad {s part addr n} (hs : MemoryCanonical s) : LoadRes.Canonical (devLoad s part addr n) := by
  induction n with
  | zero => exact trivial
  | succ n ih =>
    simp only [devLoad]
    split
    · split
      · exact trivial
      · exact trivial
      · exact canonical_requestPage (canonical_meet hs)
      · exact trivial
    · exact ih

theorem canonical_commitWord {s uid part word bs} (hs : MemoryCanonical s) : MemoryCanonical (commitWord s uid part word bs) := by
  unfold commitWord
  split
  · exact hs
  · rename_i id pg hpg
    exact canonical_watchWrite (canonical_putPage hs (wf_foldl_bput (hs.2 _ (List.mem_of_find?_eq_some hpg))))

theorem canonical_commitProv {s uid sc} (hs : MemoryCanonical s) : MemoryCanonical (commitProv s uid sc) := by
  unfold commitProv
  split
  · exact hs
  · extract_lets words cleared committed
    have hcommitted : MemoryCanonical committed :=
      foldl_holds (fun _ _ h => canonical_commitWord h) (canonical_clearLost (canonical_setBlk hs))
    exact ite_holds (canonical_releasePool hcommitted) hcommitted

theorem canonical_unqueue {s uid} (hs : MemoryCanonical s) : MemoryCanonical (unqueue s uid) :=
  hs

theorem canonical_endBlockWithStatus {s uid st} (hs : MemoryCanonical s) : MemoryCanonical (endBlockWithStatus s uid st) := by
  unfold endBlockWithStatus
  split
  · exact hs
  · exact canonical_unqueue hs

theorem canonical_cancelAll {s uid} (hs : MemoryCanonical s) : MemoryCanonical (cancelAll s uid) :=
  foldl_holds (fun _ _ h => canonical_cancelOp h) hs

theorem canonical_stopBlock {s uid} (hs : MemoryCanonical s) : MemoryCanonical (stopBlock s uid) :=
  canonical_endBlockWithStatus (canonical_cancelAll hs)

theorem canonical_modStage {s l n f} (hs : MemoryCanonical s) : MemoryCanonical (modStage s l n f) :=
  hs

theorem canonical_addFiring {s l stage name ver} (hs : MemoryCanonical s) : MemoryCanonical (addFiring s l stage name ver) :=
  hs

theorem canonical_setOwed {s name sub x} (hs : MemoryCanonical s) : MemoryCanonical (setOwed s name sub x) := by
  unfold setOwed
  split <;> exact hs

theorem canonical_fireSub {s name ver sub} (hs : MemoryCanonical s) : MemoryCanonical (fireSub s name ver sub) := by
  unfold fireSub
  split
  · exact hs
  · refine ite_holds hs (ite_holds hs (ite_holds (canonical_modStage (canonical_setOwed hs)) ?_))
    split
    · exact canonical_setBlk (canonical_setOwed hs)
    · split
      · exact canonical_addFiring (canonical_setOwed hs)
      · split
        · exact canonical_setOwed hs
        · exact canonical_addFiring (foldl_holds (fun _ _ h => canonical_stopBlock h) (canonical_setOwed hs))
        · exact canonical_addFiring (canonical_setOwed hs)

theorem canonical_recordSet {s lch pset st} (hs : MemoryCanonical s) : MemoryCanonical (recordSet s lch pset st) :=
  hs

theorem canonical_decideSet {s lch pset} (hs : MemoryCanonical s) : MemoryCanonical (decideSet s lch pset) := by
  unfold decideSet
  split
  · exact hs
  · exact ite_holds hs (ite_holds hs (ite_holds hs hs))

theorem canonical_decideSets {s part} (hs : MemoryCanonical s) : MemoryCanonical (decideSets s part) :=
  foldl_holds (fun _ _ h => ite_holds (foldl_holds (fun _ _ h' => canonical_decideSet h') h) h) hs

theorem canonical_followUp {s b} (hs : MemoryCanonical s) : MemoryCanonical (followUp s b) := by
  unfold followUp
  split
  · exact hs
  · exact ite_holds hs (foldl_holds (fun _ _ h => ite_holds (canonical_fireSub h) h) hs)

theorem canonical_ringProbe {s part base len ptr n} (hs : MemoryCanonical s) : MemoryCanonical ((ringProbe s part base len ptr n).1) := by
  induction n with
  | zero => exact hs
  | succ n ih =>
    simp only [ringProbe]
    split
    · split
      · exact canonical_meet ih
      · exact canonical_requestPage (canonical_meet ih)
      · exact canonical_meet ih
    · exact ih

theorem canonical_ringWrite {s part base len ptr bs n} (hs : MemoryCanonical s) : MemoryCanonical (ringWrite s part base len ptr bs n) := by
  induction n with
  | zero => exact hs
  | succ n ih =>
    simp only [ringWrite]
    split
    · exact (canonical_devStore ih).done ‹_›
    · exact ih

theorem canonical_countDropped {s part cl} (hs : MemoryCanonical s) : MemoryCanonical (countDropped s part cl) :=
  hs

theorem canonical_writeRecord {s part bs} (hs : MemoryCanonical s) : MemoryCanonical ((writeRecord s part bs).1) := by
  unfold writeRecord
  dsimp only
  split
  · split
    · exact canonical_ringProbe hs
    · exact canonical_countDropped (canonical_ringProbe hs)
    · exact canonical_setPart (canonical_ringWrite (canonical_ringProbe hs))
  · exact hs

theorem canonical_clearSlots {s part uid} (hs : MemoryCanonical s) : MemoryCanonical (clearSlots s part uid) :=
  hs

theorem canonical_childDone {s uid status} (hs : MemoryCanonical s) : MemoryCanonical (childDone s uid status) := by
  unfold childDone
  split
  · exact canonical_finishOp hs
  · exact hs

theorem canonical_reportBlock {s uid} (hs : MemoryCanonical s) : MemoryCanonical (reportBlock s uid) := by
  unfold reportBlock
  split
  · exact hs
  · exact ite_holds (ite_holds (canonical_of_eq (canonical_writeRecord hs) rfl rfl) (canonical_writeRecord hs)) hs

theorem canonical_completeBlock {s uid status} (hs : MemoryCanonical s) : MemoryCanonical (completeBlock s uid status) := by
  unfold completeBlock
  split
  · exact hs
  · extract_lets cleared closed told counted
    have htold : MemoryCanonical told :=
      canonical_childDone (canonical_unqueue (canonical_setBlk (canonical_clearSlots (canonical_dropTrunk (canonical_dropTrunk hs)))))
    have hcounted : MemoryCanonical counted := ite_holds (canonical_of_eq htold rfl rfl) htold
    exact canonical_reportBlock (canonical_decideSets (canonical_followUp hcounted))

theorem canonical_dropFault {s uid} (hs : MemoryCanonical s) : MemoryCanonical (dropFault s uid) :=
  hs

theorem canonical_reholdGroup {s uid gid} (hs : MemoryCanonical s) : MemoryCanonical (reholdGroup s uid gid) := by
  unfold reholdGroup
  split
  · exact hs
  · exact canonical_modGroup hs

theorem canonical_reholdBlock {s uid n} (hs : MemoryCanonical s) : MemoryCanonical (reholdBlock s uid n) := by
  induction n with
  | zero => exact hs
  | succ n ih => exact canonical_reholdGroup ih

theorem canonical_refireOne {s uid} (hs : MemoryCanonical s) : MemoryCanonical (refireOne s uid) := by
  unfold refireOne
  split
  · exact hs
  · extract_lets gone kept cleared unfaulted b
    have hkept : MemoryCanonical kept := foldl_holds (fun _ _ h => canonical_delOp h) hs
    have hunfaulted : MemoryCanonical unfaulted := canonical_dropFault (canonical_of_eq hkept rfl rfl)
    split
    · exact canonical_reholdBlock (canonical_setBlk hunfaulted)
    · exact canonical_startGroups (canonical_reholdBlock (canonical_setBlk hunfaulted))

theorem canonical_limitedOne {s uid} (hs : MemoryCanonical s) : MemoryCanonical (limitedOne s uid) := by
  unfold limitedOne
  split
  · exact hs
  · exact ite_holds hs (ite_holds (canonical_refireOne hs) (canonical_setBlk hs))

theorem canonical_limitedRefire {s uid} (hs : MemoryCanonical s) : MemoryCanonical (limitedRefire s uid) :=
  foldl_holds (fun _ _ h => canonical_limitedOne h) hs

/-! ### Queue streams and PAGEREQ -/

theorem canonical_armQueue {h t k c o st n load s} (hs : MemoryCanonical s) : OutCanonical (armQueue h t k c o st n load s) := by
  refine canonical_issue ?_ hs
  intro v rows hv
  refine ite_holds trivial (ite_holds trivial (ite_holds ?_ ?_))
  · split
    · exact canonical_fed hv hv
    · exact trivial
  · split
    · exact (OnSome.orElse canonical_check1 canonical_check1).some ‹_›
    · exact ite_holds trivial (canonical_fed hv hv)

theorem canonical_execQres {h d k s} (hs : MemoryCanonical s) : OutCanonical (execQres h d k s) := by
  refine canonical_issue ?_ hs
  intro v rows hv
  split
  · exact ite_holds hv trivial
  · exact trivial

theorem canonical_setQueue {s b g k q} (hs : MemoryCanonical s) : MemoryCanonical (setQueue s b g k q) :=
  canonical_modGroup hs

theorem canonical_readElem {s b g k q i l} (hs : MemoryCanonical s) : MemoryCanonical (readElem s b g k q i l) := by
  unfold readElem
  split
  · exact hs
  · refine ite_holds ?_ hs
    dsimp only
    split
    · exact canonical_lateTrap (canonical_setQueue (canonical_engineRead hs))
    · exact canonical_setQueue (canonical_engineRead hs)

theorem canonical_execLoadQueueReadahead {b g what s} (hs : MemoryCanonical s) : OutCanonical (execLoadQueueReadahead b g what s) := by
  unfold execLoadQueueReadahead
  extract_lets k
  split
  · exact hs
  · split
    · exact hs
    · refine OutCanonical.of_next (ite_holds ?_ hs)
      split
      · exact ite_holds (canonical_readElem hs) hs
      · exact ite_holds (canonical_setQueue hs) hs

theorem canonical_execStoreQueueWrite {id lane s} (hs : MemoryCanonical s) : OutCanonical (execStoreQueueWrite id lane s) := by
  unfold execStoreQueueWrite
  split
  · split
    · split
      · exact OutCanonical.of_next (ite_holds (canonical_finishOp hs) hs)
      · refine OutCanonical.of_next (ite_holds ?_ hs)
        split
        · exact (canonical_engineStore hs).wait ‹_›
        · exact canonical_setBody ((canonical_engineStore hs).done ‹_›)
        · exact canonical_lateTrap (canonical_setBody ((canonical_engineStore hs).bad ‹_›))
    · exact hs
  · exact hs

theorem canonical_requestAll {s part vs} (hs : MemoryCanonical s) : MemoryCanonical (requestAll s part vs) := by
  refine foldl_holds ?_ hs
  intro t x ht
  split
  · exact canonical_requestPage ht
  · exact ht

theorem canonical_startPages {v d vs} (hv : View.Canonical v) : View.Canonical (startPages v d vs) := by
  unfold startPages
  split
  · exact hv
  · exact hv
  · exact View.Canonical.of_st (canonical_requestAll hv)

theorem canonical_execPagereq {h d f s} (hs : MemoryCanonical s) : OutCanonical (execPagereq h d f s) := by
  unfold execPagereq
  split
  · refine canonical_issue ?_ hs
    intro v rows hv
    refine ite_holds trivial ?_
    split
    · exact canonical_checkRange.some ‹_›
    · exact canonical_startPages hv
  · refine canonical_issue ?_ hs
    intro v rows hv
    split
    · exact canonical_startPages hv
    · exact hv

end Sys2Proof.Machine
end

section
/-! PROOFS. The memories stay canonical, fourth part: named tiles, launches, graphs and scheduling. -/

namespace Sys2Proof.Machine
open Sys2Proof

/-! ### Named tiles -/

theorem canonical_evictShelves {s part stop need n} (hs : MemoryCanonical s) : MemoryCanonical (evictShelves s part stop need n) := by
  induction n generalizing s with
  | zero => exact hs
  | succ n ih =>
    simp only [evictShelves]
    split
    · exact hs
    · split
      · exact ih hs
      · exact hs

theorem canonical_takeUnits {s part stop need old} (hs : MemoryCanonical s) : OnSome MemoryCanonical (takeUnits s part stop need old) :=
  ite_holds (canonical_evictShelves hs) trivial

theorem canonical_putEnt {s stop e} (hs : MemoryCanonical s) : MemoryCanonical (putEnt s stop e) :=
  hs

theorem canonical_freshInterest {s part name vmin deadline stop home} (hs : MemoryCanonical s) :
    MemoryCanonical (freshInterest s part name vmin deadline stop home) :=
  ite_holds hs hs

theorem canonical_localInterest {s part name vmin deadline stop} (hs : MemoryCanonical s) :
    MemoryCanonical (localInterest s part name vmin deadline stop) :=
  hs

theorem canonical_hopTile {s p dir echo} (hs : MemoryCanonical s) : MemoryCanonical (hopTile s p dir echo) :=
  hs

theorem canonical_sendTile {s p dir echo} (hs : MemoryCanonical s) : MemoryCanonical (sendTile s p dir echo) :=
  ite_holds hs hs

theorem canonical_tookInput {s p stop dir num} (hs : MemoryCanonical s) : MemoryCanonical (tookInput s p stop dir num) :=
  ite_holds hs hs

theorem canonical_endFetch {s id o st} (hs : MemoryCanonical s) : MemoryCanonical (endFetch s id o st) := by
  unfold endFetch
  split
  · exact canonical_finishOp (canonical_modGroup hs)
  · exact hs

theorem canonical_deliverLocal {s p echo} (hs : MemoryCanonical s) : MemoryCanonical (deliverLocal s p echo) := by
  refine foldl_holds ?_ (ite_holds (canonical_cutRate hs) hs)
  intro t x ht
  split
  · refine ite_holds ?_ ht
    split <;> exact ht
  · exact canonical_lateTrap (canonical_endFetch ht)
  · exact canonical_endFetch ht
  · exact ite_holds (canonical_lateTrap (canonical_endFetch ht)) ht

theorem canonical_keepShelf {s p} (hs : MemoryCanonical s) : MemoryCanonical (keepShelf s p) :=
  ite_holds hs (canonical_setStop (canonical_evictShelves hs))

theorem canonical_tileAt {s p} (hs : MemoryCanonical s) : MemoryCanonical (tileAt s p) := by
  unfold tileAt
  extract_lets home keep hit answered kept again
  split
  · exact ite_holds (canonical_keepShelf hs) hs
  · have hanswered : MemoryCanonical answered := foldl_holds (fun _ _ h => ite_holds (canonical_deliverLocal h) (canonical_sendTile h)) hs
    have hkept : MemoryCanonical kept := ite_holds (canonical_keepShelf hanswered) hanswered
    extract_lets live rest
    clear_value home rest
    split
    · exact canonical_putEnt hkept
    · exact ite_holds (canonical_putEnt hkept) (canonical_putEnt (canonical_freshInterest hkept))
    · exact canonical_putEnt hkept

theorem canonical_putTile {s i p} (hs : MemoryCanonical s) : MemoryCanonical (putTile s i p) :=
  hs

theorem canonical_execTileArrival {i s} (hs : MemoryCanonical s) : OutCanonical (execTileArrival i s) := by
  unfold execTileArrival
  split
  · exact OutCanonical.of_next (ite_holds (ite_holds (canonical_hopTile hs) (canonical_tileAt (canonical_tookInput hs)))
      (ite_holds hs (ite_holds (canonical_putTile hs) (canonical_putTile hs))))
  · exact hs

theorem canonical_answerToward {s p dir echo} (hs : MemoryCanonical s) : MemoryCanonical (answerToward s p dir echo) :=
  ite_holds (canonical_deliverLocal hs) (canonical_sendTile hs)

theorem canonical_interestAt {s p home dir} (hs : MemoryCanonical s) : OnSome MemoryCanonical (interestAt s p home dir) :=
  ite_holds trivial (ite_holds (ite_holds (canonical_tileAt hs) hs) (ite_holds (canonical_putEnt hs) hs))

theorem canonical_takeInterest {s gone p} (hs : MemoryCanonical s) (hgone : MemoryCanonical gone) : MemoryCanonical (takeInterest s gone p) := by
  unfold takeInterest
  split
  · refine ite_holds hgone ?_
    split
    · exact canonical_answerToward hgone
    · exact OnSome.getD (canonical_interestAt hgone) hs
  · exact ite_holds hgone (canonical_answerToward hgone)

theorem canonical_execInterestArrival {i s} (hs : MemoryCanonical s) : OutCanonical (execInterestArrival i s) := by
  unfold execInterestArrival
  split
  · exact OutCanonical.of_next (ite_holds hs (ite_holds hs (canonical_takeInterest hs (ite_holds (canonical_takeBucket (canonical_tookInput hs))
      (canonical_tookInput hs)))))
  · exact hs

theorem canonical_execInterestDropped {i s} (hs : MemoryCanonical s) : OutCanonical (execInterestDropped i s) := by
  unfold execInterestDropped
  split
  · exact OutCanonical.of_next (ite_holds hs hs)
  · exact hs

theorem canonical_execFetchnLifetimeExpiry {id s} (hs : MemoryCanonical s) : OutCanonical (execFetchnLifetimeExpiry id s) := by
  unfold execFetchnLifetimeExpiry
  split
  · split
    · exact OutCanonical.of_next (ite_holds (canonical_endFetch hs) hs)
    · exact hs
  · exact hs

theorem canonical_execFetchnDelivery {x s} (hs : MemoryCanonical s) : OutCanonical (execFetchnDelivery x s) := by
  unfold execFetchnDelivery
  split
  · split
    · exact OutCanonical.of_next (ite_holds (canonical_putWrote (canonical_opScratchPut hs)) hs)
    · exact canonical_finishOp (canonical_modGroup (canonical_putRest hs))
    · exact hs
  · exact hs

theorem canonical_satisfy {s part name} (hs : MemoryCanonical s) : MemoryCanonical (satisfy s part name) := by
  refine canonical_decideSets (foldl_holds (fun _ _ h => canonical_fireSub h) ?_)
  split
  · exact canonical_tileAt hs
  · exact hs

theorem canonical_putName {s part name r} (hs : MemoryCanonical s) : MemoryCanonical (putName s part name r) :=
  hs

theorem canonical_noteSeal {s part name ver} (hs : MemoryCanonical s) : MemoryCanonical (noteSeal s part name ver) :=
  ite_holds hs hs

theorem canonical_publish {s id o name ver sealing bs} (hs : MemoryCanonical s) : MemoryCanonical (publish s id o name ver sealing bs) := by
  have hend : ∀ {st}, MemoryCanonical (finishOp s id st) := canonical_finishOp hs
  unfold publish
  extract_lets part
  split
  · refine ite_holds hend (ite_holds hend (ite_holds hend (ite_holds hend (ite_holds (ite_holds hend ?_) ?_))))
    · exact canonical_finishOp (canonical_satisfy (canonical_noteSeal (canonical_putName hs)))
    · split
      · exact hs
      · rename_i t ht
        have ht : MemoryCanonical t := (canonical_takeUnits hs).some ht
        exact canonical_finishOp (canonical_satisfy (canonical_noteSeal (canonical_putName ht)))
  · exact hend

theorem canonical_nameApply {s id o f} (hs : MemoryCanonical s) (hf : ∀ t, MemoryCanonical t → MemoryCanonical (f t)) :
    MemoryCanonical (nameApply s id o f) := by
  refine ite_holds hs ?_
  split
  · exact hs
  · exact canonical_finishBad (canonical_nameOpDone hs)
  · exact ite_holds (hf _ hs) (canonical_nameOpDone (hf _ hs))

theorem canonical_execPublishApply {id s} (hs : MemoryCanonical s) : OutCanonical (execPublishApply id s) := by
  unfold execPublishApply
  split
  · split
    · exact canonical_nameApply hs (fun _ h => canonical_publish h)
    · exact hs
  · exact hs

theorem canonical_stoprefAt {s id o name} (hs : MemoryCanonical s) : MemoryCanonical (stoprefAt s id o name) :=
  ite_holds (canonical_finishOp hs) (ite_holds (canonical_finishOp hs) (canonical_finishOp hs))

theorem canonical_execStoprefApply {id s} (hs : MemoryCanonical s) : OutCanonical (execStoprefApply id s) := by
  unfold execStoprefApply
  split
  · split
    · exact canonical_nameApply hs (fun _ h => canonical_stoprefAt h)
    · exact hs
  · exact hs

theorem canonical_subnAt {s id b name n m} (hs : MemoryCanonical s) : MemoryCanonical (subnAt s id b name n m) :=
  ite_holds (canonical_finishOp hs) (ite_holds (canonical_finishOp hs) (ite_holds (canonical_finishOp hs)
      (ite_holds (canonical_finishOp hs) (ite_holds (canonical_finishOp hs) (canonical_finishOp (ite_holds hs (canonical_fireSub hs)))))))

theorem canonical_execSubnRecord {id s} (hs : MemoryCanonical s) : OutCanonical (execSubnRecord id s) := by
  unfold execSubnRecord
  split
  · split
    · exact canonical_nameApply hs (fun _ h => canonical_subnAt h)
    · exact hs
  · exact hs

theorem canonical_neverProduced {s part tid} (hs : MemoryCanonical s) : MemoryCanonical (neverProduced s part tid) :=
  foldl_holds (fun _ _ h => foldl_holds (fun _ _ h' => ite_holds (canonical_tileAt h') h') h) hs

theorem canonical_removeTensor {s part tid} (hs : MemoryCanonical s) : MemoryCanonical (removeTensor s part tid) :=
  hs

theorem canonical_execRemovalNotice {part stop tid s} (hs : MemoryCanonical s) : OutCanonical (execRemovalNotice part stop tid s) :=
  OutCanonical.of_next (ite_holds (canonical_setPart (foldl_holds (fun _ _ h => ite_holds (canonical_tileAt h) h) hs)) hs)

theorem canonical_payloadCheck {v c off len need} : OnSome Res.Canonical (payloadCheck v c off len need) :=
  OnSome.orElse canonical_checkRange (ite_holds trivial trivial)

theorem canonical_startFetch {v d name vmin life dst len l} (hv : View.Canonical v) : View.Canonical (startFetch v d name vmin life dst len l) :=
  View.Canonical.of_st (canonical_localInterest hv)

theorem canonical_execFetchn {h d c n o l s} (hs : MemoryCanonical s) : OutCanonical (execFetchn h d c n o l s) := by
  refine canonical_issue ?_ hs
  intro v rows hv
  split
  · refine ite_holds trivial ?_
    split
    · exact canonical_payloadCheck.some ‹_›
    · exact canonical_fed hv (canonical_withRanges hv (fun _ h' => canonical_startFetch h'))
  · exact trivial

theorem canonical_sendKeyed {v d p name later body} (hv : View.Canonical v) : View.Canonical (sendKeyed v d p name later body) :=
  ite_holds (canonical_startKeyed hv) (View.Canonical.of_st (canonical_sendName (canonical_startKeyed hv)))

theorem canonical_publishOp {h d c n o l sealing s} (hs : MemoryCanonical s) : OutCanonical (publishOp h d c n o l sealing s) := by
  refine canonical_issue ?_ hs
  intro v rows hv
  split
  · refine ite_holds trivial ?_
    split
    · exact canonical_payloadCheck.some ‹_›
    · exact canonical_withRanges hv (fun _ h' => canonical_sendKeyed h')
  · exact trivial

theorem canonical_execStopref {h d n s} (hs : MemoryCanonical s) : OutCanonical (execStopref h d n s) := by
  refine canonical_issue ?_ hs
  intro v rows hv
  split
  · exact View.Canonical.of_st (canonical_sendName hv)
  · exact trivial

theorem canonical_execSubn {h d n st m s} (hs : MemoryCanonical s) : OutCanonical (execSubn h d n st m s) := by
  refine canonical_issue ?_ hs
  intro v rows hv
  split
  · exact canonical_sendKeyed hv
  · exact trivial

/-! ### Event rings, code images and launches -/

theorem canonical_cpRead {s part addr n} (hs : MemoryCanonical s) : LoadRes.Canonical (cpRead s part addr n) :=
  ite_holds trivial (ite_holds (canonical_devLoad hs) trivial)

theorem canonical_cpWrite {s part addr bs} (hs : MemoryCanonical s) : StoreRes.Canonical (cpWrite s part addr bs) :=
  ite_holds (canonical_devStoreAll hs) hs

theorem canonical_ringEvent {s f e} (hs : MemoryCanonical s) : MemoryCanonical ((ringEvent s f e).1) := by
  unfold ringEvent
  dsimp only
  split
  · split
    · exact canonical_setFn ((canonical_devStoreAll hs).done ‹_›)
    · exact (canonical_devStoreAll hs).wait ‹_›
    · exact (canonical_devStoreAll hs).bad ‹_›
  · exact hs

theorem canonical_deliverEvents {n s f} (hs : MemoryCanonical s) : MemoryCanonical (deliverEvents n s f) := by
  induction n generalizing s with
  | zero => exact hs
  | succ n ih =>
    simp only [deliverEvents]
    split
    · exact hs
    · split
      · split
        · exact ih hs
        · exact ite_holds (ih (canonical_ringEvent hs)) (canonical_ringEvent hs)
      · split
        · exact hs
        · split
          · exact canonical_ringEvent hs
          · exact hs

theorem canonical_deliverAll {s f} (hs : MemoryCanonical s) : MemoryCanonical (deliverAll s f) :=
  canonical_deliverEvents hs

theorem canonical_postEvent {s f code value} (hs : MemoryCanonical s) : MemoryCanonical (postEvent s f code value) :=
  ite_holds hs (canonical_deliverAll hs)

theorem canonical_postFree {s f value} (hs : MemoryCanonical s) : MemoryCanonical (postFree s f value) :=
  canonical_postEvent hs

theorem canonical_putImage {s im} (hs : MemoryCanonical s) : MemoryCanonical ((putImage s im).1) := by
  unfold putImage
  repeat' split
  all_goals exact hs

theorem canonical_writeNative {s part addr codeoff ws} (hs : MemoryCanonical s) : MemoryCanonical (writeNative s part addr codeoff ws) := by
  refine foldl_holds ?_ ?_
  · intro t x ht
    dsimp only
    split
    · exact canonical_commitBytes ht
    · exact ht
  · dsimp only
    split
    · exact canonical_commitBytes hs
    · exact hs

theorem canonical_loadImage {s part addr again} (hs : MemoryCanonical s) : LoadImg.Canonical (loadImage s part addr again) := by
  unfold loadImage
  extract_lets fresh
  have hfresh : LoadImg.Canonical (fresh ()) := by
    simp only [fresh]
    split
    · exact (canonical_cpRead hs).wait ‹_›
    · exact trivial
    · split
      · exact canonical_putImage hs
      · split
        · exact (canonical_cpRead hs).wait ‹_›
        · exact trivial
        · refine ite_holds (canonical_putImage hs) ?_
          split
          · exact canonical_putImage hs
          · exact canonical_putImage (canonical_writeNative hs)
  split
  · extract_lets kept
    split
    · exact (canonical_cpRead hs).wait ‹_›
    · exact ite_holds hs trivial
    · exact ite_holds hs hfresh
  · exact hfresh

theorem canonical_startLaunch {s part fn img d args caps names} (hs : MemoryCanonical s) :
    LaunchRes.Canonical (startLaunch s part fn img d args caps names) := by
  refine ite_holds hs (ite_holds hs (ite_holds hs (ite_holds hs (ite_holds hs ?_))))
  split
  · exact hs
  · exact canonical_setPart hs

theorem canonical_launchNode {s part fn imgAddr desc} (hs : MemoryCanonical s) : LaunchRes.Canonical (launchNode s part fn imgAddr desc) := by
  unfold launchNode
  split
  · exact (canonical_loadImage hs).wait ‹_›
  · exact hs
  · rename_i s1 img st word hs1
    have hs1 := (canonical_loadImage hs).done hs1
    refine ite_holds hs1 ?_
    split
    · exact (canonical_cpRead hs1).wait ‹_›
    · exact hs1
    · refine ite_holds hs1 ?_
      split
      · exact canonical_startLaunch hs1
      · exact hs1
      · exact hs1
      · exact hs1
      · exact hs1
      · exact (canonical_cpRead hs1).wait ‹_›
      · exact (canonical_cpRead hs1).wait ‹_›
      · exact (canonical_cpRead hs1).wait ‹_›
      · exact (canonical_cpRead hs1).wait ‹_›

theorem canonical_postSettle {s lch pset fn st} (hs : MemoryCanonical s) : MemoryCanonical (postSettle s lch pset fn st) := by
  refine canonical_postFree ?_
  split <;> exact hs

theorem canonical_execSettleEvent {lch pset s} (hs : MemoryCanonical s) : OutCanonical (execSettleEvent lch pset s) := by
  unfold execSettleEvent
  dsimp only
  split
  · refine OutCanonical.of_next (ite_holds (canonical_decideSet hs) ?_)
    split
    · exact canonical_postSettle (canonical_decideSet hs)
    · exact canonical_decideSet hs
  · exact canonical_decideSet hs

theorem canonical_closeSet {s lch pset} (hs : MemoryCanonical s) : MemoryCanonical (closeSet s lch pset) := by
  unfold closeSet
  dsimp only
  split
  · exact canonical_decideSet hs
  · refine ite_holds (canonical_decideSet hs) ?_
    split
    · exact canonical_postSettle (canonical_decideSet hs)
    · exact ite_holds (canonical_postSettle (canonical_recordSet (canonical_decideSet hs))) (canonical_decideSet hs)

theorem canonical_completeLaunch {s lch l} (hs : MemoryCanonical s) : MemoryCanonical (completeLaunch s lch l) :=
  canonical_postFree (canonical_of_eq (foldl_holds (fun _ _ h => canonical_removeTensor h) (foldl_holds (fun _ _ h => canonical_closeSet h) hs)) rfl
      rfl)

theorem canonical_execStageRetire {lch n s} (hs : MemoryCanonical s) : OutCanonical (execStageRetire lch n s) := by
  unfold execStageRetire
  split
  · split
    · refine OutCanonical.of_next (ite_holds ?_ hs)
      extract_lets retired ready decided
      have hready : MemoryCanonical ready := canonical_modStage (canonical_modStage hs)
      have hdecided : MemoryCanonical decided := canonical_decideSets (foldl_holds (fun _ _ h => canonical_neverProduced h) hready)
      split
      · exact ite_holds (canonical_completeLaunch hdecided) hdecided
      · exact hdecided
    · exact hs
  · exact hs

/-! ### Graphs -/

theorem canonical_readNode {s g n} (hs : MemoryCanonical s) : LoadRes.Canonical (readNode s g n) :=
  canonical_cpRead hs

theorem canonical_modNode {s gid n f} (hs : MemoryCanonical s) : MemoryCanonical (modNode s gid n f) :=
  hs

theorem canonical_haltGraph {s gid st} (hs : MemoryCanonical s) : MemoryCanonical (haltGraph s gid st) :=
  hs

theorem canonical_dropNode {s gid n st} (hs : MemoryCanonical s) : MemoryCanonical (dropNode s gid n st) :=
  hs

theorem canonical_noteFailed {s gid n st} (hs : MemoryCanonical s) : MemoryCanonical (noteFailed s gid n st) :=
  hs

theorem canonical_ruinNode {s gid n st} (hs : MemoryCanonical s) : MemoryCanonical (ruinNode s gid n st) :=
  canonical_haltGraph (canonical_noteFailed hs)

theorem canonical_completion {s gid j} (hs : MemoryCanonical s) :
    OnSome MemoryCanonical ((completion s gid j).1) ∧ MemoryCanonical ((completion s gid j).2) := by
  refine ⟨?_, ?_⟩
  · unfold completion
    split
    · exact hs
    · split
      · exact trivial
      · exact hs
      · exact hs
  · unfold completion
    split
    · exact hs
    · split
      · exact (canonical_readNode hs).wait ‹_›
      · exact hs
      · exact hs

theorem canonical_completions {s gid js} (hs : MemoryCanonical s) :
    OnSome MemoryCanonical ((completions s gid js).1) ∧ MemoryCanonical ((completions s gid js).2) := by
  refine foldl_holds (P := fun x : Option State × State => OnSome MemoryCanonical x.1 ∧ MemoryCanonical x.2) (fun r j hr => ?_) ⟨hs, hs⟩
  split
  · exact canonical_completion (hr.1.some ‹_›)
  · exact hr

theorem canonical_finishNode {s gid n bs st succs} (hs : MemoryCanonical s) : MemoryCanonical (finishNode s gid n bs st succs) := by
  have h1 : MemoryCanonical (if st = 0 then dropNode s gid n st else noteFailed (dropNode s gid n st) gid n st) :=
    ite_holds (canonical_dropNode hs) (canonical_noteFailed (canonical_dropNode hs))
  unfold finishNode
  dsimp only
  refine ite_holds (canonical_haltGraph h1) ?_
  split
  · exact h1
  · refine ite_holds h1 ?_
    obtain ⟨hsome, hw⟩ := canonical_completions (gid := gid) (js := succs) h1
    split
    · rename_i t w hc
      rw [hc] at hsome
      exact hsome
    · rename_i w hc
      rw [hc] at hw
      exact hw

theorem canonical_testNode {s g bs} (hs : MemoryCanonical s) : TestRes.Canonical (testNode s g bs) := by
  unfold testNode
  split
  · exact trivial
  · exact (canonical_cpRead hs).wait ‹_›
  · exact trivial

theorem canonical_beginLaunch {s gid n g bs} (hs : MemoryCanonical s) : MemoryCanonical (beginLaunch s gid n g bs) := by
  unfold beginLaunch
  split
  · exact (canonical_launchNode hs).wait ‹_›
  · rename_i s1 st hs1
    have hs1 := (canonical_launchNode hs).failed hs1
    exact ite_holds (canonical_ruinNode hs1) (canonical_finishNode hs1)
  · exact canonical_modNode ((canonical_launchNode hs).started ‹_›)

theorem canonical_beginNode {s gid n g bs} (hs : MemoryCanonical s) : MemoryCanonical (beginNode s gid n g bs) := by
  unfold beginNode
  split
  · exact canonical_beginLaunch hs
  · exact ite_holds (canonical_finishNode hs) (canonical_modNode hs)
  · exact hs

theorem canonical_execGraphNodeStart {gid n s} (hs : MemoryCanonical s) : OutCanonical (execGraphNodeStart gid n s) := by
  unfold execGraphNodeStart
  split
  · split
    · refine OutCanonical.of_next (ite_holds (ite_holds (canonical_ruinNode hs) ?_) hs)
      split
      · exact (canonical_readNode hs).wait ‹_›
      · exact canonical_ruinNode hs
      · exact ite_holds (canonical_ruinNode hs) (canonical_beginNode hs)
    · exact hs
  · exact hs

theorem canonical_copyStep {s gid n g r bs} (hs : MemoryCanonical s) : MemoryCanonical (copyStep s gid n g r bs) := by
  refine ite_holds ?_ (ite_holds ?_ (canonical_finishNode hs))
  · split
    · exact (canonical_cpRead hs).wait ‹_›
    · exact canonical_ruinNode hs
    · exact hs
  · dsimp only
    split
    · exact (canonical_cpWrite hs).wait ‹_›
    · exact canonical_ruinNode ((canonical_cpWrite hs).bad ‹_›)
    · exact canonical_modNode ((canonical_cpWrite hs).done ‹_›)

theorem canonical_signalStep {s gid n g r bs} (hs : MemoryCanonical s) : MemoryCanonical (signalStep s gid n g r bs) := by
  unfold signalStep
  extract_lets a v code post
  have hpost : ∀ t, MemoryCanonical t → MemoryCanonical (post t) := by
    intro t ht
    obtain ⟨-, hw⟩ := canonical_completions (gid := gid) (js := nSuccs bs) (canonical_dropNode (gid := gid) (n := n) (st := 0) ht)
    simp only [post]
    split
    · exact canonical_finishNode (canonical_postEvent (canonical_setPart ht))
    · rename_i w hc
      rw [hc] at hw
      exact hw
  refine ite_holds (hpost _ hs) ?_
  split
  · exact (canonical_cpWrite hs).wait ‹_›
  · exact canonical_ruinNode ((canonical_cpWrite hs).bad ‹_›)
  · exact hpost _ (canonical_modNode ((canonical_cpWrite hs).done ‹_›))

theorem canonical_nodeStep {s gid n g r bs} (hs : MemoryCanonical s) : MemoryCanonical (nodeStep s gid n g r bs) := by
  unfold nodeStep
  split
  · refine ite_holds (canonical_beginLaunch hs) ?_
    split
    · exact canonical_finishNode hs
    · exact hs
  · exact canonical_copyStep hs
  · split
    · exact canonical_finishNode hs
    · exact (canonical_testNode hs).wait ‹_›
    · exact canonical_ruinNode hs
  · split
    · exact canonical_finishNode hs
    · exact hs
  · exact canonical_signalStep hs
  · split
    · exact canonical_finishNode hs
    · exact hs
  · exact hs

theorem canonical_settleGraph {s gid} (hs : MemoryCanonical s) : MemoryCanonical (settleGraph s gid) := by
  unfold settleGraph
  split
  · exact hs
  · refine ite_holds hs ?_
    dsimp only
    split
    · exact canonical_finishOp hs
    · exact hs

theorem canonical_execGraphNodeComplete {gid n s} (hs : MemoryCanonical s) : OutCanonical (execGraphNodeComplete gid n s) := by
  unfold execGraphNodeComplete
  split
  · refine OutCanonical.of_next (ite_holds ?_ (canonical_settleGraph hs))
    split
    · exact (canonical_readNode hs).wait ‹_›
    · exact canonical_settleGraph (canonical_ruinNode hs)
    · exact canonical_settleGraph (canonical_nodeStep hs)
  · exact hs

theorem canonical_reach {s g loops soft k todo seen} (hs : MemoryCanonical s) : ReachRes.Canonical (reach s g loops soft k todo seen) := by
  induction k generalizing todo seen with
  | zero => exact trivial
  | succ k ih =>
    cases todo with
    | nil => exact trivial
    | cons n todo =>
      simp only [reach]
      split
      · exact ih
      · split
        · exact (canonical_readNode hs).wait ‹_›
        · exact ite_holds ih trivial
        · exact ih

theorem canonical_loopBody {s g n bs} (hs : MemoryCanonical s) : BodyRes.Canonical (loopBody s g n bs) := by
  unfold loopBody
  split
  · exact (canonical_reach hs).wait ‹_›
  · exact trivial
  · refine ite_holds trivial ?_
    split
    · exact (canonical_reach hs).wait ‹_›
    · exact trivial
    · exact ite_holds trivial trivial

theorem canonical_enterBody {s gid n bs body} (hs : MemoryCanonical s) : MemoryCanonical (enterBody s gid n bs body) :=
  canonical_modNode (canonical_modNode (foldl_holds (fun _ _ h => h) hs))

theorem canonical_iterWord {s gid n g r bs off i go} (hs : MemoryCanonical s) (hgo : ∀ t, MemoryCanonical t → MemoryCanonical (go t)) :
    MemoryCanonical (iterWord s gid n g r bs off i go) := by
  refine ite_holds (hgo _ hs) ?_
  split
  · exact (canonical_cpWrite hs).wait ‹_›
  · exact canonical_ruinNode ((canonical_cpWrite hs).bad ‹_›)
  · exact hgo _ (canonical_modNode ((canonical_cpWrite hs).done ‹_›))

theorem canonical_leaveLoop {s gid n g r bs} (hs : MemoryCanonical s) : MemoryCanonical (leaveLoop s gid n g r bs) :=
  canonical_iterWord hs (fun _ h => canonical_finishNode h)

theorem canonical_runBody {s gid n g r bs body} (hs : MemoryCanonical s) : MemoryCanonical (runBody s gid n g r bs body) := by
  unfold runBody
  split
  · exact (canonical_readNode hs).wait ‹_›
  · exact canonical_ruinNode hs
  · exact ite_holds (canonical_ruinNode hs) (canonical_iterWord hs (fun _ h => canonical_enterBody h))

theorem canonical_loopHead {s gid n g r bs body} (hs : MemoryCanonical s) : MemoryCanonical (loopHead s gid n g r bs body) := by
  refine ite_holds (canonical_leaveLoop hs) (ite_holds ?_ (canonical_runBody hs))
  split
  · exact ite_holds (canonical_runBody hs) (canonical_leaveLoop hs)
  · split
    · exact hs
    · exact (canonical_testNode hs).wait ‹_›
    · exact canonical_ruinNode hs

theorem canonical_loopStep {s gid n g r bs} (hs : MemoryCanonical s) : MemoryCanonical (loopStep s gid n g r bs) := by
  refine ite_holds ?_ (ite_holds (ite_holds hs (canonical_loopHead hs)) (ite_holds (ite_holds hs (canonical_leaveLoop hs))
      (ite_holds hs (ite_holds hs (ite_holds hs ?_)))))
  · split
    · exact (canonical_loopBody hs).wait ‹_›
    · exact canonical_ruinNode hs
    · exact canonical_ruinNode hs
    · exact hs
  · split
    · exact hs
    · exact (canonical_testNode hs).wait ‹_›
    · exact canonical_ruinNode hs

theorem canonical_execLoopIteration {gid n s} (hs : MemoryCanonical s) : OutCanonical (execLoopIteration gid n s) := by
  unfold execLoopIteration
  split
  · refine OutCanonical.of_next (ite_holds ?_ hs)
    split
    · exact (canonical_readNode hs).wait ‹_›
    · exact canonical_settleGraph (canonical_ruinNode hs)
    · exact ite_holds (canonical_settleGraph (canonical_loopStep hs)) hs
  · exact hs

/-! ### Conversions -/

theorem canonical_keptRow {v d} (hv : View.Canonical v) : View.Canonical ((keptRow v d).2) := by
  unfold keptRow
  split <;> exact hv

theorem canonical_convertOp {h src dst mode d a ss ds s} (hs : MemoryCanonical s) : OutCanonical (convertOp h src dst mode d a ss ds s) :=
  canonical_issue (fun _ _ h' => canonical_bumpRound (ite_holds (canonical_writeRow (canonical_keptRow h')) (canonical_writeElems h'))) hs

theorem canonical_writeRows {v d m rows} (hv : View.Canonical v) : View.Canonical (writeRows v d m rows) := by
  induction rows generalizing v d with
  | nil => exact hv
  | cons r rs ih => exact ih (canonical_writeRow hv)

/-! ### Commits, final commits and stage queues -/

theorem canonical_execCommitTakeEffect {uid s} (hs : MemoryCanonical s) : OutCanonical (execCommitTakeEffect uid s) := by
  unfold execCommitTakeEffect
  split
  · have hcommitted : ∀ {sc b}, MemoryCanonical (setBlk (commitProv s uid sc) uid b) := canonical_setBlk (canonical_commitProv hs)
    exact OutCanonical.of_next (ite_holds (canonical_writeResume (ite_holds (canonical_acquirePool hcommitted) hcommitted)) hs)
  · exact hs

theorem canonical_execFinalCommit {uid s} (hs : MemoryCanonical s) : OutCanonical (execFinalCommit uid s) := by
  unfold execFinalCommit
  split
  · refine OutCanonical.of_next (ite_holds (ite_holds (canonical_completeBlock hs) (canonical_completeBlock ?_)) (canonical_reportBlock hs))
    split
    · exact canonical_setBlk (canonical_commitProv hs)
    · exact canonical_commitProv hs
  · exact hs

theorem canonical_execEnqAccept {id s} (hs : MemoryCanonical s) : OutCanonical (execEnqAccept id s) := by
  unfold execEnqAccept
  split
  · split
    · refine OutCanonical.of_next (ite_holds hs ?_)
      split
      · exact hs
      · split
        · exact canonical_endLogged hs
        · refine ite_holds (canonical_endLogged hs) (ite_holds (canonical_endLogged hs) (ite_holds hs ?_))
          split
          · exact hs
          · exact canonical_finishBad hs
          · exact canonical_finishOp hs
    · exact hs
  · exact hs

/-! ### The wake from IDLE, dispatch and placement -/

theorem canonical_execEndBlock {s} (hs : MemoryCanonical s) : OutCanonical (execEndBlock s) := by
  unfold execEndBlock
  split
  · exact OutCanonical.of_next (ite_holds (canonical_flush (canonical_endBlockWith ((canonical_currentView hs).some ‹_›))) hs)
  · exact hs

theorem canonical_execBrokenChain {s} (hs : MemoryCanonical s) : OutCanonical (execBrokenChain s) := by
  unfold execBrokenChain
  split
  · exact OutCanonical.of_next (ite_holds (canonical_flush (canonical_brokenChainAt ((canonical_currentView hs).some ‹_›))) hs)
  · exact hs

theorem canonical_execIdleWake {uid gid s} (hs : MemoryCanonical s) : OutCanonical (execIdleWake uid gid s) := by
  unfold execIdleWake
  split
  · split
    · rename_i v hv h
      have hv : View.Canonical v := (canonical_viewAt hs).some hv
      exact canonical_flush (canonical_runSweep hv)
    · exact hs
  · exact hs

theorem canonical_makeBlock {s lch n} (hs : MemoryCanonical s) : OnSome (fun x => MemoryCanonical x.1) (makeBlock s lch n) := by
  unfold makeBlock
  split
  · exact trivial
  · split
    · exact trivial
    · split
      · exact trivial
      · exact canonical_modStage hs

theorem canonical_firstPlace {s uid p} (hs : MemoryCanonical s) : MemoryCanonical (firstPlace s uid p) := by
  unfold firstPlace
  split
  · exact hs
  · refine canonical_startGroups ?_
    split <;> exact hs

theorem canonical_offerBlock {s part uid} (hs : MemoryCanonical s) : OnSome MemoryCanonical (offerBlock s part uid) := by
  unfold offerBlock
  split
  · exact trivial
  · exact onSome_map (fun _ => canonical_firstPlace hs)

theorem canonical_offerFresh {s part l n} (hs : MemoryCanonical s) : OnSome MemoryCanonical (offerFresh s part l n) :=
  OnSome.bind (P := fun x : State × ℕ => MemoryCanonical x.1) (canonical_makeBlock hs) (fun _ h => canonical_offerBlock h)

theorem canonical_offerMany {s part l n k} (hs : MemoryCanonical s) : OnSome MemoryCanonical (offerMany s part l n k) := by
  induction k generalizing s with
  | zero => exact hs
  | succ k ih => exact (canonical_offerFresh hs).bind fun _ h => ih h

theorem canonical_placeAt {s l places} (hs : MemoryCanonical s) : OnSome MemoryCanonical (placeAt s l places) := by
  induction places generalizing s with
  | nil => exact hs
  | cons e rest ih => exact (canonical_makeBlock hs).bind fun _ h => ih (canonical_firstPlace h)

theorem canonical_offerPhased {s part id} (hs : MemoryCanonical s) : OnSome MemoryCanonical (offerPhased s part id) := by
  unfold offerPhased
  split
  · exact trivial
  · extract_lets greedy
    have hg : OnSome MemoryCanonical greedy :=
      foldl_holds (fun _ _ h => ite_holds (P := OnSome MemoryCanonical) (h.bind fun _ ht => canonical_offerMany ht) h) hs
    clear_value greedy
    split
    · exact hg
    · exact onSome_bind (fun _ => canonical_placeAt hs)

theorem canonical_offer {s part c} (hs : MemoryCanonical s) : OnSome MemoryCanonical (offer s part c) := by
  unfold offer
  split
  · exact canonical_offerFresh hs
  · exact canonical_offerBlock hs
  · exact canonical_offerPhased hs
  · exact trivial

theorem canonical_placeFirst {s part cands} (hs : MemoryCanonical s) : MemoryCanonical (placeFirst s part cands) := by
  induction cands with
  | nil => exact hs
  | cons c rest ih =>
    simp only [placeFirst]
    split
    · split
      · exact ite_holds hs ih
      · exact ih
    · split
      · exact (canonical_offer hs).some ‹_›
      · exact ih

theorem canonical_candBlock {s c} (hs : MemoryCanonical s) : OnSome (fun x => MemoryCanonical x.1) (candBlock s c) := by
  unfold candBlock
  split
  · exact canonical_makeBlock hs
  · exact hs
  · exact hs
  · exact trivial

theorem canonical_execIdleBlockPreempt {part s} (hs : MemoryCanonical s) : OutCanonical (execIdleBlockPreempt part s) := by
  unfold execIdleBlockPreempt
  split
  · split
    · rename_i t w hw
      have ht : MemoryCanonical t := (canonical_candBlock hs).some hw
      exact ht
    · exact hs
  · exact hs

theorem canonical_moveCores {s id want cs got} (hs : MemoryCanonical s) : MemoryCanonical (moveCores s id want cs got) := by
  induction cs generalizing s got with
  | nil => exact hs
  | cons c cs ih =>
    simp only [moveCores]
    split
    · exact ih hs
    · exact ih hs

theorem canonical_execAffinityReassign {id s} (hs : MemoryCanonical s) : OutCanonical (execAffinityReassign id s) := by
  unfold execAffinityReassign
  split
  · exact OutCanonical.of_next (ite_holds hs (ite_holds hs (canonical_moveCores hs)))
  · exact hs

/-! ### Events of the memories (R273 to R277, R282) -/

theorem canonical_wakePage {s part vpn l} (hs : MemoryCanonical s) : MemoryCanonical (wakePage s part vpn l) := by
  refine foldl_holds ?_ hs
  intro t x ht
  split
  · refine ite_holds ?_ ht
    split
    · exact canonical_finishOp ht
    · exact ht
  · exact ht

theorem canonical_dropWait {s part tok} (hs : MemoryCanonical s) : MemoryCanonical (dropWait s part tok) :=
  hs

theorem canonical_retryEvents {s} (hs : MemoryCanonical s) : MemoryCanonical (retryEvents s) :=
  foldl_holds (fun _ _ h => ite_holds h (canonical_deliverAll h)) hs

theorem canonical_loadPage {s part vpn l} (hs : MemoryCanonical s) : MemoryCanonical (loadPage s part vpn l) :=
  canonical_putPage hs (wf_frameData hs.1)

theorem canonical_execPageResident {part tok s} (hs : MemoryCanonical s) : OutCanonical (execPageResident part tok s) := by
  unfold execPageResident
  split
  · refine OutCanonical.of_next (ite_holds hs ?_)
    split
    · exact hs
    · split
      · exact ite_holds hs (canonical_wakePage hs)
      · exact ite_holds (canonical_retryEvents (canonical_wakePage (canonical_dropWait (canonical_loadPage hs)))) hs
  · exact hs

theorem canonical_execEviction {id s} (hs : MemoryCanonical s) : OutCanonical (execEviction id s) := by
  unfold execEviction
  split
  · rename_i pg hpg
    have hp := page_canonical hs hpg
    split
    · exact canonical_delPage (canonical_writeBack hs)
    · split
      · exact canonical_putPage hs hp
      · exact hs
  · exact hs

theorem canonical_execLumberSpill {part s} (hs : MemoryCanonical s) : OutCanonical (execLumberSpill part s) := by
  unfold execLumberSpill
  split <;> exact hs

theorem canonical_countRefetch {s} (hs : MemoryCanonical s) : MemoryCanonical (countRefetch s) :=
  hs

theorem canonical_countLost {s} (hs : MemoryCanonical s) : MemoryCanonical (countLost s) :=
  hs

theorem canonical_refetchLine {s part addr} (hs : MemoryCanonical s) : MemoryCanonical (refetchLine s part addr) := by
  unfold refetchLine
  split
  · exact hs
  · exact ite_holds hs (canonical_countRefetch (canonical_readLine hs))

theorem canonical_damageShelf {s stop part name} (hs : MemoryCanonical s) : MemoryCanonical (damageShelf s stop part name) :=
  ite_holds (canonical_countRefetch hs) hs

theorem canonical_trunkLost {s uid} (hs : MemoryCanonical s) : MemoryCanonical (trunkLost s uid) := by
  unfold trunkLost
  split
  · exact hs
  · exact ite_holds hs hs

theorem canonical_damageTrunk {s uid} (hs : MemoryCanonical s) : MemoryCanonical (damageTrunk s uid) := by
  unfold damageTrunk
  extract_lets k
  split
  · exact hs
  · split
    · exact hs
    · exact ite_holds (canonical_trunkLost (canonical_countLost hs)) (canonical_countRefetch hs)

theorem canonical_execCheckWordFailure {site s} (hs : MemoryCanonical s) : OutCanonical (execCheckWordFailure site s) := by
  unfold execCheckWordFailure
  split
  · exact hs
  · exact canonical_refetchLine hs
  · split
    · exact OutCanonical.of_next (ite_holds hs (canonical_limitedRefire hs))
    · exact hs
  · exact canonical_damageShelf hs
  · exact OutCanonical.of_next (ite_holds hs (ite_holds hs (canonical_countLost hs)))
  · exact canonical_countLost hs
  · exact canonical_damageTrunk hs

theorem canonical_execRateQuietExpiry {core part cls s} (hs : MemoryCanonical s) : OutCanonical (execRateQuietExpiry core part cls s) := by
  unfold execRateQuietExpiry
  split
  · exact OutCanonical.of_next (ite_holds hs hs)
  · exact hs

end Sys2Proof.Machine
end

section
/-! PROOFS. The memories stay canonical, fifth part: traps, time slices, tracing, the engines, the mesh and management. -/

namespace Sys2Proof.Machine
open Sys2Proof

/-! ### RDCTR, PRD, PWR, ERET and HALTB -/

theorem canonical_execRdctr {h d n seat s} (hs : MemoryCanonical s) : OutCanonical (execRdctr h d n seat s) := by
  refine canonical_issue ?_ hs
  intro v rows hv
  extract_lets g
  split
  · exact canonical_doneS hv
  · exact trivial

theorem canonical_execPrd {h d a seat s} (hs : MemoryCanonical s) : OutCanonical (execPrd h d a seat s) := by
  refine canonical_issueP ?_ hs
  intro v rows hv
  split
  · exact hv
  · exact trivial

theorem canonical_execPwr {h d a seat s} (hs : MemoryCanonical s) : OutCanonical (execPwr h d a seat s) := by
  refine canonical_issueP ?_ hs
  intro v rows hv
  split
  · refine ite_holds trivial ?_
    split
    · exact trivial
    · exact View.Canonical.of_st (canonical_modGroup hv)
  · exact trivial

theorem canonical_retireBlock {s uid st} (hs : MemoryCanonical s) : MemoryCanonical (retireBlock s uid st) :=
  canonical_endBlockWithStatus hs

theorem canonical_resumeBlock {s uid} (hs : MemoryCanonical s) : MemoryCanonical (resumeBlock s uid) := by
  unfold resumeBlock
  split
  · exact hs
  · exact canonical_unqueue hs

theorem canonical_emulateBlock {s uid f} (hs : MemoryCanonical s) : MemoryCanonical (emulateBlock s uid f) := by
  unfold emulateBlock
  split
  · exact hs
  · dsimp only
    split
    · exact canonical_flush (canonical_emulateAccess ((canonical_viewAt (canonical_resumeBlock hs)).some ‹_›))
    · exact canonical_resumeBlock hs

theorem canonical_eretOutcome {v r m} : OnSome (fun act => ∀ t, MemoryCanonical t → MemoryCanonical (act t)) (eretOutcome v r m) := by
  refine ite_holds trivial ?_
  split
  · exact ite_holds trivial (fun _ h => canonical_resumeBlock h)
  · exact ite_holds (fun _ h => canonical_retireBlock h) trivial
  · exact fun _ h => canonical_limitedRefire h
  · split
    · exact ite_holds trivial (fun _ h => canonical_emulateBlock h)
    · exact trivial

theorem canonical_finishRun {v r act} (hv : View.Canonical v) (hact : ∀ t, MemoryCanonical t → MemoryCanonical (act t)) :
    View.Canonical (finishRun v r act) :=
  canonical_onState hv (fun _ h => ite_holds (canonical_retireBlock h) (hact _ h))

theorem canonical_failRun {v} (hv : View.Canonical v) : View.Canonical (failRun v) := by
  unfold failRun
  split
  · exact hv
  · exact canonical_finishRun hv (fun _ h => ite_holds (canonical_retireBlock h) h)

theorem canonical_execEret {h m s} (hs : MemoryCanonical s) : OutCanonical (execEret h m s) := by
  unfold execEret
  split
  · exact trivial
  · rename_i v hv
    have hv : v.Canonical := (canonical_currentView hs).some hv
    extract_lets src r
    have hr : r.Canonical := by
      refine canonical_attempt (fun w _ hw => ?_) hv
      split
      · exact trivial
      · split
        · exact trivial
        · exact canonical_finishRun hw (canonical_eretOutcome.some ‹_›)
    clear_value r
    split
    · split
      · exact canonical_failRun hv
      · exact canonical_conclude hv hr
    · exact canonical_conclude hv hr

theorem canonical_execHaltb {h d k s} (hs : MemoryCanonical s) : OutCanonical (execHaltb h d k s) := by
  refine canonical_issueP ?_ hs
  intro v rows hv
  split
  · exact trivial
  · exact canonical_startOp (canonical_onState hv (fun _ h' => ite_holds (canonical_cancelAll h') h'))

theorem canonical_joinHalted {s blk o} (hs : MemoryCanonical s) : MemoryCanonical (joinHalted s blk o) :=
  ite_holds (canonical_modGroup hs) hs

theorem canonical_settleOp {s id o} (hs : MemoryCanonical s) : MemoryCanonical (settleOp s id o) := by
  rw [settleOp.eq_def]
  cases o.body with
  | ready st => exact canonical_finishOp hs
  | pages vs =>
    dsimp only
    split
    · exact canonical_finishOp hs
    · split
      · exact canonical_finishOp hs
      · exact canonical_requestAll hs
      · exact hs
  | icinv l =>
    dsimp only
    split
    · exact canonical_finishOp hs
    · exact hs
  | tlbinv => exact canonical_finishOp hs
  | haltb b => exact ite_holds (canonical_joinHalted (canonical_finishOp hs)) hs
  | _ => exact hs

theorem canonical_execAsyncComplete {id s} (hs : MemoryCanonical s) : OutCanonical (execAsyncComplete id s) := by
  unfold execAsyncComplete
  split
  · exact OutCanonical.of_next (ite_holds hs (canonical_settleOp hs))
  · exact hs

theorem canonical_execSavedHandleUpdate {id s} (hs : MemoryCanonical s) : OutCanonical (execSavedHandleUpdate id s) := by
  unfold execSavedHandleUpdate
  split
  · exact OutCanonical.of_next (ite_holds (canonical_settleOp hs) hs)
  · exact hs

/-! ### Delivery of traps and handler runs -/

theorem canonical_defaultAction {s uid b f} (hs : MemoryCanonical s) : MemoryCanonical (defaultAction s uid b f) :=
  ite_holds (canonical_emulateBlock hs) (ite_holds (canonical_resumeBlock hs) (canonical_retireBlock hs))

theorem canonical_execTrapDelivery {uid s} (hs : MemoryCanonical s) : OutCanonical (execTrapDelivery uid s) := by
  unfold execTrapDelivery
  split
  · split
    · refine OutCanonical.of_next (ite_holds hs ?_)
      split
      · exact canonical_defaultAction hs
      · exact ite_holds hs (canonical_setBlk hs)
    · exact hs
  · exact hs

theorem canonical_beginRun {s core b old} (hs : MemoryCanonical s) : MemoryCanonical (beginRun s core b old) :=
  canonical_startGroups hs

theorem canonical_nextRun {s core} (hs : MemoryCanonical s) : MemoryCanonical (nextRun s core) := by
  unfold nextRun
  dsimp only
  split
  · exact hs
  · split
    · exact hs
    · split
      · exact hs
      · split
        · exact canonical_beginRun hs
        · exact canonical_defaultAction hs

theorem canonical_execHandlerRunStart {core s} (hs : MemoryCanonical s) : OutCanonical (execHandlerRunStart core s) := by
  unfold execHandlerRunStart
  split
  · exact canonical_nextRun hs
  · split
    · exact OutCanonical.of_next (ite_holds (canonical_flush (canonical_failRun ((canonical_viewAt hs).some ‹_›))) hs)
    · exact hs

theorem canonical_execHandlerErrorRestart {core s} (hs : MemoryCanonical s) : OutCanonical (execHandlerErrorRestart core s) := by
  unfold execHandlerErrorRestart
  dsimp only
  split
  · exact canonical_beginRun hs
  · exact hs

theorem canonical_execHardwareErrorRefire {uid s} (hs : MemoryCanonical s) : OutCanonical (execHardwareErrorRefire uid s) := by
  unfold execHardwareErrorRefire
  split
  · exact OutCanonical.of_next (ite_holds (canonical_limitedRefire hs) hs)
  · exact hs

theorem canonical_execHangWatchdog {uid gid s} (hs : MemoryCanonical s) : OutCanonical (execHangWatchdog uid gid s) := by
  unfold execHangWatchdog
  split
  · exact OutCanonical.of_next (ite_holds hs hs)
  · exact hs

/-! ### Time slices, saves and restores -/

theorem canonical_beginSlice {s part f} (hs : MemoryCanonical s) : MemoryCanonical (beginSlice s part f) :=
  canonical_deliverAll (canonical_setFn (foldl_holds (fun _ _ h => h) hs))

theorem canonical_askBlocks {s us} (hs : MemoryCanonical s) : MemoryCanonical (askBlocks s us) :=
  foldl_holds (fun _ _ h => h) hs

theorem canonical_overrunBlock {s uid b} (hs : MemoryCanonical s) : MemoryCanonical (overrunBlock s uid b) := by
  unfold overrunBlock
  dsimp only
  split
  · exact ite_holds hs (canonical_retireBlock hs)
  · exact canonical_retireBlock hs

theorem canonical_killContext {s part f} (hs : MemoryCanonical s) : MemoryCanonical (killContext s part f) :=
  canonical_beginSlice (canonical_postFree (canonical_setFn (canonical_freeNext (foldl_holds (fun _ _ h => ite_holds (canonical_overrunBlock h) h)
      hs))))

theorem canonical_endDrain {s part} (hs : MemoryCanonical s) : MemoryCanonical (endDrain s part) := by
  unfold endDrain
  dsimp only
  split
  · exact hs
  · exact ite_holds hs (ite_holds (canonical_killContext hs) (canonical_beginSlice hs))

theorem canonical_execSliceEnd {f s} (hs : MemoryCanonical s) : OutCanonical (execSliceEnd f s) := by
  unfold execSliceEnd
  split
  · exact hs
  · refine OutCanonical.of_next (ite_holds hs (ite_holds (ite_holds (canonical_beginSlice hs) hs) (ite_holds hs ?_)))
    split
    · exact ite_holds (canonical_killContext hs) (canonical_endDrain hs)
    · exact ite_holds (canonical_endDrain (canonical_askBlocks hs)) hs

theorem canonical_execPreemptStop {uid gid s} (hs : MemoryCanonical s) : OutCanonical (execPreemptStop uid gid s) := by
  unfold execPreemptStop
  split
  · split
    · rename_i v hv h
      have hv : View.Canonical v := (canonical_viewAt hs).some hv
      exact hv
    · exact hs
  · exact hs

theorem canonical_saveBlock {s uid b slices bytes} (hs : MemoryCanonical s) : MemoryCanonical (saveBlock s uid b slices bytes) :=
  canonical_endDrain (canonical_unqueue (canonical_setBlk (canonical_putTrunk hs)))

theorem canonical_execQuiesce {uid s} (hs : MemoryCanonical s) : OutCanonical (execQuiesce uid s) := by
  unfold execQuiesce
  split
  · split
    · exact hs
    · dsimp only
      split
      · exact canonical_saveBlock hs
      · exact hs
  · exact hs

theorem canonical_replayOps {s uid core part} (hs : MemoryCanonical s) : MemoryCanonical (replayOps s uid core part) := by
  refine foldl_holds ?_ hs
  intro t x ht
  split
  · exact ht
  · split
    · exact canonical_localInterest (canonical_setBody ht)
    · exact ht

theorem canonical_putBack {s uid b p} (hs : MemoryCanonical s) : MemoryCanonical (putBack s uid b p) :=
  canonical_replayOps (canonical_resetRates (canonical_withClusters (canonical_setBlk (canonical_dropTrunk hs))))

theorem canonical_execRestore {uid s} (hs : MemoryCanonical s) : OutCanonical (execRestore uid s) := by
  unfold execRestore
  split
  · refine OutCanonical.of_next (ite_holds ?_ hs)
    split
    · exact ite_holds (canonical_putBack hs) hs
    · exact hs
  · exact hs

/-! ### Trace events -/

theorem canonical_sampleGroup {s uid gid} (hs : MemoryCanonical s) : MemoryCanonical (sampleGroup s uid gid) := by
  unfold sampleGroup
  split
  · exact ite_holds hs (canonical_tracePath ((canonical_viewAt hs).some ‹_›))
  · exact hs

theorem canonical_sampleBlock {s uid n} (hs : MemoryCanonical s) : MemoryCanonical (sampleBlock s uid n) :=
  foldl_holds (fun _ _ h => canonical_sampleGroup h) hs

theorem canonical_samplePart {s part} (hs : MemoryCanonical s) : MemoryCanonical (samplePart s part) := by
  unfold samplePart
  dsimp only
  split
  · refine canonical_of_eq (foldl_holds (P := MemoryCanonical) (fun r e hr => ?_) ?_) rfl rfl
    · exact ite_holds (canonical_sampleBlock hr) hr
    · exact hs
  · exact hs

theorem canonical_areaWrite {s part base len ptr bs n} (hs : MemoryCanonical s) : AreaRes.Canonical (areaWrite s part base len ptr bs n) := by
  induction n with
  | zero => exact hs
  | succ n ih =>
    simp only [areaWrite]
    split
    · rename_i r hr
      have hd := canonical_devStore (part := part) (addr := base + (ptr + 64 * n) % len) (bs := (bs.drop (64 * n)).take 64) (w := hostWriter)
        (ih.done hr)
      split
      · exact hd.done ‹_›
      · exact hd.wait ‹_›
      · exact hd.bad ‹_›
    · exact ih

theorem canonical_lossRecord {s cl part n} (hs : MemoryCanonical s) : MemoryCanonical ((lossRecord s cl part n).2) :=
  hs

theorem canonical_noteLosses {s cl} (hs : MemoryCanonical s) : MemoryCanonical (noteLosses s cl) := by
  unfold noteLosses
  dsimp only
  split
  · exact ite_holds (canonical_withClusters (canonical_lossRecord hs)) hs
  · exact hs

theorem canonical_popRec {s cl lost} (hs : MemoryCanonical s) : MemoryCanonical (popRec s cl lost) :=
  hs

theorem canonical_recWritten {s r n} (hs : MemoryCanonical s) : MemoryCanonical (recWritten s r n) :=
  hs

theorem canonical_drainOne {s cl r} (hs : MemoryCanonical s) : MemoryCanonical (drainOne s cl r) := by
  refine ite_holds hs ?_
  split
  · exact (canonical_areaWrite hs).wait ‹_›
  · exact canonical_popRec ((canonical_areaWrite hs).dropped ‹_›)
  · exact canonical_popRec (canonical_recWritten ((canonical_areaWrite hs).done ‹_›))

theorem canonical_execTraceDrain {cl s} (hs : MemoryCanonical s) : OutCanonical (execTraceDrain cl s) := by
  unfold execTraceDrain
  split
  · exact canonical_noteLosses (canonical_drainOne hs)
  · exact canonical_noteLosses hs

theorem canonical_dropBuffer {s cl} (hs : MemoryCanonical s) : MemoryCanonical (dropBuffer s cl) :=
  foldl_holds (fun _ _ h => canonical_withClusters (canonical_lossRecord h)) (canonical_withClusters hs)

theorem canonical_execClusterPowerGate {cl s} (hs : MemoryCanonical s) : OutCanonical (execClusterPowerGate cl s) := by
  refine OutCanonical.of_next (ite_holds hs ?_)
  split
  · exact hs
  · exact ite_holds hs (ite_holds (canonical_of_eq (canonical_dropBuffer hs) rfl rfl) hs)

/-! ### Handle instructions -/

theorem canonical_observeH {v n} (hv : View.Canonical v) : View.Canonical (observeH v n) :=
  canonical_observeAcq hv

theorem canonical_execHwait {h d n s} (hs : MemoryCanonical s) : OutCanonical (execHwait h d n s) := by
  refine canonical_issue ?_ hs
  intro v rows hv
  split
  · exact canonical_doneS (canonical_observeH hv)
  · exact hv

theorem canonical_execHtest {h d n s} (hs : MemoryCanonical s) : OutCanonical (execHtest h d n s) := by
  refine canonical_issue ?_ hs
  intro v rows hv
  split
  · exact canonical_doneS (canonical_observeH hv)
  · exact hv

theorem canonical_execHcancel {h n s} (hs : MemoryCanonical s) : OutCanonical (execHcancel h n s) := by
  refine canonical_issue ?_ hs
  intro v rows hv
  split
  · exact canonical_onState hv (fun _ h' => canonical_cancelOp h')
  · exact hv

/-! ### The matrix engine -/

theorem canonical_mmaAccess {v cap m} : OnSome Res.Canonical (mmaAccess v cap m) :=
  onSome_findSome (fun _ => OnSome.orElse canonical_checkRange (ite_holds trivial trivial))

theorem canonical_mmaRegs {v m scales} : OnSome Res.Canonical (mmaRegs v m scales) := by
  unfold mmaRegs
  dsimp only
  split
  · exact trivial
  · exact ite_holds trivial trivial

theorem canonical_mmaIssue {v t d dv c s w o bsa bsb h} (hv : View.Canonical v) : Res.Canonical (mmaIssue v t d dv c s w o bsa bsb h) := by
  unfold mmaIssue
  extract_lets cap sw ww m scales out span rs mode
  refine ite_holds trivial (ite_holds trivial ?_)
  split
  · exact canonical_mmaRegs.some ‹_›
  · split
    · exact canonical_mmaAccess.some ‹_›
    · exact ite_holds trivial (ite_holds hv (ite_holds hv (ite_holds hv
        (canonical_startRanged hv (fun _ h' => ite_holds (canonical_bumpRound h') h')))))

theorem canonical_mmaEvent {v id o m i} (hv : View.Canonical v) : MemoryCanonical (mmaEvent v id o m i) := by
  refine ite_holds hv (ite_holds (canonical_readEarly hv) (ite_holds hv ?_))
  split
  · exact hv
  · exact foldl_holds (fun _ _ h => canonical_opScratchPut h) hv

theorem canonical_finishMma {v id o m} (hv : View.Canonical v) : MemoryCanonical (finishMma v id o m) := by
  unfold finishMma
  extract_lets r res out acc accFl free puts fl st g flushed stored ended
  have hflushed : MemoryCanonical flushed := canonical_flush (View.Canonical.of_st (ite_holds hv hv))
  have hended : MemoryCanonical ended := canonical_finishOp (foldl_holds (fun _ _ h => canonical_opScratchPut h) hflushed)
  split
  · exact canonical_lateTrap hended
  · exact hended

theorem canonical_execMmaComplete {x s} (hs : MemoryCanonical s) : OutCanonical (execMmaComplete x s) := by
  unfold execMmaComplete
  split
  · split
    · rename_i v heq hv
      have hv : View.Canonical v := (canonical_viewAt hs).some hv
      split
      · exact canonical_mmaEvent hv
      · exact OutCanonical.of_next (ite_holds (canonical_finishMma hv) hs)
    · exact hs
  · exact hs

theorem canonical_execBaton {h m s} (hs : MemoryCanonical s) : OutCanonical (execBaton h m s) := by
  unfold execBaton
  split
  · exact canonical_issue (fun _ _ h' => ite_holds h' h') hs
  · exact canonical_issue (fun _ _ h' => ite_holds h' h') hs
  · exact canonical_issue (fun _ _ h' => h') hs

/-! ### One clock of the mesh -/

theorem canonical_resendFlit {s f link} (hs : MemoryCanonical s) : MemoryCanonical (resendFlit s f link) :=
  hs

theorem canonical_arriveFlit {s f} (hs : MemoryCanonical s) : MemoryCanonical (arriveFlit s f) := by
  refine ite_holds hs ?_
  split
  · exact canonical_sendFlit hs
  · exact ite_holds (canonical_cutRate hs) hs
  · exact hs
  · exact canonical_sendFlit hs
  · exact ite_holds hs hs
  · exact hs

theorem canonical_moveFlit {s f} (hs : MemoryCanonical s) : MemoryCanonical (moveFlit s f) :=
  ite_holds (canonical_arriveFlit hs) (ite_holds hs (ite_holds (canonical_resendFlit hs)
    (canonical_withNextFlit (canonical_putFlit (canonical_linkPass hs)))))

theorem canonical_crossFlit {s f} (hs : MemoryCanonical s) : MemoryCanonical (crossFlit s f) :=
  ite_holds (canonical_putFlit hs) (canonical_moveFlit hs)

theorem canonical_moveFlits {s} (hs : MemoryCanonical s) : MemoryCanonical (moveFlits s) := by
  refine foldl_holds ?_ hs
  intro t x ht
  split
  · exact canonical_crossFlit ht
  · exact ht

theorem canonical_enterFlits {s} (hs : MemoryCanonical s) : MemoryCanonical (enterFlits s) := by
  refine foldl_holds ?_ hs
  intro t x ht
  split
  · exact ite_holds ht ht
  · exact ht

theorem canonical_fillStep {s x} (hs : MemoryCanonical s) : MemoryCanonical ((fillStep s x).1) := by
  unfold fillStep
  split
  · exact hs
  · split
    · exact hs
    · exact ite_holds (canonical_cellarMiss hs) (foldl_holds (fun _ _ h => canonical_cellarMiss h) hs)

theorem canonical_fillTick {s} (hs : MemoryCanonical s) : MemoryCanonical (fillTick s) :=
  foldl_holds (fun _ _ h => canonical_of_eq (canonical_fillStep h) rfl rfl) hs

theorem canonical_meshTick {s} (hs : MemoryCanonical s) : MemoryCanonical (meshTick s) :=
  canonical_fillTick (canonical_enterFlits (canonical_moveFlits hs))

/-! ### Windows and collectives -/

theorem canonical_execPut {h t d c o w tg s} (hs : MemoryCanonical s) : OutCanonical (execPut h t d c o w tg s) := by
  refine canonical_issue ?_ hs
  intro v rows hv
  split
  · exact trivial
  · refine ite_holds trivial ?_
    split
    · exact canonical_checkRange.some ‹_›
    · refine ite_holds trivial ?_
      split
      · exact canonical_startKeyed hv
      · exact canonical_fed hv (canonical_withRanges hv (fun _ h' => canonical_startKeyed h'))

theorem canonical_landBytes {s o part addr bs} (hs : MemoryCanonical s) : StoreRes.Canonical (landBytes s o part addr bs) :=
  canonical_devStore (canonical_sendAccess hs)

theorem canonical_landElem {s id o esz src len wid rank off landed i} (hs : MemoryCanonical s) :
    MemoryCanonical (landElem s id o esz src len wid rank off landed i) := by
  unfold landElem
  dsimp only
  split
  · exact canonical_setBody (canonical_putPort hs)
  · split
    · exact canonical_setBody ((canonical_landBytes hs).done ‹_›)
    · exact (canonical_landBytes hs).wait ‹_›
    · exact canonical_finishBad (canonical_noteAddr ((canonical_landBytes hs).bad ‹_›))
  · exact canonical_finishOp hs

theorem canonical_putDone {s id o esz src len wid rank off landed} (hs : MemoryCanonical s) :
    MemoryCanonical (putDone s id o esz src len wid rank off landed) := by
  unfold putDone
  extract_lets part
  split
  · exact ite_holds hs (canonical_tellRank (canonical_setBody hs))
  · exact ite_holds (canonical_endLogged hs) (canonical_modWindow (canonical_modWindow (canonical_clearLost (canonical_endLogged hs))))
  · exact canonical_finishOp hs

theorem canonical_execPutLanding {id elem s} (hs : MemoryCanonical s) : OutCanonical (execPutLanding id elem s) := by
  unfold execPutLanding
  split
  · split
    · refine OutCanonical.of_next (ite_holds hs ?_)
      split
      · exact ite_holds hs (canonical_landElem hs)
      · exact ite_holds hs (canonical_putDone hs)
    · exact hs
  · exact hs

theorem canonical_execWctr {h d w x m s} (hs : MemoryCanonical s) : OutCanonical (execWctr h d w x m s) := by
  refine canonical_issue ?_ hs
  intro v rows hv
  split
  · exact trivial
  · refine ite_holds trivial ?_
    split
    · exact trivial
    · split
      · exact hv
      · exact hv
      · exact ite_holds hv hv
      · exact ite_holds hv hv
      · exact canonical_doneS hv
      · exact canonical_doneS hv

theorem canonical_execSortk {h d c k cn n s} (hs : MemoryCanonical s) : OutCanonical (execSortk h d c k cn n s) := by
  refine canonical_issue ?_ hs
  intro v rows hv
  refine ite_holds trivial ?_
  split
  · exact (onSome_findSome (fun _ => canonical_checkRange)).some ‹_›
  · exact ite_holds trivial (canonical_withRanges hv (fun _ h' => h'))

theorem canonical_putElems {s o xs more} (hs : MemoryCanonical s) : MemoryCanonical (putElems s o xs more) :=
  foldl_holds (fun _ _ h => ite_holds h (ite_holds (ite_holds (canonical_opScratchPut h) h) (canonical_opScratchPut h))) hs

theorem canonical_sortkElem {s id o k p c f t e i} (hs : MemoryCanonical s) : MemoryCanonical (sortkElem s id o k p c f t e i) := by
  refine ite_holds hs (ite_holds (canonical_readEarly hs) (ite_holds hs ?_))
  split
  · exact canonical_putWrote (canonical_opScratchPut hs)
  · exact hs

theorem canonical_execSortkComplete {x s} (hs : MemoryCanonical s) : OutCanonical (execSortkComplete x s) := by
  unfold execSortkComplete
  split
  · split
    · exact canonical_sortkElem hs
    · exact OutCanonical.of_next (ite_holds (canonical_finishOp hs) (canonical_finishOp (canonical_putElems hs)))
    · exact hs
  · exact hs

theorem canonical_startCollective {v d wid body post} (hv : View.Canonical v) : View.Canonical (startCollective v d wid body post) := by
  refine ite_holds (canonical_startKeyed hv) ?_
  split
  · exact View.Canonical.of_st (canonical_postColl (canonical_startKeyed hv))
  · exact canonical_startKeyed hv

theorem canonical_replayAred {v dst} (hv : View.Canonical v) : View.Canonical ((replayAred v dst).1) := by
  unfold replayAred
  split
  · exact canonical_onState hv (fun _ h => canonical_opScratchPut h)
  · exact hv

theorem canonical_execAred {h d c w a ct s} (hs : MemoryCanonical s) : OutCanonical (execAred h d c w a ct s) := by
  refine canonical_issue ?_ hs
  intro v rows hv
  split
  · exact trivial
  · refine ite_holds trivial ?_
    split
    · exact (OnSome.orElse canonical_checkRange canonical_checkRange).some ‹_›
    · exact ite_holds (canonical_startKeyed hv) (canonical_startCollective (canonical_replayAred hv))

theorem canonical_execA2av {h t d ca cb w p q s} (hs : MemoryCanonical s) : OutCanonical (execA2av h t d ca cb w p q s) := by
  refine canonical_issue ?_ hs
  intro v rows hv
  extract_lets capA capB esz cnt src dst
  split
  · exact trivial
  · split
    · exact canonical_startKeyed hv
    · extract_lets n
      split
      · exact (OnSome.orElse canonical_checkRange canonical_checkRange).some ‹_›
      · split
        · exact canonical_checkRange.some ‹_›
        · exact ite_holds trivial (ite_holds trivial (canonical_fed hv (canonical_startCollective hv)))

theorem canonical_finishAred {s id o wid k dst n ct cs} (hs : MemoryCanonical s) : MemoryCanonical (finishAred s id o wid k dst n ct cs) := by
  unfold finishAred
  split
  · exact hs
  · exact canonical_finishBad hs
  · exact canonical_lateFlags (canonical_finishOp (canonical_dropColl (canonical_putRest hs)))

theorem canonical_a2avElem {s id o wid k esz src send cs i j e a} (hs : MemoryCanonical s) :
    MemoryCanonical ((a2avElem s id o wid k esz src send cs i j e a).1) := by
  unfold a2avElem
  extract_lets part addr read r off next
  have hr : MemoryCanonical r.1 := canonical_noteFirst (canonical_engineRead hs)
  split
  · exact canonical_putPort hr
  · split
    · exact (canonical_landBytes hr).done ‹_›
    · exact (canonical_landBytes hr).wait ‹_›
    · exact canonical_noteFirst ((canonical_landBytes hr).bad ‹_›)
  · exact hs

theorem canonical_a2avEnd {s id o wid k esz cs i j n a} (hs : MemoryCanonical s) : MemoryCanonical ((a2avEnd s id o wid k esz cs i j n a).1) := by
  unfold a2avEnd
  dsimp only
  split
  · split
    · exact hs
    · exact canonical_tellRank hs
  · exact canonical_modWindow (canonical_modWindow hs)
  · exact hs

theorem canonical_execA2avTransferLanding {id x s} (hs : MemoryCanonical s) : OutCanonical (execA2avTransferLanding id x s) := by
  unfold execA2avTransferLanding
  split
  · split
    · split
      · refine OutCanonical.of_next (ite_holds hs ?_)
        split
        · split
          · exact hs
          · exact canonical_setBody (canonical_a2avElem hs)
        · split
          · exact hs
          · exact canonical_setBody (canonical_a2avEnd hs)
      · exact hs
    · exact hs
  · exact hs

theorem canonical_finishA2av {s id o wid k esz cnts rank cs bad} (hs : MemoryCanonical s) :
    MemoryCanonical (finishA2av s id o wid k esz cnts rank cs bad) := by
  unfold finishA2av
  extract_lets n ended
  have hended : MemoryCanonical ended := by
    simp only [ended]
    split
    · exact canonical_finishBad hs
    · exact canonical_endLogged hs
  exact ite_holds hended (canonical_dropColl (canonical_putElems hended))

theorem canonical_postAred {s o part wid k} (hs : MemoryCanonical s) : MemoryCanonical (postAred s o part wid k) := by
  unfold postAred
  split
  · exact ite_holds hs (canonical_postColl hs)
  · exact hs

theorem canonical_collElem {s id o w k i} (hs : MemoryCanonical s) : MemoryCanonical (collElem s id o w k i) := by
  have hput : ∀ {a bs j}, MemoryCanonical (if o.wrote.contains j then s else putWrote (opScratchPut s o a bs) id j) :=
    ite_holds hs (canonical_putWrote (canonical_opScratchPut hs))
  unfold collElem
  extract_lets known
  split
  · refine ite_holds (ite_holds hs (canonical_readEarly hs)) ?_
    split
    · exact hput
    · exact hs
  · split
    · exact hput
    · exact hs
  · exact hs

theorem canonical_endCollective {s id o wid k} (hs : MemoryCanonical s) : MemoryCanonical (endCollective s id o wid k) := by
  unfold endCollective
  extract_lets part posted
  have hposted : MemoryCanonical posted := canonical_postAred hs
  have hdrop : ∀ {st}, MemoryCanonical (finishOp (dropColl posted part wid k) id st) := canonical_finishOp (canonical_dropColl hposted)
  split
  · exact hposted
  · refine ite_holds hdrop (ite_holds hdrop ?_)
    split
    · exact hposted
    · refine ite_holds hdrop ?_
      split
      · exact canonical_finishAred hposted
      · exact ite_holds (canonical_finishA2av hposted) hposted
      · exact hposted

theorem canonical_execCollectiveComplete {x s} (hs : MemoryCanonical s) : OutCanonical (execCollectiveComplete x s) := by
  unfold execCollectiveComplete
  split
  · split
    · refine OutCanonical.of_next (ite_holds hs ?_)
      split
      · exact canonical_endCollective hs
      · split
        · exact canonical_collElem hs
        · exact hs
    · exact hs
  · exact hs

theorem canonical_ackAt {s part wid rank op} (hs : MemoryCanonical s) : MemoryCanonical ((ackAt s part wid rank op).1) := by
  unfold ackAt
  split
  · split
    · dsimp only
      split
      · exact canonical_endLogged hs
      · exact canonical_modWindow (canonical_endLogged hs)
    · exact canonical_modWindow hs
    · exact hs
  · exact hs

theorem canonical_applyMsg {s p m} (hs : MemoryCanonical s) : MemoryCanonical ((applyMsg s p m).1) := by
  unfold applyMsg
  split
  · exact hs
  · split
    · split
      · exact hs
      · split
        · exact canonical_edgeIn ((canonical_devStoreAll hs).done ‹_›)
        · exact (canonical_devStoreAll hs).wait ‹_›
        · exact (canonical_devStoreAll hs).bad ‹_›
    · exact canonical_tellRank hs
    · exact canonical_ackAt hs
    · exact hs

theorem canonical_portTurn {s p} (hs : MemoryCanonical s) : MemoryCanonical (portTurn s p) := by
  unfold portTurn
  extract_lets x k
  split
  · exact hs
  · have hmsg : ∀ {m}, MemoryCanonical (applyMsg s p m).1 := canonical_applyMsg hs
    exact ite_holds hs (ite_holds hs (ite_holds (ite_holds (canonical_of_eq hmsg rfl rfl)
      (canonical_setLink (canonical_of_eq hmsg rfl rfl))) hmsg))

theorem canonical_portTick {s} (hs : MemoryCanonical s) : MemoryCanonical (portTick s) :=
  foldl_holds (fun _ _ h => canonical_portTurn h) hs

theorem canonical_partnerFault {v u gid} (hv : View.Canonical v) : View.Canonical (partnerFault v u gid) := by
  refine canonical_onState hv ?_
  intro t ht
  split
  · exact canonical_flush (View.Canonical.of_st (canonical_takeTrap ((canonical_viewAt ht).some ‹_›)))
  · exact ht

theorem canonical_xchgIssue {v big r w h} (hv : View.Canonical v) : Res.Canonical (xchgIssue v big r w h) := by
  refine ite_holds trivial ?_
  split
  · exact View.Canonical.of_st (canonical_takeTrap (canonical_partnerFault hv))
  · split
    · exact hv
    · refine ite_holds trivial ?_
      split
      · exact ite_holds hv trivial
      · refine ite_holds trivial ?_
        split
        · exact hv
        · exact ite_holds (View.Canonical.of_st (canonical_takeTrap (canonical_partnerFault hv))) hv

theorem canonical_execXchg {h t r p s} (hs : MemoryCanonical s) : OutCanonical (execXchg h t r p s) := by
  refine canonical_issue ?_ hs
  intro v rows hv
  split
  · exact trivial
  · exact canonical_xchgIssue hv

theorem canonical_sendRows {s v x m dst} (hs : MemoryCanonical s) : MemoryCanonical (sendRows s v x m dst) :=
  foldl_holds (fun _ _ h => canonical_sendFlit h) hs

theorem canonical_swapGroups {s a b x y} (hs : MemoryCanonical s) : MemoryCanonical (swapGroups s a b x y) := by
  unfold swapGroups
  extract_lets m near sent mark rows swapped both noted
  have hsent : MemoryCanonical sent := canonical_sendRows (canonical_sendRows hs)
  have hboth : MemoryCanonical both := canonical_modGroup (canonical_modGroup hs)
  exact ite_holds (canonical_modGroup (canonical_modGroup hsent)) (ite_holds hs (ite_holds hboth (canonical_of_eq hboth rfl rfl)))

theorem canonical_execXchgSwap {uid gid s} (hs : MemoryCanonical s) : OutCanonical (execXchgSwap uid gid s) := by
  unfold execXchgSwap
  split
  · split
    · split
      · split
        · exact OutCanonical.of_next (ite_holds (canonical_swapGroups hs) hs)
        · exact hs
      · exact hs
    · exact hs
  · exact hs

/-! ### Management and the host -/

theorem canonical_trainLinks {s} (hs : MemoryCanonical s) : MemoryCanonical (trainLinks s) :=
  ite_holds (foldl_holds (fun _ _ h => h) (foldl_holds (fun _ _ h => h) hs)) hs

theorem canonical_execPowerOnReset {s} (hs : MemoryCanonical s) : OutCanonical (execPowerOnReset s) :=
  canonical_trainLinks ⟨hs.1, fun _ h => absurd h (List.not_mem_nil)⟩

theorem canonical_fwAct {s a} (hs : MemoryCanonical s) : MemoryCanonical (fwAct s a) := by
  unfold fwAct
  split
  · exact OnSome.getD (canonical_setCtlReg hs) hs
  · exact canonical_putCellar hs (Memory.wf_bputs _ _ _ hs.1)
  · split
    · split
      · split
        · exact canonical_modGroup hs
        · exact hs
      · exact hs
    · exact hs

theorem canonical_runFirmware {s} (hs : MemoryCanonical s) : MemoryCanonical (runFirmware s) := by
  unfold runFirmware
  split
  · exact ite_holds (canonical_fwAct hs) hs
  · exact hs

theorem canonical_setMb {s f m} (hs : MemoryCanonical s) : MemoryCanonical (setMb s f m) :=
  hs

theorem canonical_answer {s f st resp} (hs : MemoryCanonical s) : MemoryCanonical (answer s f st resp) :=
  hs

theorem canonical_ring {s f c} (hs : MemoryCanonical s) : MemoryCanonical (ring s f c) :=
  ite_holds hs hs

theorem canonical_mailbox {s f i phys recov run} (hs : MemoryCanonical s) (hrun : ∀ t, MemoryCanonical t → MbRes.Canonical (run t)) :
    OutCanonical (mailbox s f i phys recov run) := by
  refine OutCanonical.of_next (ite_holds hs (ite_holds (canonical_ring hs) (ite_holds hs (ite_holds (canonical_answer hs) ?_))))
  split
  · exact canonical_answer ((hrun _ (canonical_setMb hs)).done ‹_›)
  · exact (hrun _ (canonical_setMb hs)).wait ‹_›

theorem canonical_execStatus {f s} (hs : MemoryCanonical s) : OutCanonical (execStatus f s) :=
  canonical_mailbox hs (fun _ h => h)

theorem canonical_execFwload {f img s} (hs : MemoryCanonical s) : OutCanonical (execFwload f img s) := by
  refine canonical_mailbox hs ?_
  intro t ht
  dsimp only
  split
  · exact ht
  · exact ite_holds ht ht

theorem canonical_execCfgwrite {f rec s} (hs : MemoryCanonical s) : OutCanonical (execCfgwrite f rec s) :=
  canonical_mailbox hs (fun _ h => h)

theorem canonical_execAttest {f nonce s} (hs : MemoryCanonical s) : OutCanonical (execAttest f nonce s) :=
  canonical_mailbox hs (fun _ h => ite_holds h h)

theorem canonical_execPartset {f part regs s} (hs : MemoryCanonical s) : OutCanonical (execPartset f part regs s) := by
  refine canonical_mailbox hs ?_
  intro t ht
  refine ite_holds ht ?_
  split <;> exact ht

theorem canonical_execBindfn {f target part s} (hs : MemoryCanonical s) : OutCanonical (execBindfn f target part s) :=
  canonical_mailbox hs (fun _ h => ite_holds h h)

theorem canonical_measureImage {s id} (hs : MemoryCanonical s) : MemoryCanonical (measureImage s id) := by
  unfold measureImage
  split <;> exact hs

theorem canonical_dropHandlers {s part} (hs : MemoryCanonical s) : MemoryCanonical (dropHandlers s part) :=
  hs

theorem canonical_execHandler {f part addr args caps s} (hs : MemoryCanonical s) : OutCanonical (execHandler f part addr args caps s) := by
  refine canonical_mailbox hs ?_
  intro t ht
  refine ite_holds ht ?_
  split
  · exact (canonical_loadImage ht).wait ‹_›
  · exact ht
  · rename_i s1 img st word hs1
    have hs1 := (canonical_loadImage ht).done hs1
    exact ite_holds hs1 (canonical_setPart (canonical_dropHandlers (canonical_measureImage hs1)))

theorem canonical_execEvring {f addr len s} (hs : MemoryCanonical s) : OutCanonical (execEvring f addr len s) := by
  refine canonical_mailbox hs ?_
  intro t ht
  split
  · exact ht
  · exact ite_holds ht (canonical_deliverAll ht)

theorem canonical_execResetfn {f target s} (hs : MemoryCanonical s) : OutCanonical (execResetfn f target s) :=
  canonical_mailbox hs (fun _ h => ite_holds h h)

theorem canonical_execLoadimg {f addr s} (hs : MemoryCanonical s) : OutCanonical (execLoadimg f addr s) := by
  refine canonical_mailbox hs ?_
  intro t ht
  split
  · exact ht
  · split
    · exact (canonical_loadImage ht).wait ‹_›
    · exact ht
    · rename_i s1 img st word hs1
      have hs1 := (canonical_loadImage ht).done hs1
      split
      · exact canonical_measureImage hs1
      · exact hs1

theorem canonical_execGraphstart {f addr s} (hs : MemoryCanonical s) : OutCanonical (execGraphstart f addr s) := by
  refine canonical_mailbox hs ?_
  intro t ht
  split
  · exact ht
  · exact canonical_setFn ht

theorem canonical_endRequests {s part span st} (hs : MemoryCanonical s) : MemoryCanonical (endRequests s part span st) := by
  refine foldl_holds ?_ hs
  intro t x ht
  split
  · exact ite_holds (canonical_finishOp ht) ht
  · exact ht

theorem canonical_endWrite {s part span bad id o} (hs : MemoryCanonical s) : MemoryCanonical (endWrite s part span bad id o) := by
  unfold endWrite
  split
  · exact ite_holds hs hs
  · exact ite_holds (ite_holds hs (canonical_lateTrap hs)) hs
  · exact ite_holds (canonical_finishBad (canonical_modGroup hs)) hs
  · dsimp only
    split
    · exact ite_holds (canonical_finishBad hs) hs
    · exact hs
  · dsimp only
    split
    · exact ite_holds hs hs
    · exact hs
  · exact hs

theorem canonical_endWrites {s part span bad} (hs : MemoryCanonical s) : MemoryCanonical (endWrites s part span bad) :=
  foldl_holds (fun _ _ h => canonical_endWrite h) hs

theorem canonical_execReplay {f w s} (hs : MemoryCanonical s) : OutCanonical (execReplay f w s) := by
  refine canonical_mailbox hs ?_
  intro t ht
  split
  · exact ht
  · split
    · exact ht
    · refine ite_holds ht ?_
      split
      · exact canonical_endWrites (canonical_endRequests ht)
      · exact ht

theorem canonical_execFltcancel {f w s} (hs : MemoryCanonical s) : OutCanonical (execFltcancel f w s) := by
  refine canonical_mailbox hs ?_
  intro t ht
  split
  · exact ht
  · split
    · exact ht
    · exact canonical_endWrites (canonical_endRequests ht)

theorem canonical_execWinreg {f wid base length nranks myrank s} (hs : MemoryCanonical s) :
    OutCanonical (execWinreg f wid base length nranks myrank s) := by
  refine canonical_mailbox hs ?_
  intro t ht
  split
  · exact ht
  · exact ite_holds ht (ite_holds ht ht)

theorem canonical_execRankmap {f i v s} (hs : MemoryCanonical s) : OutCanonical (execRankmap f i v s) := by
  refine canonical_mailbox hs ?_
  intro t ht
  split
  · exact ht
  · exact ite_holds ht ht

theorem canonical_execBar2base {f base s} (hs : MemoryCanonical s) : OutCanonical (execBar2base f base s) :=
  canonical_mailbox hs (fun _ h => h)

theorem canonical_execSyncsum {f cursor s} (hs : MemoryCanonical s) : OutCanonical (execSyncsum f cursor s) :=
  canonical_mailbox hs (fun _ h => h)

theorem canonical_applyWrites {n s f} (hs : MemoryCanonical s) : MemoryCanonical (applyWrites n s f) := by
  induction n generalizing s with
  | zero => exact hs
  | succ n ih =>
    simp only [applyWrites]
    split
    · split
      · rename_i t ht
        have ht := (canonical_devStoreAll hs).done ht
        exact ih (canonical_edgeIn ht)
      · exact (canonical_devStoreAll hs).wait ‹_›
      · rename_i t c d ht
        have ht := (canonical_devStoreAll hs).bad ht
        exact ih ht
    · exact hs

theorem canonical_execUnknown {f code s} (hs : MemoryCanonical s) : OutCanonical (execUnknown f code s) :=
  canonical_mailbox hs (fun _ h => h)

theorem canonical_bar0Write {s f off bs} (hs : MemoryCanonical s) : MemoryCanonical (bar0Write s f off bs) :=
  ite_holds (ite_holds (canonical_ring hs) (canonical_setMb (canonical_ring hs))) hs

theorem canonical_execHostWrite {f a bs s} (hs : MemoryCanonical s) : OutCanonical (execHostWrite f a bs s) :=
  OutCanonical.of_next (ite_holds (ite_holds (canonical_bar0Write hs) hs) (ite_holds hs (ite_holds hs (canonical_applyWrites hs))))

theorem canonical_freeBytes {n s} (hs : MemoryCanonical s) : MemoryCanonical ((freeBytes n s).2) := by
  induction n generalizing s with
  | zero => exact hs
  | succ n ih => exact ih hs

theorem canonical_applyRead {s f} (hs : MemoryCanonical s) : MemoryCanonical (applyRead s f) := by
  unfold applyRead
  dsimp only
  split
  · split
    · exact canonical_edgeOut hs
    · exact (canonical_devLoad hs).wait ‹_›
    · exact canonical_setFn (canonical_freeBytes hs)
  · exact hs

theorem canonical_execHostRead {f a n s} (hs : MemoryCanonical s) : OutCanonical (execHostRead f a n s) :=
  OutCanonical.of_next (ite_holds (ite_holds hs hs) (ite_holds hs (ite_holds hs (canonical_applyRead hs))))

theorem canonical_execFunctionMigrationPause {f s} (hs : MemoryCanonical s) : OutCanonical (execFunctionMigrationPause f s) := by
  refine OutCanonical.of_next (ite_holds hs ?_)
  split
  · exact canonical_askBlocks hs
  · exact hs

end Sys2Proof.Machine
end

section
/-! PROOFS. The memories stay canonical, last part: the dispatcher and the step; the statements MemoryStaysCanonical and ResetMemoryIsCanonical. -/

namespace Sys2Proof.Machine
open Sys2Proof

/-! ### Every instruction and every event -/

theorem canonical_exec {i s} (hs : MemoryCanonical s) : OutCanonical (exec i s) := by
  cases i with
  | nop | trap | sadd | ssub | smul | smulh | sand | sor | sxor | sshl | sshr | ssra | smin | smax | ssel | scmp | saddi | sandi | sori | sxori
    | sshli | sshri | scmpi | smov | sldk | vcmp | pand | por | pxor | pnot | pmov | pset | pcnt | rdfl | vote | reduce | sample | fcmp | fmode
    | capget | qclose | deq | mtblsw =>
    exact canonical_issue (fun _ _ h => h) hs
  | want | wantVector | wanth => exact canonical_issue (fun _ _ h => ite_holds (View.Canonical.of_st (canonical_wantTrace h)) trivial) hs
  | wants => exact canonical_execWants hs
  | exit => exact canonical_issue (fun _ _ h => canonical_exitGroup (canonical_wantTrace h)) hs
  | call => exact canonical_execCall hs
  | ret => exact canonical_issue (fun _ _ h => View.Canonical.of_st (canonical_wantTrace h)) hs
  | yield => exact canonical_issue (fun _ _ h => View.Canonical.of_st (canonical_settle h)) hs
  | spawn => exact canonical_execSpawn hs
  | launch => exact canonical_execLaunch hs
  | brk => exact canonical_issue (fun _ _ h => ite_holds (Res.Canonical.of_after (ite_holds h h)) h) hs
  | hwait => exact canonical_execHwait hs
  | htest => exact canonical_execHtest hs
  | hcancel => exact canonical_execHcancel hs
  | hmov => exact ite_holds (canonical_issue (fun _ _ h => h) hs) (canonical_issue (fun _ _ h => h) hs)
  | waitcnt | fstat | trace => exact canonical_issue (fun _ _ h => ite_holds h h) hs
  | barinit | bartry | tagset | taginv | capoff | commit => exact canonical_issue (fun _ _ h => ite_holds trivial h) hs
  | bararr => exact canonical_issue (fun _ _ h => ite_holds trivial (ite_holds h (canonical_doneS h))) hs
  | barwt | mtbl => exact canonical_issue (fun _ _ h => ite_holds trivial (ite_holds h h)) hs
  | phase => exact canonical_execPhase hs
  | smovi => exact canonical_execSmovi hs
  | gets => exact canonical_execGets hs
  | sets => exact canonical_execSets hs
  | vadd | vsub | vmul | vmulh | vmad | vand | vor | vxor | vnot | vshl | vshr | vsra | vmin | vmax | vabs | vclz | vpopc | vadds | vsubs | vaddX
    | vsubX | vmulX | vmulhX | vandX | vorX | vxorX | vshlX | vshrX | vsraX | vminX | vmaxX | vaddsX | vsubsX | vsel | shfl | scan =>
    exact canonical_issue (fun _ _ h => canonical_writeElems h) hs
  | vmov => exact canonical_execVmov hs
  | fadd | fsub | fmul | ffma | fmin | fmax | fabs | fneg | frcp | frsq | fsqrt | fexp2 | flog2 | fsin | fcos | ftanh =>
    exact canonical_issue (fun _ _ h => canonical_bumpRound (canonical_writeRow h)) hs
  | fclass => exact canonical_issue (fun _ _ h => canonical_writeRow h) hs
  | cvt | cvtsr => exact canonical_convertOp hs
  | qscale => exact canonical_issue (fun _ _ h => canonical_writeRow (canonical_keptRow h)) hs
  | qpack => exact canonical_issue (fun _ _ h => canonical_bumpRound (canonical_writeRows h)) hs
  | qunpk | plane => exact canonical_issue (fun _ _ h => canonical_writeRows h) hs
  | lds => exact canonical_execLds hs
  | sts => exact canonical_execSts hs
  | atomsAdd | atomsAnd | atomsOr | atomsXor | atomsMin | atomsMax | atomsExch | atomsCas | atomsFadd => exact canonical_atomsOp hs
  | taglk => exact canonical_execTaglk hs
  | capld => exact canonical_execCapld hs
  | capst => exact canonical_execCapst hs
  | capsub => exact canonical_issue (fun _ _ h => ite_holds trivial (ite_holds trivial (ite_holds trivial h))) hs
  | capperm => exact canonical_issue (fun _ _ h => ite_holds trivial (ite_holds trivial h)) hs
  | copy => exact canonical_execCopy hs
  | gather | scatter => exact canonical_gatherOp hs
  | qld | qst => exact canonical_armQueue hs
  | qres => exact canonical_execQres hs
  | pagereq => exact canonical_execPagereq hs
  | atomgAdd => exact canonical_execAtomgAdd hs
  | atomgAnd => exact canonical_execAtomgAnd hs
  | atomgOr => exact canonical_execAtomgOr hs
  | atomgXor => exact canonical_execAtomgXor hs
  | atomgMin => exact canonical_execAtomgMin hs
  | atomgMax => exact canonical_execAtomgMax hs
  | atomgExch => exact canonical_execAtomgExch hs
  | atomgCas => exact canonical_execAtomgCas hs
  | atomgFadd => exact canonical_execAtomgFadd hs
  | fence => exact canonical_issue (fun _ _ h => ite_holds (View.Canonical.of_st (canonical_acquirePool h)) h) hs
  | enq => exact canonical_issue (fun _ _ h => canonical_startKeyed h) hs
  | mma => exact canonical_issue (fun _ _ h => canonical_mmaIssue h) hs
  | baton => exact canonical_execBaton hs
  | fetchn => exact canonical_execFetchn hs
  | pubn | sealn => exact canonical_publishOp hs
  | stopref => exact canonical_execStopref hs
  | subn => exact canonical_execSubn hs
  | put => exact canonical_execPut hs
  | wctr => exact canonical_execWctr hs
  | ared => exact canonical_execAred hs
  | a2av => exact canonical_execA2av hs
  | xchg => exact canonical_execXchg hs
  | sortk => exact canonical_execSortk hs
  | rdctr => exact canonical_execRdctr hs
  | icinv => exact canonical_issue (fun _ _ h => canonical_startOp h) hs
  | tlbinv => exact canonical_issueP (fun _ _ h => canonical_startOp h) hs
  | prd => exact canonical_execPrd hs
  | pwr => exact canonical_execPwr hs
  | eret => exact canonical_execEret hs
  | haltb => exact canonical_execHaltb hs
  | endBlock => exact canonical_execEndBlock hs
  | idleWake => exact canonical_execIdleWake hs
  | brokenChain => exact canonical_execBrokenChain hs
  | asyncComplete => exact canonical_execAsyncComplete hs
  | copyComplete => exact canonical_execCopyComplete hs
  | rangeEntryRelease => exact canonical_execRangeEntryRelease hs
  | loadQueueReadahead => exact canonical_execLoadQueueReadahead hs
  | storeQueueWrite => exact canonical_execStoreQueueWrite hs
  | atomgApply => exact canonical_execAtomgApply hs
  | mmaComplete => exact canonical_execMmaComplete hs
  | commitTakeEffect => exact canonical_execCommitTakeEffect hs
  | finalCommit => exact canonical_execFinalCommit hs
  | xchgSwap => exact canonical_execXchgSwap hs
  | enqAccept => exact canonical_execEnqAccept hs
  | blockPlacement => exact canonical_placeFirst hs
  | idleBlockPreempt => exact canonical_execIdleBlockPreempt hs
  | stageRetire => exact canonical_execStageRetire hs
  | affinityReassign => exact canonical_execAffinityReassign hs
  | graphNodeStart => exact canonical_execGraphNodeStart hs
  | loopIteration => exact canonical_execLoopIteration hs
  | graphNodeComplete => exact canonical_execGraphNodeComplete hs
  | settleEvent => exact canonical_execSettleEvent hs
  | publishApply => exact canonical_execPublishApply hs
  | stoprefApply => exact canonical_execStoprefApply hs
  | subnRecord => exact canonical_execSubnRecord hs
  | interestArrival => exact canonical_execInterestArrival hs
  | tileArrival => exact canonical_execTileArrival hs
  | waiterExpiry => exact OutCanonical.of_next (ite_holds hs (foldl_holds (fun _ _ h => ite_holds (ite_holds h h) h) hs))
  | fetchnLifetimeExpiry => exact canonical_execFetchnLifetimeExpiry hs
  | fetchnDelivery => exact canonical_execFetchnDelivery hs
  | removalNotice => exact canonical_execRemovalNotice hs
  | putLanding => exact canonical_execPutLanding hs
  | a2avTransferLanding => exact canonical_execA2avTransferLanding hs
  | collectiveComplete => exact canonical_execCollectiveComplete hs
  | sortkComplete => exact canonical_execSortkComplete hs
  | pageResident => exact canonical_execPageResident hs
  | eviction => exact canonical_execEviction hs
  | lumberSpill => exact canonical_execLumberSpill hs
  | checkWordFailure => exact canonical_execCheckWordFailure hs
  | flitRetry => exact OutCanonical.of_next (ite_holds (canonical_retryLink hs) hs)
  | linkRetrain | doorbellWhileBusy | mbstatDoneClear => exact OutCanonical.of_next (ite_holds hs hs)
  | echoedMark => exact canonical_cutRate hs
  | rateQuietExpiry => exact canonical_execRateQuietExpiry hs
  | trapDelivery => exact canonical_execTrapDelivery hs
  | handlerRunStart => exact canonical_execHandlerRunStart hs
  | sliceEnd => exact canonical_execSliceEnd hs
  | preemptStop => exact canonical_execPreemptStop hs
  | quiesce => exact canonical_execQuiesce hs
  | savedHandleUpdate => exact canonical_execSavedHandleUpdate hs
  | restore => exact canonical_execRestore hs
  | hangWatchdog => exact canonical_execHangWatchdog hs
  | hardwareErrorRefire => exact canonical_execHardwareErrorRefire hs
  | handlerErrorRestart => exact canonical_execHandlerErrorRestart hs
  | traceSample => exact canonical_samplePart hs
  | traceDrain => exact canonical_execTraceDrain hs
  | clusterPowerGate => exact canonical_execClusterPowerGate hs
  | holdSlotWrite => exact OutCanonical.of_next (ite_holds (OnSome.getD (canonical_setCtlReg hs) hs) hs)
  | traceAreaSet | blockRingSet => exact OutCanonical.of_next (OnSome.getD (canonical_setCtlReg hs) hs)
  | status => exact canonical_execStatus hs
  | cfgwrite => exact canonical_execCfgwrite hs
  | bar2base => exact canonical_execBar2base hs
  | syncsum => exact canonical_execSyncsum hs
  | fwload => exact canonical_execFwload hs
  | attest => exact canonical_execAttest hs
  | bindfn => exact canonical_execBindfn hs
  | resetfn => exact canonical_execResetfn hs
  | partset => exact canonical_execPartset hs
  | handler => exact canonical_execHandler hs
  | evring => exact canonical_execEvring hs
  | loadimg => exact canonical_execLoadimg hs
  | graphstart => exact canonical_execGraphstart hs
  | replay => exact canonical_execReplay hs
  | fltcancel => exact canonical_execFltcancel hs
  | winreg => exact canonical_execWinreg hs
  | rankmap => exact canonical_execRankmap hs
  | hostWrite => exact canonical_execHostWrite hs
  | hostRead => exact canonical_execHostRead hs
  | powerOnReset => exact canonical_execPowerOnReset hs
  | powerCap | thermalSlowdown => exact hs
  | thermalStop => exact OutCanonical.of_next (ite_holds hs (canonical_postFree (canonical_freeNext hs)))
  | interestDropped => exact canonical_execInterestDropped hs
  | functionMigrationPause => exact canonical_execFunctionMigrationPause hs
  | functionMigrationResume => exact OutCanonical.of_next (ite_holds hs (canonical_deliverAll hs))

/-! ### The turn of a group and the end of a clock -/

theorem canonical_takeSlot {v} (hv : View.Canonical v) : View.Canonical (takeSlot v) :=
  hv

theorem canonical_turn {s uid gid} (hs : MemoryCanonical s) : OutCanonical (turn s uid gid) := by
  have hc : MemoryCanonical { s with cur := some (uid, gid) } := hs
  unfold turn
  dsimp only
  split
  · exact hs
  · rename_i v hv
    have hv : v.Canonical := (canonical_viewAt hc).some hv
    split
    · exact canonical_emulStep hv
    · split
      · exact canonical_takeSlot hv
      · split
        · exact canonical_exec hc
        · exact canonical_exec hc
        · exact canonical_exec hc
        · exact canonical_takeTrap hv

theorem canonical_runCmd {f c s} (hs : MemoryCanonical s) : OutCanonical (runCmd f c s) := by
  cases c with
  | status => exact canonical_execStatus hs
  | fwload => exact canonical_execFwload hs
  | cfgwrite => exact canonical_execCfgwrite hs
  | attest => exact canonical_execAttest hs
  | partset => exact canonical_execPartset hs
  | bindfn => exact canonical_execBindfn hs
  | handler => exact canonical_execHandler hs
  | evring => exact canonical_execEvring hs
  | resetfn => exact canonical_execResetfn hs
  | loadimg => exact canonical_execLoadimg hs
  | graphstart => exact canonical_execGraphstart hs
  | replay => exact canonical_execReplay hs
  | fltcancel => exact canonical_execFltcancel hs
  | winreg => exact canonical_execWinreg hs
  | rankmap => exact canonical_execRankmap hs
  | bar2base => exact canonical_execBar2base hs
  | syncsum => exact canonical_execSyncsum hs
  | unknown => exact canonical_execUnknown hs

theorem canonical_runAuto {a s} (hs : MemoryCanonical s) : OutCanonical (runAuto a s) := by
  unfold runAuto
  split
  · exact canonical_exec hs
  · exact canonical_runCmd hs
  · exact canonical_execHostWrite hs
  · exact canonical_execHostRead hs
  · exact canonical_execInterestDropped hs
  · exact canonical_runFirmware hs

theorem canonical_firstChange {s autos} (hs : MemoryCanonical s) : OnSome MemoryCanonical (firstChange s autos) := by
  induction autos with
  | nil => exact trivial
  | cons autos rest ih =>
    simp only [firstChange]
    split
    · exact ite_holds ih ((canonical_runAuto hs).next ‹_›)
    · exact ih

theorem canonical_wakeIdle {s} (hs : MemoryCanonical s) : MemoryCanonical (wakeIdle s) := by
  refine foldl_holds (fun t _ ht => foldl_holds (fun w _ hw => ?_) ht) hs
  split
  · split
    · exact (canonical_execIdleWake hw).next ‹_›
    · exact hw
  · exact hw

theorem canonical_trimLumber {s} (hs : MemoryCanonical s) : MemoryCanonical (trimLumber s) :=
  hs

theorem canonical_tick {s} (hs : MemoryCanonical s) : MemoryCanonical (tick s) := by
  unfold tick
  extract_lets started ticked next
  have hstarted : MemoryCanonical started := hs
  have hticked : MemoryCanonical ticked := canonical_portTick (canonical_meshTick (canonical_rateClock (canonical_trimLumber hstarted)))
  clear_value ticked
  have hnext : MemoryCanonical next := canonical_of_eq hticked rfl rfl
  exact canonical_freshSaves (canonical_wakeIdle (foldl_holds (fun _ _ h => canonical_samplePart h) hnext))

theorem canonical_goOn {s} (hs : MemoryCanonical s) : MemoryCanonical (goOn s) := by
  refine ite_holds (canonical_tick hs) ?_
  split
  · rename_i t ht
    have ht : MemoryCanonical t := (canonical_firstChange hs).some ht
    exact ht
  · exact canonical_tick hs

/-! ### One step -/

theorem canonical_step {s} (hs : MemoryCanonical s) : OutCanonical (step s) := by
  unfold step
  split
  · exact ite_holds hs (canonical_exec hs)
  · split
    · exact canonical_turn hs
    · exact canonical_goOn hs

/-- Settles O7: whatever a step does, an event of the agenda, a group's turn, a device event or the end of a clock, the cellar and the attic pages
change only by byte stores, fills from the cellar and evictions, and those keep rising addresses and list no zero. -/
theorem memoryStaysCanonical : Obligations.MemoryStaysCanonical := by
  unfold Obligations.MemoryStaysCanonical
  intro s t hs ht
  exact (canonical_step hs).next ht

/-- Settles O8: the state after reset lists no byte of the cellar and no page (R384). -/
theorem resetMemoryIsCanonical : Obligations.ResetMemoryIsCanonical := by
  unfold Obligations.ResetMemoryIsCanonical
  exact ⟨Memory.wf_nil, fun _ h => absurd h List.not_mem_nil⟩

end Sys2Proof.Machine
end
